-- ==== Sys2Proof/Word.lean ====
section
/-!
DEFINITION. The word types and the sparse map in which every numbered collection of the machine is held:
registers, memory bytes, tables. A map lists only the entries that differ from the default, in strictly
rising order of the key, so that equal contents are equal data.
-/

namespace Sys2Proof

/-- A 64-bit register or control word (01 R27). -/
abbrev Word := BitVec 64

/-- One byte. -/
abbrev Byte := BitVec 8

/-- A sparse map from numbers: only entries that differ from the default stand in it. -/
abbrev SMap (α : Type) := List (Nat × α)

namespace SMap

variable {α : Type}

/-- The entry at `k`; the default when nothing is listed. -/
def get [Inhabited α] : SMap α → Nat → α
  | [], _ => default
  | (j, v) :: r, k => if j = k then v else get r k

/-- The map without any entry at `k`. -/
def erase : SMap α → Nat → SMap α
  | [], _ => []
  | (j, v) :: r, k => if j = k then erase r k else (j, v) :: erase r k

/-- The map with `v` listed at `k`, in key order. -/
def insert : SMap α → Nat → α → SMap α
  | [], k, v => [(k, v)]
  | (j, w) :: r, k, v =>
    if j = k then (k, v) :: r
    else if k < j then (k, v) :: (j, w) :: r
    else (j, w) :: insert r k v

/-- The map that reads `v` at `k`: writing the default removes the entry, so the form stays canonical. -/
def set [Inhabited α] [DecidableEq α] (m : SMap α) (k : Nat) (v : α) : SMap α :=
  if v = default then erase m k else insert m k v

/-- The keys rise strictly from a lower bound and no listed value is the default. -/
def wfFrom [Inhabited α] [DecidableEq α] : Nat → SMap α → Bool
  | _, [] => true
  | lo, (k, v) :: r => decide (lo ≤ k) && decide (v ≠ default) && wfFrom (k + 1) r

/-- The canonical form of a map. -/
def wf [Inhabited α] [DecidableEq α] (m : SMap α) : Bool := wfFrom 0 m

end SMap

/-- A byte memory: the canonical list of `Host.Cell`, an unlisted address reading as zero (18 R444, stage 3). -/
abbrev Mem := SMap Byte

end Sys2Proof
end

