-- ==== Sys2Proof/Syntax.lean ====
section
/-!
DEFINITION. The steps of the machine as syntax: one constructor per row of spec/opcode_table.json. The first 187 are
the instructions of 02 R66; the others are the operations and events of 95 (what a host, the firmware, the fabric or
an engine does as one indivisible step). Fields hold exactly what 02 R62-R64 and each instruction's own rule use.
-/

namespace Sys2Proof

/-- The condition codes of BR, CMP and CMPI (02 R64). -/
inductive Cond where
  | eq | ne | lt | ge | ltu | geu | zero | nonzero
  deriving DecidableEq, Repr, Inhabited

/-- The floating relation codes of FCMP and DCMP (04 R126). -/
inductive FRel where
  | eq | ne | lt | le | gt | ge | un | or
  deriving DecidableEq, Repr, Inhabited

/-- The rounding modes (03 R97). -/
inductive Rm where
  | rne | rz | ru | rd | sr
  deriving DecidableEq, Repr, Inhabited

/-- The format codes 0 to 13 (03 R85). -/
inductive Fmt where
  | raw | int8 | uint8 | int16 | int32 | int64 | bf16 | fp32 | e4m3 | e5m2 | fp4 | t8 | t6 | e8m0
  deriving DecidableEq, Repr, Inhabited

/-- The order field of a memory instruction (02 R64). -/
inductive MemOrd where
  | plain | acq | rel | acqrel
  deriving DecidableEq, Repr, Inhabited

/-- The scope field of a memory instruction (02 R64). -/
inductive Scope where
  | ctx | core | hamlet | quarter | partition | system
  deriving DecidableEq, Repr, Inhabited

/-- The scale field of FGM: the factors 1, 8, 64, 512 (02 R64). -/
inductive Scale where
  | x1 | x8 | x64 | x512
  deriving DecidableEq, Repr, Inhabited

/-- The operations of AMO (04 R141). -/
inductive AmoOp where
  | add | and | or | xor | min | max | minu | maxu | swap | fadd | fmin | fmax
  deriving DecidableEq, Repr, Inhabited

/-- The reducing operations 0 add, 1 min, 2 max of DSCAN, DRED, VRED and VSCAN (04 R130, 07 R217). -/
inductive RedOp where
  | add | min | max
  deriving DecidableEq, Repr, Inhabited

/-- The operations of RCOPY (05 R149). -/
inductive RcOp where
  | add | max | min
  deriving DecidableEq, Repr, Inhabited

/-- The queries of CTXQ (05 R149). -/
inductive CtxQ where
  | state | free | self
  deriving DecidableEq, Repr, Inhabited

/-- The queries of RQRY (05 R149). -/
inductive RingQ where
  | avail | space | state | fill
  deriving DecidableEq, Repr, Inhabited

/-- The kinds of TLBI (05 R184). -/
inductive TlbK where
  | page | range | all
  deriving DecidableEq, Repr, Inhabited

/-- Lane type and controls of DADD, DSUB, DMUL, DFMA (04 R130): INT32 with .SAT, or a floating type with its rounding. -/
inductive LaneArith where
  | int (sat : Bool) | fp32 (rm : Rm) | bf16 (rm : Rm)
  deriving DecidableEq, Repr, Inhabited

/-- Lane type and controls of DMIN and DMAX (04 R129, R130): a floating lane carries rm, which R129 gives to every
floating lane operation and which a minimum has no use for. DEDUCED (log 21). -/
inductive LaneMin where
  | int (unsigned : Bool) | fp32 (rm : Rm) | bf16 (rm : Rm)
  deriving DecidableEq, Repr, Inhabited

/-- Lane type and relation of DCMP (04 R130): the six integer relations, or a floating relation. -/
inductive LaneCmp where
  | int (c : Cond) | fp32 (r : FRel) | bf16 (r : FRel)
  deriving DecidableEq, Repr, Inhabited

/-- Lane type of DEXT, DSCAN and DRED (04 R130). -/
inductive Lane2 where
  | int | fp32
  deriving DecidableEq, Repr, Inhabited

/-- The shift operand of DSHL and DSHR (04 R130): a D register, or an immediate with .I. -/
inductive DShift where
  | reg (b : BitVec 5) | imm (n : BitVec 5)
  deriving DecidableEq, Repr, Inhabited

/-- The lane types of the vector pipe (02 R64). -/
inductive VTy where
  | fp32 | int32 | uint32 | bf16x2 | int16x2
  deriving DecidableEq, Repr, Inhabited

/-- The four timed links (02 R64). -/
inductive Dir where
  | n | e | s | w
  deriving DecidableEq, Repr, Inhabited

/-- Operand a of an FV3 instruction: a V register or the beat present on a link (02 R63, R64, 07 R210). -/
inductive VSrc where
  | reg (a : BitVec 11) | link (l : Dir)
  deriving DecidableEq, Repr, Inhabited

/-- The operands of a VEC instruction with sources a and b (02 R63). -/
structure VArgs where
  d : BitVec 11
  a : VSrc
  b : BitVec 11
  sink : Option Dir
  nf : BitVec 4
  deriving DecidableEq, Repr, Inhabited

/-- The operands of a VEC instruction with the one source a (02 R63). -/
structure VArgs1 where
  d : BitVec 11
  a : VSrc
  sink : Option Dir
  nf : BitVec 4
  deriving DecidableEq, Repr, Inhabited

/-- The C operand of a Mill operation (06 R186): none, a row plane (KV, KM) of the Mere, or the Loft (KN). -/
inductive MillC where
  | none | kv (f : Fmt) (mc : BitVec 4) | km (f : Fmt) (mc : BitVec 4) | kn (f : Fmt) (mn : BitVec 4)
  deriving DecidableEq, Repr, Inhabited

/-- The accumulate field of a Mill operation (02 R64). -/
inductive AccM where
  | acc | ovw | arr
  deriving DecidableEq, Repr, Inhabited

/-- The policy operand of WINDOW (07 R233): the descriptor's, DEFAULT or STALL. -/
inductive WinPol where
  | desc | dflt | stall
  deriving DecidableEq, Repr, Inhabited

/-- The relation of NFSET (07 R236). -/
inductive NfRel where
  | eq | ne | ltu | geu | leu | gtu | always
  deriving DecidableEq, Repr, Inhabited

/-- The counter operand of NFSET (07 R233). -/
inductive NfCtr where
  | none | lc0 | lc1
  deriving DecidableEq, Repr, Inhabited

/-- The destination of SSET (07 R226, R232): the Mere with a priority, or the Loft with or without .SPREAD. -/
inductive SsetDst where
  | mere (p : BitVec 2) | loft (spread : Bool)
  deriving DecidableEq, Repr, Inhabited

/-- The timed engines (02 R52). -/
inductive Eng where
  | mill | vec | strm | reeve
  deriving DecidableEq, Repr, Inhabited

/-- The index entry width of SGTH and SSCT (07 R226). -/
inductive IdxFmt where
  | i32 | i64
  deriving DecidableEq, Repr, Inhabited

/-- A beat that another package of the chain sends over the Causeway: the receiving row edge, the 128 bytes, and, for a
stream beat, where it lands (07 R210, R229; 11 R339). -/
structure BeatIn where
  tile : Nat
  dir : Dir
  data : BitVec 1024
  land : Option (Nat × Nat × Nat × Nat)
  due : Nat
  deriving DecidableEq, Repr, Inhabited

/-- A metadata pair that another package sends (07 R231). -/
structure PairIn where
  tile : Nat
  slot : BitVec 32
  word : BitVec 32
  dst : Nat
  writer : Nat
  due : Nat
  deriving DecidableEq, Repr, Inhabited

/-- A marker that another package sends (11 R340). -/
structure MarkerIn where
  tile : Nat
  west : Bool
  epoch : BitVec 16
  scyc : BitVec 16
  deriving DecidableEq, Repr, Inhabited

/-- A hold that enters over a Causeway link (11 R327): the edge, the package row and the length, none for a gang stop. -/
structure HoldIn where
  west : Bool
  row : Nat
  len : Option Nat
  deriving DecidableEq, Repr, Inhabited

/-- What the hamlet's service firmware does with a fault (12 R346): the table words it writes, the translations it
invalidates, and whether it ends with a notice or with a fatal stop. -/
structure SvcOutcome where
  writes : List (Nat × BitVec 64)
  tlbi : List (TlbK × BitVec 64 × BitVec 64)
  corrected : Bool
  deriving DecidableEq, Repr, Inhabited

/-- An incoming Ultra Ethernet operation (13 R384). -/
inductive UeIn where
  | send (data : List (BitVec 8)) | write (key : Nat) (off : Nat) (data : List (BitVec 8)) | read (key : Nat) (off len : Nat)
  deriving DecidableEq, Repr, Inhabited

/-- Algorithms that a requester offers and that the responder takes (13 R379): SLH-DSA-SHA2-128s in ExtAsym, some BaseAsymAlgo,
SHA-256, ECDHE over P-384, and AES-256-GCM. -/
structure SpdmAlgs where
  slhDsa : Bool
  baseAsym : Bool
  sha256 : Bool
  p384 : Bool
  aes256gcm : Bool
  deriving DecidableEq, Repr, Inhabited

/-- A request to the SPDM responder (13 R379), and the key that IDE_KM sets in a session (13 R366). GET_CAPABILITIES carries the
longest answer that the requester takes at once; a key exchange carries the public-key hash of a requester that
authenticates itself. -/
inductive SpdmReq where
  | version (v : Nat) | capabilities (xfer : Nat) | algorithms (offer : SpdmAlgs) | certificate (slot : Nat) | challenge (nonce : Nat)
  | measurement (index : Nat) | keyExchange (party : Option (BitVec 256)) | heartbeat | keyUpdate | chunk | ideKey (key : Nat) | endSession
  deriving DecidableEq, Repr, Inhabited

/-- A TDISP state (13 R366). -/
inductive Tdi where
  | unlocked | locked | run | error
  deriving DecidableEq, Repr, Inhabited

/-- What a boot stage finds (18 R444, R447): whether the link has trained in FLIT mode (13 R365), whether the steward firmware's
signature holds and which security version it carries (13 R381), the quarters whose self-test passes, and the stacks that
train. -/
structure BootFinding where
  flit : Bool
  signatureOk : Bool
  version : Nat
  quarters : BitVec 4
  stackOk : BitVec 16
  deriving DecidableEq, Repr, Inhabited

/-- A step of the machine: one row of the table of operations and events. -/
inductive Instr where
  -- group 0 (04 R120)
  | nop
  | add (d a b : BitVec 6)
  | addi (d a : BitVec 6) (imm : BitVec 34)
  | sub (d a b : BitVec 6)
  | mul (d a b : BitVec 6)
  | mulh (d a b : BitVec 6)
  | mulhu (d a b : BitVec 6)
  | div (d a b : BitVec 6)
  | divu (d a b : BitVec 6)
  | rem (d a b : BitVec 6)
  | remu (d a b : BitVec 6)
  | and (d a b : BitVec 6)
  | andi (d a : BitVec 6) (imm : BitVec 34)
  | or (d a b : BitVec 6)
  | ori (d a : BitVec 6) (imm : BitVec 34)
  | xor (d a b : BitVec 6)
  | xori (d a : BitVec 6) (imm : BitVec 34)
  | andn (d a b : BitVec 6)
  | shl (d a b : BitVec 6)
  | shli (d a : BitVec 6) (n : BitVec 6)
  | shr (d a b : BitVec 6)
  | shri (d a : BitVec 6) (n : BitVec 6)
  | sra (d a b : BitVec 6)
  | srai (d a : BitVec 6) (n : BitVec 6)
  | rol (d a b : BitVec 6)
  | min (d a b : BitVec 6)
  | max (d a b : BitVec 6)
  | minu (d a b : BitVec 6)
  | maxu (d a b : BitVec 6)
  | clz (d a : BitVec 6)
  | ctz (d a : BitVec 6)
  | popc (d a : BitVec 6)
  | extr (d a b : BitVec 6) (w : BitVec 6)
  | ins (d a b c : BitVec 6) (w : BitVec 6)
  | sel (d a b c : BitVec 6)
  | cmp (cc : Cond) (d a b : BitVec 6)
  | cmpi (cc : Cond) (d a : BitVec 6) (imm : BitVec 30)
  | li (d : BitVec 6) (imm : BitVec 34)
  | lih (d a : BitVec 6) (imm : BitVec 30)
  | adda (d a b : BitVec 6)
  | addai (d a : BitVec 6) (imm : BitVec 34)
  | tagset (d a b : BitVec 6)
  | tagget (d a : BitVec 6)
  | pdiff (d a b : BitVec 6)
  -- group 1 (04 R125, R130)
  | fadd (rm : Rm) (d a b : BitVec 6)
  | fsub (rm : Rm) (d a b : BitVec 6)
  | fmul (rm : Rm) (d a b : BitVec 6)
  | fma (rm : Rm) (d a b c : BitVec 6)
  | fmin (d a b : BitVec 6)
  | fmax (d a b : BitVec 6)
  | fcmp (fc : FRel) (d a b : BitVec 6)
  | fcvt (src dst : Fmt) (rm : Rm) (d a : BitVec 6)
  | fclass (f : Fmt) (d a : BitVec 6)
  | dadd (m : LaneArith) (d a b : BitVec 5) (mask : BitVec 6)
  | dsub (m : LaneArith) (d a b : BitVec 5) (mask : BitVec 6)
  | dmul (m : LaneArith) (d a b : BitVec 5) (mask : BitVec 6)
  | dfma (m : LaneArith) (d a b c : BitVec 5) (mask : BitVec 6)
  | dmin (m : LaneMin) (d a b : BitVec 5) (mask : BitVec 6)
  | dmax (m : LaneMin) (d a b : BitVec 5) (mask : BitVec 6)
  | dand (d a b : BitVec 5) (mask : BitVec 6)
  | dor (d a b : BitVec 5) (mask : BitVec 6)
  | dxor (d a b : BitVec 5) (mask : BitVec 6)
  | dshl (d a : BitVec 5) (k : DShift) (mask : BitVec 6)
  | dshr (arith : Bool) (d a : BitVec 5) (k : DShift) (mask : BitVec 6)
  | dcmp (m : LaneCmp) (d a b : BitVec 5) (mask : BitVec 6)
  | dsel (d a b c : BitVec 5) (mask : BitVec 6)
  | dcvt (src dst : Fmt) (rm : Rm) (d a : BitVec 5) (mask : BitVec 6)
  | dbcast (d a : BitVec 5) (j : BitVec 4) (mask : BitVec 6)
  | dext (ty : Lane2) (d a : BitVec 5) (j : BitVec 4)
  | dins (d a : BitVec 5) (j : BitVec 4)
  | dshuf (d a b : BitVec 5) (mask : BitVec 6)
  | dscan (ty : Lane2) (op : RedOp) (ex : Bool) (d a : BitVec 5) (mask : BitVec 6)
  | dred (ty : Lane2) (op : RedOp) (d a : BitVec 5) (mask : BitVec 6)
  | dhist (rank : Bool) (d a b : BitVec 5) (mask : BitVec 6)
  | diota (d : BitVec 5) (start : BitVec 9) (step : BitVec 6) (mask : BitVec 6)
  -- group 2 (04 R135-R147)
  | ld (d base index : BitVec 6) (sc : Scale) (ord : MemOrd) (scope : Scope) (off : BitVec 20)
  | st (s base index : BitVec 6) (sc : Scale) (ord : MemOrd) (scope : Scope) (off : BitVec 20)
  | ldf (d base index : BitVec 6) (sc : Scale) (ord : MemOrd) (scope : Scope) (off : BitVec 20)
  | stf (s base index : BitVec 6) (sc : Scale) (ord : MemOrd) (scope : Scope) (off : BitVec 20)
  | ldd (d : BitVec 5) (base index : BitVec 6) (sc : Scale) (ord : MemOrd) (scope : Scope) (off : BitVec 20)
  | std (s : BitVec 5) (base index : BitVec 6) (sc : Scale) (ord : MemOrd) (scope : Scope) (off : BitVec 20)
  | lddf (d : BitVec 5) (base index : BitVec 6) (sc : Scale) (ord : MemOrd) (scope : Scope) (off : BitVec 20)
  | stdf (s : BitVec 5) (base index : BitVec 6) (sc : Scale) (ord : MemOrd) (scope : Scope) (off : BitVec 20)
  | amo (op : AmoOp) (d base index : BitVec 6) (ord : MemOrd) (scope : Scope) (off : BitVec 16)
  | cas (d base index : BitVec 6) (ord : MemOrd) (scope : Scope) (off : BitVec 16)
  | pref (base index : BitVec 6) (sc : Scale) (scope : Scope) (off : BitVec 20)
  | discard (d base index : BitVec 6) (sc : Scale) (scope : Scope) (off : BitVec 20)
  | flush (d base index : BitVec 6) (sc : Scale) (scope : Scope) (off : BitVec 20)
  | fence (ord : MemOrd) (scope : Scope)
  -- group 3 (05 R149)
  | br (cc : Cond) (a b : BitVec 6) (slot : BitVec 3) (line : BitVec 26)
  | jmp (slot : BitVec 3) (line : BitVec 26)
  | jmpr (a : BitVec 6)
  | call (slot : BitVec 3) (line : BitVec 26)
  | start (p : BitVec 2) (a b : BitVec 6) (slot : BitVec 3) (line : BitVec 26)
  | exit
  | yield
  | ctxq (q : CtxQ) (d a : BitVec 6)
  | send (notice : Bool) (d a b c : BitVec 6)
  | recv (d a b : BitVec 6)
  | waitm (d : BitVec 6)
  | rrsv (d a : BitVec 6) (h : BitVec 4)
  | rpub (a b : BitVec 6) (h : BitVec 4)
  | rwait (d a : BitVec 6) (h : BitVec 4)
  | radv (a : BitVec 6) (h : BitVec 4)
  | reos (h : BitVec 4)
  | rqry (q : RingQ) (d : BitVec 6) (h : BitVec 4)
  | smode (x : BitVec 4) (a b : BitVec 6)
  | soff (x : BitVec 4)
  | copy (a b c : BitVec 6)
  | gather (a b c : BitVec 6)
  | scatter (a b c : BitVec 6)
  | rcopy (op : RcOp) (idx : Bool) (a b c : BitVec 6)
  | cretry (a : BitVec 6)
  | cskip (row : Bool) (a : BitVec 6)
  | cabort (a : BitVec 6)
  | step (d : BitVec 6) (g : BitVec 6)
  | handoff (d a : BitVec 6) (n : BitVec 8)
  | take (d : BitVec 6) (n : BitVec 8)
  | post (a b : BitVec 6) (k : BitVec 6)
  | trap (imm : BitVec 34)
  | eret
  | sysr (d a : BitVec 6) (cw : BitVec 12)
  | sysw (d a : BitVec 6) (cw : BitVec 12)
  | resume (a b : BitVec 6)
  | halt
  | tlbi (k : TlbK) (a b : BitVec 6)
  | dbgbrk (id : BitVec 16)
  -- group 4 (06 R193, R204)
  | mill (acc : BitVec 3) (c : MillC) (fA fB : Fmt) (ma mb : BitVec 4) (sweeps : BitVec 3) (m : AccM) (nf : BitVec 4)
  | millg (acc : BitVec 3) (c : MillC) (fA fB : Fmt) (ma mb : BitVec 4) (w : BitVec 2) (sweeps : BitVec 3) (m : AccM) (nf : BitVec 4)
  | millx (acc : BitVec 3) (c : MillC) (fA fB : Fmt) (ma mb : BitVec 4) (off : BitVec 4) (sweeps : BitVec 3) (m : AccM) (nf : BitVec 4)
  | mzero (acc : BitVec 3) (nf : BitVec 4)
  | mdrain (d : BitVec 11) (bank : BitVec 3) (nf : BitVec 4)
  | mseta (d : BitVec 4) (a : BitVec 11) (nf : BitVec 4)
  | msetb (d : BitVec 4) (a : BitVec 11) (nf : BitVec 4)
  | midx (a : BitVec 11) (nf : BitVec 4)
  -- group 5 (07 R212-R223)
  | vadd (ty : VTy) (x : VArgs)
  | vsub (ty : VTy) (x : VArgs)
  | vmul (ty : VTy) (x : VArgs)
  | vfma (ty : VTy) (x : VArgs)
  | vmin (ty : VTy) (x : VArgs)
  | vmax (ty : VTy) (x : VArgs)
  | vand (ty : VTy) (x : VArgs)
  | vor (ty : VTy) (x : VArgs)
  | vxor (ty : VTy) (x : VArgs)
  | vshl (ty : VTy) (x : VArgs)
  | vshr (ty : VTy) (x : VArgs)
  | vsra (ty : VTy) (x : VArgs)
  | vcmp (ty : VTy) (x : VArgs)
  | vsel (ty : VTy) (x : VArgs)
  | vcvt (ty : VTy) (widen : Bool) (rm : Rm) (f : Fmt) (x : VArgs1)
  | vpack (f : Fmt) (d a : BitVec 11) (nf : BitVec 4)
  | vunpk (f : Fmt) (d a : BitVec 11) (nf : BitVec 4)
  | vexp2 (ty : VTy) (x : VArgs1)
  | vlog2 (ty : VTy) (x : VArgs1)
  | vrcp (ty : VTy) (x : VArgs1)
  | vrsq (ty : VTy) (x : VArgs1)
  | vred (ty : VTy) (op : RedOp) (x : VArgs1)
  | vscan (ty : VTy) (op : RedOp) (ex : Bool) (x : VArgs1)
  | vthr (x : VArgs)
  | vbis (x : VArgs)
  | vcnt (x : VArgs)
  | vperm (x : VArgs)
  | vrot (n : BitVec 5) (x : VArgs1)
  | vbc (j : BitVec 5) (x : VArgs1)
  | vmov (x : VArgs1)
  | vli (hi : Bool) (lane : Option (BitVec 5)) (d : BitVec 11) (imm : BitVec 20) (nf : BitVec 4)
  | vld (d a : BitVec 11) (off : BitVec 18) (nf : BitVec 4)
  | vst (p : BitVec 2) (d a : BitVec 11) (off : BitVec 18) (nf : BitVec 4)
  -- group 6 (07 R226-R232)
  | sld (p : BitVec 2) (sx : BitVec 6) (seg : BitVec 6) (len : BitVec 12) (nf : BitVec 4)
  | sldl (spread : Bool) (sx : BitVec 6) (seg : BitVec 6) (len : BitVec 12) (nf : BitVec 4)
  | sst (sx : BitVec 6) (seg : BitVec 6) (len : BitVec 12) (nf : BitVec 4)
  | sgth (p : BitVec 2) (f : IdxFmt) (sx : BitVec 6) (seg : BitVec 6) (len : BitVec 12) (nf : BitVec 4)
  | ssct (f : IdxFmt) (sx : BitVec 6) (seg : BitVec 6) (len : BitVec 12) (nf : BitVec 4)
  | sxl (p : BitVec 2) (dir : Dir) (sx : BitVec 6) (len : BitVec 12) (nf : BitVec 4)
  | scnt (p : BitVec 2) (dir : Dir) (sx : BitVec 6) (len : BitVec 12) (nf : BitVec 4)
  | smeta (dir : Dir) (sx : BitVec 6) (len : BitVec 12) (nf : BitVec 4)
  | sset (dst : SsetDst) (sx sy : BitVec 6) (len : BitVec 12) (nf : BitVec 4)
  -- group 7 (07 R233)
  | window (pol : WinPol) (w : BitVec 4) (len : BitVec 34)
  | pread (x : BitVec 6) (k : BitVec 6) (n : BitVec 5)
  | nfset (rel : NfRel) (ctr : NfCtr) (k : BitVec 4) (j : BitVec 6) (v : BitVec 28)
  | nfclr (mask : BitVec 15)
  | loopset (c : BitVec 1) (rld cnt : BitVec 16)
  | tstep (g : BitVec 6) (d : BitVec 34)
  | tmark (v : BitVec 34)
  | tsync (e : BitVec 16)
  | tend
  | twait (n : BitVec 34)
  -- the timed plane between issues
  | linkBeatPresent (ext : Option BeatIn)
  | metadataPairArrival (ext : Option PairIn)
  | windowClose (w : BitVec 4)
  | postArrival (n : Nat)
  | holdArrival (ext : Option HoldIn)
  | stepGroupComplete (g : BitVec 6)
  | stepTakesEffect (g : BitVec 6)
  | stepCompletionWake (g : BitVec 6)
  | tsyncMarkerArrival (ext : Option MarkerIn)
  -- the dynamic plane between issues
  | accessPerformed (n : Nat)
  | pageWalk (va : BitVec 56) (store : Bool)
  | messageArrival (n : Nat)
  | copyElement (op : BitVec 4)
  | copyCompletion (op : BitVec 4)
  | streamRefill (x : BitVec 4)
  | trapDelivery (cause detail : BitVec 8) (f1 : BitVec 64)
  | upcall (cause : BitVec 8) (f1 : BitVec 64)
  | servicePath (o : SvcOutcome)
  | faultCompletionNotice (tag : BitVec 16)
  | preempt (leave : Bool)
  -- launches
  | epochAnnounce (tb : Option Nat)
  | switchSwapComplete (saveErr restoreErr : Option (BitVec 8))
  | advisorEpochEnd (depth : Nat)
  | patrolScrub (sector : Nat) (corrected : Option (BitVec 512))
  -- links
  | bridgeFlitRetry (delay : Nat)
  | causewayRetry (west : Bool) (link : BitVec 3) (delay : Nat)
  | causewayRetryTimeout (west : Bool) (link : BitVec 3)
  | ueWorkItem (port : BitVec 3)
  | ueIncoming (port : BitVec 3) (op : UeIn)
  -- the host port
  | qtailWrite (q : Nat) (v : BitVec 64)
  | packetAccept (q : Nat)
  | hseenWrite (v : BitVec 64)
  | replay (v : BitVec 64)
  | bar0RegisterWrite (off : Nat) (v : BitVec 64)
  | bar2Read (off len : Nat)
  | bar2Write (off : Nat) (data : List (BitVec 8))
  | tdispRequest (mode : Tdi)
  | spdmRequest (r : SpdmReq)
  -- the owner's session; CLAIM with whether it is sent inside a session, whether that authenticated both sides, and its sender
  | claim (session bothSides : Bool) (keyHash : BitVec 256)
  | grant (index : BitVec 3) (base len : Nat) (read write : Bool)
  | grantRevoke (index : BitVec 3)
  | debugok (mask : BitVec 4)
  | debugoff (mask : BitVec 4)
  -- control words with an effect of their own
  | ldataRead (d : BitVec 6)
  | ldataWrite (d : BitVec 6)
  | srecRead (tile : Nat) (d : BitVec 6)
  -- resets and power
  | bootStage (f : BootFinding)
  -- answers from outside
  | ueWorkCompletion (port : BitVec 3) (status detail : BitVec 8) (moved : Nat) (data : List (BitVec 8))
  | checkpointStreamComplete (ok : Bool) (bytes : BitVec 64)
  -- packets, each at the head of the queue in focus
  | launch
  | signal
  | attach
  | detach
  | arm
  | disarm
  | stop
  | release
  | dump
  | poke
  | trace
  | logcopy
  | event
  | checkpointSave
  | checkpointRestore
  | quiesceEnter
  | quiesceLeave
  | reshape
  | portring
  | peer
  | mregion
  | cwrite
  -- steps without an operand
  | vecResultWrite
  | ssetFillUnit
  | millReadyCycle
  | staticBurstPerform
  | staticReadLanding
  | holdFrameTest
  | tsyncMarkerTimeout
  | haltTreeArrival
  | partialWorkReport
  | hangWatchdog
  | icacheFillComplete
  | contextSwitch
  | forcedSwitch
  | tlbAcknowledge
  | pendingQueueReturn
  | copyFault
  | bellSweep
  | launchEpoch
  | loadingComplete
  | quantumExpiry
  | switchDrainComplete
  | traceSample
  | bridgeFlitTimeout
  | causewayLockLoss
  | ideIntegrityFailure
  | quiesceLimit
  | coldReset
  | hostPortReset
  | powerLoss
  | thermalTrip
  | millSweepRead
  | mdrainRowWrite
  | staticBurstSlot
  | linkBeatDeparture
  | chainMemberLeft
  | restoreAuthorisation
  deriving DecidableEq, Repr

end Sys2Proof
end

