-- ==== Sys2Proof/Machine/Numbers.lean ====
section
/-!
DEFINITION. The number formats, rounding and fixed summation orders of chapter 03: exact values as whole numbers times
powers of two, decoding and rounding of every format (R85-R101), the arithmetic of R106, the Mill's two-stage sum
(R107-R109), and the orders of reductions and scans (R110, R111).
-/

namespace Sys2Proof.Machine

/-! ## Exact values -/

/-- The exact value m · 2^e. -/
structure Dy where
  m : Int
  e : Int
  deriving DecidableEq, Repr, Inhabited

/-- m · 2^k for a natural k. -/
def shlInt (m : Int) (k : Nat) : Int := m * Int.ofNat (2 ^ k)

/-- The whole number n with n · 2^f = v, for f no greater than v's exponent. -/
def Dy.at (v : Dy) (f : Int) : Int := shlInt v.m (v.e - f).toNat

/-- floor(v / 2^f) (03 R98, R107). -/
def Dy.floorAt (v : Dy) (f : Int) : Int := if f ≤ v.e then v.at f else v.m / Int.ofNat (2 ^ (f - v.e).toNat)

/-- Whether v is a whole multiple of 2^f. -/
def Dy.wholeAt (v : Dy) (f : Int) : Bool := decide (f ≤ v.e) || v.m % Int.ofNat (2 ^ (f - v.e).toNat) == 0

/-- Exact sum. -/
def Dy.add (x y : Dy) : Dy := let e := min x.e y.e; { m := x.at e + y.at e, e := e }
/-- Exact product. -/
def Dy.mul (x y : Dy) : Dy := { m := x.m * y.m, e := x.e + y.e }
/-- The value with its sign changed. -/
def Dy.neg (x : Dy) : Dy := { x with m := -x.m }
/-- The magnitude. -/
def Dy.abs (x : Dy) : Dy := { x with m := Int.ofNat x.m.natAbs }
/-- x < y, exactly. -/
def Dy.lt (x y : Dy) : Bool := let e := min x.e y.e; decide (x.at e < y.at e)
/-- x ≤ y, exactly. -/
def Dy.le (x y : Dy) : Bool := let e := min x.e y.e; decide (x.at e ≤ y.at e)
/-- x = y, exactly. -/
def Dy.same (x y : Dy) : Bool := let e := min x.e y.e; x.at e == y.at e
/-- Exp(v) = floor(log2 |v|), for v ≠ 0 (03 R107). -/
def Dy.exp (v : Dy) : Int := Int.ofNat (Nat.log2 v.m.natAbs) + v.e
/-- 2^k. -/
def Dy.pow2 (k : Int) : Dy := { m := 1, e := k }
/-- A whole number. -/
def Dy.int (n : Int) : Dy := { m := n, e := 0 }

/-- A decoded number: NaN (and NaR), an infinity, a zero with its sign, or an exact nonzero value. -/
inductive Num where
  | nan | inf (neg : Bool) | zero (neg : Bool) | fin (v : Dy)
  deriving DecidableEq, Repr, Inhabited

/-- An exact value as a number; zero is +0. -/
def Num.ofDy (v : Dy) : Num := if v.m = 0 then .zero false else .fin v

/-- The exact value of a finite number; zero otherwise. -/
def Num.dy : Num → Dy
  | .fin v => v
  | _ => { m := 0, e := 0 }

/-- The number with its sign changed. -/
def Num.neg : Num → Num
  | .nan => .nan
  | .inf s => .inf (!s)
  | .zero s => .zero (!s)
  | .fin v => .fin v.neg

/-- Whether the number is negative, −0 included. -/
def Num.isNeg : Num → Bool
  | .nan => false
  | .inf s => s
  | .zero s => s
  | .fin v => decide (v.m < 0)

/-! ## Formats (03 R85-R96) -/

/-- The shape of a binary floating format (03 R89): exponent bits, fraction bits, bias. -/
structure BinFmt where
  ew : Nat
  fw : Nat
  bias : Nat
  deriving DecidableEq, Repr

/-- FP32. -/
def bin32 : BinFmt := { ew := 8, fw := 23, bias := 127 }
/-- BF16. -/
def bin16 : BinFmt := { ew := 8, fw := 7, bias := 127 }
/-- FP8 E4M3. -/
def binE4 : BinFmt := { ew := 4, fw := 3, bias := 7 }
/-- FP8 E5M2. -/
def binE5 : BinFmt := { ew := 5, fw := 2, bias := 15 }
/-- FP4 E2M1. -/
def binF4 : BinFmt := { ew := 2, fw := 1, bias := 1 }

/-- DecodeBin (03 R89), of a pattern that is no infinity or NaN. -/
def decodeBin (b : BinFmt) (p : Nat) : Num :=
  let f := p % 2 ^ b.fw
  let e := p / 2 ^ b.fw % 2 ^ b.ew
  let s := p / 2 ^ (b.fw + b.ew) % 2 == 1
  let sg : Int := if s then -1 else 1
  if e = 0 then
    if f = 0 then .zero s else .fin { m := sg * Int.ofNat f, e := 1 - (b.bias : Int) - (b.fw : Int) }
  else .fin { m := sg * Int.ofNat (2 ^ b.fw + f), e := (e : Int) - (b.bias : Int) - (b.fw : Int) }

/-- A format with infinities and NaNs in its top exponent: FP32, BF16, E5M2. -/
def decodeIeee (b : BinFmt) (p : Nat) : Num :=
  if p / 2 ^ b.fw % 2 ^ b.ew = 2 ^ b.ew - 1 then
    if p % 2 ^ b.fw = 0 then .inf (p / 2 ^ (b.fw + b.ew) % 2 == 1) else .nan
  else decodeBin b p

/-- The length of the run of bits equal to bit `i` of `b`, going down from bit `i` (03 R93). -/
def runLength (b : Nat) (bit : Bool) : Nat → Nat
  | 0 => if b.testBit 0 == bit then 1 else 0
  | i + 1 => if b.testBit (i + 1) == bit then 1 + runLength b bit i else 0

/-- The value of a positive tapered pattern of width n (03 R93). -/
def taperedPos (n p : Nat) : Dy :=
  let b := p % 2 ^ (n - 1)
  let one := b.testBit (n - 2)
  let m := runLength b one (n - 2)
  let k : Int := if one then (m : Int) - 1 else -(m : Int)
  let q := n - 2 - m
  if q = 0 then { m := 1, e := 2 * k }
  else
    let e := if b.testBit (q - 1) then 1 else 0
    let wf := q - 1
    { m := Int.ofNat (2 ^ wf + b % 2 ^ wf), e := 2 * k + e - (wf : Int) }

/-- DecodeT (03 R93): NaR decodes as NaN. -/
def decodeTapered (n p : Nat) : Num :=
  if p = 0 then .zero false
  else if p = 2 ^ (n - 1) then .nan
  else if 2 ^ (n - 1) < p then .fin (taperedPos n (2 ^ n - p)).neg
  else .fin (taperedPos n p)

/-- A two's complement whole number of w bits. -/
def decodeInt (w p : Nat) : Num :=
  let n : Int := if p < 2 ^ (w - 1) then (p : Int) else (p : Int) - Int.ofNat (2 ^ w)
  .ofDy (.int n)

/-- The width in bits of one element (03 R85). -/
def fmtBits : Fmt → Nat
  | .raw | .int8 | .uint8 | .e4m3 | .e5m2 | .t8 | .e8m0 => 8
  | .int16 | .bf16 => 16
  | .int32 | .fp32 => 32
  | .int64 => 64
  | .fp4 => 4
  | .t6 => 6

/-- Decode (03 R88-R96): the number in the low bits of a pattern. Raw bytes carry no number (R88). -/
def decodeNum (f : Fmt) (v : Nat) : Num :=
  let p := v % 2 ^ fmtBits f
  match f with
  | .raw => .zero false
  | .int8 => decodeInt 8 p
  | .uint8 => .ofDy (.int p)
  | .int16 => decodeInt 16 p
  | .int32 => decodeInt 32 p
  | .int64 => decodeInt 64 p
  | .bf16 => decodeIeee bin16 p
  | .fp32 => decodeIeee bin32 p
  | .e4m3 => if p % 128 = 127 then .nan else decodeBin binE4 p
  | .e5m2 => decodeIeee binE5 p
  | .fp4 => decodeBin binF4 p
  | .t8 => decodeTapered 8 p
  | .t6 => decodeTapered 6 p
  | .e8m0 => if p = 255 then .nan else .fin (.pow2 ((p : Int) - 127))

/-! ## Rounding (03 R97-R101) -/

/-- The number of random bits of SR (03 R101). -/
def srBits (f : Fmt) : Nat :=
  match f with
  | .fp4 | .t6 => 8
  | _ => 16

/-- Whether the upper candidate is taken (03 R98): `even` is the parity of the lower one, `neg` the sign of x, and
num / den = (a − lo) / (hi − lo), strictly between 0 and 1. -/
def takeHi (rm : Rm) (d rnd : Nat) (neg even : Bool) (num den : Nat) : Bool :=
  match rm with
  | .rne => if 2 * num = den then !even else decide (den < 2 * num)
  | .rz => false
  | .ru => !neg
  | .rd => neg
  | .sr => decide (2 ^ d ≤ 2 ^ d * num / den + rnd)

/-- A magnitude rounded to a whole multiple of 2^q (03 R98). -/
def roundAt (rm : Rm) (d rnd : Nat) (neg : Bool) (a : Dy) (q : Int) : Nat :=
  if q ≤ a.e then (a.at q).toNat
  else
    let den := 2 ^ (q - a.e).toNat
    let m := a.m.natAbs
    let n := m / den
    if m % den = 0 then n
    else if takeHi rm d rnd neg (n % 2 == 0) (m % den) den then n + 1 else n

/-- The bits of n · 2^q in a binary format, for a magnitude that rounding gave (03 R89); an overflow point gives the
pattern of infinity. -/
def packBin (b : BinFmt) (n : Nat) (q : Int) : Nat :=
  let r : Nat × Int := if 2 ^ (b.fw + 1) ≤ n then (n / 2, q + 1) else (n, q)
  if r.1 < 2 ^ b.fw then r.1
  else ((r.2 + (b.fw : Int) + (b.bias : Int)).toNat) * 2 ^ b.fw + (r.1 - 2 ^ b.fw)

/-- A nonzero magnitude below Sat rounded into a binary format (03 R98). -/
def roundBin (b : BinFmt) (rm : Rm) (d rnd : Nat) (neg : Bool) (a : Dy) : Nat :=
  let q := max a.exp (1 - (b.bias : Int)) - (b.fw : Int)
  packBin b (roundAt rm d rnd neg a q) q

/-- The sign bit of a binary format. -/
def signBit (b : BinFmt) (neg : Bool) : Nat := if neg then 2 ^ (b.ew + b.fw) else 0

/-- The pattern of infinity in FP32, BF16 and E5M2. -/
def infBits (b : BinFmt) : Nat := (2 ^ b.ew - 1) * 2 ^ b.fw

/-- Round into FP32, BF16 or E5M2 (03 R98-R100). -/
def roundIeee (b : BinFmt) (rm : Rm) (d rnd : Nat) (x : Num) : Nat :=
  match x with
  | .nan => infBits b + 2 ^ (b.fw - 1)
  | .inf s => signBit b s + infBits b
  | .zero s => signBit b s
  | .fin v =>
    let neg := decide (v.m < 0)
    let a := v.abs
    if (Dy.pow2 (2 ^ (b.ew - 1))).le a then
      let inf :=
        match rm with
        | .rne | .sr => true
        | .rz => false
        | .ru => !neg
        | .rd => neg
      signBit b neg + (if inf then infBits b else infBits b - 1)
    else signBit b neg + roundBin b rm d rnd neg a

/-- Round into E4M3 or FP4, which saturate in every mode (03 R99, R100). `top` is the pattern of the largest finite
magnitude. -/
def roundSat (b : BinFmt) (top nan : Nat) (rm : Rm) (d rnd : Nat) (x : Num) : Nat :=
  match x with
  | .nan => nan
  | .inf s => signBit b s + top
  | .zero s => signBit b s
  | .fin v =>
    let neg := decide (v.m < 0)
    let a := v.abs
    if (decodeBin b top).dy.le a then signBit b neg + top else signBit b neg + roundBin b rm d rnd neg a

/-- Round into T8 or T6 (03 R96): the candidates are zero and the positive patterns in order. -/
def roundTapered (n : Nat) (rm : Rm) (d rnd : Nat) (x : Num) : Nat :=
  match x with
  | .nan | .inf _ => 2 ^ (n - 1)
  | .zero _ => 0
  | .fin v =>
    let neg := decide (v.m < 0)
    let a := v.abs
    let top := 2 ^ (n - 1) - 1
    let p :=
      if (taperedPos n top).le a then top
      else
        let lo := (List.range top).countP fun i => (taperedPos n (i + 1)).le a
        let vl : Dy := if lo = 0 then .int 0 else taperedPos n lo
        let vh := taperedPos n (lo + 1)
        let num := a.add vl.neg
        let den := vh.add vl.neg
        let e := min num.e den.e
        if num.m = 0 then lo
        else if takeHi rm d rnd neg (lo % 2 == 0) (num.at e).toNat (den.at e).toNat then lo + 1 else lo
    if neg ∧ p ≠ 0 then 2 ^ n - p else p

/-- Round into the whole numbers from lo to hi (03 R99, R100, R105). -/
def roundInt (lo hi : Int) (rm : Rm) (rnd : Nat) (x : Num) : Int :=
  match x with
  | .nan => 0
  | .inf s => if s then lo else hi
  | .zero _ => 0
  | .fin v =>
    let neg := decide (v.m < 0)
    let n : Int := Int.ofNat (roundAt rm 16 rnd neg v.abs 0)
    max lo (min hi (if neg then -n else n))

/-- Round into E8M0 (03 R92): the magnitude, in powers of two. -/
def roundE8 (rm : Rm) (rnd : Nat) (x : Num) : Nat :=
  match x with
  | .nan | .inf _ => 255
  | .zero _ => 0
  | .fin v =>
    let a := v.abs
    if (Dy.pow2 127).le a then 254
    else if a.lt (Dy.pow2 (-127)) then 0
    else
      let j := a.exp
      let num := a.add (Dy.pow2 j).neg
      let e := min num.e j
      let code := (j + 127).toNat
      if num.m = 0 then code
      else if takeHi rm 16 rnd false (code % 2 == 0) (num.at e).toNat (Dy.at (Dy.pow2 j) e).toNat then code + 1 else code

/-- Round (03 R98-R100): the pattern of a number in a format, in the low bits. -/
def roundNum (f : Fmt) (rm : Rm) (rnd : Nat) (x : Num) : Nat :=
  let ofInt := fun (w : Nat) (n : Int) => (n % Int.ofNat (2 ^ w)).toNat
  match f with
  | .raw => 0
  | .int8 => ofInt 8 (roundInt (-128) 127 rm rnd x)
  | .uint8 => ofInt 8 (roundInt 0 255 rm rnd x)
  | .int16 => ofInt 16 (roundInt (-32768) 32767 rm rnd x)
  | .int32 => ofInt 32 (roundInt (-2147483648) 2147483647 rm rnd x)
  | .int64 => ofInt 64 (roundInt (-9223372036854775808) 9223372036854775807 rm rnd x)
  | .bf16 => roundIeee bin16 rm 16 rnd x
  | .fp32 => roundIeee bin32 rm 16 rnd x
  | .e4m3 => roundSat binE4 0x7E 0x7F rm 16 rnd x
  | .e5m2 => roundIeee binE5 rm 16 rnd x
  | .fp4 => roundSat binF4 7 0 rm 8 rnd x
  | .t8 => roundTapered 8 rm 16 rnd x
  | .t6 => roundTapered 6 rm 8 rnd x
  | .e8m0 => roundE8 rm rnd x

/-- Mix64 (03 R104). -/
def mix64 (z : Word) : Word :=
  let z := (z ^^^ (z >>> 30)) * 0xBF58476D1CE4E5B9#64
  let z := (z ^^^ (z >>> 27)) * 0x94D049BB133111EB#64
  z ^^^ (z >>> 31)

/-- The row word of a tile under SR (03 R102). -/
def rowWordTile (seed : Word) (x y i s : Nat) : Word :=
  mix64 (seed ^^^ BitVec.ofNat 64 (x * 2 ^ 56 + y * 2 ^ 48 + i * 2 ^ 40 + s % 2 ^ 40))

/-- The row word of a context under SR (03 R103). -/
def rowWordCtx (seed : Word) (c k g s : Nat) : Word :=
  mix64 (seed ^^^ BitVec.ofNat 64 (2 ^ 63 + c * 2 ^ 58 + k * 2 ^ 48 + g * 2 ^ 40 + s % 2 ^ 40))

/-- The random bits of lane l, position q, for a result of d bits (03 R102). -/
def srDraw (w : Word) (d l q : Nat) : Nat := ((w.rotateLeft (13 * l % 64)).toNat / 2 ^ (d * q)) % 2 ^ d

/-! ## Arithmetic (03 R106) -/

/-- The exact sum of two numbers, with the sign of an exact zero (03 R106). -/
def Num.add (rm : Rm) (x y : Num) : Num :=
  match x, y with
  | .nan, _ | _, .nan => .nan
  | .inf s, .inf t => if s = t then .inf s else .nan
  | .inf s, _ => .inf s
  | _, .inf t => .inf t
  | .zero s, .zero t => if s = t then .zero s else .zero (rm == .rd)
  | .zero _, .fin w => .fin w
  | .fin v, .zero _ => .fin v
  | .fin v, .fin w =>
    let r := v.add w
    if r.m = 0 then .zero (rm == .rd) else .fin r

/-- The exact product of two numbers. -/
def Num.mul (x y : Num) : Num :=
  let s := x.isNeg != y.isNeg
  match x, y with
  | .nan, _ | _, .nan => .nan
  | .inf _, .zero _ | .zero _, .inf _ => .nan
  | .inf _, _ | _, .inf _ => .inf s
  | .zero _, _ | _, .zero _ => .zero s
  | .fin v, .fin w => .fin (v.mul w)

/-- x < y with −0 below +0 where `signedZero`; false when either is NaN. -/
def Num.lt (signedZero : Bool) (x y : Num) : Bool :=
  match x, y with
  | .nan, _ | _, .nan => false
  | .inf s, .inf t => s && !t
  | .inf s, _ => s
  | _, .inf t => !t
  | .zero s, .zero t => signedZero && s && !t
  | .zero _, .fin w => decide (0 < w.m)
  | .fin v, .zero _ => decide (v.m < 0)
  | .fin v, .fin w => v.lt w

/-- x = y with −0 equal to +0; false when either is NaN. -/
def Num.eq (x y : Num) : Bool :=
  match x, y with
  | .inf s, .inf t => s == t
  | .zero _, .zero _ => true
  | .fin v, .fin w => v.same w
  | _, _ => false

/-- Whether the number is NaN. -/
def Num.isNan : Num → Bool
  | .nan => true
  | _ => false

/-- Minimum (03 R106): −0 below +0, NaN when either is NaN. -/
def Num.min (x y : Num) : Num := if x.isNan || y.isNan then .nan else if y.lt true x then y else x
/-- Maximum (03 R106). -/
def Num.max (x y : Num) : Num := if x.isNan || y.isNan then .nan else if x.lt true y then y else x

/-- The number in an FP32 pattern. -/
def num32 (v : BitVec 32) : Num := decodeIeee bin32 v.toNat
/-- Round to FP32. -/
def fp32 (rm : Rm) (x : Num) : BitVec 32 := BitVec.ofNat 32 (roundIeee bin32 rm 16 0 x)
/-- The number in a BF16 pattern. -/
def num16 (v : BitVec 16) : Num := decodeIeee bin16 v.toNat
/-- Round to BF16. -/
def bf16 (rm : Rm) (x : Num) : BitVec 16 := BitVec.ofNat 16 (roundIeee bin16 rm 16 0 x)

/-- FADD32 (03 R106) with a rounding mode. -/
def fadd32 (rm : Rm) (a b : BitVec 32) : BitVec 32 := fp32 rm ((num32 a).add rm (num32 b))
/-- FP32 difference: the sum with the second term negated. -/
def fsub32 (rm : Rm) (a b : BitVec 32) : BitVec 32 := fp32 rm ((num32 a).add rm (num32 b).neg)
/-- FMUL32. -/
def fmul32 (rm : Rm) (a b : BitVec 32) : BitVec 32 := fp32 rm ((num32 a).mul (num32 b))
/-- FMA32: a·b + c, rounded once. -/
def fma32 (rm : Rm) (a b c : BitVec 32) : BitVec 32 := fp32 rm (((num32 a).mul (num32 b)).add rm (num32 c))
/-- FP32 minimum. -/
def fmin32 (a b : BitVec 32) : BitVec 32 := fp32 .rne ((num32 a).min (num32 b))
/-- FP32 maximum. -/
def fmax32 (a b : BitVec 32) : BitVec 32 := fp32 .rne ((num32 a).max (num32 b))
/-- The BF16 operations: exact, then rounded once. -/
def fadd16 (rm : Rm) (a b : BitVec 16) : BitVec 16 := bf16 rm ((num16 a).add rm (num16 b))
def fsub16 (rm : Rm) (a b : BitVec 16) : BitVec 16 := bf16 rm ((num16 a).add rm (num16 b).neg)
def fmul16 (rm : Rm) (a b : BitVec 16) : BitVec 16 := bf16 rm ((num16 a).mul (num16 b))
def fma16 (rm : Rm) (a b c : BitVec 16) : BitVec 16 := bf16 rm (((num16 a).mul (num16 b)).add rm (num16 c))
def fmin16 (a b : BitVec 16) : BitVec 16 := bf16 .rne ((num16 a).min (num16 b))
def fmax16 (a b : BitVec 16) : BitVec 16 := bf16 .rne ((num16 a).max (num16 b))

/-- The relation codes on two numbers (04 R126). -/
def FRel.holds (r : FRel) (x y : Num) : Bool :=
  let un := x.isNan || y.isNan
  match r with
  | .eq => x.eq y
  | .ne => un || !x.eq y
  | .lt => x.lt false y
  | .le => x.lt false y || x.eq y
  | .gt => y.lt false x
  | .ge => y.lt false x || x.eq y
  | .un => un
  | .or => !un

/-- A conversion (03 R100, R105): Decode then Round. -/
def convert (src dst : Fmt) (rm : Rm) (rnd v : Nat) : Nat := roundNum dst rm rnd (decodeNum src v)

/-! ## The Mill's sums (03 R107-R109) -/

/-- Trunc(v, f) (03 R107), as a whole number of 2^f. -/
def truncAt (v : Dy) (f : Int) : Int :=
  let n : Int := v.abs.floorAt f
  if v.m < 0 then -n else n

/-- The sum of truncated terms, each cut at `span` below the largest exponent (03 R108, R109). -/
def alignedSum (span : Int) (l : List Dy) : Dy :=
  match l.filter fun v => v.m ≠ 0 with
  | [] => .int 0
  | v :: r =>
    let f := (r.foldl (fun x y => max x y.exp) v.exp) - span
    { m := (v :: r).foldl (fun acc y => acc + truncAt y f) 0, e := f }

/-- Stage 1 (03 R108): one tc's lane products. -/
def stage1 (l : List Dy) : Dy := alignedSum 62 l

/-- Stage 2 (03 R109): the partial sums and the incoming accumulator, when there is one. -/
def stage2 (sums : List Dy) (acc : Option Dy) : BitVec 32 :=
  let t := alignedSum 72 (sums ++ acc.toList)
  if t.m = 0 then 0#32 else fp32 .rne (.fin t)

/-- One sweep of one cell (03 R107-R109): the products of each tc and the incoming accumulator, with the special values
settled first. -/
def sweepCell (prods : List (List Num)) (acc : Option (BitVec 32)) : BitVec 32 :=
  let a := acc.map num32
  let all := prods.flatten
  let terms := a.toList ++ all
  let pos := terms.any fun x => x == .inf false
  let neg := terms.any fun x => x == .inf true
  if (terms.any Num.isNan) || (pos && neg) then 0x7FC00000#32
  else if pos then 0x7F800000#32
  else if neg then 0xFF800000#32
  else stage2 (prods.map fun p => stage1 (p.map Num.dy)) (a.map Num.dy)

/-! ## Reductions and scans (03 R110, R111) -/

/-- One level of the tree: neighbours combined in pairs. -/
def pairUp {α : Type} (op : α → α → α) : List α → List α
  | a :: b :: r => op a b :: pairUp op r
  | l => l

/-- TreeReduce over 2^n lanes (03 R110). -/
def treeReduce {α : Type} (op : α → α → α) : Nat → List α → List α
  | 0, l => l
  | n + 1, l => treeReduce op n (pairUp op l)

/-- One pass of the scan at distance d (03 R111). -/
def scanPass {α : Type} (op : α → α → α) (d : Nat) (l : List α) : List α :=
  l.take d ++ List.zipWith op l (l.drop d)

/-- An FP32 value as an instruction delivers it: a NaN is the canonical one (03 R90). -/
def delivered32 (x : BitVec 32) : BitVec 32 := if 0x7F800000#32 < x &&& 0x7FFFFFFF#32 then 0x7FC00000#32 else x

/-- ScanInclusive over 2^n lanes (03 R111). -/
def scanInclusive {α : Type} (op : α → α → α) (n : Nat) (l : List α) : List α :=
  (List.range n).foldl (fun y i => scanPass op (2 ^ i) y) l

end Sys2Proof.Machine
end

