-- ==== Sys2Proof/WellFormed.lean ====
section
/-!
DEFINITION. Which field values an instruction accepts beyond what its fields' types already say (02 R65, R68; 04 R121,
R125-R132, R140, R141; 05 R149, R182, R184; 06 R189, R193, R204; 07 R212-R233). A decoded word whose fields fail this
check is a reserved encoding.
-/

namespace Sys2Proof

/-- The directed modes and RNE, codes 0 to 3 (04 R125): stochastic rounding is reserved there. -/
def Rm.directed : Rm → Bool
  | .sr => false
  | _ => true

/-- ZERO and NONZERO test one operand; the other must then be zero (04 R121, 05 R152). -/
def Cond.unary : Cond → Bool
  | .zero | .nonzero => true
  | _ => false

/-- The formats a numeric conversion takes: codes 1 to 13 (04 R127). -/
def Fmt.numeric : Fmt → Bool
  | .raw => false
  | _ => true

/-- The formats a 32-bit lane conversion takes: codes 1 to 4 and 6 to 13 (04 R131, 07 R214). -/
def Fmt.lane : Fmt → Bool
  | .raw | .int64 => false
  | _ => true

/-- The formats FCLASS takes: codes 6 to 13 (04 R128). -/
def Fmt.floating : Fmt → Bool
  | .bf16 | .fp32 | .e4m3 | .e5m2 | .fp4 | .t8 | .t6 | .e8m0 => true
  | _ => false

/-- The formats of the Mill operands A and B (06 R189). -/
def Fmt.millAB : Fmt → Bool
  | .bf16 | .e4m3 | .e5m2 | .fp4 | .t8 | .t6 => true
  | _ => false

/-- The formats of the Mill operand C in modes 1, 2, 3 and 5 (06 R189). -/
def Fmt.millC : Fmt → Bool
  | .bf16 | .e4m3 | .e5m2 | .t8 => true
  | _ => false

/-- The registers of one element per lane that VPACK and VUNPK pair with one packed register; 0 for other formats
(07 R215). -/
def Fmt.packCount : Fmt → Nat
  | .int8 | .uint8 | .e4m3 | .e5m2 | .t8 | .e8m0 => 4
  | .int16 | .bf16 => 2
  | .fp4 => 8
  | .t6 => 5
  | _ => 0

def LaneArith.wf : LaneArith → Bool
  | .int _ => true
  | .fp32 rm | .bf16 rm => rm.directed

def LaneMin.wf : LaneMin → Bool
  | .int _ => true
  | .fp32 rm | .bf16 rm => rm.directed

def LaneCmp.wf : LaneCmp → Bool
  | .int c => !c.unary
  | _ => true

/-- Loads take plain and acquire (04 R140). -/
def MemOrd.load : MemOrd → Bool
  | .plain | .acq => true
  | _ => false

/-- Stores take plain and release (04 R140). -/
def MemOrd.store : MemOrd → Bool
  | .plain | .rel => true
  | _ => false

/-- The C operand of MILL (06 R186, R189). -/
def MillC.wfMill : MillC → Bool
  | .none => true
  | .kv f _ => f.millC || f == .e8m0
  | .km f _ => f.millC
  | .kn f _ => f.millC

/-- The C operand of MILLG: modes 0 to 2 (06 R186). -/
def MillC.wfGang : MillC → Bool
  | .kn _ _ => false
  | c => c.wfMill

/-- The C operand of MILLX: modes 4 and 5 (06 R186). -/
def MillC.wfGrouped : MillC → Bool
  | .none => true
  | .km f _ => f.millC
  | _ => false

def VTy.bitwise : VTy → Bool
  | .int32 | .uint32 => true
  | _ => false

def VTy.shiftable : VTy → Bool
  | .int32 | .uint32 | .int16x2 => true
  | _ => false

def VTy.signed : VTy → Bool
  | .int32 | .int16x2 => true
  | _ => false

def VTy.word : VTy → Bool
  | .fp32 | .int32 | .uint32 => true
  | _ => false

def VTy.function : VTy → Bool
  | .fp32 | .bf16x2 => true
  | _ => false

/-- The field rules of every instruction; the other rows have no encoding and only bound their queue number. -/
def Instr.wf : Instr → Bool
  | .cmp cc _ _ b => !cc.unary || b == 0#6
  | .cmpi cc _ _ imm => !cc.unary || imm == 0#30
  | .fadd rm _ _ _ | .fsub rm _ _ _ | .fmul rm _ _ _ | .fma rm _ _ _ _ => rm.directed
  | .fcvt src dst rm _ _ => src.numeric && dst.numeric && rm.directed
  | .fclass f _ _ => f.floating
  | .dadd m _ _ _ _ | .dsub m _ _ _ _ | .dmul m _ _ _ _ | .dfma m _ _ _ _ _ => m.wf
  | .dmin m _ _ _ _ | .dmax m _ _ _ _ => m.wf
  | .dcmp m _ _ _ _ => m.wf
  | .dcvt src dst _ _ _ _ => src.lane && dst.lane
  | .ld _ _ _ _ o _ _ | .ldf _ _ _ _ o _ _ | .ldd _ _ _ _ o _ _ | .lddf _ _ _ _ o _ _ => o.load
  | .st _ _ _ _ o _ _ | .stf _ _ _ _ o _ _ | .std _ _ _ _ o _ _ | .stdf _ _ _ _ o _ _ => o.store
  | .fence o _ => o != .plain
  | .br cc _ b slot _ => (!cc.unary || b == 0#6) && slot != 7#3
  | .jmp slot _ | .call slot _ | .start _ _ _ slot _ => slot != 7#3
  | .ctxq q _ a => q == .state || a == 0#6
  | .recv d a b => (d == 0#6 || d != a && d != b) && (a == 0#6 || a != b)
  | .gather _ _ c | .scatter _ _ c => c != 0#6 && c.getLsbD 0 == false
  | .rcopy _ idx _ _ c => !idx || c != 0#6 && c.getLsbD 0 == false
  | .sysr _ a cw | .sysw _ a cw => a == 0#6 || cw.extractLsb' 8 4 == 8#4
  | .tlbi k a b => (k == .range || b == 0#6) && (k != .all || a == 0#6)
  | .mill _ c fA fB _ _ _ _ _ => c.wfMill && fA.millAB && fB.millAB
  | .millg _ c fA fB _ _ w _ _ _ => c.wfGang && fA.millAB && fB.millAB && w != 0#2
  | .millx _ c fA fB _ _ _ _ _ _ => c.wfGrouped && fA.millAB && fB.millAB
  | .mdrain d _ _ => decide (d.toNat ≤ 2016)
  | .vand ty _ | .vor ty _ | .vxor ty _ => ty.bitwise
  | .vshl ty _ | .vshr ty _ => ty.shiftable
  | .vsra ty _ | .vsel ty _ => ty.signed
  | .vcvt ty _ _ f _ => ty.word && f.lane
  | .vpack f _ a _ => f.packCount != 0 && decide (a.toNat + f.packCount ≤ 2048)
  | .vunpk f d _ _ => f.packCount != 0 && decide (d.toNat + f.packCount ≤ 2048)
  | .vexp2 ty _ | .vlog2 ty _ | .vrcp ty _ | .vrsq ty _ => ty.function
  | .vred ty _ _ | .vscan ty _ _ _ => ty.word
  | .scnt _ _ _ len _ => len.getLsbD 0 == false
  | .window _ _ len => len != 0#34
  | .pread _ k n => decide (k.toNat + n.toNat + 1 ≤ 64)
  | .nfset _ _ k _ _ => k != 0#4
  | .tstep _ d => d != 0#34
  | .qtailWrite q _ | .packetAccept q => decide (q ≤ 4)
  | _ => true

end Sys2Proof
end

