-- ==== Sys2Proof/Decode.lean ====
section
/-!
DEFINITION. The 64-bit instruction word (02 R61-R69): the body formats of R62 and R63, the opcode map of R66, a decoder
that names why it refuses a word, and an encoder. A word is accepted exactly when it is the encoding of a well-formed
instruction: every unused or reserved bit must then be zero, as R65 asks.
-/

namespace Sys2Proof

/-- The code of a `Cond` (02 R64). -/
def Cond.code : Cond → BitVec 4
  | .eq => 0#4
  | .ne => 1#4
  | .lt => 2#4
  | .ge => 3#4
  | .ltu => 4#4
  | .geu => 5#4
  | .zero => 6#4
  | .nonzero => 7#4

/-- The `Cond` of a code; none for a reserved code. -/
def Cond.ofCode (c : BitVec 4) : Option Cond :=
  match c.toNat with
  | 0 => some .eq
  | 1 => some .ne
  | 2 => some .lt
  | 3 => some .ge
  | 4 => some .ltu
  | 5 => some .geu
  | 6 => some .zero
  | 7 => some .nonzero
  | _ => none

/-- The code of a `Rm` (03 R97). -/
def Rm.code : Rm → BitVec 3
  | .rne => 0#3
  | .rz => 1#3
  | .ru => 2#3
  | .rd => 3#3
  | .sr => 4#3

/-- The `Rm` of a code; none for a reserved code. -/
def Rm.ofCode (c : BitVec 3) : Option Rm :=
  match c.toNat with
  | 0 => some .rne
  | 1 => some .rz
  | 2 => some .ru
  | 3 => some .rd
  | 4 => some .sr
  | _ => none

/-- The code of a `Fmt` (03 R85). -/
def Fmt.code : Fmt → BitVec 5
  | .raw => 0#5
  | .int8 => 1#5
  | .uint8 => 2#5
  | .int16 => 3#5
  | .int32 => 4#5
  | .int64 => 5#5
  | .bf16 => 6#5
  | .fp32 => 7#5
  | .e4m3 => 8#5
  | .e5m2 => 9#5
  | .fp4 => 10#5
  | .t8 => 11#5
  | .t6 => 12#5
  | .e8m0 => 13#5

/-- The `Fmt` of a code; none for a reserved code. -/
def Fmt.ofCode (c : BitVec 5) : Option Fmt :=
  match c.toNat with
  | 0 => some .raw
  | 1 => some .int8
  | 2 => some .uint8
  | 3 => some .int16
  | 4 => some .int32
  | 5 => some .int64
  | 6 => some .bf16
  | 7 => some .fp32
  | 8 => some .e4m3
  | 9 => some .e5m2
  | 10 => some .fp4
  | 11 => some .t8
  | 12 => some .t6
  | 13 => some .e8m0
  | _ => none

/-- The code of a `MemOrd` (02 R64). -/
def MemOrd.code : MemOrd → BitVec 3
  | .plain => 0#3
  | .acq => 1#3
  | .rel => 2#3
  | .acqrel => 3#3

/-- The `MemOrd` of a code; none for a reserved code. -/
def MemOrd.ofCode (c : BitVec 3) : Option MemOrd :=
  match c.toNat with
  | 0 => some .plain
  | 1 => some .acq
  | 2 => some .rel
  | 3 => some .acqrel
  | _ => none

/-- The code of a `Scope` (02 R64). -/
def Scope.code : Scope → BitVec 3
  | .ctx => 0#3
  | .core => 1#3
  | .hamlet => 2#3
  | .quarter => 3#3
  | .partition => 4#3
  | .system => 5#3

/-- The `Scope` of a code; none for a reserved code. -/
def Scope.ofCode (c : BitVec 3) : Option Scope :=
  match c.toNat with
  | 0 => some .ctx
  | 1 => some .core
  | 2 => some .hamlet
  | 3 => some .quarter
  | 4 => some .partition
  | 5 => some .system
  | _ => none

/-- The code of a `AmoOp` (04 R141). -/
def AmoOp.code : AmoOp → BitVec 4
  | .add => 0#4
  | .and => 1#4
  | .or => 2#4
  | .xor => 3#4
  | .min => 4#4
  | .max => 5#4
  | .minu => 6#4
  | .maxu => 7#4
  | .swap => 8#4
  | .fadd => 9#4
  | .fmin => 10#4
  | .fmax => 11#4

/-- The `AmoOp` of a code; none for a reserved code. -/
def AmoOp.ofCode (c : BitVec 4) : Option AmoOp :=
  match c.toNat with
  | 0 => some .add
  | 1 => some .and
  | 2 => some .or
  | 3 => some .xor
  | 4 => some .min
  | 5 => some .max
  | 6 => some .minu
  | 7 => some .maxu
  | 8 => some .swap
  | 9 => some .fadd
  | 10 => some .fmin
  | 11 => some .fmax
  | _ => none

/-- The code of a `RedOp` (04 R130). -/
def RedOp.code : RedOp → BitVec 2
  | .add => 0#2
  | .min => 1#2
  | .max => 2#2

/-- The `RedOp` of a code; none for a reserved code. -/
def RedOp.ofCode (c : BitVec 2) : Option RedOp :=
  match c.toNat with
  | 0 => some .add
  | 1 => some .min
  | 2 => some .max
  | _ => none

/-- The code of a `RcOp` (05 R149). -/
def RcOp.code : RcOp → BitVec 2
  | .add => 0#2
  | .max => 1#2
  | .min => 2#2

/-- The `RcOp` of a code; none for a reserved code. -/
def RcOp.ofCode (c : BitVec 2) : Option RcOp :=
  match c.toNat with
  | 0 => some .add
  | 1 => some .max
  | 2 => some .min
  | _ => none

/-- The code of a `CtxQ` (05 R149). -/
def CtxQ.code : CtxQ → BitVec 2
  | .state => 0#2
  | .free => 1#2
  | .self => 2#2

/-- The `CtxQ` of a code; none for a reserved code. -/
def CtxQ.ofCode (c : BitVec 2) : Option CtxQ :=
  match c.toNat with
  | 0 => some .state
  | 1 => some .free
  | 2 => some .self
  | _ => none

/-- The code of a `TlbK` (05 R149). -/
def TlbK.code : TlbK → BitVec 2
  | .page => 0#2
  | .range => 1#2
  | .all => 2#2

/-- The `TlbK` of a code; none for a reserved code. -/
def TlbK.ofCode (c : BitVec 2) : Option TlbK :=
  match c.toNat with
  | 0 => some .page
  | 1 => some .range
  | 2 => some .all
  | _ => none

/-- The code of a `VTy` (02 R64). -/
def VTy.code : VTy → BitVec 3
  | .fp32 => 0#3
  | .int32 => 1#3
  | .uint32 => 2#3
  | .bf16x2 => 3#3
  | .int16x2 => 4#3

/-- The `VTy` of a code; none for a reserved code. -/
def VTy.ofCode (c : BitVec 3) : Option VTy :=
  match c.toNat with
  | 0 => some .fp32
  | 1 => some .int32
  | 2 => some .uint32
  | 3 => some .bf16x2
  | 4 => some .int16x2
  | _ => none

/-- The code of a `AccM` (02 R64). -/
def AccM.code : AccM → BitVec 2
  | .acc => 0#2
  | .ovw => 1#2
  | .arr => 2#2

/-- The `AccM` of a code; none for a reserved code. -/
def AccM.ofCode (c : BitVec 2) : Option AccM :=
  match c.toNat with
  | 0 => some .acc
  | 1 => some .ovw
  | 2 => some .arr
  | _ => none

/-- The code of a `WinPol` (07 R233). -/
def WinPol.code : WinPol → BitVec 2
  | .desc => 0#2
  | .dflt => 1#2
  | .stall => 2#2

/-- The `WinPol` of a code; none for a reserved code. -/
def WinPol.ofCode (c : BitVec 2) : Option WinPol :=
  match c.toNat with
  | 0 => some .desc
  | 1 => some .dflt
  | 2 => some .stall
  | _ => none

/-- The code of a `NfRel` (07 R236). -/
def NfRel.code : NfRel → BitVec 3
  | .eq => 0#3
  | .ne => 1#3
  | .ltu => 2#3
  | .geu => 3#3
  | .leu => 4#3
  | .gtu => 5#3
  | .always => 6#3

/-- The `NfRel` of a code; none for a reserved code. -/
def NfRel.ofCode (c : BitVec 3) : Option NfRel :=
  match c.toNat with
  | 0 => some .eq
  | 1 => some .ne
  | 2 => some .ltu
  | 3 => some .geu
  | 4 => some .leu
  | 5 => some .gtu
  | 6 => some .always
  | _ => none

/-- The code of a `NfCtr` (07 R233). -/
def NfCtr.code : NfCtr → BitVec 2
  | .none => 0#2
  | .lc0 => 1#2
  | .lc1 => 2#2

/-- The `NfCtr` of a code; none for a reserved code. -/
def NfCtr.ofCode (c : BitVec 2) : Option NfCtr :=
  match c.toNat with
  | 0 => some .none
  | 1 => some .lc0
  | 2 => some .lc1
  | _ => none

/-- The code of a `FRel` (04 R126). -/
def FRel.code : FRel → BitVec 3
  | .eq => 0#3
  | .ne => 1#3
  | .lt => 2#3
  | .le => 3#3
  | .gt => 4#3
  | .ge => 5#3
  | .un => 6#3
  | .or => 7#3

/-- The `FRel` of a code. -/
def FRel.ofCode (c : BitVec 3) : FRel :=
  match c.toNat with
  | 0 => .eq
  | 1 => .ne
  | 2 => .lt
  | 3 => .le
  | 4 => .gt
  | 5 => .ge
  | 6 => .un
  | _ => .or

/-- The code of a `Scale` (02 R64). -/
def Scale.code : Scale → BitVec 2
  | .x1 => 0#2
  | .x8 => 1#2
  | .x64 => 2#2
  | .x512 => 3#2

/-- The `Scale` of a code. -/
def Scale.ofCode (c : BitVec 2) : Scale :=
  match c.toNat with
  | 0 => .x1
  | 1 => .x8
  | 2 => .x64
  | _ => .x512

/-- The code of a `RingQ` (05 R149). -/
def RingQ.code : RingQ → BitVec 2
  | .avail => 0#2
  | .space => 1#2
  | .state => 2#2
  | .fill => 3#2

/-- The `RingQ` of a code. -/
def RingQ.ofCode (c : BitVec 2) : RingQ :=
  match c.toNat with
  | 0 => .avail
  | 1 => .space
  | 2 => .state
  | _ => .fill

/-- The number of a direction in the dir field of a link transfer (07 R226). -/
def Dir.num : Dir → BitVec 2
  | .n => 0#2
  | .e => 1#2
  | .s => 2#2
  | .w => 3#2

/-- The direction of a number. -/
def Dir.ofNum (c : BitVec 2) : Dir :=
  match c.toNat with
  | 0 => .n
  | 1 => .e
  | 2 => .s
  | _ => .w

/-- The format code of an index list (07 R226): 4 INT32, 5 INT64. -/
def IdxFmt.code : IdxFmt → BitVec 5
  | .i32 => 4#5
  | .i64 => 5#5

/-- The index format of a code. -/
def IdxFmt.ofCode (c : BitVec 5) : Option IdxFmt :=
  match c.toNat with
  | 4 => some .i32
  | 5 => some .i64
  | _ => none

/-- The lane-type code of DEXT, DSCAN and DRED (04 R129): 4 INT32, 7 FP32. -/
def Lane2.code : Lane2 → BitVec 5
  | .int => 4#5
  | .fp32 => 7#5

/-- The lane type of a code. -/
def Lane2.ofCode (c : BitVec 5) : Option Lane2 :=
  match c.toNat with
  | 4 => some .int
  | 7 => some .fp32
  | _ => none

/-- The ty field of a lane arithmetic (04 R129). -/
def LaneArith.ty : LaneArith → BitVec 5
  | .int _ => 4#5
  | .fp32 _ => 7#5
  | .bf16 _ => 6#5

/-- The sub field of a lane arithmetic (04 R130): .SAT, or rm. -/
def LaneArith.sub : LaneArith → BitVec 6
  | .int sat => 0#5 ++ BitVec.ofBool sat
  | .fp32 rm => 0#3 ++ rm.code
  | .bf16 rm => 0#3 ++ rm.code

/-- The lane arithmetic of a ty and a sub field. -/
def LaneArith.ofCode (ty : BitVec 5) (sub : BitVec 6) : Option LaneArith :=
  match ty.toNat with
  | 4 => some (.int (sub.getLsbD 0))
  | 6 => (Rm.ofCode (sub.extractLsb' 0 3)).map .bf16
  | 7 => (Rm.ofCode (sub.extractLsb' 0 3)).map .fp32
  | _ => none

/-- The ty field of a lane minimum or maximum (04 R129). -/
def LaneMin.ty : LaneMin → BitVec 5
  | .int _ => 4#5
  | .fp32 _ => 7#5
  | .bf16 _ => 6#5

/-- The sub field of a lane minimum or maximum (04 R129, R130). -/
def LaneMin.sub : LaneMin → BitVec 6
  | .int u => 0#5 ++ BitVec.ofBool u
  | .fp32 rm => 0#3 ++ rm.code
  | .bf16 rm => 0#3 ++ rm.code

/-- The lane minimum of a ty and a sub field. -/
def LaneMin.ofCode (ty : BitVec 5) (sub : BitVec 6) : Option LaneMin :=
  match ty.toNat with
  | 4 => some (.int (sub.getLsbD 0))
  | 6 => (Rm.ofCode (sub.extractLsb' 0 3)).map .bf16
  | 7 => (Rm.ofCode (sub.extractLsb' 0 3)).map .fp32
  | _ => none

/-- The ty field of a lane comparison (04 R130). -/
def LaneCmp.ty : LaneCmp → BitVec 5
  | .int _ => 4#5
  | .fp32 _ => 7#5
  | .bf16 _ => 6#5

/-- The sub field of a lane comparison (04 R130): its relation code. -/
def LaneCmp.sub : LaneCmp → BitVec 6
  | .int c => 0#3 ++ c.code.extractLsb' 0 3
  | .fp32 r => 0#3 ++ r.code
  | .bf16 r => 0#3 ++ r.code

/-- The lane comparison of a ty field and a relation code. -/
def LaneCmp.ofCode (ty : BitVec 5) (cc : BitVec 3) : Option LaneCmp :=
  match ty.toNat with
  | 4 => (Cond.ofCode (0#1 ++ cc)).map .int
  | 6 => some (.bf16 (FRel.ofCode cc))
  | 7 => some (.fp32 (FRel.ofCode cc))
  | _ => none

/-- The b field of a shift operand (04 R130): zero with .I. -/
def DShift.b : DShift → BitVec 5
  | .reg b => b
  | .imm _ => 0#5

/-- The .I bit of a shift operand. -/
def DShift.isImm : DShift → BitVec 1
  | .reg _ => 0#1
  | .imm _ => 1#1

/-- The imm9 field of a shift operand. -/
def DShift.imm9 : DShift → BitVec 9
  | .reg _ => 0#9
  | .imm n => 0#4 ++ n

/-- The shift operand of its fields. -/
def DShift.ofCode (i : BitVec 1) (b n : BitVec 5) : DShift :=
  if i = 1#1 then .imm n else .reg b

/-- The asrc field (02 R64). -/
def VSrc.asrc : VSrc → BitVec 3
  | .reg _ => 0#3
  | .link l => 1#1 ++ l.num

/-- The a field: zero when operand a comes from a link (02 R63). -/
def VSrc.a : VSrc → BitVec 11
  | .reg a => a
  | .link _ => 0#11

/-- Operand a of its fields. -/
def VSrc.ofCode (asrc : BitVec 3) (a : BitVec 11) : Option VSrc :=
  if asrc = 0#3 then some (.reg a)
  else if asrc.extractLsb' 2 1 = 1#1 then some (.link (Dir.ofNum (asrc.extractLsb' 0 2)))
  else none

/-- The dsink field (02 R64). -/
def sinkCode : Option Dir → BitVec 3
  | none => 0#3
  | some l => 1#1 ++ l.num

/-- The sink of a dsink field. -/
def sinkOf (c : BitVec 3) : Option (Option Dir) :=
  if c = 0#3 then some none
  else if c.extractLsb' 2 1 = 1#1 then some (some (Dir.ofNum (c.extractLsb' 0 2)))
  else none

/-- The lane and .L bits of VLI (07 R222): without .L the lane field is zero. -/
def laneField : Option (BitVec 5) → BitVec 6
  | none => 0#6
  | some l => 1#1 ++ l

/-- The lane operand of VLI. -/
def laneOf (c : BitVec 6) : Option (BitVec 5) :=
  if c.extractLsb' 5 1 = 1#1 then some (c.extractLsb' 0 5) else none

/-- The d field of SMODE and SOFF (05 R149): stream index 0-7 names G48-G55, 8-15 names D24-D31. -/
def streamField (x : BitVec 4) : BitVec 6 :=
  (if x.extractLsb' 3 1 = 1#1 then 3#3 else 6#3) ++ x.extractLsb' 0 3

/-- The stream index of a d field and the register-file bit. -/
def streamIndex (d : BitVec 6) (dreg : Bool) : BitVec 4 :=
  BitVec.ofBool dreg ++ d.extractLsb' 0 3

/-- The dir field of SSET (07 R226). -/
def SsetDst.dirField : SsetDst → BitVec 4
  | .mere _ => 0#4
  | .loft _ => 1#4

/-- The sub field of SSET (07 R226): a priority for the Mere, .SPREAD for the Loft. -/
def SsetDst.subField : SsetDst → BitVec 9
  | .mere p => p ++ 0#7
  | .loft sp => 0#2 ++ BitVec.ofBool sp ++ 0#6

/-- The destination of SSET of its fields. -/
def SsetDst.ofCode (loft : Bool) (p : BitVec 2) (sp : Bool) : SsetDst :=
  if loft then .loft sp else .mere p

/-- The mode field of MILL and MILLG (06 R186). -/
def MillC.mode : MillC → BitVec 3
  | .none => 0#3
  | .kv _ _ => 1#3
  | .km _ _ => 2#3
  | .kn _ _ => 3#3

/-- The mode field of MILLX (06 R186). -/
def MillC.modeGrouped : MillC → BitVec 3
  | .km _ _ => 5#3
  | _ => 4#3

/-- The fC field (06 R189): zero when C is not read. -/
def MillC.fcode : MillC → BitVec 5
  | .none => 0#5
  | .kv f _ => f.code
  | .km f _ => f.code
  | .kn f _ => f.code

/-- The mc field (06 R193). -/
def MillC.mcField : MillC → BitVec 4
  | .kv _ mc => mc
  | .km _ mc => mc
  | _ => 0#4

/-- The mn field of MILL (06 R193). -/
def MillC.mnField : MillC → BitVec 4
  | .kn _ mn => mn
  | _ => 0#4

/-- The C operand of MILL and MILLG of its fields. -/
def MillC.ofCode (mode : BitVec 3) (f : BitVec 5) (mc mn : BitVec 4) : Option MillC :=
  match mode.toNat with
  | 0 => some .none
  | 1 => (Fmt.ofCode f).map fun f => .kv f mc
  | 2 => (Fmt.ofCode f).map fun f => .km f mc
  | 3 => (Fmt.ofCode f).map fun f => .kn f mn
  | _ => none

/-- The C operand of MILLX of its fields. -/
def MillC.ofCodeGrouped (mode : BitVec 3) (f : BitVec 5) (mc : BitVec 4) : Option MillC :=
  match mode.toNat with
  | 4 => some .none
  | 5 => (Fmt.ofCode f).map fun f => .km f mc
  | _ => none

/-- Format FG3 (02 R62). -/
def fg3 (d a b c sub : BitVec 6) : BitVec 46 := d ++ a ++ b ++ c ++ sub ++ 0#16
/-- Format FGI (02 R62). -/
def fgi (d a : BitVec 6) (imm : BitVec 34) : BitVec 46 := d ++ a ++ imm
/-- Format FGM (02 R62). -/
def fgm (d base index : BitVec 6) (sc : BitVec 2) (ord scope : BitVec 3) (off : BitVec 20) : BitVec 46 :=
  d ++ base ++ index ++ sc ++ ord ++ scope ++ off
/-- Format FGB (02 R62). -/
def fgb (a b : BitVec 6) (cc : BitVec 4) (slot : BitVec 3) (line : BitVec 26) : BitVec 46 :=
  a ++ b ++ cc ++ 0#1 ++ slot ++ line
/-- Format FDV (02 R62). -/
def fdv (d a b c : BitVec 5) (mask : BitVec 6) (ty : BitVec 5) (sub : BitVec 6) (imm : BitVec 9) : BitVec 46 :=
  d ++ a ++ b ++ c ++ mask ++ ty ++ sub ++ imm
/-- Format FSYS (02 R62); imm22 is zero (05 R149). -/
def fsys (d a : BitVec 6) (cw : BitVec 12) : BitVec 46 := d ++ a ++ cw ++ 0#22
/-- Format FV3 (02 R63). -/
def fv3 (d a b : BitVec 11) (asrc dsink ty : BitVec 3) (nf : BitVec 4) : BitVec 46 :=
  d ++ a ++ b ++ asrc ++ dsink ++ ty ++ nf
/-- Format FVI (02 R63). -/
def fvi (d a : BitVec 11) (imm : BitVec 20) (nf : BitVec 4) : BitVec 46 := d ++ a ++ imm ++ nf
/-- Format FMILL (02 R63). -/
def fmill (acc mode : BitVec 3) (fA fB fC : BitVec 5) (ma mc mb mn : BitVec 4) (s : BitVec 3) (m : BitVec 2)
    (nf : BitVec 4) : BitVec 46 :=
  acc ++ mode ++ fA ++ fB ++ fC ++ ma ++ mc ++ mb ++ mn ++ s ++ m ++ nf
/-- Format FSTRM (02 R63). -/
def fstrm (sx sy : BitVec 6) (len : BitVec 12) (dir : BitVec 4) (fmt : BitVec 5) (sub : BitVec 9) (nf : BitVec 4) :
    BitVec 46 :=
  sx ++ sy ++ len ++ dir ++ fmt ++ sub ++ nf
/-- Format FREEVE (02 R63). -/
def freeve (a sub : BitVec 6) (imm : BitVec 34) : BitVec 46 := a ++ sub ++ imm

/-- An instruction body, bits 45:0 of the word. -/
abbrev Body := BitVec 46

/-- The `w` bits of a body from bit `lo` up. -/
def Body.f (x : Body) (lo w : Nat) : BitVec w := x.extractLsb' lo w
/-- The six-bit field of a body at bit `lo`. -/
def Body.g (x : Body) (lo : Nat) : BitVec 6 := x.extractLsb' lo 6
/-- One bit of a body. -/
def Body.bit (x : Body) (i : Nat) : Bool := x.getLsbD i
/-- The imm34 field. -/
def Body.imm34 (x : Body) : BitVec 34 := x.extractLsb' 0 34

/-- The FV3 body of a two-source VEC instruction. -/
def VArgs.body (v : VArgs) (ty : BitVec 3) : BitVec 46 := fv3 v.d v.a.a v.b v.a.asrc (sinkCode v.sink) ty v.nf

/-- The FV3 body of a one-source VEC instruction whose b field holds controls. -/
def VArgs1.body (v : VArgs1) (ty : BitVec 3) (b : BitVec 11) : BitVec 46 :=
  fv3 v.d v.a.a b v.a.asrc (sinkCode v.sink) ty v.nf

/-- The operands of a two-source VEC instruction. -/
def VArgs.ofBody (x : Body) : Option VArgs :=
  (VSrc.ofCode (x.f 10 3) (x.f 24 11)).bind fun a => (sinkOf (x.f 7 3)).map fun s =>
    { d := x.f 35 11, a := a, b := x.f 13 11, sink := s, nf := x.f 0 4 }

/-- The operands of a one-source VEC instruction. -/
def VArgs1.ofBody (x : Body) : Option VArgs1 :=
  (VSrc.ofCode (x.f 10 3) (x.f 24 11)).bind fun a => (sinkOf (x.f 7 3)).map fun s =>
    { d := x.f 35 11, a := a, sink := s, nf := x.f 0 4 }

/-- The opcode of an instruction (02 R66); none for a row that is no instruction. -/
def Instr.opcode : Instr → Option (BitVec 10)
  | .nop => some 0x0#10
  | .add _ _ _ => some 0x1#10
  | .addi _ _ _ => some 0x2#10
  | .sub _ _ _ => some 0x3#10
  | .mul _ _ _ => some 0x4#10
  | .mulh _ _ _ => some 0x5#10
  | .mulhu _ _ _ => some 0x6#10
  | .div _ _ _ => some 0x7#10
  | .divu _ _ _ => some 0x8#10
  | .rem _ _ _ => some 0x9#10
  | .remu _ _ _ => some 0xa#10
  | .and _ _ _ => some 0xb#10
  | .andi _ _ _ => some 0xc#10
  | .or _ _ _ => some 0xd#10
  | .ori _ _ _ => some 0xe#10
  | .xor _ _ _ => some 0xf#10
  | .xori _ _ _ => some 0x10#10
  | .andn _ _ _ => some 0x11#10
  | .shl _ _ _ => some 0x12#10
  | .shli _ _ _ => some 0x13#10
  | .shr _ _ _ => some 0x14#10
  | .shri _ _ _ => some 0x15#10
  | .sra _ _ _ => some 0x16#10
  | .srai _ _ _ => some 0x17#10
  | .rol _ _ _ => some 0x18#10
  | .min _ _ _ => some 0x19#10
  | .max _ _ _ => some 0x1a#10
  | .minu _ _ _ => some 0x1b#10
  | .maxu _ _ _ => some 0x1c#10
  | .clz _ _ => some 0x1d#10
  | .ctz _ _ => some 0x1e#10
  | .popc _ _ => some 0x1f#10
  | .extr _ _ _ _ => some 0x20#10
  | .ins _ _ _ _ _ => some 0x21#10
  | .sel _ _ _ _ => some 0x22#10
  | .cmp _ _ _ _ => some 0x23#10
  | .cmpi _ _ _ _ => some 0x24#10
  | .li _ _ => some 0x25#10
  | .lih _ _ _ => some 0x26#10
  | .adda _ _ _ => some 0x27#10
  | .addai _ _ _ => some 0x28#10
  | .tagset _ _ _ => some 0x29#10
  | .tagget _ _ => some 0x2a#10
  | .pdiff _ _ _ => some 0x2b#10
  | .fadd _ _ _ _ => some 0x80#10
  | .fsub _ _ _ _ => some 0x81#10
  | .fmul _ _ _ _ => some 0x82#10
  | .fma _ _ _ _ _ => some 0x83#10
  | .fmin _ _ _ => some 0x84#10
  | .fmax _ _ _ => some 0x85#10
  | .fcmp _ _ _ _ => some 0x86#10
  | .fcvt _ _ _ _ _ => some 0x87#10
  | .fclass _ _ _ => some 0x88#10
  | .dadd _ _ _ _ _ => some 0x89#10
  | .dsub _ _ _ _ _ => some 0x8a#10
  | .dmul _ _ _ _ _ => some 0x8b#10
  | .dfma _ _ _ _ _ _ => some 0x8c#10
  | .dmin _ _ _ _ _ => some 0x8d#10
  | .dmax _ _ _ _ _ => some 0x8e#10
  | .dand _ _ _ _ => some 0x8f#10
  | .dor _ _ _ _ => some 0x90#10
  | .dxor _ _ _ _ => some 0x91#10
  | .dshl _ _ _ _ => some 0x92#10
  | .dshr _ _ _ _ _ => some 0x93#10
  | .dcmp _ _ _ _ _ => some 0x94#10
  | .dsel _ _ _ _ _ => some 0x95#10
  | .dcvt _ _ _ _ _ _ => some 0x96#10
  | .dbcast _ _ _ _ => some 0x97#10
  | .dext _ _ _ _ => some 0x98#10
  | .dins _ _ _ => some 0x99#10
  | .dshuf _ _ _ _ => some 0x9a#10
  | .dscan _ _ _ _ _ _ => some 0x9b#10
  | .dred _ _ _ _ _ => some 0x9c#10
  | .dhist _ _ _ _ _ => some 0x9d#10
  | .diota _ _ _ _ => some 0x9e#10
  | .ld _ _ _ _ _ _ _ => some 0x100#10
  | .st _ _ _ _ _ _ _ => some 0x101#10
  | .ldf _ _ _ _ _ _ _ => some 0x102#10
  | .stf _ _ _ _ _ _ _ => some 0x103#10
  | .ldd _ _ _ _ _ _ _ => some 0x104#10
  | .std _ _ _ _ _ _ _ => some 0x105#10
  | .lddf _ _ _ _ _ _ _ => some 0x106#10
  | .stdf _ _ _ _ _ _ _ => some 0x107#10
  | .amo _ _ _ _ _ _ _ => some 0x108#10
  | .cas _ _ _ _ _ _ => some 0x109#10
  | .pref _ _ _ _ _ => some 0x10a#10
  | .discard _ _ _ _ _ _ => some 0x10b#10
  | .flush _ _ _ _ _ _ => some 0x10c#10
  | .fence _ _ => some 0x10d#10
  | .br _ _ _ _ _ => some 0x180#10
  | .jmp _ _ => some 0x181#10
  | .jmpr _ => some 0x182#10
  | .call _ _ => some 0x183#10
  | .start _ _ _ _ _ => some 0x184#10
  | .exit => some 0x185#10
  | .yield => some 0x186#10
  | .ctxq _ _ _ => some 0x187#10
  | .send _ _ _ _ _ => some 0x188#10
  | .recv _ _ _ => some 0x189#10
  | .waitm _ => some 0x18a#10
  | .rrsv _ _ _ => some 0x18b#10
  | .rpub _ _ _ => some 0x18c#10
  | .rwait _ _ _ => some 0x18d#10
  | .radv _ _ => some 0x18e#10
  | .reos _ => some 0x18f#10
  | .rqry _ _ _ => some 0x190#10
  | .smode _ _ _ => some 0x191#10
  | .soff _ => some 0x192#10
  | .copy _ _ _ => some 0x193#10
  | .gather _ _ _ => some 0x194#10
  | .scatter _ _ _ => some 0x195#10
  | .rcopy _ _ _ _ _ => some 0x196#10
  | .cretry _ => some 0x197#10
  | .cskip _ _ => some 0x198#10
  | .cabort _ => some 0x199#10
  | .step _ _ => some 0x19a#10
  | .handoff _ _ _ => some 0x19b#10
  | .take _ _ => some 0x19c#10
  | .post _ _ _ => some 0x19d#10
  | .trap _ => some 0x19e#10
  | .eret => some 0x19f#10
  | .sysr _ _ _ => some 0x1a0#10
  | .sysw _ _ _ => some 0x1a1#10
  | .resume _ _ => some 0x1a2#10
  | .halt => some 0x1a3#10
  | .tlbi _ _ _ => some 0x1a4#10
  | .dbgbrk _ => some 0x1a5#10
  | .mill _ _ _ _ _ _ _ _ _ => some 0x200#10
  | .millg _ _ _ _ _ _ _ _ _ _ => some 0x201#10
  | .millx _ _ _ _ _ _ _ _ _ _ => some 0x202#10
  | .mzero _ _ => some 0x203#10
  | .mdrain _ _ _ => some 0x204#10
  | .mseta _ _ _ => some 0x205#10
  | .msetb _ _ _ => some 0x206#10
  | .midx _ _ => some 0x207#10
  | .vadd _ _ => some 0x280#10
  | .vsub _ _ => some 0x281#10
  | .vmul _ _ => some 0x282#10
  | .vfma _ _ => some 0x283#10
  | .vmin _ _ => some 0x284#10
  | .vmax _ _ => some 0x285#10
  | .vand _ _ => some 0x286#10
  | .vor _ _ => some 0x287#10
  | .vxor _ _ => some 0x288#10
  | .vshl _ _ => some 0x289#10
  | .vshr _ _ => some 0x28a#10
  | .vsra _ _ => some 0x28b#10
  | .vcmp _ _ => some 0x28c#10
  | .vsel _ _ => some 0x28d#10
  | .vcvt _ _ _ _ _ => some 0x28e#10
  | .vpack _ _ _ _ => some 0x28f#10
  | .vunpk _ _ _ _ => some 0x290#10
  | .vexp2 _ _ => some 0x291#10
  | .vlog2 _ _ => some 0x292#10
  | .vrcp _ _ => some 0x293#10
  | .vrsq _ _ => some 0x294#10
  | .vred _ _ _ => some 0x295#10
  | .vscan _ _ _ _ => some 0x296#10
  | .vthr _ => some 0x297#10
  | .vbis _ => some 0x298#10
  | .vcnt _ => some 0x299#10
  | .vperm _ => some 0x29a#10
  | .vrot _ _ => some 0x29b#10
  | .vbc _ _ => some 0x29c#10
  | .vmov _ => some 0x29d#10
  | .vli _ _ _ _ _ => some 0x29e#10
  | .vld _ _ _ _ => some 0x29f#10
  | .vst _ _ _ _ _ => some 0x2a0#10
  | .sld _ _ _ _ _ => some 0x300#10
  | .sldl _ _ _ _ _ => some 0x301#10
  | .sst _ _ _ _ => some 0x302#10
  | .sgth _ _ _ _ _ _ => some 0x303#10
  | .ssct _ _ _ _ _ => some 0x304#10
  | .sxl _ _ _ _ _ => some 0x305#10
  | .scnt _ _ _ _ _ => some 0x306#10
  | .smeta _ _ _ _ => some 0x307#10
  | .sset _ _ _ _ _ => some 0x308#10
  | .window _ _ _ => some 0x380#10
  | .pread _ _ _ => some 0x381#10
  | .nfset _ _ _ _ _ => some 0x382#10
  | .nfclr _ => some 0x383#10
  | .loopset _ _ _ => some 0x384#10
  | .tstep _ _ => some 0x385#10
  | .tmark _ => some 0x386#10
  | .tsync _ => some 0x387#10
  | .tend => some 0x388#10
  | .twait _ => some 0x389#10
  | _ => none

/-- The body of an instruction, as its format lays it out (02 R62, R63, R67); zero for a row that is no instruction. -/
def Instr.body : Instr → BitVec 46
  | .nop => fg3 0#6 0#6 0#6 0#6 0#6
  | .add d a b => fg3 d a b 0#6 0#6
  | .addi d a imm => fgi d a imm
  | .sub d a b => fg3 d a b 0#6 0#6
  | .mul d a b => fg3 d a b 0#6 0#6
  | .mulh d a b => fg3 d a b 0#6 0#6
  | .mulhu d a b => fg3 d a b 0#6 0#6
  | .div d a b => fg3 d a b 0#6 0#6
  | .divu d a b => fg3 d a b 0#6 0#6
  | .rem d a b => fg3 d a b 0#6 0#6
  | .remu d a b => fg3 d a b 0#6 0#6
  | .and d a b => fg3 d a b 0#6 0#6
  | .andi d a imm => fgi d a imm
  | .or d a b => fg3 d a b 0#6 0#6
  | .ori d a imm => fgi d a imm
  | .xor d a b => fg3 d a b 0#6 0#6
  | .xori d a imm => fgi d a imm
  | .andn d a b => fg3 d a b 0#6 0#6
  | .shl d a b => fg3 d a b 0#6 0#6
  | .shli d a n => fgi d a (n.setWidth 34)
  | .shr d a b => fg3 d a b 0#6 0#6
  | .shri d a n => fgi d a (n.setWidth 34)
  | .sra d a b => fg3 d a b 0#6 0#6
  | .srai d a n => fgi d a (n.setWidth 34)
  | .rol d a b => fg3 d a b 0#6 0#6
  | .min d a b => fg3 d a b 0#6 0#6
  | .max d a b => fg3 d a b 0#6 0#6
  | .minu d a b => fg3 d a b 0#6 0#6
  | .maxu d a b => fg3 d a b 0#6 0#6
  | .clz d a => fg3 d a 0#6 0#6 0#6
  | .ctz d a => fg3 d a 0#6 0#6 0#6
  | .popc d a => fg3 d a 0#6 0#6 0#6
  | .extr d a b w => fg3 d a b 0#6 w
  | .ins d a b c w => fg3 d a b c w
  | .sel d a b c => fg3 d a b c 0#6
  | .cmp cc d a b => fg3 d a b 0#6 (0#2 ++ cc.code)
  | .cmpi cc d a imm => fgi d a (cc.code ++ imm)
  | .li d imm => fgi d 0#6 imm
  | .lih d a imm => fgi d a (0#4 ++ imm)
  | .adda d a b => fg3 d a b 0#6 0#6
  | .addai d a imm => fgi d a imm
  | .tagset d a b => fg3 d a b 0#6 0#6
  | .tagget d a => fg3 d a 0#6 0#6 0#6
  | .pdiff d a b => fg3 d a b 0#6 0#6
  | .fadd rm d a b => fg3 d a b 0#6 (0#3 ++ rm.code)
  | .fsub rm d a b => fg3 d a b 0#6 (0#3 ++ rm.code)
  | .fmul rm d a b => fg3 d a b 0#6 (0#3 ++ rm.code)
  | .fma rm d a b c => fg3 d a b c (0#3 ++ rm.code)
  | .fmin d a b => fg3 d a b 0#6 0#6
  | .fmax d a b => fg3 d a b 0#6 0#6
  | .fcmp fc d a b => fg3 d a b 0#6 (0#3 ++ fc.code)
  | .fcvt src dst rm d a => fg3 d a (0#1 ++ src.code) (0#1 ++ dst.code) (0#3 ++ rm.code)
  | .fclass f d a => fg3 d a 0#6 0#6 (0#1 ++ f.code)
  | .dadd m d a b k => fdv d a b 0#5 k m.ty m.sub 0#9
  | .dsub m d a b k => fdv d a b 0#5 k m.ty m.sub 0#9
  | .dmul m d a b k => fdv d a b 0#5 k m.ty m.sub 0#9
  | .dfma m d a b c k => fdv d a b c k m.ty m.sub 0#9
  | .dmin m d a b k => fdv d a b 0#5 k m.ty m.sub 0#9
  | .dmax m d a b k => fdv d a b 0#5 k m.ty m.sub 0#9
  | .dand d a b k => fdv d a b 0#5 k 4#5 0#6 0#9
  | .dor d a b k => fdv d a b 0#5 k 4#5 0#6 0#9
  | .dxor d a b k => fdv d a b 0#5 k 4#5 0#6 0#9
  | .dshl d a s k => fdv d a s.b 0#5 k 4#5 (0#5 ++ s.isImm) s.imm9
  | .dshr ar d a s k => fdv d a s.b 0#5 k 4#5 (0#4 ++ BitVec.ofBool ar ++ s.isImm) s.imm9
  | .dcmp m d a b k => fdv d a b 0#5 k m.ty m.sub 0#9
  | .dsel d a b c k => fdv d a b c k 4#5 0#6 0#9
  | .dcvt src dst rm d a k => fdv d a 0#5 0#5 k dst.code (0#1 ++ src.code) (0#6 ++ rm.code)
  | .dbcast d a j k => fdv d a 0#5 0#5 k 4#5 0#6 (0#5 ++ j)
  | .dext ty d a j => fdv d a 0#5 0#5 0#6 ty.code 0#6 (0#5 ++ j)
  | .dins d a j => fdv d a 0#5 0#5 0#6 4#5 0#6 (0#5 ++ j)
  | .dshuf d a b k => fdv d a b 0#5 k 4#5 0#6 0#9
  | .dscan ty op ex d a k => fdv d a 0#5 0#5 k ty.code (0#3 ++ BitVec.ofBool ex ++ op.code) 0#9
  | .dred ty op d a k => fdv d a 0#5 0#5 k ty.code (0#4 ++ op.code) 0#9
  | .dhist r d a b k => fdv d a b 0#5 k 4#5 (0#5 ++ BitVec.ofBool r) 0#9
  | .diota d s t k => fdv d 0#5 0#5 0#5 k 4#5 t s
  | .ld d b i s o p f => fgm d b i s.code o.code p.code f
  | .st d b i s o p f => fgm d b i s.code o.code p.code f
  | .ldf d b i s o p f => fgm d b i s.code o.code p.code f
  | .stf d b i s o p f => fgm d b i s.code o.code p.code f
  | .ldd d b i s o p f => fgm (0#1 ++ d) b i s.code o.code p.code f
  | .std d b i s o p f => fgm (0#1 ++ d) b i s.code o.code p.code f
  | .lddf d b i s o p f => fgm (0#1 ++ d) b i s.code o.code p.code f
  | .stdf d b i s o p f => fgm (0#1 ++ d) b i s.code o.code p.code f
  | .amo op d b i o p f => fgm d b i 0#2 o.code p.code (op.code ++ f)
  | .cas d b i o p f => fgm d b i 0#2 o.code p.code (0#4 ++ f)
  | .pref b i s p f => fgm 0#6 b i s.code 0#3 p.code f
  | .discard d b i s p f => fgm d b i s.code 0#3 p.code f
  | .flush d b i s p f => fgm d b i s.code 0#3 p.code f
  | .fence o p => fgm 0#6 0#6 0#6 0#2 o.code p.code 0#20
  | .br cc a b s l => fgb a b cc.code s l
  | .jmp s l => fgb 0#6 0#6 0#4 s l
  | .jmpr a => fg3 0#6 a 0#6 0#6 0#6
  | .call s l => fgb 0#6 0#6 0#4 s l
  | .start p a b s l => fgb a b (0#2 ++ p) s l
  | .exit => fg3 0#6 0#6 0#6 0#6 0#6
  | .yield => fg3 0#6 0#6 0#6 0#6 0#6
  | .ctxq q d a => fg3 d a 0#6 0#6 (0#4 ++ q.code)
  | .send n d a b c => fg3 d a b c (0#5 ++ BitVec.ofBool n)
  | .recv d a b => fg3 d a b 0#6 0#6
  | .waitm d => fg3 d 0#6 0#6 0#6 0#6
  | .rrsv d a h => fg3 d a 0#6 0#6 (0#2 ++ h)
  | .rpub a b h => fg3 0#6 a b 0#6 (0#2 ++ h)
  | .rwait d a h => fg3 d a 0#6 0#6 (0#2 ++ h)
  | .radv a h => fg3 0#6 a 0#6 0#6 (0#2 ++ h)
  | .reos h => fg3 0#6 0#6 0#6 0#6 (0#2 ++ h)
  | .rqry q d h => fg3 d 0#6 0#6 0#6 (q.code ++ h)
  | .smode s a b => fg3 (streamField s) a b 0#6 (0#5 ++ s.extractLsb' 3 1)
  | .soff s => fg3 (streamField s) 0#6 0#6 0#6 (0#5 ++ s.extractLsb' 3 1)
  | .copy a b c => fg3 0#6 a b c 0#6
  | .gather a b c => fg3 0#6 a b c 0#6
  | .scatter a b c => fg3 0#6 a b c 0#6
  | .rcopy op i a b c => fg3 0#6 a b c (0#3 ++ BitVec.ofBool i ++ op.code)
  | .cretry a => fg3 0#6 a 0#6 0#6 0#6
  | .cskip r a => fg3 0#6 a 0#6 0#6 (0#5 ++ BitVec.ofBool r)
  | .cabort a => fg3 0#6 a 0#6 0#6 0#6
  | .step d g => fgi d 0#6 (0#28 ++ g)
  | .handoff d a n => fgi d a (0#26 ++ n)
  | .take d n => fgi d 0#6 (0#26 ++ n)
  | .post a b k => fg3 0#6 a b 0#6 k
  | .trap imm => fgi 0#6 0#6 imm
  | .eret => fg3 0#6 0#6 0#6 0#6 0#6
  | .sysr d a cw => fsys d a cw
  | .sysw d a cw => fsys d a cw
  | .resume a b => fg3 0#6 a b 0#6 0#6
  | .halt => fg3 0#6 0#6 0#6 0#6 0#6
  | .tlbi k a b => fg3 0#6 a b 0#6 (0#4 ++ k.code)
  | .dbgbrk i => fgi 0#6 0#6 (0#18 ++ i)
  | .mill acc c fA fB ma mb s m nf => fmill acc c.mode fA.code fB.code c.fcode ma c.mcField mb c.mnField s m.code nf
  | .millg acc c fA fB ma mb w s m nf => fmill acc c.mode fA.code fB.code c.fcode ma c.mcField mb (0#2 ++ w) s m.code nf
  | .millx acc c fA fB ma mb o s m nf => fmill acc c.modeGrouped fA.code fB.code c.fcode ma c.mcField mb o s m.code nf
  | .mzero acc nf => fmill acc 0#3 0#5 0#5 0#5 0#4 0#4 0#4 0#4 0#3 0#2 nf
  | .mdrain d k nf => fv3 d (0#8 ++ k) 0#11 0#3 0#3 0#3 nf
  | .mseta d a nf => fv3 (0#7 ++ d) a 0#11 0#3 0#3 0#3 nf
  | .msetb d a nf => fv3 (0#7 ++ d) a 0#11 0#3 0#3 0#3 nf
  | .midx a nf => fv3 0#11 a 0#11 0#3 0#3 0#3 nf
  | .vadd ty v => v.body ty.code
  | .vsub ty v => v.body ty.code
  | .vmul ty v => v.body ty.code
  | .vfma ty v => v.body ty.code
  | .vmin ty v => v.body ty.code
  | .vmax ty v => v.body ty.code
  | .vand ty v => v.body ty.code
  | .vor ty v => v.body ty.code
  | .vxor ty v => v.body ty.code
  | .vshl ty v => v.body ty.code
  | .vshr ty v => v.body ty.code
  | .vsra ty v => v.body ty.code
  | .vcmp ty v => v.body ty.code
  | .vsel ty v => v.body ty.code
  | .vcvt ty w rm f v => v.body ty.code (0#2 ++ BitVec.ofBool w ++ rm.code ++ f.code)
  | .vpack f d a nf => fv3 d a (0#6 ++ f.code) 0#3 0#3 0#3 nf
  | .vunpk f d a nf => fv3 d a (0#6 ++ f.code) 0#3 0#3 0#3 nf
  | .vexp2 ty v => v.body ty.code 0#11
  | .vlog2 ty v => v.body ty.code 0#11
  | .vrcp ty v => v.body ty.code 0#11
  | .vrsq ty v => v.body ty.code 0#11
  | .vred ty op v => v.body ty.code (0#9 ++ op.code)
  | .vscan ty op ex v => v.body ty.code (0#8 ++ BitVec.ofBool ex ++ op.code)
  | .vthr v => v.body 0#3
  | .vbis v => v.body 0#3
  | .vcnt v => v.body 2#3
  | .vperm v => v.body 0#3
  | .vrot n v => v.body 0#3 (0#6 ++ n)
  | .vbc n v => v.body 0#3 (0#6 ++ n)
  | .vmov v => v.body 0#3 0#11
  | .vli hi lane d imm nf => fvi d (0#4 ++ BitVec.ofBool hi ++ laneField lane) imm nf
  | .vld d a o nf => fvi d a (0#2 ++ o) nf
  | .vst p d a o nf => fvi d a (p ++ o) nf
  | .sld p sx g n nf => fstrm sx 0#6 n 0#4 0#5 (p ++ 0#1 ++ g) nf
  | .sldl sp sx g n nf => fstrm sx 0#6 n 0#4 0#5 (0#2 ++ BitVec.ofBool sp ++ g) nf
  | .sst sx g n nf => fstrm sx 0#6 n 0#4 0#5 (0#3 ++ g) nf
  | .sgth p f sx g n nf => fstrm sx 0#6 n 0#4 f.code (p ++ 0#1 ++ g) nf
  | .ssct f sx g n nf => fstrm sx 0#6 n 0#4 f.code (0#3 ++ g) nf
  | .sxl p dir sx n nf => fstrm sx 0#6 n (0#2 ++ dir.num) 0#5 (p ++ 0#7) nf
  | .scnt p dir sx n nf => fstrm sx 0#6 n (0#2 ++ dir.num) 0#5 (p ++ 0#7) nf
  | .smeta dir sx n nf => fstrm sx 0#6 n (0#2 ++ dir.num) 0#5 0#9 nf
  | .sset t sx sy n nf => fstrm sx sy n t.dirField 0#5 t.subField nf
  | .window pol w n => freeve (0#2 ++ w) (0#4 ++ pol.code) n
  | .pread v k n => freeve v 0#6 (0#23 ++ n ++ k)
  | .nfset r c k j v => freeve (0#2 ++ k) (0#1 ++ c.code ++ r.code) (j ++ v)
  | .nfclr m => freeve 0#6 0#6 (0#18 ++ m ++ 0#1)
  | .loopset c r n => freeve (0#5 ++ c) 0#6 (0#2 ++ r ++ n)
  | .tstep g n => freeve g 0#6 n
  | .tmark v => freeve 0#6 0#6 v
  | .tsync e => freeve 0#6 0#6 (0#18 ++ e)
  | .tend => freeve 0#6 0#6 0#34
  | .twait v => freeve 0#6 0#6 v
  | _ => 0#46

/-- The instruction that group 0 opcode `k` and a body name, before the field rules (02 R66). -/
def readGroup0 (k : Nat) (x : Body) : Option Instr :=
  match k with
  | 0 => some .nop
  | 1 => some (.add (x.g 40) (x.g 34) (x.g 28))
  | 2 => some (.addi (x.g 40) (x.g 34) (x.imm34))
  | 3 => some (.sub (x.g 40) (x.g 34) (x.g 28))
  | 4 => some (.mul (x.g 40) (x.g 34) (x.g 28))
  | 5 => some (.mulh (x.g 40) (x.g 34) (x.g 28))
  | 6 => some (.mulhu (x.g 40) (x.g 34) (x.g 28))
  | 7 => some (.div (x.g 40) (x.g 34) (x.g 28))
  | 8 => some (.divu (x.g 40) (x.g 34) (x.g 28))
  | 9 => some (.rem (x.g 40) (x.g 34) (x.g 28))
  | 10 => some (.remu (x.g 40) (x.g 34) (x.g 28))
  | 11 => some (.and (x.g 40) (x.g 34) (x.g 28))
  | 12 => some (.andi (x.g 40) (x.g 34) (x.imm34))
  | 13 => some (.or (x.g 40) (x.g 34) (x.g 28))
  | 14 => some (.ori (x.g 40) (x.g 34) (x.imm34))
  | 15 => some (.xor (x.g 40) (x.g 34) (x.g 28))
  | 16 => some (.xori (x.g 40) (x.g 34) (x.imm34))
  | 17 => some (.andn (x.g 40) (x.g 34) (x.g 28))
  | 18 => some (.shl (x.g 40) (x.g 34) (x.g 28))
  | 19 => some (.shli (x.g 40) (x.g 34) (x.g 0))
  | 20 => some (.shr (x.g 40) (x.g 34) (x.g 28))
  | 21 => some (.shri (x.g 40) (x.g 34) (x.g 0))
  | 22 => some (.sra (x.g 40) (x.g 34) (x.g 28))
  | 23 => some (.srai (x.g 40) (x.g 34) (x.g 0))
  | 24 => some (.rol (x.g 40) (x.g 34) (x.g 28))
  | 25 => some (.min (x.g 40) (x.g 34) (x.g 28))
  | 26 => some (.max (x.g 40) (x.g 34) (x.g 28))
  | 27 => some (.minu (x.g 40) (x.g 34) (x.g 28))
  | 28 => some (.maxu (x.g 40) (x.g 34) (x.g 28))
  | 29 => some (.clz (x.g 40) (x.g 34))
  | 30 => some (.ctz (x.g 40) (x.g 34))
  | 31 => some (.popc (x.g 40) (x.g 34))
  | 32 => some (.extr (x.g 40) (x.g 34) (x.g 28) (x.g 16))
  | 33 => some (.ins (x.g 40) (x.g 34) (x.g 28) (x.g 22) (x.g 16))
  | 34 => some (.sel (x.g 40) (x.g 34) (x.g 28) (x.g 22))
  | 35 => (Cond.ofCode (x.f 16 4)).map fun cc => .cmp cc (x.g 40) (x.g 34) (x.g 28)
  | 36 => (Cond.ofCode (x.f 30 4)).map fun cc => .cmpi cc (x.g 40) (x.g 34) (x.f 0 30)
  | 37 => some (.li (x.g 40) x.imm34)
  | 38 => some (.lih (x.g 40) (x.g 34) (x.f 0 30))
  | 39 => some (.adda (x.g 40) (x.g 34) (x.g 28))
  | 40 => some (.addai (x.g 40) (x.g 34) (x.imm34))
  | 41 => some (.tagset (x.g 40) (x.g 34) (x.g 28))
  | 42 => some (.tagget (x.g 40) (x.g 34))
  | 43 => some (.pdiff (x.g 40) (x.g 34) (x.g 28))
  | _ => none

/-- The instruction that group 1 opcode `k` and a body name, before the field rules (02 R66). -/
def readGroup1 (k : Nat) (x : Body) : Option Instr :=
  match k with
  | 0 => (Rm.ofCode (x.f 16 3)).map fun rm => .fadd rm (x.g 40) (x.g 34) (x.g 28)
  | 1 => (Rm.ofCode (x.f 16 3)).map fun rm => .fsub rm (x.g 40) (x.g 34) (x.g 28)
  | 2 => (Rm.ofCode (x.f 16 3)).map fun rm => .fmul rm (x.g 40) (x.g 34) (x.g 28)
  | 3 => (Rm.ofCode (x.f 16 3)).map fun rm => .fma rm (x.g 40) (x.g 34) (x.g 28) (x.g 22)
  | 4 => some (.fmin (x.g 40) (x.g 34) (x.g 28))
  | 5 => some (.fmax (x.g 40) (x.g 34) (x.g 28))
  | 6 => some (.fcmp (FRel.ofCode (x.f 16 3)) (x.g 40) (x.g 34) (x.g 28))
  | 7 => (Fmt.ofCode (x.f 28 5)).bind fun src => (Fmt.ofCode (x.f 22 5)).bind fun dst => (Rm.ofCode (x.f 16 3)).map fun rm => .fcvt src dst rm (x.g 40) (x.g 34)
  | 8 => (Fmt.ofCode (x.f 16 5)).map fun f => .fclass f (x.g 40) (x.g 34)
  | 9 => (LaneArith.ofCode (x.f 15 5) (x.g 9)).map fun m => .dadd m (x.f 41 5) (x.f 36 5) (x.f 31 5) (x.g 20)
  | 10 => (LaneArith.ofCode (x.f 15 5) (x.g 9)).map fun m => .dsub m (x.f 41 5) (x.f 36 5) (x.f 31 5) (x.g 20)
  | 11 => (LaneArith.ofCode (x.f 15 5) (x.g 9)).map fun m => .dmul m (x.f 41 5) (x.f 36 5) (x.f 31 5) (x.g 20)
  | 12 => (LaneArith.ofCode (x.f 15 5) (x.g 9)).map fun m => .dfma m (x.f 41 5) (x.f 36 5) (x.f 31 5) (x.f 26 5) (x.g 20)
  | 13 => (LaneMin.ofCode (x.f 15 5) (x.g 9)).map fun m => .dmin m (x.f 41 5) (x.f 36 5) (x.f 31 5) (x.g 20)
  | 14 => (LaneMin.ofCode (x.f 15 5) (x.g 9)).map fun m => .dmax m (x.f 41 5) (x.f 36 5) (x.f 31 5) (x.g 20)
  | 15 => some (.dand (x.f 41 5) (x.f 36 5) (x.f 31 5) (x.g 20))
  | 16 => some (.dor (x.f 41 5) (x.f 36 5) (x.f 31 5) (x.g 20))
  | 17 => some (.dxor (x.f 41 5) (x.f 36 5) (x.f 31 5) (x.g 20))
  | 18 => some (.dshl (x.f 41 5) (x.f 36 5) (DShift.ofCode (x.f 9 1) (x.f 31 5) (x.f 0 5)) (x.g 20))
  | 19 => some (.dshr (x.bit 10) (x.f 41 5) (x.f 36 5) (DShift.ofCode (x.f 9 1) (x.f 31 5) (x.f 0 5)) (x.g 20))
  | 20 => (LaneCmp.ofCode (x.f 15 5) (x.f 9 3)).map fun m => .dcmp m (x.f 41 5) (x.f 36 5) (x.f 31 5) (x.g 20)
  | 21 => some (.dsel (x.f 41 5) (x.f 36 5) (x.f 31 5) (x.f 26 5) (x.g 20))
  | 22 => (Fmt.ofCode (x.f 9 5)).bind fun src => (Fmt.ofCode (x.f 15 5)).bind fun dst => (Rm.ofCode (x.f 0 3)).map fun rm => .dcvt src dst rm (x.f 41 5) (x.f 36 5) (x.g 20)
  | 23 => some (.dbcast (x.f 41 5) (x.f 36 5) (x.f 0 4) (x.g 20))
  | 24 => (Lane2.ofCode (x.f 15 5)).map fun ty => .dext ty (x.f 41 5) (x.f 36 5) (x.f 0 4)
  | 25 => some (.dins (x.f 41 5) (x.f 36 5) (x.f 0 4))
  | 26 => some (.dshuf (x.f 41 5) (x.f 36 5) (x.f 31 5) (x.g 20))
  | 27 => (Lane2.ofCode (x.f 15 5)).bind fun ty => (RedOp.ofCode (x.f 9 2)).map fun op => .dscan ty op (x.bit 11) (x.f 41 5) (x.f 36 5) (x.g 20)
  | 28 => (Lane2.ofCode (x.f 15 5)).bind fun ty => (RedOp.ofCode (x.f 9 2)).map fun op => .dred ty op (x.f 41 5) (x.f 36 5) (x.g 20)
  | 29 => some (.dhist (x.bit 9) (x.f 41 5) (x.f 36 5) (x.f 31 5) (x.g 20))
  | 30 => some (.diota (x.f 41 5) (x.f 0 9) (x.g 9) (x.g 20))
  | _ => none

/-- The instruction that group 2 opcode `k` and a body name, before the field rules (02 R66). -/
def readGroup2 (k : Nat) (x : Body) : Option Instr :=
  match k with
  | 0 => (MemOrd.ofCode (x.f 23 3)).bind fun o => (Scope.ofCode (x.f 20 3)).map fun p => .ld (x.g 40) (x.g 34) (x.g 28) (Scale.ofCode (x.f 26 2)) o p (x.f 0 20)
  | 1 => (MemOrd.ofCode (x.f 23 3)).bind fun o => (Scope.ofCode (x.f 20 3)).map fun p => .st (x.g 40) (x.g 34) (x.g 28) (Scale.ofCode (x.f 26 2)) o p (x.f 0 20)
  | 2 => (MemOrd.ofCode (x.f 23 3)).bind fun o => (Scope.ofCode (x.f 20 3)).map fun p => .ldf (x.g 40) (x.g 34) (x.g 28) (Scale.ofCode (x.f 26 2)) o p (x.f 0 20)
  | 3 => (MemOrd.ofCode (x.f 23 3)).bind fun o => (Scope.ofCode (x.f 20 3)).map fun p => .stf (x.g 40) (x.g 34) (x.g 28) (Scale.ofCode (x.f 26 2)) o p (x.f 0 20)
  | 4 => (MemOrd.ofCode (x.f 23 3)).bind fun o => (Scope.ofCode (x.f 20 3)).map fun p => .ldd (x.f 40 5) (x.g 34) (x.g 28) (Scale.ofCode (x.f 26 2)) o p (x.f 0 20)
  | 5 => (MemOrd.ofCode (x.f 23 3)).bind fun o => (Scope.ofCode (x.f 20 3)).map fun p => .std (x.f 40 5) (x.g 34) (x.g 28) (Scale.ofCode (x.f 26 2)) o p (x.f 0 20)
  | 6 => (MemOrd.ofCode (x.f 23 3)).bind fun o => (Scope.ofCode (x.f 20 3)).map fun p => .lddf (x.f 40 5) (x.g 34) (x.g 28) (Scale.ofCode (x.f 26 2)) o p (x.f 0 20)
  | 7 => (MemOrd.ofCode (x.f 23 3)).bind fun o => (Scope.ofCode (x.f 20 3)).map fun p => .stdf (x.f 40 5) (x.g 34) (x.g 28) (Scale.ofCode (x.f 26 2)) o p (x.f 0 20)
  | 8 => (AmoOp.ofCode (x.f 16 4)).bind fun op => (MemOrd.ofCode (x.f 23 3)).bind fun o => (Scope.ofCode (x.f 20 3)).map fun p => .amo op (x.g 40) (x.g 34) (x.g 28) o p (x.f 0 16)
  | 9 => (MemOrd.ofCode (x.f 23 3)).bind fun o => (Scope.ofCode (x.f 20 3)).map fun p => .cas (x.g 40) (x.g 34) (x.g 28) o p (x.f 0 16)
  | 10 => (Scope.ofCode (x.f 20 3)).map fun p => .pref (x.g 34) (x.g 28) (Scale.ofCode (x.f 26 2)) p (x.f 0 20)
  | 11 => (Scope.ofCode (x.f 20 3)).map fun p => .discard (x.g 40) (x.g 34) (x.g 28) (Scale.ofCode (x.f 26 2)) p (x.f 0 20)
  | 12 => (Scope.ofCode (x.f 20 3)).map fun p => .flush (x.g 40) (x.g 34) (x.g 28) (Scale.ofCode (x.f 26 2)) p (x.f 0 20)
  | 13 => (MemOrd.ofCode (x.f 23 3)).bind fun o => (Scope.ofCode (x.f 20 3)).map fun p => .fence o p
  | _ => none

/-- The instruction that group 3 opcode `k` and a body name, before the field rules (02 R66). -/
def readGroup3 (k : Nat) (x : Body) : Option Instr :=
  match k with
  | 0 => (Cond.ofCode (x.f 30 4)).map fun cc => .br cc (x.g 40) (x.g 34) (x.f 26 3) (x.f 0 26)
  | 1 => some (.jmp (x.f 26 3) (x.f 0 26))
  | 2 => some (.jmpr (x.g 34))
  | 3 => some (.call (x.f 26 3) (x.f 0 26))
  | 4 => some (.start (x.f 30 2) (x.g 40) (x.g 34) (x.f 26 3) (x.f 0 26))
  | 5 => some .exit
  | 6 => some .yield
  | 7 => (CtxQ.ofCode (x.f 16 2)).map fun q => .ctxq q (x.g 40) (x.g 34)
  | 8 => some (.send (x.bit 16) (x.g 40) (x.g 34) (x.g 28) (x.g 22))
  | 9 => some (.recv (x.g 40) (x.g 34) (x.g 28))
  | 10 => some (.waitm (x.g 40))
  | 11 => some (.rrsv (x.g 40) (x.g 34) (x.f 16 4))
  | 12 => some (.rpub (x.g 34) (x.g 28) (x.f 16 4))
  | 13 => some (.rwait (x.g 40) (x.g 34) (x.f 16 4))
  | 14 => some (.radv (x.g 34) (x.f 16 4))
  | 15 => some (.reos (x.f 16 4))
  | 16 => some (.rqry (RingQ.ofCode (x.f 20 2)) (x.g 40) (x.f 16 4))
  | 17 => some (.smode (x.bit 16 |> streamIndex (x.g 40)) (x.g 34) (x.g 28))
  | 18 => some (.soff (x.bit 16 |> streamIndex (x.g 40)))
  | 19 => some (.copy (x.g 34) (x.g 28) (x.g 22))
  | 20 => some (.gather (x.g 34) (x.g 28) (x.g 22))
  | 21 => some (.scatter (x.g 34) (x.g 28) (x.g 22))
  | 22 => (RcOp.ofCode (x.f 16 2)).map fun op => .rcopy op (x.bit 18) (x.g 34) (x.g 28) (x.g 22)
  | 23 => some (.cretry (x.g 34))
  | 24 => some (.cskip (x.bit 16) (x.g 34))
  | 25 => some (.cabort (x.g 34))
  | 26 => some (.step (x.g 40) (x.g 0))
  | 27 => some (.handoff (x.g 40) (x.g 34) (x.f 0 8))
  | 28 => some (.take (x.g 40) (x.f 0 8))
  | 29 => some (.post (x.g 34) (x.g 28) (x.g 16))
  | 30 => some (.trap x.imm34)
  | 31 => some .eret
  | 32 => some (.sysr (x.g 40) (x.g 34) (x.f 22 12))
  | 33 => some (.sysw (x.g 40) (x.g 34) (x.f 22 12))
  | 34 => some (.resume (x.g 34) (x.g 28))
  | 35 => some .halt
  | 36 => (TlbK.ofCode (x.f 16 2)).map fun k => .tlbi k (x.g 34) (x.g 28)
  | 37 => some (.dbgbrk (x.f 0 16))
  | _ => none

/-- The instruction that group 4 opcode `k` and a body name, before the field rules (02 R66). -/
def readGroup4 (k : Nat) (x : Body) : Option Instr :=
  match k with
  | 0 => (Fmt.ofCode (x.f 35 5)).bind fun fA => (Fmt.ofCode (x.f 30 5)).bind fun fB => (AccM.ofCode (x.f 4 2)).bind fun m => (MillC.ofCode (x.f 40 3) (x.f 25 5) (x.f 17 4) (x.f 9 4)).map fun c => .mill (x.f 43 3) c fA fB (x.f 21 4) (x.f 13 4) (x.f 6 3) m (x.f 0 4)
  | 1 => (Fmt.ofCode (x.f 35 5)).bind fun fA => (Fmt.ofCode (x.f 30 5)).bind fun fB => (AccM.ofCode (x.f 4 2)).bind fun m => (MillC.ofCode (x.f 40 3) (x.f 25 5) (x.f 17 4) 0#4).map fun c => .millg (x.f 43 3) c fA fB (x.f 21 4) (x.f 13 4) (x.f 9 2) (x.f 6 3) m (x.f 0 4)
  | 2 => (Fmt.ofCode (x.f 35 5)).bind fun fA => (Fmt.ofCode (x.f 30 5)).bind fun fB => (AccM.ofCode (x.f 4 2)).bind fun m => (MillC.ofCodeGrouped (x.f 40 3) (x.f 25 5) (x.f 17 4)).map fun c => .millx (x.f 43 3) c fA fB (x.f 21 4) (x.f 13 4) (x.f 9 4) (x.f 6 3) m (x.f 0 4)
  | 3 => some (.mzero (x.f 43 3) (x.f 0 4))
  | 4 => some (.mdrain (x.f 35 11) (x.f 24 3) (x.f 0 4))
  | 5 => some (.mseta (x.f 35 4) (x.f 24 11) (x.f 0 4))
  | 6 => some (.msetb (x.f 35 4) (x.f 24 11) (x.f 0 4))
  | 7 => some (.midx (x.f 24 11) (x.f 0 4))
  | _ => none

/-- The instruction that group 5 opcode `k` and a body name, before the field rules (02 R66). -/
def readGroup5 (k : Nat) (x : Body) : Option Instr :=
  match k with
  | 0 => (VTy.ofCode (x.f 4 3)).bind fun ty => (VArgs.ofBody x).map fun v => .vadd ty v
  | 1 => (VTy.ofCode (x.f 4 3)).bind fun ty => (VArgs.ofBody x).map fun v => .vsub ty v
  | 2 => (VTy.ofCode (x.f 4 3)).bind fun ty => (VArgs.ofBody x).map fun v => .vmul ty v
  | 3 => (VTy.ofCode (x.f 4 3)).bind fun ty => (VArgs.ofBody x).map fun v => .vfma ty v
  | 4 => (VTy.ofCode (x.f 4 3)).bind fun ty => (VArgs.ofBody x).map fun v => .vmin ty v
  | 5 => (VTy.ofCode (x.f 4 3)).bind fun ty => (VArgs.ofBody x).map fun v => .vmax ty v
  | 6 => (VTy.ofCode (x.f 4 3)).bind fun ty => (VArgs.ofBody x).map fun v => .vand ty v
  | 7 => (VTy.ofCode (x.f 4 3)).bind fun ty => (VArgs.ofBody x).map fun v => .vor ty v
  | 8 => (VTy.ofCode (x.f 4 3)).bind fun ty => (VArgs.ofBody x).map fun v => .vxor ty v
  | 9 => (VTy.ofCode (x.f 4 3)).bind fun ty => (VArgs.ofBody x).map fun v => .vshl ty v
  | 10 => (VTy.ofCode (x.f 4 3)).bind fun ty => (VArgs.ofBody x).map fun v => .vshr ty v
  | 11 => (VTy.ofCode (x.f 4 3)).bind fun ty => (VArgs.ofBody x).map fun v => .vsra ty v
  | 12 => (VTy.ofCode (x.f 4 3)).bind fun ty => (VArgs.ofBody x).map fun v => .vcmp ty v
  | 13 => (VTy.ofCode (x.f 4 3)).bind fun ty => (VArgs.ofBody x).map fun v => .vsel ty v
  | 14 => (VTy.ofCode (x.f 4 3)).bind fun ty => (Rm.ofCode (x.f 18 3)).bind fun rm => (Fmt.ofCode (x.f 13 5)).bind fun f => (VArgs1.ofBody x).map fun v => .vcvt ty (x.bit 21) rm f v
  | 15 => (Fmt.ofCode (x.f 13 5)).map fun f => .vpack f (x.f 35 11) (x.f 24 11) (x.f 0 4)
  | 16 => (Fmt.ofCode (x.f 13 5)).map fun f => .vunpk f (x.f 35 11) (x.f 24 11) (x.f 0 4)
  | 17 => (VTy.ofCode (x.f 4 3)).bind fun ty => (VArgs1.ofBody x).map fun v => .vexp2 ty v
  | 18 => (VTy.ofCode (x.f 4 3)).bind fun ty => (VArgs1.ofBody x).map fun v => .vlog2 ty v
  | 19 => (VTy.ofCode (x.f 4 3)).bind fun ty => (VArgs1.ofBody x).map fun v => .vrcp ty v
  | 20 => (VTy.ofCode (x.f 4 3)).bind fun ty => (VArgs1.ofBody x).map fun v => .vrsq ty v
  | 21 => (VTy.ofCode (x.f 4 3)).bind fun ty => (RedOp.ofCode (x.f 13 2)).bind fun op => (VArgs1.ofBody x).map fun v => .vred ty op v
  | 22 => (VTy.ofCode (x.f 4 3)).bind fun ty => (RedOp.ofCode (x.f 13 2)).bind fun op => (VArgs1.ofBody x).map fun v => .vscan ty op (x.bit 15) v
  | 23 => (VArgs.ofBody x).map fun v => .vthr v
  | 24 => (VArgs.ofBody x).map fun v => .vbis v
  | 25 => (VArgs.ofBody x).map fun v => .vcnt v
  | 26 => (VArgs.ofBody x).map fun v => .vperm v
  | 27 => (VArgs1.ofBody x).map fun v => .vrot (x.f 13 5) v
  | 28 => (VArgs1.ofBody x).map fun v => .vbc (x.f 13 5) v
  | 29 => (VArgs1.ofBody x).map fun v => .vmov v
  | 30 => some (.vli (x.bit 30) (laneOf (x.f 24 6)) (x.f 35 11) (x.f 4 20) (x.f 0 4))
  | 31 => some (.vld (x.f 35 11) (x.f 24 11) (x.f 4 18) (x.f 0 4))
  | 32 => some (.vst (x.f 22 2) (x.f 35 11) (x.f 24 11) (x.f 4 18) (x.f 0 4))
  | _ => none

/-- The instruction that group 6 opcode `k` and a body name, before the field rules (02 R66). -/
def readGroup6 (k : Nat) (x : Body) : Option Instr :=
  match k with
  | 0 => some (.sld (x.f 11 2) (x.g 40) (x.g 4) (x.f 22 12) (x.f 0 4))
  | 1 => some (.sldl (x.bit 10) (x.g 40) (x.g 4) (x.f 22 12) (x.f 0 4))
  | 2 => some (.sst (x.g 40) (x.g 4) (x.f 22 12) (x.f 0 4))
  | 3 => (IdxFmt.ofCode (x.f 13 5)).map fun f => .sgth (x.f 11 2) f (x.g 40) (x.g 4) (x.f 22 12) (x.f 0 4)
  | 4 => (IdxFmt.ofCode (x.f 13 5)).map fun f => .ssct f (x.g 40) (x.g 4) (x.f 22 12) (x.f 0 4)
  | 5 => some (.sxl (x.f 11 2) (Dir.ofNum (x.f 18 2)) (x.g 40) (x.f 22 12) (x.f 0 4))
  | 6 => some (.scnt (x.f 11 2) (Dir.ofNum (x.f 18 2)) (x.g 40) (x.f 22 12) (x.f 0 4))
  | 7 => some (.smeta (Dir.ofNum (x.f 18 2)) (x.g 40) (x.f 22 12) (x.f 0 4))
  | 8 => some (.sset (SsetDst.ofCode (x.bit 18) (x.f 11 2) (x.bit 10)) (x.g 40) (x.g 34) (x.f 22 12) (x.f 0 4))
  | _ => none

/-- The instruction that group 7 opcode `k` and a body name, before the field rules (02 R66). -/
def readGroup7 (k : Nat) (x : Body) : Option Instr :=
  match k with
  | 0 => (WinPol.ofCode (x.f 34 2)).map fun p => .window p (x.f 40 4) x.imm34
  | 1 => some (.pread (x.g 40) (x.g 0) (x.f 6 5))
  | 2 => (NfRel.ofCode (x.f 34 3)).bind fun r => (NfCtr.ofCode (x.f 37 2)).map fun c => .nfset r c (x.f 40 4) (x.g 28) (x.f 0 28)
  | 3 => some (.nfclr (x.f 1 15))
  | 4 => some (.loopset (x.f 40 1) (x.f 16 16) (x.f 0 16))
  | 5 => some (.tstep (x.g 40) x.imm34)
  | 6 => some (.tmark x.imm34)
  | 7 => some (.tsync (x.f 0 16))
  | 8 => some .tend
  | 9 => some (.twait x.imm34)
  | _ => none

/-- Reading by group, OPC[9:7] (02 R66). -/
def readBody (group k : Nat) (x : Body) : Option Instr :=
  match group with
  | 0 => readGroup0 k x
  | 1 => readGroup1 k x
  | 2 => readGroup2 k x
  | 3 => readGroup3 k x
  | 4 => readGroup4 k x
  | 5 => readGroup5 k x
  | 6 => readGroup6 k x
  | _ => readGroup7 k x

/-- How many opcodes a group assigns (02 R66). -/
def groupSize (group : Nat) : Nat :=
  match group with
  | 0 => 44
  | 1 => 31
  | 2 => 14
  | 3 => 38
  | 4 => 8
  | 5 => 33
  | 6 => 9
  | _ => 10

/-- The format-code fields that an encoding uses (02 R64, R69): a code of 24-31 in one of them is an absent extension. -/
def fmtFields (group k : Nat) (x : Body) : List (BitVec 5) :=
  match group with
  | 1 =>
    if k = 7 then (if x.bit 33 then [] else [x.f 28 5]) ++ (if x.bit 27 then [] else [x.f 22 5])
    else if k = 8 then (if x.bit 21 then [] else [x.f 16 5])
    else if k = 22 then x.f 15 5 :: (if x.bit 14 then [] else [x.f 9 5])
    else if 9 ≤ k then [x.f 15 5]
    else []
  | 4 => if k ≤ 2 then [x.f 35 5, x.f 30 5] ++ (if x.f 40 3 = 0#3 ∨ x.f 40 3 = 4#3 then [] else [x.f 25 5]) else []
  | 5 => if k = 14 ∨ k = 15 ∨ k = 16 then [x.f 13 5] else []
  | 6 => if k = 3 ∨ k = 4 then [x.f 13 5] else []
  | _ => []

/-- Why a word is no instruction, in the order of 02 R69. -/
inductive DecodeError where
  | wrongEngine | unassigned | absent | illegal
  deriving DecidableEq, Repr

/-- The cause code of a refused word (02 R68). -/
def DecodeError.cause : DecodeError → BitVec 8
  | .wrongEngine => 0x03#8
  | .unassigned => 0x01#8
  | .absent => 0x04#8
  | .illegal => 0x02#8

/-- The engines a group and opcode are legal on (02 R67): 0 dynamic, 1 MILL, 2 VEC, 3 STRM, 4 REEVE. -/
def legalOn (group k eng : Nat) : Bool :=
  match group with
  | 0 | 1 | 2 | 3 => eng == 0
  | 4 => eng == 1
  | 5 => eng == 2
  | 6 => eng == 3
  | _ => eng == 4 || (eng == 1 || eng == 2 || eng == 3) && (k == 4 || k == 6 || k == 9)

/-- A decoded word: its delay and its instruction. -/
structure Slot where
  dly : BitVec 8
  instr : Instr
  deriving DecidableEq, Repr

/-- The DLY field (02 R61). -/
def wordDly (w : Word) : BitVec 8 := w.extractLsb' 56 8
/-- The OPC field (02 R61). -/
def wordOpc (w : Word) : BitVec 10 := w.extractLsb' 46 10
/-- The body (02 R61). -/
def wordBody (w : Word) : Body := w.extractLsb' 0 46

/-- The word of an instruction with a delay (02 R61). -/
def encode (dly : BitVec 8) (i : Instr) : Option Word :=
  i.opcode.map fun o => (dly ++ o ++ i.body : BitVec 64)

/-- The instruction of an opcode and a body, when they are the encoding of a well-formed instruction (02 R65). -/
def readWord (o : BitVec 10) (x : Body) : Option Instr :=
  (readBody (o.toNat / 128) (o.toNat % 128) x).filter fun i => i.wf && i.opcode == some o && i.body == x

/-- Decoding on an engine (02 R68, R69). On engine 0 the DLY field must be zero. -/
def decodeOn (eng : Nat) (w : Word) : Except DecodeError Slot :=
  let o := wordOpc w
  let g := o.toNat / 128
  let k := o.toNat % 128
  if !legalOn g k eng then .error .wrongEngine
  else if 0x60 ≤ k then .error .absent
  else if groupSize g ≤ k then .error .unassigned
  else if (fmtFields g k (wordBody w)).any fun c => decide (24 ≤ c.toNat) then .error .absent
  else if eng = 0 ∧ wordDly w ≠ 0#8 then .error .illegal
  else
    match readWord o (wordBody w) with
    | some i => .ok { dly := wordDly w, instr := i }
    | none => .error .illegal

/-- The engine that a group's instructions run on (02 R67). -/
def engineOf (w : Word) : Nat :=
  match (wordOpc w).toNat / 128 with
  | 0 | 1 | 2 | 3 => 0
  | 4 => 1
  | 5 => 2
  | 6 => 3
  | _ => 4

/-- Decoding a word on its own group's engine. -/
def decode (w : Word) : Except DecodeError Slot := decodeOn (engineOf w) w

/-- The number of eight bytes stored little-endian (00 R6). -/
def wordOfBytes : List Byte → Nat
  | [] => 0
  | b :: r => b.toNat + 256 * wordOfBytes r

/-- The eight bytes of a word, lowest address first (00 R6). -/
def bytesOfWord : Nat → Nat → List Byte
  | 0, _ => []
  | n + 1, v => BitVec.ofNat 8 v :: bytesOfWord n (v / 256)

/-- Decoding the bytes at an instruction slot: the first eight, little-endian; none for fewer (02 R53). -/
def decodeBytes (l : List Byte) : Option Slot :=
  if l.length < 8 then none
  else (decode (BitVec.ofNat 64 (wordOfBytes (l.take 8)))).toOption

/-- The instruction of a table row's bits: the word's bytes as the hardware stores them, given to the decoder. -/
def decodeTableWord (nbits w : Nat) : Option Instr :=
  if nbits ≤ 64 then (decodeBytes (bytesOfWord 8 (w % 2 ^ 64))).map Slot.instr else none

end Sys2Proof
end

