-- ==== Sys2Proof/Config.lean ====
section
/-!
DEFINITION. What an implementation fixes and what the spec leaves open. A value that the spec leaves open is an opaque
constant applied to the counter `State.free` or to the operands it depends on: nothing can be proved about which value
it is. The constants of revision 1 that the spec fixes stand here too.
-/

namespace Sys2Proof.Config

/-- A free truth value, one per draw: whether a clean copy of a cache line is still present, whether a dirty sector has
been written back (08 R246-R248, R254). Log 2. -/
opaque freeBool : Nat → Bool

/-- A free 64-bit value, one per draw. Log 2. -/
opaque freeWord : Nat → Word

/-- Where the search for a fresh fault tag starts: the order in which tags are drawn is not architectural (05 R180).
Log 2. -/
opaque freeTag : Nat → Nat

/-- The plaintext of a far-tier sector that the device did not seal under its present key: what host memory holds there
opens to some value (08 R258, 13 R377). Arguments: the key, the sector's number, the host's 64 bytes. Log 22. -/
opaque openSector : Nat → Nat → BitVec 512 → BitVec 512

/-- The sealed bytes of a far-tier sector as they leave the package (08 R258, 13 R377). Arguments: the key, the sector's
number, the plaintext. Log 22. -/
opaque sealSector : Nat → Nat → BitVec 512 → BitVec 512

/-- A fresh partition key, by draw: drawn on the device and never readable (13 R378). Log 22. -/
opaque freshKey : Nat → Nat

/-- The digest of a byte string (13 R379, R385), as a number. Log 22. -/
opaque digest : List Byte → Nat

/-- The identity that physical function n answers configuration reads with (13 R365). Log 83. -/
opaque identity : Nat → Nat

/-- What measurements 1 and 2 measure: the boot ROM, and the firmware of the device (13 R379). Log 22. -/
opaque firmware : Nat → List Byte

/-- FEAT0 to FEAT3 of revision 1 (02 R70): no extension is announced, and FEAT3 carries the revision. -/
def feat : Nat → Word
  | 3 => 0x0100000000000000#64
  | _ => 0#64

end Sys2Proof.Config
end

