-- ==== Sys2Proof/Machine/State.lean ====
section
/-!
DEFINITION. The state of one K4 package as plain data: everything spec/ gives the machine (01, and the chapters that add
to it), and two things of the model's own, the agenda of what happens next from outside (log 1) and the counter of free
values (log 2). Collections keyed by a number are sparse maps.
-/

namespace Sys2Proof.Machine

/-- Reasons for which a step stops the machine. The spec gives every step an effect, so the one stop is the absence of
power. -/
inductive Fault where
  /-- Raised by `step` alone, once package power has been removed (18 R439, R441) and until power is applied again
  (COLD_RESET): no agent runs. Safe: nothing is claimed of a machine without power. -/
  | poweredOff
  deriving DecidableEq, Repr

/-- Reasons for which a step is refused. -/
inductive Refusal where
  /-- An instruction that has no meaning yet, by its mnemonic; raised by `exec` alone. Safe: nothing is claimed of it. -/
  | notModelled (mnemonic : String)
  deriving DecidableEq, Repr

/-! ## Dynamic contexts -/

/-- CTX.STATE, codes 0 to 6 (01 R28). -/
inductive CtxState where
  | free | ready | running | parked | upcall | halted | swapped
  deriving DecidableEq, Repr, Inhabited

/-- The pattern of an affine layout record (05 R165). -/
structure Affine where
  elem : Nat
  cnt : List Nat
  str : List Int
  deriving DecidableEq, Repr, Inhabited

/-- A layout record as read: affine, indexed, or one that fails 05 R165. -/
inductive Layout where
  | affine (a : Affine) | indexed (rowBytes rows : Nat) (stride : Int) | bad
  deriving DecidableEq, Repr, Inhabited

/-- One pop's worth of a stream register fetched ahead, or the fault that a refill met and holds (05 R167). -/
inductive Refill where
  | data (v : BitVec 512) | fault (cause detail : BitVec 8) (va : Word)
  deriving DecidableEq, Repr, Inhabited

/-- A stream descriptor (05 R166): the layout handle and its pattern as read by SMODE, the base pointer, the next
element to pop, the register's saved value, and the pops refilled ahead, oldest first; how many elements of the next pop
have been read, with their lanes; the ticket from which the context's stores are later than its fork (09 R287, R288); and
whether its record was rewritten under it (01 R33). -/
structure Strm where
  handle : BitVec 8
  pat : Affine
  base : Word
  pos : Nat
  saved : BitVec 512
  ahead : List Refill
  read : Nat
  lanes : BitVec 512
  fork : Nat
  broken : Bool
  deriving DecidableEq, Repr, Inhabited

/-- How a load turns the bytes it read into a register value (04 R137-R139). -/
inductive LdForm where
  | zext | sext | t6 | toFp32 (f : Fmt) (scale : Option Byte) | lanesRaw | lanesFp32 (f : Fmt) (scales : List (Option Byte))
  deriving DecidableEq, Repr, Inhabited

/-- The steps on a ring record (05 R163). -/
inductive RingStep where
  | rrsv (n : Word) | rpub (t n : Word) | rwait (n : Word) | radv (n : Word) | reos | rqry (q : RingQ)
  deriving DecidableEq, Repr, Inhabited

/-- One access to memory: the virtual address, the physical address in its first page and of the page that follows, the
bytes of a store with the bits of each that are kept as they stand, what remains to be performed, and
what has been read so far (09 R275). -/
structure Acc where
  va : Nat
  pa : Nat
  pa2 : Nat
  len : Nat
  fmt : BitVec 5
  nc : Bool
  data : List Byte
  keep : List Byte
  parts : List (Nat × Nat)
  got : SMap Byte
  writer : Nat
  prio : BitVec 2
  deriving DecidableEq, Repr, Inhabited

/-- An instruction that has issued and yielded its context until it is performed (04 R118, 05 R150). -/
inductive Pend where
  | load (a : Acc) (form : LdForm) (dReg : Bool) (d : BitVec 6) (acq : Option Scope)
  | store (ticket : Nat)
  | amo (a : Acc) (op : AmoOp) (v : Word) (d : BitVec 6) (ord : MemOrd) (scope : Scope)
  | cas (a : Acc) (cmp new : Word) (d : BitVec 6) (ord : MemOrd) (scope : Scope)
  | sweep (discard : Bool) (sectors : List Nat)
  | fence (ord : MemOrd) (scope : Scope)
  | ring (st : RingStep) (h : BitVec 4) (d : BitVec 6) (acc : Acc)
  | smode (x : BitVec 4) (handle : BitVec 8) (base : Word)
  | handoff (d : BitVec 6) (dst : Nat) (n : BitVec 8)
  | sysr (d : BitVec 6) (cw : BitVec 12) (tile : Nat)
  | sysw (v : Word) (cw : BitVec 12) (tile : Nat)
  | tlbi (k : TlbK) (lo hi : Nat) (acked : List Nat)
  | exit
  deriving DecidableEq, Repr, Inhabited

/-- What a context in STATE 3 (or halted) waits for. `again` issues the instruction at the PC again once the condition
holds; `step` is an arrival made and not completed; `pend` an issued instruction not yet performed. -/
inductive Wait where
  | none
  | line (l : Nat)
  | stream (x : BitVec 4)
  | queueFull
  | release (scope : Scope)
  | stores
  | copyId
  | helper (k : Nat)
  | message (d : BitVec 6)
  | step (g : BitVec 6) (d : BitVec 6)
  | take (d : BitVec 6) (n : BitVec 8)
  | service (tag : BitVec 16)
  | pend (p : Pend)
  | halt
  | debug
  deriving DecidableEq, Repr, Inhabited

/-- A copy fault held until it can be delivered (05 R172, R173). -/
structure HeldFault where
  op : BitVec 4
  detail : BitVec 8
  f1 : Word
  f2 : Word
  f3 : Word
  deriving DecidableEq, Repr, Inhabited

/-- A dynamic context (01 R27-R31, R34) with what its instructions leave outstanding. -/
structure Ctx where
  g : SMap Word
  d : SMap (BitVec 512)
  pc : BitVec 29
  pcBad : Bool
  state : CtxState
  inupc : Bool
  upen : Bool
  prio : BitVec 2
  upv : BitVec 29
  frec0 : Word
  frec1 : Word
  frec2 : Word
  frec3 : Word
  strmEnd : BitVec 16
  strmAct : BitVec 16
  strms : SMap Strm
  pseq : BitVec 16
  h : SMap Word
  lsel : BitVec 11
  steps : Nat
  wait : Wait
  undo : Option (SMap Strm × BitVec 16)
  arrivals : List (Nat × Nat)
  held : List HeldFault
  sys : Option (BitVec 8 × BitVec 8)
  ran : Bool
  rcSeq : Nat
  deriving DecidableEq, Repr, Inhabited

/-! ## Cores -/

/-- A mailbox entry (01 R32, 05 R159): kind, destination context, peer, sequence number and payload. -/
structure MEntry where
  kind : BitVec 4
  dst : Nat
  peer : BitVec 12
  seq : BitVec 32
  lo : Word
  hi : Word
  deriving DecidableEq, Repr, Inhabited

/-- A store in a core's store queue (04 R148): a ticket that names it, its context, and the access; whether a checked store
has passed its checks; the other contexts of the core that must see it, since they have read it or have synchronised with
a release that follows it, and whether such a release has been made (09 R276, R282). -/
structure SqEnt where
  ticket : Nat
  ctx : Nat
  checked : Bool
  acc : Acc
  admitted : Bool
  seen : List Nat
  released : Bool
  deriving DecidableEq, Repr, Inhabited

/-- A TLB entry (08 R254): the 64 KiB page number of its first page, whether it is a 32 MiB page, and the leaf. -/
structure TlbEnt where
  page : Nat
  large : Bool
  slot : Nat
  leaf : Word
  deriving DecidableEq, Repr, Inhabited

/-- A table-pointer entry that a hamlet holds (08 R254): the residency slot, the level, the address bits that lead to it, and
the table that it names. -/
structure PtrEnt where
  slot : Nat
  level : Nat
  path : Nat
  table : Nat
  deriving DecidableEq, Repr, Inhabited

/-- One writer's contribution to a word of a next plane (08 R266): the highest priority of its stores in this step and
its bytes, with a mask of the bytes stored, and the word as the next plane held it before the step's first store to it. -/
structure Contrib where
  reg : Nat
  word : Nat
  writer : Nat
  prio : BitVec 2
  val : Word
  mask : BitVec 8
  old : Word
  deriving DecidableEq, Repr, Inhabited

/-- The stepped regions of one tile or core: the table, the contributions of the next planes, the words that a timed
write marked, with its writer (01 R36, 08 R263-R268, 07 R223). -/
structure Stepped where
  tab : SMap Word
  contribs : List Contrib
  marks : List (Nat × Nat × Nat)
  deriving DecidableEq, Repr, Inhabited

/-- A core (01 R32), without its local memory, which stands in the partition. -/
structure Core where
  ctxs : SMap Ctx
  sent : Word
  rcvd : Word
  mbox : List MEntry
  netif : List MEntry
  spill : List MEntry
  sq : List SqEnt
  nextTicket : Nat
  l1 : SMap (Option (BitVec 512))
  icache : List Nat
  stepped : Stepped
  running : Option Nat
  last : Nat
  switching : Bool
  count : Nat
  preempted : Bool
  save : Option (Nat × Ctx)
  stopped : Bool
  counters : SMap Word
  deriving DecidableEq, Repr, Inhabited

/-! ## Hamlets -/

/-- The reducing operation and index flag of an RCOPY, or the plain kinds (05 R168, R171). -/
inductive CopyKind where
  | copy | gather | scatter | rcopy (op : RcOp) (idx : Bool)
  deriving DecidableEq, Repr, Inhabited

/-- A copy operation of a hamlet copy unit (05 R168-R174). `fork` is the ticket from which its issuer's stores are later (09
R287); `row` is the index list's entry for the present element and `buf` its source bytes, once they have been read (09
R275). -/
structure CopyOp where
  kind : CopyKind
  core : Nat
  ctx : Nat
  dst : Word
  src : Word
  idx : Word
  hd : BitVec 8
  hs : BitVec 8
  tag : BitVec 16
  fork : Nat
  begun : Bool
  dlay : Layout
  slay : Layout
  next : Nat
  applied : Nat
  skipped : Nat
  row : Option Int
  buf : Option (List Byte)
  susp : Option HeldFault
  aborted : Bool
  broken : Bool
  badLayout : Bool
  deriving DecidableEq, Repr, Inhabited

/-- A fault record at the hamlet's service context (12 R346). -/
structure SvcRec where
  tag : BitVec 16
  core : Nat
  ctx : Nat
  va : Word
  detail : BitVec 8
  upcall : Bool
  done : Bool
  sent : Bool
  deriving DecidableEq, Repr, Inhabited

/-- A hamlet: layout records (01 R33), pending queue (05 R157), copy unit with the requests waiting for an id (10 R318),
service records with the tags outstanding, the place from which the copy unit serves its next refill, as a global context
number and a stream register (10 R318), and whether the service context has pre-empted the hamlet's core 0 (12 R346). -/
structure Hamlet where
  lrec : SMap (BitVec 512)
  pendq : List (Nat × MEntry)
  ops : SMap (Option CopyOp)
  reqs : List CopyOp
  svc : List SvcRec
  refillAt : Nat
  serving : Bool
  deriving DecidableEq, Repr, Inhabited

/-! ## Step groups, owned regions -/

/-- A step group (01 R35): its members, its count, the arrivals of the present step, the leading tiles of the Mill
arrivals carried to the next step (06 R202), and, of a completion under way, the tiles on which it has taken effect, each
with its t + D (05 R175). `first` holds EARLY and the sum of the arrival times, `lastArr` holds LATE and twice LAST, plus
one for a Mill arrival (14 R399). -/
structure Group where
  tiles : List Nat
  ctxs : List Nat
  gangs : Nat
  count : Nat
  arrTiles : List Nat
  arrCtxs : List Nat
  arrGangs : Nat
  carry : List Nat
  effect : List (Nat × Nat)
  first : Option (Nat × Nat)
  lastArr : Option (Nat × Nat)
  deriving DecidableEq, Repr, Inhabited

/-- NMEM of a group (10 R307). -/
def Group.nmem (g : Group) : Nat := g.tiles.length + g.ctxs.length + g.gangs

/-- ARR of a group (01 R35). -/
def Group.arr (g : Group) : Nat := g.arrTiles.length + g.arrCtxs.length + g.arrGangs

/-- An owned-region entry (01 R38). -/
structure Owned where
  valid : Bool
  base : Nat
  size : Nat
  holder : BitVec 12
  hseq : BitVec 16
  deriving DecidableEq, Repr, Inhabited

/-- A message or handover entry on its way (05 R156, R157, R176). -/
structure Msg where
  src : Nat
  dst : Nat
  kind : BitVec 4
  seq : BitVec 32
  lo : Word
  hi : Word
  returned : Bool
  deriving DecidableEq, Repr, Inhabited

/-- A post on its way (05 R178). -/
structure Post where
  src : Nat
  tile : Nat
  word : Nat
  value : BitVec 32
  seq : BitVec 16
  deriving DecidableEq, Repr, Inhabited

/-! ## The timed plane -/

/-- A timed chain (01 R13, R19; 02 R54-R56): the line and slot of its next instruction, its counters, whether it still
runs, and the SCYC at which that instruction issues. -/
structure Chain where
  line : Nat
  slot : Nat
  lc0 : BitVec 32
  lc1 : BitVec 32
  live : Bool
  due : Nat
  deriving DecidableEq, Repr, Inhabited

/-- A Mill operation in flight (06 R190, R195-R200): its place, issue cycle, latched registers and what it has read.
Raw operand bytes are keyed by (16·sweep + q)·32 + row or column; in KN mode the elements used in each tc stand in `kb`
and `kc`. `leader` is the leading tile of a gang; `issued` tells whether the leader has issued the operation, which a hold may
let a member reach first: till then `bnd` keeps that a read of the member met an address outside the share, and `early` the first
tc in which one met an uncorrectable word, with its DETAIL; `maReg` is the register of A, and `accIn` the rows of the bank as
sweep 0 reads them. -/
structure MillRun where
  line : Nat
  slot : Nat
  issue : Nat
  ready : Nat
  bank : Nat
  c : MillC
  fA : Fmt
  fB : Fmt
  sweeps : Nat
  ovw : Bool
  arrive : Bool
  null : Bool
  leader : Nat
  width : Nat
  issued : Bool
  bnd : Bool
  early : Option (Nat × BitVec 8)
  maReg : Nat
  ma : Word
  mb : Word
  mc : Word
  midx : Word
  rows : List (Option Nat)
  a : SMap (BitVec 256)
  b : SMap (BitVec 256)
  cc : SMap (BitVec 256)
  kb : SMap (List Nat)
  kc : SMap (List Nat)
  accIn : SMap (BitVec 1024)
  err : Option (Nat × Nat)
  deriving DecidableEq, Repr, Inhabited

/-- An MDRAIN in flight (06 R204): issue cycle, first V register, bank, whether nullified, the row read last, and the bank's rows,
each with whether it is uncorrectable, kept before a write that ran ahead of a stopped clock. -/
structure Drain where
  issue : Nat
  d : Nat
  bank : Nat
  null : Bool
  row : Option (Nat × BitVec 1024)
  kept : List (BitVec 1024 × Bool)
  deriving DecidableEq, Repr, Inhabited

/-- A V-register write in flight (07 R208, R236): when it lands, the register, the one lane it writes or all, the value, the
link sink, and whether it is PREAD's. -/
structure VWrite where
  due : Nat
  reg : Nat
  lane : Option (BitVec 5)
  val : BitVec 1024
  sink : Option Dir
  pread : Bool
  deriving DecidableEq, Repr, Inhabited

/-- A VST in flight (07 R223). -/
structure VstWrite where
  due : Nat
  ea : Nat
  data : BitVec 1024
  prio : BitVec 2
  deriving DecidableEq, Repr, Inhabited

/-- Where a stream beat lands: address, length, writer id and priority (07 R229). -/
structure Landing where
  addr : Nat
  len : Nat
  writer : Nat
  prio : BitVec 2
  deriving DecidableEq, Repr, Inhabited

/-- A beat on its way to this tile (07 R210, R229). -/
structure Beat where
  dir : Dir
  due : Nat
  data : BitVec 1024
  land : Option Landing
  deriving DecidableEq, Repr, Inhabited

/-- A metadata pair on its way to this tile over one hop (07 R210, R231). -/
structure Pair where
  due : Nat
  hop : Nat
  slot : BitVec 32
  word : BitVec 32
  dst : Nat
  writer : Nat
  deriving DecidableEq, Repr, Inhabited

/-- An SSET in flight (07 R232): the units still to be written, by number. -/
structure Fill where
  issue : Nat
  loc : Nat
  next : Nat
  len : Nat
  loft : Bool
  spread : Bool
  prio : BitVec 2
  null : Bool
  pat : BitVec 1024
  deriving DecidableEq, Repr, Inhabited

/-- The kind of a static burst (07 R228). -/
inductive BurstKind where
  | ld | ldl | st | gth (f : IdxFmt) | sct (f : IdxFmt)
  deriving DecidableEq, Repr, Inhabited

/-- A static burst placed in slot σ (07 R227, R228): where it reads and writes, the row that an indexed burst takes its
address from, and its data once known. -/
structure Burst where
  slot : Nat
  kind : BurstKind
  seg : Nat
  pch : Nat
  off : Option Nat
  loc : Nat
  prio : BitVec 2
  null : Bool
  rowFirst : Bool
  row : Nat
  unit : Nat
  idx : Nat
  pitch : Nat
  hoff : Nat
  rowKey : Nat
  rowLen : Nat
  latched : Bool
  performed : Bool
  data : BitVec 512
  deriving DecidableEq, Repr, Inhabited

/-- A link transfer departing (07 R229, R231): the beats or pairs still to go. -/
structure Xfer where
  scnt : Bool
  smeta : Bool
  dir : Dir
  issue : Nat
  next : Nat
  n : Nat
  len : Nat
  loc : Nat
  dst : Nat
  prio : BitVec 2
  null : Bool
  count : Nat
  deriving DecidableEq, Repr, Inhabited

/-- A TSTEP waiting for tc t + D (07 R238): the group, that tc, and the group's COUNT that completes its step. -/
structure TStepRun where
  g : Nat
  due : Nat
  need : Nat
  deriving DecidableEq, Repr, Inhabited

/-- A TSYNC awaited: side, epoch, own SCYC at issue (07 R239, 11 R340). -/
structure SyncRun where
  west : Bool
  epoch : BitVec 16
  issue : Nat
  deriving DecidableEq, Repr, Inhabited

/-- A marker that has arrived over a Causeway link (11 R340). -/
structure Marker where
  west : Bool
  epoch : BitVec 16
  scyc : BitVec 16
  at_ : Nat
  deriving DecidableEq, Repr, Inhabited

/-- What a package of a chain reports before a chained epoch (11 R338): whether it faces this package's east edge, its position and
the position that the package facing its own east edge reports, the chain's length and ring bit, its partition's shape, the hash
of its code image and its ratio, and whether its job has completed step 4. -/
structure Member where
  east : Bool
  pos : Nat
  faces : Option Nat
  len : Nat
  ring : Bool
  shape : BitVec 4
  hash : Nat
  ratio : BitVec 2
  ready : Bool
  deriving DecidableEq, Repr, Inhabited

/-- A tile (01 R13-R26) and what its engines have under way. `statSet` holds the bits of TSTAT that the hardware has set in the
present tc (01 R25), `stored` the 8-byte words of the Mere that dynamic stores have written in it (07 R224), and `afar` the tc in
which the beats and pairs that the tile has sent over a Causeway are presented (07 R240, 11 R339). -/
structure Tile where
  v : SMap (BitVec 1024)
  acc : SMap (BitVec 1024)
  ma : SMap Word
  mb : SMap Word
  midx : Word
  nf : BitVec 16
  chains : SMap Chain
  named : Bool
  ended : Bool
  pw : SMap (BitVec 32)
  pws : SMap (BitVec 32)
  pwLast : SMap (Option (Nat × Nat))
  wmask : SMap Word
  wctl : SMap Word
  wclose : SMap Nat
  wrg : SMap Word
  stepped : Stepped
  tstat : Word
  statSet : Word
  stored : List Nat
  afar : List Nat
  srec : Word
  superstep : Nat
  counters : SMap Word
  mills : List MillRun
  zeros : List (Nat × Nat)
  drains : List Drain
  vwrites : List VWrite
  vsts : List VstWrite
  beats : List Beat
  present : SMap (Option (Nat × BitVec 1024))
  pairs : List Pair
  fills : List Fill
  bursts : List Burst
  xfers : List Xfer
  tsteps : List TStepRun
  syncs : List SyncRun
  markers : List Marker
  sweepsDone : Nat
  failed : Option (Nat × Nat × Nat)
  rowIdx : SMap (Option Int)
  cerr : Bool
  deriving DecidableEq, Repr, Inhabited

/-- A timed node (11 R325-R329): the cycles it still owes, its total pause, its continuous-hold count (12 R359), and
once the permanent hold has reached it, its stop cycle and its pause total then (12 R349). -/
structure Node where
  owed : Nat
  h : Nat
  cont : Nat
  paused : Bool
  stop : Option (Nat × Nat)
  deriving DecidableEq, Repr, Inhabited

/-- What a frame hold waits for (11 R326, R329). -/
inductive FrameCond where
  | window (t : Nat) (ws : List Nat) | step (t : Nat) (g need : Nat) | marker (t : Nat) (west : Bool) (issue until_ : Nat) | retry (tb : Nat)
  deriving DecidableEq, Repr, Inhabited

/-- A frame hold under way at its origin node: the TIMEBASE cycle of its next test (11 R329). -/
structure Frame where
  node : Nat
  test : Nat
  cond : FrameCond
  deriving DecidableEq, Repr, Inhabited

/-- A hold on its way to a node; no length for the permanent hold of a gang stop (11 R327, 12 R348). -/
structure HoldRun where
  node : Nat
  due : Nat
  len : Option Nat
  deriving DecidableEq, Repr, Inhabited

/-! ## Jobs and the partition -/

/-- Where a gang stop began (12 R352). -/
inductive Origin where
  | tile (t : Nat) | sluice (p : Nat) | causeway (l : Nat) | ctx (c : Nat) | steward | core (c : Nat)
  deriving DecidableEq, Repr, Inhabited

/-- A gang stop in force (12 R348-R352). -/
structure GangStop where
  origin : Origin
  cause : BitVec 8
  detail : BitVec 8
  cause2 : BitVec 8
  aux : Word
  tb : Nat
  deriving DecidableEq, Repr, Inhabited

/-- A packet as read from its queue (13 R369). -/
structure Packet where
  queue : Nat
  num : Nat
  bytes : List Byte
  deriving DecidableEq, Repr, Inhabited

/-- An armed debug trigger (14 R389, R390). -/
structure Trigger where
  kind : Nat
  id : Nat
  value : Nat
  len : Nat
  read : Bool
  write : Bool
  stop : Bool
  deriving DecidableEq, Repr, Inhabited

/-- The debug agent attached to a launch (14 R386-R393): its queue, its triggers, the contexts and tiles whose triggers wait for
a boundary with the trigger's index, the groups asked to stop, the groups whose completion carries a stop with its number of
triggers, zero once it has been reported, and the index of its first, whether a stop is in force and whether in the gang-stop
form, the EVENT packets that wait, and the stops that no EVENT has taken yet. -/
structure Debug where
  queue : Nat
  triggers : List Trigger
  want : List (Bool × Nat × Nat)
  wantGroups : List Nat
  due : List (Nat × Nat × Nat)
  inForce : Bool
  gang : Bool
  events : List Packet
  past : List Word
  deriving DecidableEq, Repr, Inhabited

/-- The trace stream (14 R396). -/
structure Trace where
  on : Bool
  marks : Bool
  breaks : Bool
  watch : Bool
  stops : Bool
  samples : Bool
  wrap : Bool
  csel : BitVec 16
  period : Nat
  buf : Nat
  len : Nat
  head : Nat
  lost : Nat
  told : Nat
  next : Nat
  deriving DecidableEq, Repr, Inhabited

/-- What the advisor of a quarter has counted for a page in its epoch (08 R259): the sector fills that its granary has served, the
quarters that asked for them, and whether a store has reached the page there. -/
structure PageStat where
  fills : Nat
  askers : BitVec 4
  store : Bool
  deriving DecidableEq, Repr, Inhabited

/-- What a job-wide switch swaps (01 R46, 12 R356, R357): the tiles, cores, hamlets and groups, what is on its way
between them, the clocks, the step groups and owned regions of the launch, and the debug agent and trace stream attached to
it (14 R386, R396). `begun` tells that the first dc of the launch has passed. -/
structure Job where
  tiles : SMap Tile
  cores : SMap Core
  hamlets : SMap Hamlet
  groups : SMap Group
  owned : SMap Owned
  marks : List (Nat × Nat)
  turns : SMap Nat
  rcMarks : SMap Nat
  msgs : List Msg
  posts : List Post
  tb : Nat
  phase : Bool
  begun : Bool
  nodes : SMap Node
  holds : List HoldRun
  frames : List Frame
  slots : SMap (List Nat)
  patrol : Nat
  bellLog : List (BitVec 512)
  bellSeq : Nat
  sweep : Option (Nat × Nat × Nat)
  quietFrom : Option Nat
  stop : Option GangStop
  collisions : List (Bool × Nat × Nat × Nat × List Nat)
  pages : SMap PageStat
  taken : SMap Nat
  advEpoch : Nat
  advDrop : SMap Nat
  debug : Option Debug
  trace : Trace
  deriving DecidableEq, Repr, Inhabited

/-- The placement record of a LAUNCH (10 R305). -/
structure Place where
  root : Nat
  quant : Nat
  mbase : Nat
  mlen : Nat
  fbase : Nat
  flen : Nat
  lbase : Nat
  llen : Nat
  advring : Nat
  freeaddr : Nat
  thr : Nat
  fmin : Nat
  qlow : Nat
  replen : Nat
  repva : Nat
  deriving DecidableEq, Repr, Inhabited

/-- The states of a resident job (10 R301). -/
inductive ResState where
  | loading | ready | current | shadow
  deriving DecidableEq, Repr, Inhabited

/-- The launch descriptor (10 R306). -/
structure Desc where
  det : Bool
  ratio : BitVec 2
  prio : BitVec 2
  seed : Word
  arg : Word
  deriving DecidableEq, Repr, Inhabited

/-- One entry of the chain table (02 R48). -/
structure ChainEntry where
  eng : Nat
  first : Nat
  lc0 : BitVec 32
  lc1 : BitVec 32
  frm : Nat
  toId : Nat
  deriving DecidableEq, Repr, Inhabited

/-- A resident job (10 R299-R301): the packet it came from, its placement, its image as captured when it was verified
(02 R60: code lines never change), and, while it is not current, its saved state. -/
structure Resident where
  state : ResState
  queue : Nat
  seq : Nat
  anum : Nat
  prio : Nat
  image : Nat
  place : Place
  arg : Word
  useArg : Bool
  desc : Desc
  code : SMap (BitVec 512)
  codeFirst : Nat
  codeCount : Nat
  nlines : Nat
  chains : List ChainEntry
  words : List (Bool × Nat × Nat × Nat × Word)
  groups : SMap Group
  owned : SMap Owned
  slots : SMap (List Nat)
  layouts : List (Nat × Nat × Nat × BitVec 512)
  hash : Nat
  used : Nat
  quota : Nat
  ran : Bool
  msgs : List (Nat × MEntry)
  saved : Job
  announced : Option Nat
  stepFour : Bool
  deriving DecidableEq, Repr, Inhabited

/-- A completion record (13 R371-R372), kept until the host has seen it. -/
structure Completion where
  cseq : Nat
  bytes : List Byte
  deriving DecidableEq, Repr, Inhabited

/-- A host queue (13 R368-R371). -/
structure Queue where
  base : Word
  size : Word
  tail : Word
  nextSeq : Word
  head : Nat
  gap : Bool
  pending : List Packet
  accepted : SMap Nat
  deriving DecidableEq, Repr, Inhabited

/-- What the SPDM responder of a function can do (13 R379). -/
inductive SpdmCap where
  | cert | chal | measSig | keyEx | mutAuth | encrypt | mac | hbeat | keyUpd | chunk
  deriving DecidableEq, Repr, Inhabited

/-- An answer of the SPDM responder (13 R379): `data` holds bytes that the answer carries, all or the next chunk of them. -/
inductive SpdmAns where
  | error | version (v : Nat) | capabilities (l : List SpdmCap) | algorithms (a : SpdmAlgs) | data (l : List Byte) | done
  deriving DecidableEq, Repr, Inhabited

/-- The SPDM responder of a function (13 R379): the longest answer that the requester takes at once, zero before it has said so;
the secured session, with the public-key hash of a requester that has authenticated itself in it; the key updates of the
session; and the rest of an answer that travels in chunks. -/
structure Spdm where
  xfer : Nat
  session : Option (Option (BitVec 256))
  updates : Nat
  rest : List Byte
  deriving DecidableEq, Repr, Inhabited

/-- A granted host window (13 R367), in force once the completion record of that number has been written (13 R380). -/
structure Grant where
  base : Nat
  len : Nat
  read : Bool
  write : Bool
  after : Nat
  deriving DecidableEq, Repr, Inhabited

/-- A QUIESCE under way (13 R375): its packet, the dc of its limit, FORCE, and whether it is ending the resident jobs. -/
structure Quiesce where
  pkt : Packet
  limit : Nat
  force : Bool
  aborting : Bool
  deriving DecidableEq, Repr, Inhabited

/-- A checkpoint under way (13 R385). -/
structure Ckpt where
  pkt : Packet
  save : Bool
  bytes : Nat
  deriving DecidableEq, Repr, Inhabited

/-- A stage of a job-wide switch (12 R356). -/
inductive SwitchStage where
  | stop | drain | swap
  deriving DecidableEq, Repr, Inhabited

/-- A job-wide switch under way: its stage, the incoming slot, and the tc spent in the stage (12 R356, R359). -/
structure Switch where
  stage : SwitchStage
  toId : Option Nat
  since : Nat
  deriving DecidableEq, Repr, Inhabited

/-- An Ultra Ethernet port (13 R382-R384): its rings by kind with job slot and address, its peers, its memory regions with
rights, job slot, base and length, the work item in progress, and the acceptance numbers of the jobs for which it has
stopped. -/
structure Port where
  rings : SMap (Option (Nat × Nat))
  peers : SMap (Option (List Byte))
  regions : SMap (Option (Nat × Nat × Nat × Nat))
  work : Option (List Byte)
  stopped : List Nat
  deriving DecidableEq, Repr, Inhabited

/-- A checkpoint stream as the safe tier holds it (13 R385): its label and offset, the partition key that authenticates it,
the partition's HBM, its shares, and its resident jobs with their saved states. -/
structure Stored where
  label : Nat
  il : BitVec 16
  rbase : Nat
  key : Nat
  hbm : Mem
  mere : Mem
  loft : Mem
  loc : Mem
  res : SMap (Option Resident)
  bytes : Nat
  deriving DecidableEq, Repr, Inhabited

/-- A hard partition: its words (01 R39), its memories, its TLBs by number and the table pointers of each hamlet, which hold the
entries of the current and of the shadow job side by side (08 R254), its jobs and its host port (10, 12, 13, 14), and what the
other packages of its chain have reported for the job that waits for its epoch (11 R338). `redo` is ASEQ as a partition reset
has met it: what had been accepted by then is taken in its acceptance order (13 R370). -/
structure Part where
  qmask : BitVec 4
  il : BitVec 16
  bound : BitVec 4
  det : Bool
  seed : Word
  ratio : BitVec 2
  chain : BitVec 7
  segs : SMap Word
  mere : Mem
  loft : Mem
  loc : Mem
  poison : List Nat
  granaryErr : List Nat
  tlbs : SMap (List TlbEnt)
  ptrs : SMap (List PtrEnt)
  job : Job
  left : SMap Tile
  cur : Option Nat
  res : SMap (Option Resident)
  bankValid : SMap Bool
  switch : Option Switch
  key : Nat
  queues : SMap Queue
  statbase : Word
  hseen : Word
  aseq : Word
  cseq : Word
  replay : Word
  held : List Completion
  quiesced : Bool
  herr : Bool
  jlost : Bool
  quiesce : Option Quiesce
  ckpt : Option Ckpt
  restoreOk : Bool
  streams : List Stored
  grants : SMap (Option Grant)
  owner : Option (BitVec 256)
  debugOk : BitVec 4
  spdm : Spdm
  ide : Option Nat
  uports : SMap Port
  tdi : Tdi
  trapEntry : BitVec 29
  members : List Member
  redo : Nat
  deriving DecidableEq, Repr, Inhabited

/-! ## The package -/

/-- Who acts in this step: partition, core, context, tile, timed engine, and the host queue of a packet (log 1). -/
structure Focus where
  part : Nat
  core : Nat
  ctx : Nat
  tile : Nat
  eng : Eng
  queue : Nat
  deriving DecidableEq, Repr

/-- A bit error that the world inflicts (08 R261): which memory, where, and whether the code corrects it. -/
structure Upset where
  mem : BitVec 8
  addr : Nat
  correctable : Bool
  deriving DecidableEq, Repr, Inhabited

/-- What happens next (log 1): a step of the table by an actor, the issue of a context or of a timed chain, one dc of a core, a
bit error, the host's writing of its own memory, the steward's writing of a control word on a core (01 R41), the report of
another package of a chain (11 R338), the landing at a tile of the dynamic stores that a window has admitted, in the tc in which
one closes (04 R136, 07 R224), a read of BAR0 or of a function's configuration (13 R365, R368), the steward's loading of
a firmware image and the fusing of a version (13 R381), a SECMSG whose message fails its session's MAC (13 R380), the training
of the host link after a host-port reset (13 R365, 18 R443), or the passing of one dc. -/
inductive Mover where
  | op (f : Focus) (i : Instr)
  | ctx (p c k : Nat)
  | chain (p t : Nat) (e : Eng)
  | core (p c : Nat)
  | upset (p : Nat) (u : Upset)
  | hostWrite (addr : Nat) (data : List Byte)
  | steward (p c cw tile : Nat) (v : Word)
  | member (p : Nat) (m : Member)
  | lands (p t : Nat)
  | bar0Read (p off : Nat)
  | configRead (p : Nat)
  | firmware (p : Nat) (signed : Bool) (version : Nat) (entry : BitVec 29)
  | fuse (version : Nat)
  | badMessage (p : Nat)
  | train (flit : Bool)
  | tick
  deriving DecidableEq, Repr

/-- What leaves the package over a Causeway link, an Ethernet port or the management path. -/
inductive LinkOut where
  | beat (west : Bool) (row : Nat) (data : BitVec 1024) (land : Option Landing) (due : Nat)
  | pair (west : Bool) (row : Nat) (slot word : BitVec 32) (dst writer due : Nat)
  | marker (west : Bool) (row : Nat) (epoch scyc : BitVec 16) (depart : Nat)
  | hold (west : Bool) (row : Nat) (len : Option Nat)
  | announce (tb : Nat)
  | member (m : Member)
  | left
  | net (port : Nat) (data : List Byte)
  | spdm (a : SpdmAns)
  | bar0 (v : Option Word)
  | config (identity : Nat) (tdi : Tdi)
  | bar2 (data : Option (List Byte))
  deriving DecidableEq, Repr

/-- What the steward reserve keeps of a partition that a RESHAPE has ended (08 R243, 13 R370, 17 R438): its number, its acceptance
journal, which is the acceptance numbers of each queue's packets by SEQ and the completion records, and its Bell log. -/
structure Reserve where
  part : Nat
  accepted : SMap (SMap Nat)
  held : List Completion
  bells : List (BitVec 512)
  deriving DecidableEq, Repr, Inhabited

/-- One K4 package. `link` tells that the host link is up, and `fused` is the fused security version (13 R381). -/
structure State where
  link : Bool
  fused : Nat
  layout : Nat
  stage : Nat
  bootErr : BitVec 8
  qok : BitVec 4
  stkok : BitVec 16
  powered : Bool
  hbm : Mem
  dirty : SMap (Option (BitVec 512))
  host : Mem
  far : SMap (Option (BitVec 512))
  reserve : List Reserve
  parts : SMap Part
  agenda : List Mover
  focus : Focus
  free : Nat
  clock : Nat
  out : List LinkOut
  deriving DecidableEq, Repr

/-- A host queue at reset: every register zero and NEXTSEQ 1 (13 R368). -/
def Queue.reset : Queue := { (default : Queue) with nextSeq := 1#64, head := 1 }

/-- The partition made of quarter `q` alone at power-on (01 R39): its own four stacks, every other word zero. -/
def Part.quarter (q : Nat) : Part :=
  { (default : Part) with
    qmask := BitVec.ofNat 4 (2 ^ q)
    il := BitVec.ofNat 16 (15 * 16 ^ q)
    queues := [(0, Queue.reset), (1, Queue.reset), (2, Queue.reset), (3, Queue.reset), (4, Queue.reset)] }

/-- The package after a cold reset (01 R44, 18 R443): layout 0, four quarter partitions, boot stage 0 not yet begun,
nothing listed in any memory, every register zero but those that a reset value is given for. -/
def State.reset : State :=
  { link := false
    fused := 0
    layout := 0
    stage := 0
    bootErr := 0#8
    qok := 0#4
    stkok := 0#16
    powered := true
    hbm := []
    dirty := []
    host := []
    far := []
    reserve := []
    parts := [(0, Part.quarter 0), (1, Part.quarter 1), (2, Part.quarter 2), (3, Part.quarter 3)]
    agenda := []
    focus := { part := 0, core := 0, ctx := 0, tile := 0, eng := .mill, queue := 0 }
    free := 0
    clock := 0
    out := [] }

end Sys2Proof.Machine
end

