-- ==== Sys2Proof/Machine/Lens.lean ====
section
/-!
DEFINITION. Reading and changing one component of the state: the partition, core, context and tile in focus, and any
other by its number. Every meaning goes through these.
-/

namespace Sys2Proof.Machine

/-- The map with the entry at `k` changed by `f`; the entry is kept even where it becomes the default. -/
def upd {α : Type} [Inhabited α] (m : SMap α) (k : Nat) (f : α → α) : SMap α := SMap.insert m k (f (SMap.get m k))

/-! ### Partitions -/

/-- Partition `p`. -/
def State.part (s : State) (p : Nat) : Part := SMap.get s.parts p
/-- The state with partition `p` changed. -/
def State.onPart (s : State) (p : Nat) (f : Part → Part) : State := { s with parts := upd s.parts p f }
/-- The partition in focus. -/
def State.pt (s : State) : Part := s.part s.focus.part
/-- The state with the partition in focus changed. -/
def State.onPt (s : State) (f : Part → Part) : State := s.onPart s.focus.part f

/-- The partition with its current job changed. -/
def Part.onJob (p : Part) (f : Job → Job) : Part := { p with job := f p.job }
/-- The current job of the partition in focus. -/
def State.job (s : State) : Job := s.pt.job
/-- The state with the current job of the partition in focus changed. -/
def State.onJob (s : State) (f : Job → Job) : State := s.onPt fun p => p.onJob f

/-! ### Cores and contexts -/

/-- Core `c` of a job. -/
def Job.core (j : Job) (c : Nat) : Core := SMap.get j.cores c
/-- The job with core `c` changed. -/
def Job.onCore (j : Job) (c : Nat) (f : Core → Core) : Job := { j with cores := upd j.cores c f }
/-- Context `k` of a core. -/
def Core.ctx (c : Core) (k : Nat) : Ctx := SMap.get c.ctxs k
/-- The core with context `k` changed. -/
def Core.onCtx (c : Core) (k : Nat) (f : Ctx → Ctx) : Core := { c with ctxs := upd c.ctxs k f }
/-- Core `c` of the job in focus. -/
def State.coreAt (s : State) (c : Nat) : Core := s.job.core c
/-- The state with core `c` of the job in focus changed. -/
def State.onCoreAt (s : State) (c : Nat) (f : Core → Core) : State := s.onJob fun j => j.onCore c f
/-- The core in focus. -/
def State.cr (s : State) : Core := s.coreAt s.focus.core
/-- The state with the core in focus changed. -/
def State.onCr (s : State) (f : Core → Core) : State := s.onCoreAt s.focus.core f
/-- Context `k` of core `c` of the job in focus. -/
def State.ctxAt (s : State) (c k : Nat) : Ctx := (s.coreAt c).ctx k
/-- The state with context `k` of core `c` changed. -/
def State.onCtxAt (s : State) (c k : Nat) (f : Ctx → Ctx) : State := s.onCoreAt c fun x => x.onCtx k f
/-- The context in focus. -/
def State.cx (s : State) : Ctx := s.ctxAt s.focus.core s.focus.ctx
/-- The state with the context in focus changed. -/
def State.onCx (s : State) (f : Ctx → Ctx) : State := s.onCtxAt s.focus.core s.focus.ctx f

/-! ### Hamlets, groups, tiles, nodes -/

/-- The hamlet that holds core `c` (01 R12). -/
def hamletOf (c : Nat) : Nat := c / 8
/-- Hamlet `h` of a job. -/
def Job.hamlet (j : Job) (h : Nat) : Hamlet := SMap.get j.hamlets h
/-- The job with hamlet `h` changed. -/
def Job.onHamlet (j : Job) (h : Nat) (f : Hamlet → Hamlet) : Job := { j with hamlets := upd j.hamlets h f }
/-- The hamlet of the core in focus. -/
def State.hm (s : State) : Hamlet := s.job.hamlet (hamletOf s.focus.core)
/-- The state with the hamlet of the core in focus changed. -/
def State.onHm (s : State) (f : Hamlet → Hamlet) : State := s.onJob fun j => j.onHamlet (hamletOf s.focus.core) f
/-- Step group `g` of a job. -/
def Job.group (j : Job) (g : Nat) : Group := SMap.get j.groups g
/-- The job with step group `g` changed. -/
def Job.onGroup (j : Job) (g : Nat) (f : Group → Group) : Job := { j with groups := upd j.groups g f }
/-- Tile `t` of a job. -/
def Job.tile (j : Job) (t : Nat) : Tile := SMap.get j.tiles t
/-- The job with tile `t` changed. -/
def Job.onTile (j : Job) (t : Nat) (f : Tile → Tile) : Job := { j with tiles := upd j.tiles t f }
/-- Tile `t` of the job in focus. -/
def State.tileAt (s : State) (t : Nat) : Tile := s.job.tile t
/-- The state with tile `t` of the job in focus changed. -/
def State.onTileAt (s : State) (t : Nat) (f : Tile → Tile) : State := s.onJob fun j => j.onTile t f
/-- The tile in focus. -/
def State.tl (s : State) : Tile := s.tileAt s.focus.tile
/-- The state with the tile in focus changed. -/
def State.onTl (s : State) (f : Tile → Tile) : State := s.onTileAt s.focus.tile f
/-- The timed node `n` of a job. -/
def Job.node (j : Job) (n : Nat) : Node := SMap.get j.nodes n
/-- The job with node `n` changed. -/
def Job.onNode (j : Job) (n : Nat) (f : Node → Node) : Job := { j with nodes := upd j.nodes n f }

/-- The node number of a Sluice controller (11 R325). -/
def sluiceNode (p : Nat) : Nat := 1000 + p
/-- The node number of a Causeway end: edge 0 west, 1 east, links 0 to 7 (11 R325, 12 R352). -/
def causewayNode (edge link : Nat) : Nat := 3000 + edge * 8 + link

/-- SCYC of a node: TIMEBASE less its pauses (11 R325). -/
def Job.scyc (j : Job) (n : Nat) : Nat := j.tb - (j.node n).h

/-! ### The partition's shape (01 R11, R12) -/

/-- The quarters of a partition, in the order of their logical ranks. -/
def Part.quarters (p : Part) : List Nat := (List.range 4).filter fun q => p.qmask.getLsbD q
/-- The width of a partition in tiles. -/
def Part.width (p : Part) : Nat :=
  if (p.qmask.getLsbD 0 && p.qmask.getLsbD 1) || (p.qmask.getLsbD 2 && p.qmask.getLsbD 3) then 24 else 12
/-- The height of a partition in tiles. -/
def Part.height (p : Part) : Nat :=
  if (p.qmask.getLsbD 0 && p.qmask.getLsbD 2) || (p.qmask.getLsbD 1 && p.qmask.getLsbD 3) then 16 else 8
/-- The number of tiles. -/
def Part.tileCount (p : Part) : Nat := 96 * p.quarters.length
/-- The number of cores. -/
def Part.coreCount (p : Part) : Nat := 48 * p.quarters.length
/-- The number of hamlets. -/
def Part.hamletCount (p : Part) : Nat := 6 * p.quarters.length
/-- Logical coordinates of a tile. -/
def Part.tileX (p : Part) (t : Nat) : Nat := t % p.width
def Part.tileY (p : Part) (t : Nat) : Nat := t / p.width
/-- The package coordinates of the partition's top-left tile (01 R11). -/
def Part.originX (p : Part) : Nat := if p.qmask.getLsbD 0 || p.qmask.getLsbD 2 then 0 else 12
def Part.originY (p : Part) : Nat := if p.qmask.getLsbD 0 || p.qmask.getLsbD 1 then 0 else 8
/-- Package coordinates of a tile. -/
def Part.pkgX (p : Part) (t : Nat) : Nat := p.originX + p.tileX t
def Part.pkgY (p : Part) (t : Nat) : Nat := p.originY + p.tileY t
/-- The quarter that a tile lies in. -/
def Part.tileQuarter (p : Part) (t : Nat) : Nat := (p.pkgX t / 12) + 2 * (p.pkgY t / 8)
/-- The global context number of context `k` of core `c` (01 R12). -/
def gctx (c k : Nat) : Nat := 11 * c + k
/-- The writer id of a context (01 R12). -/
def ctxWriter (c k : Nat) : Nat := 1024 + gctx c k
/-- The physical number of the `q`-th ranked quarter's `i`-th thing, with `n` of them per quarter. -/
def Part.physical (p : Part) (n i : Nat) : Nat := n * ((p.quarters[i / n]?).getD 0) + i % n

/-- The global context number of the context in focus. -/
def State.me (s : State) : Nat := gctx s.focus.core s.focus.ctx
/-- The writer id of the context in focus. -/
def State.writer (s : State) : Nat := ctxWriter s.focus.core s.focus.ctx

/-- The resident job that is current, when there is one. -/
def Part.current (p : Part) : Option Resident := p.cur.bind fun k => SMap.get p.res k
/-- The residency slot's record changed. -/
def Part.onRes (p : Part) (k : Nat) (f : Resident → Resident) : Part :=
  { p with res := upd p.res k fun r => r.map f }
/-- The placement of the current job; all zero when none is current. -/
def Part.place (p : Part) : Place := (p.current.map Resident.place).getD default

/-! ### TLBs (08 R254) -/

/-- The TLBs of a partition by number: 2c and 2c + 1 are the I-TLB and D-TLB of core c, then one for each hamlet. -/
def Part.tlbCount (p : Part) : Nat := 2 * p.coreCount + p.hamletCount
/-- The numbers of a core's I-TLB (for a fetch) or D-TLB, and of a hamlet's L2 TLB. -/
def coreTlb (c : Nat) (fetch : Bool) : Nat := if fetch then 2 * c else 2 * c + 1
def Part.hamletTlb (p : Part) (h : Nat) : Nat := 2 * p.coreCount + h
/-- TLB `n` of a partition, and the table pointers that hamlet `h` holds. -/
def Part.tlb (p : Part) (n : Nat) : List TlbEnt := SMap.get p.tlbs n
def Part.ptrsOf (p : Part) (h : Nat) : List PtrEnt := SMap.get p.ptrs h
/-- The partition with TLB `n` changed, and with the table pointers of hamlet `h` changed. -/
def Part.onTlb (n : Nat) (f : List TlbEnt → List TlbEnt) (p : Part) : Part := { p with tlbs := SMap.set p.tlbs n (f (p.tlb n)) }
def Part.onPtrs (h : Nat) (f : List PtrEnt → List PtrEnt) (p : Part) : Part := { p with ptrs := SMap.set p.ptrs h (f (p.ptrsOf h)) }
/-- The entries of a residency slot leave every TLB and every cache of table pointers. -/
def Part.tlbForget (k : Nat) (p : Part) : Part :=
  { p with
    tlbs := p.tlbs.map fun x => (x.1, x.2.filter fun e => e.slot != k)
    ptrs := p.ptrs.map fun x => (x.1, x.2.filter fun e => e.slot != k) }

/-- A residency slot is vacated: its job's residency ends, and with it its TLB entries and its register bank. -/
def Part.vacate (k : Nat) (p : Part) : Part :=
  Part.tlbForget k { p with res := SMap.set p.res k none, bankValid := SMap.set p.bankValid k false }

/-! ### Performance counters (14 R398) -/

/-- A tile's counter raised by n. -/
def Tile.bump (k n : Nat) (t : Tile) : Tile :=
  { t with counters := SMap.set t.counters k (SMap.get t.counters k + BitVec.ofNat 64 n) }
/-- A core's counter raised by n. -/
def Core.bump (k n : Nat) (c : Core) : Core :=
  { c with counters := SMap.set c.counters k (SMap.get c.counters k + BitVec.ofNat 64 n) }

/-- A number of the free sequence is drawn. -/
def State.draw (s : State) : State := { s with free := s.free + 1 }
/-- The next free truth value. -/
def State.coin (s : State) : Bool := Config.freeBool s.free

end Sys2Proof.Machine
end

