-- ==== Sys2Proof/Machine/Code.lean ====
section
/-!
DEFINITION. Code lines as the engines read them (02 R52, R53), the successor of a slot on the dynamic plane (R58), and
the walk of a timed chain from one instruction to the next (R54, R56, 01 R19).
-/

namespace Sys2Proof.Machine

/-- A 64-byte code line, byte 0 in bits 7:0. -/
abbrev Line := BitVec 512

/-- ENG of a line (02 R52). -/
def Line.eng (l : Line) : Nat := (l.extractLsb' 28 4).toNat
/-- NK of a line. -/
def Line.nk (l : Line) : Nat := (l.extractLsb' 26 2).toNat
/-- NEXT of a line. -/
def Line.next (l : Line) : Nat := (l.extractLsb' 0 26).toNat
/-- GAP of a line. -/
def Line.gap (l : Line) : Nat := (l.extractLsb' 48 16).toNat
/-- VALID of a line. -/
def Line.valid (l : Line) : BitVec 7 := l.extractLsb' 32 7
/-- Bits 15:7 of the line header, which must be zero. -/
def Line.reserved (l : Line) : BitVec 9 := l.extractLsb' 39 9
/-- The word in slot `s` (02 R53). -/
def Line.word (l : Line) (s : Nat) : Word := l.extractLsb' (64 + 64 * s) 64

/-- The lowest valid slot at or above `s`, when there is one. -/
def Line.slotFrom (l : Line) (s : Nat) : Option Nat :=
  (List.range 7).find? fun i => decide (s ≤ i) && l.valid.getLsbD i

/-- The line `l` of the current image, when it lies in the code range. -/
def Resident.line (r : Resident) (l : Nat) : Option Line :=
  if r.codeFirst ≤ l ∧ l < r.codeFirst + r.codeCount then some (SMap.get r.code l) else none

/-- The line `l` of the current job's image, when it lies in the code range. -/
def Part.line (p : Part) (l : Nat) : Option Line := p.current.bind fun r => r.line l

/-- A program counter's line and slot (01 R27). -/
def pcLine (pc : BitVec 29) : Nat := (pc.extractLsb' 3 26).toNat
def pcSlot (pc : BitVec 29) : Nat := (pc.extractLsb' 0 3).toNat
/-- The program counter of a line and a slot. -/
def pcOf (line slot : Nat) : BitVec 29 := BitVec.ofNat 29 (line * 8 + slot)

/-- The checks that a context makes when it enters a line (02 R58): engine 0, no GAP, no reserved header bit, NK 00 or
01, and a line of the code range. -/
def lineOk (l : Option Line) : Bool :=
  match l with
  | none => false
  | some x => x.eng == 0 && x.gap == 0 && x.reserved == 0#9 && decide (x.nk ≤ 1)

/-- The successor found on entering line `l` (02 R58): its first valid slot; slot 7 of a line that fails its check, that
ends the chain, or that is the 65th in a row without a valid slot. `fuel` counts the lines without a valid slot that may
still be passed. -/
def enterLine (p : Part) : Nat → Nat → BitVec 29
  | 0, l =>
    match p.line l with
    | some x => if lineOk (some x) then ((x.slotFrom 0).map (pcOf l)).getD (pcOf l 7) else pcOf l 7
    | none => pcOf l 7
  | fuel + 1, l =>
    match p.line l with
    | none => pcOf l 7
    | some x =>
      if lineOk (some x) then
        match x.slotFrom 0 with
        | some sl => pcOf l sl
        | none => if x.nk = 0 then enterLine p fuel x.next else pcOf l 7
      else pcOf l 7

/-- The sequential successor of an instruction (02 R58, 05 R152). -/
def succ (p : Part) (pc : BitVec 29) : BitVec 29 :=
  match p.line (pcLine pc) with
  | none => pcOf (pcLine pc) 7
  | some x =>
    match x.slotFrom (pcSlot pc + 1) with
    | some sl => pcOf (pcLine pc) sl
    | none => if x.nk = 0 then enterLine p 64 x.next else pcOf (pcLine pc) 7

/-- Whether the context may issue at its program counter: the line passes its check and the slot is valid (02 R58,
R59). -/
def pcOk (p : Part) (c : Ctx) : Bool :=
  !c.pcBad &&
    match p.line (pcLine c.pc) with
    | none => false
    | some x => lineOk (some x) && decide (pcSlot c.pc < 7) && x.valid.getLsbD (pcSlot c.pc)

/-! ### Timed chains -/

/-- The engine number of a timed engine (02 R52). -/
def engNum : Eng → Nat
  | .mill => 1
  | .vec => 2
  | .strm => 3
  | .reeve => 4

/-- CNT of a counter word (01 R19). -/
def cntOf (w : BitVec 32) : BitVec 16 := w.extractLsb' 0 16
/-- RLD of a counter word. -/
def rldOf (w : BitVec 32) : BitVec 16 := w.extractLsb' 16 16
/-- A counter word of RLD and CNT. -/
def lcOf (rld cnt : BitVec 16) : BitVec 32 := rld ++ cnt

/-- The counter step of a loop link word (01 R19): whether the loop is taken, and the new word. -/
def loopStep (w : BitVec 32) : Bool × BitVec 32 :=
  if 1 < (cntOf w).toNat then (true, lcOf (rldOf w) (cntOf w - 1#16)) else (false, lcOf (rldOf w) (rldOf w))

/-- The next instruction of a timed chain after the slots of line `l` are used up (02 R54, R56): link words are read,
counters step, and every line entered adds its GAP to `due`. The chain ends at NK 01, in the cycle of its last issue, since link
words are read at once and a GAP or a TWAIT delays an issue alone (DESIGN CHOICE, log 108), at a line outside the code range,
and when `fuel` lines without a valid slot have been passed (01 R19). -/
def chainLink (line : Nat → Option Line) : Nat → Chain → Chain
  | 0, c => { c with live := false }
  | fuel + 1, c =>
    match line c.line with
    | none => { c with live := false }
    | some x =>
      let go (c : Chain) (l : Nat) : Chain :=
        match line l with
        | none => { c with live := false }
        | some y =>
          let c := { c with line := l, due := c.due + y.gap }
          match y.slotFrom 0 with
          | some sl => { c with slot := sl }
          | none => chainLink line fuel c
      match x.nk with
      | 0 => go c x.next
      | 1 => { c with live := false }
      | 2 => let r := loopStep c.lc0; go { c with lc0 := r.2 } (if r.1 then x.next else c.line + 1)
      | _ => let r := loopStep c.lc1; go { c with lc1 := r.2 } (if r.1 then x.next else c.line + 1)

/-- How many lines without a valid slot a chain may pass between two instructions: above 2,048 lines times all counts of
its two counters, so a chain that passes more would never end, and the verifier refuses it (01 R19). -/
def chainFuel : Nat := 17592186044416

/-- DLY of the word at a chain's position. -/
def chainDly (line : Nat → Option Line) (c : Chain) : Nat :=
  match line c.line with
  | some x => (wordDly (x.word c.slot)).toNat
  | none => 0

/-- The chain after its instruction has issued, with `wait` the count of a TWAIT (02 R56). `due` is the issue cycle of
the instruction it then stands at. -/
def chainAdvance (line : Nat → Option Line) (wait : Nat) (c : Chain) : Chain :=
  let c := { c with due := c.due + wait }
  let c :=
    match line c.line with
    | none => { c with live := false }
    | some x =>
      match x.slotFrom (c.slot + 1) with
      | some sl => { c with slot := sl }
      | none => chainLink line chainFuel c
  if c.live then { c with due := c.due + chainDly line c } else c

/-- A chain entering its first line (02 R54, R56). -/
def chainStart (line : Nat → Option Line) (first : Nat) (lc0 lc1 : BitVec 32) : Chain :=
  let c : Chain := { line := first, slot := 0, lc0 := lc0, lc1 := lc1, live := true, due := 0 }
  let c :=
    match line first with
    | none => { c with live := false }
    | some x =>
      let c := { c with due := x.gap }
      match x.slotFrom 0 with
      | some sl => { c with slot := sl }
      | none => chainLink line chainFuel c
  if c.live then { c with due := c.due + chainDly line c } else c

end Sys2Proof.Machine
end

