-- ==== Sys2Proof/Machine/Flags.lean ====
section
/-!
DEFINITION. The conditions and relations that compare instructions test (02 R64; 04 R120, R121, R126, R130; 05 R152;
07 R213, R236), and the sticky status bits of a tile (01 R25).
-/

namespace Sys2Proof.Machine

/-- A condition code on two words (02 R64): ZERO and NONZERO test the first alone. -/
def Cond.holds (c : Cond) (a b : Word) : Bool :=
  match c with
  | .eq => a == b
  | .ne => a != b
  | .lt => a.slt b
  | .ge => !a.slt b
  | .ltu => a.ult b
  | .geu => !a.ult b
  | .zero => a == 0#64
  | .nonzero => a != 0#64

/-- The word that a compare writes: 1 when the condition holds, else 0. -/
def boolWord (b : Bool) : Word := if b then 1#64 else 0#64

/-- A condition on two INT32 lanes (04 R130). -/
def Cond.holds32 (c : Cond) (a b : BitVec 32) : Bool :=
  match c with
  | .eq => a == b
  | .ne => a != b
  | .lt => a.slt b
  | .ge => !a.slt b
  | .ltu => a.ult b
  | .geu => !a.ult b
  | .zero => a == 0#32
  | .nonzero => a != 0#32

/-- The relation of NFSET on exact integers (07 R236). -/
def NfRel.holds (r : NfRel) (x y : Int) : Bool :=
  match r with
  | .eq => decide (x = y)
  | .ne => decide (x ≠ y)
  | .ltu => decide (x < y)
  | .geu => decide (y ≤ x)
  | .leu => decide (x ≤ y)
  | .gtu => decide (y < x)
  | .always => true

/-- TSTAT bit numbers (01 R25). -/
def grpErr : Nat := 0
def grpEnd : Nat := 1
def wConf : Nat := 2
def boundBit : Nat := 3

/-- A sticky bit of TSTAT set when `b` holds (01 R25): it stays set over a write that clears it in the same tc. -/
def setStat (n : Nat) (b : Bool) (t : Tile) : Tile :=
  let m := BitVec.ofNat 64 (2 ^ n)
  if b then { t with tstat := t.tstat ||| m, statSet := t.statSet ||| m } else t

/-- CECNT of TSTAT counts one correctable error, saturating at 255 (01 R25, 08 R262). -/
def bumpCecnt (t : Tile) : Tile :=
  if (t.tstat.extractLsb' 8 8) = 255#8 then t
  else { t with tstat := t.tstat + 256#64, statSet := t.statSet ||| ((t.tstat + 256#64) &&& ~~~t.tstat) }

end Sys2Proof.Machine
end

