-- ==== Sys2Proof/Machine/Ops.lean ====
section
/-!
DEFINITION. The operations that every family shares: completing and parking an instruction, the gang stop, taking a
trap, an upcall or the service path, and returning from a handler (02 R68; 05 R151, R172, R179, R180; 12 R341-R348);
mailboxes and messages (01 R32; 05 R156-R160; 12 R355).
-/

namespace Sys2Proof.Machine

/-- The outcome of every meaning. -/
abbrev Out := Host.Outcome State Fault Refusal

/-! ## Registers -/

/-- G[r] without regard to stream mode: G0 reads zero (01 R27). -/
def Ctx.rg (c : Ctx) (r : BitVec 6) : Word := if r = 0#6 then 0#64 else SMap.get c.g r.toNat
/-- D[r] without regard to stream mode. -/
def Ctx.rd (c : Ctx) (r : BitVec 5) : BitVec 512 := SMap.get c.d r.toNat

/-- The stream index of a G register: G48 to G55 are 0 to 7 (01 R29). -/
def gStream (r : BitVec 6) : Option Nat := if 48 ≤ r.toNat ∧ r.toNat < 56 then some (r.toNat - 48) else none
/-- The stream index of a D register: D24 to D31 are 8 to 15 (01 R29). -/
def dStream (r : BitVec 5) : Option Nat := if 24 ≤ r.toNat then some (r.toNat - 16) else none
/-- Whether the register with stream index `x` is in stream mode. -/
def Ctx.active (c : Ctx) (x : Option Nat) : Bool :=
  match x with
  | some i => c.strmAct.getLsbD i
  | none => false

/-- A write of G[r]: discarded for G0 (01 R27) and for a register in stream mode (05 R167). -/
def Ctx.wg (c : Ctx) (r : BitVec 6) (v : Word) : Ctx :=
  if r = 0#6 ∨ c.active (gStream r) = true then c else { c with g := SMap.set c.g r.toNat v }
/-- A write of D[r]: discarded for a register in stream mode (05 R167). -/
def Ctx.wd (c : Ctx) (r : BitVec 5) (v : BitVec 512) : Ctx :=
  if c.active (dStream r) = true then c else { c with d := SMap.set c.d r.toNat v }

/-! ## Completing and parking -/

/-- The context goes on at its sequential successor (02 R58). -/
def Ctx.advance (p : Part) (c : Ctx) : Ctx := { c with pc := succ p c.pc, undo := none }

/-- The instruction of the context in focus has completed: it stands at the successor. -/
def State.advance (s : State) : State := s.onCx (Ctx.advance s.pt)

/-- A context becomes ready (10 R314), without leaving an upcall handler's INUPC. -/
def Ctx.wake (c : Ctx) : Ctx :=
  if c.state = .halted then { c with wait := .debug } else { c with state := .ready, wait := .none }

/-- The core is left by its running context (10 R314, R315): a switch cycle follows. -/
def Core.release (k : Nat) (c : Core) : Core :=
  if c.running = some k then { c with running := none, last := k, switching := true, count := 0 } else c

/-- The turn of the context in focus on its core ends (10 R314). -/
def State.endTurn (s : State) : State := s.onCr (Core.release s.focus.ctx)

/-- The context in focus gives up the core in STATE 3 and waits (05 R150, 10 R314). -/
def State.park (w : Wait) (s : State) : State :=
  s.onCr fun c => (c.release s.focus.ctx).onCtx s.focus.ctx fun x => { x with state := .parked, wait := w }

/-- The pops of an instruction that will issue again are taken back (02 R68: a fault changes nothing). -/
def Ctx.rollback (c : Ctx) : Ctx :=
  match c.undo with
  | some (st, e) => { c with strms := st, strmEnd := e, undo := none }
  | none => c

/-- The context in focus waits and issues the same instruction again (05 R150, R167). -/
def State.again (w : Wait) (s : State) : State := (s.onCx Ctx.rollback).park w

/-- The pending instruction of the context in focus completes: it is ready at the successor (10 R314). -/
def State.complete (s : State) : State := s.onCx fun c => (c.advance s.pt).wake

/-- The instruction of the context in focus completes with G[d] written. -/
def State.retire (s : State) (d : BitVec 6) (v : Word) : State := s.onCx fun c => (c.wg d v).advance s.pt

/-- A branch: the context goes on at `pc` (05 R152). -/
def State.jump (s : State) (pc : BitVec 29) : State := s.onCx fun c => { c with pc := pc, pcBad := false, undo := none }

/-- A branch to the target in a register (02 R59): bits 28:0, and the mark of nonzero bits 63:29. -/
def State.jumpReg (s : State) (t : Word) : State :=
  s.onCx fun c => { c with pc := t.extractLsb' 0 29, pcBad := t.extractLsb' 29 35 != 0#35, undo := none }

/-! ## Gang stop -/

/-- The quarters' side-by-side link between two adjacent quarters, by its bit of PART.BOUND (01 R39). -/
def boundBitOf (q r : Nat) : Option Nat :=
  match q, r with
  | 0, 1 | 1, 0 => some 0
  | 2, 3 | 3, 2 => some 1
  | 0, 2 | 2, 0 => some 2
  | 1, 3 | 3, 1 => some 3
  | _, _ => none

/-- Whether the die-to-die link between two quarters is open to the partition. -/
def Part.linkOpen (p : Part) (q r : Nat) : Bool :=
  match boundBitOf q r with
  | some b => p.bound.getLsbD b && p.qmask.getLsbD q && p.qmask.getLsbD r
  | none => false

/-- The distance of two whole numbers. -/
def absDiff (a b : Nat) : Nat := if a ≤ b then b - a else a - b

/-- The least path time over timed links from tile `t` to tile `u` (11 R327): 1 a hop, 4 across a die-to-die bridge. -/
def Part.tileDist (p : Part) (t u : Nat) : Option Nat :=
  let qt := p.tileQuarter t
  let qu := p.tileQuarter u
  let m := absDiff (p.pkgX t) (p.pkgX u) + absDiff (p.pkgY t) (p.pkgY u)
  if qt = qu then some m
  else
    match boundBitOf qt qu with
    | some b =>
      if p.linkOpen qt qu then some (m + 3)
      else
        -- the way round through the two other quarters
        let o := if b < 2 then (qt + 2) % 4 else (if qt % 2 = 0 then qt + 1 else qt - 1)
        let w := if b < 2 then (qu + 2) % 4 else (if qu % 2 = 0 then qu + 1 else qu - 1)
        if p.linkOpen qt o && p.linkOpen o w && p.linkOpen w qu then
          if b < 2 then
            let edge := fun y => if y < 8 then 8 - y else y - 7
            some (absDiff (p.pkgX t) (p.pkgX u) + edge (p.pkgY t) + edge (p.pkgY u) + 9)
          else
            let edge := fun x => if x < 12 then 12 - x else x - 11
            some (absDiff (p.pkgY t) (p.pkgY u) + edge (p.pkgX t) + edge (p.pkgX u) + 9)
        else none
    | none =>
      let a := if qt % 2 = 0 then qt + 1 else qt - 1
      let c := (qt + 2) % 4
      if (p.linkOpen qt a && p.linkOpen a qu) || (p.linkOpen qt c && p.linkOpen c qu) then some (m + 6) else none

/-- The tile at package coordinates, by its logical id. -/
def Part.tileOf (p : Part) (x y : Nat) : Nat := (y - p.originY) * p.width + (x - p.originX)

/-- The attachment tile of stack 4q + s (11 R327). -/
def Part.attach (p : Part) (stack : Nat) : Nat :=
  let q := stack / 4
  p.tileOf (12 * (q % 2) + 3 * (stack % 4) + 1) (if q < 2 then 0 else 15)

/-- The tile next to a node: itself for a tile, the attachment tile of a Sluice controller, the edge tile of a Causeway
end; with the hops between (11 R327). That a Causeway end lies at its edge tile is a DESIGN CHOICE, log 24. -/
def Part.anchor (p : Part) (n : Nat) : Nat × Nat :=
  if n < 1000 then (n, 0)
  else if n < 3000 then (p.attach ((n - 1000) / 64), 1)
  else (p.tileOf (if (n - 3000) / 8 = 0 then 0 else 23) (2 * ((n - 3000) % 8)), 0)

/-- The path time between two nodes (11 R327). -/
def Part.nodeDist (p : Part) (m n : Nat) : Option Nat :=
  if m = n then some 0
  else
    let a := p.anchor m
    let b := p.anchor n
    (p.tileDist a.1 b.1).map fun d => d + a.2 + b.2

/-- The Causeway links that the partition uses: those of its own quarters on an edge that faces another package of the
chain (07 R230, 01 R39), as (edge, link). -/
def Part.causeways (p : Part) : List (Nat × Nat) :=
  let pos := (p.chain.extractLsb' 0 3).toNat
  let len := (p.chain.extractLsb' 3 3).toNat + 1
  let ring := p.chain.getLsbD 6
  let west := 1 < len ∧ (0 < pos ∨ ring = true)
  let east := 1 < len ∧ (pos + 1 < len ∨ ring = true)
  let rows := fun (qTop qBot : Nat) =>
    (List.range 8).filter fun j => if j < 4 then p.qmask.getLsbD qTop else p.qmask.getLsbD qBot
  (if west then (rows 0 2).map fun j => (0, j) else []) ++ (if east then (rows 1 3).map fun j => (1, j) else [])

/-- The timed nodes of the partition (11 R325). -/
def Part.nodes (p : Part) : List Nat :=
  List.range p.tileCount
    ++ ((List.range 16).filter fun k => p.il.getLsbD k).flatMap (fun k => (List.range 64).map fun c => sluiceNode (64 * k + c))
    ++ p.causeways.map fun e => causewayNode e.1 e.2

/-- A hold raised by node `n` at the end of the present tc: its arrival at every node it can reach (11 R327). -/
def Part.spread (p : Part) (n : Nat) (len : Option Nat) : List HoldRun :=
  p.nodes.filterMap fun m => (p.nodeDist n m).map fun d => { node := m, due := p.job.tb + 1 + d, len := len }

/-- A hold raised by node `n` of the partition in focus; it also leaves over the Causeway links in use (11 R326, R327). -/
def State.raiseHold (n : Nat) (len : Option Nat) (s : State) : State :=
  let h := s.pt.spread n len
  let o := s.pt.causeways.map fun e => LinkOut.hold (e.1 == 0) (2 * e.2) len
  { (s.onJob fun j => { j with holds := j.holds ++ h }) with out := s.out ++ o }

/-- The node that raises the permanent hold for an origin: the node itself, or logical tile 0 for an origin that is no
timed node (12 R348). That the halt tree reaches tile 0 in the tc of the stop is a DESIGN CHOICE within the 64 tc that
R348 allows, log 25. -/
def Origin.node : Origin → Nat
  | .tile t => t
  | .sluice q => sluiceNode q
  | .causeway l => causewayNode (l / 8) (l % 8)
  | _ => 0

/-- Whether a stop ends the launch (12 R351): the stops of a job-wide switch (cause 0) and of a debugger (0x21) do not, unless
a second fault was met in the system handler (12 R347). -/
def GangStop.fatal (g : GangStop) : Bool := g.cause != 0#8 && g.cause != 0x21#8 || g.cause2 != 0#8

/-- A gang stop of the current job (12 R348). The first fatal one counts; a fault turns the stop of a switch or of a
debugger into a fatal one (12 R359). -/
def State.gangStop (o : Origin) (cause detail cause2 : BitVec 8) (aux : Word) (s : State) : State :=
  let put := fun (t : State) => t.onJob fun j =>
    { j with stop := some { origin := o, cause := cause, detail := detail, cause2 := cause2, aux := aux, tb := j.tb } }
  match s.job.stop with
  | some g => if g.fatal then s else put s
  | none => put (s.raiseHold (Origin.node o) none)

/-! ## Faults of a context -/

/-- FREC0 (05 R151). -/
def frecWord (resume : BitVec 29) (ftag : BitVec 16) (detail cause : BitVec 8) : Word :=
  resume ++ 0#3 ++ ftag ++ detail ++ cause

/-- The causes that the firmware makes fatal (12 R345). -/
def fatalCause (c : BitVec 8) : Bool := !(c == 0x12#8 || c == 0x21#8)

/-- AUX of the partial-work report for a trap (12 R352): the faulting address or TRAP's immediate, where FREC1 holds one. -/
def auxOf (cause : BitVec 8) (f1 : Word) : Word := if cause = 0x04#8 then 0#64 else f1

/-- The context with its fault record written (05 R151). -/
def Ctx.record (c : Ctx) (f0 f1 f2 f3 : Word) : Ctx :=
  { c with frec0 := f0, frec1 := f1, frec2 := f2, frec3 := f3 }

/-- TAKING A TRAP (12 R341, R344, R345, R347): the context in focus writes its fault record and enters the core's trap
entry in the system handler, and its turn on the core ends (10 R314); a cause that the firmware makes fatal raises the gang stop,
and a fault met in the system handler raises one that carries both causes. -/
def State.trap (cause detail : BitVec 8) (f1 f2 f3 : Word) (resume : BitVec 29) (s : State) : State :=
  match s.cx.sys with
  | some (c0, d0) => s.gangStop (.ctx s.me) c0 d0 cause (auxOf cause f1)
  | none =>
    let t := s.endTurn.onCx fun c =>
      { (c.rollback.record (frecWord resume 0#16 detail cause) f1 f2 f3) with
        pc := s.pt.trapEntry, pcBad := false, sys := some (cause, detail), wait := .none
        state := if c.state = .parked ∨ c.state = .halted then .ready else .running }
    if fatalCause cause then t.gangStop (.ctx s.me) cause detail 0#8 (auxOf cause f1) else t

/-- A precise trap of the instruction at the PC (02 R68, 04 R119): RESUME names it. -/
def State.fault (cause detail : BitVec 8) (f1 : Word) (s : State) : State := s.trap cause detail f1 0#64 0#64 s.cx.pc

/-- An illegal-line trap (02 R58): cause 0x02, naming the line with slot 7. -/
def State.badLine (s : State) : State := s.trap 0x02#8 0#8 0#64 0#64 0#64 (pcOf (pcLine s.cx.pc) 7)

/-- TAKING AN UPCALL (12 R341, 05 R180): the fault record, INUPC, STATE 4 and the PC at UPV; the context's turn on the core ends (10
R314). -/
def State.upcall (cause detail : BitVec 8) (ftag : BitVec 16) (f1 f2 f3 : Word) (resume : BitVec 29) (s : State) : State :=
  s.endTurn.onCx fun c =>
    { (c.rollback.record (frecWord resume ftag detail cause) f1 f2 f3) with
      pc := c.upv, pcBad := false, inupc := true, state := .upcall, wait := .none }

/-- Whether faults of the context are delivered as upcalls (12 R341). -/
def Ctx.upcalls (c : Ctx) : Bool := c.upen && !c.inupc && c.sys.isNone

/-- The fault tags that the hamlet in focus holds outstanding (05 R180). -/
def Hamlet.tags (h : Hamlet) : List (BitVec 16) := h.svc.map SvcRec.tag

/-- A fresh tag found from a starting point (05 R180): from 1 to 0xFFFF and not outstanding. -/
def freshFrom (out : List (BitVec 16)) : Nat → Nat → BitVec 16
  | 0, n => BitVec.ofNat 16 (n % 65535 + 1)
  | fuel + 1, n =>
    let t := BitVec.ofNat 16 (n % 65535 + 1)
    if t ∈ out then freshFrom out fuel (n + 1) else t

/-- The fresh fault tag drawn now (05 R180); its choice among the free ones is a free value (log 2). -/
def State.freshTag (s : State) : BitVec 16 := freshFrom s.hm.tags s.hm.svc.length (Config.freeTag s.free)

/-- A translation fault of the context in focus (05 R180; 12 R341, R346, R347): the record goes to the hamlet's service
context with a fresh tag; a data access of a context that takes upcalls enters its handler, and any other context parks. In
the system handler it raises the fatal gang stop. -/
def State.transFault (detail : BitVec 8) (va : Word) (fetch : Bool) (s : State) : State :=
  match s.cx.sys with
  | some (c0, d0) => s.gangStop (.ctx s.me) c0 d0 0x08#8 va
  | none =>
    let tag := s.freshTag
    let up := !fetch && s.cx.upcalls
    let t := s.draw.onHm fun h =>
      { h with svc := h.svc ++ [{ tag := tag, core := s.focus.core, ctx := s.focus.ctx, va := va, detail := detail,
                                  upcall := up, done := false, sent := false }] }
    if up then t.upcall 0x08#8 detail tag va 0#64 0#64 s.cx.pc else t.again (.service tag)

/-- A window fault (12 R341): an upcall with FTAG zero when the context takes them, else the system handler. -/
def State.windowFault (va : Word) (s : State) : State :=
  if s.cx.upcalls then s.upcall 0x0B#8 0#8 0#16 va 0#64 0#64 s.cx.pc else s.fault 0x0B#8 0#8 va

/-- A copy fault is delivered to its issuer, the context in focus, at an instruction boundary (05 R172, R173; 12 R341):
RESUME is the instruction at which it goes on. One whose own cause is 0x11, a race, goes to the system handler and is fatal (09
R297). -/
def State.copyFault (h : HeldFault) (s : State) : State :=
  let ft : BitVec 16 := h.op.setWidth 16
  let race := h.detail.extractLsb' 0 6 == 0x11#6
  if s.cx.upcalls && !race then s.upcall 0x12#8 h.detail ft h.f1 h.f2 h.f3 s.cx.pc
  else
    let t := (s.trap 0x12#8 h.detail h.f1 h.f2 h.f3 s.cx.pc).onCx fun c =>
      { c with frec0 := frecWord s.cx.pc ft h.detail 0x12#8 }
    if race then t.gangStop (.ctx s.me) 0x12#8 h.detail 0#8 h.f1 else t

/-- RETURNING FROM A HANDLER (05 R179, 12 R344): the context goes on at FREC0.RESUME, INUPC clears and STATE is 2. In the
system handler it is the handler that is left, and INUPC stays as it stood. -/
def State.eret (s : State) : State :=
  s.onCx fun c =>
    { c with
      pc := c.frec0.extractLsb' 35 29, pcBad := false, state := .running, undo := none
      inupc := if c.sys.isSome then c.inupc else false
      sys := none }

/-! ## Mailboxes and messages -/

/-- Whether an entry counts in CORE.RCVD (05 R158, 10 R308): messages, returned messages and handovers, but no SIGNAL. -/
def MEntry.counts (e : MEntry) : Bool := (e.kind == 0#4 || e.kind == 2#4 || e.kind == 5#4) && e.peer != 0xFFF#12

/-- Entries that RECV and WAITM see (05 R159, R160). -/
def MEntry.visible (e : MEntry) (k : Nat) : Bool := decide (e.kind.toNat ≤ 4) && e.dst == k

/-- An entry taken into the mailbox (01 R32, 05 R158). -/
def Core.enter (c : Core) (e : MEntry) : Core :=
  { c with mbox := c.mbox ++ [e], rcvd := if e.counts then c.rcvd + 1#64 else c.rcvd }

/-- An entry arriving at a core (01 R32, 12 R355): taken while the mailbox has room and nothing waits before it; else it
is spilled while a resident handler runs, and waits in the network interface otherwise. -/
def Core.deliver (c : Core) (e : MEntry) : Core :=
  if c.preempted then
    if c.mbox.length < 128 ∧ c.spill = [] then c.enter e else { c with spill := c.spill ++ [e] }
  else if c.mbox.length < 128 ∧ c.spill = [] ∧ c.netif = [] then c.enter e
  else { c with netif := c.netif ++ [e] }

/-- Waiting entries move into the mailbox while it has room: spilled ones first, once the resident handler has ended,
then those of the network interface (12 R355). -/
def Core.settle : Nat → Core → Core
  | 0, c => c
  | fuel + 1, c =>
    if c.mbox.length < 128 ∧ c.preempted = false then
      match c.spill, c.netif with
      | e :: r, _ => Core.settle fuel ({ c with spill := r }.enter e)
      | [], e :: r => Core.settle fuel ({ c with netif := r }.enter e)
      | [], [] => c
    else c

/-- The value that WAITM writes (05 R160): the number of entries for context `k`; 1 in deterministic mode (09 R298). -/
def waitmValue (det : Bool) (c : Core) (k : Nat) : Word :=
  if det then 1#64 else BitVec.ofNat 64 (c.mbox.countP fun e => e.visible k)

/-- A context parked in WAITM whose condition now holds completes (05 R160), unless a gang stop has reached its core (12
R350). -/
def Part.wakeMail (p : Part) (c : Core) (k : Nat) : Core :=
  let x := c.ctx k
  match x.wait with
  | .message d =>
    if c.stopped = false ∧ c.mbox.any (fun e => e.visible k) = true then
      c.onCtx k fun x => { ((x.wg d (waitmValue p.det c k)).advance p) with state := .ready, wait := .none }
    else c
  | _ => c

/-- Every context of a core whose mailbox wait now ends (05 R160). -/
def Part.wakeAllMail (p : Part) (c : Core) : Core := (List.range 11).foldl (fun c k => p.wakeMail c k) c

/-- The handover entry of region `n` for context `k` (05 R177). -/
def Core.handover (c : Core) (k : Nat) (n : BitVec 8) : Option MEntry :=
  c.mbox.find? fun e => e.kind == 5#4 && e.dst == k && e.lo.extractLsb' 0 8 == n

/-- TAKE by context `k` of core `c` completes with a handover entry (05 R177): the entry is freed, HOLDER is the context,
G[d] takes HSEQ, and the core acquires at PARTITION scope. -/
def State.tookRegion (c k : Nat) (d : BitVec 6) (n : BitVec 8) (e : MEntry) (s : State) : State :=
  let o := SMap.get s.job.owned n.toNat
  let t := s.onJob fun j => { j with owned := upd j.owned n.toNat fun o => { o with holder := BitVec.ofNat 12 (ctxWriter c k) } }
  t.onCoreAt c fun (x : Core) =>
    Core.onCtx { x with mbox := x.mbox.erase e, l1 := [] } k fun (y : Ctx) =>
      { ((y.wg d (o.hseq.setWidth 64)).advance s.pt) with
        state := if y.state = .parked then .ready else y.state, wait := .none }

/-- Contexts of core `c` parked in TAKE whose handover has entered the mailbox complete. -/
def State.wakeTakes (c : Nat) (s : State) : State :=
  (List.range 11).foldl (fun s k =>
    match (s.ctxAt c k).wait with
    | .take d n =>
      match (s.coreAt c).handover k n with
      | some e => if (s.coreAt c).stopped then s else s.tookRegion c k d n e
      | none => s
    | _ => s) s

/-- An entry delivered to core `c` of the partition in focus, with the waits it ends. -/
def State.deliver (c : Nat) (e : MEntry) (s : State) : State :=
  (s.onCoreAt c fun x => s.pt.wakeAllMail (x.deliver e)).wakeTakes c

/-- Room that a taken or discarded entry leaves is filled, with the waits that ends. -/
def State.settle (c : Nat) (s : State) : State :=
  (s.onCoreAt c fun x => s.pt.wakeAllMail (x.settle (x.spill.length + x.netif.length))).wakeTakes c

/-- A message put on its way (05 R156). -/
def State.sendMsg (m : Msg) (s : State) : State := s.onJob fun j => { j with msgs := j.msgs ++ [m] }

/-- CORE.SENT counts one message of the core in focus (05 R156). -/
def State.bumpSent (s : State) : State := s.onCr fun c => { c with sent := c.sent + 1#64 }

end Sys2Proof.Machine
end

