-- ==== Sys2Proof/Machine/Operands.lean ====
section
/-!
DEFINITION. How an instruction reads its operands: G and D registers with the pops of stream mode (05 R167), lane masks
(04 R129), effective addresses and the tag checks of memory instructions (04 R135-R141).
-/

namespace Sys2Proof.Machine

/-- What reading source operands gives: the values and the context with its pops made; a pop whose data has not
arrived; or a held fault of the element that a pop needs (05 R167). -/
inductive Pop (α : Type) where
  | ok (v : α) (c : Ctx)
  | wait (x : Nat)
  | bad (cause detail : BitVec 8) (va : Word) (c : Ctx)

/-- Reading one operand after another: a wait or a held fault ends it. -/
def Pop.andThen {α β : Type} (p : Pop α) (f : α → Ctx → Pop β) : Pop β :=
  match p with
  | .ok v c => f v c
  | .wait x => .wait x
  | .bad a b v c => .bad a b v c

/-- The number of elements that an affine record names (05 R165). -/
def Affine.count (a : Affine) : Nat := a.cnt.foldl (· * ·) 1

/-- How many elements one pop of stream register `x` takes (05 R167). -/
def popWidth (x : Nat) : Nat := if x < 8 then 1 else 16

/-- Whether a refilled pop holds data. -/
def Refill.isData : Refill → Bool
  | .data _ => true
  | .fault _ _ _ => false

/-- One pop of stream register `x` (05 R167). A fault that the refill met is dropped, so that the element is read again
after the handler returns. -/
def Ctx.pop (c : Ctx) (x : Nat) : Pop (BitVec 512) :=
  let d := SMap.get c.strms x
  let w := popWidth x
  let n := d.pat.count
  let keep : Option (SMap Strm × BitVec 16) := some (c.undo.getD (c.strms, c.strmEnd))
  let ended := if n < d.pos + w then c.strmEnd ||| BitVec.ofNat 16 (2 ^ x) else c.strmEnd
  if n ≤ d.pos then .ok 0#512 { c with strmEnd := ended, undo := keep }
  else
    match d.ahead with
    | [] => .wait x
    | .data v :: r =>
      .ok v { c with strms := upd c.strms x (fun y => { y with pos := y.pos + w, ahead := r }), strmEnd := ended, undo := keep }
    | .fault a b va :: _ =>
      let r := c.rollback
      .bad a b va { r with strms := upd r.strms x fun y => { y with ahead := y.ahead.filter Refill.isData } }

/-- A source field that names a G register. -/
def Ctx.srcG (c : Ctx) (r : BitVec 6) : Pop Word :=
  match gStream r with
  | some x => if c.strmAct.getLsbD x then (c.pop x).andThen fun v c => .ok (v.setWidth 64) c else .ok (c.rg r) c
  | none => .ok (c.rg r) c

/-- A source field that names a D register. -/
def Ctx.srcD (c : Ctx) (r : BitVec 5) : Pop (BitVec 512) :=
  match dStream r with
  | some x => if c.strmAct.getLsbD x then c.pop x else .ok (c.rd r) c
  | none => .ok (c.rd r) c

/-- A mask field (04 R129): 0 enables every lane, another value names the G register whose bits 15:0 do. -/
def Ctx.srcMask (c : Ctx) (m : BitVec 6) : Pop (BitVec 16) :=
  if m = 0#6 then .ok 0xFFFF#16 c else (c.srcG m).andThen fun v c => .ok (v.setWidth 16) c

/-- Two G sources, in field order. -/
def Ctx.srcG2 (a b : BitVec 6) (c : Ctx) : Pop (Word × Word) :=
  (c.srcG a).andThen fun x c => (c.srcG b).andThen fun y c => .ok (x, y) c

/-- Three G sources, in field order. -/
def Ctx.srcG3 (a b e : BitVec 6) (c : Ctx) : Pop (Word × Word × Word) :=
  (c.srcG a).andThen fun x c => (c.srcG2 b e).andThen fun y c => .ok (x, y) c

/-- The fault of an element, delivered as its cause is (12 R341). -/
def State.elemFault (cause detail : BitVec 8) (va : Word) (s : State) : State :=
  if cause = 0x08#8 then s.transFault detail va false
  else if cause = 0x0B#8 then s.windowFault va
  else s.fault cause detail va

/-- An instruction of the context in focus with its operands read: it goes on with the values; a missing element makes
the context yield and issue it again; a held fault is raised precisely with the address of the element (05 R167). -/
def State.withSrc {α : Type} (s : State) (read : Ctx → Pop α) (k : α → State → State) : State :=
  match read { s.cx with undo := none } with
  | .ok v c => if c.undo.isSome then k v (s.onCx fun _ => c) else k v s
  | .wait x => s.again (.stream (BitVec.ofNat 4 x))
  | .bad cause detail va c => (s.onCx fun _ => c).elemFault cause detail va

/-- An instruction that writes G[d] with a function of G[a]. -/
def State.alu1 (s : State) (d a : BitVec 6) (f : Word → Word) : State :=
  s.withSrc (fun c => c.srcG a) fun x s => s.retire d (f x)

/-- An instruction that writes G[d] with a function of G[a] and G[b]. -/
def State.alu2 (s : State) (d a b : BitVec 6) (f : Word → Word → Word) : State :=
  s.withSrc (fun c => c.srcG2 a b) fun x s => s.retire d (f x.1 x.2)

/-- An instruction that writes G[d] with a function of G[a], G[b] and G[c]. -/
def State.alu3 (s : State) (d a b c : BitVec 6) (f : Word → Word → Word → Word) : State :=
  s.withSrc (fun x => x.srcG3 a b c) fun x s => s.retire d (f x.1 x.2.1 x.2.2)

/-- A sign-extended 34-bit immediate (04 R120). -/
def imm34 (i : BitVec 34) : Word := i.signExtend 64

/-! ## Addresses and tags (04 R135-R141, 03 R87) -/

/-- The format code of a pointer's tag (03 R87): bits 63:59. -/
def tagFmt (p : Word) : BitVec 5 := p.extractLsb' 59 5
/-- The block-length log of a pointer's tag: bits 58:56. -/
def tagLog (p : Word) : Nat := (p.extractLsb' 56 3).toNat
/-- The address part of a pointer: bits 55:0. -/
def ptrAddr (p : Word) : Nat := (p.extractLsb' 0 56).toNat

/-- The bytes that one element of a format occupies on its own, a byte of FP4 and a word of T6 standing for the elements
they hold (04 R137). -/
def fmtBytes : Fmt → Nat
  | .raw => 1
  | .int8 | .uint8 | .e4m3 | .e5m2 | .t8 | .e8m0 | .fp4 => 1
  | .int16 | .bf16 => 2
  | .int32 | .fp32 | .t6 => 4
  | .int64 => 8

/-- The factor of a scale field (02 R64). -/
def scaleFactor : Scale → Nat
  | .x1 => 1
  | .x8 => 8
  | .x64 => 64
  | .x512 => 512

/-- The number of a scale field. -/
def scaleNum : Scale → Nat
  | .x1 => 0
  | .x8 => 1
  | .x64 => 2
  | .x512 => 3

/-- The effective address (04 R135), exact; none when it leaves 0 to 2^56 − 1. -/
def effAddr (ptr index : Word) (sc : Scale) (off : BitVec 20) : Option Nat :=
  let ea : Int := (ptrAddr ptr : Int) + index.toInt * (scaleFactor sc : Int) + off.toInt
  if 0 ≤ ea ∧ ea < 2 ^ 56 then some ea.toNat else none

/-- The address of a scaled access (04 R139): pointer and offset alone. -/
def scaledAddr (ptr : Word) (off : BitVec 20) : Option Nat :=
  let ea : Int := (ptrAddr ptr : Int) + off.toInt
  if 0 ≤ ea ∧ ea < 2 ^ 56 then some ea.toNat else none

/-- The E8M0 scale of block `j`, from the index register of a scaled access (04 R139). -/
def scaleByte (index : Word) (j : Nat) : Byte := index.extractLsb' (8 * j) 8

/-- What the tag check of a memory instruction gives: an address, the width and alignment, and the form of the value;
or the fault of the first check that fails (04 R136, steps 1 and 2), with the access's address for FREC1, zero where none
is formed (05 R151). -/
inductive Formed (α : Type) where
  | ok (addr width : Nat) (form : α)
  | tag (addr : Nat)
  | align (addr : Nat)

/-- The alignment check (04 R136, step 2). -/
def aligned {α : Type} (addr width unit : Nat) (f : α) : Formed α := if addr % unit = 0 then .ok addr width f else .align addr

/-- The address that a tag fault of an access reports (05 R151): zero when the access forms none. -/
def tagAddr (ptr index : Word) (sc : Scale) (off : BitVec 20) (scaled : Bool) : Nat :=
  ((if scaled then scaledAddr ptr off else effAddr ptr index sc off)).getD 0

/-- The address of an unscaled access, or a tag fault (04 R135). -/
def formAt {α : Type} (ptr index : Word) (sc : Scale) (off : BitVec 20) (width unit : Nat) (f : α) : Formed α :=
  match effAddr ptr index sc off with
  | some a => aligned a width unit f
  | none => .tag 0

/-- LD and ST (04 R137): the width and alignment unit and how a loaded value extends. `noIndex` says that the index field
is 0. -/
def formLd (ptr index : Word) (noIndex : Bool) (sc : Scale) (off : BitVec 20) : Formed LdForm :=
  match Fmt.ofCode (tagFmt ptr) with
  | none => .tag (tagAddr ptr index sc off false)
  | some .raw =>
    if noIndex then
      let w := 2 ^ scaleNum sc
      formAt ptr 0#64 .x1 off w w .zext
    else formAt ptr index sc off 8 8 .zext
  | some f =>
    if noIndex && scaleNum sc != 0 then .tag (tagAddr ptr index sc off false)
    else
      let form : LdForm :=
        match f with
        | .int8 | .int16 | .int32 => .sext
        | .t6 => .t6
        | _ => .zext
      formAt ptr index sc off (fmtBytes f) (fmtBytes f) form

/-- The formats that LDF and STF convert (04 R137). -/
def Fmt.converts : Fmt → Bool
  | .raw | .fp4 | .t6 => false
  | _ => true

/-- The formats that a nonzero block-length log may go with (04 R136, R139): codes 8 to 12. -/
def Fmt.blocked : Fmt → Bool
  | .e4m3 | .e5m2 | .fp4 | .t8 | .t6 => true
  | _ => false

/-- LDF and STF (04 R137, R139): the form says the format and, for a scaled access, the block scale. -/
def formLdf (ptr index : Word) (noIndex : Bool) (sc : Scale) (off : BitVec 20) : Formed (Fmt × Option Byte) :=
  let bad : Formed (Fmt × Option Byte) := .tag (tagAddr ptr index sc off (tagLog ptr != 0))
  match Fmt.ofCode (tagFmt ptr) with
  | none => bad
  | some f =>
    if !Fmt.converts f then bad
    else if tagLog ptr = 0 then
      if noIndex && scaleNum sc != 0 then bad else formAt ptr index sc off (fmtBytes f) (fmtBytes f) (f, none)
    else if !Fmt.blocked f then bad
    else if scaleNum sc ≠ 0 then bad
    else
      match scaledAddr ptr off with
      | some a => aligned a (fmtBytes f) (fmtBytes f) (f, some (scaleByte index 0))
      | none => .tag 0

/-- LDD and STD (04 R138): 64 raw bytes. -/
def formLdd (ptr index : Word) (noIndex : Bool) (sc : Scale) (off : BitVec 20) : Formed Unit :=
  match Fmt.ofCode (tagFmt ptr) with
  | none => .tag (tagAddr ptr index sc off false)
  | some f => if noIndex && scaleNum sc != 0 then .tag (tagAddr ptr index sc off false) else formAt ptr index sc off 64 (fmtBytes f) ()

/-- The bytes of sixteen consecutive elements (04 R138). -/
def lanesBytes : Fmt → Nat
  | .fp4 => 8
  | .t6 => 16
  | f => 16 * fmtBytes f

/-- The element index of an address in a packed format (03 R86): twice the address for FP4, five to a word for T6. -/
def elemIndex (f : Fmt) (addr : Nat) : Nat :=
  match f with
  | .fp4 => 2 * addr
  | .t6 => 5 * (addr / 4)
  | _ => addr / fmtBytes f

/-- LDDF and STDF (04 R138, R139): the form says the format and each lane's block scale. -/
def formLddf (ptr index : Word) (noIndex : Bool) (sc : Scale) (off : BitVec 20) : Formed (Fmt × List (Option Byte)) :=
  let bad : Formed (Fmt × List (Option Byte)) := .tag (tagAddr ptr index sc off (tagLog ptr != 0))
  match Fmt.ofCode (tagFmt ptr) with
  | none => bad
  | some f =>
    if f == .raw || f == .int64 then bad
    else if tagLog ptr = 0 then
      if noIndex && scaleNum sc != 0 then bad
      else formAt ptr index sc off (lanesBytes f) (fmtBytes f) (f, List.replicate 16 none)
    else if !Fmt.blocked f then bad
    else if scaleNum sc ≠ 0 then bad
    else
      match scaledAddr ptr off with
      | none => .tag 0
      | some a =>
        let block := 2 ^ (tagLog ptr + 2)
        if a % fmtBytes f ≠ 0 ∨ elemIndex f a % (Nat.min 16 block) ≠ 0 then .align a
        else .ok a (lanesBytes f) (f, (List.range 16).map fun l => some (scaleByte index (l / block)))

/-- AMO and CAS (04 R141): the address is the base and a 16-bit offset; the width 4 or 8 with its format. -/
def formAmo (fpOp : Bool) (swap : Bool) (ptr : Word) (off : BitVec 16) : Formed Fmt :=
  let ea : Int := (ptrAddr ptr : Int) + off.toInt
  let inRange : Bool := decide (0 ≤ ea) && decide (ea < 2 ^ 56)
  let bad : Formed Fmt := .tag (if inRange then ea.toNat else 0)
  let at_ := fun (w : Nat) (f : Fmt) => if inRange then aligned ea.toNat w w f else bad
  match Fmt.ofCode (tagFmt ptr) with
  | some .fp32 => if fpOp || swap then at_ 4 .fp32 else bad
  | some .int32 => if fpOp then bad else at_ 4 .int32
  | some .int64 => if fpOp then bad else at_ 8 .int64
  | some .raw => if fpOp then bad else at_ 8 .raw
  | _ => bad

/-- PREF, DISCARD and FLUSH (04 R135, R144-R146): any address, without alignment. -/
def formSweep (ptr index : Word) (noIndex : Bool) (sc : Scale) (off : BitVec 20) : Option Nat :=
  match Fmt.ofCode (tagFmt ptr) with
  | none => none
  | some _ => if noIndex && scaleNum sc != 0 then none else effAddr ptr index sc off

end Sys2Proof.Machine
end

