-- ==== Sys2Proof/Machine/Mem.lean ====
section
/-!
DEFINITION. Memory by its places: the physical map and the HBM interleave (08 R241-R243), bytes at their home through
the granary (R246-R248), static segments (R255-R257), the far tier (R258), stepped regions (R263-R269), windows (01 R22,
R24) and owned regions (R270, R271).
-/

namespace Sys2Proof.Machine

/-! ## The physical map (08 R241) -/

/-- The home of a physical byte: an HBM place, a far-tier address, a Mere byte, a local-memory byte, or none. -/
inductive Home where
  | hbm (key : Nat) | far (a : Nat) | mere (t off : Nat) | loc (c off : Nat) | unpopulated
  deriving DecidableEq, Repr, Inhabited

/-- The stacks of PART.IL, in ascending order. -/
def Part.stackList (p : Part) : List Nat := (List.range 16).filter fun k => p.il.getLsbD k

/-- The bytes of partition HBM (08 R241): 49,088 MiB for each stack. -/
def Part.hbmSize (p : Part) : Nat := 49088 * 2 ^ 20 * p.stackList.length

/-- The number of an HBM byte: pseudo-channel 64S + p in units of 2^30, and the channel offset. -/
def hbmKey (pch off : Nat) : Nat := pch * 2 ^ 30 + off

/-- HbmPlace (08 R243). -/
def Part.hbmPlace (p : Part) (a : Nat) : Nat :=
  let st := p.stackList
  let n := st.length
  let g := a / 4096
  let s := (st[g % n]?).getD 0
  let o := g / n * 4096 + a % 4096
  hbmKey (64 * s + o / 512 % 64) (o / 32768 * 512 + o % 512)

/-- Start of the Commons aperture, Mere (08 R241). -/
def mereBase : Nat := 0x10000000000
/-- Start of the Commons aperture, local memory. -/
def locBase : Nat := 0x10040000000
/-- Start of the far tier. -/
def farBase : Nat := 0x8000000000000

/-- The home of a physical address (08 R241, R242). -/
def Part.home (p : Part) (a : Nat) : Home :=
  if a < p.hbmSize then .hbm (p.hbmPlace a)
  else if mereBase ≤ a ∧ a < mereBase + 2 ^ 21 * p.tileCount then
    .mere ((a - mereBase) / 2 ^ 21) ((a - mereBase) % 2 ^ 21)
  else if locBase ≤ a ∧ a < locBase + 2 ^ 18 * p.coreCount then .loc ((a - locBase) / 2 ^ 18) ((a - locBase) % 2 ^ 18)
  else if farBase ≤ a ∧ a < 2 ^ 52 then .far a
  else .unpopulated

/-- Whether a physical address lies in the Commons aperture (08 R244). -/
def commons (a : Nat) : Bool := decide (mereBase ≤ a) && decide (a < 0x10050000000)

/-! ## Bytes and words -/

/-- The low n bytes of a number, lowest first. -/
def toBytes : Nat → Nat → List Byte
  | 0, _ => []
  | n + 1, v => BitVec.ofNat 8 v :: toBytes n (v / 256)

/-- The number that bytes hold, lowest first (00 R6). -/
def ofBytes : List Byte → Nat
  | [] => 0
  | b :: r => b.toNat + 256 * ofBytes r

/-- n bytes of a memory from address a. -/
def readMem (m : Mem) (a n : Nat) : List Byte := (List.range n).map fun i => SMap.get m (a + i)
/-- Bytes written to a memory from address a. -/
def writeMem (m : Mem) (a : Nat) : List Byte → Mem
  | [] => m
  | b :: r => writeMem (SMap.set m a b) (a + 1) r

/-- Byte i of a 64-byte sector. -/
def sectorByte (v : BitVec 512) (i : Nat) : Byte := v.extractLsb' (8 * i) 8
/-- A sector with byte i replaced. -/
def sectorSet (v : BitVec 512) (i : Nat) (b : Byte) : BitVec 512 :=
  (v &&& ~~~((255#512) <<< (8 * i))) ||| ((b.setWidth 512) <<< (8 * i))

/-! ## HBM and the far tier at their home slices -/

/-- The number of the far-tier sector at a host sector `x` for partition `p`. -/
def farSector (p x : Nat) : Nat := 2 ^ 60 + p * 2 ^ 50 + x

/-- The number of a sector: HBM sectors by place, far-tier sectors of each partition above them. -/
def State.sectorOf (s : State) (h : Home) : Option Nat :=
  match h with
  | .hbm k => some (k / 64)
  | .far a => some (farSector s.focus.part (a / 64))
  | _ => none

/-- Whether a number is a sector's that the partition in focus can reach: any of HBM, or one of its far tier. -/
def State.ownSector (s : State) (k : Nat) : Bool :=
  decide (k < 2 ^ 60)
    || decide (farSector s.focus.part (2 ^ 51 / 64) ≤ k) && decide (k < farSector s.focus.part (2 ^ 52 / 64))

/-- The sector as the memory behind the granary holds it: HBM, or, for the far tier (08 R258), what the device sealed
there, or else what host memory opens to. -/
def State.memSector (s : State) (k : Nat) : BitVec 512 :=
  if k < 2 ^ 60 then BitVec.ofNat 512 (ofBytes (readMem s.hbm (64 * k) 64))
  else
    match SMap.get s.far k with
    | some v => v
    | none =>
      let a := 64 * (k % 2 ^ 50)
      Config.openSector (s.part (k / 2 ^ 50 % 2 ^ 10)).key (a / 64) (BitVec.ofNat 512 (ofBytes (readMem s.host (a - farBase) 64)))

/-- The sector as its home slice holds it (08 R246, R248): the granary's dirty copy, else the memory's. -/
def State.sector (s : State) (k : Nat) : BitVec 512 := (SMap.get s.dirty k).getD (s.memSector k)

/-- A byte of HBM or of the far tier at its home slice. -/
def State.sliceByte (s : State) (h : Home) (i : Nat) : Byte :=
  match h with
  | .hbm key =>
    match SMap.get s.dirty (key / 64) with
    | some v => sectorByte v (key % 64)
    | none => SMap.get s.hbm key
  | _ =>
    match s.sectorOf h with
    | some k => sectorByte (s.sector k) i
    | none => 0#8

/-- A sector put into the memory behind the granary. A far-tier sector is sealed before it leaves the package (08 R258): host
memory takes the sealed bytes, and what any partition had sealed there before is gone. -/
def State.memPut (s : State) (k : Nat) (v : BitVec 512) : State :=
  if k < 2 ^ 60 then { s with hbm := writeMem s.hbm (64 * k) (toBytes 64 v.toNat) }
  else
    let x := k % 2 ^ 50
    { s with
      far := SMap.set ((List.range 4).foldl (fun m p => SMap.erase m (farSector p x)) s.far) k (some v)
      host := writeMem s.host (64 * x - farBase)
        (toBytes 64 (Config.sealSector (s.part (k / 2 ^ 50 % 2 ^ 10)).key x v).toNat) }

/-- The key of a sector in the list of poisoned granules (08 R261), by the sector's number. -/
def sectorPoison (k : Nat) : Nat := if k < 2 ^ 60 then 4 * k else 4 * (k % 2 ^ 50) + 1

/-- The gang stop of a write-back that meets an uncorrectable sector (08 R261, 12 R342): found at the sector's pseudo-channel,
or, for the far tier, by the steward (log 97). -/
def State.backStop (k : Nat) (s : State) : State :=
  s.gangStop (if k < 2 ^ 60 then .sluice (k / 2 ^ 24) else .steward) 0x18#8
    (if 2 ^ 60 ≤ k ∨ s.pt.granaryErr.contains k = true then 0x08#8 else 0x09#8) 0#8 0#64

/-- The granary writes a dirty sector back and keeps it clean (08 R246, R274). A sector that an uncorrectable error has
poisoned stops the partition whose launch runs (08 R261). -/
def State.writeBack (s : State) (k : Nat) : State :=
  match SMap.get s.dirty k with
  | some v =>
    let t : State := { (s.memPut k v) with dirty := SMap.erase s.dirty k }
    if s.ownSector k && s.pt.cur.isSome && s.pt.poison.contains (sectorPoison k) then t.backStop k else t
  | none => s

/-- The 512-byte lines of a quarter's granary, 64 MiB (08 R246). -/
def granarySize : Nat := 131072

/-- The quarter whose granary holds a sector (08 R241): an HBM sector's stack, and the partition's lowest quarter for the far
tier. -/
def Part.granaryOf (p : Part) (k : Nat) : Nat := if k < 2 ^ 60 then k / 2 ^ 32 else (p.quarters.head?).getD 0

/-- Room for the line of sector `k` in its granary (08 R246): one that is full writes a line back first. Which one is not
architectural: a free value (log 2). -/
def State.makeRoom (s : State) (k : Nat) : State :=
  let mine := s.dirty.filter fun x => x.2.isSome && s.pt.granaryOf x.1 == s.pt.granaryOf k && s.ownSector x.1
  let lines := (mine.map fun x => x.1 / 8).eraseDups
  if lines.contains (k / 8) || decide (lines.length < granarySize) then s
  else
    let out := (lines[Config.freeTag s.free % lines.length]?).getD 0
    mine.foldl (fun s x => if x.1 / 8 = out then s.writeBack x.1 else s) s.draw

/-- A byte written at its home slice: the sector becomes dirty in the granary, or, where no line may be allocated (08
R248, R257), the memory takes it. -/
def State.slicePut (s : State) (alloc : Bool) (k i : Nat) (b : Byte) : State :=
  if (SMap.get s.dirty k).isSome then { s with dirty := SMap.set s.dirty k (some (sectorSet (s.sector k) i b)) }
  else if alloc then
    let t := s.makeRoom k
    { t with dirty := SMap.set t.dirty k (some (sectorSet (t.memSector k) i b)) }
  else if k < 2 ^ 60 then { s with hbm := SMap.set s.hbm (64 * k + i) b }
  else s.memPut k (sectorSet (s.memSector k) i b)

/-- The granary drops a sector without writing it back (08 R272). -/
def State.dropSector (s : State) (k : Nat) : State := { s with dirty := SMap.erase s.dirty k }

/-! ## Static segments (08 R255-R257) -/

/-- VALID of segment n. -/
def Part.segValid (p : Part) (n : Nat) : Bool := (SMap.get p.segs (2 * n)).getLsbD 63
/-- The pseudo-channel number 64S + p of segment n. -/
def Part.segPch (p : Part) (n : Nat) : Nat := ((SMap.get p.segs (2 * n)).extractLsb' 48 10).toNat
/-- The first channel offset of segment n. -/
def Part.segBase (p : Part) (n : Nat) : Nat := ((SMap.get p.segs (2 * n)).extractLsb' 6 24).toNat * 64
/-- The length of segment n in bytes. -/
def Part.segLen (p : Part) (n : Nat) : Nat := ((SMap.get p.segs (2 * n + 1)).extractLsb' 6 24).toNat * 64

/-- Whether some HBM byte from `lo` on, below `hi`, lies in valid static segment n. -/
def Part.segMeets (p : Part) (n lo hi : Nat) : Bool :=
  let a := hbmKey (p.segPch n) (p.segBase n)
  p.segValid n && decide (a < hi) && decide (lo < a + p.segLen n)

/-- Whether an HBM byte lies in a valid static segment. -/
def Part.inSegment (p : Part) (key : Nat) : Bool := (List.range 64).any fun n => p.segMeets n key (key + 1)

/-- Whether the granary's 512-byte line of an HBM byte contains a byte of a valid static segment: such a line is never
allocated (08 R257). -/
def Part.segLine (p : Part) (key : Nat) : Bool :=
  (List.range 64).any fun n => p.segMeets n (key / 512 * 512) (key / 512 * 512 + 512)

/-- The granary holds no dirty sector of a line that a static segment has come to meet: those are written back (08 R257). -/
def State.segFlush (s : State) : State :=
  s.dirty.foldl (fun s x => if decide (x.1 < 2 ^ 60) && s.pt.segLine (64 * x.1) then s.writeBack x.1 else s) s

/-! ## Stepped regions (01 R36, 08 R263-R269) -/

/-- The fields of a stepped region entry (01 R36). -/
def rgValid (e : Word) : Bool := e.getLsbD 63
def rgRule (e : Word) : Nat := (e.extractLsb' 61 2).toNat
def rgFmt (e : Word) : BitVec 5 := e.extractLsb' 56 5
def rgScale (e : Word) : Int := (e.extractLsb' 48 8).toInt
def rgGroup (e : Word) : Nat := (e.extractLsb' 42 6).toNat
def rgPlane (e : Word) : Bool := e.getLsbD 40
def rgSize (e : Word) : Nat := (e.extractLsb' 25 15).toNat * 64
def rgBase (e : Word) : Nat := (e.extractLsb' 0 15).toNat * 64

/-- The bytes of a region's word: 8 for INT64, else 4 (01 R36). -/
def rgWord (e : Word) : Nat := if rgFmt e = 5#5 then 8 else 4
/-- The bytes of a region's storage (01 R36). -/
def rgStorage (e : Word) : Nat := if rgRule e = 1 ∧ rgWord e = 4 then 3 * rgSize e else 2 * rgSize e

/-- The valid region whose storage holds a byte address, with its index. -/
def Stepped.find (st : Stepped) (a : Nat) : Option (Nat × Word) :=
  ((List.range 16).map fun i => (i, SMap.get st.tab i)).find? fun x =>
    rgValid x.2 && decide (rgBase x.2 ≤ a) && decide (a < rgBase x.2 + rgStorage x.2)

/-- Whether an address lies in the second half or the sum area of a region (08 R264). -/
def Stepped.hidden (st : Stepped) (a : Nat) : Bool :=
  match st.find a with
  | some (_, e) => decide (rgBase e + rgSize e ≤ a)
  | none => false

/-- The byte that holds the present value of an address (08 R264). -/
def Stepped.present (st : Stepped) (a : Nat) : Nat :=
  match st.find a with
  | some (_, e) => if rgRule e ≠ 1 ∧ rgPlane e = true ∧ a < rgBase e + rgSize e then a + rgSize e else a
  | none => a

/-- The value of a word in sum units (08 R268): the integer, or v / 2^SCALE; none outside the range. -/
def sumValue (e : Word) (v : Nat) : Option Int :=
  match Fmt.ofCode (rgFmt e) with
  | some .fp32 =>
    match num32 (BitVec.ofNat 32 v) with
    | .zero _ => some 0
    | .fin d => if d.wholeAt (rgScale e) then some (d.floorAt (rgScale e)) else none
    | _ => none
  | some .int64 => some (BitVec.ofNat 64 v).toInt
  | _ => some (BitVec.ofNat 32 v).toInt

/-- A signed 64-bit number in range. -/
def fits64 (n : Int) : Bool := decide (-9223372036854775808 ≤ n) && decide (n ≤ 9223372036854775807)

/-- The address of the 64-bit sum of word i (08 R263). -/
def sumAddr (e : Word) (i : Nat) : Nat := rgBase e + rgSize e + 8 * i

/-- The winner among a word's contributions (08 R266, R267): under PRIORITY the highest priority, then the lowest
writer; under FAULT the lowest writer. -/
def winner (rule : Nat) (l : List Contrib) : Option Contrib :=
  l.foldl (fun w c =>
    match w with
    | none => some c
    | some b =>
      if rule = 0 then
        if b.prio.toNat < c.prio.toNat ∨ b.prio = c.prio ∧ c.writer < b.writer then some c else w
      else if c.writer < b.writer then some c else w) none

/-- The contributions to one word. -/
def Stepped.ofWord (st : Stepped) (r i : Nat) : List Contrib := st.contribs.filter fun c => c.reg == r && c.word == i

/-- A store's bytes joined to its writer's contribution to a word (08 R266): its last bytes and its highest priority. -/
def joinContrib (l : List Contrib) (n : Contrib) : List Contrib :=
  if l.any fun c => c.reg == n.reg && c.word == n.word && c.writer == n.writer then
    l.map fun c =>
      if c.reg = n.reg ∧ c.word = n.word ∧ c.writer = n.writer then
        let m := (List.range 8).foldl (fun a i => if n.mask.getLsbD i then a ||| (255#64 <<< (8 * i)) else a) 0#64
        { c with
          prio := if c.prio.toNat < n.prio.toNat then n.prio else c.prio
          val := (c.val &&& ~~~m) ||| (n.val &&& m), mask := c.mask ||| n.mask }
      else c
  else l ++ [n]

/-- A word of n bytes as a contribution makes it: its bytes, and where it has none those that the next plane held before the
step's first store to the word, so that the order of arrival does not matter (08 R266; log 109). -/
def putContrib (m : Mem) (a n : Nat) (c : Contrib) : Mem :=
  (List.range n).foldl (fun m i =>
    SMap.set m (a + i) ((if c.mask.getLsbD i then c.val else c.old).extractLsb' (8 * i) 8)) m

/-- Where word i of a PRIORITY or FAULT region lies in its next plane (08 R263, R264). -/
def nextWord (e : Word) (i : Nat) : Nat := rgBase e + (if rgPlane e then 0 else rgSize e) + i * rgWord e

/-- The word as the next plane held it before the step's first store to it. -/
def Stepped.oldWord (m : Mem) (base : Nat) (st : Stepped) (r : Nat) (e : Word) (i : Nat) : Word :=
  match (st.ofWord r i).head? with
  | some c => c.old
  | none => BitVec.ofNat 64 (ofBytes (readMem m (base + nextWord e i) (rgWord e)))

/-- The bits that a store leaves in byte k of a word (04 R138): the writer's own, where it has stored the byte in this step, or
else those that the next plane held (log 109). -/
def Stepped.keptBits (st : Stepped) (r i writer : Nat) (old : Word) (k : Nat) (keep : Byte) : Byte :=
  let v := match (st.ofWord r i).find? fun c => c.writer == writer && c.mask.getLsbD k with
    | some c => c.val
    | none => old
  v.extractLsb' (8 * k) 8 &&& keep

/-- The result of a store into a stepped region: the memory and the regions after it, or a SUM word out of range. -/
inductive StepStore where
  | ok (m : Mem) (st : Stepped) | collision

/-- One byte that a store brings to a word or an address: its place, its value, and the bits of the byte there that it leaves
as they are (04 R138). -/
structure StByte where
  at_ : Nat
  val : Byte
  keep : Byte

/-- Whole bytes of a store, from place 0 on. -/
def wholeBytes (l : List Byte) : List StByte :=
  (List.range l.length).map fun i => { at_ := i, val := (l[i]?).getD 0#8, keep := 0#8 }

/-- One word of a store into region r (08 R264-R268): `base` is the memory's first byte, `bytes` the stored bytes with
their place within the word, `timed` whether a timed engine stores, which marks a word out of range instead (07 R223). -/
def stepWord (m : Mem) (base : Nat) (st : Stepped) (r : Nat) (e : Word) (i writer : Nat) (prio : BitVec 2) (timed : Bool)
    (bytes : List StByte) : StepStore :=
  let old := st.oldWord m base r e i
  let val := bytes.foldl (fun (v : Word) (x : StByte) =>
    v ||| (((x.val &&& ~~~x.keep) ||| st.keptBits r i writer old x.at_ x.keep).setWidth 64 <<< (8 * x.at_))) 0#64
  let mask := bytes.foldl (fun (v : BitVec 8) (x : StByte) => v ||| BitVec.ofNat 8 (2 ^ x.at_)) 0#8
  let n : Contrib := { reg := r, word := i, writer := writer, prio := prio, val := val, mask := mask, old := old }
  let st' := { st with contribs := joinContrib st.contribs n }
  if rgRule e = 1 then
    let a := base + sumAddr e i
    let old := (BitVec.ofNat 64 (ofBytes (readMem m a 8))).toInt
    match sumValue e val.toNat with
    | some v =>
      if fits64 (old + v) then .ok (writeMem m a (toBytes 8 ((old + v) % Int.ofNat (2 ^ 64)).toNat)) st'
      else if timed then .ok m { st' with marks := st'.marks ++ [(r, i, writer)] }
      else .collision
    | none => if timed then .ok m { st' with marks := st'.marks ++ [(r, i, writer)] } else .collision
  else
    match winner (rgRule e) (st'.ofWord r i) with
    | some w => .ok (putContrib m (base + nextWord e i) (rgWord e) w) st'
    | none => .ok m st'

/-- Bytes of a store grouped into the words of a region: pairs of a word index and the bytes within it. -/
def groupWords (w : Nat) : List StByte → List (Nat × List StByte)
  | [] => []
  | b :: r =>
    let x : StByte := { b with at_ := b.at_ % w }
    match groupWords w r with
    | (i, l) :: g => if i = b.at_ / w then (i, x :: l) :: g else (b.at_ / w, [x]) :: (i, l) :: g
    | [] => [(b.at_ / w, [x])]

/-- Stores of several words in turn. -/
def stepWords (base r : Nat) (e : Word) (writer : Nat) (prio : BitVec 2) (timed : Bool) :
    Mem → Stepped → List (Nat × List StByte) → StepStore
  | m, st, [] => .ok m st
  | m, st, (i, l) :: g =>
    match stepWord m base st r e i writer prio timed l with
    | .ok m st => stepWords base r e writer prio timed m st g
    | .collision => .collision

/-- Bytes stored at region address `a` of a memory whose first byte is `base` (08 R264): one region holds them all. -/
def stepStore (m : Mem) (base : Nat) (st : Stepped) (a writer : Nat) (prio : BitVec 2) (timed : Bool)
    (bytes : List StByte) : StepStore :=
  match st.find a with
  | some (r, e) =>
    stepWords base r e writer prio timed m st (groupWords (rgWord e) (bytes.map fun x => { x with at_ := a + x.at_ - rgBase e }))
  | none => .ok m st

/-- Whether a region has a word in collision at its completion (08 R267, R268): under FAULT two or more writers; under
SUM a mark or a result outside the word's range. The colliding words with their writers. -/
def collisions (m : Mem) (base : Nat) (st : Stepped) (r : Nat) (e : Word) : List (Nat × List Nat) :=
  let words := ((st.contribs.filter fun c => c.reg == r).map Contrib.word).eraseDups
  let writers := fun i => (st.ofWord r i).map Contrib.writer
  let bad := fun (i : Nat) =>
    if rgRule e = 2 then decide (1 < (writers i).length)
    else if rgRule e = 1 then
      (st.marks.any fun x => x.1 == r && x.2.1 == i)
        || (let v := (BitVec.ofNat 64 (ofBytes (readMem m (base + sumAddr e i) 8))).toInt
            match Fmt.ofCode (rgFmt e) with
            | some .fp32 => roundNum .fp32 .rne 0 (Num.ofDy { m := v, e := rgScale e }) % 2 ^ 31 == 0x7F800000
            | some .int64 => false
            | _ => decide (v < -2147483648) || decide (2147483647 < v))
    else false
  (words.filter bad).map fun i => (i, writers i)

/-- SumToWord (08 R268) as a pattern. -/
def sumToWord (e : Word) (v : Int) : Nat :=
  match Fmt.ofCode (rgFmt e) with
  | some .fp32 => roundNum .fp32 .rne 0 (Num.ofDy { m := v, e := rgScale e })
  | some .int64 => (v % Int.ofNat (2 ^ 64)).toNat
  | _ => (v % Int.ofNat (2 ^ 32)).toNat

/-- StepComplete without a collision (08 R265). -/
def settleRegion (m : Mem) (base : Nat) (st : Stepped) (r : Nat) (e : Word) : Mem × Stepped :=
  let words := ((st.contribs.filter fun c => c.reg == r).map Contrib.word).eraseDups
  let clear := { st with contribs := st.contribs.filter fun c => c.reg != r, marks := st.marks.filter fun x => x.1 != r }
  if rgRule e = 1 then
    (words.foldl (fun m i =>
        let v := (BitVec.ofNat 64 (ofBytes (readMem m (base + sumAddr e i) 8))).toInt
        writeMem (writeMem m (base + rgBase e + i * rgWord e) (toBytes (rgWord e) (sumToWord e v)))
          (base + sumAddr e i) (toBytes 8 0)) m, clear)
  else
    let now := base + rgBase e + (if rgPlane e then rgSize e else 0)
    let nxt := base + rgBase e + (if rgPlane e then 0 else rgSize e)
    let n := rgSize e / rgWord e
    ((List.range n).foldl (fun m i =>
        if words.contains i then m
        else writeMem m (nxt + i * rgWord e) (readMem m (now + i * rgWord e) (rgWord e))) m,
      { clear with tab := SMap.set clear.tab r (e ^^^ 0x10000000000#64) })

/-! ## Windows (01 R22, R24; 07 R234) -/

/-- The fields of WDw.CTL (01 R22). -/
def wdOpen (c : Word) : Bool := c.getLsbD 16
def wdStall (c : Word) : Bool := c.getLsbD 17
def wdAdv (c : Word) : Bool := c.getLsbD 18
def wdRgn (c : Word) : Bool := c.getLsbD 19
def wdRegion (c : Word) : Nat := (c.extractLsb' 20 4).toNat
def wdHold (c : Word) : Bool := c.getLsbD 24
def wdDefval (c : Word) : BitVec 32 := c.extractLsb' 32 32

/-- Whether a Mere byte is open to the dynamic plane (01 R24): an open window's region covers it. -/
def Tile.openByte (t : Tile) (a : Nat) : Bool :=
  (List.range 16).any fun w =>
    let c := SMap.get t.wctl w
    let g := SMap.get t.wrg (wdRegion c)
    let b := (g.extractLsb' 0 15).toNat * 64
    let z := (g.extractLsb' 16 15).toNat * 64
    wdOpen c && wdRgn c && decide (b ≤ a) && decide (a < b + z)

/-- Whether a Mere byte lies in the region of a window in its STALL hold, which is closed for the hold (11 R336). -/
def Tile.heldByte (t : Tile) (a : Nat) : Bool :=
  (List.range 16).any fun w =>
    let c := SMap.get t.wctl w
    let g := SMap.get t.wrg (wdRegion c)
    let b := (g.extractLsb' 0 15).toNat * 64
    let z := (g.extractLsb' 16 15).toNat * 64
    wdHold c && wdRgn c && decide (b ≤ a) && decide (a < b + z)

/-! ## Owned regions (01 R38, 08 R270, R271) -/

/-- The owned regions that a range of virtual addresses touches; one of SIZE 0 has no byte (log 110). -/
def Job.ownedAt (j : Job) (va len : Nat) : List (Nat × Owned) :=
  ((List.range 256).map fun n => (n, SMap.get j.owned n)).filter fun x =>
    x.2.valid && x.2.size != 0 && decide (va < x.2.base + x.2.size) && decide (x.2.base < va + len)

/-- Whether a writer may store to a range: it holds every owned region that the range touches (08 R270). -/
def Job.mayStore (j : Job) (va len writer : Nat) : Bool :=
  (j.ownedAt va len).all fun x => x.2.holder.toNat == writer

/-- Whether a load by `writer` meets a marked sector of an owned region that it does not hold (08 R271). -/
def Job.races (j : Job) (va len writer : Nat) : Bool :=
  (j.ownedAt va len).any fun x =>
    x.2.holder.toNat != writer && j.marks.any fun m =>
      m.1 == x.1 && decide (64 * m.2 < va + len) && decide (va < 64 * m.2 + 64)

/-- The marks that a holder's store leaves in deterministic mode (08 R271): one for each sector that it touches. -/
def Job.mark (j : Job) (va len : Nat) : Job :=
  let secs := (List.range (len + 63)).map fun i => (va + i) / 64
  let new := (j.ownedAt va len).flatMap fun x => (secs.filter fun k => decide (64 * k < va + len)).eraseDups.map fun k => (x.1, k)
  { j with marks := j.marks ++ new.filter fun m => !j.marks.contains m }

/-- The marks of the regions that a writer holds are cleared (08 R271: at its STEP, and at HANDOFF for one region). -/
def Job.unmark (j : Job) (writer : Nat) (only : Option Nat) : Job :=
  { j with marks := j.marks.filter fun m =>
      !((SMap.get j.owned m.1).holder.toNat == writer && (match only with | some n => m.1 == n | none => true)) }

/-! ## Poison (08 R261) -/

/-- The key of the granule that a home byte lies in, in the list of poisoned granules: an HBM or far-tier sector, or an
8-byte word of the Mere or of local memory. -/
def poisonKey : Home → Nat
  | .hbm k => 4 * (k / 64)
  | .far a => 4 * (a / 64) + 1
  | .mere t o => 4 * ((t * 2 ^ 21 + o) / 8) + 2
  | .loc c o => 4 * ((c * 2 ^ 18 + o) / 8) + 3
  | .unpopulated => 0

/-- The bytes of a poisoned granule. -/
def poisonSize : Home → Nat
  | .hbm _ | .far _ => 64
  | _ => 8

/-- Whether a home byte is poisoned. -/
def Part.poisoned (p : Part) (h : Home) : Bool := p.poison.contains (poisonKey h)

/-- Whether a key names a sector that the granary holds dirty. -/
def State.isDirty (s : State) (k : Nat) : Bool := (SMap.get s.dirty k).isSome

/-- The granule that a read of a home byte reads: in a stepped region, the present half (08 R264). -/
def State.presentHome (s : State) : Home → Home
  | .mere t o => .mere t ((s.job.tile t).stepped.present o)
  | .loc c o => .loc c ((s.coreAt c).stepped.present o)
  | h => h

/-- Whether a dynamic read of a home byte meets a poisoned granule. -/
def State.badByte (s : State) (h : Home) : Bool := s.pt.poisoned (s.presentHome h)

/-- DETAIL of the uncorrectable error at a poisoned byte (12 R342): a sector's names the memory where its error arose, the
granary or HBM (log 50). -/
def State.poisonDetail (s : State) : Home → BitVec 8
  | .mere _ _ => 0x01#8
  | .loc _ _ => 0x07#8
  | .hbm k => if s.pt.granaryErr.contains (k / 64) then 0x08#8 else 0x09#8
  | _ => 0x08#8

/-! ## Bytes at a home -/

/-- A byte as its home holds it; a region address of the Mere or of local memory reads its present half (08 R264). -/
def State.homeByte (s : State) (h : Home) : Byte :=
  match h with
  | .hbm k => s.sliceByte h (k % 64)
  | .far a => s.sliceByte h (a % 64)
  | .mere t o => SMap.get s.pt.mere (t * 2 ^ 21 + (s.job.tile t).stepped.present o)
  | .loc c o => SMap.get s.pt.loc (c * 2 ^ 18 + (s.coreAt c).stepped.present o)
  | .unpopulated => 0#8

/-- The byte at a physical address, at its home. -/
def State.paByte (s : State) (a : Nat) : Byte := s.homeByte (s.pt.home a)

/-- The bytes at consecutive physical addresses, at their homes. -/
def State.paBytes (s : State) (a n : Nat) : List Byte := (List.range n).map fun i => s.paByte (a + i)

/-- The 8-byte word at a physical address. -/
def State.paWord (s : State) (a : Nat) : Word := BitVec.ofNat 64 (ofBytes (s.paBytes a 8))

/-- A byte written at a physical address outside stepped regions. -/
def State.paPut (s : State) (nc : Bool) (a : Nat) (b : Byte) : State :=
  match s.pt.home a with
  | .hbm k => s.slicePut (!nc && !s.pt.segLine k) (k / 64) (k % 64) b
  | .far x => s.slicePut (!nc) (farSector s.focus.part (x / 64)) (x % 64) b
  | .mere t o => s.onPt fun p => { p with mere := SMap.set p.mere (t * 2 ^ 21 + o) b }
  | .loc c o => s.onPt fun p => { p with loc := SMap.set p.loc (c * 2 ^ 18 + o) b }
  | .unpopulated => s

/-- Bytes written at consecutive physical addresses. -/
def State.paPuts (s : State) (nc : Bool) (a : Nat) : List Byte → State
  | [] => s
  | b :: r => State.paPuts (s.paPut nc a b) nc (a + 1) r

/-- A write that covers a whole poisoned granule clears the poison (08 R261). -/
def State.unpoison (s : State) (a n : Nat) : State :=
  s.onPt fun p =>
    { p with poison := p.poison.filter fun k =>
        !((List.range n).any fun i =>
          let h := p.home (a + i)
          poisonKey h == k && (a + i) % poisonSize h == 0 && decide (i + poisonSize h ≤ n)) }

/-- The 8-byte words that n bytes from `a` cover whole. -/
def wholeWords (a n : Nat) : List Nat :=
  ((List.range (n / 8)).map fun i => (a + 7) / 8 + i).filter fun g => decide (8 * g + 8 ≤ a + n)

/-- The words of a tile's Mere or of a core's local memory that n bytes written from `a` cover whole lose their poison (08
R261); `mk` names the memory. -/
def Part.clean (mk : Nat → Home) (a n : Nat) (p : Part) : Part :=
  { p with poison := p.poison.filter fun k => !((wholeWords a n).any fun g => poisonKey (mk (8 * g)) == k) }

/-- Where a store at a region address lies in the next plane of a PRIORITY or FAULT region (08 R264). -/
def Stepped.nextAt (st : Stepped) (a : Nat) : Option Nat :=
  match st.find a with
  | some (_, e) => if rgRule e = 1 then none else some (if rgPlane e then a else a + rgSize e)
  | none => none

/-- The poison of the next plane after n bytes stored at region address `a` (08 R261, R264). -/
def Part.cleanNext (mk : Nat → Home) (st : Stepped) (a n : Nat) (p : Part) : Part :=
  match st.nextAt a with
  | some x => p.clean mk x n
  | none => p

/-- Whether a word is poisoned set to `b`. -/
def Part.setPoison (k : Nat) (b : Bool) (p : Part) : Part :=
  { p with poison := (p.poison.filter fun x => x != k) ++ if b then [k] else [] }

/-- The poison of the words of a region as its step completes (08 R261, R265): an 8-byte word takes the poison of the words that
are copied into it, or of the sums that are put into it, and keeps its own where not all of it is written; a sum that has been
taken is written with zero. Log 98. -/
def Part.settlePoison (mk : Nat → Home) (st : Stepped) (r : Nat) (e : Word) (p : Part) : Part :=
  if p.poison = [] then p
  else
    let words := ((st.contribs.filter fun c => c.reg == r).map Contrib.word).eraseDups
    let key := fun (a : Nat) => poisonKey (mk a)
    let bad := fun (p : Part) (a : Nat) => p.poison.contains (key a)
    (List.range (rgSize e / 8)).foldl (fun p g =>
      let mine := if rgWord e = 8 then [g] else [2 * g, 2 * g + 1]
      let written := mine.filter fun i => words.contains i
      let copied := mine.filter fun i => !words.contains i
      let at_ := rgBase e + 8 * g
      if rgRule e = 1 then
        if written = [] then p
        else
          let b := (written.any fun i => bad p (sumAddr e i)) || copied != [] && bad p at_
          written.foldl (fun p i => p.setPoison (key (sumAddr e i)) false) (p.setPoison (key at_) b)
      else
        if copied = [] then p
        else
          let now := if rgPlane e then at_ + rgSize e else at_
          let nxt := if rgPlane e then at_ else at_ + rgSize e
          p.setPoison (key nxt) (bad p now || written != [] && bad p nxt)) p

end Sys2Proof.Machine
end

