-- ==== Sys2Proof/Machine/Translate.lean ====
section
/-!
DEFINITION. Translation of virtual addresses (08 R249-R254; 12 R361, R362): the walk through four levels, the TLBs, the
A and D bits, and the permission checks in the order of 08 R251.
-/

namespace Sys2Proof.Machine

/-- What an access does, as the checks tell accesses apart (08 R250, R251). -/
inductive Use where
  | load | store | amo | discard | flush | fetch
  deriving DecidableEq, Repr

/-- Whether the use needs W (08 R250). -/
def Use.writes : Use → Bool
  | .store | .amo | .discard => true
  | _ => false

/-- Whether the use stores, so that the page must have D (08 R253): DISCARD writes nothing. -/
def Use.stores : Use → Bool
  | .store | .amo => true
  | _ => false

/-- The fields of a leaf (08 R250). -/
def leafV (l : Word) : Bool := l.getLsbD 63
def leafLarge (l : Word) : Bool := l.getLsbD 62
def leafD (l : Word) : Bool := l.getLsbD 61
def leafX (l : Word) : Bool := l.getLsbD 59
def leafW (l : Word) : Bool := l.getLsbD 58
def leafR (l : Word) : Bool := l.getLsbD 57
def leafP (l : Word) : Bool := l.getLsbD 56
def leafNC (l : Word) : Bool := l.getLsbD 55

/-- What a walk finds: a leaf and where it lies, a translation fault with its DETAIL, or an uncorrectable entry. -/
inductive Walk where
  | leaf (at_ : Nat) (l : Word)
  | trans (detail : BitVec 8)
  | broken (detail : BitVec 8)
  deriving DecidableEq, Repr

/-- The index of a virtual address at a level (08 R249). -/
def vaIndex (va level : Nat) : Nat := va / 2 ^ (46 - 10 * level) % 1024

/-- An entry of a table as its home holds it; none when it is uncorrectable (08 R261). -/
def State.entry (s : State) (a : Nat) : Option Word := if s.pt.poisoned (s.pt.home a) then none else some (s.paWord a)

/-- The leaf reached at level 3 (08 R251, R252): an entry with LARGE gives way to its group's first entry, and that entry
alone is judged. -/
def State.walkLeaf (s : State) (table va : Nat) : Walk :=
  let a := table + 8 * vaIndex va 3
  match s.entry a with
  | none => .broken (s.poisonDetail (s.pt.home a))
  | some e =>
    if leafLarge e then
      let b := table + 8 * (vaIndex va 3 / 512 * 512)
      match s.entry b with
      | none => .broken (s.poisonDetail (s.pt.home b))
      | some f =>
        if !leafV f || !leafLarge f then .trans 0x03#8
        else if f.extractLsb' 52 3 ≠ 0#3 then .trans 0x13#8
        else .leaf b f
    else if !leafV e then .trans 0x03#8
    else if e.extractLsb' 52 3 ≠ 0#3 then .trans 0x13#8
    else .leaf a e

/-- The residency slot of the current job; 0 when none is current. -/
def State.slot (s : State) : Nat := s.pt.cur.getD 0

/-- The table pointer that a hamlet holds for a level of a walk (08 R254). -/
def ptrHeld (l : List PtrEnt) (slot level va : Nat) : Option Nat :=
  (l.find? fun e => e.slot == slot && e.level == level && e.path == va / 2 ^ (46 - 10 * level)).map PtrEnt.table

/-- The walk from level `level` on, `n` levels above the leaf (08 R249, R251), through the table pointers `held` where it finds
them; with the pointers that it has read. -/
def State.walkFrom (s : State) (held : List PtrEnt) (va : Nat) : Nat → Nat → Walk × List PtrEnt
  | 0, table => (s.walkLeaf table va, [])
  | n + 1, table =>
    let level := 2 - n
    match ptrHeld held s.slot level va with
    | some next => State.walkFrom s held va n next
    | none =>
      let a := table + 8 * vaIndex va level
      match s.entry a with
      | none => (.broken (s.poisonDetail (s.pt.home a)), [])
      | some e =>
        if !leafV e then (.trans (BitVec.ofNat 8 level), [])
        else if e.extractLsb' 52 11 ≠ 0#11 ∨ e.extractLsb' 0 13 ≠ 0#13 then (.trans (BitVec.ofNat 8 (0x10 + level)), [])
        else
          let next := (e.extractLsb' 13 39).toNat * 8192
          if next + 8192 ≤ s.pt.hbmSize then
            let r := State.walkFrom s held va n next
            (r.1, { slot := s.slot, level := level, path := va / 2 ^ (46 - 10 * level), table := next } :: r.2)
          else (.trans (BitVec.ofNat 8 (0x20 + level)), [])

/-- The walk of a virtual address under a root (08 R249), as the tables stand. -/
def State.walkRoot (s : State) (va root : Nat) : Walk := (s.walkFrom [] va 3 root).1
/-- The walk of a virtual address under the current job's root. -/
def State.walkVa (s : State) (va : Nat) : Walk := s.walkRoot va s.pt.place.root

/-- Whether the walk of a virtual address shares a table with a page that a TLBI in progress removes (12 R361). -/
def Job.tlbiOver (j : Job) (va : Nat) : Bool :=
  j.cores.any fun c => c.2.ctxs.any fun x =>
    match x.2.wait with
    | .pend (.tlbi _ lo hi _) => decide (lo / 2 ^ 46 ≤ va / 2 ^ 46) && decide (va / 2 ^ 46 ≤ hi / 2 ^ 46)
    | _ => false

/-- The walk of the hamlet in focus, through the table pointers that it holds (08 R254). Which of them it still holds is not
architectural: a free value says whether this walk uses them (log 2). While a TLBI removes a page on the path it starts again
from the root (12 R361). -/
def State.walkHeld (s : State) (va : Nat) : Walk × List PtrEnt :=
  s.walkFrom (if s.coin && !s.job.tlbiOver va then s.pt.ptrsOf (hamletOf s.focus.core) else []) va 3 s.pt.place.root

/-- A leaf with A set, and D set for a store (08 R253). -/
def leafMarked (store : Bool) (l : Word) : Word :=
  l ||| 0x1000000000000000#64 ||| (if store then 0x2000000000000000#64 else 0#64)

/-- The walker writes A and D by a compare-and-swap at the leaf's home (08 R253). In one step of the model nothing comes
between its read and its write, so the swap does not fail. -/
def State.markLeaf (s : State) (a : Nat) (old new : Word) : State :=
  if old = new then s else s.paPuts false a (toBytes 8 new.toNat)

/-- The entry that a leaf gives the TLBs (08 R254). -/
def tlbOf (slot va : Nat) (l : Word) : TlbEnt :=
  let page := va / 2 ^ 16
  { page := if leafLarge l then page / 512 * 512 else page, large := leafLarge l, slot := slot, leaf := l }

/-- Whether a TLB entry covers a virtual address of a residency slot. -/
def TlbEnt.covers (e : TlbEnt) (slot va : Nat) : Bool :=
  e.slot == slot && (if e.large then e.page / 512 == va / 2 ^ 25 else e.page == va / 2 ^ 16)

/-- A TLB of `cap` entries with an entry installed in place of one for the same page, or, in a full one, of entry `victim`. -/
def tlbPut (cap victim : Nat) (l : List TlbEnt) (slot va : Nat) (e : TlbEnt) : List TlbEnt :=
  let keep := l.filter fun x => !x.covers slot va
  (if cap ≤ keep.length then keep.eraseIdx (victim % keep.length) else keep) ++ [e]

/-- The entries of an I-TLB (for a fetch) or a D-TLB, and of an L2 TLB (08 R254). -/
def coreTlbSize (fetch : Bool) : Nat := if fetch then 32 else 64
def ltlbSize : Nat := 2048

/-- The physical address that a leaf gives a virtual address (08 R250, R252). -/
def leafAddr (l : Word) (va : Nat) : Nat :=
  if leafLarge l then (l.extractLsb' 25 27).toNat * 2 ^ 25 + va % 2 ^ 25
  else (l.extractLsb' 16 36).toNat * 2 ^ 16 + va % 2 ^ 16

/-- A page's translation: the leaf and the state with the TLB and the leaf as the walk leaves them. -/
inductive Paged where
  | ok (l : Word) (s : State)
  | trans (detail : BitVec 8)
  | broken (detail : BitVec 8)

/-- A leaf that a walk has found loads the TLB of the core in focus and its hamlet's, with its A bit set, and D for a store;
the hamlet keeps the table pointers of the walk. Which entry a full TLB gives up is not architectural: a free value (log 2). A
walk that shares a table with a TLBI in progress installs nothing (12 R361). -/
def State.loadTlb (s : State) (va : Nat) (fetch store : Bool) (a : Nat) (l : Word) (ptrs : List PtrEnt) : State :=
  let n := leafMarked store l
  let e := tlbOf s.slot va n
  let v := Config.freeTag s.free
  let h := hamletOf s.focus.core
  let t := s.draw.markLeaf a l n
  if s.job.tlbiOver va then t
  else
    t.onPt fun p =>
      ((p.onTlb (coreTlb s.focus.core fetch) fun x => tlbPut (coreTlbSize fetch) v x s.slot va e).onTlb (p.hamletTlb h) fun x =>
        tlbPut ltlbSize v x s.slot va e).onPtrs h fun x => x ++ ptrs.filter fun y => !x.contains y

/-- The page of a virtual address, by the TLB of the core in focus, by its hamlet's, or by a walk, which loads both (08
R253, R254). A store through an entry whose D is clear walks, and waits for D. -/
def State.page (s : State) (va : Nat) (fetch store : Bool) : Paged :=
  let t := s.pt.tlb (coreTlb s.focus.core fetch)
  let walk :=
    match s.walkHeld va with
    | (.trans d, _) => Paged.trans d
    | (.broken d, _) => .broken d
    | (.leaf a l, ptrs) => .ok (leafMarked store l) (s.loadTlb va fetch store a l ptrs)
  match (t ++ s.pt.tlb (s.pt.hamletTlb (hamletOf s.focus.core))).find? fun e => e.covers s.slot va with
  | some e => if store && !leafD e.leaf then walk else .ok e.leaf s
  | none => walk

/-! ## Permission checks (08 R251) -/

/-- Whether the image's page that holds image byte `off` maps a physical byte of a list (02 R60), as the tables stand. -/
def State.imageMaps (s : State) (r : Resident) (pas : List Nat) (page : Nat) : Bool :=
  let lo := Nat.max r.image (65536 * page)
  let hi := Nat.min (r.image + 64 * r.nlines) (65536 * (page + 1))
  match s.walkVa lo with
  | .leaf _ l => pas.any fun pa => decide (leafAddr l lo ≤ pa) && decide (pa < leafAddr l lo + (hi - lo))
  | _ => false

/-- Whether a range reaches a line of the image (02 R60): by its virtual address, or by another mapping of a physical byte of
the image. -/
def State.onImage (s : State) (va len : Nat) (pas : List Nat) : Bool :=
  match s.pt.current with
  | some r =>
    decide (va < r.image + 64 * r.nlines) && decide (r.image < va + len)
      || (List.range ((r.image + 64 * r.nlines + 65535) / 65536 - r.image / 65536)).any fun i => s.imageMaps r pas (r.image / 65536 + i)
  | none => false

/-- Whether a home byte lies within the job's share (08 R245). -/
def Part.inShare (p : Part) (h : Home) : Bool :=
  let q := p.place
  match h with
  | .mere _ o => decide (q.mbase * 65536 ≤ o) && decide (o < (q.mbase + q.mlen) * 65536)
  | .loc _ o => decide (q.lbase * 65536 ≤ o) && decide (o < (q.lbase + q.llen) * 65536)
  | _ => true

/-- Whether a home byte lies in the storage of a stepped region, and whether in its hidden part. -/
def State.regionOf (s : State) (h : Home) : Option (Nat × Word) :=
  match h with
  | .mere t o => (s.job.tile t).stepped.find o
  | .loc c o => (s.coreAt c).stepped.find o
  | _ => none

/-- Whether a home byte lies in the second half or the sum area of a region (08 R264). -/
def State.hiddenByte (s : State) (h : Home) : Bool :=
  match h with
  | .mere t o => (s.job.tile t).stepped.hidden o
  | .loc c o => (s.coreAt c).stepped.hidden o
  | _ => false

/-- Whether the context in focus may access pages with P (08 R250; 12 R344): the hamlet service context and the steward, which
stand beyond the eleven contexts of a core (log 31), and a context in the system handler. -/
def State.privileged (s : State) : Bool := decide (11 ≤ s.focus.ctx) || s.cx.sys.isSome

/-- The home bytes whose places a use checks: DISCARD and FLUSH leave those of the Commons aperture as they are, without a
fault (04 R145). -/
def Use.checked (u : Use) (hs : List Home) : List Home :=
  match u with
  | .discard | .flush => hs.filter fun h => match h with | .mere _ _ | .loc _ _ => false | _ => true
  | _ => hs

/-- The DETAIL of the first permission check that fails, in the order of 08 R251: the leaves first, then the lines and
places they name. -/
def State.permDetail (s : State) (u : Use) (va len : Nat) (leaves : List Word) (pas : List Nat) : Option (BitVec 8) :=
  let hs := u.checked (pas.map s.pt.home)
  if leaves.any leafP && !s.privileged then some 0x06#8
  else if u == .fetch && leaves.any (fun l => !leafX l) then some 0x05#8
  else if (u == .load || u == .flush) && leaves.any (fun l => !leafR l) then some 0x03#8
  else if u.writes && leaves.any (fun l => !leafW l) then some 0x04#8
  else if u.writes && s.onImage va len pas then some 0x07#8
  else if u == .amo && hs.any (fun h => (match h with | .mere _ _ => true | _ => false) || (s.regionOf h).isSome) then
    some 0x08#8
  else if hs.any s.hiddenByte then some 0x0A#8
  else if hs.any (fun h => !s.pt.inShare h) then some 0x02#8
  else if hs.any (fun h => h == .unpopulated) then some 0x01#8
  else none

/-- The permission check of a byte range that the debug agent writes, on the leaf that maps it: as a store of the job, never with
the privilege of the system handler (14 R386; 08 R251). -/
def State.agentPerm (s : State) (va len : Nat) (leaf : Word) (pas : List Nat) : Option (BitVec 8) :=
  if leafP leaf then some 0x06#8 else s.permDetail .store va len [leaf] pas

/-- A translated range: the physical addresses of its first page and of the page that follows, and whether either leaf
has NC; or the fault of the first check that fails (04 R136, steps 3 and 4). -/
inductive Ranged where
  | ok (pa pa2 : Nat) (nc : Bool) (s : State)
  | trans (detail : BitVec 8)
  | perm (detail : BitVec 8)
  | broken (at_ : Nat) (detail : BitVec 8)

/-- The physical addresses of `len` bytes at `va`, whose first page maps `va` to `pa` and whose next page begins at
`pa2`. -/
def rangeAddrs (va pa pa2 len : Nat) : List Nat :=
  (List.range len).map fun i =>
    if va % 65536 + i < 65536 then pa + i else pa2 + (va % 65536 + i - 65536)

/-- Translation and permission of `len` bytes at `va`, at most two pages (04 R136). -/
def State.range (s : State) (u : Use) (va len : Nat) : Ranged :=
  match s.page va (u == .fetch) u.stores with
  | .trans d => .trans d
  | .broken d => .broken va d
  | .ok l s1 =>
    if va % 65536 + len ≤ 65536 then
      let pa := leafAddr l va
      match s1.permDetail u va len [l] (rangeAddrs va pa 0 len) with
      | some d => .perm d
      | none => .ok pa 0 (leafNC l) s1
    else
      let vb := (va / 65536 + 1) * 65536
      if 2 ^ 56 ≤ vb then .trans 0x00#8
      else
        match s1.page vb (u == .fetch) u.stores with
        | .trans d => .trans d
        | .broken d => .broken vb d
        | .ok l2 s2 =>
          let pa := leafAddr l va
          let pa2 := leafAddr l2 vb
          match s2.permDetail u va len [l, l2] (rangeAddrs va pa pa2 len) with
          | some d => .perm d
          | none => .ok pa pa2 (leafNC l || leafNC l2) s2

/-- The physical address of byte `i` of an access. -/
def Acc.addr (a : Acc) (i : Nat) : Nat :=
  if a.va % 65536 + i < 65536 then a.pa + i else a.pa2 + (a.va % 65536 + i - 65536)

/-- The outcome of a translated range for the instruction of the context in focus: it goes on, or takes the fault (04
R136, 12 R341, R346); an uncorrectable table entry stops the partition (08 R261, 12 R352). -/
def State.withRange (s : State) (u : Use) (va len : Nat) (k : Nat → Nat → Bool → State → State) : State :=
  match s.range u va len with
  | .ok pa pa2 nc t => k pa pa2 nc t
  | .trans d => s.transFault d (BitVec.ofNat 64 va) (u == .fetch)
  | .perm d => s.fault 0x09#8 d (BitVec.ofNat 64 va)
  | .broken x d => s.gangStop (.ctx s.me) 0x18#8 d 0#8 (BitVec.ofNat 64 x)

end Sys2Proof.Machine
end

