-- ==== Sys2Proof/Machine/DebugOps.lean ====
section
/-!
DEFINITION. What the working instructions leave in the debugger's hands: trace records (14 R395-R397), triggers and the
stops they ask for (R389, R390), watchpoints, and the record of a stop for EVENT (R392).
-/

namespace Sys2Proof.Machine

/-- Time since the epoch in dc (14 R395). -/
def Job.dc (j : Job) : Nat := 2 * j.tb + (if j.phase then 1 else 0)

/-- A number as n bytes of a record. -/
def field (n v : Nat) : List Byte := toBytes n v

/-- A trace record (14 R395). -/
def traceRecord (type subt id aux sstep time data : Nat) : List Byte :=
  field 1 type ++ field 1 subt ++ field 2 id ++ field 4 aux ++ field 8 sstep ++ field 8 time ++ field 8 data

/-- Bytes written at a virtual address of the current job as the steward writes: by the walk alone, page by page, with A and D set
in their leaves (08 R253); none where a byte does not translate. -/
def State.vaPuts (s : State) (va : Nat) : List Byte → Option State
  | [] => some s
  | b :: r =>
    match s.walkVa va with
    | .leaf a l =>
      State.vaPuts ((s.markLeaf a l (leafMarked true l)).paPut (leafNC l) (leafAddr l va) b) (va + 1) r
    | _ => none

/-- Whether every byte of a range may be written as a store of the job would be (14 R386; 08 R251). -/
def State.vaWritable (s : State) (va n : Nat) : Bool :=
  (List.range n).all fun i =>
    match s.walkVa (va + i) with
    | .leaf _ l => (s.agentPerm (va + i) 1 l [leafAddr l (va + i)]).isNone
    | _ => false

/-- The header of the trace buffer: HEAD and LOST (14 R396). -/
def State.traceHeader (s : State) : State :=
  let t := s.job.trace
  if s.vaWritable t.buf 16 then (s.vaPuts t.buf (field 8 t.head ++ field 8 t.lost)).getD s else s

/-- One record written to the trace buffer, after which HEAD advances (14 R396); none where the buffer is full without WRAP, or
the job may not write there (R386). -/
def State.traceWrite (s : State) (rec_ : List Byte) : Option State :=
  let t := s.job.trace
  let n := (t.len - 64) / 32
  let va := t.buf + 64 + 32 * (t.head % n)
  if !t.wrap && decide (n ≤ t.head) || !s.vaWritable va 32 then none
  else
    (s.vaPuts va rec_).map fun s1 =>
      (s1.onJob fun j => { j with trace := { j.trace with head := j.trace.head + 1 } }).traceHeader

/-- A record that could not be written is dropped and counted in LOST (14 R396, R397). -/
def State.traceDrop (s : State) : State :=
  (s.onJob fun j => { j with trace := { j.trace with lost := j.trace.lost + 1 } }).traceHeader

/-- A record of the kind that ENABLE bit `b` governs, preceded by a type-6 record when records were lost (14 R397). -/
def State.traceOut (s : State) (enabled : Bool) (rec_ : List Byte) : State :=
  let t := s.job.trace
  if t.on && enabled then
    if t.lost = t.told then (s.traceWrite rec_).getD s.traceDrop
    else
      match s.traceWrite (traceRecord 6 0 0 (t.lost - t.told) 0 s.job.dc 0) with
      | none => s.traceDrop
      | some s1 =>
        let s2 := s1.onJob fun j => { j with trace := { j.trace with told := t.lost } }
        (s2.traceWrite rec_).getD s2.traceDrop
  else s

/-- The debug agent changed, when one is attached. -/
def State.onDebug (f : Debug → Debug) (s : State) : State := s.onJob fun j => { j with debug := (j.debug).map f }

/-- Whether a context or tile belongs to some step group of the launch. -/
def Job.inGroup (j : Job) (tile : Bool) (id : Nat) : Bool :=
  (List.range 64).any fun g => if tile then (j.group g).tiles.contains id else (j.group g).ctxs.contains id

/-- AUX of the EVENT that reports a stop (14 R392). -/
def eventAux (g triggers rest : Nat) : Word := BitVec.ofNat 64 (g + Nat.min triggers 255 * 256 + rest * 65536)

/-- A stop of a tile or context is recorded for EVENT and, with no EVENT pending, in the trace stream (14 R392), with the index of
the trigger that asked for it (R395; log 86). DATA of its trace record is a free value (log 2). -/
def State.recordStop (s : State) (aux : Word) (tile : Bool) (id index : Nat) : State :=
  let waits := match s.job.debug with | some d => decide (d.past.length < d.events.length) | none => false
  let t := s.onDebug fun d => { d with past := d.past ++ [aux] }
  if waits then t
  else
    let sstep := if tile then (s.tileAt id).superstep else (s.ctxAt (id / 11) (id % 11)).steps
    let time := if tile then s.job.scyc id else s.job.dc
    t.draw.traceOut s.job.trace.stops (traceRecord 4 (index % 256) id 0 sstep time (Config.freeWord s.free).toNat)

/-- Whether a pending instruction is a ring step that its record has made wait: RWAIT (05 R163), or RRSV in deterministic mode (09
R298). -/
def Pend.idle : Pend → Bool
  | .ring _ _ _ a => a.got != []
  | _ => false

/-- Whether a wait is for something already issued: an access to be performed, a copy id asked for, or the end of a fault at
the service path. An instruction that waits on a condition has issued nothing that remains (12 R350). -/
def Wait.inFlight : Wait → Bool
  | .pend p => !p.idle
  | .copyId | .service _ => true
  | _ => false

/-- A context takes STATE 5 in a debug stop: what it has in flight is performed while it stands, and what waits on a condition
issues again after the stop. -/
def Ctx.halt (c : Ctx) : Ctx := { c with state := .halted, wait := if c.wait.inFlight then c.wait else .debug }

/-- Context `k` of core `c` stops at once with STATE 5 (14 R389). -/
def State.stopCtx (c k : Nat) (s : State) : State :=
  (s.onCoreAt c fun x => (x.release k).onCtx k Ctx.halt).onDebug
    fun d => { d with inForce := true }

/-- Whether a stop that ends the launch is in force: no debug stop is reported beside it (14 R389). -/
def Job.ending (j : Job) : Bool := match j.stop with | some g => g.fatal | none => false

/-- Whether a gang-stop form of a debug stop holds the job. -/
def Job.gangHeld (j : Job) : Bool := match j.debug with | some d => d.gang | none => false

/-- Whether a QUIESCE with FORCE is ending the resident jobs (13 R375). -/
def Part.aborting (p : Part) : Bool := match p.quiesce with | some q => q.aborting | none => false

/-- Whether the permanent hold in force ends again, with every kept effect at its due SCYC: of a job-wide switch, a checkpoint, or
the gang-stop form of a debug stop (12 R357; 13 R385; 14 R393). -/
def Part.goesOn (p : Part) : Bool := !p.job.ending && !p.aborting && (p.switch.isSome || p.ckpt.isSome || p.job.gangHeld)

/-- Triggers with the STOP bit, by their indexes, ask for a stop (14 R389): at the next completion of a group of the context or
tile, or at once when it belongs to none. -/
def State.askStop (tile : Bool) (id : Nat) (idx : List Nat) (s : State) : State :=
  let first := (idx.head?).getD 0
  if (s.job.debug).isNone || s.job.ending then s
  else if s.job.inGroup tile id then
    s.onDebug fun d => { d with want := d.want ++ idx.map fun x => (tile, id, x) }
  else if tile then
    ((s.gangStop (.tile id) 0x21#8 0#8 0#8 0#64).onDebug fun d => { d with inForce := true, gang := true }).recordStop
      (eventAux 0xFF idx.length (id + 65536)) true id first
  else if (s.ctxAt (id / 11) (id % 11)).state = .halted then s
  else (s.stopCtx (id / 11) (id % 11)).recordStop (eventAux 0xFF idx.length id) false id first

/-- Watchpoints on an access performed by context `k` of core `c` (14 R390): each hit writes its record, whose DATA is
the first watched byte that the access reaches, and may ask for a stop. -/
def State.watch (c k va len : Nat) (ld st : Bool) (s : State) : State :=
  match s.job.debug with
  | none => s
  | some d =>
    (d.triggers.filter fun t =>
        t.kind == 2 && (t.read && ld || t.write && st) && decide (va < t.value + t.len) && decide (t.value < va + len)).foldl
      (fun s t =>
        let s1 := s.traceOut s.job.trace.watch
          (traceRecord 3 t.id (gctx c k) ((if ld then 1 else 0) + (if st then 2 else 0)) (s.ctxAt c k).steps s.job.dc
            (Nat.max va t.value))
        if t.stop then s1.askStop false (gctx c k) [t.id] else s1) s

end Sys2Proof.Machine
end

