-- ==== Sys2Proof/Machine/Access.lean ====
section
/-!
DEFINITION. Performing dynamic accesses (09 R275-R281): caching and forwarding, loads, the store queue and its checked
stores (04 R148), read-modify-writes (R141), DISCARD and FLUSH (R145, R146), and what releases and acquires wait for
(09 R281).
-/

namespace Sys2Proof.Machine

/-- Whether a scope is HAMLET or wider (04 R140). -/
def Scope.wide : Scope → Bool
  | .ctx | .core => false
  | _ => true

/-- Whether an order acquires, and releases (02 R64). -/
def MemOrd.acquires : MemOrd → Bool
  | .acq | .acqrel => true
  | _ => false
def MemOrd.releases : MemOrd → Bool
  | .rel | .acqrel => true
  | _ => false

/-- The aligned parts of at most 8 bytes of a range, as offsets and lengths (09 R275); `fuel` bounds their number. -/
def splitParts (va : Nat) : Nat → Nat → Nat → List (Nat × Nat)
  | 0, _, _ => []
  | fuel + 1, off, len =>
    if len ≤ off then []
    else
      let n := Nat.min (8 - (va + off) % 8) (len - off)
      (off, n) :: splitParts va fuel (off + n) len

/-- The homes of an access's bytes. -/
def State.homes (s : State) (a : Acc) (off n : Nat) : List Home := (List.range n).map fun i => s.pt.home (a.addr (off + i))

/-- Whether every byte of an access lies in the own core's local memory (08 R244). -/
def State.ownLocal (s : State) (a : Acc) : Bool :=
  (s.homes a 0 a.len).all fun h => match h with | .loc c _ => c == s.focus.core | _ => false

/-- Whether the L1 may hold a byte (08 R247; 04 R143): HBM or far tier, outside static segments, no NC, and, in
deterministic mode, no owned region that another context holds. -/
def State.l1May (s : State) (a : Acc) : Bool :=
  !a.nc
    && ((s.homes a 0 a.len).all fun h =>
          match h with
          | .hbm k => !s.pt.inSegment k
          | .far _ => true
          | _ => false)
    && !(s.pt.det && (s.job.ownedAt a.va a.len).any fun x => x.2.holder.toNat != a.writer)

/-- The L1 copy of the byte at a physical address. -/
def Core.l1Byte (c : Core) (pa : Nat) : Option Byte := (SMap.get c.l1 (pa / 64)).map fun v => sectorByte v (pa % 64)

/-- A core's own store updates its L1 copies (09 R277). -/
def Core.l1Patch (c : Core) (pa : Nat) (f : Byte → Byte) : Core :=
  match SMap.get c.l1 (pa / 64) with
  | some v => { c with l1 := SMap.set c.l1 (pa / 64) (some (sectorSet v (pa % 64) (f (sectorByte v (pa % 64))))) }
  | none => c

/-- The bits of byte i that a store leaves as they stand in memory (04 R138: STDF through T6). -/
def Acc.kept (a : Acc) (i : Nat) : Byte := (a.keep[i]?).getD 0#8
/-- Byte i of a store over the byte that stands in memory. -/
def Acc.merged (a : Acc) (i : Nat) (old : Byte) : Byte :=
  (((a.data[i]?).getD 0#8) &&& ~~~a.kept i) ||| (old &&& a.kept i)

/-- The number of the byte of an access that lies at a physical address. -/
def Acc.offOf (a : Acc) (pa : Nat) : Option Nat :=
  let n := Nat.min a.len (65536 - a.va % 65536)
  if a.pa ≤ pa ∧ pa < a.pa + n then some (pa - a.pa)
  else if a.pa2 ≤ pa ∧ pa < a.pa2 + (a.len - n) then some (n + (pa - a.pa2))
  else none

/-- Whether two accesses share a physical byte. -/
def Acc.meets (a b : Acc) : Bool := (List.range a.len).any fun i => (b.offOf (a.addr i)).isSome

/-- Whether byte i of a queued store is still to be performed. -/
def Acc.waits (a : Acc) (i : Nat) : Bool := a.parts.any fun p => decide (p.1 ≤ i) && decide (i < p.1 + p.2)

/-- Whether a context must see a queued store (09 R276, R282): its own, or one that it has read or synchronised with. -/
def SqEnt.binds (e : SqEnt) (k : Nat) : Bool := e.ctx == k || e.seen.contains k

/-- A queued store laid over a byte, where it has not been performed (09 R284). A checked store may yet be refused, and shows
to nobody before (04 R136, R148). -/
def SqEnt.lay (e : SqEnt) (pa : Nat) (b : Byte) : Byte :=
  match e.acc.offOf pa with
  | some i => if !e.checked && e.acc.waits i then e.acc.merged i b else b
  | none => b

/-- The byte at a physical address with the queued stores that bind context `k`, or, where forwarding between contexts is
taken, of every context, laid over the byte at its home, oldest first (04 R148, 09 R277). -/
def queuedOver (q : List SqEnt) (k : Nat) (any : Bool) (pa : Nat) (home : Byte) : Byte :=
  q.foldl (fun b e => if any || e.binds k then e.lay pa b else b) home

/-- A byte that a load of context `k` reads at its home or by forwarding. In a stepped region the present plane is read
and nothing is forwarded (04 R142, R148). -/
def State.loadByte (s : State) (k : Nat) (any : Bool) (a : Acc) (i : Nat) : Byte :=
  let h := s.pt.home (a.addr i)
  if (s.regionOf h).isSome then s.homeByte h else queuedOver s.cr.sq k any (a.addr i) (s.homeByte h)

/-- Context `k` has read an access with the queued stores of its core laid over it: those that it met bind it from now on (09
R276). -/
def Core.noteSeen (k : Nat) (a : Acc) (c : Core) : Core :=
  { c with sq := c.sq.map fun e => if !e.checked && !e.binds k && a.meets e.acc then { e with seen := e.seen ++ [k] } else e }

/-- A release of context `k` at CORE scope or wider (09 R281, R282): the queued stores that bind it are released to the core. -/
def Core.releases (k : Nat) (c : Core) : Core := { c with sq := c.sq.map fun e => if e.binds k then { e with released := true } else e }

/-- An acquire of context `k` at CORE scope or wider: the queued stores released to the core bind it (09 R282). -/
def Core.joins (k : Nat) (c : Core) : Core :=
  { c with sq := c.sq.map fun e => if e.released && !e.binds k then { e with seen := e.seen ++ [k] } else e }

/-- The sectors of an L1 cache and the lines of an instruction cache (08 R246). -/
def l1Size : Nat := 512

/-- An L1 copy put into a data cache that holds at most 512 sectors; which one a full cache gives up is not architectural. -/
def Core.l1Put (victim sector : Nat) (v : BitVec 512) (c : Core) : Core :=
  let keep := SMap.erase c.l1 sector
  { c with l1 := SMap.set (if l1Size ≤ keep.length then keep.eraseIdx (victim % keep.length) else keep) sector (some v) }

/-- The L1 copies of the sectors that an access touches are given up. -/
def Core.l1Drop (a : Acc) (c : Core) : Core :=
  { c with l1 := (List.range a.len).foldl (fun m i => SMap.erase m (a.addr i / 64)) c.l1 }

/-- A fill of the L1 copy of a sector: the home's bytes, with the core's own queued stores laid over them. -/
def State.l1Fill (s : State) (k : Nat) (a : Acc) (i : Nat) : State :=
  let pa := a.addr i / 64 * 64
  let v := (List.range 64).foldl (fun (v : BitVec 512) n =>
    sectorSet v n (queuedOver s.cr.sq k true (pa + n) (s.paByte (pa + n)))) 0#512
  s.onCr (Core.l1Put (Config.freeTag s.free) (pa / 64) v)

/-- The value that a load writes (04 R137-R139). -/
def loadValue (f : LdForm) (bytes : List Byte) : BitVec 512 :=
  let v := ofBytes bytes
  match f with
  | .zext => BitVec.ofNat 512 v
  | .sext =>
    let w := 8 * bytes.length
    BitVec.ofNat 512 (if v < 2 ^ (w - 1) then v else v + (2 ^ 64 - 2 ^ w))
  | .t6 => BitVec.ofNat 512 (v % 2 ^ 30)
  | .toFp32 f sc =>
    let x := decodeNum f v
    let y := match sc with | some e => x.mul (decodeNum .e8m0 e.toNat) | none => x
    (fp32 .rne y).setWidth 512
  | .lanesRaw => BitVec.ofNat 512 v
  | .lanesFp32 f scs =>
    let elem := fun (l : Nat) =>
      match f with
      | .t6 => v / 2 ^ (32 * (l / 5) + 6 * (l % 5))
      | g => v / 2 ^ (fmtBits g * l)
    (List.range 16).foldl (fun (acc : BitVec 512) l =>
      let x := decodeNum f (elem l)
      let y := match (scs[l]?).getD none with | some e => x.mul (decodeNum .e8m0 e.toNat) | none => x
      acc ||| ((fp32 .rne y).setWidth 512 <<< (32 * l))) 0#512

/-- The register write of a load. -/
def Ctx.loaded (c : Ctx) (dReg : Bool) (d : BitVec 6) (v : BitVec 512) : Ctx :=
  if dReg then c.wd (d.setWidth 5) v else c.wg d (v.setWidth 64)

/-- An acquire of context `k` at a scope (04 R140, 09 R281): at HAMLET or wider the core's L1 loses every line; at CORE or
wider the stores released to the core bind the context. -/
def Core.acquire (k : Nat) (sc : Option Scope) (c : Core) : Core :=
  match sc with
  | some .ctx | none => c
  | some x => if Scope.wide x then { (c.joins k) with l1 := [] } else c.joins k

/-! ## What a release waits for (09 R281) -/

/-- Whether every copy that a context issued has completed. -/
def Job.copiesDone (j : Job) (c k : Nat) : Bool :=
  (List.range 16).all fun i =>
    match SMap.get (j.hamlet (hamletOf c)).ops i with
    | some o => !(o.core == c && o.ctx == k)
    | none => true

/-- Whether every earlier store of a context has been performed, with those of its core that bind it. -/
def Core.storesDone (c : Core) (k : Nat) : Bool := c.sq.all fun e => !e.binds k

/-- Whether the stores that precede a fork of a context, by their tickets, have been performed (09 R287, R288). -/
def Core.storesBefore (c : Core) (k fork : Nat) : Bool := c.sq.all fun e => !e.binds k || decide (fork ≤ e.ticket)

/-- Whether a release of context `k` of the core in focus at a scope need wait no longer. -/
def State.released (s : State) (k : Nat) (sc : Scope) : Bool :=
  match sc with
  | .ctx => true
  | .core => s.job.copiesDone s.focus.core k
  | _ => s.job.copiesDone s.focus.core k && s.cr.storesDone k

/-- Every dirty sector of the partition's granary written to memory, as FLUSH does (09 R281). -/
def State.flushAll (s : State) : State := s.dirty.foldl (fun s x => if s.ownSector x.1 then s.writeBack x.1 else s) s

/-- What a release does once it need wait no longer (09 R281, R282): at CORE scope or wider the queued stores that precede it
are released to the core, and at SYSTEM scope the granary's sectors are written to memory, as FLUSH does. -/
def State.flushFor (sc : Scope) (s : State) : State :=
  match sc with
  | .ctx => s
  | .system => s.flushAll.onCr (Core.releases s.focus.ctx)
  | _ => s.onCr (Core.releases s.focus.ctx)

/-! ## Loads -/

/-- Whether a home slice has taken, in this dc, a write of a higher writer id to the sector of a byte: a lower one is taken in a
later dc (09 R276). -/
def State.outOfTurn (s : State) (writer : Nat) (h : Home) : Bool :=
  match s.sectorOf h with
  | some k => decide (writer + 1 < SMap.get s.job.taken k)
  | none => false

/-- Whether an access to byte o of tile t's Mere counts as arriving in the next tc that the tile begins: the tile is paused
(11 R331), and no STALL hold has closed the byte's region, which refuses the access at once (11 R336). -/
def State.mereWaits (s : State) (t o : Nat) : Bool :=
  (s.job.node t).paused && (s.job.node t).stop.isNone && ((s.job.tile t).openByte o || !(s.job.tile t).heldByte o)

/-- Whether an access cannot be performed yet: it reaches a paused tile (11 R331); it reads a byte that a dynamic store has
written in this tc (07 R224); or it writes behind a higher writer id in this dc (09 R276). -/
def State.deferred (s : State) (a : Acc) (read : Bool) : Bool :=
  (s.homes a 0 a.len).any fun h =>
    match h with
    | .mere t o => s.mereWaits t o || read && (s.job.tile t).stored.contains (o / 8)
    | h => !read && s.outOfTurn a.writer h

/-- A write of `n` bytes of an access from byte `off` has been taken: the words of the Mere that it has written in this tc, and
the sectors whose home slices have taken its writer id in this dc. -/
def State.noteStored (a : Acc) (off n : Nat) (s : State) : State :=
  (s.homes a off n).foldl (fun s h =>
    match h with
    | .mere t o => s.onTileAt t fun x => if x.stored.contains (o / 8) then x else { x with stored := x.stored ++ [o / 8] }
    | h =>
      match s.sectorOf h with
      | some k => s.onJob fun j => { j with taken := SMap.set j.taken k (Nat.max (a.writer + 1) (SMap.get j.taken k)) }
      | none => s) s

/-- The fault that the check where an access is performed finds (04 R136, steps 5 to 7; 08 R261). -/
inductive Met where
  | none | window | capability | race | broken (detail : BitVec 8) | collision
  deriving DecidableEq, Repr

/-- The checks of a load's bytes at their places (04 R136). -/
def State.loadMet (s : State) (a : Acc) : Met :=
  let hs := s.homes a 0 a.len
  if hs.any fun h => match h with | .mere t o => !(s.job.tile t).openByte o | _ => false then .window
  else if s.pt.det && s.job.races a.va a.len a.writer then .race
  else
    match hs.find? s.badByte with
    | some h => .broken (s.poisonDetail h)
    | none => .none

/-- The fault of a check at the place of the access, taken by the context in focus, whose PC is the access (04 R136). -/
def State.metFault (m : Met) (va : Nat) (s : State) : State :=
  match m with
  | .none => s
  | .window => s.windowFault (BitVec.ofNat 64 va)
  | .capability => s.fault 0x0A#8 0#8 (BitVec.ofNat 64 va)
  | .race => s.fault 0x11#8 0#8 (BitVec.ofNat 64 va)
  | .broken d => s.fault 0x18#8 d 0#64
  | .collision => s.fault 0x10#8 0x01#8 0#64

/-- A context whose pending instruction has completed: ready where it had yielded (10 R314), and on the core as before where
it had not. -/
def Ctx.goesOn (c : Ctx) : Ctx :=
  match c.state with
  | .parked | .halted => c.wake
  | _ => { c with wait := .none }

/-- A fault that an access in flight meets is delivered, unless a stop has reached the core or a debug stop holds the context: it
comes before every delivery still to begin (12 R343, 14 R391), and the context stands to issue the instruction again. -/
def State.deliverLate (f : State → State) (s : State) : State :=
  if s.cr.stopped || s.cx.state == .halted then s.onCx fun c => c.rollback.goesOn else f s

/-- A load whose bytes are all known completes (04 R137, R140). -/
def State.loadDone (s : State) (a : Acc) (f : LdForm) (dReg : Bool) (d : BitVec 6) (acq : Option Scope) (bytes : List Byte) :
    State :=
  ((s.onCr (Core.acquire s.focus.ctx acq)).onCx fun c => ((c.loaded dReg d (loadValue f bytes)).advance s.pt).goesOn).watch s.focus.core s.focus.ctx
    a.va a.len true false

/-- Whether an acquire reads at the home (09 R277): at HAMLET scope or wider. -/
def atHome (acq : Option Scope) : Bool :=
  match acq with
  | some x => Scope.wide x
  | none => false

/-- The advisor of the quarter whose granary serves physical address `pa` notes something of the page of `va` (08 R259). It
is off without an advice ring and in deterministic mode (09 R298). Pages are of 64 KiB, in a large page too (log 60). -/
def State.onPage (va pa : Nat) (f : PageStat → PageStat) (s : State) : State :=
  if s.pt.det || s.pt.place.advring = 0 then s
  else
    match s.sectorOf (s.pt.home pa) with
    | some k => s.onJob fun j => { j with pages := upd j.pages (s.pt.granaryOf k * 2 ^ 40 + va / 65536) f }
    | none => s

/-- A sector fill served for the quarter of the core in focus. -/
def State.noteFill (va pa : Nat) (s : State) : State :=
  s.onPage va pa fun x =>
    { x with fills := x.fills + 1, askers := x.askers ||| BitVec.ofNat 4 (2 ^ (s.pt.physical 48 s.focus.core / 48)) }

/-- A store that has reached a page. -/
def State.noteStore (va pa : Nat) (s : State) : State := s.onPage va pa fun x => { x with store := true }

/-- The sectors that an access touches, by the virtual and the physical address of its first byte in each. -/
def Acc.sectors (a : Acc) : List (Nat × Nat) :=
  ((List.range a.len).filter fun i => i == 0 || (a.va + i) % 64 == 0).map fun i => (a.va + i, a.addr i)

/-- The fills of the sectors that an access reads, and the store that reaches those that it writes. -/
def State.noteFills (a : Acc) (s : State) : State := a.sectors.foldl (fun s x => s.noteFill x.1 x.2) s
def State.noteStores (a : Acc) (s : State) : State := a.sectors.foldl (fun s x => s.noteStore x.1 x.2) s

/-- Whether a load at its home must wait for queued stores that bind its context (09 R276, R277): an acquire at HAMLET scope or
wider reads no queued store, and must not read behind its own or one that it has seen. -/
def Core.homeWaits (c : Core) (k : Nat) (a : Acc) : Bool :=
  c.sq.any fun e => !e.checked && e.binds k && a.meets e.acc

/-- A load that has passed its translation is issued (04 R118, 09 R277): own local memory and an L1 hit serve it at once;
otherwise the context yields until the access is performed. A load of own local memory wider than an event has its parts
performed one after another (09 R275) without giving up the core; so has an acquire at HAMLET scope or wider that finds own
stores to its bytes still queued (09 R277). Whether a copy that the L1 once held is still there is a
free value (log 2). -/
def State.loadIssue (s : State) (a : Acc) (f : LdForm) (dReg : Bool) (d : BitVec 6) (acq : Option Scope) : State :=
  let parts := splitParts a.va 16 0 a.len
  if s.ownLocal a then
    match s.loadMet a with
    | .none =>
      if decide (1 < parts.length) || atHome acq && s.cr.homeWaits s.focus.ctx a then s.onCx fun c => { c with wait := .pend (.load { a with parts := parts, got := [] } f dReg d acq) }
      else s.loadDone a f dReg d acq ((List.range a.len).map fun i => s.loadByte s.focus.ctx false a i)
    | m => s.metFault m a.va
  else
    let hit := !atHome acq && s.l1May a && (List.range a.len).all fun i => (s.cr.l1Byte (a.addr i)).isSome
    if hit && s.coin then
      (s.draw.onCr (Core.noteSeen s.focus.ctx a)).loadDone a f dReg d acq
        ((List.range a.len).map fun i => (s.cr.l1Byte (a.addr i)).getD 0#8)
    else
      let count := fun (c : Core) => if !atHome acq && s.l1May a then Core.bump 4 1 (Core.bump 3 1 c) else Core.bump 3 1 c
      ((if hit then s.draw else s).onCr count).park
        (.pend (.load { a with parts := parts, got := [] } f dReg d acq))

/-- One part of a pending load is performed (09 R275): its bytes are read at the home, or by forwarding, and the L1 is
filled where it may be, or gives up its copy where it may not. Forwarding from another context of the core is a free value
(log 2). -/
def State.loadPart (s : State) (a : Acc) (f : LdForm) (dReg : Bool) (d : BitVec 6) (acq : Option Scope) (n : Nat) : State :=
  if s.deferred a true || atHome acq && s.cr.homeWaits s.focus.ctx a then s
  else
    match s.loadMet a with
    | .none =>
      match a.parts[n % a.parts.length]? with
      | none => s
      | some (off, len) =>
        let any := !atHome acq && s.coin
        let got := (List.range len).foldl (fun (g : SMap Byte) i => SMap.set g (off + i) (s.loadByte s.focus.ctx any a (off + i))) a.got
        let part : Acc := { a with va := a.va + off, pa := a.addr off, pa2 := 0, len := len }
        let s0 := if any then s.draw.onCr (Core.noteSeen s.focus.ctx part) else s.draw
        let fresh := (SMap.get s.cr.l1 (a.addr off / 64)).isNone
        let s1 := if s.l1May a then (let x := s0.l1Fill s.focus.ctx a off; if fresh then x.noteFill (a.va + off) (a.addr off) else x) else s0.onCr (Core.l1Drop part)
        let parts := a.parts.filter fun p => p != (off, len)
        if parts = [] then s1.loadDone a f dReg d acq ((List.range a.len).map fun i => SMap.get got i)
        else s1.onCx fun c => { c with wait := .pend (.load { a with parts := parts, got := got } f dReg d acq) }
    | m => s.deliverLate (State.metFault m a.va)

/-! ## Stores -/

/-- Whether a store is checked (04 R148): its address lies in the Commons aperture or in an owned region. -/
def State.checkedStore (s : State) (a : Acc) : Bool :=
  (List.range a.len).any (fun i => commons (a.addr i)) || s.job.ownedAt a.va a.len != []

/-- Whether the format of a store equals the FMT of the stepped region it reaches (04 R142). -/
def State.storeFmtOk (s : State) (a : Acc) : Bool :=
  (s.homes a 0 a.len).all fun h => match s.regionOf h with | some (_, e) => rgFmt e == a.fmt | none => true

/-- A store that has passed its translation enters the store queue (04 R148): a checked store yields its context until it
is performed or refused, any other lets it go on. The tag fault of a format that the stepped region does not have (R142) comes here:
after steps 3 and 4 of R136 and before steps 5 to 7 (DESIGN CHOICE, log 112). -/
def State.storeIssue (s : State) (a : Acc) : State :=
  if !s.storeFmtOk a then s.fault 0x0D#8 0#8 (BitVec.ofNat 64 a.va)
  else
    let chk := s.checkedStore a
    let t := s.cr.nextTicket
    let e : SqEnt :=
      { ticket := t, ctx := s.focus.ctx, checked := chk, acc := { a with parts := splitParts a.va 16 0 a.len }
        admitted := false, seen := [], released := false }
    let s1 := s.onCr fun c => { c with sq := c.sq ++ [e], nextTicket := t + 1 }
    if chk then s1.park (.pend (.store t))
    else
      (s1.onCr fun c => (List.range a.len).foldl (fun c i => c.l1Patch (a.addr i) (a.merged i)) c).advance

/-- The bytes of a store, with the bits that each leaves as they are. -/
def Acc.stBytes (a : Acc) : List StByte :=
  (List.range a.len).map fun i => { at_ := i, val := (a.data[i]?).getD 0#8, keep := a.kept i }

/-- How many bytes from its first a store writes whole. -/
def Acc.solid (a : Acc) : Nat := if a.keep.isEmpty then a.len else (a.keep.takeWhile fun m => m == 0#8).length

/-- Bytes of a store written at their homes outside stepped regions. -/
def State.putBytes (s : State) (a : Acc) (off len : Nat) : State :=
  (List.range len).foldl (fun s i =>
    s.paPut a.nc (a.addr (off + i)) (a.merged (off + i) (s.paByte (a.addr (off + i))))) s

/-- The ring records whose bytes 16 to 23 a store writes lose their turn (09 R298). -/
def State.turnReset (s : State) (a : Acc) (off len : Nat) : State :=
  (List.range len).foldl (fun s i =>
    let pa := a.addr (off + i)
    if 16 ≤ pa % 64 ∧ pa % 64 < 24 then s.onJob fun j => { j with turns := SMap.erase j.turns (pa / 64) } else s) s

/-- The poison that the bytes written whole by a store clear (08 R261), page by page; a store into a stepped region, whose present
half it leaves, clears none. -/
def State.cleared (s : State) (a : Acc) : State :=
  if (s.homes a 0 a.len).any fun h => (s.regionOf h).isSome then s
  else
    let n := Nat.min a.solid (65536 - a.va % 65536)
    let t := s.unpoison a.pa n
    if n < a.solid then t.unpoison a.pa2 (a.solid - n) else t

/-- A store into a stepped region of a tile or core (08 R264): the state after it, or the collision of a SUM store. -/
def State.regionPut (s : State) (a : Acc) : Option State :=
  let bs := a.stBytes
  match s.pt.home a.pa with
  | .mere t o =>
    match stepStore s.pt.mere (t * 2 ^ 21) (s.job.tile t).stepped o a.writer a.prio false bs with
    | .ok m st =>
      some ((s.onPt fun p => Part.cleanNext (.mere t) (s.job.tile t).stepped o a.solid { p with mere := m }).onTileAt t fun x =>
        { x with stepped := st })
    | .collision => none
  | .loc c o =>
    match stepStore s.pt.loc (c * 2 ^ 18) (s.coreAt c).stepped o a.writer a.prio false bs with
    | .ok m st =>
      some ((s.onPt fun p => Part.cleanNext (.loc c) (s.coreAt c).stepped o a.solid { p with loc := m }).onCoreAt c fun x =>
        { x with stepped := st })
    | .collision => none
  | _ => some s

/-- The checks of a store's bytes at their places (04 R136, R143). -/
def State.storeMet (s : State) (a : Acc) : Met :=
  if (s.homes a 0 a.len).any fun h => match h with | .mere t o => !(s.job.tile t).openByte o | _ => false then .window
  else if !s.job.mayStore a.va a.len a.writer then .capability
  else .none

/-- The marks of deterministic mode that a performed store leaves (08 R271). -/
def State.markOwned (s : State) (va len : Nat) : State := if s.pt.det then s.onJob fun j => j.mark va len else s

/-- Whether an earlier store to the same bytes is still queued before entry `e` (04 R148). The stores of one context to the
same bytes take effect in program order, and those of several contexts of the core in the order in which they entered the
queue, in which the L1 copy has taken them (09 R276, R277). DEDUCED, log 77. -/
def Core.blocked (c : Core) (e : SqEnt) : Bool := c.sq.any fun x => decide (x.ticket < e.ticket) && x.acc.meets e.acc

/-- A read-modify-write, or a ring step, as an entry behind every store queued so far. -/
def Core.lastEntry (c : Core) (k : Nat) (a : Acc) : SqEnt :=
  { ticket := c.nextTicket, ctx := k, checked := false, acc := a, admitted := false, seen := [], released := false }

/-- A store leaves the queue, and a context that waited for room may issue again. -/
def Core.dequeue (c : Core) (t : Nat) : Core :=
  let c := { c with sq := c.sq.filter fun e => e.ticket != t }
  (List.range 11).foldl (fun c k => if (c.ctx k).wait = .queueFull then c.onCtx k Ctx.wake else c) c

/-- The granary may write a sector back after any store (08 R246): a free value (log 2). -/
def State.mayWriteBack (s : State) (pa : Nat) : State :=
  match s.sectorOf (s.pt.home pa) with
  | some k => if s.coin then s.draw.writeBack k else s.draw
  | none => s

/-- The bytes of a store written part by part, a stepped region taking them as a store does (04 R142); none where a SUM word
leaves its range. -/
def State.elemPut (s : State) (a : Acc) : Option State :=
  (splitParts a.va (a.len + 1) 0 a.len).foldl (fun (t : Option State) p =>
    t.bind fun t =>
      let b : Acc :=
        { a with va := a.va + p.1, pa := a.addr p.1, pa2 := 0, len := p.2, data := (a.data.drop p.1).take p.2, keep := (a.keep.drop p.1).take p.2 }
      if (t.regionOf (t.pt.home b.pa)).isSome then t.regionPut b else some ((t.putBytes b 0 p.2).turnReset b 0 p.2)) (some s)

/-- Whether an access reaches a stepped region, where it takes effect whole or not at all (04 R142). -/
def State.whole (s : State) (a : Acc) : Bool := (s.homes a 0 a.len).any fun h => (s.regionOf h).isSome

/-- An entry of the store queue leaves it, all of it performed: poison that it covers is cleared, the context of a checked
store goes on, and watchpoints are tested. -/
def State.storeDone (e : SqEnt) (s : State) : State :=
  let t := (s.cleared e.acc).onCr fun c => c.dequeue e.ticket
  (if e.checked then t.complete else t).watch s.focus.core e.ctx e.acc.va e.acc.len false true

/-- One part of a queued store is performed (09 R275), with the core's L1 copy of a checked one, which did not take it at its
issue. -/
def State.storeStep (s : State) (e : SqEnt) (n : Nat) : State :=
  let a := e.acc
  match a.parts[n % a.parts.length]? with
  | none => s.storeDone e
  | some (off, len) =>
    let t := ((s.putBytes a off len).turnReset a off len).onCr fun c =>
      if e.checked then (List.range len).foldl (fun c i => c.l1Patch (a.addr (off + i)) (a.merged (off + i))) c else c
    let s1 := ((t.noteStored a off len).mayWriteBack (a.addr off)).noteStore (a.va + off) (a.addr off)
    let parts := a.parts.filter fun p => p != (off, len)
    let e1 : SqEnt := { e with admitted := true, acc := { a with parts := parts } }
    if parts = [] then s1.storeDone e
    else s1.onCr fun c => { c with sq := c.sq.map fun x => if x.ticket = e.ticket then { e1 with seen := x.seen, released := x.released } else x }

/-- An entry of the store queue of the core in focus is performed, part `n` of it (09 R275). The focus is on its context; a
checked store is tested whole before its first part, and refused with its precise fault (04 R148); into a stepped region it
takes effect in one step. -/
def State.storePart (s : State) (e : SqEnt) (n : Nat) : State :=
  let a := e.acc
  if s.cr.blocked e || s.deferred a false then s
  else if !e.checked || e.admitted then s.storeStep e n
  else
    match s.storeMet a with
    | .none =>
      if s.whole a then
        match s.elemPut a with
        | some t => ((t.markOwned a.va a.len).noteStored a 0 a.len).storeDone e
        | none => (s.onCr fun c => c.dequeue e.ticket).deliverLate (State.metFault .collision a.va)
      else (s.markOwned a.va a.len).storeStep e n
    | m => (s.onCr fun c => c.dequeue e.ticket).deliverLate (State.metFault m a.va)

/-- The parts that a tile has still to take of the store that has ticket `t` on core `c`, at most `n` of them. -/
def State.storeRest (c t : Nat) : Nat → State → State
  | 0, s => s
  | n + 1, s =>
    match (s.coreAt c).sq.find? fun e => e.ticket == t with
    | some e => State.storeRest c t n (({ s with focus := { s.focus with core := c, ctx := e.ctx } } : State).storeStep e 0)
    | none => s

/-- The stores to the Mere of tile `t` that have been admitted through a window take effect whole before the tile closes one (04
R136): no part of them is refused once another has been taken. Log 96. -/
def State.storesLand (t : Nat) (s : State) : State :=
  let here := fun (e : SqEnt) => e.admitted && (s.homes e.acc 0 e.acc.len).any fun h =>
    match h with
    | .mere u _ => u == t
    | _ => false
  let l := s.job.cores.flatMap fun c => (c.2.sq.filter here).map fun e => (c.1, e)
  let u := l.foldl (fun s x => s.storeRest x.1 x.2.ticket x.2.acc.parts.length) s
  { u with focus := s.focus }

/-! ## Read-modify-writes (04 R141) -/

/-- The new word of an AMO on a word of w bytes (04 R141). -/
def amoNew (op : AmoOp) (w : Nat) (m x : Word) : Word :=
  let v := if w = 4 then (x.setWidth 32).setWidth 64 else x
  let sx := fun (x : Word) => if w = 4 then (x.setWidth 32).toInt else x.toInt
  let f := fun (g : BitVec 32 → BitVec 32 → BitVec 32) => (g (m.setWidth 32) (v.setWidth 32)).setWidth 64
  match op with
  | .add => m + v
  | .and => m &&& v
  | .or => m ||| v
  | .xor => m ^^^ v
  | .min => if sx v < sx m then v else m
  | .max => if sx m < sx v then v else m
  | .minu => if v.ult m then v else m
  | .maxu => if m.ult v then v else m
  | .swap => v
  | .fadd => f (fadd32 .rne)
  | .fmin => f fmin32
  | .fmax => f fmax32

/-- The value that an AMO or CAS returns (04 R141): sign-extended from INT32, zero-extended from FP32. -/
def amoOld (fmt : BitVec 5) (m : Word) : Word := if fmt = 4#5 then (m.setWidth 32).signExtend 64 else m

/-- A word at the width of an access. -/
def atWidth (w : Nat) (v : Word) : Word := if w = 4 then (v.setWidth 32).setWidth 64 else v

/-- The word that a read-modify-write stores: its bytes at the home, with the marks of deterministic mode and the own L1
copy; nothing where a compare fails. -/
def State.rmwPut (s : State) (a : Acc) (new : Option Word) : State :=
  match new with
  | none => s.onCr (Core.l1Drop a)
  | some v =>
    let bytes := toBytes a.len (atWidth a.len v).toNat
    let t := ((s.paPuts a.nc a.pa bytes).markOwned a.va a.len).onCr fun c =>
      (List.range a.len).foldl (fun c i => c.l1Patch (a.addr i) fun _ => (bytes[i]?).getD 0#8) c
    ((t.noteStored a 0 a.len).noteStore a.va a.pa).mayWriteBack a.pa

/-- A read-modify-write performed at its home (04 R136, R141, 09 R281): its checks, the old word returned, the new word
stored, and the acquire. It waits behind the queued stores of its core to the same bytes (04 R148, 09 R276), and behind a
higher writer id in this dc. -/
def State.rmw (s : State) (a : Acc) (new : Word → Option Word) (d : BitVec 6) (ord : MemOrd) (sc : Scope) : State :=
  if s.cr.blocked (s.cr.lastEntry s.focus.ctx a) || s.deferred a false then s
  else
    match s.storeMet a with
    | .none =>
      match (s.homes a 0 a.len).find? s.pt.poisoned with
      | some h => s.deliverLate (State.metFault (.broken (s.poisonDetail h)) a.va)
      | none =>
        let old := BitVec.ofNat 64 (ofBytes (s.paBytes a.pa a.len))
        let s1 := (s.rmwPut a (new old)).onCr (Core.acquire s.focus.ctx (if MemOrd.acquires ord then some sc else none))
        (s1.onCx fun c => ((c.wg d (amoOld a.fmt old)).advance s.pt).goesOn).watch
          s.focus.core s.focus.ctx a.va a.len true true
    | m => s.deliverLate (State.metFault m a.va)

/-! ## DISCARD and FLUSH (04 R145, R146; 08 R272, R274) -/

/-- One covered sector at its home slice: DISCARD drops it from the granary and from every L1, FLUSH writes it back.
Sectors of static segments and of the Commons aperture are left as they are. -/
def State.sweepOne (s : State) (discard : Bool) (pa : Nat) : State :=
  let h := s.pt.home pa
  match h, s.sectorOf h with
  | .hbm key, some k =>
    if s.pt.inSegment key then s
    else if discard then
      (s.dropSector k).onJob fun j => { j with cores := j.cores.map fun x => (x.1, { x.2 with l1 := SMap.erase x.2.l1 (pa / 64) }) }
    else s.writeBack k
  | _, some k =>
    if discard then
      (s.dropSector k).onJob fun j => { j with cores := j.cores.map fun x => (x.1, { x.2 with l1 := SMap.erase x.2.l1 (pa / 64) }) }
    else s.writeBack k
  | _, none => s

/-- Whether a DISCARD in deterministic mode stays within the owned regions that the context holds (04 R136, 08 R273):
every covered sector lies in one of them. DEDUCED, log 29. Sectors of the Mere and of local memory count too (DESIGN CHOICE, log
113). -/
def State.discardOk (s : State) (lo hi : Nat) : Bool :=
  !s.pt.det || (List.range (hi / 64 + 1 - lo / 64)).all fun i =>
    (s.job.ownedAt (64 * (lo / 64 + i)) 64).any fun x => x.2.holder.toNat == s.writer

/-- A page of a sweep: the first byte of its part, its length, and the leaf that maps it. -/
structure SweepPage where
  va : Nat
  len : Nat
  leaf : Word

/-- The permission details in the order in which they are reported (08 R251). -/
def permOrder : List (BitVec 8) := [0x06#8, 0x05#8, 0x03#8, 0x04#8, 0x07#8, 0x08#8, 0x0A#8, 0x02#8, 0x01#8]

/-- The permission fault of a sweep whose pages have all been translated (04 R136, step 4; 08 R251): the first detail that some
page gives, and that page's first covered byte. -/
def State.sweepPerm (s : State) (u : Use) (l : List SweepPage) : Option (BitVec 8 × Nat) :=
  let found := l.map fun p =>
    (s.permDetail u p.va p.len [p.leaf] (rangeAddrs p.va (leafAddr p.leaf p.va) 0 p.len), p.va)
  permOrder.findSome? fun d => (found.find? fun x => x.1 == some d).map fun x => (d, x.2)

/-- The sectors of a page of a sweep, by their physical addresses. -/
def SweepPage.sectors (p : SweepPage) : List Nat :=
  (List.range ((p.va + p.len - 1) / 64 + 1 - p.va / 64)).map fun i => leafAddr p.leaf p.va / 64 * 64 + 64 * i

/-- The pages of a sweep translated in turn (04 R136, R145), or the first fault. `lo` is the first byte of the page's part and
`hi` the last byte of the sweep. -/
def State.sweepLeaves (s : State) (hi : Nat) (k : List SweepPage → State → State) : Nat → Nat → List SweepPage → State
  | 0, _, acc => k acc s
  | fuel + 1, lo, acc =>
    if hi < lo then k acc s
    else if 2 ^ 56 ≤ lo then s.transFault 0x00#8 (BitVec.ofNat 64 (lo % 2 ^ 56)) false
    else
      let last := Nat.min hi (lo / 65536 * 65536 + 65535)
      match s.page lo false false with
      | .trans d => s.transFault d (BitVec.ofNat 64 lo) false
      | .broken d => s.gangStop (.ctx s.me) 0x18#8 d 0#8 (BitVec.ofNat 64 lo)
      | .ok l t => State.sweepLeaves t hi k fuel (last + 1) (acc ++ [{ va := lo, len := last + 1 - lo, leaf := l }])

/-- A sweep checked: every covered page is translated (04 R136, step 3), then their permissions are checked (step 4), and `k` is
given the physical address of every covered sector. -/
def State.sweepPages (s : State) (u : Use) (lo hi : Nat) (k : List Nat → State → State) : State :=
  s.sweepLeaves hi (fun l s =>
    match s.sweepPerm u l with
    | some x => s.fault 0x09#8 x.1 (BitVec.ofNat 64 x.2)
    | none => k (l.flatMap SweepPage.sectors) s) 65538 lo []

end Sys2Proof.Machine
end

