-- ==== Sys2Proof/Machine/Control.lean ====
section
/-!
DEFINITION. Flow, contexts, traps and system entry of group 3 (05 R149-R155, R179-R185): branches, START and EXIT, YIELD
and CTXQ, TRAP, ERET, RESUME, HALT, TLBI and DBGBRK.
-/

namespace Sys2Proof.Machine

/-- CTX.STATE as a number (01 R28). -/
def CtxState.code : CtxState → Nat
  | .free => 0
  | .ready => 1
  | .running => 2
  | .parked => 3
  | .upcall => 4
  | .halted => 5
  | .swapped => 6

/-- The service context of a hamlet issues as context 12 of the hamlet's core 0 (12 R346), and the steward's own
instructions as context 13 (log 31). -/
def svcCtx : Nat := 12
def stewardCtx : Nat := 13

/-- Whether the instruction in focus is a hamlet service context's. -/
def State.isService (s : State) : Bool := s.focus.ctx == svcCtx
/-- Whether it is the steward's. -/
def State.isSteward (s : State) : Bool := s.focus.ctx == stewardCtx

/-! ## Branches (05 R152) -/

/-- BR (05 R152). -/
def execBr (cc : Cond) (a b : BitVec 6) (slot : BitVec 3) (line : BitVec 26) (s : State) : Out :=
  .next (s.withSrc (Ctx.srcG2 a b) fun r s => if Cond.holds cc r.1 r.2 then s.jump (line ++ slot) else s.advance)
/-- JMP (05 R152). -/
def execJmp (slot : BitVec 3) (line : BitVec 26) (s : State) : Out := .next (s.jump (line ++ slot))
/-- JMPR (05 R152, 02 R59). -/
def execJmpr (a : BitVec 6) (s : State) : Out := .next (s.withSrc (fun c => c.srcG a) fun t s => s.jumpReg t)
/-- CALL (05 R152): G63 takes Succ(). -/
def execCall (slot : BitVec 3) (line : BitVec 26) (s : State) : Out :=
  let next := succ s.pt s.cx.pc
  .next ((s.onCx fun c => c.wg 63#6 (next.setWidth 64)).jump (line ++ slot))

/-! ## Contexts (05 R153-R155) -/

/-- A context as START leaves it (05 R153, 01 R27): everything zero but G1, G2, the program counter, PRIO and STATE. -/
def Ctx.started (c : Ctx) (g1 g2 : Word) (prio : BitVec 2) (pc : BitVec 29) : Ctx :=
  { c with
    g := SMap.set (SMap.set [] 1 g1) 2 g2, d := [], pc := pc, pcBad := false, state := .ready, inupc := false, upen := false
    prio := prio, upv := 0#29, frec0 := 0#64, frec1 := 0#64, frec2 := 0#64, frec3 := 0#64
    strmEnd := 0#16, strmAct := 0#16, strms := [], pseq := 0#16, h := [], lsel := 0#11, steps := 0
    wait := .none, undo := none, sys := none, ran := true }

/-- Messages that waited in the hamlet's pending queue for context `k` of the core in focus enter its mailbox, in arrival
order (05 R153, R157). -/
def State.takePending (k : Nat) (s : State) : State :=
  let c := s.focus.core
  let mine := fun (x : Nat × MEntry) => x.1 == c && x.2.dst == k
  let l := s.hm.pendq.filter mine
  l.foldl (fun s x => s.deliver c x.2) (s.onHm fun h => { h with pendq := h.pendq.filter fun x => !mine x })

/-- Helper `k` of the core in focus starts, and G[a] takes its number (05 R153). -/
def State.startHelper (s : State) (k : Nat) (a : BitVec 6) (g1 : Word) (p : BitVec 2) (pc : BitVec 29) : State :=
  ((s.onCtxAt s.focus.core k fun c => c.started g1 (BitVec.ofNat 64 s.me) p pc).takePending k).retire a (BitVec.ofNat 64 k)

/-- The lowest free helper of a core (05 R153). -/
def Core.freeHelper (c : Core) : Option Nat := (List.range 11).find? fun k => k != 0 && (c.ctx k).state == .free

/-- START (05 R153; in deterministic mode 09 R298). -/
def execStart (p : BitVec 2) (a b : BitVec 6) (slot : BitVec 3) (line : BitVec 26) (s : State) : Out :=
  .next (
    if s.pt.det then
      s.withSrc (Ctx.srcG2 a b) fun r s =>
        let k := r.1.toNat
        if k < 1 ∨ 10 < k then s.fault 0x09#8 0#8 0#64
        else if (s.cr.ctx k).state = .free then s.startHelper k a r.2 p (line ++ slot)
        else s.again (.helper k)
    else
      s.withSrc (fun c => c.srcG b) fun v s =>
        match s.cr.freeHelper with
        | some k => s.startHelper k a v p (line ++ slot)
        | none => s.retire a (-1#64))

/-- A copy operation that CABORT has answered applies no further element (05 R174). -/
def CopyOp.abort (o : CopyOp) : CopyOp := { o with susp := none, aborted := true }

/-- A copy operation of a hamlet changed. -/
def Hamlet.onOp (h : Hamlet) (i : Nat) (f : CopyOp → CopyOp) : Hamlet :=
  { h with ops := SMap.set h.ops i ((SMap.get h.ops i).map f) }

/-- Every suspended copy of a context receives CABORT (05 R154, step 1). -/
def Hamlet.abortAll (h : Hamlet) (core ctx : Nat) : Hamlet :=
  (List.range 16).foldl (fun h i =>
    match SMap.get h.ops i with
    | some o => if o.core = core ∧ o.ctx = ctx ∧ o.susp.isSome then h.onOp i CopyOp.abort else h
    | none => h) h

/-- EXIT (05 R154): the suspended copies are aborted, and the context yields until the rest of the rule completes it. -/
def execExit (s : State) : Out :=
  .next (((s.onHm fun h => h.abortAll s.focus.core s.focus.ctx).onCx fun c => { c with held := [] }).park (.pend .exit))
/-- YIELD (05 R155, 10 R315): the context is ready at its successor and leaves the core. -/
def execYield (s : State) : Out :=
  .next ((s.onCr fun c => c.release s.focus.ctx).onCx fun c => { (c.advance s.pt) with state := .ready })

/-- CTXQ (05 R155). -/
def execCtxq (q : CtxQ) (d a : BitVec 6) (s : State) : Out :=
  .next (
    match q with
    | .state =>
      s.withSrc (fun c => c.srcG a) fun v s =>
        s.retire d (if v.toNat ≤ 10 then BitVec.ofNat 64 (CtxState.code (s.cr.ctx v.toNat).state) else -1#64)
    | .free =>
      s.retire d (BitVec.ofNat 64 ((List.range 11).countP fun k => k != 0 && (s.cr.ctx k).state == .free))
    | .self => s.retire d (BitVec.ofNat 64 s.focus.ctx))

/-! ## Traps, handlers and system entry -/

/-- TRAP (05 R179): cause 0x20 with the immediate, resuming at Succ(). -/
def execTrap (imm : BitVec 34) (s : State) : Out :=
  .next (s.trap 0x20#8 0#8 (imm34 imm) 0#64 0#64 (succ s.pt s.cx.pc))

/-- Whether the context is in a handler (05 R179, 12 R344). -/
def Ctx.inHandler (c : Ctx) : Bool := c.inupc || c.sys.isSome

/-- ERET (05 R179): legal in a handler alone. -/
def execEret (s : State) : Out := .next (if s.cx.inHandler then s.eret else s.fault 0x01#8 0#8 0#64)

/-- The kind-4 entry of the context in focus that carries a tag (05 R181). -/
def Core.notice (c : Core) (k : Nat) (tag : BitVec 16) : Option MEntry :=
  c.mbox.find? fun e => e.kind == 4#4 && e.dst == k && e.lo.extractLsb' 0 16 == tag

/-- RESUME (05 R181). -/
def execResume (a b : BitVec 6) (s : State) : Out :=
  .next (
    if !s.cx.inupc then s.fault 0x01#8 0#8 0#64
    else
      s.withSrc (Ctx.srcG2 a b) fun r s =>
        let tag := r.1.extractLsb' 0 16
        match s.cr.notice s.focus.ctx tag with
        | none => s.advance
        | some e =>
          let t := (s.onCr fun c => { c with mbox := c.mbox.erase e }).onHm fun h =>
            { h with svc := h.svc.filter fun x => x.tag != tag }
          ((t.settle s.focus.core).jumpReg r.2).onCx fun c => { c with inupc := false, state := .running })

/-- HALT (05 R183, 14 R392): STATE 5 with an agent attached, else a debug-stop trap that resumes at Succ(). -/
def execHalt (s : State) : Out :=
  .next (
    if (s.job.debug).isSome then
      ((s.onCr fun c => (c.release s.focus.ctx).onCtx s.focus.ctx fun x =>
        { x with state := .halted, wait := .halt }).onDebug fun d => { d with inForce := true }).recordStop
        (eventAux 0xFF 0 s.me) false s.me 0
    else s.trap 0x21#8 0#8 0#64 0#64 0#64 (succ s.pt s.cx.pc))

/-- The virtual addresses whose pages a TLBI removes, first and last (05 R184); none where it takes a permission
fault. -/
def tlbiRange (k : TlbK) (a b : Word) : Option (Nat × Nat) :=
  match k with
  | .page => some (ptrAddr a, ptrAddr a)
  | .range =>
    if 1 ≤ b.toNat ∧ b.toNat ≤ 2 ^ 20 then some (ptrAddr a, Nat.min (2 ^ 56 - 1) (ptrAddr a + b.toNat * 2 ^ 16 - 1)) else none
  | .all => some (0, 2 ^ 56 - 1)

/-- TLBI (05 R184): a permission fault in a launch's context; in a service context or the steward it yields until every
TLB has acknowledged (12 R360, R361). -/
def execTlbi (k : TlbK) (a b : BitVec 6) (s : State) : Out :=
  .next (
    if !(s.isService || s.isSteward) then s.fault 0x09#8 0#8 0#64
    else
      s.withSrc (Ctx.srcG2 a b) fun r s =>
        match tlbiRange k r.1 r.2 with
        | none => s.fault 0x09#8 0#8 0#64
        | some (lo, hi) => s.park (.pend (.tlbi k lo hi [])))

/-- DBGBRK (05 R185, 14 R389, R390): an armed id writes its record and may ask for a stop; the context continues. -/
def execDbgbrk (id : BitVec 16) (s : State) : Out :=
  let pc := s.cx.pc
  let hit : Option Trigger := (s.job.debug).bind fun d => d.triggers.find? fun t => t.kind == 0 && t.id == id.toNat
  .next (
    match hit with
    | none => s.advance
    | some t =>
      let s1 := s.advance.traceOut s.job.trace.breaks
        (traceRecord 2 (t.id % 256) s.me id.toNat s.cx.steps s.job.dc pc.toNat)
      if t.stop then s1.askStop false s.me [t.id] else s1)

end Sys2Proof.Machine
end

