-- ==== Sys2Proof/Machine/Msg.lean ====
section
/-!
DEFINITION. Messages and mailboxes, owned regions and posts of group 3 (05 R156-R160, R176-R178; 10 R321, R322), and the
arrival of a message.
-/

namespace Sys2Proof.Machine

/-- Whether a global context number names a context of the launch's cores (01 R45). -/
def Part.hasCtx (p : Part) (n : Nat) : Bool := decide (n < 11 * p.coreCount)

/-- The number in a G register that names a context, when its bits 63:12 are zero (05 R156, R176). -/
def Part.destOf (p : Part) (v : Word) : Option Nat :=
  if v.extractLsb' 12 52 = 0#52 ∧ p.hasCtx v.toNat = true then some v.toNat else none

/-- The sender that a service context's messages name (12 R346). -/
def svcPeer : Nat := 0xFFE

/-- A service context sends a fault-completion notice to context `dst` (05 R156, 12 R346): the fault whose tag it carries is
corrected, and the notice, with the payload given, is on its way. It counts in no counter (05 R158). -/
def State.noticeSent (dst : Nat) (lo hi : Word) (s : State) : State :=
  let tag : BitVec 16 := lo.extractLsb' 0 16
  (s.onHm fun h => { h with svc := h.svc.map fun r => if r.tag = tag then { r with done := true, sent := true } else r }).sendMsg
    { src := svcPeer, dst := dst, kind := 4#4, seq := 0#32, lo := lo, hi := hi, returned := false }

/-- SEND (05 R156). A context of a launch takes a permission fault on SEND.NOTICE. What SEND.NOTICE writes to G[d] is not
stated, since a notice increments no count: the model gives the count of its core as it stands (DESIGN CHOICE, log 80). -/
def execSend (notice : Bool) (d a b c : BitVec 6) (s : State) : Out :=
  .next (s.withSrc (fun x => x.srcG3 a b c) fun r s =>
    if notice then
      if !s.isService then s.fault 0x09#8 0#8 0#64
      else
        match s.pt.destOf r.1 with
        | none => s.fault 0x09#8 0#8 0#64
        | some n => (s.noticeSent n r.2.1 r.2.2).retire d ((s.cr.sent.extractLsb' 0 32).setWidth 64)
    else
      match s.pt.destOf r.1 with
      | none => s.fault 0x09#8 0#8 0#64
      | some n =>
        if 16 ≤ s.cr.sq.length then s.again .queueFull
        else
          let t := s.bumpSent
          let seq : BitVec 32 := t.cr.sent.extractLsb' 0 32
          (t.sendMsg { src := s.me, dst := n, kind := 0#4, seq := seq, lo := r.2.1, hi := r.2.2, returned := false }).retire d
            (seq.setWidth 64))

/-- The descriptor of a mailbox entry (05 R159). -/
def MEntry.descriptor (e : MEntry) : Word :=
  let seq : BitVec 32 := if e.kind = 3#4 ∨ e.kind = 4#4 then 0#32 else e.seq
  (1#1 ++ 0#11 ++ e.kind ++ 0#4 ++ e.peer ++ seq : BitVec 64)

/-- RECV (05 R159, R160): the oldest visible entry of the context is taken, or three zeros are written. -/
def execRecv (d a b : BitVec 6) (s : State) : Out :=
  .next (
    match s.cr.mbox.find? fun e => e.visible s.focus.ctx with
    | none => s.onCx fun c => (((c.wg d 0#64).wg a 0#64).wg b 0#64).advance s.pt
    | some e =>
      ((s.onCr fun c => { c with mbox := c.mbox.erase e }).settle s.focus.core).onCx fun c =>
        (((c.wg d e.lo).wg a e.hi).wg b e.descriptor).advance s.pt)

/-- WAITM (05 R160; 09 R298): it takes no entry. -/
def execWaitm (d : BitVec 6) (s : State) : Out :=
  .next (
    if s.cr.mbox.any fun e => e.visible s.focus.ctx then s.retire d (waitmValue s.pt.det s.cr s.focus.ctx)
    else s.park (.message d))

/-! ## Owned regions (05 R176, R177) -/

/-- HANDOFF (05 R176): its checks; the context then yields until its stores have been performed. -/
def execHandoff (d a : BitVec 6) (n : BitVec 8) (s : State) : Out :=
  .next (s.withSrc (fun c => c.srcG a) fun v s =>
    match s.pt.destOf v with
    | none => s.fault 0x09#8 0#8 0#64
    | some dst =>
      let o := SMap.get s.job.owned n.toNat
      if o.valid = true ∧ o.holder.toNat = s.writer then s.park (.pend (.handoff d dst n))
      else s.fault 0x0A#8 0#8 0#64)

/-- HANDOFF completes once every earlier store has been performed (05 R176, 08 R271): the capability is in transit with a
new sequence number, the marks of the region clear, and the entry travels as a message. -/
def State.handoff (d : BitVec 6) (dst : Nat) (n : BitVec 8) (s : State) : State :=
  if !s.cr.storesDone s.focus.ctx then s
  else
    let hseq := (SMap.get s.job.owned n.toNat).hseq + 1#16
    let t := (s.onJob fun j =>
      { (j.unmark s.writer (some n.toNat)) with
        owned := upd j.owned n.toNat fun o => { o with hseq := hseq, holder := 0xFFF#12 } }).bumpSent
    let lo : Word := 0#32 ++ hseq ++ 0#8 ++ n
    (t.sendMsg { src := s.me, dst := dst, kind := 5#4, seq := t.cr.sent.extractLsb' 0 32, lo := lo, hi := 0#64,
                 returned := false }).onCx fun c =>
      ((c.wg d (hseq.setWidth 64)).advance s.pt).wake

/-- TAKE (05 R177). -/
def execTake (d : BitVec 6) (n : BitVec 8) (s : State) : Out :=
  let o := SMap.get s.job.owned n.toNat
  .next (
    if !o.valid then s.fault 0x0A#8 0#8 0#64
    else if o.holder.toNat = s.writer then s.retire d (o.hseq.setWidth 64)
    else
      match s.cr.handover s.focus.ctx n with
      | some e => (s.tookRegion s.focus.core s.focus.ctx d n e).settle s.focus.core
      | none => s.park (.take d n))

/-! ## Posts (05 R178) -/

/-- POST (05 R178, 01 R30). -/
def execPost (a b : BitVec 6) (k : BitVec 6) (s : State) : Out :=
  .next (s.withSrc (Ctx.srcG2 a b) fun r s =>
    if r.1.extractLsb' 16 48 ≠ 0#48 ∨ (s.tileAt r.1.toNat).named = false then s.fault 0x09#8 0#8 0#64
    else if 16 ≤ s.cr.sq.length then s.again .queueFull
    else
      let seq := s.cx.pseq + 1#16
      let p : Post := { src := s.writer, tile := r.1.toNat, word := k.toNat, value := r.2.setWidth 32, seq := seq }
      (s.onJob fun j => { j with posts := j.posts ++ [p] }).onCx fun c => { c with pseq := seq }.advance s.pt)

/-! ## Arrival (05 R157, R158) -/

/-- The entry that a message leaves in a mailbox: kind 2 for a returned one, whose PEER is the destination it had. -/
def Msg.entry (m : Msg) : MEntry :=
  { kind := if m.returned then 2#4 else m.kind, dst := m.dst % 11, peer := BitVec.ofNat 12 m.src, seq := m.seq
    lo := m.lo, hi := m.hi }

/-- A message turned back to its sender (05 R157). -/
def Msg.back (m : Msg) : Msg := { m with src := m.dst, dst := m.src, returned := true }

/-- Whether a context, running or halted, waits for the notice with a tag (12 R346). -/
def Ctx.awaits (c : Ctx) (tag : BitVec 16) : Bool := c.wait == .service tag

/-- Whether a message is a notice that wakes the context it is for, and is consumed by that (12 R346). -/
def State.wakesBy (s : State) (m : Msg) : Bool :=
  m.kind == 4#4 && !m.returned && (s.ctxAt (m.dst / 11) (m.dst % 11)).awaits (m.lo.extractLsb' 0 16)

/-- The context parked on a notice's tag is woken and issues again, and its fault's tag is free (05 R180, 12 R346). -/
def State.noticeWakes (m : Msg) (s : State) : State :=
  let tag : BitVec 16 := m.lo.extractLsb' 0 16
  (s.onJob fun j => j.onHamlet (hamletOf (m.dst / 11)) fun h => { h with svc := h.svc.filter fun x => x.tag != tag }).onCtxAt
    (m.dst / 11) (m.dst % 11) Ctx.wake

/-- A message arrives at its destination core and takes its fate (05 R157, R158, R176). A notice that is returned ends at its
service context, which has no mailbox. -/
def State.arrive (m : Msg) (s : State) : State :=
  let c := m.dst / 11
  let x := s.ctxAt c (m.dst % 11)
  if m.dst = svcPeer then s
  else if s.wakesBy m then s.noticeWakes m
  else if m.returned then
    let t := if m.kind = 5#4 then
        s.onJob fun j => { j with owned := upd j.owned (m.lo.extractLsb' 0 8).toNat fun o =>
          { o with holder := BitVec.ofNat 12 (1024 + m.dst) } }
      else s
    if x.state = .free then t.onCoreAt c fun y => { y with rcvd := y.rcvd + 1#64 } else t.deliver c m.entry
  else
    match x.state with
    | .free =>
      if x.ran then s.sendMsg m.back
      else if (s.job.hamlet (hamletOf c)).pendq.length < 64 then
        s.onJob fun j => j.onHamlet (hamletOf c) fun h => { h with pendq := h.pendq ++ [(c, m.entry)] }
      else s.sendMsg m.back
    | _ => s.deliver c m.entry

/-- Whether message `n` of those on their way may arrive: no earlier one from the same sender to the same core is still on its
way (01 R32; 05 R156, 09 R295), and a notice does not wake a context that a stop has reached (12 R350). -/
def State.mayArrive (s : State) (n : Nat) (m : Msg) : Bool :=
  !((s.job.msgs.take n).any fun x => x.src == m.src && x.returned == m.returned && x.dst / 11 == m.dst / 11)
    && !(s.wakesBy m && (s.coreAt (m.dst / 11)).stopped)

/-- MESSAGE_ARRIVAL (05 R157): message `n` of those on their way arrives. -/
def execMessageArrival (n : Nat) (s : State) : Out :=
  .next (
    match s.job.msgs[n]? with
    | none => s
    | some m => if s.mayArrive n m then (s.onJob fun j => { j with msgs := j.msgs.eraseIdx n }).arrive m else s)

/-- FAULT_COMPLETION_NOTICE (12 R346, 05 R157, R180): the notice with a tag arrives, as the message that it is. It wakes the
context parked on it, which issues again, or enters the mailbox of one that took an upcall, where RESUME takes it. -/
def execFaultCompletionNotice (tag : BitVec 16) (s : State) : Out :=
  match s.job.msgs.findIdx? fun m => m.kind == 4#4 && m.lo.extractLsb' 0 16 == tag with
  | some n => execMessageArrival n s
  | none => .next s

/-! ## Idle contexts and the quiet condition (10 R321, R322) -/

/-- Whether a context is parked in WAITM, RWAIT, TAKE or STEP (10 R321). Their waits end as soon as their conditions hold,
so a context found in one waits on a condition that does not hold. -/
def Wait.idle : Wait → Bool
  | .message _ | .take _ _ | .step _ _ => true
  | .pend (.ring (.rwait _) _ _ a) => a.got != []
  | _ => false

/-- Whether context `k` of core `c` is idle (10 R321). -/
def Job.idleCtx (j : Job) (c k : Nat) : Bool :=
  let x := (j.core c).ctx k
  (x.state == .free || x.state == .parked && x.wait.idle)
    && j.copiesDone c k && !((j.hamlet (hamletOf c)).reqs.any fun o => o.core == c && o.ctx == k)
    && (j.core c).storesDone k && x.held == []

/-- The quiet condition (10 R322): every tile that the launch names has ended, and every context is idle. -/
def Part.quiet (p : Part) : Bool :=
  (p.job.tiles.all fun t => !t.2.named || t.2.ended)
    && ((List.range p.coreCount).all fun c => (List.range 11).all fun k => p.job.idleCtx c k)

/-- PENDING_QUEUE_RETURN (10 R322): when the quiet condition holds, each hamlet returns its pending entries. -/
def execPendingQueueReturn (s : State) : Out :=
  .next (
    if !s.pt.quiet then s
    else
      (List.range s.pt.hamletCount).foldl (fun s h =>
        let l := (s.job.hamlet h).pendq
        l.foldl (fun s x =>
          s.sendMsg { src := gctx x.1 x.2.dst, dst := x.2.peer.toNat, kind := x.2.kind, seq := x.2.seq, lo := x.2.lo
                      hi := x.2.hi, returned := true })
          (s.onJob fun j => j.onHamlet h fun y => { y with pendq := [] })) s)

end Sys2Proof.Machine
end

