-- ==== Sys2Proof/Machine/Steps.lean ====
section
/-!
DEFINITION. Step groups (01 R35; 05 R175; 06 R201, R202; 07 R238; 08 R263-R268; 14 R388, R399): arrivals, completion, what a
completion does on cores and on tiles, and the wake of member contexts.
-/

namespace Sys2Proof.Machine

/-! ## Arrivals -/

/-- The record of arrival times with one arrival more (14 R399): in the dc of the latest arrival the lowest writer id is
kept. -/
def Group.note (g : Group) (dc writer : Nat) (mill : Bool) : Group :=
  let me := writer * 2 + (if mill then 1 else 0)
  { g with
    first := match g.first with
      | none => some (dc, dc)
      | some (e, n) => some (Nat.min e dc, n + dc)
    lastArr := match g.lastArr with
      | none => some (dc, me)
      | some (t, w) => if t < dc then some (dc, me) else if t = dc ∧ me < w then some (dc, me) else some (t, w) }

/-- A listed tile arrives by TSTEP (07 R238). -/
def Group.arriveTile (g : Group) (dc t : Nat) : Group := { (g.note dc t false) with arrTiles := g.arrTiles ++ [t] }
/-- A listed context arrives by STEP (05 R175). -/
def Group.arriveCtx (g : Group) (dc c : Nat) : Group := { (g.note dc (1024 + c) false) with arrCtxs := g.arrCtxs ++ [c] }
/-- A Mill arrival on behalf of a leading tile: at most the declared count in a step, the rest carried (06 R202). -/
def Group.arriveMill (g : Group) (dc leader : Nat) : Group :=
  if g.arrGangs < g.gangs then { (g.note dc leader true) with arrGangs := g.arrGangs + 1 }
  else { g with carry := g.carry ++ [leader] }

/-- A tile's Mill arrival group (06 R201). -/
def Job.millGroup (j : Job) (t : Nat) : Option Nat :=
  (List.range 64).find? fun g => (j.group g).tiles.contains t && decide (0 < (j.group g).gangs)

/-- The arrival sets empty for the next step; carried Mill arrivals count at the completion (06 R202, 14 R399). -/
def Group.next (g : Group) (dc : Nat) : Group :=
  let e : Group :=
    { g with count := (g.count + 1) % 2 ^ 40, arrTiles := [], arrCtxs := [], arrGangs := 0, carry := g.carry.drop g.gangs
             effect := [], first := none, lastArr := none }
  (g.carry.take g.gangs).foldl (fun g leader => { (g.note dc leader true) with arrGangs := g.arrGangs + 1 }) e

/-! ## Settling stepped regions -/

/-- The regions of a table that a group binds. -/
def Stepped.bound (st : Stepped) (g : Nat) : List (Nat × Word) :=
  ((List.range 16).map fun i => (i, SMap.get st.tab i)).filter fun x => rgValid x.2 && rgGroup x.2 == g

/-- The collisions of a tile's regions bound to a group, as report entries (12 R353). -/
def State.tileCollisions (s : State) (t g : Nat) : List (Bool × Nat × Nat × Nat × List Nat) :=
  let st := (s.tileAt t).stepped
  (st.bound g).flatMap fun x => (collisions s.pt.mere (t * 2 ^ 21) st x.1 x.2).map fun y => (false, t, x.1, y.1, y.2)

/-- The collisions of a core's regions bound to a group. -/
def State.coreCollisions (s : State) (c g : Nat) : List (Bool × Nat × Nat × Nat × List Nat) :=
  let st := (s.coreAt c).stepped
  (st.bound g).flatMap fun x => (collisions s.pt.loc (c * 2 ^ 18) st x.1 x.2).map fun y => (true, c, x.1, y.1, y.2)

/-- The regions of a tile bound to a group settle (08 R265). -/
def State.settleTile (t g : Nat) (s : State) : State :=
  ((s.tileAt t).stepped.bound g).foldl (fun s x =>
    let r := settleRegion s.pt.mere (t * 2 ^ 21) (s.tileAt t).stepped x.1 x.2
    (s.onPt fun p => Part.settlePoison (.mere t) (s.tileAt t).stepped x.1 x.2 { p with mere := r.1 }).onTileAt t fun y =>
      { y with stepped := r.2 }) s

/-- The regions of a core bound to a group settle (08 R265). -/
def State.settleCore (c g : Nat) (s : State) : State :=
  ((s.coreAt c).stepped.bound g).foldl (fun s x =>
    let r := settleRegion s.pt.loc (c * 2 ^ 18) (s.coreAt c).stepped x.1 x.2
    (s.onPt fun p => Part.settlePoison (.loc c) (s.coreAt c).stepped x.1 x.2 { p with loc := r.1 }).onCoreAt c fun y =>
      { y with stepped := r.2 }) s

/-! ## Completion -/

/-- The imbalance record of a completion (14 R399). -/
def bellRecord (count g : Nat) (grp : Group) (stop lost : Bool) (tb : Nat) : BitVec 512 :=
  let f := grp.first.getD (0, 0)
  let l := grp.lastArr.getD (0, 0)
  let n := grp.arr
  let flags := (if l.2 % 2 = 1 then 1 else 0) + (if stop then 2 else 0) + (if lost then 4 else 0)
  BitVec.ofNat 512 (ofBytes (toBytes 8 count ++ toBytes 1 g ++ toBytes 1 flags ++ toBytes 2 (l.2 / 2) ++ toBytes 2 grp.nmem
    ++ toBytes 2 0 ++ toBytes 8 f.1 ++ toBytes 8 l.1 ++ toBytes 8 (f.2 - n * f.1) ++ toBytes 8 tb))

/-- A Bell record joins the log of 32,768 (14 R399). -/
def Job.logBell (j : Job) (r : BitVec 512) : Job :=
  { j with bellLog := (j.bellLog ++ [r]).drop (j.bellLog.length + 1 - 32768), bellSeq := j.bellSeq + 1 }

/-- The triggers that wait for this group's completion become its stop (14 R389): the group, and how many there are. -/
def Debug.claim (d : Debug) (grp : Group) (g : Nat) : Debug × Nat :=
  let mine := fun (w : Bool × Nat × Nat) => if w.1 then grp.tiles.contains w.2.1 else grp.ctxs.contains w.2.1
  let l := d.want.filter mine
  let n := l.length + (d.wantGroups.filter fun x => x == g).length
  if n = 0 then (d, 0)
  else
    ({ d with want := d.want.filter fun w => !mine w, wantGroups := d.wantGroups.filter fun x => x != g
              due := d.due ++ [(g, n, ((l.head?).map fun w => w.2.2).getD 0)] }, n)

/-- A step group completes (01 R35): its COUNT rises, the Bell writes its record, a requested debug stop is bound to the
completion, and the stepped regions that lie on no member tile settle at once. -/
def State.completeStep (g : Nat) (s : State) : State :=
  let grp := s.job.group g
  let dc := s.job.dc
  let claim := (s.job.debug).map fun d => d.claim grp g
  let n := (claim.map Prod.snd).getD 0
  let rec_ := bellRecord ((grp.count + 1) % 2 ^ 40) g grp (n != 0) (decide (32768 ≤ s.job.bellSeq)) s.job.tb
  let t := s.onJob fun j =>
    { ((j.logBell rec_).onGroup g fun x => x.next dc) with debug := claim.map Prod.fst }
  let u := (s.job.cores.map Prod.fst).foldl (fun t c => t.settleCore c g) t
  ((s.job.tiles.map Prod.fst).filter fun x => !grp.tiles.contains x).foldl (fun t x => t.settleTile x g) u

/-- The collisions that the completion of a group meets at once (08 R265): those of cores and of tiles that are no
members; where there are some, those of member tiles as they stand are reported too. -/
def State.stepCollisions (s : State) (g : Nat) : List (Bool × Nat × Nat × Nat × List Nat) :=
  let grp := s.job.group g
  let own := (s.job.cores.map Prod.fst).flatMap (fun c => s.coreCollisions c g)
    ++ ((s.job.tiles.map Prod.fst).filter fun x => !grp.tiles.contains x).flatMap fun t => s.tileCollisions t g
  if own = [] then [] else own ++ grp.tiles.flatMap fun t => s.tileCollisions t g

/-- A collision fault at a step (08 R265, 12 R342, R352): a gang stop whose origin is the lowest colliding tile, or else
the lowest colliding core. -/
def State.collide (l : List (Bool × Nat × Nat × Nat × List Nat)) (detail : BitVec 8) (s : State) : State :=
  let least := fun (k : Bool) => (l.filter fun x => x.1 == k).foldl (fun (m : Option Nat) x =>
    match m with
    | none => some x.2.1
    | some y => some (Nat.min y x.2.1)) none
  let o := match least false with
    | some t => Origin.tile t
    | none => .core ((least true).getD 0)
  (s.onJob fun j => { j with collisions := j.collisions ++ l.filter fun x => !j.collisions.contains x }).gangStop o 0x10#8 detail 0#8 0#64

/-- DETAIL of a step collision (12 R342): 3 when every colliding word was marked by a timed write, else 2. -/
def State.collisionDetail (s : State) (l : List (Bool × Nat × Nat × Nat × List Nat)) : BitVec 8 :=
  let marked := fun (x : Bool × Nat × Nat × Nat × List Nat) =>
    let st := if x.1 then (s.coreAt x.2.1).stepped else (s.tileAt x.2.1).stepped
    st.marks.any fun m => m.1 == x.2.2.1 && m.2.1 == x.2.2.2.1
  if l.all marked then 0x03#8 else 0x02#8

/-- STEP_GROUP_COMPLETE (01 R35): when every arrival of the present step is made, and no stop is in force. -/
def execStepGroupComplete (g : BitVec 6) (s : State) : Out :=
  let grp := s.job.group g.toNat
  .next (
    if grp.nmem = 0 ∨ grp.arr < grp.nmem ∨ s.job.stop.isSome = true then s
    else
      match s.stepCollisions g.toNat with
      | [] => s.completeStep g.toNat
      | l => s.collide l (s.collisionDetail l))

/-! ## Effect on a tile (07 R238, 01 R26) -/

/-- A tile writes its step record and clears TSTAT bits 3:0 (01 R25, R26). -/
def Tile.stepRecord (t : Tile) (g count : Nat) : Tile :=
  let stat : BitVec 4 := t.tstat.extractLsb' 0 4
  let hist : BitVec 4 := t.srec.extractLsb' 4 4 ||| stat
  { t with
    srec := (BitVec.ofNat 40 count ++ BitVec.ofNat 6 g ++ 0#2 ++ t.tstat.extractLsb' 8 8 ++ hist ++ stat : BitVec 64)
    tstat := t.tstat &&& 0xFFFFFFFFFFFFFFF0#64 }

/-- The completion of a step takes effect on a tile at the start of its tc t + D (07 R238): its regions settle, it writes
its step record, and, on the lowest member tile, a debug stop bound to the completion falls (14 R388). -/
def State.tileEffect (r : TStepRun) (s : State) : State :=
  let t := s.focus.tile
  let u := ((s.settleTile t r.g).onTl fun x =>
      { (x.stepRecord r.g r.need) with tsteps := x.tsteps.filter fun y => y != r }).onJob fun j =>
    j.onGroup r.g fun x => { x with effect := x.effect ++ [(t, r.due)] }
  let grp := s.job.group r.g
  match ((s.job.debug).bind fun d => d.due.find? fun x => x.1 == r.g) with
  | some x =>
    if (grp.tiles.all fun y => decide (t ≤ y)) && !u.job.ending then
      let v := ((u.gangStop (.tile t) 0x21#8 0#8 0#8 0#64).onDebug fun d =>
        { d with inForce := true, gang := true
                 due := if grp.ctxs = [] then d.due.filter fun y => y != x else d.due.map fun y => if y = x then (r.g, 0, 0) else y })
      v.recordStop (eventAux r.g x.2.1 (grp.count % 2 ^ 48)) true t x.2.2
    else u
  | none => u

/-- The collisions of the member tiles that end the tc before their t + D now (12 R352, R353). -/
def State.dueCollisions (s : State) (g : Nat) : List (Bool × Nat × Nat × Nat × List Nat) :=
  let grp := s.job.group g
  (grp.tiles.filter fun t => (s.tileAt t).tsteps.any fun r =>
      r.g == g && decide (r.due ≤ s.job.scyc t + 1) && decide (r.need ≤ grp.count)).flatMap fun t => s.tileCollisions t g

/-- Whether a collision that has stopped the partition is one of a region bound to group g (08 R265). -/
def State.stepBlocked (s : State) (g : Nat) : Bool :=
  s.job.stop.isSome && s.job.collisions.any fun x =>
    let st := if x.1 then (s.coreAt x.2.1).stepped else (s.tileAt x.2.1).stepped
    rgGroup (SMap.get st.tab x.2.2.1) == g

/-- A tile raises the permanent hold itself, unless one reaches it before its next tc or has done so. -/
def State.holdTile (t : Nat) (s : State) : State :=
  if (s.job.node t).stop.isSome || s.job.holds.any (fun h => h.node == t && h.len.isNone && decide (h.due ≤ s.job.tb + 1)) then s
  else s.raiseHold t none

/-- A step that collides takes effect on none of the member tiles that have still to begin their t + D (07 R238, 08 R265; 12 R353): the
collision stops the partition, and each such tile stops itself before its t + D. -/
def State.stepStops (t g : Nat) (s : State) : State :=
  match s.dueCollisions g with
  | [] => if s.stepBlocked g then s.holdTile t else s
  | l => (s.collide l (s.collisionDetail l)).holdTile t

/-- The end of the tc before a tile's t + D (07 R238, 11 R326, R337): a completion that has not come raises a frame hold;
one whose next planes collide stops the partition. -/
def State.tileDue (r : TStepRun) (s : State) : State :=
  let t := s.focus.tile
  let cond := FrameCond.step t r.g r.need
  if (s.job.group r.g).count < r.need then
    if s.job.frames.any fun f => f.cond == cond then s
    else
      (s.raiseHold t (some 32)).onJob fun j =>
        { j with frames := j.frames ++ [{ node := t, test := j.tb + 32 + (j.node t).owed, cond := cond }] }
  else s.stepStops t r.g

/-- STEP_TAKES_EFFECT (07 R238): on the tile in focus, what its TSTEP to g meets at its tc t + D, or at the end of the tc
before. A step of colliding regions takes no effect on the tile (08 R265). -/
def execStepTakesEffect (g : BitVec 6) (s : State) : Out :=
  let now := s.job.scyc s.focus.tile
  .next (
    match s.tl.tsteps.find? fun r => r.g == g.toNat && decide (r.due ≤ now + 1) with
    | none => s
    | some r =>
      if now < r.due then s.tileDue r
      else if (s.job.group r.g).count < r.need then s
      else if s.tileCollisions s.focus.tile r.g = [] && !s.stepBlocked r.g then s.tileEffect r
      else s.stepStops s.focus.tile r.g)

/-! ## STEP and its completion (05 R175) -/

/-- Whether a completion has reached contexts (05 R175): it has taken effect on every member tile, and every static write
burst placed before that tile's t + D has been performed. -/
def Job.stepReached (j : Job) (g : Nat) : Bool :=
  let grp := j.group g
  grp.tiles.all fun t =>
    match grp.effect.find? fun x => x.1 == t with
    | none => false
    | some x =>
      (j.tile t).bursts.all fun b =>
        match b.kind with
        | .st | .sct _ => b.performed || b.null || decide (x.2 ≤ b.slot)
        | _ => true

/-- The STEP of context `k` of core `c` completes (05 R175, 08 R271): the count of completed STEPs, G[d], the acquire and
the marks of the regions it holds; with a debug stop it takes STATE 5 in place of becoming ready (14 R388). -/
def State.stepDone (c k : Nat) (g d : BitVec 6) (halt : Bool) (s : State) : State :=
  let count := (s.job.group g.toNat).count
  (s.onJob fun j => j.unmark (ctxWriter c k) none).onCoreAt c fun (x : Core) =>
    let y := x.acquire k (some .partition)
    let z := if halt then y.release k else y
    z.onCtx k fun (v : Ctx) =>
      let w := { ((v.wg d (BitVec.ofNat 64 count)).advance s.pt) with
        steps := v.steps + 1, arrivals := v.arrivals.filter fun a => a.1 != g.toNat, wait := .none }
      if halt then { w with state := .halted, wait := .debug }
      else { w with state := if v.state = .parked then .ready else v.state }

/-- The debug stop that falls at the completion of group g, its triggers' number and the index of the first (14 R388); beside a fault's
gang stop there is none (R389). -/
def Job.stopDue (j : Job) (g : Nat) : Option (Nat × Nat × Nat) :=
  if j.ending then none else (j.debug).bind fun d => d.due.find? fun x => x.1 == g

/-- STEP (05 R175). An arrival that is still outstanding is not made again; where a debug stop falls at its completion, the wake
stops the context with the other members (R185, 14 R388). -/
def execStep (d : BitVec 6) (g : BitVec 6) (s : State) : Out :=
  let grp := s.job.group g.toNat
  .next (
    if !grp.ctxs.contains s.me then s.fault 0x09#8 0#8 0#64
    else
      match s.cx.arrivals.find? fun a => a.1 == g.toNat with
      | some a =>
        if a.2 ≤ grp.count ∧ s.job.stepReached g.toNat = true ∧ s.job.stopDue g.toNat = none then s.stepDone s.focus.core s.focus.ctx g d false
        else s.park (.step g d)
      | none =>
        let home := s.cr.storesDone s.focus.ctx && (s.job.posts.all fun p => p.src != s.writer)
          && s.job.msgs.all fun m => m.returned || m.src != s.me
        if !home then s.again .stores
        else
          ((s.onJob fun j => j.onGroup g.toNat fun x => x.arriveCtx j.dc s.me).onCx fun c =>
            { c with arrivals := c.arrivals ++ [(g.toNat, grp.count + 1)] }).park (.step g d))

/-- The member contexts of group g whose outstanding arrival a completion has ended, with the register of the STEP in which one
is parked; none for one that runs a handler meanwhile (05 R175). -/
def State.stepEnds (s : State) (g : Nat) : List (Nat × Option (BitVec 6)) :=
  let grp := s.job.group g
  grp.ctxs.filterMap fun n =>
    let c := s.ctxAt (n / 11) (n % 11)
    if !(c.arrivals.any fun a => a.1 == g && decide (a.2 ≤ grp.count)) then none
    else
      match c.wait with
      | .step g' d => if g'.toNat = g then some (n, some d) else some (n, none)
      | _ => some (n, none)

/-- One member at a completion (05 R175): parked in its STEP, it goes on; with a debug stop, it stops there, and one that runs a
handler stops where it stands (05 R185, 14 R388). -/
def State.stepWakes (g : BitVec 6) (halt : Bool) (s : State) (x : Nat × Option (BitVec 6)) : State :=
  match x.2 with
  | some d => if halt || !(s.coreAt (x.1 / 11)).stopped then s.stepDone (x.1 / 11) (x.1 % 11) g d halt else s
  | none => if halt && (s.ctxAt (x.1 / 11) (x.1 % 11)).state != .halted then s.stopCtx (x.1 / 11) (x.1 % 11) else s

/-- STEP_COMPLETION_WAKE (05 R175; 14 R388): every member context that waits on the completed step goes on. Where a debug stop
falls at the completion, every member stops, on a core that a gang stop has reached too; beside a fault's gang stop none is
reported (R389). -/
def execStepCompletionWake (g : BitVec 6) (s : State) : Out :=
  let grp := s.job.group g.toNat
  let due := s.job.stopDue g.toNat
  let ends := s.stepEnds g.toNat
  .next (
    if ends = [] ∨ s.job.stepReached g.toNat = false then s
    else
      let t := ends.foldl (State.stepWakes g due.isSome) s
      match due with
      | none => t
      | some x =>
        let u := t.onDebug fun d => { d with due := d.due.filter fun y => y != x, inForce := true }
        if x.2.1 = 0 then u
        else u.recordStop (eventAux g.toNat x.2.1 (grp.count % 2 ^ 48)) false ((ends.head?.map Prod.fst).getD 0) x.2.2)

end Sys2Proof.Machine
end

