-- ==== Sys2Proof/Machine/Stream.lean ====
section
/-!
DEFINITION. Layout records and stream-mode registers (05 R165-R167): SMODE, SOFF and the refill of a pop. Element accesses
of the copy unit are checked as the issuing context's own (R169).
-/

namespace Sys2Proof.Machine

/-! ## Layout records (05 R165) -/

/-- A count and a stride of a record. -/
def layCnt (v : BitVec 512) (i : Nat) : Nat := (v.extractLsb' (64 + 32 * i) 32).toNat
def layStr (v : BitVec 512) (i : Nat) : Int := (v.extractLsb' (192 + 64 * i) 64).toInt

/-- A layout record as read (05 R165). -/
def readLayout (v : BitVec 512) : Layout :=
  let kind := (v.extractLsb' 0 8).toNat
  let nd := (v.extractLsb' 8 8).toNat
  let elem := (v.extractLsb' 32 32).toNat
  let cnt := (List.range 4).map (layCnt v)
  let str := (List.range 4).map (layStr v)
  let common := v.extractLsb' 16 16 == 0#16 && v.extractLsb' 448 64 == 0#64 && decide (1 ≤ elem) && decide (elem ≤ 65536)
  if !common then .bad
  else if kind = 0 then
    if 1 ≤ nd ∧ nd ≤ 4 ∧ (cnt.take nd).all (fun c => c != 0) = true ∧ (cnt.drop nd).all (fun c => c == 0) = true
        ∧ (cnt.drop 2).all (fun c => decide (c ≤ 65535)) = true then
      .affine { elem := elem, cnt := cnt.take nd, str := str.take nd }
    else .bad
  else if kind = 1 then
    if nd = 0 ∧ (cnt.drop 1).all (fun c => c == 0) = true ∧ (str.drop 1).all (fun x => x == 0) = true then
      .indexed elem (layCnt v 0) (layStr v 0)
    else .bad
  else .bad

/-- The coordinates of element e (05 R165), filled up with zeros. -/
def coords (a : Affine) (e : Nat) : List Nat :=
  let go := a.cnt.foldl (fun (r : List Nat × Nat) c => (r.1 ++ [r.2 % c], r.2 / c)) ([], e)
  (go.1 ++ [0, 0, 0, 0]).take 4

/-- The byte offset of element e. -/
def Affine.offset (a : Affine) (e : Nat) : Int :=
  ((coords a e).zip a.str).foldl (fun (x : Int) y => x + (y.1 : Int) * y.2) 0

/-! ## Element accesses of the copy unit (05 R169; 04 R136) -/

/-- What an element access gives: its result, the fault of the element, an uncorrectable granule or table entry (08 R261), or
nothing yet, where the access cannot be performed in this tc (11 R331). -/
inductive Elem (α : Type) where
  | ok (v : α) (s : State)
  | bad (cause detail : BitVec 8) (va : Nat)
  | broken (detail : BitVec 8) (va : Nat)
  | walker (detail : BitVec 8) (va : Nat)
  | later

/-- One element access after another. -/
def Elem.andThen {α β : Type} (x : Elem α) (f : α → State → Elem β) : Elem β :=
  match x with
  | .ok v s => f v s
  | .bad c d va => .bad c d va
  | .broken d va => .broken d va
  | .walker d va => .walker d va
  | .later => .later

/-- An element's address from a pointer and a byte offset (04 R136, step 1): a reserved tag or an address out of range
is a tag fault. -/
def elemAddr (ptr : Word) (off : Int) (s : State) : Elem Nat :=
  let a : Int := (ptrAddr ptr : Int) + off
  match Fmt.ofCode (tagFmt ptr) with
  | none => .bad 0x0D#8 0#8 (a % 2 ^ 56).toNat
  | some _ => if 0 ≤ a ∧ a < 2 ^ 56 then .ok a.toNat s else .bad 0x0D#8 0#8 (a % 2 ^ 56).toNat

/-- The fault of a check at the place of an element access. -/
def Elem.met {α : Type} (m : Met) (va : Nat) (go : Elem α) : Elem α :=
  match m with
  | .none => go
  | .window => .bad 0x0B#8 0#8 va
  | .capability => .bad 0x0A#8 0#8 va
  | .race => .bad 0x11#8 0#8 va
  | .broken d => .broken d va
  | .collision => .bad 0x10#8 0x01#8 va

/-- The translated access of an element, for the context in focus. A store of it carries the CTX.PRIO of the context at the time of the
element (DESIGN CHOICE, log 105). -/
def State.elemRange (u : Use) (ptr : Word) (va len : Nat) (data : List Byte) (s : State) : Elem Acc :=
  match s.range u va len with
  | .ok pa pa2 nc t =>
    .ok { va := va, pa := pa, pa2 := pa2, len := len, fmt := tagFmt ptr, nc := nc, data := data, keep := [], parts := [], got := []
          writer := t.writer, prio := t.cx.prio } t
  | .trans d => .bad 0x08#8 d va
  | .perm d => .bad 0x09#8 d va
  | .broken x d => .walker d x

/-- An element read at its home (09 R275, R284): the stores that precede its fork have been performed there, and no queued
store shows. -/
def State.elemRead (ptr : Word) (va len : Nat) (s : State) : Elem (List Byte) :=
  (s.elemRange .load ptr va len []).andThen fun a t =>
    if t.deferred a true then .later
    else
      Elem.met (t.loadMet a) va
        (.ok ((List.range len).map fun i => t.homeByte (t.pt.home (a.addr i)))
          ((t.watch t.focus.core t.focus.ctx va len true false).noteFills a))

/-! ## Stream mode (05 R166, R167) -/

/-- The bytes of a pattern whose format and ELEM pair as 05 R166 allows; `dreg` for a D register. -/
def streamPair (f : Fmt) (elem : Nat) (dreg : Bool) : Bool :=
  match f with
  | .raw => decide (elem ≤ if dreg then 4 else 8)
  | .fp4 | .t6 => false
  | .int64 => !dreg && elem == 8
  | .uint8 | .int8 | .int16 | .int32 | .bf16 | .fp32 | .e4m3 | .e5m2 | .t8 | .e8m0 => elem == fmtBytes f

/-- The record that SMODE may take: affine, well formed, and paired with the pointer's tag (05 R166). -/
def streamPattern (v : BitVec 512) (base : Word) (dreg : Bool) : Option Affine :=
  match readLayout v, Fmt.ofCode (tagFmt base) with
  | .affine a, some f => if tagLog base = 0 ∧ streamPair f a.elem dreg = true then some a else none
  | _, _ => none

/-- The register behind a stream index is a D register. -/
def streamD (x : Nat) : Bool := decide (8 ≤ x)

/-- The present value of the register behind stream index `x`. -/
def Ctx.streamReg (c : Ctx) (x : Nat) : BitVec 512 :=
  if x < 8 then (SMap.get c.g (48 + x)).setWidth 512 else SMap.get c.d (16 + x)

/-- SOFF (05 R166): the saved value returns and ACT clears; END stays (01 R29). -/
def Ctx.streamOff (c : Ctx) (x : Nat) : Ctx :=
  if c.strmAct.getLsbD x then
    let v := (SMap.get c.strms x).saved
    let c := { c with strmAct := c.strmAct &&& ~~~BitVec.ofNat 16 (2 ^ x), strms := SMap.erase c.strms x }
    if x < 8 then { c with g := SMap.set c.g (48 + x) (v.setWidth 64) } else { c with d := SMap.set c.d (16 + x) v }
  else c

/-- SMODE takes effect: a stream descriptor at element 0 with the register's value saved, and ACT set. -/
def Ctx.streamOn (c : Ctx) (x : Nat) (handle : BitVec 8) (pat : Affine) (base : Word) (fork : Nat) : Ctx :=
  let c := c.streamOff x
  { c with
    strmAct := c.strmAct ||| BitVec.ofNat 16 (2 ^ x)
    strms := upd c.strms x fun _ =>
      { handle := handle, pat := pat, base := base, pos := 0, saved := c.streamReg x, ahead := [], read := 0, lanes := 0#512
        fork := fork, broken := false } }

/-- SMODE (05 R166): the context yields while the record is read. -/
def execSmode (x : BitVec 4) (a b : BitVec 6) (s : State) : Out :=
  .next (s.withSrc (Ctx.srcG2 a b) fun r s => s.park (.pend (.smode x (r.1.extractLsb' 0 8) r.2)))

/-- The record of SMODE has been read (05 R166). FREC1 of its tag fault is zero: no access is formed. -/
def State.smodeDone (x : BitVec 4) (handle : BitVec 8) (base : Word) (s : State) : State :=
  match streamPattern (SMap.get s.hm.lrec handle.toNat) base (streamD x.toNat) with
  | some pat => (s.onCx fun c => c.streamOn x.toNat handle pat base s.cr.nextTicket).complete
  | none => s.deliverLate (State.fault 0x0D#8 0#8 0#64)

/-- SOFF (05 R166). -/
def execSoff (x : BitVec 4) (s : State) : Out := .next ((s.onCx fun c => c.streamOff x.toNat).advance)

/-- The alignment unit of a stream element: the format's width; a raw element of any ELEM has none. DEDUCED, log 35. -/
def streamUnit (base : Word) : Nat :=
  match Fmt.ofCode (tagFmt base) with
  | some .raw | none => 1
  | some f => fmtBytes f

/-- The value of one element for its register (05 R166). -/
def streamValue (base : Word) (dreg : Bool) (bytes : List Byte) : BitVec 512 :=
  match Fmt.ofCode (tagFmt base) with
  | some .int8 | some .int16 | some .int32 =>
    if dreg then ((loadValue .sext bytes).setWidth 32).setWidth 512 else loadValue .sext bytes
  | some .raw | some .uint8 | some .int64 | none => loadValue .zext bytes
  | some f => if dreg then loadValue (.toFp32 f none) bytes else loadValue .zext bytes

/-- Element `e` of a pattern read as an event of its own (09 R275), as the value of its lane. -/
def State.refillElem (d : Strm) (dreg : Bool) (e : Nat) (s : State) : Elem (BitVec 512) :=
  (elemAddr d.base (d.pat.offset e) s).andThen fun va s =>
    if d.broken then .bad 0x12#8 3#8 va
    else if va % streamUnit d.base ≠ 0 then .bad 0x0C#8 0#8 va
    else (s.elemRead d.base va d.pat.elem).andThen fun bytes s => .ok (streamValue d.base dreg bytes) s

/-- One pop of stream register x joins those refilled ahead, and a context that waits for it may issue again. -/
def State.refilled (x : Nat) (r : Refill) (s : State) : State :=
  s.onCx fun c =>
    let c := { c with strms := upd c.strms x fun y => { y with ahead := y.ahead ++ [r], read := 0, lanes := 0#512 } }
    if c.wait = .stream (BitVec.ofNat 4 x) then c.wake else c

/-- Whether a refill of stream register x is due: at most 8 pops ahead, and none past a held fault or the end. -/
def Ctx.refillDue (c : Ctx) (x : Nat) : Bool :=
  let d := SMap.get c.strms x
  c.strmAct.getLsbD x && decide (d.ahead.length < 8) && d.ahead.all Refill.isData
    && decide (d.pos + popWidth x * d.ahead.length < d.pat.count)

/-- A stream register of a context in the order in which the copy unit serves refills (10 R318). -/
def refillKey (g x : Nat) : Nat := 16 * g + x

/-- The core in focus gives a lane of the pop that is being read: the pop joins those ahead with its last element. -/
def State.gotLane (i : Nat) (d : Strm) (e : Nat) (v : BitVec 512) (s : State) : State :=
  let lanes := d.lanes ||| (v <<< (32 * d.read))
  if d.read + 1 = popWidth i ∨ d.pat.count ≤ e + 1 then s.refilled i (.data lanes)
  else s.onCx fun c => { c with strms := upd c.strms i fun y => { y with read := d.read + 1, lanes := lanes } }

/-- STREAM_REFILL (05 R167): the copy unit reads the next element for stream register x of the context in focus, once the
stores that precede SMODE have been performed (09 R288). A fault that it meets, an uncorrectable granule among them (08 R261),
is held for the instruction that pops the element; an uncorrectable table entry stops the partition. -/
def execStreamRefill (x : BitVec 4) (s : State) : Out :=
  let i := x.toNat
  let d := SMap.get s.cx.strms i
  let e := d.pos + popWidth i * d.ahead.length + d.read
  .next (
    if !s.cx.refillDue i || s.cr.stopped || !s.cr.storesBefore s.focus.ctx d.fork then s
    else
      let s := s.onHm fun h => { h with refillAt := refillKey s.me i + 1 }
      match s.refillElem d (streamD i) e with
      | .ok v t => t.gotLane i d e v
      | .bad c dt va => s.refilled i (.fault c dt (BitVec.ofNat 64 va))
      | .broken dt va => s.refilled i (.fault 0x18#8 dt (BitVec.ofNat 64 va))
      | .walker dt va => s.gangStop (.ctx s.me) 0x18#8 dt 0#8 (BitVec.ofNat 64 va)
      | .later => s)

end Sys2Proof.Machine
end

