-- ==== Sys2Proof/Machine/Copy.lean ====
section
/-!
DEFINITION. The hamlet copy unit (05 R168-R174; 01 R33; 09 R287, R297; 10 R318): COPY, GATHER, SCATTER, RCOPY and their
answers, the movement of one element, the completion of an operation, and the delivery of a copy fault.
-/

namespace Sys2Proof.Machine

/-! ## Issue -/

/-- The lowest free operation id of a hamlet (10 R318). -/
def Hamlet.freeOp (h : Hamlet) : Option Nat := (List.range 16).find? fun i => (SMap.get h.ops i).isNone

/-- The descriptor and pointers of a copy instruction (05 R168). -/
def copyOpOf (kind : CopyKind) (core ctx : Nat) (dst src desc idx : Word) (fork : Nat) : CopyOp :=
  { kind := kind, core := core, ctx := ctx, dst := dst, src := src, idx := idx, fork := fork, row := none, buf := none
    hd := desc.extractLsb' 0 8, hs := desc.extractLsb' 8 8, tag := desc.extractLsb' 16 16
    begun := false, dlay := .bad, slay := .bad, next := 0, applied := 0, skipped := 0, susp := none
    aborted := false, broken := false, badLayout := false }

/-- A copy instruction issues (05 R169, 10 R318): it takes the lowest free id, or yields while its request waits. G[c + 1] of an
indexed one is no source field: an active stream register there is read as it is stored, without a pop (DESIGN CHOICE, log 106). -/
def State.copyIssue (kind : CopyKind) (a b c : BitVec 6) (indexed : Bool) (s : State) : State :=
  s.withSrc (Ctx.srcG3 a b c) fun r s =>
    let idx := if indexed then s.cx.rg (c + 1#6) else 0#64
    let o := copyOpOf kind s.focus.core s.focus.ctx r.1 r.2.1 r.2.2 idx s.cr.nextTicket
    match s.hm.freeOp with
    | some i => (s.onHm fun h => { h with ops := SMap.set h.ops i (some o) }).advance
    | none => (s.onHm fun h => { h with reqs := h.reqs ++ [o] }).park .copyId

/-- COPY (05 R168). -/
def execCopy (a b c : BitVec 6) (s : State) : Out := .next (s.copyIssue .copy a b c false)
/-- GATHER (05 R168). -/
def execGather (a b c : BitVec 6) (s : State) : Out := .next (s.copyIssue .gather a b c true)
/-- SCATTER (05 R168). -/
def execScatter (a b c : BitVec 6) (s : State) : Out := .next (s.copyIssue .scatter a b c true)
/-- RCOPY (05 R168). -/
def execRcopy (op : RcOp) (idx : Bool) (a b c : BitVec 6) (s : State) : Out := .next (s.copyIssue (.rcopy op idx) a b c idx)

/-! ## Answers (05 R174) -/

/-- The coordinates of an element on one side (05 R173): an indexed side has i0 = e. -/
def Layout.coords (l : Layout) (e : Nat) : List Nat :=
  match l with
  | .affine a => Machine.coords a e
  | _ => [e, 0, 0, 0]

/-- The number of elements of a layout (05 R168). -/
def Layout.count : Layout → Nat
  | .affine a => a.count
  | .indexed _ n _ => n
  | .bad => 0

/-- ELEM of a layout (05 R165). -/
def Layout.elem : Layout → Nat
  | .affine a => a.elem
  | .indexed b _ _ => b
  | .bad => 0

/-- The elements that CSKIP.ROW skips from element e on (05 R174): those of the rest of its row; one on an indexed
side. -/
def Layout.rowRest (l : Layout) (e : Nat) : Nat :=
  match l with
  | .affine a =>
    let c0 := (a.cnt.head?).getD 1
    c0 - e % c0
  | _ => 1

/-- The faulting side's layout of a suspended operation: DETAIL bit 6 names the destination (05 R173). -/
def CopyOp.side (o : CopyOp) (h : HeldFault) : Layout := if h.detail.getLsbD 6 then o.dlay else o.slay

/-- The element is attempted again, from its first read. -/
def CopyOp.retry (o : CopyOp) : CopyOp := { o with susp := none, row := none, buf := none }

/-- The element, or the rest of its row, is skipped. -/
def CopyOp.skip (row : Bool) (o : CopyOp) : CopyOp :=
  match o.susp with
  | some h =>
    let n := if row then (o.side h).rowRest o.next else 1
    { o with susp := none, row := none, buf := none, next := o.next + n, skipped := o.skipped + n }
  | none => o

/-- An answer of the context in focus to operation `id` (05 R174): without effect unless the operation is its own and
suspended. -/
def State.answer (id : Nat) (f : CopyOp → CopyOp) (s : State) : State :=
  match SMap.get s.hm.ops id with
  | some o =>
    if o.core = s.focus.core ∧ o.ctx = s.focus.ctx ∧ o.susp.isSome = true then s.onHm fun h => h.onOp id f else s
  | none => s

/-- An answer instruction: the operation id is G[a][3:0]. -/
def State.answerBy (a : BitVec 6) (f : CopyOp → CopyOp) (s : State) : State :=
  s.withSrc (fun c => c.srcG a) fun v s => (s.answer (v.toNat % 16) f).advance

/-- CRETRY (05 R174). -/
def execCretry (a : BitVec 6) (s : State) : Out := .next (s.answerBy a CopyOp.retry)
/-- CSKIP (05 R174). -/
def execCskip (row : Bool) (a : BitVec 6) (s : State) : Out := .next (s.answerBy a (CopyOp.skip row))
/-- CABORT (05 R174). -/
def execCabort (a : BitVec 6) (s : State) : Out := .next (s.answerBy a CopyOp.abort)

/-! ## Elements -/

/-- Whether the layouts pair as the kind wants (05 R168), with the tags of the pointers and of the index list. That RCOPY wants
equal element counts, as COPY, GATHER and SCATTER do, and that a wrong tag ends the operation as a record that fails does, are
DESIGN CHOICES, log 99. -/
def CopyOp.pairs (o : CopyOp) : Bool :=
  let equal := o.dlay.count == o.slay.count && o.dlay.elem == o.slay.elem
  let listTag := tagFmt o.idx == 4#5 || tagFmt o.idx == 5#5
  let redTag := tagFmt o.dst == tagFmt o.src &&
    match Fmt.ofCode (tagFmt o.dst) with
    | some .int32 | some .fp32 => o.dlay.elem == 4
    | some .int64 => o.dlay.elem == 8
    | _ => false
  match o.kind, o.dlay, o.slay with
  | .copy, .affine _, .affine _ => equal
  | .gather, .affine _, .indexed _ _ _ => equal && listTag
  | .scatter, .indexed _ _ _, .affine _ => equal && listTag
  | .rcopy _ false, .affine _, .affine _ => equal && redTag
  | .rcopy _ true, .indexed _ _ _, .affine _ => equal && redTag && listTag
  | _, _, _ => false

/-- The operation begins: the unit reads HD and HS (05 R169). -/
def CopyOp.begin_ (h : Hamlet) (o : CopyOp) : CopyOp :=
  let p : CopyOp := { o with begun := true, dlay := readLayout (SMap.get h.lrec o.hd.toNat), slay := readLayout (SMap.get h.lrec o.hs.toNat) }
  { p with badLayout := !p.pairs }

/-- Whether nothing is left to move: every element done, or the operation ended early. -/
def CopyOp.beyond (o : CopyOp) : Bool := o.aborted || o.broken || o.badLayout || (o.begun && decide (o.dlay.count ≤ o.next))

/-- Whether the present element has begun: a stop lets it end, and no other begin (12 R350). -/
def CopyOp.midway (o : CopyOp) : Bool := o.row.isSome || o.buf.isSome

/-- DETAIL of a copy fault (05 R173): the element's own cause, the destination side, the index list. -/
def Elem.side {α : Type} (dst list : Bool) (x : Elem α) : Elem α :=
  match x with
  | .bad c _ va => .bad c ((c &&& 0x3F#8) ||| (if dst then 0x40#8 else 0#8) ||| (if list then 0x80#8 else 0#8)) va
  | y => y

/-- Whether one side of an operation goes through the index list, and that side. -/
def CopyOp.listSide (o : CopyOp) : Option Bool :=
  match o.dlay, o.slay with
  | .indexed _ _ _, _ => some true
  | _, .indexed _ _ _ => some false
  | _, _ => none

/-- The index list's entry for the present element read, as an event of its own (05 R165, 09 R275). -/
def State.copyRow (o : CopyOp) (dst : Bool) (s : State) : Elem Int :=
  let w := if tagFmt o.idx = 4#5 then 4 else 8
  let read : Elem (List Byte) := (elemAddr o.idx (o.next * w : Nat) s).andThen fun va s =>
    if va % w ≠ 0 then .bad 0x0C#8 0#8 va else s.elemRead o.idx va w
  (read.side dst true).andThen fun bytes s =>
    .ok (if w = 4 then (BitVec.ofNat 32 (ofBytes bytes)).toInt else (BitVec.ofNat 64 (ofBytes bytes)).toInt) s

/-- The place of the present element on one side (05 R165, R168): none where the index list names no row. -/
def State.copyPlace (o : CopyOp) (dst : Bool) (s : State) : Elem (Option Nat) :=
  let ptr := if dst then o.dst else o.src
  match (if dst then o.dlay else o.slay) with
  | .affine a => ((elemAddr ptr (a.offset o.next) s).side dst false).andThen fun va s => .ok (some va) s
  | .indexed _ _ stride =>
    let x := o.row.getD (-1)
    if x = -1 then .ok none s
    else ((elemAddr ptr (x * stride) s).side dst false).andThen fun va s => .ok (some va) s
  | .bad => .ok none s

/-- A destination element written, checked as a store of the issuing context (05 R169, 04 R136). -/
def State.elemWrite (ptr : Word) (va : Nat) (data : List Byte) (s : State) : Elem Unit :=
  (s.elemRange .store ptr va data.length data).andThen fun a t =>
    if t.deferred a false then .later
    else if !t.storeFmtOk a then .bad 0x0D#8 0#8 va
    else
      Elem.met (t.storeMet a) va
        (match t.elemPut a with
         | some u =>
           .ok () (((((u.cleared a).markOwned va a.len).noteStored a 0 a.len).mayWriteBack a.pa).noteStores a |>.watch
             u.focus.core u.focus.ctx va a.len false true)
         | none => .bad 0x10#8 0x01#8 va)

/-- The reduction of RCOPY on words of w bytes (05 R168). -/
def rcopyValue (op : RcOp) (fmt : BitVec 5) (w : Nat) (m v : Word) : Word :=
  match op with
  | .add => if fmt = 7#5 then amoNew .fadd w m v else amoNew .add w m v
  | .max => if fmt = 7#5 then amoNew .fmax w m v else amoNew .max w m v
  | .min => if fmt = 7#5 then amoNew .fmin w m v else amoNew .min w m v

/-- The granary slice of an HBM byte, numbered by its pseudo-channel (05 R170). -/
def sliceOf (key : Nat) : Nat := key / 2 ^ 30

/-- RCOPY's read-modify-write at the element's home (05 R168, R170; 09 R297): one atomic step, counted in the flow of its
context. A sequence number that the slice has already applied is dropped. -/
def State.rcopyApply (op : RcOp) (ptr : Word) (va w : Nat) (v : Word) (s : State) : Elem Unit :=
  let fmt := tagFmt ptr
  if s.pt.det && fmt == 7#5 && (match op with | .add => true | _ => false) then .bad 0x11#8 0#8 va
  else if va % w ≠ 0 then .bad 0x0C#8 0#8 va
  else
    (s.elemRange .store ptr va w []).andThen fun a t =>
      if t.deferred a false then .later
      else
      match t.pt.home a.pa with
      | .hbm key =>
        Elem.met (t.storeMet a) va
          (if t.pt.poisoned (.hbm key) then .broken (t.poisonDetail (t.pt.home a.pa)) va
           else
             let m := BitVec.ofNat 64 (ofBytes (t.paBytes a.pa w))
             let seq := t.cx.rcSeq + 1
             let mark := a.writer * 1024 + sliceOf key
             let u := t.onCx fun c => { c with rcSeq := seq }
             if seq ≤ SMap.get u.job.rcMarks mark then .ok () u
             else
               .ok () ((((u.onJob fun j => { j with rcMarks := SMap.set j.rcMarks mark seq }).paPuts a.nc a.pa
                 (toBytes w (atWidth w (rcopyValue op fmt w m v)).toNat)).markOwned va w).noteStored a 0 w |>.noteStore va a.pa
                   |>.watch u.focus.core u.focus.ctx va w true true))
      | _ => .bad 0x09#8 0#8 va

/-- What one event of an element leaves: the element is still under way, or done, and whether it has been applied; an
element of an RCOPY that names no row applies nothing (05 R171). -/
inductive Moved where
  | going (o : CopyOp)
  | done (applied : Bool)

/-- The source bytes of the present element read; a row that the index list does not name gives zeros (05 R168). -/
def State.copySource (o : CopyOp) (s : State) : Elem (List Byte) :=
  match o.kind with
  | .rcopy _ _ =>
    (s.copyPlace o false).andThen fun sa s =>
      let va := sa.getD 0
      let w := o.dlay.elem
      Elem.side false false (if va % w ≠ 0 then .bad 0x0C#8 0#8 va else s.elemRead o.src va w)
  | _ =>
    (s.copyPlace o false).andThen fun sa s =>
      match sa with
      | none => .ok (List.replicate o.slay.elem 0#8) s
      | some va => (s.elemRead o.src va o.slay.elem).side false false

/-- The next event of the present element (05 R168, R169; 09 R275): the index list's entry, the source, or the destination. -/
def State.copyMove (o : CopyOp) (s : State) : Elem Moved :=
  match o.listSide, o.row, o.buf with
  | some dst, none, _ => (s.copyRow o dst).andThen fun x s => .ok (.going { o with row := some x }) s
  | _, _, none =>
    if o.listSide = some true ∧ o.row = some (-1) then .ok (.done (match o.kind with | .rcopy _ _ => false | _ => true)) s
    else (s.copySource o).andThen fun l s => .ok (.going { o with buf := some l }) s
  | _, _, some l =>
    (s.copyPlace o true).andThen fun da s =>
      match o.kind, da with
      | _, none => .ok (.done true) s
      | .rcopy op _, some d =>
        ((s.rcopyApply op o.dst d o.dlay.elem (BitVec.ofNat 64 (ofBytes l))).side true false).andThen fun _ s => .ok (.done true) s
      | _, some d => ((s.elemWrite o.dst d l).side true false).andThen fun _ s => .ok (.done true) s

/-- The record of a copy fault (05 R173). -/
def CopyOp.heldFault (o : CopyOp) (id : Nat) (detail : BitVec 8) (va : Nat) : HeldFault :=
  let l := if detail.getLsbD 6 then o.dlay else o.slay
  let at_ := l.coords o.next
  let i := fun (k : Nat) => (at_[k]?).getD 0
  { op := BitVec.ofNat 4 id, detail := detail, f1 := BitVec.ofNat 64 va
    f2 := (BitVec.ofNat 32 (i 1) ++ BitVec.ofNat 32 (i 0) : BitVec 64)
    f3 := (BitVec.ofNat 16 (i 3) ++ BitVec.ofNat 16 (i 2) ++ o.tag ++ o.hs ++ o.hd : BitVec 64) }

/-- The copy unit acts for the issuer of an operation: the focus moves to its context. -/
def State.asIssuer (o : CopyOp) (s : State) : State := { s with focus := { s.focus with core := o.core, ctx := o.ctx } }

/-- COPY_ELEMENT (05 R169, R172; 10 R318): operation `op` of the hamlet in focus begins once its issuer's earlier stores
have been performed, and then makes the next event of its present element, or suspends at it. Elements are taken in ascending
order, one at a time, so that none after a suspended one is moved (DESIGN CHOICE, log 120). -/
def execCopyElement (op : BitVec 4) (s : State) : Out :=
  let id := op.toNat
  .next (
    match SMap.get s.hm.ops id with
    | none => s
    | some o =>
      if o.susp.isSome || o.beyond || (s.coreAt o.core).stopped && !o.midway then s
      else if !o.begun then
        if (s.coreAt o.core).storesBefore o.ctx o.fork then s.onHm fun h => h.onOp id (CopyOp.begin_ h) else s
      else
        let t := s.asIssuer o
        match t.copyMove o with
        | .ok (.going p) u => u.onHm fun h => h.onOp id fun o => { o with row := p.row, buf := p.buf }
        | .ok (.done applied) u =>
          (u.onHm fun h => h.onOp id fun o =>
            { o with next := o.next + 1, applied := o.applied + (if applied then 1 else 0), row := none, buf := none }).onCr fun c => if applied then Core.bump 5 1 c else c
        | .later => s
        | .bad _ detail va =>
          let f := o.heldFault id detail va
          (t.onHm fun h => h.onOp id fun o => { o with susp := some f }).onCx fun c => { c with held := c.held ++ [f] }
        | .broken detail va | .walker detail va => t.gangStop (.ctx t.me) 0x18#8 detail 0#8 (BitVec.ofNat 64 va))

/-! ## Completion (05 R171) -/

/-- STATUS of a completion (05 R171). -/
def CopyOp.status (o : CopyOp) : Nat :=
  if o.broken then 3 else if o.badLayout then 4 else if o.aborted then 2 else if 0 < o.skipped then 1 else 0

/-- OP of a completion. -/
def CopyKind.num : CopyKind → Nat
  | .copy => 0
  | .gather => 1
  | .scatter => 2
  | .rcopy _ _ => 3

/-- The completion entry of operation `id` (05 R171). -/
def CopyOp.entry (o : CopyOp) (id : Nat) : MEntry :=
  { kind := 1#4, dst := o.ctx, peer := BitVec.ofNat 12 (gctx o.core o.ctx), seq := BitVec.ofNat 32 id
    lo := BitVec.ofNat 64 (o.tag.toNat + 2 ^ 16 * o.status + 2 ^ 24 * o.kind.num)
    hi := BitVec.ofNat 64 (Nat.min o.applied (2 ^ 32 - 1) + 2 ^ 32 * Nat.min o.skipped (2 ^ 32 - 1)) }

/-- A context that waited for an operation id has been granted one: its instruction completes. -/
def Ctx.granted (p : Part) (c : Ctx) : Ctx :=
  (c.advance p).wake

/-- A freed id goes to the oldest request (10 R318), once no stop holds the core that made it (12 R350). -/
def State.grantOp (id : Nat) (s : State) : State :=
  match s.hm.reqs with
  | [] => s
  | r :: rest =>
    if (s.coreAt r.core).stopped then s
    else (s.onHm fun h => { h with ops := SMap.set h.ops id (some r), reqs := rest }).onCtxAt r.core r.ctx (Ctx.granted s.pt)

/-- Every free id of the hamlet in focus goes to a request that waits (10 R318). -/
def State.grantFree (s : State) : State :=
  (List.range s.hm.reqs.length).foldl (fun (s : State) _ =>
    match s.hm.freeOp with
    | some id => s.grantOp id
    | none => s) s

/-- COPY_COMPLETION (05 R171; 09 R287): an operation with nothing left to move ends; its issuer's L1 copies are dropped,
its completion enters the issuer's mailbox, and its id is free. -/
def execCopyCompletion (op : BitVec 4) (s : State) : Out :=
  let id := op.toNat
  .next (
    match SMap.get s.hm.ops id with
    | none => s
    | some o =>
      if !o.beyond then s
      else
        (((s.onHm fun h => { h with ops := SMap.set h.ops id none }).onCoreAt o.core fun c => { c with l1 := [] }).deliver
          o.core (o.entry id)).grantOp id)

/-! ## Delivery of a copy fault (05 R172, 12 R343) -/

/-- Whether a context stands at an instruction boundary: it has no instruction under way but one that has done nothing and
will issue again, or a ring instruction that its record has made wait (05 R163, 09 R298). -/
def Ctx.atBoundary (c : Ctx) : Bool :=
  match c.state, c.wait with
  | .free, _ | .halted, _ | .swapped, _ => false
  | _, .copyId => false
  | _, .pend p => p.idle
  | _, _ => true

/-- COPY_FAULT (05 R172, 12 R343, R347): the oldest held copy fault of the context in focus is delivered at its next
boundary, outside any handler, and while no resident handler has its core (12 R343, R354). -/
def execCopyFault (s : State) : Out :=
  .next (
    match s.cx.held with
    | [] => s
    | f :: r =>
      if !s.cx.atBoundary || s.cx.inHandler || s.cr.stopped || s.cr.preempted then s
      else (s.onCx fun c => { c with held := r }).copyFault f)

end Sys2Proof.Machine
end

