-- ==== Sys2Proof/Machine/MemInstr.lean ====
section
/-!
DEFINITION. The instructions of group 2 (04 R135-R148): loads, stores, atomics and cache operations. Each reads its
registers in the order base, index, d or s, forms and checks its address, waits for what a release waits for, translates,
and then issues its access (`Access.lean`), which ACCESS_PERFORMED completes where it yields.
-/

namespace Sys2Proof.Machine

/-- The access of the context in focus to a translated range. -/
def State.accOf (s : State) (va pa pa2 len : Nat) (fmt : BitVec 5) (nc : Bool) (data keep : List Byte) : Acc :=
  { va := va, pa := pa, pa2 := pa2, len := len, fmt := fmt, nc := nc, data := data, keep := keep, parts := [], got := []
    writer := s.writer, prio := s.cx.prio }

/-- A formed address, or the tag or alignment fault of the instruction (04 R136, steps 1 and 2). -/
def State.withForm {α : Type} (s : State) (f : Formed α) (k : Nat → Nat → α → State → State) : State :=
  match f with
  | .ok a w x => k a w x s
  | .tag a => s.fault 0x0D#8 0#8 (BitVec.ofNat 64 a)
  | .align a => s.fault 0x0C#8 0#8 (BitVec.ofNat 64 a)

/-- The scope that an acquiring load acquires at. -/
def acqScope (ord : MemOrd) (sc : Scope) : Option Scope := if MemOrd.acquires ord then some sc else none

/-- An instruction that releases goes on once its release need wait no longer, and issues again until then (04 R140, 09
R281). -/
def State.afterRelease (s : State) (ord : MemOrd) (sc : Scope) (k : State → State) : State :=
  if MemOrd.releases ord then
    if s.released s.focus.ctx sc then k (s.flushFor sc) else s.again (.release sc)
  else k s

/-- A load of a formed address (04 R136-R140). -/
def State.loadAt {α : Type} (s : State) (ptr : Word) (f : Formed α) (form : α → LdForm) (dReg : Bool) (d : BitVec 6)
    (ord : MemOrd) (sc : Scope) : State :=
  s.withForm f fun va w x s =>
    s.withRange .load va w fun pa pa2 nc s =>
      s.loadIssue (s.accOf va pa pa2 w (tagFmt ptr) nc [] []) (form x) dReg d (acqScope ord sc)

/-- A store of a formed address (04 R136-R140, R148): when the store queue is full the context yields and issues it again. -/
def State.storeAt {α : Type} (s : State) (ptr : Word) (f : Formed α) (data : Nat → α → List Byte) (keep : α → List Byte)
    (ord : MemOrd) (sc : Scope) : State :=
  s.withForm f fun va w x s =>
    s.afterRelease ord sc fun s =>
      if 16 ≤ s.cr.sq.length then s.again .queueFull
      else
        s.withRange .store va w fun pa pa2 nc s =>
          s.storeIssue (s.accOf va pa pa2 w (tagFmt ptr) nc (data w x) (keep x))

/-! ## Loads -/

/-- LD (04 R137). -/
def execLd (d base index : BitVec 6) (sc : Scale) (ord : MemOrd) (scope : Scope) (off : BitVec 20) (s : State) : Out :=
  .next (s.withSrc (Ctx.srcG2 base index) fun r s =>
    s.loadAt r.1 (formLd r.1 r.2 (index == 0#6) sc off) (fun f => f) false d ord scope)
/-- LDF (04 R137, R139). -/
def execLdf (d base index : BitVec 6) (sc : Scale) (ord : MemOrd) (scope : Scope) (off : BitVec 20) (s : State) : Out :=
  .next (s.withSrc (Ctx.srcG2 base index) fun r s =>
    s.loadAt r.1 (formLdf r.1 r.2 (index == 0#6) sc off) (fun f => .toFp32 f.1 f.2) false d ord scope)
/-- LDD (04 R138). -/
def execLdd (d : BitVec 5) (base index : BitVec 6) (sc : Scale) (ord : MemOrd) (scope : Scope) (off : BitVec 20) (s : State) :
    Out :=
  .next (s.withSrc (Ctx.srcG2 base index) fun r s =>
    s.loadAt r.1 (formLdd r.1 r.2 (index == 0#6) sc off) (fun _ => .lanesRaw) true (d.setWidth 6) ord scope)
/-- LDDF (04 R138, R139). -/
def execLddf (d : BitVec 5) (base index : BitVec 6) (sc : Scale) (ord : MemOrd) (scope : Scope) (off : BitVec 20) (s : State) :
    Out :=
  .next (s.withSrc (Ctx.srcG2 base index) fun r s =>
    s.loadAt r.1 (formLddf r.1 r.2 (index == 0#6) sc off) (fun f => .lanesFp32 f.1 f.2) true (d.setWidth 6) ord scope)

/-! ## Stores -/

/-- The bytes that ST stores (04 R137): the low bytes of G[s]; through T6, bits 31:30 are zero. -/
def stData (form : LdForm) (w : Nat) (v : Word) : List Byte :=
  match form with
  | .t6 => toBytes w (v.toNat % 2 ^ 30)
  | _ => toBytes w v.toNat

/-- A value divided by its block scale, exactly (04 R139). -/
def unscale (x : Num) (e : Option Byte) : Num :=
  match e with
  | none => x
  | some b => if b = 255#8 then .nan else x.mul (.fin (Dy.pow2 (127 - (b.toNat : Int))))

/-- The pattern that STF and STDF store for an FP32 value (04 R137-R139). -/
def stElem (f : Fmt) (e : Option Byte) (v : BitVec 32) : Nat := roundNum f .rne 0 (unscale (num32 v) e)

/-- The sixteen elements that STDF stores, packed (04 R138, 03 R86). -/
def stLanes (f : Fmt) (es : List (Option Byte)) (v : BitVec 512) : Nat :=
  (List.range 16).foldl (fun acc l =>
    let x := stElem f ((es[l]?).getD none) (v.extractLsb' (32 * l) 32)
    acc + x * 2 ^ (match f with | .t6 => 32 * (l / 5) + 6 * (l % 5) | g => fmtBits g * l)) 0

/-- The bits that STDF leaves unchanged (04 R138): through T6, fields 1 to 4 of word 3. -/
def stKeep (f : Fmt) : List Byte :=
  match f with
  | .t6 => List.replicate 12 0#8 ++ [0xC0#8, 0xFF#8, 0xFF#8, 0x3F#8]
  | _ => []

/-- ST (04 R137). -/
def execSt (v base index : BitVec 6) (sc : Scale) (ord : MemOrd) (scope : Scope) (off : BitVec 20) (s : State) : Out :=
  .next (s.withSrc (Ctx.srcG3 base index v) fun r s =>
    s.storeAt r.1 (formLd r.1 r.2.1 (index == 0#6) sc off) (fun w f => stData f w r.2.2) (fun _ => []) ord scope)
/-- STF (04 R137, R139). -/
def execStf (v base index : BitVec 6) (sc : Scale) (ord : MemOrd) (scope : Scope) (off : BitVec 20) (s : State) : Out :=
  .next (s.withSrc (Ctx.srcG3 base index v) fun r s =>
    s.storeAt r.1 (formLdf r.1 r.2.1 (index == 0#6) sc off)
      (fun w f => toBytes w (stElem f.1 f.2 (r.2.2.setWidth 32))) (fun _ => []) ord scope)

/-- Base, index and a D register, in that order. -/
def Ctx.srcGGD (base index : BitVec 6) (v : BitVec 5) (c : Ctx) : Pop (Word × Word × BitVec 512) :=
  (c.srcG2 base index).andThen fun x c => (c.srcD v).andThen fun y c => .ok (x.1, x.2, y) c

/-- STD (04 R138). -/
def execStd (v : BitVec 5) (base index : BitVec 6) (sc : Scale) (ord : MemOrd) (scope : Scope) (off : BitVec 20) (s : State) :
    Out :=
  .next (s.withSrc (Ctx.srcGGD base index v) fun r s =>
    s.storeAt r.1 (formLdd r.1 r.2.1 (index == 0#6) sc off) (fun w _ => toBytes w r.2.2.toNat) (fun _ => []) ord scope)
/-- STDF (04 R138, R139). -/
def execStdf (v : BitVec 5) (base index : BitVec 6) (sc : Scale) (ord : MemOrd) (scope : Scope) (off : BitVec 20) (s : State) :
    Out :=
  .next (s.withSrc (Ctx.srcGGD base index v) fun r s =>
    s.storeAt r.1 (formLddf r.1 r.2.1 (index == 0#6) sc off)
      (fun w f => toBytes w (stLanes f.1 f.2 r.2.2)) (fun f => stKeep f.1) ord scope)

/-! ## Atomics -/

/-- A read-modify-write of a formed address issues (04 R136, R141): in the core's own local memory it is performed at
once, behind nothing of its own; elsewhere the context yields. -/
def State.rmwAt (s : State) (ptr : Word) (f : Formed Fmt) (ord : MemOrd) (sc : Scope) (pend : Acc → Pend)
    (now : Acc → State → State) : State :=
  s.withForm f fun va w _ s =>
    s.afterRelease ord sc fun s =>
      s.withRange .amo va w fun pa pa2 nc s =>
        let a := s.accOf va pa pa2 w (tagFmt ptr) nc [] []
        let behind := s.cr.blocked (s.cr.lastEntry s.focus.ctx a)
        if s.ownLocal a && !behind then now a s else s.park (.pend (pend a))

/-- Whether an AMO's operation is floating (04 R141). -/
def AmoOp.float : AmoOp → Bool
  | .fadd | .fmin | .fmax => true
  | _ => false

/-- CAS's new word (04 R141): the replacement when the word equals the comparand at the width. -/
def casNew (w : Nat) (cmp new m : Word) : Option Word := if atWidth w m = atWidth w cmp then some new else none

/-- AMO (04 R141). -/
def execAmo (op : AmoOp) (d base index : BitVec 6) (ord : MemOrd) (scope : Scope) (off : BitVec 16) (s : State) : Out :=
  .next (s.withSrc (Ctx.srcG2 base index) fun r s =>
    s.rmwAt r.1 (formAmo (AmoOp.float op) (op == .swap) r.1 off) ord scope (fun a => .amo a op r.2 d ord scope)
      fun a s => s.rmw a (fun m => some (amoNew op a.len m r.2)) d ord scope)
/-- CAS (04 R141). -/
def execCas (d base index : BitVec 6) (ord : MemOrd) (scope : Scope) (off : BitVec 16) (s : State) : Out :=
  .next (s.withSrc (Ctx.srcG3 base index d) fun r s =>
    s.rmwAt r.1 (formAmo false true r.1 off) ord scope (fun a => .cas a r.2.1 r.2.2 d ord scope)
      fun a s => s.rmw a (casNew a.len r.2.1 r.2.2) d ord scope)

/-! ## Cache and order operations -/

/-- A prefetched sector may reach the core's L1: whether it has is a free value (log 2). -/
def State.prefetched (s : State) (a : Acc) : State :=
  if s.l1May a && s.coin then (s.draw.l1Fill s.focus.ctx a 0).noteFill a.va a.pa else s.draw

/-- PREF (04 R144): a hint, dropped when its checks would fail; it does not yield. -/
def execPref (base index : BitVec 6) (sc : Scale) (_scope : Scope) (off : BitVec 20) (s : State) : Out :=
  .next (s.withSrc (Ctx.srcG2 base index) fun r s =>
    match formSweep r.1 r.2 (index == 0#6) sc off with
    | none => s.advance
    | some va =>
      match s.range .load va 1 with
      | .ok pa pa2 nc t => (t.prefetched (t.accOf va pa pa2 1 (tagFmt r.1) nc [] [])).advance
      | _ => s.advance)

/-- DISCARD and FLUSH (04 R136, R145, R146): the covered pages are translated and checked, and the context yields until
every covered sector has been dropped or written back. -/
def State.sweepAt (s : State) (discard : Bool) (ptr index : Word) (noIndex : Bool) (sc : Scale) (off : BitVec 20) (len : Nat) :
    State :=
  match formSweep ptr index noIndex sc off with
  | none => s.fault 0x0D#8 0#8 (BitVec.ofNat 64 (tagAddr ptr index sc off false))
  | some va =>
    if len = 0 then s.park (.pend (.sweep discard []))
    else
      s.sweepPages (if discard then .discard else .flush) va (va + len - 1) fun l s =>
        if discard && !s.discardOk va (va + len - 1) then s.fault 0x0A#8 0#8 (BitVec.ofNat 64 va)
        else s.park (.pend (.sweep discard l))

/-- DISCARD (04 R145, 08 R272, R273). -/
def execDiscard (d base index : BitVec 6) (sc : Scale) (_scope : Scope) (off : BitVec 20) (s : State) : Out :=
  .next (s.withSrc (Ctx.srcG3 base index d) fun r s =>
    s.sweepAt true r.1 r.2.1 (index == 0#6) sc off (r.2.2.toNat % 2 ^ 32))
/-- FLUSH (04 R146, 08 R274). -/
def execFlush (d base index : BitVec 6) (sc : Scale) (_scope : Scope) (off : BitVec 20) (s : State) : Out :=
  .next (s.withSrc (Ctx.srcG3 base index d) fun r s =>
    s.sweepAt false r.1 r.2.1 (index == 0#6) sc off (r.2.2.toNat % 2 ^ 32))
/-- FENCE (04 R147): at CTX scope it orders only the context's own accesses and completes; wider, the context yields. -/
def execFence (ord : MemOrd) (scope : Scope) (s : State) : Out :=
  .next (if scope = .ctx then s.advance else s.park (.pend (.fence ord scope)))

end Sys2Proof.Machine
end

