-- ==== Sys2Proof/Machine/Ring.lean ====
section
/-!
DEFINITION. Rings (05 R161-R164; 01 R31; 09 R298). A ring instruction reads its operands, waits for what a release waits
for, finds its record, and yields; ACCESS_PERFORMED makes the one atomic step at the record's home.
-/

namespace Sys2Proof.Machine

/-- A ring record (05 R161). -/
structure RingRec where
  nslot : Nat
  slotsz : Nat
  stat : Nat
  rsv : Nat
  prodmask : Nat
  eosmask : Nat
  resv : Nat
  fill : Nat
  freed : Nat
  pubmap : Nat
  deriving DecidableEq, Repr

/-- A field of a record's number. -/
def bytesAt (v off n : Nat) : Nat := v / 2 ^ (8 * off) % 2 ^ (8 * n)

/-- The record in 64 bytes (05 R161). -/
def RingRec.read (v : Nat) : RingRec :=
  { nslot := bytesAt v 8 4, slotsz := bytesAt v 12 2, stat := bytesAt v 14 1, rsv := bytesAt v 15 1
    prodmask := bytesAt v 16 4, eosmask := bytesAt v 20 4, resv := bytesAt v 24 8, fill := bytesAt v 32 8
    freed := bytesAt v 40 8, pubmap := bytesAt v 48 16 }

/-- CLOSED of a record. -/
def RingRec.closed (r : RingRec) : Bool := r.stat % 2 == 1

/-- The bytes that ring steps write, with their offsets: STAT, and EOSMASK to PUBMAP. -/
def RingRec.stat1 (r : RingRec) : List Byte := toBytes 1 r.stat
def RingRec.tail (r : RingRec) : List Byte :=
  toBytes 4 r.eosmask ++ toBytes 8 r.resv ++ toBytes 8 r.fill ++ toBytes 8 r.freed ++ toBytes 16 r.pubmap

/-- CloseCheck (05 R163). -/
def RingRec.closeCheck (r : RingRec) : RingRec :=
  if r.eosmask = r.prodmask ∧ r.resv = r.fill ∧ r.closed = false then { r with stat := r.stat + 1 } else r

/-- The published prefix is taken up: PUBMAP shifts and FILL advances (05 R163). -/
def RingRec.settle : Nat → RingRec → RingRec
  | 0, r => r
  | n + 1, r => if r.pubmap % 2 = 1 then RingRec.settle n { r with pubmap := r.pubmap / 2, fill := r.fill + 1 } else r

/-- The bits t to t + n - 1 of PUBMAP set. -/
def RingRec.publish (r : RingRec) (t n : Nat) : RingRec :=
  { r with pubmap := r.pubmap ||| ((2 ^ n - 1) * 2 ^ (t - r.fill)) }

/-- Handle fields (01 R31). -/
def hBound (h : Word) : Bool := h.getLsbD 63
def hProd (h : Word) : Bool := h.getLsbD 62
def hCons (h : Word) : Bool := h.getLsbD 61
def hPidx (h : Word) : Nat := (h.extractLsb' 56 5).toNat
def hRec (h : Word) : Nat := (h.extractLsb' 6 50).toNat * 64

/-- Whether a producer index is registered. -/
def RingRec.registered (r : RingRec) (i : Nat) : Bool := r.prodmask.testBit i
/-- Whether a producer has ended its stream. -/
def RingRec.ended (r : RingRec) (i : Nat) : Bool := r.eosmask.testBit i

/-- The DETAIL of a ring fault (05 R162), tested in ascending order; none when the step may go on. That the codes are
tested in this order is DEDUCED, log 33. -/
def ringFault (h : Word) (inHbm : Bool) (r : RingRec) (st : RingStep) : Option (BitVec 8) :=
  let producer := match st with | .rrsv _ | .rpub _ _ | .reos => true | _ => false
  let consumer := match st with | .rwait _ | .radv _ => true | _ => false
  let inRange :=
    match st with
    | .rrsv n | .rpub _ n => decide (1 ≤ n.toNat) && decide (n.toNat ≤ 128)
    | .rwait n | .radv n => decide (1 ≤ n.toNat) && decide (n.toNat ≤ r.nslot)
    | _ => true
  let open_ :=
    match st with
    | .rpub t n =>
      decide (r.fill ≤ t.toNat) && decide (t.toNat + n.toNat ≤ r.resv)
        && (List.range n.toNat).all fun j => !r.pubmap.testBit (t.toNat - r.fill + j)
    | _ => true
  let eos := match st with | .rrsv _ | .reos => r.ended (hPidx h) | _ => false
  let beyond := match st with | .radv n => decide (r.fill < r.freed + n.toNat) | _ => false
  if !hBound h || !inHbm then some 1#8
  else if producer && (!hProd h || !r.registered (hPidx h)) then some 2#8
  else if consumer && !hCons h then some 3#8
  else if !inRange then some 4#8
  else if !open_ then some 5#8
  else if eos then some 6#8
  else if beyond then some 7#8
  else if r.nslot = 0 ∨ 2 ^ 20 < r.nslot ∨ r.slotsz % 8 ≠ 0 ∨ r.slotsz < 8 ∨ 4096 < r.slotsz ∨ r.rsv ≠ 0 then some 8#8
  else none

/-- The producer whose turn it is from `i` on, cyclically: registered and not ended (09 R298). -/
def RingRec.turnFrom (r : RingRec) (i : Nat) : Nat :=
  (((List.range 32).map fun k => (i + k) % 32).find? fun k => r.registered k && !r.ended k).getD 0

/-- Whether a reservation of n slots fits (05 R163). -/
def RingRec.fits (r : RingRec) (n : Nat) : Bool :=
  !r.closed && decide (r.resv + n - r.freed ≤ r.nslot) && decide (r.resv + n - r.fill ≤ 128)

/-- What a ring step gives: a record and a result for G[d], a result alone, or a wait. -/
inductive RingOut where
  | write (r : RingRec) (v : Option Word) | result (v : Word) | wait
  deriving DecidableEq, Repr

/-- The effect of a ring step (05 R163; 09 R298): `turn` is the producer from which the turn is found. -/
def ringEffect (det : Bool) (turn : Nat) (h : Word) (r : RingRec) (st : RingStep) : RingOut :=
  let avail := r.fill - r.freed
  let close : Word := if r.closed then 0x8000000000000000#64 else 0#64
  match st with
  | .rrsv n =>
    if det && r.turnFrom turn != hPidx h then .wait
    else if r.fits n.toNat then .write { r with resv := r.resv + n.toNat } (some (BitVec.ofNat 64 r.resv))
    else if det then .wait
    else .result (-1#64)
  | .rpub t n => .write ((r.publish t.toNat n.toNat).settle 128).closeCheck none
  | .radv n => .write { r with freed := r.freed + n.toNat } none
  | .reos => .write ({ r with eosmask := r.eosmask ||| 2 ^ hPidx h } : RingRec).closeCheck none
  | .rwait n =>
    if n.toNat ≤ avail then .result (if det then n else BitVec.ofNat 64 avail ||| close)
    else if r.closed then .result (BitVec.ofNat 64 avail ||| close)
    else .wait
  | .rqry q =>
    .result (match q with
      | .avail => BitVec.ofNat 64 avail
      | .space => BitVec.ofNat 64 (r.nslot - (r.resv - r.freed))
      | .state => BitVec.ofNat 64 (r.eosmask + if r.closed then 2 ^ 32 else 0)
      | .fill => BitVec.ofNat 64 r.fill)

/-- Whether the step acquires (05 R164). -/
def RingStep.acquires : RingStep → Bool
  | .rwait _ => true
  | _ => false

/-- A completed ring instruction: G[d] written, the acquire of RWAIT, the watchpoints of its record (14 R390). -/
def State.ringDone (s : State) (st : RingStep) (d : BitVec 6) (a : Acc) (v : Option Word) : State :=
  (((if st.acquires then s.onCr (Core.acquire s.focus.ctx (some .partition)) else s).onCx fun c =>
    ((match v with | some w => c.wg d w | none => c).advance s.pt).wake)).watch
    s.focus.core s.focus.ctx a.va 64 true true

/-- The record written at its home with the core's own L1 copy dropped, and, in deterministic mode, the turn passed on. -/
def State.ringWrite (s : State) (st : RingStep) (h : Word) (a : Acc) (new : RingRec) : State :=
  let t := ((s.paPuts a.nc (a.pa + 14) new.stat1).paPuts a.nc (a.pa + 20) new.tail).onCr fun c =>
    { c with l1 := SMap.erase c.l1 (a.pa / 64) }
  let u := (t.noteStored a 0 a.len).noteStore a.va a.pa
  match st with
  | .rrsv _ => if s.pt.det then u.onJob fun j => { j with turns := SMap.insert j.turns (a.pa / 64) (hPidx h + 1) } else u
  | _ => u

/-- Whether a ring step reads only, as its record's page is checked (08 R251). -/
def RingStep.reads : RingStep → Bool
  | .rwait _ | .rqry _ => true
  | _ => false

/-- The step of a ring instruction at the record's home (05 R162, R163), through the access `a`. One that the record makes wait
stays idle, and looks again (log 33). -/
def State.ringStep (s : State) (st : RingStep) (hn : BitVec 4) (d : BitVec 6) (a : Acc) : State :=
  let h := SMap.get s.cx.h hn.toNat
  let va := BitVec.ofNat 64 a.va
  let home := s.pt.home a.pa
  let inHbm := match home with | .hbm _ => true | _ => false
  if s.pt.poisoned home then s.deliverLate (State.fault 0x18#8 (s.poisonDetail home) 0#64)
  else
    let r := RingRec.read (ofBytes (s.paBytes a.pa 64))
    match ringFault h inHbm r st with
    | some x => s.deliverLate (State.fault 0x13#8 x va)
    | none =>
      match ringEffect s.pt.det (SMap.get s.job.turns (a.pa / 64)) h r st with
      | .result v => (s.onCr (Core.l1Drop a)).ringDone st d a (some v)
      | .write n v => (s.ringWrite st h a n).ringDone st d a v
      | .wait => s.onCx fun c => { c with wait := .pend (.ring st hn d { a with got := [(0, 1#8)] }) }

/-- A pending ring instruction is performed: behind the queued stores of its core to the record's bytes (05 R164; 09 R276, R279),
and behind a higher writer id in this dc (05 R163). One that its record has made wait looks again, through a translation made
anew (12 R361), but not on a core that a stop has reached, where it stays as it stands (12 R350). -/
def State.ringPerform (s : State) (st : RingStep) (hn : BitVec 4) (d : BitVec 6) (a : Acc) : State :=
  if s.cr.blocked (s.cr.lastEntry s.focus.ctx a) || s.deferred a false then s
  else if a.got = [] then s.ringStep st hn d a
  else if s.cr.stopped then s
  else
    s.withRange (if st.reads then .load else .store) a.va 64 fun pa pa2 nc s =>
      s.ringStep st hn d { a with pa := pa, pa2 := pa2, nc := nc }

/-- A ring instruction with its operands read (05 R162, R164): an unbound handle faults, a release waits, the record is
translated, and the context yields. -/
def State.ringIssue (s : State) (st : RingStep) (hn : BitVec 4) (d : BitVec 6) (rel : Bool) : State :=
  let h := SMap.get s.cx.h hn.toNat
  if !hBound h then s.fault 0x13#8 1#8 (BitVec.ofNat 64 (hRec h))
  else
    s.afterRelease (if rel then .rel else .plain) .partition fun s =>
      s.withRange (if st.reads then .load else .store) (hRec h) 64 fun pa pa2 nc s =>
        s.park (.pend (.ring st hn d (s.accOf (hRec h) pa pa2 64 0#5 nc [] [])))

/-- RRSV (05 R163). -/
def execRrsv (d a : BitVec 6) (h : BitVec 4) (s : State) : Out :=
  .next (s.withSrc (fun c => c.srcG a) fun n s => s.ringIssue (.rrsv n) h d false)
/-- RPUB (05 R163, R164). -/
def execRpub (a b : BitVec 6) (h : BitVec 4) (s : State) : Out :=
  .next (s.withSrc (Ctx.srcG2 a b) fun r s => s.ringIssue (.rpub r.1 r.2) h 0#6 true)
/-- RWAIT (05 R163, R164). -/
def execRwait (d a : BitVec 6) (h : BitVec 4) (s : State) : Out :=
  .next (s.withSrc (fun c => c.srcG a) fun n s => s.ringIssue (.rwait n) h d false)
/-- RADV (05 R163, R164). -/
def execRadv (a : BitVec 6) (h : BitVec 4) (s : State) : Out :=
  .next (s.withSrc (fun c => c.srcG a) fun n s => s.ringIssue (.radv n) h 0#6 true)
/-- REOS (05 R163, R164). -/
def execReos (h : BitVec 4) (s : State) : Out := .next (s.ringIssue .reos h 0#6 true)
/-- RQRY (05 R163). -/
def execRqry (q : RingQ) (d : BitVec 6) (h : BitVec 4) (s : State) : Out := .next (s.ringIssue (.rqry q) h d false)

end Sys2Proof.Machine
end

