-- ==== Sys2Proof/Machine/Float.lean ====
section
/-!
DEFINITION. Scalar floating point of group 1 (04 R125-R128; 03 R98-R106).
-/

namespace Sys2Proof.Machine

/-- A result in bits 31:0 with bits 63:32 cleared (04 R125). -/
def lowWord (v : BitVec 32) : Word := v.setWidth 64

/-- An instruction on the FP32 values in bits 31:0 of G[a] and G[b] (04 R125). -/
def State.fp2 (s : State) (d a b : BitVec 6) (f : BitVec 32 → BitVec 32 → BitVec 32) : State :=
  s.alu2 d a b fun x y => lowWord (f (x.setWidth 32) (y.setWidth 32))

/-- A numeric pattern extended to a register of w bits: signed integers by their sign, everything else by zeros (04 R127,
R131). -/
def extendNum (w : Nat) (f : Fmt) (v : Nat) : BitVec w :=
  match f with
  | .int8 => (BitVec.ofNat 8 v).signExtend w
  | .int16 => (BitVec.ofNat 16 v).signExtend w
  | .int32 => (BitVec.ofNat 32 v).signExtend w
  | _ => BitVec.ofNat w v

/-- The least exponent of a normal number of a format; none where every nonzero finite value is normal (04 R128). -/
def minNormal : Fmt → Option Int
  | .fp32 | .bf16 => some (-126)
  | .e4m3 => some (-6)
  | .e5m2 => some (-14)
  | .fp4 => some 0
  | _ => none

/-- The bit of a class mask (04 R128). -/
def classBit (f : Fmt) (x : Num) : Nat :=
  match x with
  | .nan => 8
  | .inf s => if s then 0 else 7
  | .zero s => if s then 3 else 4
  | .fin v =>
    let sub := match minNormal f with | some e => decide (v.exp < e) | none => false
    if v.m < 0 then (if sub then 2 else 1) else (if sub then 5 else 6)

/-- FADD (04 R125). -/
def execFadd (rm : Rm) (d a b : BitVec 6) (s : State) : Out := .next (s.fp2 d a b (fadd32 rm))
/-- FSUB (04 R125). -/
def execFsub (rm : Rm) (d a b : BitVec 6) (s : State) : Out := .next (s.fp2 d a b (fsub32 rm))
/-- FMUL (04 R125). -/
def execFmul (rm : Rm) (d a b : BitVec 6) (s : State) : Out := .next (s.fp2 d a b (fmul32 rm))
/-- FMA: rounded once (04 R125). -/
def execFma (rm : Rm) (d a b c : BitVec 6) (s : State) : Out :=
  .next (s.alu3 d a b c fun x y z => lowWord (fma32 rm (x.setWidth 32) (y.setWidth 32) (z.setWidth 32)))
/-- FMIN (04 R125, 03 R106). -/
def execFmin (d a b : BitVec 6) (s : State) : Out := .next (s.fp2 d a b fmin32)
/-- FMAX (04 R125, 03 R106). -/
def execFmax (d a b : BitVec 6) (s : State) : Out := .next (s.fp2 d a b fmax32)
/-- FCMP (04 R126). -/
def execFcmp (fc : FRel) (d a b : BitVec 6) (s : State) : Out :=
  .next (s.alu2 d a b fun x y => boolWord (FRel.holds fc (num32 (x.setWidth 32)) (num32 (y.setWidth 32))))
/-- FCVT (04 R127): the source element from the low bits at its width, converted, and extended. -/
def execFcvt (src dst : Fmt) (rm : Rm) (d a : BitVec 6) (s : State) : Out :=
  .next (s.alu1 d a fun x => extendNum 64 dst (convert src dst rm 0 x.toNat))
/-- FCLASS: one set bit (04 R128). -/
def execFclass (f : Fmt) (d a : BitVec 6) (s : State) : Out :=
  .next (s.alu1 d a fun x => BitVec.ofNat 64 (2 ^ classBit f (decodeNum f x.toNat)))

end Sys2Proof.Machine
end

