-- ==== Sys2Proof/Machine/DVec.lean ====
section
/-!
DEFINITION. Lane operations on D registers (04 R129-R134; 03 R101-R103, R105, R106, R110, R111).
-/

namespace Sys2Proof.Machine

/-- Lane l of a D register (04 R129). -/
def dLane (v : BitVec 512) (l : Nat) : BitVec 32 := v.extractLsb' (32 * l) 32
/-- The sixteen lanes, lowest first. -/
def dLanes (v : BitVec 512) : List (BitVec 32) := (List.range 16).map (dLane v)
/-- A D register of lanes, lowest first. -/
def ofLanes16 : List (BitVec 32) → BitVec 512
  | [] => 0#512
  | x :: r => (ofLanes16 r <<< 32) ||| x.setWidth 512

/-- The lanes of a D register by their number. -/
def buildD (f : Nat → BitVec 32) : BitVec 512 := ofLanes16 ((List.range 16).map f)

/-- A result in the enabled lanes over the old value in the others (04 R129). -/
def mergeD (mask : BitVec 16) (old : BitVec 512) (f : Nat → BitVec 32) : BitVec 512 :=
  buildD fun l => if mask.getLsbD l then f l else dLane old l

/-- The instruction of the context in focus completes with D[d] written. -/
def State.retireD (s : State) (d : BitVec 5) (v : BitVec 512) : State := s.onCx fun c => (c.wd d v).advance s.pt

/-- A lane operation with one source. -/
def State.lanes1 (s : State) (d a : BitVec 5) (mask : BitVec 6) (f : BitVec 512 → Nat → BitVec 32) : State :=
  s.withSrc (fun c => (c.srcD a).andThen fun x c => (c.srcMask mask).andThen fun m c => .ok (x, m) c) fun r s =>
    s.retireD d (mergeD r.2 (s.cx.rd d) (f r.1))

/-- A lane operation with two sources. -/
def State.lanes2 (s : State) (d a b : BitVec 5) (mask : BitVec 6) (f : BitVec 512 → BitVec 512 → Nat → BitVec 32) : State :=
  s.withSrc (fun c => (c.srcD a).andThen fun x c => (c.srcD b).andThen fun y c => (c.srcMask mask).andThen fun m c =>
      .ok (x, y, m) c) fun r s =>
    s.retireD d (mergeD r.2.2 (s.cx.rd d) (f r.1 r.2.1))

/-- A lane operation with three sources. -/
def State.lanes3 (s : State) (d a b c : BitVec 5) (mask : BitVec 6)
    (f : BitVec 512 → BitVec 512 → BitVec 512 → Nat → BitVec 32) : State :=
  s.withSrc (fun x => (x.srcD a).andThen fun u x => (x.srcD b).andThen fun v x => (x.srcD c).andThen fun w x =>
      (x.srcMask mask).andThen fun m x => .ok (u, v, w, m) x) fun r s =>
    s.retireD d (mergeD r.2.2.2 (s.cx.rd d) (f r.1 r.2.1 r.2.2.1))

/-- Each BF16 half of a lane on its own (04 R129). -/
def halves2 (f : BitVec 16 → BitVec 16 → BitVec 16) (a b : BitVec 32) : BitVec 32 :=
  f (a.extractLsb' 16 16) (b.extractLsb' 16 16) ++ f (a.extractLsb' 0 16) (b.extractLsb' 0 16)
/-- Each BF16 half of three lanes. -/
def halves3 (f : BitVec 16 → BitVec 16 → BitVec 16 → BitVec 16) (a b c : BitVec 32) : BitVec 32 :=
  f (a.extractLsb' 16 16) (b.extractLsb' 16 16) (c.extractLsb' 16 16)
    ++ f (a.extractLsb' 0 16) (b.extractLsb' 0 16) (c.extractLsb' 0 16)

/-- An exact integer in an INT32 lane: saturated, or taken modulo 2^32 (04 R130). -/
def int32Of (sat : Bool) (v : Int) : BitVec 32 :=
  if sat then BitVec.ofInt 32 (if v < -2147483648 then -2147483648 else if 2147483647 < v then 2147483647 else v)
  else BitVec.ofInt 32 v

/-- A lane of DADD, DSUB or DMUL (04 R130). -/
def laneArith2 (m : LaneArith) (fi : Int → Int → Int) (f32 : Rm → BitVec 32 → BitVec 32 → BitVec 32)
    (f16 : Rm → BitVec 16 → BitVec 16 → BitVec 16) (a b : BitVec 32) : BitVec 32 :=
  match m with
  | .int sat => int32Of sat (fi a.toInt b.toInt)
  | .fp32 rm => f32 rm a b
  | .bf16 rm => halves2 (f16 rm) a b

/-- A lane of DFMA (04 R130). -/
def laneFma (m : LaneArith) (a b c : BitVec 32) : BitVec 32 :=
  match m with
  | .int sat => int32Of sat (a.toInt * b.toInt + c.toInt)
  | .fp32 rm => fma32 rm a b c
  | .bf16 rm => halves3 (fma16 rm) a b c

/-- A lane of DMIN (04 R130, 03 R106). -/
def laneMin (m : LaneMin) (a b : BitVec 32) : BitVec 32 :=
  match m with
  | .int u => if (if u then b.ult a else b.slt a) then b else a
  | .fp32 _ => fmin32 a b
  | .bf16 _ => halves2 fmin16 a b

/-- A lane of DMAX (04 R130, 03 R106). -/
def laneMax (m : LaneMin) (a b : BitVec 32) : BitVec 32 :=
  match m with
  | .int u => if (if u then a.ult b else a.slt b) then b else a
  | .fp32 _ => fmax32 a b
  | .bf16 _ => halves2 fmax16 a b

/-- All ones or zero. -/
def onesIf (w : Nat) (b : Bool) : BitVec w := if b then BitVec.allOnes w else 0#w

/-- A lane of DCMP (04 R130). -/
def laneCmp (m : LaneCmp) (a b : BitVec 32) : BitVec 32 :=
  match m with
  | .int c => onesIf 32 (Cond.holds32 c a b)
  | .fp32 r => onesIf 32 (FRel.holds r (num32 a) (num32 b))
  | .bf16 r => halves2 (fun x y => onesIf 16 (FRel.holds r (num16 x) (num16 y))) a b

/-- DADD (04 R130). -/
def execDadd (m : LaneArith) (d a b : BitVec 5) (mask : BitVec 6) (s : State) : Out :=
  .next (s.lanes2 d a b mask fun x y l => laneArith2 m (· + ·) fadd32 fadd16 (dLane x l) (dLane y l))
/-- DSUB (04 R130). -/
def execDsub (m : LaneArith) (d a b : BitVec 5) (mask : BitVec 6) (s : State) : Out :=
  .next (s.lanes2 d a b mask fun x y l => laneArith2 m (· - ·) fsub32 fsub16 (dLane x l) (dLane y l))
/-- DMUL (04 R130). -/
def execDmul (m : LaneArith) (d a b : BitVec 5) (mask : BitVec 6) (s : State) : Out :=
  .next (s.lanes2 d a b mask fun x y l => laneArith2 m (· * ·) fmul32 fmul16 (dLane x l) (dLane y l))
/-- DFMA (04 R130). -/
def execDfma (m : LaneArith) (d a b c : BitVec 5) (mask : BitVec 6) (s : State) : Out :=
  .next (s.lanes3 d a b c mask fun x y z l => laneFma m (dLane x l) (dLane y l) (dLane z l))
/-- DMIN (04 R130). -/
def execDmin (m : LaneMin) (d a b : BitVec 5) (mask : BitVec 6) (s : State) : Out :=
  .next (s.lanes2 d a b mask fun x y l => laneMin m (dLane x l) (dLane y l))
/-- DMAX (04 R130). -/
def execDmax (m : LaneMin) (d a b : BitVec 5) (mask : BitVec 6) (s : State) : Out :=
  .next (s.lanes2 d a b mask fun x y l => laneMax m (dLane x l) (dLane y l))
/-- DAND (04 R130). -/
def execDand (d a b : BitVec 5) (mask : BitVec 6) (s : State) : Out :=
  .next (s.lanes2 d a b mask fun x y l => dLane x l &&& dLane y l)
/-- DOR (04 R130). -/
def execDor (d a b : BitVec 5) (mask : BitVec 6) (s : State) : Out :=
  .next (s.lanes2 d a b mask fun x y l => dLane x l ||| dLane y l)
/-- DXOR (04 R130). -/
def execDxor (d a b : BitVec 5) (mask : BitVec 6) (s : State) : Out :=
  .next (s.lanes2 d a b mask fun x y l => dLane x l ^^^ dLane y l)

/-- A shift of a lane by b[4:0] of a register or by the immediate (04 R130). -/
def State.laneShift (s : State) (d a : BitVec 5) (k : DShift) (mask : BitVec 6) (f : BitVec 32 → Nat → BitVec 32) : State :=
  match k with
  | .reg b => s.lanes2 d a b mask fun x y l => f (dLane x l) ((dLane y l).extractLsb' 0 5).toNat
  | .imm n => s.lanes1 d a mask fun x l => f (dLane x l) n.toNat

/-- DSHL (04 R130). -/
def execDshl (d a : BitVec 5) (k : DShift) (mask : BitVec 6) (s : State) : Out :=
  .next (s.laneShift d a k mask fun x n => x <<< n)
/-- DSHR, arithmetic with .A (04 R130). -/
def execDshr (arith : Bool) (d a : BitVec 5) (k : DShift) (mask : BitVec 6) (s : State) : Out :=
  .next (s.laneShift d a k mask fun x n => if arith then x.sshiftRight n else x >>> n)
/-- DCMP (04 R130). -/
def execDcmp (m : LaneCmp) (d a b : BitVec 5) (mask : BitVec 6) (s : State) : Out :=
  .next (s.lanes2 d a b mask fun x y l => laneCmp m (dLane x l) (dLane y l))
/-- DSEL: a where c is not 0, else b (04 R130). -/
def execDsel (d a b c : BitVec 5) (mask : BitVec 6) (s : State) : Out :=
  .next (s.lanes3 d a b c mask fun x y z l => if dLane z l = 0#32 then dLane y l else dLane x l)

/-- The row word that DCVT draws from (03 R103). -/
def State.dcvtRow (s : State) (d : BitVec 5) : Word :=
  rowWordCtx s.pt.seed s.focus.ctx s.focus.core d.toNat s.cx.steps

/-- DCVT (04 R131): each enabled lane converted; stochastic rounding draws at position 0 (03 R103). -/
def execDcvt (src dst : Fmt) (rm : Rm) (d a : BitVec 5) (mask : BitVec 6) (s : State) : Out :=
  let row := s.dcvtRow d
  .next (s.lanes1 d a mask fun x l =>
    extendNum 32 dst (convert src dst rm (srDraw row (srBits dst) l 0) (dLane x l).toNat))
/-- DBCAST: lane j in every enabled lane (04 R130). -/
def execDbcast (d a : BitVec 5) (j : BitVec 4) (mask : BitVec 6) (s : State) : Out :=
  .next (s.lanes1 d a mask fun x _ => dLane x j.toNat)

/-- DEXT: lane j to a G register, sign-extended for INT32 (04 R132). -/
def execDext (ty : Lane2) (d a : BitVec 5) (j : BitVec 4) (s : State) : Out :=
  .next (s.withSrc (fun c => c.srcD a) fun x s =>
    let v := dLane x j.toNat
    s.retire (d.setWidth 6) (match ty with | .int => v.signExtend 64 | .fp32 => v.setWidth 64))
/-- DINS: lane j from bits 31:0 of a G register (04 R132). -/
def execDins (d a : BitVec 5) (j : BitVec 4) (s : State) : Out :=
  .next (s.withSrc (fun c => c.srcG (a.setWidth 6)) fun x s =>
    s.retireD d (buildD fun l => if l = j.toNat then x.setWidth 32 else dLane (s.cx.rd d) l))
/-- DSHUF: lane b[3:0] of D[a], or 0 when b[31:4] is not zero (04 R130). -/
def execDshuf (d a b : BitVec 5) (mask : BitVec 6) (s : State) : Out :=
  .next (s.lanes2 d a b mask fun x y l =>
    let k := dLane y l
    if k.extractLsb' 4 28 = 0#28 then dLane x (k.extractLsb' 0 4).toNat else 0#32)

/-- The reducing operation on a 32-bit lane of INT32 or FP32 (03 R110). -/
def redOp (ty : Lane2) (op : RedOp) (a b : BitVec 32) : BitVec 32 :=
  match ty, op with
  | .int, .add => a + b
  | .int, .min => if b.slt a then b else a
  | .int, .max => if a.slt b then b else a
  | .fp32, .add => fadd32 .rne a b
  | .fp32, .min => fmin32 a b
  | .fp32, .max => fmax32 a b

/-- The identity of a reducing operation (03 R110). -/
def redIdentity (ty : Lane2) (op : RedOp) : BitVec 32 :=
  match ty, op with
  | .int, .add => 0#32
  | .int, .min => 0x7FFFFFFF#32
  | .int, .max => 0x80000000#32
  | .fp32, .add => 0x80000000#32
  | .fp32, .min => 0x7F800000#32
  | .fp32, .max => 0xFF800000#32

/-- The lanes of a D register with disabled ones at the identity (03 R110). -/
def enteredLanes (ty : Lane2) (op : RedOp) (mask : BitVec 16) (v : BitVec 512) : List (BitVec 32) :=
  (List.range 16).map fun l => if mask.getLsbD l then dLane v l else redIdentity ty op

/-- A scan of 16 lanes, inclusive or exclusive (03 R111); a NaN is delivered as the canonical one, in lane 0 too (R90). -/
def scanLanes (ty : Lane2) (op : RedOp) (ex : Bool) (l : List (BitVec 32)) : List (BitVec 32) :=
  let y := (scanInclusive (redOp ty op) 4 l).map fun x => if ty = .fp32 then delivered32 x else x
  if ex then redIdentity ty op :: y.take 15 else y

/-- DSCAN (04 R130, 03 R111): disabled lanes keep their old values. -/
def execDscan (ty : Lane2) (op : RedOp) (ex : Bool) (d a : BitVec 5) (mask : BitVec 6) (s : State) : Out :=
  .next (s.withSrc (fun c => (c.srcD a).andThen fun x c => (c.srcMask mask).andThen fun m c => .ok (x, m) c) fun r s =>
    let y := scanLanes ty op ex (enteredLanes ty op r.2 r.1)
    s.retireD d (mergeD r.2 (s.cx.rd d) fun l => (y[l]?).getD 0#32))
/-- DRED (04 R133): the tree's result in lane 0 and zero in the others. -/
def execDred (ty : Lane2) (op : RedOp) (d a : BitVec 5) (mask : BitVec 6) (s : State) : Out :=
  .next (s.withSrc (fun c => (c.srcD a).andThen fun x c => (c.srcMask mask).andThen fun m c => .ok (x, m) c) fun r s =>
    let y := treeReduce (redOp ty op) 4 (enteredLanes ty op r.2 r.1)
    s.retireD d (((y[0]?).getD 0#32).setWidth 512))

/-- The enabled lanes below `n` whose key is k (04 R134). -/
def keyCount (keys : BitVec 512) (mask : BitVec 16) (n : Nat) (k : Int) : Nat :=
  (List.range n).countP fun j => mask.getLsbD j && (dLane keys j).toInt == k

/-- DHIST and DHIST.RANK (04 R134). -/
def execDhist (rank : Bool) (d a b : BitVec 5) (mask : BitVec 6) (s : State) : Out :=
  .next (s.withSrc (fun c => (c.srcD a).andThen fun x c => (c.srcD b).andThen fun y c => (c.srcMask mask).andThen fun m c =>
      .ok (x, y, m) c) fun r s =>
    let keys := r.1
    let base := r.2.1
    let m := r.2.2
    if rank then
      s.retireD d (mergeD m (s.cx.rd d) fun l =>
        let k := (dLane keys l).toInt
        if 0 ≤ k ∧ k ≤ 15 then dLane base k.toNat + BitVec.ofNat 32 (keyCount keys m l k) else 0xFFFFFFFF#32)
    else s.retireD d (buildD fun k => dLane base k + BitVec.ofNat 32 (keyCount keys m 16 k)))
/-- DIOTA: start + l·step modulo 2^32 (04 R130). -/
def execDiota (d : BitVec 5) (start : BitVec 9) (step : BitVec 6) (mask : BitVec 6) (s : State) : Out :=
  .next (s.withSrc (fun c => c.srcMask mask) fun m s =>
    s.retireD d (mergeD m (s.cx.rd d) fun l => start.signExtend 32 + BitVec.ofNat 32 l * step.signExtend 32))

end Sys2Proof.Machine
end

