-- ==== Sys2Proof/Machine/Timed.lean ====
section
/-!
DEFINITION. What the timed engines share: nullification (01 R14), reads and writes of the Mere and the Loft within the
launch's share (01 R18; 08 R261, R264; 07 R223, R224), neighbours and hops (07 R210, R230), and the errors that a tile meets.
-/

namespace Sys2Proof.Machine

/-- SCYC of the tile in focus (11 R325). -/
def State.now (s : State) : Nat := s.job.scyc s.focus.tile

/-- The count of a node that goes on once the permanent hold of a stop has reached it: a Mill operation that has issued
runs to its ready cycle (06 R207), and a write burst placed by then is performed (12 R349). Else SCYC. An operation that runs on
before a save reads what its memories then hold: what lands after the stop cycle waits for the restore (12 R357; DESIGN CHOICE, log
116). -/
def Job.runOn (j : Job) (n : Nat) : Nat :=
  match (j.node n).stop with
  | some x => j.tb - x.2
  | none => j.scyc n

/-- Whether an instruction with flag field `nf` is nullified (01 R14, 02 R57). -/
def State.nullified (s : State) (nf : BitVec 4) : Bool := nf != 0#4 && s.tl.nf.getLsbD nf.toNat

/-- V[r] of a tile. -/
def Tile.vr (t : Tile) (r : Nat) : BitVec 1024 := SMap.get t.v r
/-- Lane l of a V-register value. -/
def vLane (v : BitVec 1024) (l : Nat) : BitVec 32 := v.extractLsb' (32 * l) 32
/-- A value of lanes, lowest first. -/
def ofLanes32 : List (BitVec 32) → BitVec 1024
  | [] => 0#1024
  | b :: r => (b.setWidth 1024) ||| (ofLanes32 r <<< 32)
/-- The value whose lane l is f l. -/
def buildV (f : Nat → BitVec 32) : BitVec 1024 := ofLanes32 ((List.range 32).map f)

/-! ## Memory errors (08 R261, R262; 12 R342, R352) -/

/-- The keys of poisoned words outside the physical map: Loft and staging words, bank elements, register lanes. -/
def poisonLoft (t a : Nat) : Nat := 2 ^ 80 + t * 2 ^ 22 + a / 8 * 8
def poisonBank (t bank i : Nat) : Nat := 2 ^ 81 + (t * 8 + bank) * 1024 + i
def poisonReg (t r l : Nat) : Nat := 2 ^ 82 + (t * 2048 + r) * 32 + l

/-- The tile of a poisoned bank element or register lane. -/
def poisonTile (k : Nat) : Option Nat :=
  if 2 ^ 82 ≤ k then some ((k - 2 ^ 82) / 32 / 2048) else if 2 ^ 81 ≤ k then some ((k - 2 ^ 81) / 1024 / 8) else none

/-- What a timed read finds: the bytes, whether one lay outside the share (01 R18), and whether one was uncorrectable. -/
structure TRead where
  bytes : List Byte
  bound : Bool
  broken : Bool
  deriving DecidableEq, Repr

/-- Whether a Mere address lies in the launch's share. -/
def Part.mereIn (p : Part) (a : Nat) : Bool :=
  decide (p.place.mbase * 65536 ≤ a) && decide (a < (p.place.mbase + p.place.mlen) * 65536)

/-- Whether a Loft slice offset lies in the launch's share. -/
def Part.loftIn (p : Part) (o : Nat) : Bool :=
  decide (p.place.fbase * 65536 ≤ o) && decide (o < (p.place.fbase + p.place.flen) * 65536)

/-- Bytes of a tile's Mere from address a, each modulo 2^21 (01 R18, 08 R264): `phys` for the reads that take the storage
byte as it stands, else the present plane, with a region's hidden part outside the share (07 R223). -/
def State.mereRead (s : State) (t a n : Nat) (phys : Bool) : TRead :=
  let st := (s.tileAt t).stepped
  let go := (List.range n).map fun i =>
    let o := (a + i) % 2 ^ 21
    if s.pt.mereIn o && (phys || !st.hidden o) then
      (SMap.get s.pt.mere (t * 2 ^ 21 + if phys then o else st.present o), false, s.pt.poisoned (.mere t (if phys then o else st.present o)))
    else (0#8, true, false)
  { bytes := go.map fun x => x.1, bound := go.any fun x => x.2.1, broken := go.any fun x => x.2.2 }

/-- Bytes of a tile's Loft slice from offset o, each modulo 2^17. -/
def State.loftRead (s : State) (t slice o n : Nat) : TRead :=
  let go := (List.range n).map fun i =>
    let b := (o + i) % 2 ^ 17
    if s.pt.loftIn b then
      (SMap.get s.pt.loft (t * 2 ^ 22 + slice * 2 ^ 17 + b), false, s.pt.poison.contains (poisonLoft t (slice * 2 ^ 17 + b)))
    else (0#8, true, false)
  { bytes := go.map fun x => x.1, bound := go.any fun x => x.2.1, broken := go.any fun x => x.2.2 }

/-- TSTAT.BOUND of tile t set when `b` holds (01 R18). -/
def State.noteBound (t : Nat) (b : Bool) (s : State) : State := if b then s.onTileAt t (setStat boundBit true) else s

/-- An uncorrectable error met by a timed read of tile t stops the partition (08 R261, 12 R352). -/
def State.tileError (t : Nat) (detail : BitVec 8) (s : State) : State := s.gangStop (.tile t) 0x18#8 detail 0#8 0#64

/-- What a timed read of tile t leaves: the BOUND bit, and a gang stop where the read met an uncorrectable word. -/
def State.afterRead (t : Nat) (detail : BitVec 8) (r : TRead) (s : State) : State :=
  let u := s.noteBound t r.bound
  if r.broken then u.tileError t detail else u

/-- The words of the Mere that n bytes written from a cover whole lose their poison (08 R261). -/
def State.mereClean (t a n : Nat) (s : State) : State :=
  s.onPt (Part.clean (fun o => .mere t (o % 2 ^ 21)) a n)

/-- One aligned piece of a timed write to a tile's Mere (07 R223, 08 R264): a region address writes the next plane, its
hidden part and what lies outside the share is discarded. -/
def State.merePiece (t o : Nat) (bytes : List Byte) (writer : Nat) (prio : BitVec 2) (s : State) : State :=
  if !s.pt.mereIn o then s.noteBound t true
  else
    match (s.tileAt t).stepped.find o with
    | none => (s.onPt fun p => { p with mere := writeMem p.mere (t * 2 ^ 21 + o) bytes }).mereClean t o bytes.length
    | some (_, e) =>
      if rgBase e + rgSize e ≤ o then s.noteBound t true
      else
        match stepStore s.pt.mere (t * 2 ^ 21) (s.tileAt t).stepped o writer prio true (wholeBytes bytes) with
        | .ok m st =>
          (s.onPt fun p => Part.cleanNext (.mere t) (s.tileAt t).stepped o bytes.length { p with mere := m }).onTileAt t fun x =>
            { x with stepped := st }
        | .collision => s

/-- A timed write to a tile's Mere from address a, in aligned pieces of at most 8 bytes, each address modulo 2^21. -/
def State.mereWrite (t a : Nat) (bytes : List Byte) (writer : Nat) (prio : BitVec 2) (s : State) : State :=
  (splitParts a (bytes.length + 1) 0 bytes.length).foldl (fun s p =>
    s.merePiece t ((a + p.1) % 2 ^ 21) ((bytes.drop p.1).take p.2) writer prio) s

/-- A timed write to a tile's Loft slice from offset o, each address modulo 2^17 (01 R18). -/
def State.loftWrite (t slice o : Nat) (bytes : List Byte) (s : State) : State :=
  let l := (List.range bytes.length).map fun i => ((o + i) % 2 ^ 17, (bytes[i]?).getD 0#8)
  let u := s.onPt fun p =>
    { p with
      loft := l.foldl (fun m x => if p.loftIn x.1 then SMap.set m (t * 2 ^ 22 + slice * 2 ^ 17 + x.1) x.2 else m) p.loft
      poison := p.poison.filter fun k =>
        !((List.range (bytes.length / 8)).any fun i =>
          k == poisonLoft t (slice * 2 ^ 17 + (o + 8 * i) % 2 ^ 17) && o % 8 == 0 && p.loftIn ((o + 8 * i) % 2 ^ 17)) }
  u.noteBound t (l.any fun x => !s.pt.loftIn x.1)

/-- Where unit j of a Loft transfer from LOC goes (07 R228): slice and offset. -/
def loftPlace (loc j : Nat) (spread : Bool) : Nat × Nat :=
  let s0 := loc / 2 ^ 17 % 32
  let o0 := loc % 2 ^ 17
  if spread then ((s0 + j) % 32, (o0 + 64 * ((s0 + j) / 32)) % 2 ^ 17) else (s0, (o0 + 64 * j) % 2 ^ 17)

/-! ## Neighbours (07 R210, R230) -/

/-- Where a beat sent in a direction goes: a tile of the partition with its hop, or another package. -/
inductive Toward where
  | tile (t hop : Nat) | causeway (west : Bool) (row : Nat) | nowhere
  deriving DecidableEq, Repr

/-- The tile at a partition-local place, when it lies in the partition and the link to it is open. -/
def Part.step (p : Part) (t x y : Nat) : Toward :=
  let u := y * p.width + x
  let qt := p.tileQuarter t
  let qu := p.tileQuarter u
  if qt = qu then .tile u 1 else if p.linkOpen qt qu then .tile u 4 else .nowhere

/-- The neighbour of a tile in a direction: north is the lower row. -/
def Part.toward (p : Part) (t : Nat) (d : Dir) : Toward :=
  let x := p.tileX t
  let y := p.tileY t
  let row := p.pkgY t
  match d with
  | .n => if 0 < y then p.step t x (y - 1) else .nowhere
  | .s => if y + 1 < p.height then p.step t x (y + 1) else .nowhere
  | .e =>
    if x + 1 < p.width then p.step t (x + 1) y
    else if p.pkgX t = 23 ∧ (1, row / 2) ∈ p.causeways then .causeway false row else .nowhere
  | .w =>
    if 0 < x then p.step t (x - 1) y
    else if p.pkgX t = 0 ∧ (0, row / 2) ∈ p.causeways then .causeway true row else .nowhere

/-- The direction from which a beat sent in a direction arrives. -/
def Dir.opposite : Dir → Dir
  | .n => .s
  | .s => .n
  | .e => .w
  | .w => .e

/-- A direction's number (02 R64). -/
def dirNum : Dir → Nat
  | .n => 0
  | .e => 1
  | .s => 2
  | .w => 3

/-- What leaves over a Causeway in tc `at_` is under way until it is presented 64 tc later (11 R339). -/
def Tile.sentAfar (at_ : Nat) (t : Tile) : Tile := { t with afar := t.afar ++ [at_ + 64] }

/-- A beat sent by tile t in its tc `at_` (07 R210, R229). -/
def State.sendBeat (t : Nat) (d : Dir) (at_ : Nat) (data : BitVec 1024) (land : Option Landing) (s : State) : State :=
  match s.pt.toward t d with
  | .tile u hop => (s.onTileAt u fun x =>
      { x with beats := x.beats ++ [{ dir := Dir.opposite d, due := at_ + hop, data := data, land := land }] }).onTileAt t
        (Tile.bump 5 1)
  | .causeway west row => 
    { (s.onTileAt t (Tile.bump 5 1 ∘ Tile.sentAfar at_)) with out := s.out ++ [.beat west row data land (at_ + 64)] }
  | .nowhere => s

/-- A metadata pair sent by tile t in its tc `at_` (07 R231). -/
def State.sendPair (t : Nat) (d : Dir) (at_ : Nat) (slot word : BitVec 32) (dst : Nat) (s : State) : State :=
  match s.pt.toward t d with
  | .tile u hop => s.onTileAt u fun x => { x with pairs := x.pairs ++ [{ due := at_ + hop, hop := hop, slot := slot, word := word, dst := dst, writer := t }] }
  | .causeway west row => { (s.onTileAt t (Tile.sentAfar at_)) with out := s.out ++ [.pair west row slot word dst t (at_ + 64)] }
  | .nowhere => s

/-- The (j + 1)-th eligible cycle after issue (07 R229, R230): every cycle, or, across a Causeway hop, those of the row's
parity. -/
def Part.eligible (p : Part) (t : Nat) (d : Dir) (issue j : Nat) : Nat :=
  match p.toward t d with
  | .causeway _ row => issue + 1 + (issue + 1 + row) % 2 + 2 * j
  | _ => issue + 1 + j

end Sys2Proof.Machine
end

