-- ==== Sys2Proof/Machine/Vfunc.lean ====
section
/-!
DEFINITION. The vector functions of 03 R112-R116 by their algorithms. Every table entry and coefficient is the FP32
rounding of the real number that the rule states.
-/

namespace Sys2Proof.Machine

/-- TRcp (03 R113): entry i is 1 / (1 + (2i + 1)/256), rounded to FP32. -/
def tRcp : List Nat :=
  [0x3F7F00FF, 0x3F7D08E5, 0x3F7B1885, 0x3F792FB2, 0x3F774E40, 0x3F757404, 0x3F73A0D5, 0x3F71D48C]
    ++ [0x3F700F01, 0x3F6E500F, 0x3F6C9791, 0x3F6AE564, 0x3F693965, 0x3F679373, 0x3F65F36D, 0x3F645933]
    ++ [0x3F62C4A7, 0x3F6135AA, 0x3F5FAC1F, 0x3F5E27EB, 0x3F5CA8F1, 0x3F5B2F17, 0x3F59BA42, 0x3F584A5A]
    ++ [0x3F56DF44, 0x3F5578E9, 0x3F541733, 0x3F52BA08, 0x3F516154, 0x3F500D01, 0x3F4EBCF9, 0x3F4D7127]
    ++ [0x3F4C2978, 0x3F4AE5D8, 0x3F49A634, 0x3F486A79, 0x3F473294, 0x3F45FE74, 0x3F44CE08, 0x3F43A13E]
    ++ [0x3F427806, 0x3F415250, 0x3F40300C, 0x3F3F112B, 0x3F3DF59D, 0x3F3CDD53, 0x3F3BC841, 0x3F3AB656]
    ++ [0x3F39A786, 0x3F389BC3, 0x3F379301, 0x3F368D31, 0x3F358A48, 0x3F348A3A, 0x3F338CFA, 0x3F32927C]
    ++ [0x3F319AB6, 0x3F30A59B, 0x3F2FB322, 0x3F2EC33E, 0x3F2DD5E6, 0x3F2CEB10, 0x3F2C02B0, 0x3F2B1CBE]
    ++ [0x3F2A392F, 0x3F2957FB, 0x3F287917, 0x3F279C7B, 0x3F26C21E, 0x3F25E9F7, 0x3F2513FD, 0x3F244029]
    ++ [0x3F236E72, 0x3F229ECF, 0x3F21D13A, 0x3F2105A9, 0x3F203C17, 0x3F1F747A, 0x3F1EAECD, 0x3F1DEB07]
    ++ [0x3F1D2922, 0x3F1C6917, 0x3F1BAADF, 0x3F1AEE73, 0x3F1A33CD, 0x3F197AE7, 0x3F18C3BB, 0x3F180E41]
    ++ [0x3F175A75, 0x3F16A850, 0x3F15F7CC, 0x3F1548E5, 0x3F149B93, 0x3F13EFD2, 0x3F13459C, 0x3F129CEC]
    ++ [0x3F11F5BD, 0x3F115009, 0x3F10ABCC, 0x3F100901, 0x3F0F67A2, 0x3F0EC7AB, 0x3F0E2918, 0x3F0D8BE3]
    ++ [0x3F0CF009, 0x3F0C5584, 0x3F0BBC51, 0x3F0B246B, 0x3F0A8DCD, 0x3F09F874, 0x3F09645C, 0x3F08D181]
    ++ [0x3F083FDE, 0x3F07AF70, 0x3F072033, 0x3F069223, 0x3F06053C, 0x3F05797C, 0x3F04EEDD, 0x3F04655E]
    ++ [0x3F03DCF9, 0x3F0355AD, 0x3F02CF75, 0x3F024A4E, 0x3F01C636, 0x3F014328, 0x3F00C122, 0x3F004020]

/-- TRsq (03 R114): entry 64p + j is 1 / sqrt((1 + (2j + 1)/128) · 2^p). -/
def tRsq : List Nat :=
  [0x3F7F017E, 0x3F7D0D3E, 0x3F7B2452, 0x3F79464E, 0x3F7772CB, 0x3F75A969, 0x3F73E9CB, 0x3F723399]
    ++ [0x3F708681, 0x3F6EE232, 0x3F6D4660, 0x3F6BB2C5, 0x3F6A271A, 0x3F68A31D, 0x3F672691, 0x3F65B139]
    ++ [0x3F6442DB, 0x3F62DB41, 0x3F617A36, 0x3F601F87, 0x3F5ECB04, 0x3F5D7C7F, 0x3F5C33CC, 0x3F5AF0BF]
    ++ [0x3F59B330, 0x3F587AF7, 0x3F5747EE, 0x3F5619F2, 0x3F54F0DF, 0x3F53CC93, 0x3F52ACEE, 0x3F5191D1]
    ++ [0x3F507B1D, 0x3F4F68B6, 0x3F4E5A7F, 0x3F4D505E, 0x3F4C4A38, 0x3F4B47F4, 0x3F4A497A, 0x3F494EB3]
    ++ [0x3F485787, 0x3F4763E2, 0x3F4673AC, 0x3F4586D3, 0x3F449D42, 0x3F43B6E6, 0x3F42D3AD, 0x3F41F383]
    ++ [0x3F411659, 0x3F403C1C, 0x3F3F64BD, 0x3F3E902C, 0x3F3DBE58, 0x3F3CEF34, 0x3F3C22B1, 0x3F3B58C0]
    ++ [0x3F3A9154, 0x3F39CC60, 0x3F3909D6, 0x3F3849AA, 0x3F378BD0, 0x3F36D03D, 0x3F3616E4, 0x3F355FBA]
    ++ [0x3F3450FC, 0x3F32EF41, 0x3F319589, 0x3F304387, 0x3F2EF8F2, 0x3F2DB587, 0x3F2C7904, 0x3F2B432A]
    ++ [0x3F2A13C0, 0x3F28EA8C, 0x3F27C759, 0x3F26A9F4, 0x3F25922C, 0x3F247FD3, 0x3F2372BD, 0x3F226ABE]
    ++ [0x3F2167AF, 0x3F206968, 0x3F1F6FC4, 0x3F1E7AA0, 0x3F1D89D9, 0x3F1C9D4E, 0x3F1BB4E1, 0x3F1AD073]
    ++ [0x3F19EFE6, 0x3F191320, 0x3F183A05, 0x3F17647C, 0x3F16926C, 0x3F15C3BC, 0x3F14F857, 0x3F143026]
    ++ [0x3F136B13, 0x3F12A90B, 0x3F11E9F9, 0x3F112DCA, 0x3F10746D, 0x3F0FBDCE, 0x3F0F09DD, 0x3F0E5889]
    ++ [0x3F0DA9C2, 0x3F0CFD79, 0x3F0C539F, 0x3F0BAC25, 0x3F0B06FD, 0x3F0A641A, 0x3F09C36D, 0x3F0924EC]
    ++ [0x3F088889, 0x3F07EE37, 0x3F0755ED, 0x3F06BF9E, 0x3F062B40, 0x3F0598C7, 0x3F05082A, 0x3F04795F]
    ++ [0x3F03EC5C, 0x3F036117, 0x3F02D788, 0x3F024FA6, 0x3F01C967, 0x3F0144C4, 0x3F00C1B4, 0x3F004030]

/-- TInv (03 R115): entry i is 1 / (1 + i/128). -/
def tInv : List Nat :=
  [0x3F800000, 0x3F7E03F8, 0x3F7C0FC1, 0x3F7A232D, 0x3F783E10, 0x3F76603E, 0x3F74898D, 0x3F72B9D6]
    ++ [0x3F70F0F1, 0x3F6F2EB7, 0x3F6D7304, 0x3F6BBDB3, 0x3F6A0EA1, 0x3F6865AC, 0x3F66C2B4, 0x3F652598]
    ++ [0x3F638E39, 0x3F61FC78, 0x3F607038, 0x3F5EE95C, 0x3F5D67C9, 0x3F5BEB62, 0x3F5A740E, 0x3F5901B2]
    ++ [0x3F579436, 0x3F562B81, 0x3F54C77B, 0x3F53680D, 0x3F520D21, 0x3F50B6A0, 0x3F4F6475, 0x3F4E168A]
    ++ [0x3F4CCCCD, 0x3F4B8728, 0x3F4A4588, 0x3F4907DA, 0x3F47CE0C, 0x3F46980C, 0x3F4565C8, 0x3F443730]
    ++ [0x3F430C31, 0x3F41E4BC, 0x3F40C0C1, 0x3F3FA030, 0x3F3E82FA, 0x3F3D6910, 0x3F3C5264, 0x3F3B3EE7]
    ++ [0x3F3A2E8C, 0x3F392144, 0x3F381703, 0x3F370FBB, 0x3F360B61, 0x3F3509E7, 0x3F340B41, 0x3F330F63]
    ++ [0x3F321643, 0x3F311FD4, 0x3F302C0B, 0x3F2F3ADE, 0x3F2E4C41, 0x3F2D602B, 0x3F2C7692, 0x3F2B8F6A]
    ++ [0x3F2AAAAB, 0x3F29C84A, 0x3F28E83F, 0x3F280A81, 0x3F272F05, 0x3F2655C4, 0x3F257EB5, 0x3F24A9CF]
    ++ [0x3F23D70A, 0x3F23065E, 0x3F2237C3, 0x3F216B31, 0x3F20A0A1, 0x3F1FD80A, 0x3F1F1166, 0x3F1E4CAD]
    ++ [0x3F1D89D9, 0x3F1CC8E1, 0x3F1C09C1, 0x3F1B4C70, 0x3F1A90E8, 0x3F19D723, 0x3F191F1A, 0x3F1868C8]
    ++ [0x3F17B426, 0x3F17012E, 0x3F164FDA, 0x3F15A025, 0x3F14F209, 0x3F144581, 0x3F139A86, 0x3F12F114]
    ++ [0x3F124925, 0x3F11A2B4, 0x3F10FDBC, 0x3F105A38, 0x3F0FB824, 0x3F0F177A, 0x3F0E7835, 0x3F0DDA52]
    ++ [0x3F0D3DCB, 0x3F0CA29C, 0x3F0C08C1, 0x3F0B7034, 0x3F0AD8F3, 0x3F0A42F8, 0x3F09AE41, 0x3F091AC7]
    ++ [0x3F088889, 0x3F07F781, 0x3F0767AB, 0x3F06D905, 0x3F064B8A, 0x3F05BF37, 0x3F053408, 0x3F04A9FA]
    ++ [0x3F042108, 0x3F039930, 0x3F03126F, 0x3F028CC0, 0x3F020821, 0x3F01848E, 0x3F010204, 0x3F008081]

/-- TLg (03 R115): entry i is log2(1 + i/128). -/
def tLg : List Nat :=
  [0x00000000, 0x3C37F286, 0x3CB73CB4, 0x3D08E68F, 0x3D35D69C, 0x3D626FD6, 0x3D8759C5, 0x3D9D517F]
    ++ [0x3DB31FB8, 0x3DC8C50B, 0x3DDE4212, 0x3DF39761, 0x3E0462C4, 0x3E0EE68D, 0x3E19574F, 0x3E23B550]
    ++ [0x3E2E00D2, 0x3E383A17, 0x3E42615F, 0x3E4C76E8, 0x3E567AF1, 0x3E606DB6, 0x3E6A4F72, 0x3E74205F]
    ++ [0x3E7DE0B6, 0x3E83C857, 0x3E88983F, 0x3E8D602E, 0x3E92203D, 0x3E96D888, 0x3E9B8926, 0x3EA03232]
    ++ [0x3EA4D3C2, 0x3EA96DF0, 0x3EAE00D2, 0x3EB28C7F, 0x3EB7110E, 0x3EBB8E96, 0x3EC0052B, 0x3EC474E4]
    ++ [0x3EC8DDD4, 0x3ECD4012, 0x3ED19BB0, 0x3ED5F0C4, 0x3EDA3F60, 0x3EDE8797, 0x3EE2C97D, 0x3EE70525]
    ++ [0x3EEB3A9F, 0x3EEF69FF, 0x3EF39355, 0x3EF7B6B4, 0x3EFBD42B, 0x3EFFEBCD, 0x3F01FED4, 0x3F0404E8]
    ++ [0x3F060828, 0x3F08089E, 0x3F0A0650, 0x3F0C0146, 0x3F0DF989, 0x3F0FEF1F, 0x3F11E20F, 0x3F13D260]
    ++ [0x3F15C01A, 0x3F17AB44, 0x3F1993E3, 0x3F1B7A00, 0x3F1D5DA0, 0x3F1F3ECA, 0x3F211D84, 0x3F22F9D5]
    ++ [0x3F24D3C2, 0x3F26AB53, 0x3F28808C, 0x3F2A5374, 0x3F2C2411, 0x3F2DF268, 0x3F2FBE80, 0x3F31885C]
    ++ [0x3F335004, 0x3F35157D, 0x3F36D8CB, 0x3F3899F5, 0x3F3A58FF, 0x3F3C15EE, 0x3F3DD0C8, 0x3F3F8991]
    ++ [0x3F41404F, 0x3F42F506, 0x3F44A7BA, 0x3F465872, 0x3F480731, 0x3F49B3FB, 0x3F4B5ED7, 0x3F4D07C7]
    ++ [0x3F4EAED0, 0x3F5053F7, 0x3F51F740, 0x3F5398AF, 0x3F553848, 0x3F56D60F, 0x3F587209, 0x3F5A0C3A]
    ++ [0x3F5BA4A4, 0x3F5D3B4E, 0x3F5ED039, 0x3F60636A, 0x3F61F4E5, 0x3F6384AD, 0x3F6512C7, 0x3F669F35]
    ++ [0x3F6829FB, 0x3F69B31E, 0x3F6B3A9F, 0x3F6CC083, 0x3F6E44CD, 0x3F6FC781, 0x3F7148A1, 0x3F72C832]
    ++ [0x3F744636, 0x3F75C2B0, 0x3F773DA4, 0x3F78B714, 0x3F7A2F04, 0x3F7BA578, 0x3F7D1A71, 0x3F7E8DF2]

/-- TExp (03 R116): entry i is 2^(i/64). -/
def tExp : List Nat :=
  [0x3F800000, 0x3F8164D2, 0x3F82CD87, 0x3F843A29, 0x3F85AAC3, 0x3F871F62, 0x3F88980F, 0x3F8A14D5]
    ++ [0x3F8B95C2, 0x3F8D1ADF, 0x3F8EA43A, 0x3F9031DC, 0x3F91C3D3, 0x3F935A2B, 0x3F94F4F0, 0x3F96942D]
    ++ [0x3F9837F0, 0x3F99E046, 0x3F9B8D3A, 0x3F9D3EDA, 0x3F9EF532, 0x3FA0B051, 0x3FA27043, 0x3FA43516]
    ++ [0x3FA5FED7, 0x3FA7CD94, 0x3FA9A15B, 0x3FAB7A3A, 0x3FAD583F, 0x3FAF3B79, 0x3FB123F6, 0x3FB311C4]
    ++ [0x3FB504F3, 0x3FB6FD92, 0x3FB8FBAF, 0x3FBAFF5B, 0x3FBD08A4, 0x3FBF179A, 0x3FC12C4D, 0x3FC346CD]
    ++ [0x3FC5672A, 0x3FC78D75, 0x3FC9B9BE, 0x3FCBEC15, 0x3FCE248C, 0x3FD06334, 0x3FD2A81E, 0x3FD4F35B]
    ++ [0x3FD744FD, 0x3FD99D16, 0x3FDBFBB8, 0x3FDE60F5, 0x3FE0CCDF, 0x3FE33F89, 0x3FE5B907, 0x3FE8396A]
    ++ [0x3FEAC0C7, 0x3FED4F30, 0x3FEFE4BA, 0x3FF28177, 0x3FF5257D, 0x3FF7D0DF, 0x3FFA83B3, 0x3FFD3E0C]

/-- A1 to A4 (03 R115): (−1)^(k+1) / (k · ln 2). -/
def coefA : List Nat :=
  [0x3FB8AA3B, 0xBF38AA3B, 0x3EF6384F, 0xBEB8AA3B]

/-- B1 to B4 (03 R116): (ln 2)^k / k!. -/
def coefB : List Nat :=
  [0x3F317218, 0x3E75FDF0, 0x3D635847, 0x3C1D955B]

/-- Entry i of a table. -/
def entry (t : List Nat) (i : Nat) : BitVec 32 := BitVec.ofNat 32 (t[i]?.getD 0)

/-- 1.0 in FP32. -/
def one32 : BitVec 32 := 0x3F800000#32
/-- The canonical NaN of FP32 (03 R90). -/
def nan32 : BitVec 32 := 0x7FC00000#32
/-- An FP32 pattern with its sign changed. -/
def neg32 (v : BitVec 32) : BitVec 32 := v ^^^ 0x80000000#32

/-- Decompose (03 R112) of a nonzero finite value: m in [1, 2) as an FP32 pattern, and e. -/
def decompose (v : Dy) : BitVec 32 × Int :=
  let e := v.exp
  (fp32 .rne (.fin { v.abs with e := v.abs.e - e }), e)

/-- Scale (03 R112). -/
def scale32 (v : BitVec 32) (n : Int) : BitVec 32 :=
  match num32 v with
  | .fin w => fp32 .rne (.fin { w with e := w.e + n })
  | x => fp32 .rne x

/-- The fraction field of m's top `b` bits: floor((m − 1) · 2^b). -/
def topIndex (m : BitVec 32) (b : Nat) : Nat := (m.toNat % 2 ^ 23) / 2 ^ (23 - b)

/-- VRCP on one FP32 lane (03 R113). -/
def vrcp32 (x : BitVec 32) : BitVec 32 :=
  match num32 x with
  | .nan => nan32
  | .inf s => if s then 0x80000000#32 else 0#32
  | .zero s => if s then 0xFF800000#32 else 0x7F800000#32
  | .fin v =>
    let d := decompose v
    let m := d.1
    let y := entry tRcp (topIndex m 7)
    let y := fma32 .rne y (fma32 .rne (neg32 m) y one32) y
    let y := fma32 .rne y (fma32 .rne (neg32 m) y one32) y
    let r := scale32 y (-d.2)
    if v.m < 0 then neg32 r else r

/-- One step of VRSQ (03 R114). -/
def rsqStep (mm y : BitVec 32) : BitVec 32 :=
  fma32 .rne (fmul32 .rne y 0x3F000000#32) (fma32 .rne (neg32 mm) (fmul32 .rne y y) one32) y

/-- VRSQ on one FP32 lane (03 R114). -/
def vrsq32 (x : BitVec 32) : BitVec 32 :=
  match num32 x with
  | .nan => nan32
  | .inf s => if s then nan32 else 0#32
  | .zero s => if s then 0xFF800000#32 else 0x7F800000#32
  | .fin v =>
    if v.m < 0 then nan32
    else
      let d := decompose v
      let p := d.2 % 2
      let h := (d.2 - p) / 2
      let mm := scale32 d.1 p
      let y := entry tRsq (64 * p.toNat + topIndex d.1 6)
      let y := rsqStep mm (rsqStep mm y)
      scale32 y (-h)

/-- VLOG2 on one FP32 lane (03 R115). -/
def vlog32 (x : BitVec 32) : BitVec 32 :=
  match num32 x with
  | .nan => nan32
  | .inf s => if s then nan32 else 0x7F800000#32
  | .zero _ => 0xFF800000#32
  | .fin v =>
    if v.m < 0 then nan32
    else
      let d := decompose v
      let i := topIndex d.1 7
      let u := fma32 .rne d.1 (entry tInv i) 0xBF800000#32
      let q := fma32 .rne u (entry coefA 3) (entry coefA 2)
      let q := fma32 .rne u q (entry coefA 1)
      let q := fma32 .rne u q (entry coefA 0)
      let q := fmul32 .rne u q
      let e := fp32 .rne (Num.ofDy (.int d.2))
      fadd32 .rne (fadd32 .rne e (entry tLg i)) q

/-- VEXP2 on one FP32 lane (03 R116). -/
def vexp32 (x : BitVec 32) : BitVec 32 :=
  let go := fun (v : Dy) =>
    let n := v.floorAt 0
    let i := (v.add (.int (-n))).floorAt (-6)
    let u := fp32 .rne (Num.ofDy ((v.add (.int (-n))).add { m := -i, e := -6 }))
    let q := fma32 .rne u (entry coefB 3) (entry coefB 2)
    let q := fma32 .rne u q (entry coefB 1)
    let q := fma32 .rne u q (entry coefB 0)
    let q := fmul32 .rne u q
    let t := entry tExp i.toNat
    scale32 (fma32 .rne t q t) n
  match num32 x with
  | .nan => nan32
  | .inf s => if s then 0#32 else 0x7F800000#32
  | .zero _ => go (.int 0)
  | .fin v =>
    if (Dy.int 128).le v then 0x7F800000#32
    else if v.lt (.int (-150)) then 0#32
    else go v

end Sys2Proof.Machine
end

