-- ==== Sys2Proof/Machine/Vec.lean ====
section
/-!
DEFINITION. The vector pipe (07 R208-R223): the instructions of group 5, the landing of their results, and the arrival of
link beats (R210).
-/

namespace Sys2Proof.Machine

/-! ## Issue and results -/

/-- The beat present on an incoming link in tc issue - 1, else zeros (07 R210). -/
def Tile.linkIn (t : Tile) (now : Nat) (d : Dir) : BitVec 1024 :=
  match SMap.get t.present (dirNum d) with
  | some (c, v) => if c + 1 = now then v else 0#1024
  | none => 0#1024

/-- Operand a of an FV3 instruction (07 R210). -/
def State.vsrc (s : State) (a : VSrc) : BitVec 1024 :=
  match a with
  | .reg r => s.tl.vr r.toNat
  | .link d => s.tl.linkIn s.now d

/-- The register that operand a reads. -/
def VSrc.regs : VSrc → List Nat
  | .reg r => [r.toNat]
  | .link _ => []

/-- Whether a lane of one of these registers is uncorrectable (08 R261). -/
def State.regsBroken (s : State) (regs : List Nat) : Bool :=
  regs.any fun r => (List.range 32).any fun l => s.pt.poison.contains (poisonReg s.focus.tile r l)

/-- A VEC instruction issues (07 R208, R210): its results reach their registers at issue + lat - 1, with the beat of a link
sink; a nullified one does nothing. -/
def State.vecIssue (nf : BitVec 4) (regs : List Nat) (lat : Nat) (sink : Option Dir) (writes : List (Nat × BitVec 1024)) (s : State) :
    State :=
  if s.nullified nf then s
  else if s.regsBroken regs then s.tileError s.focus.tile 0x05#8
  else
    s.onTl fun t => { t with vwrites := t.vwrites ++ writes.map fun w =>
      { due := s.now + lat - 1, reg := w.1, lane := none, val := w.2, sink := sink, pread := false } }

/-- An instruction of sources a and b. -/
def State.vec2 (x : VArgs) (lat : Nat) (f : BitVec 1024 → BitVec 1024 → BitVec 1024) (s : State) : State :=
  s.vecIssue x.nf (x.b.toNat :: VSrc.regs x.a) lat x.sink [(x.d.toNat, f (s.vsrc x.a) (s.tl.vr x.b.toNat))]

/-- An instruction of sources a, b and the old destination. -/
def State.vec3 (x : VArgs) (lat : Nat) (f : BitVec 1024 → BitVec 1024 → BitVec 1024 → BitVec 1024) (s : State) : State :=
  s.vecIssue x.nf (x.b.toNat :: x.d.toNat :: VSrc.regs x.a) lat x.sink
    [(x.d.toNat, f (s.vsrc x.a) (s.tl.vr x.b.toNat) (s.tl.vr x.d.toNat))]

/-- An instruction of the one source a. -/
def State.vec1 (x : VArgs1) (lat : Nat) (f : BitVec 1024 → BitVec 1024) (s : State) : State :=
  s.vecIssue x.nf (VSrc.regs x.a) lat x.sink [(x.d.toNat, f (s.vsrc x.a))]

/-- A lane operation of a and b. -/
def lanes2V (f : BitVec 32 → BitVec 32 → BitVec 32) (a b : BitVec 1024) : BitVec 1024 := buildV fun l => f (vLane a l) (vLane b l)
/-- A lane operation of a, b and the old destination. -/
def lanes3V (f : BitVec 32 → BitVec 32 → BitVec 32 → BitVec 32) (a b d : BitVec 1024) : BitVec 1024 :=
  buildV fun l => f (vLane a l) (vLane b l) (vLane d l)

/-- The latency of VADD, VSUB, VMIN and VMAX (07 R208): 4 on floating lanes, else 2. -/
def addLat : VTy → Nat
  | .fp32 | .bf16x2 => 4
  | _ => 2

/-- A two-operand lane function by lane type (07 R212): FP32, BF16 halves, whole words, and 16-bit halves. -/
def byTy (ty : VTy) (f32 : BitVec 32 → BitVec 32 → BitVec 32) (f16 : BitVec 16 → BitVec 16 → BitVec 16)
    (i32 : BitVec 32 → BitVec 32 → BitVec 32) (i16 : BitVec 16 → BitVec 16 → BitVec 16) : BitVec 32 → BitVec 32 → BitVec 32 :=
  match ty with
  | .fp32 => f32
  | .int32 | .uint32 => i32
  | .bf16x2 => halves2 f16
  | .int16x2 => halves2 i16

/-- The lesser and the greater of two words, signed or not. -/
def least {w : Nat} (signed : Bool) (a b : BitVec w) : BitVec w := if (if signed then b.slt a else b.ult a) then b else a
def greatest {w : Nat} (signed : Bool) (a b : BitVec w) : BitVec w := if (if signed then a.slt b else a.ult b) then b else a

/-- Whether a lane type compares as signed. -/
def VTy.isSigned : VTy → Bool
  | .uint32 => false
  | _ => true

/-! ## Lane operations (07 R212) -/

/-- VADD (07 R212). -/
def execVadd (ty : VTy) (x : VArgs) (s : State) : Out :=
  .next (s.vec2 x (addLat ty) (lanes2V (byTy ty (fadd32 .rne) (fadd16 .rne) (fun a b => a + b) fun a b => a + b)))
/-- VSUB (07 R212). -/
def execVsub (ty : VTy) (x : VArgs) (s : State) : Out :=
  .next (s.vec2 x (addLat ty) (lanes2V (byTy ty (fsub32 .rne) (fsub16 .rne) (fun a b => a - b) fun a b => a - b)))
/-- VMUL (07 R212). -/
def execVmul (ty : VTy) (x : VArgs) (s : State) : Out :=
  .next (s.vec2 x 4 (lanes2V (byTy ty (fmul32 .rne) (fmul16 .rne) (fun a b => a * b) fun a b => a * b)))
/-- VFMA: a·b + d, rounded once (07 R212). -/
def execVfma (ty : VTy) (x : VArgs) (s : State) : Out :=
  .next (s.vec3 x 4 (lanes3V (match ty with
    | .fp32 => fma32 .rne
    | .int32 | .uint32 => fun a b d => a * b + d
    | .bf16x2 => halves3 (fma16 .rne)
    | .int16x2 => halves3 fun a b d => a * b + d)))
/-- VMIN (07 R212). -/
def execVmin (ty : VTy) (x : VArgs) (s : State) : Out :=
  .next (s.vec2 x (addLat ty) (lanes2V (byTy ty fmin32 fmin16 (least (VTy.isSigned ty)) (least true))))
/-- VMAX (07 R212). -/
def execVmax (ty : VTy) (x : VArgs) (s : State) : Out :=
  .next (s.vec2 x (addLat ty) (lanes2V (byTy ty fmax32 fmax16 (greatest (VTy.isSigned ty)) (greatest true))))
/-- VAND (07 R212). -/
def execVand (_ty : VTy) (x : VArgs) (s : State) : Out := .next (s.vec2 x 2 fun a b => a &&& b)
/-- VOR (07 R212). -/
def execVor (_ty : VTy) (x : VArgs) (s : State) : Out := .next (s.vec2 x 2 fun a b => a ||| b)
/-- VXOR (07 R212). -/
def execVxor (_ty : VTy) (x : VArgs) (s : State) : Out := .next (s.vec2 x 2 fun a b => a ^^^ b)

/-- A shift by bits 4:0 of the lane, or bits 3:0 of each half (07 R212). -/
def shiftBy (ty : VTy) (f32 : BitVec 32 → Nat → BitVec 32) (f16 : BitVec 16 → Nat → BitVec 16) : BitVec 32 → BitVec 32 → BitVec 32 :=
  match ty with
  | .int16x2 => halves2 fun a b => f16 a (b.toNat % 16)
  | _ => fun a b => f32 a (b.toNat % 32)

/-- VSHL (07 R212). -/
def execVshl (ty : VTy) (x : VArgs) (s : State) : Out :=
  .next (s.vec2 x 2 (lanes2V (shiftBy ty (fun a k => a <<< k) fun a k => a <<< k)))
/-- VSHR (07 R212). -/
def execVshr (ty : VTy) (x : VArgs) (s : State) : Out :=
  .next (s.vec2 x 2 (lanes2V (shiftBy ty (fun a k => a >>> k) fun a k => a >>> k)))
/-- VSRA (07 R212). -/
def execVsra (ty : VTy) (x : VArgs) (s : State) : Out :=
  .next (s.vec2 x 2 (lanes2V (shiftBy ty (fun a k => a.sshiftRight k) fun a k => a.sshiftRight k)))

/-- The relation code of two numbers (07 R213). -/
def relNum (x y : Num) : Nat :=
  if x.isNan || y.isNan then 8 else if x.lt false y then 1 else if x.eq y then 2 else 4
/-- The relation code of two integers (07 R213). -/
def relInt (x y : Int) : Nat := if x < y then 1 else if x = y then 2 else 4

/-- VCMP (07 R213). -/
def execVcmp (ty : VTy) (x : VArgs) (s : State) : Out :=
  .next (s.vec2 x 2 (lanes2V (match ty with
    | .fp32 => fun a b => BitVec.ofNat 32 (relNum (num32 a) (num32 b))
    | .int32 => fun a b => BitVec.ofNat 32 (relInt a.toInt b.toInt)
    | .uint32 => fun a b => BitVec.ofNat 32 (relInt a.toNat b.toNat)
    | .bf16x2 => halves2 fun a b => BitVec.ofNat 16 (relNum (num16 a) (num16 b))
    | .int16x2 => halves2 fun a b => BitVec.ofNat 16 (relInt a.toInt b.toInt))))
/-- VSEL: a where the old destination is not zero, else b (07 R212). -/
def execVsel (ty : VTy) (x : VArgs) (s : State) : Out :=
  .next (s.vec3 x 2 (lanes3V (match ty with
    | .int16x2 => halves3 fun a b d => if d = 0#16 then b else a
    | _ => fun a b d => if d = 0#32 then b else a)))

/-! ## Conversion and packing (07 R214, R215) -/

/-- The value of a lane of type ty. -/
def laneNum (ty : VTy) (v : BitVec 32) : Num :=
  match ty with
  | .fp32 => num32 v
  | .int32 => Num.ofDy { m := v.toInt, e := 0 }
  | _ => Num.ofDy { m := v.toNat, e := 0 }

/-- A value rounded to a lane of type ty (07 R214). -/
def roundLane (ty : VTy) (rm : Rm) (rnd : Nat) (x : Num) : BitVec 32 :=
  match ty with
  | .fp32 => BitVec.ofNat 32 (roundNum .fp32 rm rnd x)
  | .int32 => BitVec.ofNat 32 (roundNum .int32 rm rnd x)
  | _ => BitVec.ofInt 32 (roundInt 0 4294967295 rm rnd x)

/-- The row word that a tile's VCVT draws from (03 R102). -/
def State.tileRow (s : State) (d : BitVec 11) : Word :=
  rowWordTile s.pt.seed (s.pt.tileX s.focus.tile) (s.pt.tileY s.focus.tile) (d.toNat % 256) s.tl.superstep

/-- VCVT (07 R214). -/
def execVcvt (ty : VTy) (widen : Bool) (rm : Rm) (f : Fmt) (x : VArgs1) (s : State) : Out :=
  let row := s.tileRow x.d
  .next (s.vec1 x 3 fun a => buildV fun l =>
    if widen then roundLane ty rm (srDraw row (srBits .fp32) l 0) (decodeNum f (vLane a l).toNat)
    else extendNum 32 f (roundNum f rm (srDraw row (srBits f) l 0) (laneNum ty (vLane a l))))

/-- The bit at which element e of a packed register begins (03 R86, 07 R215). -/
def packBit (f : Fmt) (e : Nat) : Nat :=
  match f with
  | .t6 => 32 * (e / 5) + 6 * (e % 5)
  | g => fmtBits g * e

/-- VPACK (07 R215). -/
def execVpack (f : Fmt) (d a : BitVec 11) (nf : BitVec 4) (s : State) : Out :=
  let n := Fmt.packCount f
  let v := (List.range (32 * n)).foldl (fun (acc : BitVec 1024) e =>
    acc ||| ((BitVec.ofNat 1024 ((vLane (s.tl.vr (a.toNat + e / 32)) (e % 32)).toNat % 2 ^ fmtBits f)) <<< packBit f e)) 0#1024
  .next (s.vecIssue nf ((List.range n).map fun j => a.toNat + j) 3 none [(d.toNat, v)])
/-- VUNPK (07 R215). -/
def execVunpk (f : Fmt) (d a : BitVec 11) (nf : BitVec 4) (s : State) : Out :=
  let v := (s.tl.vr a.toNat).toNat
  let lane := fun (j l : Nat) => extendNum 32 f (v / 2 ^ packBit f (32 * j + l) % 2 ^ fmtBits f)
  .next (s.vecIssue nf [a.toNat] 3 none ((List.range (Fmt.packCount f)).map fun j => (d.toNat + j, buildV (lane j))))

/-! ## Functions, reductions and scans (07 R216, R217) -/

/-- A function on FP32 lanes, or on BF16 halves through FP32 (07 R216). -/
def laneFn (ty : VTy) (f : BitVec 32 → BitVec 32) (a : BitVec 1024) : BitVec 1024 :=
  let h := fun (x : BitVec 16) => bf16 .rne (num32 (f (x ++ 0#16)))
  buildV fun l =>
    match ty with
    | .bf16x2 => h ((vLane a l).extractLsb' 16 16) ++ h ((vLane a l).extractLsb' 0 16)
    | _ => f (vLane a l)

/-- VEXP2 (07 R216, 03 R116). -/
def execVexp2 (ty : VTy) (x : VArgs1) (s : State) : Out := .next (s.vec1 x 8 (laneFn ty vexp32))
/-- VLOG2 (07 R216, 03 R115). -/
def execVlog2 (ty : VTy) (x : VArgs1) (s : State) : Out := .next (s.vec1 x 8 (laneFn ty vlog32))
/-- VRCP (07 R216, 03 R113). -/
def execVrcp (ty : VTy) (x : VArgs1) (s : State) : Out := .next (s.vec1 x 8 (laneFn ty vrcp32))
/-- VRSQ (07 R216, 03 R114). -/
def execVrsq (ty : VTy) (x : VArgs1) (s : State) : Out := .next (s.vec1 x 8 (laneFn ty vrsq32))

/-- The reducing operation on a lane of FP32, INT32 or UINT32 (07 R217). -/
def vredOp (ty : VTy) (op : RedOp) : BitVec 32 → BitVec 32 → BitVec 32 :=
  match ty, op with
  | .uint32, .min => least false
  | .uint32, .max => greatest false
  | .fp32, o => redOp .fp32 o
  | _, o => redOp .int o

/-- The identity of a reducing operation by lane type (03 R110). -/
def vredIdentity (ty : VTy) (op : RedOp) : BitVec 32 :=
  match ty, op with
  | .uint32, .min => 0xFFFFFFFF#32
  | .uint32, .max => 0#32
  | .fp32, o => redIdentity .fp32 o
  | _, o => redIdentity .int o

/-- The lanes of a value. -/
def vLanes (a : BitVec 1024) : List (BitVec 32) := (List.range 32).map (vLane a)

/-- VRED (07 R217, 03 R110). -/
def execVred (ty : VTy) (op : RedOp) (x : VArgs1) (s : State) : Out :=
  .next (s.vec1 x 6 fun a => (((treeReduce (vredOp ty op) 5 (vLanes a))[0]?).getD 0#32).setWidth 1024)
/-- VSCAN (07 R217, 03 R90, R111). -/
def execVscan (ty : VTy) (op : RedOp) (ex : Bool) (x : VArgs1) (s : State) : Out :=
  .next (s.vec1 x 6 fun a =>
    let y := (scanInclusive (vredOp ty op) 5 (vLanes a)).map fun x => if ty = .fp32 then delivered32 x else x
    ofLanes32 (if ex then vredIdentity ty op :: y.take 31 else y))

/-! ## Gate scoring (07 R218-R220) -/

/-- OrderKey (07 R218). -/
def orderKey (p : BitVec 32) : Nat := if p.getLsbD 31 then (~~~p).toNat else p.toNat + 2 ^ 31

/-- The mask of the lanes that a predicate holds of. -/
def laneMask (f : Nat → Bool) : BitVec 32 := BitVec.ofNat 32 ((List.range 32).foldl (fun m l => if f l then m + 2 ^ l else m) 0)

/-- VTHR (07 R218). -/
def execVthr (x : VArgs) (s : State) : Out :=
  .next (s.vec2 x 3 fun a b =>
    let hit := fun (l : Nat) => decide (orderKey (vLane b 0) ≤ orderKey (vLane a l))
    ofLanes32 [laneMask hit, BitVec.ofNat 32 ((List.range 32).countP hit)])

/-- One pass of the bisection (07 R219). -/
def bisect (keys : List Nat) (k : Nat) (i : Nat × Nat) : Nat × Nat :=
  if i.1 < i.2 then
    let mid := i.1 + (i.2 - i.1 + 1) / 2
    if k ≤ keys.countP fun x => decide (mid ≤ x) then (mid, i.2) else (i.1, mid - 1)
  else i

/-- VBIS (07 R219). Given lo above hi, the lanes are taken as the pseudocode takes them, keys above hi first, although some are then
below lo (DESIGN CHOICE, log 102). -/
def execVbis (x : VArgs) (s : State) : Out :=
  .next (s.vec2 x 10 fun a b =>
    let kt := vLane b 2
    let k := Nat.min kt.toNat 32
    let keys := (vLanes a).map orderKey
    let r := (List.range 8).foldl (fun i _ => bisect keys k i) ((vLane b 0).toNat, (vLane b 1).toNat)
    let key := fun (l : Nat) => (keys[l]?).getD 0
    let above := (List.range 32).filter fun l => decide (r.2 < key l)
    let within := (List.range 32).filter fun l => decide (r.1 ≤ key l) && decide (key l ≤ r.2)
    let taken := (above ++ within).take k
    ofLanes32 [BitVec.ofNat 32 r.1, BitVec.ofNat 32 r.2, kt, laneMask fun l => taken.contains l, BitVec.ofNat 32 taken.length])
/-- VCNT (07 R220). -/
def execVcnt (x : VArgs) (s : State) : Out :=
  .next (s.vec2 x 3 fun a b => buildV fun j => vLane b j + BitVec.ofNat 32 ((vLanes a).countP fun v => v == BitVec.ofNat 32 j))

/-! ## Moves, immediates and Mere access (07 R221-R223) -/

/-- VPERM (07 R221). -/
def execVperm (x : VArgs) (s : State) : Out :=
  .next (s.vec2 x 2 fun a b => buildV fun l => if (vLane b l).toNat < 32 then vLane a (vLane b l).toNat else 0#32)
/-- VROT (07 R221). -/
def execVrot (n : BitVec 5) (x : VArgs1) (s : State) : Out :=
  .next (s.vec1 x 2 fun a => buildV fun l => vLane a ((l + n.toNat) % 32))
/-- VBC (07 R221). -/
def execVbc (j : BitVec 5) (x : VArgs1) (s : State) : Out := .next (s.vec1 x 2 fun a => buildV fun _ => vLane a j.toNat)
/-- VMOV (07 R221). -/
def execVmov (x : VArgs1) (s : State) : Out := .next (s.vec1 x 2 fun a => a)
/-- VLI (07 R222). -/
def execVli (hi : Bool) (lane : Option (BitVec 5)) (d : BitVec 11) (imm : BitVec 20) (nf : BitVec 4) (s : State) : Out :=
  let old := s.tl.vr d.toNat
  let val := buildV fun l => if hi then imm ++ (vLane old l).extractLsb' 0 12 else imm.signExtend 32
  .next (
    if s.nullified nf then s
    else if s.regsBroken (if hi then [d.toNat] else []) then s.tileError s.focus.tile 0x05#8
    else
      s.onTl fun t => { t with vwrites := t.vwrites ++
        [{ due := s.now + 1, reg := d.toNat, lane := lane, val := val, sink := none, pread := false }] })

/-- The address of VLD and VST (07 R223). -/
def vecAddr (a : BitVec 1024) (off : BitVec 18) : Nat :=
  let ea : Int := (((vLane a 0).toNat % 2 ^ 21 : Nat) : Int) + 128 * off.toInt
  (ea % 2 ^ 21).toNat / 64 * 64

/-- Bytes as a register value. -/
def vOfBytes (l : List Byte) : BitVec 1024 := BitVec.ofNat 1024 (ofBytes l)

/-- VLD (07 R223): 128 bytes of the Mere as they stand in tc issue. -/
def execVld (d a : BitVec 11) (off : BitVec 18) (nf : BitVec 4) (s : State) : Out :=
  .next (
    if s.nullified nf then s
    else
      let r := s.mereRead s.focus.tile (vecAddr (s.tl.vr a.toNat) off) 128 false
      (s.afterRead s.focus.tile 0x01#8 r).vecIssue nf [a.toNat] 4 none [(d.toNat, vOfBytes r.bytes)])
/-- VST (07 R223): the register as it stood at the end of tc issue - 1, written in tc issue + 1. -/
def execVst (p : BitVec 2) (d a : BitVec 11) (off : BitVec 18) (nf : BitVec 4) (s : State) : Out :=
  .next (
    if s.nullified nf then s
    else if s.regsBroken [d.toNat, a.toNat] then s.tileError s.focus.tile 0x05#8
    else
      s.onTl fun t => { t with vsts := t.vsts ++
        [{ due := s.now + 1, ea := vecAddr (t.vr a.toNat) off, data := t.vr d.toNat, prio := p }] })

/-! ## Results land (07 R208-R210, R223) -/

/-- The V-register writes of a tc in the order in which they are made: PREAD's first, so that a VEC result remains (07
R209). -/
def dueWrites (t : Tile) (now : Nat) : List VWrite :=
  let l := t.vwrites.filter fun w => decide (w.due ≤ now)
  (l.filter fun w => w.pread) ++ l.filter fun w => !w.pread

/-- A register written: its lanes lose their poison (08 R261). -/
def State.putReg (r : Nat) (v : BitVec 1024) (s : State) : State :=
  (s.onTl fun t => { t with v := SMap.set t.v r v }).onPt fun p =>
    { p with poison := p.poison.filter fun k => !((List.range 32).any fun l => k == poisonReg s.focus.tile r l) }

/-- One lane of a register written, which loses its poison (07 R222, 08 R261). -/
def State.putLane (r : Nat) (j : BitVec 5) (v : BitVec 1024) (s : State) : State :=
  (s.onTl fun t => { t with v := SMap.set t.v r (buildV fun l => vLane (if l = j.toNat then v else t.vr r) l) }).onPt fun p =>
    { p with poison := p.poison.filter fun k => k != poisonReg s.focus.tile r j.toNat }

/-- A V-register write made. -/
def State.land (w : VWrite) (s : State) : State :=
  match w.lane with
  | some j => s.putLane w.reg j w.val
  | none => s.putReg w.reg w.val

/-- Whether a PREAD write and a VEC write reach one register in one tc (07 R209). -/
def preadMeets (l : List VWrite) : Bool :=
  l.any fun w => w.pread && l.any fun x => !x.pread && x.reg == w.reg

/-- VEC_RESULT_WRITE (07 R208, R210, R223): on the tile in focus, every register write due in this tc, with the beat of a
link sink, and every VST. Where VLI.L meets another write of its register, that one fills the other lanes (DESIGN CHOICE, log
103). -/
def execVecResultWrite (s : State) : Out :=
  let now := s.now
  let l := dueWrites s.tl now
  let v := s.tl.vsts.filter fun w => decide (w.due ≤ now)
  .next (
    let t := s.onTl fun t =>
      setStat wConf (preadMeets l) { t with
        vwrites := t.vwrites.filter fun w => !decide (w.due ≤ now), vsts := t.vsts.filter fun w => !decide (w.due ≤ now) }
    let u := l.foldl (fun s w =>
      let s1 := s.land w
      match w.sink with
      | some d => s1.sendBeat s.focus.tile d now w.val none
      | none => s1) t
    v.foldl (fun s w => s.mereWrite s.focus.tile w.ea (toBytes 128 w.data.toNat) s.focus.tile w.prio) u)

/-- An external beat waits on the link of the tile in focus until its tc (11 R330). -/
def State.takeBeat (b : BeatIn) (s : State) : State :=
  s.onTileAt b.tile fun t => { t with beats := t.beats ++
    [{ dir := b.dir, due := b.due, data := b.data
       land := b.land.map fun x => { addr := x.1, len := x.2.1, writer := x.2.2.1, prio := BitVec.ofNat 2 x.2.2.2 } }] }

/-- A beat presented to tile t in its tc `now` (07 R210, R229): a stream beat lands in the Mere, any other is present on
its link. A stream beat is not present to a VEC instruction (DESIGN CHOICE, log 118). -/
def State.presentBeat (t now : Nat) (b : Beat) (s : State) : State :=
  match b.land with
  | some l => s.mereWrite t l.addr ((toBytes 128 b.data.toNat).take l.len) l.writer l.prio
  | none => s.onTileAt t fun x => { x with present := SMap.insert x.present (dirNum b.dir) (some (now, b.data)) }

/-- LINK_BEAT_PRESENT (07 R210, R229; 11 R330): on the tile in focus, every beat due in this tc is presented, in the order in which
they were sent (DESIGN CHOICE where two land on one byte, log 104); or a beat that another package sends joins those on their way. -/
def execLinkBeatPresent (ext : Option BeatIn) (s : State) : Out :=
  .next (
    match ext with
    | some b => s.takeBeat b
    | none =>
      let now := s.now
      (s.tl.beats.filter fun b => decide (b.due ≤ now)).foldl (fun s b => s.presentBeat s.focus.tile now b)
        (s.onTl fun t => { t with beats := t.beats.filter fun b => !decide (b.due ≤ now) }))

end Sys2Proof.Machine
end

