-- ==== Sys2Proof/Machine/TStream.lean ====
section
/-!
DEFINITION. The stream engine (07 R225-R232, 11 R332, R333; 08 R256, R264): the HBM transfers and their static bursts, the
link transfers, the metadata channel and the fills.
-/

namespace Sys2Proof.Machine

/-! ## Descriptors (07 R225, R226) -/

/-- The descriptor register V(1984 + sx) as it stood at the end of tc issue - 1. -/
def Tile.descriptor (t : Tile) (sx : BitVec 6) : BitVec 1024 := t.vr (1984 + sx.toNat)
/-- LOC, bits 20:6 for the Mere. -/
def descMere (v : BitVec 1024) : Nat := (vLane v 0).toNat % 2 ^ 21 / 64 * 64
/-- LOC, bits 21:6 for the Loft. -/
def descLoft (v : BitVec 1024) : Nat := (vLane v 0).toNat % 2 ^ 22 / 64 * 64
/-- HOFF with bits 5:0 cleared. -/
def descHoff (v : BitVec 1024) : Nat := ((vLane v 1).toNat + 2 ^ 32 * (vLane v 2).toNat) / 64 * 64
/-- ROWB: 0 acts as 1, and a value above 4,096 as 4,096. -/
def descRowb (v : BitVec 1024) : Nat := Nat.min (Nat.max (vLane v 3).toNat 1) 4096
/-- IDX with bits 2:0 cleared. -/
def descIdx (v : BitVec 1024) : Nat := (vLane v 4).toNat % 2 ^ 21 / 8 * 8
/-- PITCH. -/
def descPitch (v : BitVec 1024) : Nat := (vLane v 5).toNat
/-- DST, with the low bits that SXL and SCNT, or SMETA, ignore. -/
def descDst (v : BitVec 1024) (unit : Nat) : Nat := (vLane v 6).toNat % 2 ^ 21 / unit * unit

/-- len in 64-byte units: 0 means 4,096 (07 R226). -/
def lenOf (len : BitVec 12) : Nat := if len = 0#12 then 4096 else len.toNat

/-! ## Static slots (11 R332, 07 R227) -/

/-- The dynamic slots of a frame for a SLU.RATIO (11 R332). -/
def dynSlots (ratio : BitVec 2) : List Nat :=
  match ratio.toNat with
  | 0 => [1, 3, 5, 7, 9, 11, 13, 15]
  | 1 => [3, 7, 11, 15]
  | 2 => [7, 15]
  | _ => [15]

/-- The static slots of a frame in ascending order (11 R332). -/
def staticSlots (ratio : BitVec 2) : List Nat := (List.range 16).filter fun i => !(dynSlots ratio).contains i

/-- The cycles within a frame at which tile t's slots on a pseudo-channel begin (11 R332). -/
def Part.ownedAt (p : Part) (pch t : Nat) : List Nat :=
  let owners := SMap.get p.job.slots pch
  (((staticSlots p.ratio).zipIdx).filter fun x => (owners[x.2]?) == some t).map fun x => 2 * x.1

/-- The earliest owned and unheld slot that begins at or after cycle c (07 R227). -/
def slotFrom (own held : List Nat) : Nat → Nat → Option Nat
  | 0, _ => none
  | fuel + 1, c => if own.contains (c % 32) && !held.contains c then some c else slotFrom own held fuel (c + 1)

/-- The slots that n bursts take, in order. -/
def placeSlots (own held : List Nat) : Nat → Nat → List Nat
  | 0, _ => []
  | n + 1, c =>
    match slotFrom own held (32 * (held.length + 2)) c with
    | some x => x :: placeSlots own held n (x + 1)
    | none => []

/-- The slots that a transfer of n bursts issued now on a pseudo-channel takes. -/
def State.slotsFor (s : State) (pch n : Nat) : List Nat :=
  placeSlots (s.pt.ownedAt pch s.focus.tile) ((s.tl.bursts.filter fun b => b.pch == pch).map Burst.slot) n (s.now + 1)

/-! ## The HBM transfers (07 R228) -/

/-- The limit check of a transfer of n bytes from segment offset h (08 R256). -/
def Part.segFits (p : Part) (seg h n : Nat) : Bool := decide (h + n ≤ p.segLen seg)

/-- The stop of a transfer beyond its segment's limit (07 R228; 12 R342). -/
def State.segStop (s : State) : State := s.gangStop (.tile s.focus.tile) 0x09#8 0x0B#8 0#8 0#64

/-- A straight transfer, SLD, SLDL or SST: the limit check, and its bursts placed in the tile's slots. `loc` gives the
local place of burst j. -/
def State.hbmIssue (s : State) (kind : BurstKind) (sx seg : BitVec 6) (len : BitVec 12) (prio : BitVec 2) (nf : BitVec 4)
    (loc : BitVec 1024 → Nat → Nat) : State :=
  let null := s.nullified nf
  let r := 1984 + sx.toNat
  let v := s.tl.descriptor sx
  let n := lenOf len
  if !null && s.regsBroken [r] then s.tileError s.focus.tile 0x05#8
  else if !null && !s.pt.segFits seg.toNat (descHoff v) (64 * n) then s.segStop
  else
    let pch := s.pt.segPch seg.toNat
    let new := ((s.slotsFor pch n).zipIdx).map fun x =>
      { (default : Burst) with
        slot := x.1, kind := kind, seg := seg.toNat, pch := pch, off := some (descHoff v + 64 * x.2), loc := loc v x.2
        prio := prio, null := null }
    s.onTl fun t => Tile.bump 4 new.length { t with bursts := t.bursts ++ new }

/-- An indexed transfer, SGTH or SSCT: its rows take their addresses from the index list, each in the slot of the row's
first burst. -/
def State.rowsIssue (s : State) (kind : BurstKind) (sx seg : BitVec 6) (len : BitVec 12) (prio : BitVec 2) (nf : BitVec 4) :
    State :=
  let null := s.nullified nf
  let r := 1984 + sx.toNat
  let v := s.tl.descriptor sx
  let n := lenOf len
  if !null && s.regsBroken [r] then s.tileError s.focus.tile 0x05#8
  else
    let pch := s.pt.segPch seg.toNat
    let rowb := descRowb v
    let new := ((s.slotsFor pch n).zipIdx).map fun x =>
      { (default : Burst) with
        slot := x.1, kind := kind, seg := seg.toNat, pch := pch, off := none
        loc := (descMere v + 64 * x.2) % 2 ^ 21, prio := prio, null := null
        rowFirst := decide (x.2 % rowb = 0), row := x.2 / rowb, unit := x.2 % rowb, idx := descIdx v, pitch := descPitch v
        hoff := descHoff v, rowKey := s.now * 4096 + x.2 / rowb, rowLen := Nat.min rowb (n - x.2 / rowb * rowb) }
    s.onTl fun t => Tile.bump 4 new.length { t with bursts := t.bursts ++ new }

/-- SLD (07 R228). -/
def execSld (p : BitVec 2) (sx seg : BitVec 6) (len : BitVec 12) (nf : BitVec 4) (s : State) : Out :=
  .next (s.hbmIssue .ld sx seg len p nf fun v j => (descMere v + 64 * j) % 2 ^ 21)
/-- SLDL (07 R228). -/
def execSldl (spread : Bool) (sx seg : BitVec 6) (len : BitVec 12) (nf : BitVec 4) (s : State) : Out :=
  .next (s.hbmIssue .ldl sx seg len 0#2 nf fun v j =>
    let x := loftPlace (descLoft v) j spread
    x.1 * 2 ^ 17 + x.2)
/-- SST (07 R228). -/
def execSst (sx seg : BitVec 6) (len : BitVec 12) (nf : BitVec 4) (s : State) : Out :=
  .next (s.hbmIssue .st sx seg len 0#2 nf fun v j => (descMere v + 64 * j) % 2 ^ 21)
/-- SGTH (07 R228). -/
def execSgth (p : BitVec 2) (f : IdxFmt) (sx seg : BitVec 6) (len : BitVec 12) (nf : BitVec 4) (s : State) : Out :=
  .next (s.rowsIssue (.gth f) sx seg len p nf)
/-- SSCT (07 R228). -/
def execSsct (f : IdxFmt) (sx seg : BitVec 6) (len : BitVec 12) (nf : BitVec 4) (s : State) : Out :=
  .next (s.rowsIssue (.sct f) sx seg len 0#2 nf)

/-! ## A burst in its slot, at its channel, and landing (07 R227, R228; 11 R333) -/

/-- The index format of an indexed burst. -/
def BurstKind.idxFmt : BurstKind → Option IdxFmt
  | .gth f | .sct f => some f
  | _ => none
/-- Whether a burst writes HBM. -/
def BurstKind.writes : BurstKind → Bool
  | .st | .sct _ => true
  | _ => false

/-- The bytes of an index entry. -/
def idxBytes : IdxFmt → Nat
  | .i32 => 4
  | .i64 => 8

/-- The signed value of an index entry. -/
def idxValue (f : IdxFmt) (l : List Byte) : Int :=
  match f with
  | .i32 => (BitVec.ofNat 32 (ofBytes l)).toInt
  | .i64 => (BitVec.ofNat 64 (ofBytes l)).toInt

/-- The segment offset of row entry x's unit u (07 R228). -/
def rowOffset (b : Burst) (x : Int) (u : Nat) : Int := (b.hoff : Int) + (x * (b.pitch : Int) + (u : Int)) * 64

/-- The list entry of an indexed burst's row is read, in the slot of the row's first burst, and the row is checked against
the segment: an entry of -1 names no row (07 R228). -/
def State.readIndex (s : State) (b : Burst) (f : IdxFmt) : State :=
  let t := s.focus.tile
  let r := s.mereRead t (b.idx + idxBytes f * b.row) (idxBytes f) true
  let x := idxValue f r.bytes
  let o := rowOffset b x 0
  let s1 := (s.afterRead t 0x01#8 r).onTl fun y => { y with rowIdx := SMap.insert y.rowIdx b.rowKey (some x) }
  if x = -1 then s1
  else if o < 0 ∨ s.pt.segFits b.seg o.toNat (64 * b.rowLen) = false then s1.segStop
  else s1

/-- What a burst comes to in its slot: where it goes, and for a write the bytes that it takes (07 R227). One of a row that no index
names, or that lies beyond its segment, goes nowhere (R228). -/
def State.burstSlot (s : State) (b : Burst) : State :=
  let t := s.focus.tile
  if b.null then s
  else
    let s1 := match b.kind.idxFmt with
      | some f => if b.rowFirst then s.readIndex b f else s
      | none => s
    let off : Option Nat := match b.kind.idxFmt with
      | some _ =>
        match SMap.get s1.tl.rowIdx b.rowKey with
        | some x =>
          let o := rowOffset b x 0
          if x = -1 ∨ o < 0 ∨ s.pt.segFits b.seg o.toNat (64 * b.rowLen) = false then none else some (rowOffset b x b.unit).toNat
        | none => none
      | none => b.off
    let takes := b.kind.writes && off.isSome
    let r := s.mereRead t b.loc 64 true
    let s2 := if takes then s1.afterRead t 0x01#8 r else s1
    s2.onTl fun y =>
      { y with
        bursts := y.bursts.map fun c => if c = b then
            { b with off := off, latched := true, data := if takes then BitVec.ofNat 512 (ofBytes r.bytes) else 0#512 } else c
        rowIdx := if b.unit + 1 = b.rowLen then SMap.erase y.rowIdx b.rowKey else y.rowIdx }

/-- STATIC_BURST_SLOT (07 R227, R228): on the tile in focus, the bursts whose slot begins in this tc. -/
def execStaticBurstSlot (s : State) : Out :=
  .next ((s.tl.bursts.filter fun b => decide (b.slot ≤ s.now) && !b.latched && !b.null).foldl State.burstSlot s)

/-- One burst performed at its pseudo-channel (11 R333; 08 R256, R261). -/
def State.burstPerform (s : State) (b : Burst) : State :=
  let done := fun (d : BitVec 512) (s : State) => s.onTl fun y =>
    let go := fun (c : Burst) => if c = b then { b with performed := true, data := d } else c
    { y with bursts := (y.bursts.map go).filter fun c => !(c.performed && c.kind.writes) }
  match b.off with
  | none => done 0#512 s
  | some o =>
    let key := hbmKey b.pch (s.pt.segBase b.seg + o)
    if b.null then done 0#512 s
    else if b.kind.writes then
      done b.data (({ s with hbm := writeMem s.hbm key (toBytes 64 b.data.toNat) }).onPt fun p =>
        { p with poison := p.poison.filter fun k => k != poisonKey (.hbm key) })
    else if s.pt.poisoned (.hbm key) then s.gangStop (.sluice b.pch) 0x18#8 0x09#8 0#8 0#64
    else done (BitVec.ofNat 512 (ofBytes (readMem s.hbm key 64))) s

/-- The count by which a burst is performed at its channel: after a stop that ends the launch, a write burst placed by then still is
(12 R349); in one that the job goes on from, it is kept to its due SCYC as a read is (R357). -/
def State.burstClock (s : State) (b : Burst) : Nat :=
  if b.kind.writes && !s.pt.goesOn then s.job.runOn (sluiceNode b.pch) else s.job.scyc (sluiceNode b.pch)

/-- STATIC_BURST_PERFORM (11 R333): the bursts of the tile in focus whose Sluice controller has begun SCYC slot + 64. -/
def execStaticBurstPerform (s : State) : Out :=
  .next ((s.tl.bursts.filter fun b => !b.performed && (b.latched || b.null) && decide (b.slot + 64 ≤ s.burstClock b)).foldl
    State.burstPerform s)

/-- One read burst lands (07 R227, R228): an indexed burst of a row that the list does not name lands zeros. -/
def State.burstLand (s : State) (b : Burst) : State :=
  let t := s.focus.tile
  let s1 := s.onTl fun y => { y with bursts := y.bursts.filter fun c => c ≠ b }
  if b.null then s1
  else
    let l := toBytes 64 b.data.toNat
    match b.kind with
    | .ldl => s1.loftWrite t (b.loc / 2 ^ 17) (b.loc % 2 ^ 17) l
    | _ => s1.mereWrite t b.loc l t b.prio

/-- STATIC_READ_LANDING (07 R227): the performed read bursts of the tile in focus whose tc slot + 192 has come, in the order of their
transfers' issue (DESIGN CHOICE where two land on one byte, log 104). -/
def execStaticReadLanding (s : State) : Out :=
  .next ((s.tl.bursts.filter fun b => b.performed && !b.kind.writes && decide (b.slot + 192 ≤ s.now)).foldl State.burstLand s)

/-! ## The link transfers (07 R229-R231) -/

/-- A link transfer issued: it takes its beats, or its pairs, from the next eligible cycle on. -/
def State.linkIssue (s : State) (scnt smeta : Bool) (dir : Dir) (sx : BitVec 6) (len : BitVec 12) (prio : BitVec 2)
    (nf : BitVec 4) : State :=
  let null := s.nullified nf
  let v := s.tl.descriptor sx
  let n := lenOf len
  if !null && s.regsBroken [1984 + sx.toNat] then s.tileError s.focus.tile 0x05#8
  else
    s.onTl fun t => { t with xfers := t.xfers ++
      [{ scnt := scnt, smeta := smeta, dir := dir, issue := s.now, next := 0
         n := if smeta then 8 * n else if scnt then n / 2 else (n + 1) / 2
         len := n, loc := descMere v, dst := descDst v (if smeta then 4 else 64), prio := prio, null := null, count := 0 }] }

/-- SXL (07 R229). -/
def execSxl (p : BitVec 2) (dir : Dir) (sx : BitVec 6) (len : BitVec 12) (nf : BitVec 4) (s : State) : Out :=
  .next (s.linkIssue false false dir sx len p nf)
/-- SCNT (07 R229). -/
def execScnt (p : BitVec 2) (dir : Dir) (sx : BitVec 6) (len : BitVec 12) (nf : BitVec 4) (s : State) : Out :=
  .next (s.linkIssue true false dir sx len p nf)
/-- SMETA (07 R231). -/
def execSmeta (dir : Dir) (sx : BitVec 6) (len : BitVec 12) (nf : BitVec 4) (s : State) : Out :=
  .next (s.linkIssue false true dir sx len 0#2 nf)

/-- The bytes that beat j of a transfer carries (07 R229). -/
def Xfer.beatLen (x : Xfer) (j : Nat) : Nat := if !x.scnt && 128 * (j + 1) > 64 * x.len then 64 else 128

/-- Beat j of a transfer departs: read in this tc, sent to the neighbour. The count of SCNT is read with beat 0, and rows
past it are nullified. -/
def State.departBeat (s : State) (x : Xfer) (j : Nat) : State × Nat :=
  let t := s.focus.tile
  if x.null || x.scnt && decide (x.count < j) then (s, x.count)
  else
    let r := s.mereRead t (x.loc + 128 * j) (x.beatLen j) true
    let land : Landing := { addr := (x.dst + 128 * j) % 2 ^ 21, len := x.beatLen j, writer := t, prio := x.prio }
    ((s.afterRead t 0x01#8 r).sendBeat t x.dir s.now (vOfBytes r.bytes) (some land),
      if j = 0 then ofBytes (r.bytes.take 4) else x.count)

/-- Pair i of a metadata transfer departs (07 R231). -/
def State.departPair (s : State) (x : Xfer) (i : Nat) : State :=
  let t := s.focus.tile
  if x.null then s
  else
    let r := s.mereRead t (x.loc + 8 * i) 8 true
    (s.afterRead t 0x01#8 r).sendPair t x.dir s.now (BitVec.ofNat 32 (ofBytes (r.bytes.take 4)))
      (BitVec.ofNat 32 (ofBytes (r.bytes.drop 4))) x.dst

/-- The beat or pair of one transfer that departs in this tc. -/
def State.depart (s : State) (x : Xfer) : State :=
  if x.next < x.n ∧ s.pt.eligible s.focus.tile x.dir x.issue x.next ≤ s.now then
    let r := if x.smeta then (s.departPair x x.next, x.count) else s.departBeat x x.next
    r.1.onTl fun t => { t with
      xfers := (t.xfers.map fun y => if y = x then { x with next := x.next + 1, count := r.2 } else y).filter fun y => decide (y.next < y.n) }
  else s

/-- LINK_BEAT_DEPARTURE (07 R229, R231): on the tile in focus, the stream beats and metadata pairs of this tc. -/
def execLinkBeatDeparture (s : State) : Out := .next (s.tl.xfers.foldl State.depart s)

/-- A metadata pair arrives (07 R231): the word goes to the place that its slot names, unless that is 0xFFFF_FFFF. The
store is the sending stream engine's (01 R12). -/
def State.takePair (s : State) (p : Pair) : State :=
  if p.slot = 0xFFFFFFFF#32 then s
  else s.mereWrite s.focus.tile ((p.dst + 4 * (p.slot.toNat % 2 ^ 16)) % 2 ^ 21) (toBytes 4 p.word.toNat) p.writer 0#2

/-- METADATA_PAIR_ARRIVAL (07 R231): on the tile in focus, the pairs whose tc has come, in the order in which they were sent and after
the tc's beats (DESIGN CHOICE where two land on one byte, log 104); or a pair that another package sends joins those on their way. -/
def execMetadataPairArrival (ext : Option PairIn) (s : State) : Out :=
  .next (
    match ext with
    | some x => s.onTileAt x.tile fun t => { t with pairs := t.pairs ++
        [{ due := x.due, hop := 64, slot := x.slot, word := x.word, dst := x.dst, writer := x.writer }] }
    | none =>
      let now := s.now
      (s.tl.pairs.filter fun p => decide (p.due ≤ now)).foldl State.takePair
        (s.onTl fun t => { t with pairs := t.pairs.filter fun p => !decide (p.due ≤ now) }))

/-! ## Fills (07 R232) -/

/-- SSET (07 R232). -/
def execSset (dst : SsetDst) (sx sy : BitVec 6) (len : BitVec 12) (nf : BitVec 4) (s : State) : Out :=
  let null := s.nullified nf
  let v := s.tl.descriptor sx
  let f := fun (loc : Nat) (loft spread : Bool) (p : BitVec 2) => s.onTl fun t =>
    { t with fills := t.fills ++
      [{ issue := s.now, loc := loc, next := 0, len := lenOf len, loft := loft, spread := spread, prio := p, null := null
         pat := t.descriptor sy }] }
  .next (
    if !null && s.regsBroken [1984 + sx.toNat, 1984 + sy.toNat] then s.tileError s.focus.tile 0x05#8
    else
      match dst with
      | .mere p => f (descMere v) false false p
      | .loft spread => f (descLoft v) true spread 0#2)

/-- One unit of a fill written. -/
def State.fillUnit (f : Fill) (s : State) (j : Nat) : State :=
  let t := s.focus.tile
  let l := ((toBytes 128 f.pat.toNat).drop (64 * (j % 2))).take 64
  if f.null then s
  else if f.loft then
    let x := loftPlace f.loc j f.spread
    s.loftWrite t x.1 x.2 l
  else s.mereWrite t ((f.loc + 64 * j) % 2 ^ 21) l t f.prio

/-- The units of a fill that this tc writes. -/
def State.fill (s : State) (f : Fill) : State :=
  let upto := Nat.min f.len (2 * (s.now - f.issue))
  if upto ≤ f.next then s
  else
    let u := ((List.range (upto - f.next)).map fun i => f.next + i).foldl (State.fillUnit f) s
    let go := fun (g : Fill) => if g = f then { f with next := upto } else g
    u.onTl fun t => { t with fills := (t.fills.map go).filter fun g => decide (g.next < g.len) }

/-- SSET_FILL_UNIT (07 R232): on the tile in focus, the units of this tc. -/
def execSsetFillUnit (s : State) : Out := .next (s.tl.fills.foldl State.fill s)

end Sys2Proof.Machine
end

