-- ==== Sys2Proof/Machine/Reeve.lean ====
section
/-!
DEFINITION. The Reeve's instructions (07 R233-R240), windows and posts (01 R20-R24; 05 R178; 11 R335, R336), holds (11
R326-R331) and Causeway alignment (11 R340).
-/

namespace Sys2Proof.Machine

/-! ## Windows (07 R234) -/

/-- The expected post words of window w. -/
def Tile.expected (t : Tile) (w : Nat) : List Nat := (List.range 64).filter fun k => (SMap.get t.wmask w).getLsbD k
/-- ARR of a post word (01 R20). -/
def Tile.arrived (t : Tile) (k : Nat) : Bool := (SMap.get t.pws k).getLsbD 17
/-- The expected words of a window that no post has reached. -/
def Tile.awaited (t : Tile) (w : Nat) : List Nat := (t.expected w).filter fun k => !t.arrived k

/-- The POL bit that a WINDOW leaves (07 R234). -/
def polOf (p : WinPol) (ctl : Word) : Word :=
  match p with
  | .desc => ctl
  | .dflt => ctl &&& ~~~0x20000#64
  | .stall => ctl ||| 0x20000#64

/-- WINDOW (07 R234): the window opens for len tc. -/
def execWindow (pol : WinPol) (w : BitVec 4) (len : BitVec 34) (s : State) : Out :=
  let now := s.now
  let k := w.toNat
  .next (s.onTl fun t =>
    { t with
      wctl := SMap.set t.wctl k (polOf pol (SMap.get t.wctl k) ||| 0x10000#64)
      wclose := SMap.set t.wclose k (now + len.toNat)
      pws := (t.expected k).foldl (fun m i => SMap.set m i (SMap.get m i &&& ~~~0x20000#32)) t.pws })

/-- The frame hold of a window that has closed under STALL with words unposted (11 R336): windows of one tile that close in
one tc share it. -/
def State.stallHold (w : Nat) (s : State) : State :=
  let t := s.focus.tile
  let test := s.job.tb + 32 + (s.job.node t).owed
  let mine := fun (f : Frame) => f.node == t && f.test == test && match f.cond with | .window _ _ => true | _ => false
  if s.job.frames.any mine then
    let join := fun (f : Frame) => if mine f then
        { f with cond := match f.cond with | .window _ ws => .window t (ws ++ [w]) | c => c } else f
    s.onJob fun j => { j with frames := j.frames.map join }
  else (s.raiseHold t (some 32)).onJob fun j => { j with frames := j.frames ++ [{ node := t, test := test, cond := .window t [w] }] }

/-- Window k of the tile in focus closes: its words are latched, and under STALL words unposted raise its hold. -/
def State.closeWindow (k : Nat) (s : State) : State :=
  let ctl := SMap.get s.tl.wctl k
  let wait := s.tl.awaited k
  let closed := ctl &&& ~~~0x10000#64
  if !wdStall ctl then
    s.onTl fun t => { t with
      wctl := SMap.set t.wctl k closed, pw := wait.foldl (fun m i => SMap.set m i (wdDefval ctl)) t.pw }
  else if wait = [] then s.onTl fun t => { t with wctl := SMap.set t.wctl k closed }
  else (s.onTl fun t => { t with wctl := SMap.set t.wctl k (closed ||| 0x1000000#64) }).stallHold k

/-- WINDOW_CLOSE (07 R234; 11 R336): at the end of the last tc of window w of the tile in focus it closes, once the stores that
it has admitted have landed. -/
def execWindowClose (w : BitVec 4) (s : State) : Out :=
  let k := w.toNat
  .next (
    if !wdOpen (SMap.get s.tl.wctl k) || decide (s.now + 1 < SMap.get s.tl.wclose k) || (s.job.node s.focus.tile).paused then s
    else (s.storesLand s.focus.tile).closeWindow k)

/-! ## Posts (05 R178, 01 R21) -/

/-- Whether a post to word k is tested: an open window expects it, or a window in its STALL hold still does (05 R178). -/
def Tile.hears (t : Tile) (k : Nat) : Bool :=
  (List.range 16).any fun w =>
    let c := SMap.get t.wctl w
    (SMap.get t.wmask w).getLsbD k && (wdOpen c || wdHold c && !t.arrived k)

/-- Whether a window in its STALL hold expects word k: a post to it is tested within the hold (11 R336). -/
def Tile.holdHears (t : Tile) (k : Nat) : Bool :=
  (List.range 16).any fun w => (SMap.get t.wmask w).getLsbD k && wdHold (SMap.get t.wctl w)

/-- Whether R21 accepts sequence number n at status word p. -/
def postNew (p : BitVec 32) (n : BitVec 16) : Bool :=
  !p.getLsbD 16 || (let d := (n - p.extractLsb' 0 16).toNat; decide (1 ≤ d) && decide (d ≤ 32767))

/-- An accepted post (01 R21). -/
def Tile.takePost (p : Post) (t : Tile) : Tile :=
  Tile.bump 7 1 { t with
    pw := SMap.set t.pw p.word p.value
    pws := SMap.set t.pws p.word ((SMap.get t.pws p.word &&& 0x40000#32) ||| 0x30000#32 ||| p.seq.setWidth 32) }

/-- The late-post notice (05 R178, R159), which a poster that is free no longer receives. A tile has no context number, and
what PEER holds is not stated: the model gives 0xFFF (DESIGN CHOICE, log 82). -/
def State.lateNotice (p : Post) (s : State) : State :=
  let g := p.src - 1024
  let c := s.ctxAt (g / 11) (g % 11)
  if c.state = .free then s
  else
    s.deliver (g / 11)
      { kind := 3#4, dst := g % 11, peer := 0xFFF#12, seq := 0#32
        lo := BitVec.ofNat 64 (p.tile + p.word * 2 ^ 16 + p.value.toNat * 2 ^ 32), hi := p.seq.setWidth 64 }

/-- A post applied at its tile (05 R178, 01 R21). -/
def State.applyPost (p : Post) (s : State) : State :=
  let t := s.tileAt p.tile
  let mark := s.onTileAt p.tile fun x => { x with pwLast := SMap.insert x.pwLast p.word (some (s.job.tb, p.src)) }
  if t.hears p.word then
    if postNew (SMap.get t.pws p.word) p.seq then mark.onTileAt p.tile (Tile.takePost p) else mark
  else
    (mark.onTileAt p.tile fun x => { x with pws := SMap.set x.pws p.word (SMap.get x.pws p.word ||| 0x40000#32) }).lateNotice p

/-- Whether a post waits at a paused tile for the tc that the tile begins next (11 R331); one to a word that a window in its
STALL hold expects does not (11 R336), nor one to a tile that a stop holds for good (12 R350). -/
def State.postWaits (s : State) (p : Post) : Bool :=
  (s.job.node p.tile).paused && (s.job.node p.tile).stop.isNone && !(s.tileAt p.tile).holdHears p.word

/-- POST_ARRIVAL (05 R178; 01 R21; 11 R331, R336): post `n` of those on their way reaches its tile, and counts there at once or
in the tc that a paused tile begins next. In one cycle posts to a word apply in ascending order of their writers, and posts of
one writer arrive in order. -/
def execPostArrival (n : Nat) (s : State) : Out :=
  .next (
    match s.job.posts[n]? with
    | none => s
    | some p =>
      let t := s.tileAt p.tile
      let early := (s.job.posts.take n).any fun x => x.src == p.src && x.tile == p.tile && !s.postWaits x
      let late := match SMap.get t.pwLast p.word with
        | some x => decide (x.1 = s.job.tb) && decide (p.src < x.2)
        | none => false
      if early || late || s.postWaits p then s
      else (s.onJob fun j => { j with posts := j.posts.eraseIdx n }).applyPost p)

/-! ## Reading posts, flags, counters, marks (07 R236, R237) -/

/-- PREAD (07 R236). -/
def execPread (x : BitVec 6) (k : BitVec 6) (n : BitVec 5) (s : State) : Out :=
  .next (s.onTl fun t =>
    let v := buildV fun i => if i ≤ n.toNat then SMap.get t.pw (k.toNat + i) else 0#32
    { t with vwrites := t.vwrites ++ [{ due := s.now + 1, reg := 1984 + x.toNat, lane := none, val := v, sink := none, pread := true }] })

/-- The chain in focus. -/
def State.chain (s : State) : Chain := SMap.get s.tl.chains (engNum s.focus.eng)
/-- The chain in focus changed. -/
def State.onChain (f : Chain → Chain) (s : State) : State :=
  s.onTl fun t => { t with chains := upd t.chains (engNum s.focus.eng) f }

/-- A nullify flag written; F0 stays clear (01 R14). -/
def Tile.setFlag (k : Nat) (b : Bool) (t : Tile) : Tile :=
  let m := BitVec.ofNat 16 (2 ^ k)
  { t with nf := if k = 0 then t.nf else if b then t.nf ||| m else t.nf &&& ~~~m }

/-- NFSET (07 R236). -/
def execNfset (rel : NfRel) (ctr : NfCtr) (k : BitVec 4) (j : BitVec 6) (v : BitVec 28) (s : State) : Out :=
  let cnt : Int := match ctr with
    | .none => 0
    | .lc0 => (cntOf s.chain.lc0).toNat
    | .lc1 => (cntOf s.chain.lc1).toNat
  .next (s.onTl fun t => t.setFlag k.toNat (NfRel.holds rel (SMap.get t.pw j.toNat).toNat (v.toInt - cnt)))

/-- NFCLR (07 R236): bit i of the mask field is the flag i + 1. -/
def execNfclr (mask : BitVec 15) (s : State) : Out := .next (s.onTl fun t => { t with nf := t.nf &&& ~~~(mask ++ 0#1) })

/-- LOOPSET (07 R237). -/
def execLoopset (c : BitVec 1) (rld cnt : BitVec 16) (s : State) : Out :=
  .next (s.onChain fun x => if c = 0#1 then { x with lc0 := lcOf rld cnt } else { x with lc1 := lcOf rld cnt })

/-- TMARK (07 R237; 14 R389, R390, R395): a trace record, and the stops that armed marks with the STOP bit ask for. -/
def execTmark (v : BitVec 34) (s : State) : Out :=
  let t := s.focus.tile
  let s1 := s.traceOut s.job.trace.marks (traceRecord 1 (engNum s.focus.eng) t 0 s.tl.superstep s.now v.toNat)
  let hits : List Trigger := match s.job.debug with
    | some d => d.triggers.filter fun (x : Trigger) => x.kind == 1 && x.value == v.toNat && x.stop
    | none => []
  .next (if hits.isEmpty then s1 else s1.askStop true t (hits.map Trigger.id))

/-- TWAIT (07 R237, 02 R56): the chain's next instruction issues n tc later. -/
def execTwait (n : BitVec 34) (s : State) : Out := .next (s.onChain fun c => { c with due := c.due + n.toNat })

/-- TEND (07 R240, 02 R55): the REEVE chain ends. -/
def execTend (s : State) : Out := .next (s.onChain fun c => { c with live := false })

/-! ## Steps and alignment (07 R238, R239) -/

/-- TSTEP (07 R238): the tile arrives at group g, whose completion takes effect on it at t + D, and its superstep index
advances. -/
def execTstep (g : BitVec 6) (d : BitVec 34) (s : State) : Out :=
  let t := s.focus.tile
  let run : TStepRun := { g := g.toNat, due := s.now + d.toNat, need := (s.job.group g.toNat).count + 1 }
  .next ((s.onJob fun j => j.onGroup g.toNat fun x => x.arriveTile (2 * j.tb) t).onTl fun x =>
    { x with tsteps := x.tsteps ++ [run], superstep := x.superstep + 1 })

/-- The Causeway row that a tile faces on a side, when the partition uses its link (07 R230). -/
def Part.faces (p : Part) (t : Nat) (west : Bool) : Option Nat :=
  match p.toward t (if west then .w else .e) with
  | .causeway _ row => some row
  | _ => none

/-- TSYNC (07 R239): a marker leaves on each Causeway-facing link in use, in the first eligible cycle of the tile's row (07
R230), the issue cycle or the next; and the neighbour's is awaited. -/
def execTsync (e : BitVec 16) (s : State) : Out :=
  let t := s.focus.tile
  let now := s.now
  let go := fun (s : State) (west : Bool) =>
    match s.pt.faces t west with
    | some row =>
      { (s.onTl fun x => { x with syncs := x.syncs ++ [{ west := west, epoch := e, issue := now }] }) with
        out := s.out ++ [.marker west row e (BitVec.ofNat 16 now) (now + (now + row) % 2)] }
    | none => s
  .next ([true, false].foldl go s)

/-- The marker that a TSYNC awaits on its side: the TSYNCs outstanding there take the markers in order. -/
def Tile.markerOf (t : Tile) (r : SyncRun) : Option Marker :=
  (t.markers.filter fun m => m.west == r.west)[(t.syncs.filter fun x => x.west == r.west).findIdx fun x => x == r]?

/-- A TSYNC checked against its marker (11 R340). -/
def State.syncCheck (s : State) (r : SyncRun) : State :=
  match s.tl.markerOf r with
  | none => s
  | some m =>
    if m.epoch = r.epoch ∧ m.scyc = BitVec.ofNat 16 r.issue ∧ r.issue ≤ m.at_ + 4096 then
      s.onTl fun t => { t with syncs := t.syncs.erase r, markers := t.markers.erase m }
    else s.gangStop (.tile s.focus.tile) 0x19#8 0x03#8 0#8 0#64

/-- TSYNC_MARKER_ARRIVAL (11 R340): a marker that another package sends reaches its tile; or the TSYNCs of the tile in
focus are checked against the markers that have come. -/
def execTsyncMarkerArrival (ext : Option MarkerIn) (s : State) : Out :=
  .next (
    match ext with
    | some m => s.onTileAt m.tile fun t => { t with markers := t.markers ++
        [{ west := m.west, epoch := m.epoch, scyc := m.scyc, at_ := s.job.scyc m.tile }] }
    | none => s.tl.syncs.foldl State.syncCheck s)

/-- A TSYNC whose marker has not come by the end of tc issue + 63 raises the frame hold (11 R340). -/
def State.syncHold (s : State) (r : SyncRun) : State :=
  let t := s.focus.tile
  let mine := fun (f : Frame) => f.node == t && match f.cond with | .marker _ west i _ => west == r.west && i == r.issue | _ => false
  if (s.tl.markerOf r).isSome || decide (s.now + 1 < r.issue + 64) || s.job.frames.any mine then s
  else
    (s.raiseHold t (some 32)).onJob fun j =>
      { j with frames := j.frames ++
        [{ node := t, test := j.tb + 32 + (j.node t).owed, cond := .marker t r.west r.issue (j.tb + 4096) }] }

/-- Whether a frame hold waits for a marker beyond its 4,096 tc (11 R340). -/
def State.syncLate (s : State) : Bool :=
  s.job.frames.any fun f =>
    f.node == s.focus.tile && match f.cond with
      | .marker _ west i until_ =>
        decide (until_ < s.job.tb) && s.tl.syncs.any fun r => r.west == west && r.issue == i && (s.tl.markerOf r).isNone
      | _ => false

/-- TSYNC_MARKER_TIMEOUT (11 R340): on the tile in focus, a marker that is late raises the hold, and one later than 4,096 tc
stops the partition. -/
def execTsyncMarkerTimeout (s : State) : Out :=
  .next (if s.syncLate then s.gangStop (.tile s.focus.tile) 0x19#8 0x04#8 0#8 0#64 else s.tl.syncs.foldl State.syncHold s)

/-! ## Holds (11 R326-R330) -/

/-- A hold reaches a node (11 R328): its length is owed; a permanent one stops the node at the last SCYC tc it began (12
R348, R349). -/
def Job.holdReaches (j : Job) (h : HoldRun) : Job :=
  match h.len with
  | some l => j.onNode h.node fun n => { n with owed := n.owed + l }
  | none =>
    let c := j.scyc h.node - 1
    j.onNode h.node fun n => if n.stop.isSome then n else { n with stop := some (c, n.h) }

/-- HOLD_ARRIVAL (11 R327, R328): the holds due in this TIMEBASE cycle reach their nodes; or a hold that enters over a
Causeway link starts its way through the package, and on to the links of the other edge. A permanent one is the gang stop of
another package of the chain: the halt tree takes it up here, and the launch ends when that package leaves (12 R348, 11
R338). -/
def execHoldArrival (ext : Option HoldIn) (s : State) : Out :=
  .next (
    match ext with
    | some h =>
      let runs := s.pt.spread (causewayNode (if h.west then 0 else 1) (h.row / 2)) h.len
      let onward := (s.pt.causeways.filter fun e => (e.1 == 0) != h.west).map fun e => LinkOut.hold (e.1 == 0) (2 * e.2) h.len
      let n := (if h.west then 0 else 1) * 8 + h.row / 2
      let halt : GangStop := { origin := .causeway n, cause := 0#8, detail := 0#8, cause2 := 0#8, aux := 0#64, tb := s.job.tb }
      { (s.onJob fun j =>
          { j with holds := j.holds ++ runs, stop := if h.len.isNone && j.stop.isNone then some halt else j.stop }) with
        out := s.out ++ onward }
    | none =>
      let due := s.job.holds.filter fun h => decide (h.due ≤ s.job.tb)
      s.onJob fun j => due.foldl Job.holdReaches { j with holds := j.holds.filter fun h => !decide (h.due ≤ s.job.tb) })

/-- Whether what a frame hold waits for has come (11 R329). -/
def Job.frameMet (j : Job) (c : FrameCond) : Bool :=
  match c with
  | .window t ws => ws.all fun w => (j.tile t).awaited w = []
  | .step _ g need => decide (need ≤ (j.group g).count)
  | .marker t west i _ => (j.tile t).syncs.all fun r => r.west != west || r.issue != i || ((j.tile t).markerOf r).isSome
  | .retry tb => decide (tb ≤ j.tb)

/-- A frame hold that has ended: HOLD of its windows clears (11 R336). A completion that the tile has waited for stops the partition
where next planes collide, before the tile begins t + D (07 R238). -/
def State.frameEnds (f : Frame) (s : State) : State :=
  match f.cond with
  | .step t g _ => s.stepStops t g
  | .window t ws => s.onTileAt t fun x =>
      { x with wctl := ws.foldl (fun m w => SMap.set m w (SMap.get m w &&& ~~~0x1000000#64)) x.wctl }
  | _ => s

/-- A frame hold tested at the last cycle of its pause (11 R329). -/
def State.frameTest (s : State) (f : Frame) : State :=
  let s1 := s.onJob fun j => { j with frames := j.frames.filter fun g => g ≠ f }
  if s.job.frameMet f.cond then s1.frameEnds f
  else
    (s1.raiseHold f.node (some 32)).onJob fun j =>
      { j with frames := j.frames ++ [{ f with test := j.tb + 32 + (j.node f.node).owed }] }

/-- HOLD_FRAME_TEST (11 R329): every frame hold whose test falls in this TIMEBASE cycle, unless its node has stopped for
good. -/
def execHoldFrameTest (s : State) : Out :=
  .next ((s.job.frames.filter fun f => decide (f.test ≤ s.job.tb) && (s.job.node f.node).stop.isNone).foldl State.frameTest s)

end Sys2Proof.Machine
end

