-- ==== Sys2Proof/Machine/Host.lean ====
section
/-!
DEFINITION. The host port (13 R365-R373): the TDIs, the queue registers, the reading and acceptance of packets, the status
page with its acceptance and completion records, and the host windows.
-/

namespace Sys2Proof.Machine

/-! ## Host memory -/

/-- Bytes written to host memory by the host or by the device: what the far tier sealed there is overwritten (08 R258). -/
def State.hostPuts (a : Nat) (l : List Byte) (s : State) : State :=
  let sectors := ((List.range l.length).map fun i => (farBase + a + i) / 64).eraseDups
  { s with
    host := writeMem s.host a l
    far := (List.range 4).foldl (fun m p => sectors.foldl (fun m x => SMap.erase m (farSector p x)) m) s.far }

/-- Bytes a to b − 1 of host memory made zero by the device. -/
def State.hostZero (a b : Nat) (s : State) : State :=
  let lo := (farBase + a) / 64
  let hi := (farBase + b - 1) / 64
  { s with
    host := s.host.filter fun x => decide (x.1 < a) || decide (b ≤ x.1)
    far := s.far.filter fun x => decide (x.1 % 2 ^ 50 < lo) || decide (hi < x.1 % 2 ^ 50) }

/-- The little-endian number in n bytes of a packet from byte a. -/
def Packet.le (k : Packet) (a n : Nat) : Nat := ofBytes ((k.bytes.drop a).take n)
/-- The header's fields (13 R369). -/
def Packet.seq (k : Packet) : Nat := k.le 0 8
def Packet.kind (k : Packet) : Nat := k.le 8 1
def Packet.sub (k : Packet) : Nat := k.le 9 1
/-- Whether bytes a to b − 1 of a packet are zero. -/
def Packet.zero (k : Packet) (a b : Nat) : Bool := ((k.bytes.drop a).take (b - a)).all fun x => x == 0#8

/-! ## Queues -/

/-- Host queue q of a partition. -/
def Part.queue (p : Part) (q : Nat) : Queue := SMap.get p.queues q
/-- The partition with queue q changed. -/
def Part.onQueue (p : Part) (q : Nat) (f : Queue → Queue) : Part := { p with queues := upd p.queues q f }

/-- Whether a residency slot is free (10 R300). -/
def Part.freeSlot (p : Part) : Option Nat := [0, 1].find? fun k => (SMap.get p.res k).isNone

/-- The jobs of a partition: the current one, and the saved one of each resident. -/
def Part.jobs (p : Part) : List Job := p.job :: [0, 1].filterMap fun k => (SMap.get p.res k).map Resident.saved

/-- Whether queue q holds an accepted packet that has not completed (13 R375, 14 R392). -/
def Part.busy (p : Part) (q : Nat) : Bool :=
  (p.queue q).pending != []
    || ([0, 1].any fun k => match SMap.get p.res k with | some r => r.queue == q | none => false)
    || (p.jobs.any fun j => match j.debug with | some d => d.events.any fun e => e.queue == q | none => false)
    || (match p.ckpt with | some c => c.pkt.queue == q | none => false)
    || (match p.quiesce with | some c => c.pkt.queue == q | none => false)

/-- Whether QSIZE names a ring (13 R368). -/
def ringSizes : List Nat := [64, 128, 256, 512, 1024, 2048, 4096, 8192, 16384, 32768, 65536]

/-- Whether the head of a queue can proceed (10 R303). -/
def Part.headReady (p : Part) (q : Nat) : Bool :=
  match (p.queue q).pending with
  | k :: _ => if k.kind = 1 then p.freeSlot.isSome else if k.kind = 4 ∨ k.kind = 5 then p.switch.isNone else true
  | [] => false

/-- The acceptance number of the packet at the head of a queue that can proceed, when a partition reset has found it accepted (13
R370). -/
def Part.redoHead (p : Part) (q : Nat) : Option Nat :=
  match (p.queue q).pending with
  | k :: _ => if p.headReady q && decide (k.num ≤ p.redo) then some k.num else none
  | [] => none

/-- Whether the device takes its next packet from queue q (10 R303): one packet at a time, the steward's first, then the
highest user queue whose head can proceed. Those that a partition reset has found accepted come first, in their acceptance order
(13 R370). -/
def Part.takes (p : Part) (q : Nat) : Bool :=
  let redo := (List.range 5).filterMap fun r => if r = 4 ∧ p.quiesce.isSome = true then none else p.redoHead r
  if p.ckpt.isSome then false
  else if redo ≠ [] then
    match p.redoHead q with
    | some n => !(q == 4 && p.quiesce.isSome) && redo.all fun m => decide (n ≤ m)
    | none => false
  else if p.headReady 4 && p.quiesce.isNone then q == 4
  else decide (q < 4) && p.headReady q && (List.range 4).all fun r => !(decide (q < r) && p.headReady r)

/-! ## Records (13 R371, R372) -/

/-- What a completion record says beside the packet that it completes (13 R372). -/
structure Done where
  status : Nat
  cause : Nat := 0
  detail : Nat := 0
  vcause : Nat := 0
  slot : Nat := 0
  tile : Nat := 0
  line : Nat := 0
  report : Nat := 0
  tb : Nat := 0
  aux : Nat := 0
  deriving DecidableEq, Repr, Inhabited

/-- The bytes of a completion record (13 R372). -/
def Done.bytes (d : Done) (cseq seq queue kind anum : Nat) : List Byte :=
  toBytes 8 cseq ++ toBytes 8 seq ++ toBytes 1 queue ++ toBytes 1 kind ++ toBytes 2 d.status ++ toBytes 1 d.cause
    ++ toBytes 1 d.detail ++ toBytes 1 d.vcause ++ toBytes 1 d.slot ++ toBytes 2 d.tile ++ toBytes 2 0 ++ toBytes 4 d.line
    ++ toBytes 8 d.report ++ toBytes 8 d.tb ++ toBytes 8 anum ++ toBytes 8 d.aux

/-- Bytes 0 to 1023 of the status page (13 R371). -/
def State.pageTop (s : State) : State :=
  let p := s.pt
  (s.hostZero (p.statbase.toNat + 56) (p.statbase.toNat + 1024)).hostPuts p.statbase.toNat
    (toBytes 8 p.aseq.toNat ++ toBytes 8 p.cseq.toNat ++ (List.range 5).flatMap fun q => toBytes 8 (p.queue q).nextSeq.toNat)

/-- The completion records that the page may take are written in number order (13 R371). -/
def State.flushDone : Nat → State → State
  | 0, s => s
  | fuel + 1, s =>
    let n := s.pt.cseq.toNat + 1
    match s.pt.held.find? fun c => c.cseq == n with
    | some c =>
      if n ≤ s.pt.hseen.toNat + 32 then
        let t := s.hostPuts (s.pt.statbase.toNat + 2048 + 64 * (n % 32)) c.bytes
        State.flushDone fuel ((t.onPt fun p => { p with cseq := BitVec.ofNat 64 n }).pageTop)
      else s
    | none => s

/-- The records that wait, written as far as HSEEN allows. -/
def State.flush (s : State) : State := s.flushDone s.pt.held.length

/-- HSEEN advances to v, which is not above CSEQ: what the host has seen is no longer held, and waiting records are
written (13 R371). -/
def State.seen (v : Nat) (s : State) : State :=
  (s.onPt fun p => { p with hseen := BitVec.ofNat 64 v, held := p.held.filter fun c => decide (v < c.cseq) }).flush

/-- The number of the next completion record: after those written, and those held (13 R371). -/
def Part.nextDone (p : Part) : Nat := (p.held.foldl (fun m c => Nat.max m c.cseq) p.cseq.toNat) + 1

/-- A packet completes (13 R370, R371): its record takes the next number and is held until it can be written. -/
def State.completePacket (queue seq kind anum : Nat) (d : Done) (s : State) : State :=
  let n := s.pt.nextDone
  (s.onPt fun p => { p with held := p.held ++ [{ cseq := n, bytes := d.bytes n seq queue kind anum }] }).flush

/-- A packet at hand completes. -/
def State.finish (k : Packet) (d : Done) (s : State) : State := s.completePacket k.queue k.seq k.kind k.num d

/-- Status codes (13 R373). -/
def stDone : Nat := 0
def stFault : Nat := 1
def stAborted : Nat := 2
def stNodest : Nat := 3
def stNotSteward : Nat := 4
def stBadKind : Nat := 5
def stBusy : Nat := 6
def stNotQuiesced : Nat := 7
def stBadConfig : Nat := 8
def stDenied : Nat := 9
def stCkptFail : Nat := 10
def stBadImage : Nat := 0x10
def stBadChain : Nat := 0x11
def stBadSize : Nat := 0x12
def stBadEnc : Nat := 0x13
def stBadTime : Nat := 0x14
def stBadGang : Nat := 0x15
def stBadSlot : Nat := 0x16
def stBadWin : Nat := 0x17
def stBadRegion : Nat := 0x18
def stBadOwn : Nat := 0x19
def stBadPlace : Nat := 0x1A

/-- An acceptance record (13 R371, R372). -/
def State.acceptRec (seq queue kind status ref : Nat) (s : State) : State :=
  let a := s.pt.aseq.toNat + 1
  let l := toBytes 8 a ++ toBytes 8 seq ++ toBytes 1 queue ++ toBytes 1 kind ++ toBytes 1 status ++ toBytes 5 0 ++ toBytes 8 ref
  ((s.hostPuts (s.pt.statbase.toNat + 1024 + 32 * (a % 32)) l).onPt fun p => { p with aseq := BitVec.ofNat 64 a }).pageTop

/-! ## BAR0 (13 R366, R368) -/

/-- Whether the function of the partition in focus is active: it is the function of a partition whose quarters are all in
service (13 R365, 18 R444, R447). -/
def State.active (s : State) : Bool := s.pt.qmask != 0#4 && (s.pt.quarters.all fun q => s.qok.getLsbD q)

/-- Whether the queue registers can be written: the host link is up, boot has reached READY, and the function is active (13
R365, 18 R444, R447). -/
def State.ready (s : State) : Bool := s.link && s.stage == 7 && s.active

/-- DEVID (18 R445). -/
def State.devid (s : State) : Word := 0x4B04#16 ++ 0x01#8 ++ s.qok ++ s.stkok ++ 0#20
/-- BOOTST (18 R446). -/
def State.bootst (s : State) : Word := 0#48 ++ s.bootErr ++ 0#4 ++ BitVec.ofNat 4 s.stage

/-- STATE (13 R368). -/
def Part.stateWord (p : Part) : Word :=
  BitVec.ofNat 64 ((if p.quiesced then 1 else 0) + (if p.herr then 2 else 0) + (if p.jlost then 4 else 0))

/-- A register of BAR0 of a partition (13 R368); zero at an offset that holds none. -/
def Part.bar0 (p : Part) (off : Nat) : Word :=
  let x := p.queue (off / 0x20)
  if off < 0xA0 then
    if off % 0x20 = 0x00 then x.base
    else if off % 0x20 = 0x08 then x.size
    else if off % 0x20 = 0x10 then x.tail
    else if off % 0x20 = 0x18 then x.nextSeq
    else 0#64
  else if off = 0x100 then p.statbase
  else if off = 0x108 then p.hseen
  else if off = 0x110 then p.aseq
  else if off = 0x118 then p.cseq
  else if off = 0x120 then p.replay
  else if off = 0x128 then p.stateWord
  else 0#64

/-- What a read of BAR0 of the function in focus returns (13 R365, R368; 18 R444-R446); none for Unsupported Request, which a user
queue's doorbell gives outside RUN (13 R366; log 41). Before READY the registers of 13 R368 read as at reset. -/
def State.bar0Read (s : State) (off : Nat) : Option Word :=
  let booting := decide (s.stage < 7) || s.stage == 15
  if !s.link || s.stage == 0 || (decide (5 ≤ s.stage) && s.stage != 15 && !s.active) then none
  else if off = 0x200 then some s.devid
  else if off = 0x208 then some s.bootst
  else if !booting && off % 0x20 == 0x10 && decide (off < 0x80) && s.pt.tdi != .run then none
  else if booting then some ((Part.quarter 0).bar0 off)
  else some (s.pt.bar0 off)

/-- A configuration read of the function in focus (13 R365): its identity, and the state of its device interface, which is
CONFIG_UNLOCKED in an inactive function. -/
def State.configRead (p : Nat) (s : State) : State :=
  if !s.link then s
  else { s with out := s.out ++ [.config (Config.identity p) (if s.stage == 7 && s.active then s.pt.tdi else .unlocked)] }

/-- A write of QTAIL(q) (13 R369, R370): reading resumes. The doorbell of a user queue is served in RUN alone (13 R366, 17
R427; log 41). A tail below NEXTSEQ names a slot written again, which is read once (log 40). -/
def State.doorbell (q : Nat) (v : Word) (s : State) : State :=
  if s.ready && decide (q ≤ 4) && (q == 4 || s.pt.tdi == .run) then
    s.onPt fun p => p.onQueue q fun x => { x with tail := v, gap := false, head := Nat.min x.nextSeq.toNat v.toNat }
  else s

/-- QTAIL_WRITE (13 R369). -/
def execQtailWrite (q : Nat) (v : BitVec 64) (s : State) : Out := .next (s.doorbell q v)

/-- A write of HSEEN (13 R371). -/
def State.hseenReg (v : Word) (s : State) : State :=
  if !s.ready then s
  else if s.pt.cseq.toNat < v.toNat then s.onPt fun p => { p with herr := true }
  else s.seen v.toNat

/-- HSEEN_WRITE (13 R371). -/
def execHseenWrite (v : BitVec 64) (s : State) : Out := .next (s.hseenReg v)

/-- A write of REPLAY (13 R368): the records after v that are still held are written again. -/
def State.replayReg (v : Word) (s : State) : State :=
  if !s.ready then s
  else
    let l := s.pt.held.filter fun c => decide (v.toNat < c.cseq) && decide (c.cseq ≤ s.pt.cseq.toNat)
    l.foldl (fun s c => s.hostPuts (s.pt.statbase.toNat + 2048 + 64 * (c.cseq % 32)) c.bytes)
      (s.onPt fun p => { p with replay := v })

/-- REPLAY (13 R368). -/
def execReplay (v : BitVec 64) (s : State) : Out := .next (s.replayReg v)

/-- BAR0_REGISTER_WRITE (13 R368): QBASE and QSIZE while their queue holds no accepted packet that has not completed, STATBASE,
each of which keeps every bit written (00 R8; log 101); the registers with behaviour of their own act as they do, and RO
registers ignore the write (00 R8). -/
def execBar0RegisterWrite (off : Nat) (v : BitVec 64) (s : State) : Out :=
  let q := off / 0x20
  let r := off % 0x20
  .next (
    if !s.ready then s
    else if off < 0xA0 then
      if r = 0x00 then if s.pt.busy q then s else s.onPt fun p => p.onQueue q fun x => { x with base := v }
      else if r = 0x08 then
        if s.pt.busy q then s else s.onPt fun p => p.onQueue q fun x => { x with size := v }
      else if r = 0x10 then s.doorbell q v
      else s
    else if off = 0x100 then s.onPt fun p => { p with statbase := v }
    else if off = 0x108 then s.hseenReg v
    else if off = 0x120 then s.replayReg v
    else s)

/-! ## Reading packets (13 R369, R370, R373) -/

/-- HSEEN as a packet carries it (13 R369): the largest value not above CSEQ with those bits 47:0. -/
def hseenOf (cseq low : Nat) : Nat :=
  let v := cseq / 2 ^ 48 * 2 ^ 48 + low
  if v ≤ cseq then v else v - 2 ^ 48

/-- The header's HSEEN taken in. -/
def State.takeSeen (k : Packet) (s : State) : State :=
  let v := hseenOf s.pt.cseq.toNat (k.le 10 6)
  if s.pt.hseen.toNat < v ∧ v ≤ s.pt.cseq.toNat then s.seen v else s

/-- Whether a kind defines a SUB (13 R369, R376, R383; 14 R387; 17 R427). -/
def subOk (kind sub : Nat) : Bool :=
  match kind with
  | 3 => decide (1 ≤ sub) && decide (sub ≤ 11)
  | 6 => decide (1 ≤ sub) && decide (sub ≤ 6)
  | _ => sub == 0

/-- Whether queue q has a packet that the device has still to read: user queues are not read while the partition is quiesced or
being quiesced (13 R369, R375). -/
def State.unread (s : State) (q : Nat) : Bool :=
  let x := s.pt.queue q
  s.ready && decide (q ≤ 4) && ringSizes.contains x.size.toNat && !x.gap && decide (x.head ≤ x.tail.toNat)
    && (q == 4 || !(s.pt.quiesced || s.pt.quiesce.isSome))

/-- Whether a LAUNCH that heads queue q is the packet that the device takes next, and with that accepts (10 R303, R309, 13
R375): no CHECKPOINT is under way, a residency slot is free and no LAUNCH has still to take one, nothing stands before it in its
queue, and no higher queue has a head that can proceed: an unread packet behind a head that cannot is no head. -/
def State.launchNext (s : State) (q : Nat) : Bool :=
  s.pt.ckpt.isNone && s.pt.freeSlot.isSome && (List.range 5).all (fun r => (s.pt.queue r).pending.all fun y => y.kind != 1)
    && (s.pt.queue q).pending == []
    && (List.range 5).all fun r => decide (r ≤ q) || !(s.unread r && (s.pt.queue r).pending == [] || s.pt.headReady r)

/-- PACKET_ACCEPT (13 R370): the packet in queue q's next slot is accepted, or answered DUPLICATE or GAP; a LAUNCH when its turn
has come. One of an unknown KIND or SUB completes at once (13 R369, R373). -/
def execPacketAccept (q : Nat) (s : State) : Out :=
  let x := s.pt.queue q
  let l := readMem s.host (x.base.toNat + 64 * (x.head % x.size.toNat)) 64
  let k : Packet := { queue := q, num := s.pt.aseq.toNat + 1, bytes := l }
  let next := s.pt.onQueue q fun y => { y with head := x.head + 1 }
  .next (
    if !s.unread q then s
    else if k.seq < x.nextSeq.toNat then
      ((s.onPt fun _ => next).takeSeen k).acceptRec k.seq q k.kind 1 (SMap.get x.accepted k.seq)
    else if x.nextSeq.toNat < k.seq then
      ((s.onPt fun p => p.onQueue q fun y => { y with gap := true }).takeSeen k).acceptRec k.seq q k.kind 2 0
    else if k.kind = 1 ∧ s.launchNext q = false then s
    else
      let t := ((s.onPt fun _ => next.onQueue q fun y =>
        { y with nextSeq := y.nextSeq + 1#64, accepted := SMap.set y.accepted k.seq k.num }).takeSeen k).acceptRec k.seq q k.kind 0 0
      if k.kind = 0 ∨ 6 < k.kind then t.finish k { status := stBadKind }
      else if !subOk k.kind k.sub then t.finish k { status := stBadConfig }
      else t.onPt fun p => p.onQueue q fun y => { y with pending := y.pending ++ [k] })

/-- The packet at the head of queue q is taken when it is of the kind and SUB that a step handles, and the device takes
its next packet there (10 R303); it is checked against its own layout (13 R369), and then, for a packet that only the
steward queue may carry, against its queue (10 R302). -/
def State.withPacket (s : State) (q kind : Nat) (sub : Packet → Bool) (layout : Packet → Bool) (stewardOnly : Bool)
    (f : Packet → State → State) : State :=
  match (s.pt.queue q).pending with
  | [] => s
  | k :: rest =>
    if k.kind == kind && sub k && s.pt.takes q then
      let t := s.onPt fun p => p.onQueue q fun y => { y with pending := rest }
      if !layout k then t.finish k { status := stBadConfig }
      else if stewardOnly && q != 4 then t.finish k { status := stNotSteward }
      else f k t
    else s

/-! ## Host windows (13 R367) -/

/-- Whether some grant in force opens a range of partition HBM for reading, or for writing. -/
def Part.granted (p : Part) (write : Bool) (a n : Nat) : Bool :=
  (List.range 8).any fun i =>
    match SMap.get p.grants i with
    | some g => decide (g.after ≤ p.cseq.toNat) && decide (g.base ≤ a) && decide (a + n ≤ g.base + g.len) && (if write then g.write else g.read)
    | none => false

/-- Whether BAR2 serves an access of n bytes at an offset, which is a partition HBM address (13 R365-R367). -/
def State.bar2Ok (s : State) (write : Bool) (off n : Nat) : Bool :=
  s.link && s.pt.tdi == .run && decide (off + n ≤ 2 ^ 36) && decide (off + n ≤ s.pt.hbmSize) && s.pt.granted write off n

/-- BAR2_READ (13 R367): a granted read is performed at the home slice; any other, and one of a poisoned sector, completes
with Unsupported Request. -/
def execBar2Read (off len : Nat) (s : State) : Out :=
  let bad := (List.range len).any fun i => s.pt.poisoned (s.pt.home (off + i))
  .next { s with out := s.out ++ [.bar2 (if s.bar2Ok false off len && !bad then some (s.paBytes off len) else none)] }

/-- BAR2_WRITE (13 R367): a granted write is performed at the home slice; any other is dropped. -/
def execBar2Write (off : Nat) (data : List (BitVec 8)) (s : State) : Out :=
  .next (if s.bar2Ok true off data.length then (s.paPuts false off data).unpoison off data.length else s)

/-! ## TDISP and IDE (13 R366) -/

/-- TDISP_REQUEST (13 R366): the device interface of the partition in focus is locked, started, or returned to
CONFIG_UNLOCKED. Which request leads from which state is TDISP's own (PRESUMED, log 107). -/
def execTdispRequest (mode : Tdi) (s : State) : Out :=
  let t := s.pt.tdi
  .next (
    if s.ready && (mode == .unlocked || mode == .locked && t == .unlocked || mode == .run && t == .locked) then
      s.onPt fun p => { p with tdi := mode }
    else s)

/-- IDE_INTEGRITY_FAILURE (13 R366): of the stream of an active function, which has one once its keys are set. -/
def execIdeIntegrityFailure (s : State) : Out :=
  .next (if s.ready && s.pt.ide.isSome then s.onPt fun p => { p with tdi := .error } else s)

end Sys2Proof.Machine
end

