-- ==== Sys2Proof/Machine/Words.lean ====
section
/-!
DEFINITION. The control words (01 R41-R43; 05 R182): their numbers, who may reach them, and what a read and a write do
field by field; SYSR and SYSW; the layout-record word (01 R34) and the step record (01 R26).
-/

namespace Sys2Proof.Machine

/-- What the table opens to a requester: nothing, reading, or reading and writing (01 R41). -/
inductive CwAccess where
  | none | ro | rw
  deriving DecidableEq, Repr

/-- The access of a control word (01 R41); no answer for an unassigned number. -/
def cwAccess (steward : Bool) (n : Nat) : Option CwAccess :=
  let sw : CwAccess := if steward then .rw else .ro
  if n ≤ 0x001 ∨ n = 0x003 then some .rw
  else if n = 0x002 ∨ n ≤ 0x007 then some sw
  else if n = 0x008 then some .ro
  else if 0x010 ≤ n ∧ n ≤ 0x021 then some .rw
  else if 0x100 ≤ n ∧ n ≤ 0x103 then some .ro
  else if n = 0x205 then some .ro
  else if 0x200 ≤ n ∧ n ≤ 0x208 then some sw
  else if 0x300 ≤ n ∧ n ≤ 0x37F then some (if steward then .rw else .none)
  else if 0x400 ≤ n ∧ n ≤ 0x43F then some .ro
  else if 0x500 ≤ n ∧ n ≤ 0x70F then some sw
  else if n = 0x822 ∨ n = 0x823 then some .ro
  else if 0x800 ≤ n ∧ n ≤ 0x821 then some sw
  else if 0x830 ≤ n ∧ n ≤ 0x86F then some sw
  else if 0x880 ≤ n ∧ n ≤ 0x8FF then some sw
  else if 0xF00 ≤ n ∧ n ≤ 0xF03 then some .ro
  else none

/-- Whether a number names a tile word (05 R182). -/
def isTileWord (n : Nat) : Bool := decide (0x800 ≤ n) && decide (n ≤ 0x8FF)

/-- Whether a number names an own word of the issuing context or core, which does not yield (05 R150, 01 R41). That the
core's words count as own is DEDUCED, log 36. -/
def isOwnWord (n : Nat) : Bool :=
  decide (n ≤ 0x020) || (decide (0x100 ≤ n) && decide (n ≤ 0x103)) || (decide (0x700 ≤ n) && decide (n ≤ 0x70F))

/-! ## Fields -/

/-- The bits of a mask of ones from bit `lo` to bit `hi`. -/
def bitsMask (hi lo : Nat) : Word := BitVec.ofNat 64 (2 ^ (hi + 1) - 2 ^ lo)

/-- A word with the bits of a mask replaced by those of a value. -/
def mergeBits (mask old new : Word) : Word := (old &&& ~~~mask) ||| (new &&& mask)

/-- The writable bits of MA, MB, MIDX, a stepped region entry, WRG, WD.CTL and an own-region CTL (01 R15-R17, R22, R24,
R36, R38). -/
def maMask : Word := bitsMask 45 31 ||| bitsMask 14 0
def mbMask : Word := bitsMask 33 23 ||| bitsMask 10 0
def midxMask : Word := bitsMask 3 0
def regionMask : Word := bitsMask 63 42 ||| bitsMask 39 25 ||| bitsMask 14 0
def wrgMask : Word := bitsMask 30 16 ||| bitsMask 14 0
def wdMask : Word := bitsMask 63 32 ||| bitsMask 23 17
/-- The bits of SEG BASE and SEG LIMIT words (08 R255). -/
def segMask (n : Nat) : Word :=
  if n % 2 = 0 then bitsMask 63 63 ||| bitsMask 57 48 ||| bitsMask 29 6 else bitsMask 29 6

/-! ## Tile words -/

/-- REM of a window (01 R22, 07 R234). -/
def Tile.rem (t : Tile) (scyc w : Nat) : Nat :=
  if wdOpen (SMap.get t.wctl w) then Nat.min 0xFFFF (SMap.get t.wclose w - scyc) else 0

/-- A tile word as read, at the tile's SCYC. -/
def Tile.cwRead (t : Tile) (scyc n : Nat) : Word :=
  if n ≤ 0x80F then SMap.get t.ma (n - 0x800)
  else if n ≤ 0x81F then SMap.get t.mb (n - 0x810)
  else if n = 0x820 then t.midx
  else if n = 0x821 then t.tstat
  else if n = 0x822 then BitVec.ofNat 64 scyc
  else if n = 0x823 then t.srec
  else if n ≤ 0x83F then SMap.get t.stepped.tab (n - 0x830)
  else if n ≤ 0x84F then SMap.get t.wrg (n - 0x840)
  else if n ≤ 0x85F then mergeBits (bitsMask 15 0) (SMap.get t.wctl (n - 0x850)) (BitVec.ofNat 64 (t.rem scyc (n - 0x850)))
  else if n ≤ 0x86F then SMap.get t.wmask (n - 0x860)
  else if n ≤ 0x8BF then (SMap.get t.pw (n - 0x880)).setWidth 64
  else (SMap.get t.pws (n - 0x8C0)).setWidth 64

/-- A map of words with the writable bits of word `k` written. -/
def setBits (m : SMap Word) (k : Nat) (mask v : Word) : SMap Word := SMap.set m k (mergeBits mask (SMap.get m k) v)

/-- TSTAT with the bits of a write cleared, but for those that the hardware has set in the same tc (01 R25). -/
def tstatClear (old now v : Word) : Word := old &&& ~~~(v &&& (bitsMask 15 8 ||| bitsMask 3 0) &&& ~~~now)

/-- A tile word as the steward writes it (01 R8, R41). -/
def Tile.cwWrite (t : Tile) (n : Nat) (v : Word) : Tile :=
  if n ≤ 0x80F then { t with ma := setBits t.ma (n - 0x800) maMask v }
  else if n ≤ 0x81F then { t with mb := setBits t.mb (n - 0x810) mbMask v }
  else if n = 0x820 then { t with midx := mergeBits midxMask t.midx v }
  else if n = 0x821 then { t with tstat := tstatClear t.tstat t.statSet v }
  else if n ≤ 0x82F then t
  else if n ≤ 0x83F then { t with stepped := { t.stepped with tab := setBits t.stepped.tab (n - 0x830) regionMask v } }
  else if n ≤ 0x84F then { t with wrg := setBits t.wrg (n - 0x840) wrgMask v }
  else if n ≤ 0x85F then { t with wctl := setBits t.wctl (n - 0x850) wdMask v }
  else if n ≤ 0x86F then { t with wmask := SMap.set t.wmask (n - 0x860) v }
  else if n ≤ 0x8BF then { t with pw := SMap.set t.pw (n - 0x880) (v.setWidth 32) }
  else
    let k := n - 0x8C0
    { t with pws := SMap.set t.pws k (SMap.get t.pws k &&& ~~~((v.setWidth 32) &&& 0x40000#32)) }

/-- Whether a tile's chains run, so that a steward write is refused (01 R42). -/
def Job.running (j : Job) (t : Nat) : Bool :=
  (j.tile t).named && !(j.tile t).ended && (j.node t).stop.isNone

/-- Whether a write may reach a running tile (01 R42): the TSTAT and PWS bits that software clears. -/
def anyTime (n : Nat) : Bool := n == 0x821 || decide (0x8C0 ≤ n)

/-- Whether a stepped region entry may be written (01 R37): while a launch runs, its group has no member arrived. Of a write that
changes GROUP, both groups must have none (DESIGN CHOICE, log 111). -/
def Job.regionWritable (j : Job) (old new : Word) : Bool :=
  (j.group (rgGroup old)).arr == 0 && (j.group (rgGroup new)).arr == 0

/-! ## Reading -/

/-- The word of a step group (01 R35). -/
def Group.word (g : Group) : Word :=
  (BitVec.ofNat 40 g.count ++ BitVec.ofNat 12 g.arr ++ BitVec.ofNat 12 g.nmem : BitVec 64)

/-- ORn.CTL (01 R38). -/
def Owned.ctl (o : Owned) : Word :=
  ((if o.valid then 1#1 else 0#1) ++ 0#3 ++ o.holder ++ o.hseq ++ BitVec.ofNat 32 (o.size / 64) : BitVec 64)

/-- CTX (01 R28). -/
def Ctx.word (c : Ctx) : Word :=
  BitVec.ofNat 64 (CtxState.code c.state * 256 + (if c.inupc then 8 else 0) + (if c.upen then 4 else 0) + c.prio.toNat)

/-- A partition word (01 R39). -/
def Part.word (p : Part) (n : Nat) : Word :=
  match n with
  | 0 => p.qmask.setWidth 64
  | 1 => p.il.setWidth 64
  | 2 => p.bound.setWidth 64
  | 3 => boolWord p.det
  | 4 => p.seed
  | 5 => BitVec.ofNat 64 p.job.tb
  | 6 => p.ratio.setWidth 64
  | 7 => p.chain.setWidth 64
  | _ => 0#64

/-- The word of the layout record that LSEL selects (01 R34). -/
def State.ldata (s : State) : Word := (SMap.get s.hm.lrec (s.cx.lsel.toNat % 256)).extractLsb' (64 * (s.cx.lsel.toNat / 256)) 64

/-- LSEL with WORD advanced (01 R34). -/
def lselNext (l : BitVec 11) : BitVec 11 := (l.extractLsb' 8 3 + 1#3) ++ l.extractLsb' 0 8

/-- The resident job in SHADOW that names tile `t`, by its slot, where the current job does not (01 R42). -/
def Part.shadowNames (p : Part) (t : Nat) : Option (Nat × Resident) :=
  if (p.job.tile t).named then none
  else
    [0, 1].findSome? fun k =>
      match SMap.get p.res k with
      | some r => if p.cur ≠ some k ∧ r.state = .shadow ∧ (r.saved.tile t).named = true then some (k, r) else none
      | none => none

/-- The job whose tile `t` a tile word is of (01 R42): the current one that names it, a job in SHADOW, which is not current, that
does, else the current one; with none current, the tiles are as the last one left them. -/
def State.wordJob (s : State) (t : Nat) : Job :=
  match s.pt.shadowNames t with
  | some x => x.2.saved
  | none => if s.pt.cur.isSome || (s.tileAt t).named then s.job else { s.job with tiles := s.pt.left }

/-- The state with the tile that a tile word is of changed. -/
def State.onWordTile (t : Nat) (f : Tile → Tile) (s : State) : State :=
  match s.pt.shadowNames t with
  | some x => s.onPt fun p => p.onRes x.1 fun r => { r with saved := r.saved.onTile t f }
  | none =>
    if s.pt.cur.isSome || (s.tileAt t).named then s.onTileAt t f
    else s.onPt fun p => { p with left := upd p.left t f }

/-- A control word as the context in focus reads it (01 R41); `tile` for a tile word. -/
def State.cwRead (s : State) (n tile : Nat) : Word :=
  let c := s.cx
  if n = 0x000 then c.word
  else if n = 0x001 then ((0#32 ++ c.strmEnd ++ c.strmAct : BitVec 64))
  else if n = 0x002 then c.pseq.setWidth 64
  else if n = 0x003 then (c.upv.extractLsb' 0 3 ++ c.upv.extractLsb' 3 26 : BitVec 29).setWidth 64
  else if n = 0x004 then c.frec0
  else if n = 0x005 then c.frec1
  else if n = 0x006 then c.frec2
  else if n = 0x007 then c.frec3
  else if n = 0x008 then
    BitVec.ofNat 64 (s.me + 65536 * (11 * s.pt.physical 48 s.focus.core + s.focus.ctx))
  else if n ≤ 0x01F then SMap.get c.h (n - 0x010)
  else if n = 0x020 then c.lsel.setWidth 64
  else if n = 0x021 then s.ldata
  else if n = 0x100 then BitVec.ofNat 64 (s.focus.core + 65536 * s.pt.physical 48 s.focus.core)
  else if n = 0x101 then s.cr.sent
  else if n = 0x102 then s.cr.rcvd
  else if n = 0x103 then BitVec.ofNat 64 s.cr.mbox.length
  else if n ≤ 0x208 then s.pt.word (n - 0x200)
  else if n ≤ 0x37F then SMap.get s.pt.segs (n - 0x300)
  else if n ≤ 0x43F then (s.job.group (n - 0x400)).word
  else if n ≤ 0x5FF then (SMap.get s.job.owned (n - 0x500)).ctl
  else if n ≤ 0x6FF then BitVec.ofNat 64 (SMap.get s.job.owned (n - 0x600)).base
  else if n ≤ 0x70F then SMap.get s.cr.stepped.tab (n - 0x700)
  else if isTileWord n then ((s.wordJob tile).tile tile).cwRead ((s.wordJob tile).scyc tile) n
  else Config.feat (n - 0xF00)

/-! ## Writing -/

/-- A write of an own word of a context (01 R27-R31, R34): a user writes the RW fields, the steward PSEQ and FREC too. -/
def Ctx.cwWrite (c : Ctx) (n : Nat) (v : Word) : Ctx :=
  if n = 0x000 then { c with upen := v.getLsbD 2, prio := v.extractLsb' 0 2 }
  else if n = 0x001 then { c with strmEnd := c.strmEnd &&& ~~~v.extractLsb' 16 16 }
  else if n = 0x002 then { c with pseq := v.setWidth 16 }
  else if n = 0x003 then { c with upv := v.extractLsb' 0 26 ++ v.extractLsb' 26 3 }
  else if n = 0x004 then { c with frec0 := v }
  else if n = 0x005 then { c with frec1 := v }
  else if n = 0x006 then { c with frec2 := v }
  else if n = 0x007 then { c with frec3 := v }
  else if n ≤ 0x00F then c
  else if n ≤ 0x01F then { c with h := SMap.set c.h (n - 0x010) (v &&& ~~~0x3F#64) }
  else if n = 0x020 then { c with lsel := v.setWidth 11 }
  else c

/-- A partition word written by the steward (01 R39). That PART.DET, PART.SEED and SLU.RATIO take a steward's write, or a POKE,
while a launch runs is a DESIGN CHOICE, log 100. -/
def Part.setWord (p : Part) (n : Nat) (v : Word) : Part :=
  match n with
  | 0 => { p with qmask := v.setWidth 4 }
  | 1 => { p with il := v.setWidth 16 }
  | 2 => { p with bound := v.setWidth 4 }
  | 3 => { p with det := v.getLsbD 0 }
  | 4 => { p with seed := v }
  | 6 => { p with ratio := v.setWidth 2 }
  | 7 => { p with chain := v.setWidth 7 }
  | _ => p

/-- Whether a steward's write of a SEG word is taken (08 R256): no job is resident, the stack is the partition's, and
the segment stays below the steward's reserve. -/
def Part.segWritable (p : Part) (k : Nat) (v : Word) : Bool :=
  let q := { p with segs := SMap.set p.segs k (v &&& segMask k) }
  let n := k / 2
  (SMap.get p.res 0).isNone && (SMap.get p.res 1).isNone
    && (!q.segValid n || (p.il.getLsbD (q.segPch n / 64) && decide (q.segBase n + q.segLen n ≤ 0x2FF00000)))

/-- The streams of a context that name a layout record are broken by a rewrite of it (01 R33). -/
def Ctx.breakStreams (hnd : Nat) (c : Ctx) : Ctx :=
  { c with strms := c.strms.map fun x => (x.1, if x.2.handle.toNat = hnd then { x.2 with broken := true } else x.2) }

/-- LDATA written (01 R33, R34): the record's word changes, WORD advances, and a copy that names the record ends with
status LAYOUT. A stream refill that names it finds the same: it is held as a copy fault with DETAIL 3, the number of that
status (DESIGN CHOICE, log 81). -/
def State.ldataPut (v : Word) (s : State) : State :=
  let hnd := s.cx.lsel.toNat % 256
  let lo := 64 * (s.cx.lsel.toNat / 256)
  let me := hamletOf s.focus.core
  ((s.onJob fun j => { j with cores := j.cores.map fun x =>
      (x.1, if hamletOf x.1 = me then { x.2 with ctxs := x.2.ctxs.map fun k => (k.1, k.2.breakStreams hnd) } else x.2) }).onHm fun h =>
    { h with
      lrec := SMap.set h.lrec hnd
        (((SMap.get h.lrec hnd) &&& ~~~((0xFFFFFFFFFFFFFFFF#512) <<< lo)) ||| ((v.setWidth 512) <<< lo))
      ops := h.ops.map fun x => (x.1, x.2.map fun o =>
        if o.hd.toNat = hnd ∨ o.hs.toNat = hnd then { o with broken := true, susp := none } else o) }).onCx fun c =>
    { c with lsel := lselNext c.lsel }

/-- A control word written by the context in focus, whose access allows it (01 R37, R40-R42; 08 R256); no state where the
write is discarded with a permission fault. -/
def State.cwWrite (n tile : Nat) (v : Word) (s : State) : Option State :=
  if n ≤ 0x020 then some (s.onCx fun c => c.cwWrite n v)
  else if n = 0x021 then some (s.ldataPut v)
  else if n ≤ 0x208 then
    if n ≤ 0x202 ∧ s.pt.quiesced = false then none else some (s.onPt fun p => p.setWord (n - 0x200) v)
  else if n ≤ 0x37F then
    if s.pt.segWritable (n - 0x300) v then
      some (s.onPt fun p => { p with segs := SMap.set p.segs (n - 0x300) (v &&& segMask (n - 0x300)) }).segFlush
    else none
  else if n ≤ 0x5FF then
    some (s.onJob fun j =>
      { j with owned := upd j.owned (n - 0x500) fun o => { o with valid := v.getLsbD 63, size := 64 * (v.setWidth 32).toNat } })
  else if n ≤ 0x6FF then
    some (s.onJob fun j =>
      { j with owned := upd j.owned (n - 0x600) fun o => { o with base := (v &&& bitsMask 55 6).toNat } })
  else if n ≤ 0x70F then
    let k := n - 0x700
    if s.job.regionWritable (SMap.get s.cr.stepped.tab k) v then
      some (s.onCr fun c => { c with stepped := { c.stepped with tab := setBits c.stepped.tab k regionMask v } })
    else none
  else
    let region := decide (0x830 ≤ n) && decide (n ≤ 0x83F)
    if s.job.running tile && !anyTime n then none
    else if region && s.pt.cur.isSome
        && !(s.wordJob tile).regionWritable (SMap.get ((s.wordJob tile).tile tile).stepped.tab (n - 0x830)) v then none
    else some (s.onWordTile tile fun t => t.cwWrite n v)

/-! ## SYSR and SYSW (05 R182) -/

/-- The tile that the value of G[a] names, when it is a tile of the launch (05 R182, 01 R42). The steward has no launch: it
reaches every tile of the partition. -/
def State.tileNamed (s : State) (a : Word) : Option Nat :=
  if a.extractLsb' 16 48 = 0#48 ∧ ((s.tileAt a.toNat).named = true ∨ s.isSteward = true ∧ a.toNat < s.pt.tileCount) then some a.toNat
  else none

/-- The access of a control word checked for the context in focus: its tile (0 for no tile word) is handed on, or the
instruction takes its fault (01 R42). -/
def State.withWord (s : State) (n : Nat) (a : Word) (k : CwAccess → Nat → State → State) : State :=
  match cwAccess s.isSteward n with
  | none => s.fault 0x02#8 0#8 0#64
  | some .none => s.fault 0x09#8 0#8 0#64
  | some acc =>
    if isTileWord n then
      match s.tileNamed a with
      | some t => k acc t s
      | none => s.fault 0x09#8 0#8 0#64
    else k acc 0 s

/-- What a read of a word changes: LDATA advances WORD (01 R34), SREC clears HIST (01 R26). -/
def State.cwTouch (n tile : Nat) (s : State) : State :=
  if n = 0x021 then s.onCx fun c => { c with lsel := lselNext c.lsel }
  else if n = 0x823 then s.onWordTile tile fun t => { t with srec := t.srec &&& ~~~0xF0#64 }
  else s

/-- A read performed: G[d] takes the word. -/
def State.sysrDone (d : BitVec 6) (n tile : Nat) (s : State) : State :=
  let v := s.cwRead n tile
  (s.cwTouch n tile).onCx fun c => c.wg d v

/-- A write performed, or refused with a permission fault; the value of a word that is RO to the requester is ignored. -/
def State.syswDone (v : Word) (acc : CwAccess) (n tile : Nat) (fin : State → State) (s : State) : State :=
  match acc with
  | .rw =>
    match s.cwWrite n tile v with
    | some t => fin t
    | none => s.deliverLate (State.fault 0x09#8 0#8 0#64)
  | _ => fin s

/-- SYSR (05 R182): an own word at once; any other yields. -/
def execSysr (d a : BitVec 6) (cw : BitVec 12) (s : State) : Out :=
  .next (s.withSrc (fun c => c.srcG a) fun v s =>
    s.withWord cw.toNat v fun _ tile s =>
      if isOwnWord cw.toNat then (s.sysrDone d cw.toNat tile).advance else s.park (.pend (.sysr d cw tile)))

/-- SYSW (05 R182): an own word at once; any other yields. Of one stream register named by both fields, a pops first (DESIGN CHOICE,
log 114). -/
def execSysw (d a : BitVec 6) (cw : BitVec 12) (s : State) : Out :=
  .next (s.withSrc (Ctx.srcG2 a d) fun r s =>
    s.withWord cw.toNat r.1 fun acc tile s =>
      if isOwnWord cw.toNat then s.syswDone r.2 acc cw.toNat tile State.advance else s.park (.pend (.sysw r.2 cw tile)))

/-- The pending SYSR of the context in focus is performed at the word's home (01 R43). -/
def State.sysrPerform (d : BitVec 6) (cw : BitVec 12) (tile : Nat) (s : State) : State := (s.sysrDone d cw.toNat tile).complete

/-- The pending SYSW of the context in focus is performed at the word's home (01 R43). -/
def State.syswPerform (v : Word) (cw : BitVec 12) (tile : Nat) (s : State) : State :=
  s.syswDone v ((cwAccess s.isSteward cw.toNat).getD .none) cw.toNat tile State.complete

/-- LDATA_READ (01 R34): the context in focus has its SYSR of LDATA performed. -/
def execLdataRead (d : BitVec 6) (s : State) : Out :=
  .next (
    match s.cx.wait with
    | .pend (.sysr d' cw tile) => if d' = d ∧ cw = 0x021#12 then s.sysrPerform d cw tile else s
    | _ => s)

/-- LDATA_WRITE (01 R33, R34): the context in focus has its SYSW of LDATA performed; G[d] is the value that it read at
issue. -/
def execLdataWrite (d : BitVec 6) (s : State) : Out :=
  .next (
    match s.cx.wait with
    | .pend (.sysw v cw tile) => if cw = 0x021#12 ∧ v = s.cx.rg d then s.syswPerform v cw tile else s
    | _ => s)

/-- SREC_READ (01 R26): the context in focus has its SYSR of a tile's SREC performed, which clears HIST. -/
def execSrecRead (tile : Nat) (d : BitVec 6) (s : State) : Out :=
  .next (
    match s.cx.wait with
    | .pend (.sysr d' cw t) => if d' = d ∧ cw = 0x823#12 ∧ t = tile then s.sysrPerform d cw t else s
    | _ => s)

end Sys2Proof.Machine
end

