-- ==== Sys2Proof/Machine/Mill.lean ====
section
/-!
DEFINITION. The Mill (06 R186-R207): the instructions of group 4, the operand reads of a running operation, its ready
cycle, and the drain of a bank.
-/

namespace Sys2Proof.Machine

/-! ## Shapes (06 R187, R188) -/

/-- Elems(f): elements in 512 bytes (06 R187). -/
def millElems : Fmt → Nat
  | .fp4 => 1024
  | .t6 => 640
  | .bf16 => 256
  | _ => 512

/-- The format of C, where the mode reads one (06 R186). -/
def cFmt : MillC → Option Fmt
  | .none => none
  | .kv f _ | .km f _ | .kn f _ => some f

/-- The sweep depth Ks (06 R187). -/
def sweepDepth (c : MillC) (fA fB : Fmt) : Nat :=
  let k := Nat.min (millElems fA) (millElems fB)
  match c with
  | .kv .e8m0 _ => k
  | .kv f _ | .km f _ => Nat.min k (millElems f)
  | _ => k

/-- Ks of a run. -/
def MillRun.ks (r : MillRun) : Nat := sweepDepth r.c r.fA r.fB
/-- The lane count L of a run. -/
def MillRun.lanes (r : MillRun) : Nat := r.ks / 16

/-- Kc (01 R17): at most the largest power of two not above Ks. -/
def MillRun.kc2 (r : MillRun) : Nat := 2 ^ Nat.min (r.midx.toNat % 16) (Nat.log2 r.ks)

/-- The bytes of a chunk that hold its first `ks` elements (06 R187). -/
def usedBytes (f : Fmt) (ks : Nat) : Nat :=
  match f with
  | .t6 => (ks + 4) / 5 * 4
  | .e8m0 => ks / 32
  | g => ks * fmtBits g / 8

/-- The bit of element i within its chunk (03 R86). -/
def elemBit (f : Fmt) (i : Nat) : Nat := packBit f i

/-- BASE and STRIDE of an MA register, OFFSET and GSTRIDE of an MB register, in bytes (01 R15, R16). -/
def maBase (w : Word) : Nat := (w.extractLsb' 0 15).toNat * 64
def maStride (w : Word) : Nat := (w.extractLsb' 31 15).toNat * 64
def mbOffset (w : Word) : Nat := (w.extractLsb' 0 11).toNat * 64
def mbGstride (w : Word) : Nat := (w.extractLsb' 23 11).toNat * 64

/-! ## Issue -/

/-- A Mill operation of S sweeps latched at issue on tile t (06 R190, R195-R199). The chain's position is the MILL chain's
of the tile in focus. -/
def State.millRun (s : State) (t : Nat) (acc : BitVec 3) (c : MillC) (fA fB : Fmt) (ma mb : BitVec 4) (sweeps : BitVec 3) (m : AccM)
    (null : Bool) (width : Nat) (rows : List (Option Nat)) : MillRun :=
  let own := s.tileAt t
  let lead := s.tl
  let n := sweeps.toNat + 1
  let ch := SMap.get lead.chains 1
  { line := ch.line, slot := ch.slot, issue := s.now, ready := s.now + 16 * n + (if width = 0 then 12 else 14), bank := acc.toNat
    c := c, fA := fA, fB := fB, sweeps := n, ovw := m == .ovw, arrive := m == .arr, null := null
    leader := s.focus.tile, width := width, issued := true, bnd := false, early := none, maReg := ma.toNat
    ma := SMap.get own.ma ma.toNat, mb := SMap.get lead.mb mb.toNat
    mc := (match c with
      | .kv _ r | .km _ r => SMap.get own.ma r.toNat
      | .kn _ r => SMap.get lead.mb r.toNat
      | .none => 0#64)
    midx := lead.midx, rows := rows, a := [], b := [], cc := [], kb := [], kc := [], accIn := [], err := none }

/-- Whether two runs are the same gang's (06 R197). -/
def MillRun.sameGang (r x : MillRun) : Bool := x.leader == r.leader && x.issue == r.issue && x.bank == r.bank && x.width == r.width

/-- The leader issues a gang's operation, of which a member has already begun its own cycle t: what the member has latched and
read by then stays (06 R197). -/
def MillRun.lead (r x : MillRun) : MillRun := { r with ma := x.ma, mc := x.mc, a := x.a, cc := x.cc, accIn := x.accIn }

/-- A run joins those of a tile, or completes the one that the tile has begun before its leader (06 R197). -/
def Tile.addRun (r : MillRun) (t : Tile) : Tile :=
  if t.mills.any (fun x => !x.issued && r.sameGang x) then
    { t with mills := t.mills.map fun x => if !x.issued && r.sameGang x then r.lead x else x }
  else { t with mills := t.mills ++ [r] }

/-- Whether two runs of one tile are the same operation. -/
def MillRun.same (r x : MillRun) : Bool := x.issue == r.issue && x.bank == r.bank && x.leader == r.leader

/-- The tc of an operation in which it has read an uncorrectable word first. -/
def MillRun.errTc (r : MillRun) : Option Nat := r.err.map fun e => 16 * e.1 + e.2

/-- An operation reads an uncorrectable word in its tc i, no later than any other such read of it (06 R207). -/
def MillRun.fails (i : Nat) (r : MillRun) : MillRun := { r with err := some (i / 16, i % 16) }

/-- Whether a read in tc i is the first of an operation that meets an uncorrectable word. -/
def MillRun.firstFail (i : Nat) (r : MillRun) : Bool := r.errTc.all fun k => decide (i < k)

/-- The tile's record of a stop names the first operation that has read an uncorrectable word (06 R207), with the tc of the read
and the whole sweeps completed by then. -/
def Tile.millRecord (r : MillRun) (i : Nat) (t : Tile) : Tile :=
  { t with failed := match t.failed with
      | none => some (8 * r.line + r.slot, i, (i - 12) / 16)
      | f => f }

/-- Operations of a tile read an uncorrectable word in their tc i (06 R207): they fail, and the tile records the first. -/
def Tile.millFail (bad : MillRun → Bool) (i : Nat) (t : Tile) : Tile :=
  let hit := fun (r : MillRun) => bad r && r.firstFail i
  let u : Tile := { t with mills := t.mills.map fun r => if hit r then r.fails i else r }
  match t.mills.find? hit with
  | some r => u.millRecord r i
  | none => u

/-- A run joins those of tile t. Of one that the tile has begun before its leader, what the member's reads have met by then counts
now, unless the operation is nullified: a BOUND condition, and an uncorrectable word (06 R197, R198, R207). -/
def State.joinRun (t : Nat) (r : MillRun) (s : State) : State :=
  let s1 := s.onTileAt t (Tile.addRun r)
  match (s.tileAt t).mills.find? fun x => !x.issued && r.sameGang x with
  | none => s1
  | some x =>
    if r.null then s1
    else
      match x.early with
      | some (i, detail) => ((s1.noteBound t x.bnd).onTileAt t (Tile.millFail r.same i)).tileError t detail
      | none => s1.noteBound t x.bnd

/-- Every row in the one group 0. -/
def allRows : List (Option Nat) := List.replicate 32 (some 0)

/-- MILL (06 R195). -/
def execMill (acc : BitVec 3) (c : MillC) (fA fB : Fmt) (ma mb : BitVec 4) (sweeps : BitVec 3) (m : AccM) (nf : BitVec 4)
    (s : State) : Out :=
  let r := s.millRun s.focus.tile acc c fA fB ma mb sweeps m (s.nullified nf) 0 allRows
  .next (s.onTl fun t => { t with mills := t.mills ++ [r] })

/-- MILLG (06 R196, R197): one operation on each member of the gang; the leader's flag alone nullifies. -/
def execMillg (acc : BitVec 3) (c : MillC) (fA fB : Fmt) (ma mb : BitVec 4) (w : BitVec 2) (sweeps : BitVec 3) (m : AccM)
    (nf : BitVec 4) (s : State) : Out :=
  .next ((List.range (w.toNat + 1)).foldl (fun s i =>
    let t := s.focus.tile + i
    let r := s.millRun t acc c fA fB ma mb sweeps m (s.nullified nf) w.toNat allRows
    s.joinRun t r) s)

/-- The offsets of MILLX as read and clamped (06 R199). -/
def millOffsets (v : BitVec 1024) : List Nat := (List.range 32).map fun l => Nat.min 32 (vLane v l).toNat

/-- The group of a row (06 R199): the lowest that covers it. -/
def rowGroup (o : List Nat) (m : Nat) : Option Nat :=
  (List.range 31).find? fun g => decide ((o[g]?).getD 0 ≤ m) && decide (m < (o[g + 1]?).getD 0)

/-- MILLX (06 R199, R200). -/
def execMillx (acc : BitVec 3) (c : MillC) (fA fB : Fmt) (ma mb : BitVec 4) (off : BitVec 4) (sweeps : BitVec 3) (m : AccM)
    (nf : BitVec 4) (s : State) : Out :=
  let v := s.tl.vr (2032 + off.toNat)
  let o := millOffsets v
  let null := s.nullified nf
  let above := (List.range 32).any fun l => decide (32 < (vLane v l).toNat)
  let falls := (List.range 31).any fun g => decide ((o[g + 1]?).getD 0 < (o[g]?).getD 0)
  let r := s.millRun s.focus.tile acc c fA fB ma mb sweeps m null 0 ((List.range 32).map (rowGroup o))
  .next (
    if !null && s.regsBroken [2032 + off.toNat] then s.tileError s.focus.tile 0x05#8
    else s.onTl fun t => setStat grpErr (!null && falls) (setStat grpEnd (!null && above) { t with mills := t.mills ++ [r] }))

/-- MZERO (06 R203): the bank is zero from issue + 1. -/
def execMzero (acc : BitVec 3) (nf : BitVec 4) (s : State) : Out :=
  .next (if s.nullified nf then s else s.onTl fun t => { t with zeros := t.zeros ++ [(acc.toNat, s.now + 1)] })

/-- MDRAIN (06 R204, R205): a nullified one still takes the drain path. -/
def execMdrain (d : BitVec 11) (bank : BitVec 3) (nf : BitVec 4) (s : State) : Out :=
  .next (s.onTl fun t => { t with drains := t.drains ++
    [{ issue := s.now, d := d.toNat, bank := bank.toNat, null := s.nullified nf, row := none, kept := [] }] })

/-- A register setter (06 R204): the value in lanes 1 and 0 of V[a]. -/
def State.millSet (a : BitVec 11) (nf : BitVec 4) (f : Word → Tile → Tile) (s : State) : State :=
  if s.nullified nf then s
  else if s.regsBroken [a.toNat] then s.tileError s.focus.tile 0x05#8
  else
    let v := s.tl.vr a.toNat
    s.onTl (f (vLane v 1 ++ vLane v 0))

/-- MSETA (06 R204, 01 R15). -/
def execMseta (d : BitVec 4) (a : BitVec 11) (nf : BitVec 4) (s : State) : Out :=
  .next (s.millSet a nf (fun w t => { t with ma := SMap.set t.ma d.toNat (w &&& maMask) }))
/-- MSETB (06 R204, 01 R16). -/
def execMsetb (d : BitVec 4) (a : BitVec 11) (nf : BitVec 4) (s : State) : Out :=
  .next (s.millSet a nf (fun w t => { t with mb := SMap.set t.mb d.toNat (w &&& mbMask) }))
/-- MIDX (06 R204, 01 R17). -/
def execMidx (a : BitVec 11) (nf : BitVec 4) (s : State) : Out :=
  .next (s.millSet a nf (fun w t => { t with midx := w &&& midxMask }))

/-! ## Operand reads (06 R188, R190) -/

/-- Bytes as the value of one read. -/
def read256 (l : List Byte) : BitVec 256 := BitVec.ofNat 256 (ofBytes l)

/-- The number of bytes that tc q reads of a chunk (06 R187, R190). -/
def readLen (f : Fmt) (ks q : Nat) : Nat := Nat.min 32 (usedBytes f ks - 32 * q)

/-- The reads of one tc gathered: bytes by key, and what the reads met. -/
structure Gather where
  got : List (Nat × BitVec 256)
  bound : Bool
  broken : Bool

/-- One read joins those gathered. -/
def Gather.add (g : Gather) (key : Nat) (r : TRead) : Gather :=
  { got := g.got ++ [(key, read256 r.bytes)], bound := g.bound || r.bound, broken := g.broken || r.broken }

/-- The rows that a run computes. -/
def MillRun.covered (r : MillRun) : List Nat := (List.range 32).filter fun m => ((r.rows[m]?).getD none).isSome
/-- The row groups that a run uses. -/
def MillRun.groups (r : MillRun) : List Nat := (r.rows.filterMap id).eraseDups

/-- A reads of tc i (06 R188). -/
def State.readA (s : State) (t : Nat) (r : MillRun) (i : Nat) : Gather :=
  let n := readLen r.fA r.ks (i % 16)
  if n = 0 then { got := [], bound := false, broken := false }
  else r.covered.foldl (fun g m => g.add (i * 32 + m)
    (s.mereRead t (maBase r.ma + m * maStride r.ma + 512 * (i / 16) + 32 * (i % 16)) n true)) { got := [], bound := false, broken := false }

/-- C reads of tc i in KV and KM modes. -/
def State.readC (s : State) (t : Nat) (r : MillRun) (i : Nat) : Gather :=
  let rows := match r.c with | .kv _ _ => [0] | .km _ _ => r.covered | _ => []
  let n := match cFmt r.c with | some f => readLen f r.ks (i % 16) | none => 0
  if n = 0 then { got := [], bound := false, broken := false }
  else rows.foldl (fun g m => g.add (i * 32 + m)
    (s.mereRead t (maBase r.mc + (if rows = [0] then 0 else m * maStride r.mc) + 512 * (i / 16) + 32 * (i % 16)) n true))
    { got := [], bound := false, broken := false }

/-- B reads of tc i from the leader's Loft, by row group (06 R188, R200). -/
def State.readB (s : State) (t : Nat) (r : MillRun) (i : Nat) : Gather :=
  let n := readLen r.fB r.ks (i % 16)
  if n = 0 then { got := [], bound := false, broken := false }
  else r.groups.foldl (fun g grp => (List.range 32).foldl (fun g col => g.add ((grp * 128 + i) * 32 + col)
    (s.loftRead t col (mbOffset r.mb + grp * mbGstride r.mb + 512 * (i / 16) + 32 * (i % 16)) n)) g)
    { got := [], bound := false, broken := false }

/-- One element of a Loft chunk: its pattern and what its read met (06 R190's note). -/
def State.loftElem (s : State) (t col chunk : Nat) (f : Fmt) (i : Nat) : Nat × TRead :=
  let bit := elemBit f i
  let r := s.loftRead t col (chunk + bit / 8) (if fmtBits f = 16 then 2 else 1)
  let r2 := if bit % 8 + fmtBits f ≤ 8 * r.bytes.length then r else s.loftRead t col (chunk + bit / 8) 2
  (ofBytes r2.bytes / 2 ^ (bit % 8) % 2 ^ fmtBits f, r2)

/-- The B and C elements of tc i in KN mode for one column: patterns by lane, and what the reads met (06 R188, R190). -/
def State.readKn (s : State) (t : Nat) (r : MillRun) (f : Fmt) (i col : Nat) : List Nat × List Nat × Bool × Bool :=
  let ks := r.ks
  let kc := r.kc2
  (List.range r.lanes).foldl (fun (x : List Nat × List Nat × Bool × Bool) j =>
    let k := i / 16 * ks + i % 16 * r.lanes + j
    let kb := k / kc
    let b := s.loftElem t col (mbOffset r.mb + 512 * (kb / ks)) r.fB (kb % ks)
    let c := s.loftElem t col (mbOffset r.mc) f (k % kc)
    (x.1 ++ [b.1], x.2.1 ++ [c.1], x.2.2.1 || b.2.bound || c.2.bound, x.2.2.2 || b.2.broken || c.2.broken)) ([], [], false, false)

/-- Gathered reads joined to a map. -/
def joinReads (m : SMap (BitVec 256)) (g : Gather) : SMap (BitVec 256) := g.got.foldl (fun m x => SMap.insert m x.1 x.2) m

/-- Whether the tile begins an operation's issue cycle: once a stop has reached the tile, it begins no cycle after its stop cycle
(06 R207). An operation that it has begun goes on reading, also a gang's that its leader has still to issue (R197), but not one that
the stop has met first at the leader. -/
def Job.millBegins (j : Job) (t : Nat) (r : MillRun) : Bool :=
  let reaches := fun (n : Nat) =>
    match (j.node n).stop with
    | some x => decide (r.issue ≤ x.1)
    | none => true
  reaches t && ((j.node t).stop.isNone || r.issued || reaches r.leader)

/-- Whether a run goes to its ready cycle at a tile: once a stop has reached the tile, only what has issued there by its stop cycle
does (06 R207). -/
def Job.millGoes (j : Job) (t : Nat) (r : MillRun) : Bool := ((j.node t).stop.isNone || r.issued) && j.millBegins t r

/-- The B elements of a gang go from its leader to every member's staging rows (06 R197). An uncorrectable word of the leader's
Loft fails each member, in the member's own tc i, which one never reaches that a stop meets before its issue cycle (R207). -/
def State.shareB (r : MillRun) (g : Gather) (i : Nat) (s : State) : State :=
  (List.range (r.width + 1)).foldl (fun s k =>
    s.onTileAt (r.leader + k) fun t =>
      { t with mills := t.mills.map fun x =>
          if r.sameGang x then
            let y : MillRun := { x with b := joinReads x.b g }
            if g.broken && y.firstFail i then y.fails i else y
          else x }) s

/-- The tile in focus records an operation of a gang that its leader's Loft has failed, once the tile reaches the tc of the
read. -/
def State.millNote (s : State) : State :=
  let t := s.focus.tile
  match s.tl.mills.find? fun r => !r.null && s.job.millGoes t r && r.errTc.any fun i => decide (r.issue + i ≤ s.job.runOn t) with
  | some r => s.onTl (Tile.millRecord r (r.errTc.getD 0))
  | none => s

/-- A run of a tile changed. -/
def Tile.onRun (r : MillRun) (f : MillRun → MillRun) (t : Tile) : Tile :=
  { t with mills := t.mills.map fun y => if r.same y then f y else y }

/-- A member of a gang latches its own MA registers at its own cycle t (06 R197). -/
def State.millLatch (t : Nat) (r : MillRun) (s : State) : State :=
  if r.leader = t then s
  else
    s.onTileAt t fun x => Tile.onRun r (fun y =>
      { y with
        ma := SMap.get x.ma y.maReg
        mc := match y.c with | .kv _ m | .km _ m => SMap.get x.ma m.toNat | _ => y.mc }) x

/-- Whether an element of a bank's row is uncorrectable (08 R261). -/
def State.bankBroken (s : State) (t bank m : Nat) : Bool :=
  (List.range 32).any fun n => s.pt.poison.contains (poisonBank t bank (32 * m + n))

/-- Stage 2 of sweep 0 reads its incoming accumulator in tc t + 16 (06 R190). An uncorrectable element fails the operation
(R207; log 38). -/
def State.millIncoming (t : Nat) (r : MillRun) (s : State) : State :=
  if r.ovw then s
  else if r.covered.any (fun m => s.bankBroken t r.bank m) then (s.onTileAt t (Tile.millFail r.same 0)).tileError t 0x04#8
  else
    s.onTileAt t fun x => Tile.onRun r (fun y =>
      { y with accIn := r.covered.foldl (fun a m => SMap.set a m (SMap.get x.acc (r.bank * 32 + m))) [] }) x

/-- What reads of an operation in its tc i have met on tile t: BOUND (06 R198), and an uncorrectable word, which fails it (R207).
With a gang operation that its leader has not issued yet, both are kept till then. -/
def State.millMet (t i : Nat) (r : MillRun) (bound broken : Bool) (detail : BitVec 8) (s : State) : State :=
  if r.issued then
    let u := s.noteBound t bound
    if broken then (u.onTileAt t (Tile.millFail r.same i)).tileError t detail else u
  else
    s.onTileAt t (Tile.onRun r fun y =>
      { y with bnd := y.bnd || bound, early := if broken && y.early.isNone then some (i, detail) else y.early })

/-- The operand reads of one running operation in its tc i (06 R190), on tile t. -/
def State.millOperands (t i : Nat) (r : MillRun) (s : State) : State :=
  let a := s.readA t r i
  let c := s.readC t r i
  let put := fun (f : MillRun → MillRun) (s : State) => s.onTileAt t (Tile.onRun r f)
  let s1 := put (fun y => { y with a := joinReads y.a a, cc := joinReads y.cc c }) s
  let s2 :=
    match r.c with
    | .kn f _ =>
      (List.range 32).foldl (fun (s : State) col =>
        let x := s.readKn t r f i col
        (put (fun y => { y with kb := SMap.insert y.kb (i * 32 + col) x.1, kc := SMap.insert y.kc (i * 32 + col) x.2.1 }) s).millMet t i r
          x.2.2.1 x.2.2.2 0x02#8) s1
    | _ =>
      if r.leader = t then
        let b := s.readB t r i
        let s' := (s1.shareB r b i).noteBound t b.bound
        if b.broken then s'.tileError t 0x02#8 else s'
      else s1
  s2.millMet t i r (a.bound || c.bound) (a.broken || c.broken) 0x01#8

/-- What one running operation reads in the present tc of tile t (06 R190): a member's MA registers in its first, operands in
its first 16·S, the bank in its seventeenth. -/
def State.millReads (t : Nat) (r : MillRun) (s : State) : State :=
  let now := s.job.runOn t
  let i := now - r.issue
  if r.null || decide (now < r.issue) || !s.job.millBegins t r then s
  else
    let s1 := if i = 0 then s.millLatch t r else s
    let r1 := ((s1.tileAt t).mills.find? r.same).getD r
    let s2 := if i < 16 * r.sweeps then s1.millOperands t i r1 else s1
    if i = 16 then s2.millIncoming t r1 else s2

/-- The MILLG that a MILL chain will issue at cycle `at_`, with its place in the chain: what stands before it issues first (02 R54-R56).
`fuel` counts those: a member is at most three tc ahead of its leader, so there are at most three. -/
def State.gangAhead (s : State) (at_ : Nat) : Nat → Chain → Option (Chain × Instr)
  | 0, _ => none
  | fuel + 1, c =>
    if !c.live || decide (at_ < c.due) then none
    else
      match (s.pt.line c.line).map fun l => decodeOn 1 (l.word c.slot) with
      | some (.ok i) =>
        if c.due = at_ then some (c, i.instr)
        else
          let d : Chain :=
            match i.instr with
            | .loopset k rld cnt => if k = 0#1 then { c with lc0 := lcOf rld cnt } else { c with lc1 := lcOf rld cnt }
            | .twait n => { c with due := c.due + n.toNat }
            | _ => c
          State.gangAhead s at_ fuel (chainAdvance s.pt.line 0 d)
      | _ => none

/-- A gang operation whose cycle t the tile begins before its leader, which a hold has reached sooner: the member latches and reads
its own operands in its own tc all the same (06 R197). -/
def State.earlyGang (t : Nat) (s : State) : State :=
  let now := s.job.scyc t
  let n := s.job.node t
  ([1, 2, 3].filter fun k => decide (k ≤ s.pt.tileX t)).foldl (fun s k =>
    let u := t - k
    if n.paused || n.stop.isSome || decide (now ≤ s.job.scyc u) || (s.tileAt t).mills.any (fun x => x.leader == u && x.issue == now) then s
    else
      match s.gangAhead now 4 (SMap.get (s.tileAt u).chains 1) with
      | some (c, .millg acc x fA fB ma mb w sweeps m _) =>
        if w.toNat < k then s
        else
          let r := ({ s with focus := { s.focus with tile := u } } : State).millRun t acc x fA fB ma mb sweeps m false w.toNat allRows
          s.onTileAt t fun y => { y with mills := y.mills ++
            [{ r with line := c.line, slot := c.slot, issue := now, ready := now + 16 * r.sweeps + 14, issued := false }] }
      | _ => s) s

/-- MILL_SWEEP_READ (06 R190): on the tile in focus, every running operation reads its operand bytes of this tc. -/
def execMillSweepRead (s : State) : Out :=
  let t := s.earlyGang s.focus.tile
  .next (t.tl.mills.foldl (fun s r => s.millReads s.focus.tile r) t).millNote

/-! ## Results (06 R186, R195, R202) -/

/-- Element i of the chunk of sweep sw, from the bytes gathered. -/
def gathered (m : SMap (BitVec 256)) (group sw row : Nat) (f : Fmt) (i : Nat) : Num :=
  let bit := elemBit f i
  let v := SMap.get m ((group * 128 + 16 * sw + bit / 256) * 32 + row)
  decodeNum f (v.toNat / 2 ^ (bit % 256) % 2 ^ fmtBits f)

/-- 2^0. -/
def one : Num := .fin { m := 1, e := 0 }

/-- The exact product of cell (m, n) at position k of sweep sw (06 R186, R188). -/
def MillRun.product (r : MillRun) (group m n sw k : Nat) : Num :=
  let a := gathered r.a 0 sw m r.fA k
  let lane := k % r.lanes
  let tc := (16 * sw + k / r.lanes) * 32 + n
  match r.c with
  | .none => a.mul (gathered r.b group sw n r.fB k)
  | .kv .e8m0 _ =>
    (a.mul (gathered r.b group sw n r.fB k)).mul (decodeNum .e8m0 ((SMap.get r.cc (16 * sw * 32)).toNat / 2 ^ (8 * (k / 32)) % 256))
  | .kv f _ => (a.mul (gathered r.b group sw n r.fB k)).mul (gathered r.cc 0 sw 0 f k)
  | .km f _ => (a.mul (gathered r.b group sw n r.fB k)).mul (gathered r.cc 0 sw m f k)
  | .kn f _ =>
    (a.mul (decodeNum r.fB (((SMap.get r.kb tc)[lane]?).getD 0))).mul (decodeNum f (((SMap.get r.kc tc)[lane]?).getD 0))

/-- One cell's result over every sweep (06 R195). -/
def MillRun.cell (r : MillRun) (group m n : Nat) (old : BitVec 32) : BitVec 32 :=
  let sweep := fun (x : Option (BitVec 32)) (sw : Nat) =>
    some (sweepCell ((List.range 16).map fun q => (List.range r.lanes).map fun j => r.product group m n sw (q * r.lanes + j)) x)
  ((List.range r.sweeps).foldl sweep (if r.ovw then none else some old)).getD 0#32

/-- The bank of a tile after a run: covered rows alone change (06 R199). -/
def MillRun.write (r : MillRun) (t : Tile) : Tile :=
  { t with acc := r.covered.foldl (fun acc m =>
      let key := r.bank * 32 + m
      let old := SMap.get r.accIn m
      let g := ((r.rows[m]?).getD none).getD 0
      SMap.set acc key (buildV fun n => r.cell g m n (vLane old n))) t.acc }

/-- The rows of a bank that a write covers lose their poison. -/
def State.bankClean (t bank : Nat) (rows : List Nat) (s : State) : State :=
  s.onPt fun p => { p with poison := p.poison.filter fun k =>
    !(rows.any fun m => (List.range 32).any fun n => k == poisonBank t bank (32 * m + n)) }

/-- The rows of a bank as they stand, with whether each is uncorrectable, are kept for the drains of it under way, before a write
of the bank that runs ahead of the tile's stopped clock (06 R192, R207; 12 R357): what a drain has still to read is what stood
there before the writes that issued after it. -/
def State.keepRows (t bank : Nat) (s : State) : State :=
  if (s.job.node t).stop.isNone then s
  else
    let rows := (List.range 32).map fun m => (SMap.get (s.tileAt t).acc (32 * bank + m), s.bankBroken t bank m)
    s.onTileAt t fun x => { x with drains := x.drains.map fun d => if d.bank = bank ∧ d.kept = [] then { d with kept := rows } else d }

/-- A run reaches its ready cycle on tile t (06 R190, R202, R207). -/
def State.millReady (t : Nat) (r : MillRun) (s : State) : State :=
  let t1 :=
    if r.null || r.err.isSome then s
    else ((s.keepRows t r.bank).onTileAt t fun x => Tile.bump 3 r.sweeps { (r.write x) with sweepsDone := x.sweepsDone + r.sweeps }).bankClean t r.bank r.covered
  if r.arrive && r.err.isNone then
    match t1.job.millGroup r.leader with
    | some g => t1.onJob fun j => j.onGroup g fun x => x.arriveMill (2 * j.tb) r.leader
    | none => t1
  else t1

/-- MILL_READY_CYCLE (06 R190, R203): on the tile in focus, every operation whose ready cycle this tc is writes its bank and
makes its arrival, and every MZERO clears its bank. One that has issued in the stop cycle of a stop counts as a Mill operation, which
does so after the stop (DESIGN CHOICE, log 117). -/
def execMillReadyCycle (s : State) : Out :=
  let now := s.job.runOn s.focus.tile
  let t := s.focus.tile
  .next (
    let z := s.tl.zeros.filter fun x => decide (x.2 ≤ now)
    let m := s.tl.mills.filter fun r => decide (r.ready ≤ now) && r.issued && s.job.millGoes t r
    let s1 := s.onTl fun x => { x with
      zeros := x.zeros.filter fun y => !decide (y.2 ≤ now), mills := x.mills.filter fun r => !m.contains r }
    let s2 := z.foldl (fun s y => ((s.keepRows t y.1).onTl fun x =>
      { x with acc := (List.range 32).foldl (fun a i => SMap.erase a (32 * y.1 + i)) x.acc }).bankClean t y.1 (List.range 32)) s1
    m.foldl (fun s r => s.millReady t r) s2)

/-! ## The drain (06 R204, R205) -/

/-- The row read in the last tc is written, unless a VEC or PREAD write reaches its register in this tc (06 R205, 07
R209). Beside one that writes a single lane, it fills the others (log 103). -/
def State.drainWrite (d : Drain) (s : State) : State :=
  match d.row with
  | some (r, v) =>
    let met := s.tl.vwrites.filter fun w => decide (w.due ≤ s.now) && w.reg == d.d + r
    let t := if met.isEmpty then s else s.onTl (setStat wConf true)
    if met.all fun w => w.lane.isSome then t.putReg (d.d + r) v else t
  | none => s

/-- Row r of a drain's bank, as the bank holds it or as it was kept for the drain. -/
def Drain.bankRow (d : Drain) (t : Tile) (r : Nat) : BitVec 1024 :=
  match d.kept[r]? with
  | some x => x.1
  | none => SMap.get t.acc (32 * d.bank + r)

/-- The row that a drain reads in this tc. -/
def Drain.next (d : Drain) (now : Nat) (t : Tile) : Drain :=
  let r := now - d.issue
  { d with row := if !d.null && decide (d.issue ≤ now) && decide (r < 32) then some (r, d.bankRow t r) else none }

/-- Whether row r of a drain's bank is uncorrectable. -/
def State.drainBroken (s : State) (d : Drain) (r : Nat) : Bool :=
  match d.kept[r]? with
  | some x => x.2
  | none => s.bankBroken s.focus.tile d.bank r

/-- MDRAIN_ROW_WRITE (06 R204, R205): on the tile in focus, each running drain writes the row it read in the last tc and
reads the next. -/
def execMdrainRowWrite (s : State) : Out :=
  let now := s.now
  let l := s.tl.drains
  .next (
    let s1 := l.foldl (fun s d => s.drainWrite d) s
    let s2 := s1.onTl fun t => { t with drains := (l.map fun d => d.next now t).filter fun d => decide (now < d.issue + 32) || d.row.isSome }
    if l.any (fun d => !d.null && decide (now - d.issue < 32) && s.drainBroken d (now - d.issue)) then
      s2.tileError s.focus.tile 0x04#8
    else s2)

end Sys2Proof.Machine
end

