-- ==== Sys2Proof/Machine/Verify.lean ====
section
/-!
DEFINITION. The load-time verifier (02 R47-R57, R72; 01 R19, R23, R37, R38; 06 R191, R192, R196, R201; 07 R209, R227-R238; 08
R256, R269; 10 R306, R307): the image read line by line, the offences of every status in the order of 02 R72, and what a
launch takes from an image that passes.
-/

namespace Sys2Proof.Machine

/-! ## Offences (02 R72) -/

/-- An offence: its status, its place, and, for BADENC, the cause of 02 R69. -/
structure Offence where
  status : Nat
  tile : Nat
  line : Nat
  slot : Nat
  cause : Nat
  deriving DecidableEq, Repr, Inhabited

/-- The place of offences that carry no tile or core. -/
def noTile : Nat := 0xFFFF

/-- Whether offence a is reported before b of the same status: lower tile or core first, then line, then slot. -/
def Offence.before (a b : Offence) : Bool :=
  decide (a.tile < b.tile) || a.tile == b.tile && (decide (a.line < b.line) || a.line == b.line && decide (a.slot < b.slot))

/-- The first offence of those of one status. -/
def firstOffence (l : List Offence) : Option Offence :=
  l.foldl (fun (m : Option Offence) x =>
    match m with
    | none => some x
    | some y => if x.before y then some x else m) none

/-- The first offence of the first status that has one. -/
def firstStatus (l : List Offence) : Option Offence :=
  (List.range 10).foldl (fun (m : Option Offence) k =>
    match m with
    | some x => some x
    | none => firstOffence (l.filter fun x => x.status == stBadImage + k)) none

/-! ## The image (02 R47-R50) -/

/-- An n-byte little-endian field of a line. -/
def Line.field (l : Line) (a n : Nat) : Nat := (l.extractLsb' (8 * a) (8 * n)).toNat

/-- The image header (02 R47). -/
structure ImgHead where
  nlines : Nat
  chtab : Nat
  nchain : Nat
  code : Nat
  ncode : Nat
  data : Nat
  ndata : Nat
  deriving DecidableEq, Repr, Inhabited

/-- The header of line 0; none when it breaks 02 R47. A count beyond its stated range breaks it too. -/
def imgHead (l : Line) : Option ImgHead :=
  let h : ImgHead :=
    { nlines := l.field 8 4, chtab := l.field 12 4, nchain := l.field 16 4, code := l.field 20 4, ncode := l.field 24 4
      data := l.field 28 4, ndata := l.field 32 4 }
  let nch := (h.nchain + 3) / 4
  let inside := fun (a n : Nat) => n == 0 || (decide (1 ≤ a) && decide (a + n ≤ h.nlines))
  let apart := fun (a n b m : Nat) => n == 0 || m == 0 || decide (a + n ≤ b) || decide (b + m ≤ a)
  if l.field 0 4 = 0x4B34494D ∧ l.field 4 2 = 1 ∧ l.field 6 2 = 0 ∧ l.field 36 28 = 0 ∧ h.nlines ≤ 2 ^ 26
      ∧ 1 ≤ h.nchain ∧ h.nchain ≤ 65536 ∧ inside h.chtab nch = true ∧ inside h.code h.ncode = true
      ∧ inside h.data h.ndata = true ∧ apart h.chtab nch h.code h.ncode = true ∧ apart h.chtab nch h.data h.ndata = true
      ∧ apart h.code h.ncode h.data h.ndata = true then some h
  else none

/-- A data block: its header line, kind, ids, address, length, and its payload (02 R49). -/
structure Block where
  line : Nat
  kind : Nat
  frm : Nat
  toId : Nat
  addr : Nat
  len : Nat
  bytes : List Byte
  deriving DecidableEq, Repr, Inhabited

/-- A record of a kind 6 block: its line, TYPE, INDEX and its bytes (10 R307). -/
structure TableRec where
  line : Nat
  type : Nat
  index : Nat
  bytes : List Byte
  deriving DecidableEq, Repr, Inhabited

/-- The bytes of a line. -/
def Line.bytes (l : Line) : List Byte := (List.range 64).map fun i => l.extractLsb' (8 * i) 8

/-- A number in bytes a to a + n − 1 of a list. -/
def leOf (l : List Byte) (a n : Nat) : Nat := ofBytes ((l.drop a).take n)

/-- The data blocks in image order, up to one that runs past the data range, and the lines of those that break the
layout of 02 R49. R49 says that payload bytes beyond LEN are zero, and no rule refuses an image in which they are not: the model
leaves them unread (DESIGN CHOICE, log 51). -/
def blocksFrom (img : Nat → Line) (last : Nat) : Nat → Nat → List Block × List Nat
  | 0, _ => ([], [])
  | fuel + 1, n =>
    if last ≤ n then ([], [])
    else
      let h := img n
      let k := h.field 0 4
      let len := h.field 16 8
      let lines := (len + 63) / 64
      let zeroIds := k == 3 || k == 6 || k == 7
      let bad := decide (7 < k) || h.field 24 40 != 0 || (zeroIds && h.field 4 4 != 0) || (decide (4 ≤ k) && h.field 8 8 != 0)
      if last < n + 1 + lines then ([], [n])
      else
        let b : Block :=
          { line := n, kind := k, frm := h.field 4 2, toId := h.field 6 2, addr := h.field 8 8, len := len
            bytes := ((List.range lines).flatMap fun i => (img (n + 1 + i)).bytes).take len }
        let r := blocksFrom img last fuel (n + 1 + lines)
        (b :: r.1, if bad then n :: r.2 else r.2)

/-- RLEN of a well-formed record of a TYPE whose body is `l` (10 R307). -/
def recLen (type : Nat) (l : List Byte) : Nat :=
  let up := fun (n : Nat) => (n + 7) / 8 * 8
  match type with
  | 1 => 32
  | 2 => up (16 + 2 * (leOf l 8 2 + leOf l 10 2))
  | 3 => up (16 + 2 * leOf l 8 2)
  | _ => 80

/-- The largest INDEX of a TYPE (10 R307). -/
def recIndexMax (type : Nat) : Nat :=
  match type with
  | 2 => 63
  | 3 => 1023
  | _ => 255

/-- The records of a kind 6 payload of `full` bytes from byte a, and the line of the first that is malformed (10 R307). Where only
the first bytes of the payload can be read, `l` holds those, and the records end with the last that lies in them. -/
def recordsFrom (first full : Nat) (l : List Byte) : Nat → Nat → List TableRec × List Nat
  | 0, _ => ([], [])
  | fuel + 1, a =>
    if l.length ≤ a then ([], [])
    else
      let r := l.drop a
      let t := leOf r 0 1
      let n := leOf r 4 4
      let line := first + a / 64
      if l.length < full ∧ r.length < 12 then ([], [])
      else if full < a + 8 ∨ t = 0 ∨ 4 < t ∨ n ≠ recLen t r ∨ full < a + n ∨ recIndexMax t < leOf r 2 2 then ([], [line])
      else if r.length < n then ([], [])
      else
        let x := recordsFrom first full l fuel (a + n)
        ({ line := line, type := t, index := leOf r 2 2, bytes := r.take n } :: x.1, x.2)

/-- The bytes of a block's payload that lie before line u. -/
def Block.before (b : Block) (u : Nat) : List Byte := b.bytes.take (64 * (u - b.line - 1))

/-- The records of a block, as far as they lie before line u. -/
def Block.records (u : Nat) (b : Block) : List TableRec × List Nat :=
  recordsFrom (b.line + 1) b.bytes.length (b.before u) (b.bytes.length + 1) 0

/-- A kind 4 or 5 record: its line, the ids it reaches, its control word and its value (02 R49). -/
structure WordRec where
  line : Nat
  isCore : Bool
  frm : Nat
  toId : Nat
  cw : Nat
  val : Word
  deriving DecidableEq, Repr, Inhabited

/-- The records of a kind 4 or 5 block. -/
def Block.words (b : Block) : List WordRec :=
  (List.range (b.bytes.length / 16)).map fun i =>
    { line := b.line + 1 + i / 4, isCore := b.kind == 5, frm := b.frm, toId := b.toId, cw := leOf b.bytes (16 * i) 2
      val := BitVec.ofNat 64 (leOf b.bytes (16 * i + 8) 8) }

/-- The lines of a kind 4 or 5 block that break its layout (02 R49; log 51): a length that is no whole number of records, or
a record whose bytes 2-7 are not zero. -/
def Block.badWords (b : Block) : List Nat :=
  (if b.bytes.length % 16 ≠ 0 then [b.line] else [])
    ++ ((List.range (b.bytes.length / 16)).filter fun i => leOf b.bytes (16 * i + 2) 6 != 0).map fun i => b.line + 1 + i / 4

/-- Whether a record may name its word (02 R49, R50). -/
def WordRec.admitted (r : WordRec) : Bool :=
  cwAccess true r.cw == some .rw
    && (if r.isCore then (decide (0x700 ≤ r.cw) && decide (r.cw ≤ 0x70F)) || decide (r.cw ≤ 0x020) else isTileWord r.cw)

/-- The value that records leave in a control word of a tile or core, with the line of the record that wrote it last. -/
def wordOf (l : List WordRec) (isCore : Bool) (id cw : Nat) : Word × Nat :=
  l.foldl (fun x r => if r.isCore == isCore && r.cw == cw && decide (r.frm ≤ id) && decide (id ≤ r.toId) then (r.val, r.line) else x)
    (0#64, 0)

/-- A step group of the launch tables. -/
def TableRec.tiles (r : TableRec) : List Nat := (List.range (leOf r.bytes 8 2)).map fun i => leOf r.bytes (16 + 2 * i) 2
def TableRec.ctxs (r : TableRec) : List Nat :=
  (List.range (leOf r.bytes 10 2)).map fun i => leOf r.bytes (16 + 2 * (leOf r.bytes 8 2 + i)) 2
def TableRec.gangs (r : TableRec) : Nat := leOf r.bytes 12 2
/-- The owners of a slots record. -/
def TableRec.owners (r : TableRec) : List Nat := (List.range (leOf r.bytes 8 2)).map fun i => leOf r.bytes (16 + 2 * i) 2

/-- The image as taken apart for the checks. -/
structure Image where
  head : ImgHead
  chains : List ChainEntry
  blocks : List Block
  words : List WordRec
  recs : List TableRec
  desc : Desc
  deriving DecidableEq, Repr, Inhabited

/-- The line of a chain entry. -/
def ImgHead.chainLine (h : ImgHead) (i : Nat) : Nat := h.chtab + i / 4

/-- Chain-table entry i (02 R48), with its bits 27:26. -/
def chainEntry (img : Nat → Line) (h : ImgHead) (i : Nat) : ChainEntry × Nat :=
  let l := img (h.chainLine i)
  let w := l.field (16 * (i % 4)) 4
  ({ eng := w / 2 ^ 28, first := w % 2 ^ 26, lc0 := BitVec.ofNat 32 (l.field (16 * (i % 4) + 4) 4)
     lc1 := BitVec.ofNat 32 (l.field (16 * (i % 4) + 8) 4), frm := l.field (16 * (i % 4) + 12) 2, toId := l.field (16 * (i % 4) + 14) 2 },
    w / 2 ^ 26 % 4)

/-- The launch descriptor of a kind 7 payload (10 R306). -/
def descOf (l : List Byte) : Desc :=
  { det := leOf l 0 1 % 2 == 1, ratio := BitVec.ofNat 2 (leOf l 1 1), prio := BitVec.ofNat 2 (leOf l 2 1)
    seed := BitVec.ofNat 64 (leOf l 8 8), arg := BitVec.ofNat 64 (leOf l 16 8) }

/-- Whether the descriptor's reserved fields are zero. -/
def descOk (l : List Byte) : Bool :=
  decide (leOf l 0 1 < 2) && decide (leOf l 1 1 < 4) && decide (leOf l 2 1 < 4) && leOf l 3 5 == 0 && leOf l 24 8 == 0

/-- The image taken apart, with the lines that break its own layout, as far as they are known from the lines before line u, the
first that cannot be read. `read` tells which lines can: that no block of kind 7 is there, one that runs past the data range
included, is known when every block header can. -/
def parseImage (img : Nat → Line) (read : Nat → Bool) (h : ImgHead) (u : Nat) : Image × List Nat :=
  let ch := (List.range h.nchain).map (chainEntry img h)
  let bl := blocksFrom img (h.data + h.ndata) (h.ndata + 1) h.data
  let recs := (bl.1.filter fun b => b.kind == 6).map (Block.records u)
  let seven := bl.1.filter fun b => b.kind == 7
  let payload := (seven.head?.map Block.bytes).getD []
  ({ head := h, chains := ch.map Prod.fst, blocks := bl.1
     words := (bl.1.filter fun b => b.kind == 4 || b.kind == 5).flatMap Block.words
     recs := recs.flatMap Prod.fst, desc := descOf payload },
    ((List.range h.nchain).filter fun i => ((ch[i]?).map Prod.snd).getD 0 != 0).map h.chainLine
      ++ (if h.nchain % 4 ≠ 0 ∧ (img (h.chainLine h.nchain)).field (16 * (h.nchain % 4)) (64 - 16 * (h.nchain % 4)) ≠ 0 then
            [h.chainLine h.nchain] else [])
      ++ ((bl.1.filter fun b => b.kind == 4 || b.kind == 5).flatMap Block.badWords)
      ++ bl.2 ++ recs.flatMap Prod.snd
      ++ (match seven with
          | [] =>
            if (bl.1.all fun b => read b.line) && bl.2.all fun n => read n && (img n).field 0 4 != 7 then [0] else []
          | b :: rest => (if b.len != 32 then [b.line] else if descOk b.bytes then [] else [b.line + 1]) ++ rest.map Block.line)
      |>.filter fun n => decide (n < u))

/-! ## BADIMAGE and BADCHAIN -/

/-- What the verifier needs to know of the partition and the placement. -/
structure Setting where
  part : Part
  place : Place
  maps : Nat → Bool

/-- Whether a byte range lies in a share given in 64 KiB units. -/
def inUnits (a n base len : Nat) : Bool := n == 0 || (decide (base * 65536 ≤ a) && decide (a + n ≤ (base + len) * 65536))

/-- Whether a block of kind 0 to 3 stays within the launch's shares and pages (02 R49, R50). -/
def Block.fits (b : Block) (x : Setting) : Bool :=
  match b.kind with
  | 0 => inUnits b.addr b.len x.place.mbase x.place.mlen
  | 1 =>
    b.len == 0 || (List.range ((b.addr % 65536 + b.len + 65535) / 65536)).all fun i =>
      let a := b.addr / 65536 * 65536 + 65536 * i
      decide (a < 2 ^ 22) && inUnits (a % 2 ^ 17) 1 x.place.fbase x.place.flen
  | 2 => inUnits b.addr b.len x.place.lbase x.place.llen
  | 3 =>
    b.len == 0 || (decide (b.addr + b.len ≤ 2 ^ 56)
      && (List.range ((b.addr % 65536 + b.len + 65535) / 65536)).all fun i => x.maps (b.addr / 65536 * 65536 + 65536 * i))
  | _ => true

/-- Whether a block's ids lie in the partition. A block that names an id outside it is refused as BADIMAGE. One whose FROM is above
its TO names no id: no rule refuses it, and it is written nowhere (DESIGN CHOICE, log 51). -/
def Block.idsOk (b : Block) (p : Part) : Bool :=
  match b.kind with
  | 0 | 1 | 4 => decide (b.toId < p.tileCount)
  | 2 | 5 => decide (b.toId < p.coreCount)
  | _ => true

/-- Whether tile t has a chain of engine e. -/
def Image.chainOf (m : Image) (t e : Nat) : Option ChainEntry :=
  m.chains.find? fun c => c.eng == e && decide (c.frm ≤ t) && decide (t ≤ c.toId)
/-- Whether the image names tile t (02 R48). -/
def Image.names (m : Image) (t : Nat) : Bool := m.chains.any fun c => c.eng != 0 && decide (c.frm ≤ t) && decide (t ≤ c.toId)
/-- The group records of the launch tables. -/
def Image.group (m : Image) (g : Nat) : Option TableRec := m.recs.find? fun r => r.type == 2 && r.index == g
/-- Whether a group is used. -/
def Image.groupUsed (m : Image) (g : Nat) : Bool :=
  match m.group g with
  | some r => decide (0 < r.tiles.length + r.ctxs.length + r.gangs)
  | none => false

/-- Whether a launch-table record breaks 10 R307, given those before it, and, where it could be read, the chain table. -/
def recBad (m : Image) (p : Part) (chains : Bool) (before : List TableRec) (r : TableRec) : Bool :=
  let twin := before.any fun q => q.type == r.type && q.index == r.index
    && (r.type != 4 || (decide (leOf q.bytes 8 2 ≤ leOf r.bytes 10 2) && decide (leOf r.bytes 8 2 ≤ leOf q.bytes 10 2)))
  twin ||
    match r.type with
    | 2 =>
      let ts := r.tiles
      let cs := r.ctxs
      decide (4095 < ts.length + cs.length + r.gangs) || ts.any (fun t => decide (p.tileCount ≤ t))
        || cs.any (fun c => decide (11 * p.coreCount ≤ c)) || ts.eraseDups.length != ts.length || cs.eraseDups.length != cs.length
        || chains && ts.any fun t => (m.chainOf t 4).isNone
    | 4 => decide (leOf r.bytes 10 2 < leOf r.bytes 8 2) || decide (p.hamletCount ≤ leOf r.bytes 10 2)
    | _ => false

/-- A property of each entry of a list, given those before it. -/
def withBefore {α : Type} (f : List α → α → Bool) : List α → List α → List α
  | _, [] => []
  | b, x :: r => if f b x then x :: withBefore f (b ++ [x]) r else withBefore f (b ++ [x]) r

/-- The BADIMAGE offences of an image whose header stands (02 R50, 10 R306, R307), as far as they are known from the lines before
line u, the first that cannot be read. -/
def badImage (x : Setting) (m : Image) (own : List Nat) (u : Nat) : List Offence :=
  let chains := decide (m.head.chtab + (m.head.nchain + 3) / 4 ≤ u) || decide (u < m.head.chtab)
  let lines := own
    ++ (m.blocks.filter fun b => !(b.fits x && b.idsOk x.part)).map Block.line
    ++ (m.words.filter fun r => !r.admitted).map WordRec.line
    ++ (withBefore (recBad m x.part chains) [] m.recs).map TableRec.line
  (lines.filter fun n => decide (n < u)).map fun n => { status := stBadImage, tile := noTile, line := n, slot := 0, cause := 0 }

/-- Whether an entry of the chain table breaks 02 R51, given those before it. -/
def entryBad (m : Image) (p : Part) (before : List ChainEntry) (c : ChainEntry) : Bool :=
  decide (4 < c.eng) || decide (c.first < m.head.code) || decide (m.head.code + m.head.ncode ≤ c.first) || decide (c.toId < c.frm)
    || decide ((if c.eng = 0 then p.coreCount else p.tileCount) ≤ c.toId)
    || (c.eng == 0 && (c.lc0 != 0#32 || c.lc1 != 0#32))
    || (before.any fun d => d.eng == c.eng && decide (d.frm ≤ c.toId) && decide (c.frm ≤ d.toId))
    || ((c.eng == 1 || c.eng == 2 || c.eng == 3)
        && (List.range (c.toId + 1 - c.frm)).any fun i => (m.chainOf (c.frm + i) 4).isNone)

/-- The entries of the chain table that break 02 R51, by number. -/
def badEntries (m : Image) (p : Part) : List Nat :=
  (withBefore (fun b (x : ChainEntry × Nat) => entryBad m p (b.map Prod.fst) x.1) [] m.chains.zipIdx).map Prod.snd

/-! ## A chain's schedule (02 R54-R57, 01 R19) -/

/-- One issue of a timed chain. -/
structure Ev where
  at_ : Nat
  line : Nat
  slot : Nat
  instr : Option Instr
  deriving DecidableEq, Repr

/-- A chain as walked: its issues, last first, its distinct lines, its offences, and whether it has passed 2^48 tc. -/
structure Walked where
  evs : List Ev
  lines : List Nat
  offs : List Offence
  past : Bool
  deriving DecidableEq, Repr

/-- An offence against the schedule; the first beyond 2^48 tc alone is one (01 R19). -/
def Walked.late (tile line slot : Nat) (w : Walked) : Walked :=
  { w with offs := w.offs ++ [{ status := stBadTime, tile := tile, line := line, slot := slot, cause := 0 }] }

/-- A chain's position on entering a line: the line, the counters, the issue cycle of the last instruction, the gaps and
the wait since, and whether one has issued. -/
structure ChPos where
  line : Nat
  lc0 : BitVec 32
  lc1 : BitVec 32
  prev : Nat
  add : Nat
  some_ : Bool
  deriving DecidableEq, Repr

/-- Whether two positions continue alike for ever (01 R19): a chain's course depends on its line and counters alone. -/
def ChPos.same (a b : ChPos) : Bool := a.line == b.line && a.lc0 == b.lc0 && a.lc1 == b.lc1

/-- The valid slots of a line that issue: up to a TEND on the REEVE. -/
def Line.slots (l : Line) : List Nat := (List.range 7).filter fun i => l.valid.getLsbD i

/-- The latest cycle of a schedule (01 R19). -/
def lastTc : Nat := 2 ^ 48

/-- What an instruction does to the walk past it (02 R56; 07 R237): TWAIT adds to the next issue, LOOPSET loads a counter,
and TEND ends the chain. -/
def walkPast (c : ChPos) : Option Instr → Option ChPos
  | some (.twait n) => some { c with add := n.toNat }
  | some (.loopset k rld cnt) => some (if k = 0#1 then { c with lc0 := lcOf rld cnt } else { c with lc1 := lcOf rld cnt })
  | some .tend => none
  | _ => some c

/-- The issues of a line's slots (02 R56, R57): the position after them, the chain, and whether a TEND ended it. Past 2^48 tc the
walk goes on for the lines' own sake, and its issues are not kept: the offence is placed at the first late issue (DESIGN CHOICE, log
66). -/
def walkSlots (eng tile : Nat) (l : Line) : List Nat → ChPos → Walked → ChPos × Walked × Bool
  | [], c, w => (c, w, false)
  | s :: r, c, w =>
    let word := l.word s
    let i := (decodeOn eng word).toOption.map Slot.instr
    let t := c.prev + (wordDly word).toNat + c.add
    let late := decide (lastTc < t)
    let w1 := if late then w else { w with evs := { at_ := t, line := c.line, slot := s, instr := i } :: w.evs }
    let w2 := if c.some_ && t == c.prev || late && !w1.past then w1.late tile c.line s else w1
    let w3 := { w2 with past := w2.past || late }
    let c1 : ChPos := { c with prev := t, add := 0, some_ := true }
    match walkPast c1 i with
    | some c2 => walkSlots eng tile l r c2 w3
    | none => (c1, w3, true)

/-- What a line itself offends against: its engine, its header bits, its words (02 R68, R69, R72). -/
def lineOffences (eng tile n : Nat) (l : Line) : List Offence :=
  (if l.reserved != 0#9 then [{ status := stBadEnc, tile := tile, line := n, slot := 7, cause := 2 }] else [])
    ++ (Line.slots l).filterMap fun s =>
      match decodeOn eng (l.word s) with
      | .ok _ => none
      | .error e => some { status := stBadEnc, tile := tile, line := n, slot := s, cause := e.cause.toNat }

/-- Whether a REEVE line with NK 01 lacks a TEND at its end (02 R55). -/
def tendMissing (eng : Nat) (l : Line) : Bool :=
  eng == 4 && l.nk == 1 &&
    match (Line.slots l).getLast? with
    | some s => (match decodeOn 4 (l.word s) with | .ok x => x.instr != .tend | .error _ => true)
    | none => true

/-- A chain walked from the position on entering a line. A position that recurs (`mark`, kept for a span that doubles)
never ends (01 R19); that offence is of the schedule as a whole, and its LINE is the chain's first (DESIGN CHOICE, log 66). A
counter that runs out on a line whose following line is no code is BADCHAIN at that line, as a NEXT outside the code range is
(DESIGN CHOICE, log 66). For the bound of 01 R19 an end of chain counts the TWAIT and the GAPs behind the last issue (DESIGN CHOICE, log
108). -/
def walkFrom (line : Nat → Option Line) (eng tile first : Nat) : Nat → Nat → Nat → ChPos → ChPos → Walked → Walked
  | 0, _, _, _, _, w => { w with offs := w.offs ++ [{ status := stBadTime, tile := tile, line := first, slot := 7, cause := 0 }] }
  | fuel + 1, left, span, mark, c, w =>
    let off := fun (st n : Nat) (w : Walked) => { w with offs := w.offs ++ [{ status := st, tile := tile, line := n, slot := 7, cause := 0 }] }
    match line c.line with
    | none => off stBadChain c.line w
    | some l =>
      if l.eng ≠ eng then off stBadChain c.line w
      else
        let fresh := !w.lines.contains c.line
        let w1 := if fresh then { w with lines := c.line :: w.lines, offs := w.offs ++ lineOffences eng tile c.line l } else w
        let w2 := if fresh && tendMissing eng l then off stBadTime c.line w1 else w1
        let r := walkSlots eng tile l (Line.slots l) { c with add := c.add + l.gap } w2
        let p := r.1
        if l.nk = 1 then if lastTc < p.prev + p.add && !r.2.1.past then off stBadTime c.line r.2.1 else r.2.1
        else if r.2.2 then (if (line l.next).isNone then off stBadChain c.line r.2.1 else r.2.1)
        else
          let go := fun (q : ChPos) (w : Walked) =>
            if q.same mark then off stBadTime first w
            else
              match left with
              | 0 => walkFrom line eng tile first fuel span (2 * span) q q w
              | k + 1 => walkFrom line eng tile first fuel k span mark q w
          if (line l.next).isNone then off stBadChain c.line r.2.1
          else if l.nk = 0 then go { p with line := l.next } r.2.1
          else
            let s := loopStep (if l.nk = 2 then p.lc0 else p.lc1)
            let q := if l.nk = 2 then { p with lc0 := s.2 } else { p with lc1 := s.2 }
            if s.1 then go { q with line := l.next } r.2.1
            else if (line (c.line + 1)).isNone then off stBadChain c.line r.2.1
            else go { q with line := c.line + 1 } r.2.1

/-- The walk of a chain-table entry, with the offences placed on its lowest tile. -/
def walkEntry (line : Nat → Option Line) (c : ChainEntry) : Walked :=
  let p : ChPos := { line := c.first, lc0 := c.lc0, lc1 := c.lc1, prev := 0, add := 0, some_ := false }
  let w := walkFrom line c.eng c.frm c.first (2 ^ 50) 1 2 { p with line := 2 ^ 30 } p { evs := [], lines := [], offs := [], past := false }
  { w with evs := w.evs.reverse }

/-! ## Spacing within a chain (06 R191; 07 R209, R232) -/

/-- The sweeps of a Mill operation. -/
def millSweeps : Instr → Option Nat
  | .mill _ _ _ _ _ _ n _ _ | .millg _ _ _ _ _ _ _ n _ _ | .millx _ _ _ _ _ _ _ n _ _ => some (n.toNat + 1)
  | _ => none

/-- The registers that a VEC instruction writes, with the tc after issue, and its outgoing link (07 R208). -/
def vecWrites : Instr → List Nat × Nat × Option Dir
  | .vadd ty x | .vsub ty x | .vmin ty x | .vmax ty x => ([x.d.toNat], addLat ty - 1, x.sink)
  | .vmul _ x | .vfma _ x => ([x.d.toNat], 3, x.sink)
  | .vand _ x | .vor _ x | .vxor _ x | .vshl _ x | .vshr _ x | .vsra _ x | .vcmp _ x | .vsel _ x | .vperm x =>
    ([x.d.toNat], 1, x.sink)
  | .vcvt _ _ _ _ x => ([x.d.toNat], 2, x.sink)
  | .vexp2 _ x | .vlog2 _ x | .vrcp _ x | .vrsq _ x => ([x.d.toNat], 7, x.sink)
  | .vred _ _ x | .vscan _ _ _ x => ([x.d.toNat], 5, x.sink)
  | .vthr x | .vcnt x => ([x.d.toNat], 2, x.sink)
  | .vbis x => ([x.d.toNat], 9, x.sink)
  | .vrot _ x | .vbc _ x | .vmov x => ([x.d.toNat], 1, x.sink)
  | .vpack _ d _ _ => ([d.toNat], 2, none)
  | .vunpk f d _ _ => ((List.range (Fmt.packCount f)).map fun j => d.toNat + j, 2, none)
  | .vli _ _ d _ _ => ([d.toNat], 1, none)
  | .vld d _ _ _ => ([d.toNat], 3, none)
  | _ => ([], 0, none)

/-- What the spacing rules carry along a chain: the earliest cycle of the next Mill operation, MDRAIN, VEC instruction and
SSET, and the register writes of the last tc. -/
structure Spacing where
  mill : Nat
  drain : Nat
  vec : Nat
  sset : Nat
  writes : List (Nat × Nat)
  offs : List Offence

/-- One issue of a chain against the spacing rules. -/
def spaceEv (tile : Nat) (x : Spacing) (e : Ev) : Spacing :=
  match e.instr with
  | none => x
  | some i =>
    let v := vecWrites i
    let pairs := v.1.map fun r => (r, e.at_ + v.2.1)
    let isDrain := match i with | .mdrain _ _ _ => true | _ => false
    let fill := match i with | .sset _ _ _ len _ => some (lenOf len) | _ => none
    let late := ((millSweeps i).isSome && decide (e.at_ < x.mill)) || (isDrain && decide (e.at_ < x.drain))
      || decide (e.at_ < x.vec) || (fill.isSome && decide (e.at_ < x.sset)) || pairs.any x.writes.contains
    { mill := match millSweeps i with | some n => e.at_ + 16 * n | none => x.mill
      drain := if isDrain then e.at_ + 32 else x.drain
      vec := match i with
        | .vpack f _ _ _ | .vunpk f _ _ _ => e.at_ + Fmt.packCount f
        | _ => x.vec
      sset := match fill with | some n => e.at_ + 1 + (n - 1) / 2 | none => x.sset
      writes := (x.writes.filter fun w => decide (e.at_ ≤ w.2)) ++ pairs
      offs := if late then x.offs ++ [{ status := stBadTime, tile := tile, line := e.line, slot := e.slot, cause := 0 }] else x.offs }

/-- The spacing offences of a chain. -/
def badSpacing (tile : Nat) (evs : List Ev) : List Offence :=
  (evs.foldl (spaceEv tile) { mill := 0, drain := 0, vec := 0, sset := 0, writes := [], offs := [] }).offs

/-! ## The REEVE chain (01 R23; 07 R235, R238) -/

/-- What the checks of a REEVE chain carry along it: the open windows with their ends, the policies left by WINDOWs with
their places, the steps with their t + D, and the offences. -/
structure ReeveRun where
  open_ : List (Nat × Nat)
  pol : List (Nat × Bool × Nat × Nat)
  steps : List (Nat × Nat)
  offs : List Offence

/-- One issue of a REEVE chain. A BADWIN under a policy that an earlier WINDOW has left is placed at that WINDOW, since no record has
written the offending word last (DESIGN CHOICE, log 66). -/
def reeveEv (m : Image) (det : Bool) (t : Nat) (x : ReeveRun) (e : Ev) : ReeveRun :=
  let open_ := x.open_.filter fun w => decide (e.at_ < w.2)
  let bad := fun (x : ReeveRun) => { x with offs := x.offs ++ [{ status := stBadTime, tile := t, line := e.line, slot := e.slot, cause := 0 }] }
  let reads := fun (k n : Nat) =>
    open_.any fun w => (List.range n).any fun i => (wordOf m.words false t (0x860 + w.1)).1.getLsbD (k + i)
  match e.instr with
  | some (.window p w len) =>
    let k := w.toNat
    let x1 := if open_.any fun o => o.1 == k then bad x else x
    let ctl := wordOf m.words false t (0x850 + k)
    let pol := match p with
      | .desc => x.pol
      | .dflt => (k, false, e.line, e.slot) :: x.pol
      | .stall => (k, true, e.line, e.slot) :: x.pol
    let now := match pol.find? fun y => y.1 == k with
      | some y => y.2
      | none => (wdStall ctl.1, ctl.2, 0)
    let x2 := if det && !now.1 && !ctl.1.getLsbD 18 then
        { x1 with offs := x1.offs ++ [{ status := stBadWin, tile := t, line := now.2.1, slot := now.2.2, cause := 0 }] }
      else x1
    { x2 with open_ := (k, e.at_ + len.toNat) :: open_, pol := pol }
  | some (.pread _ k n) => if reads k.toNat (n.toNat + 1) then bad x else x
  | some (.nfset _ _ _ j _) => if reads j.toNat 1 then bad x else x
  | some (.tstep g d) =>
    let lists := match m.group g.toNat with | some r => r.tiles.contains t | none => false
    let again := match x.steps.find? fun y => y.1 == g.toNat with | some y => decide (e.at_ < y.2) | none => false
    let x1 := if !lists || again then bad x else x
    { x1 with steps := (g.toNat, e.at_ + d.toNat) :: x.steps }
  | some .tend => if open_ != [] || x.steps.any (fun y => decide (e.at_ < y.2)) then bad x else x
  | _ => x

/-- The offences of a tile's REEVE chain. -/
def badReeve (m : Image) (t : Nat) (evs : List Ev) : List Offence :=
  (evs.foldl (reeveEv m m.desc.det t) { open_ := [], pol := [], steps := [], offs := [] }).offs

/-! ## Links (07 R209, R229-R231) -/

/-- Whether the neighbour that a beat of tile t goes to takes part (07 R209). -/
def Image.takesPart (m : Image) (p : Part) (t : Nat) (d : Dir) : Bool :=
  match p.toward t d with
  | .tile u _ => m.names u
  | .causeway west row =>
    let x := if west then 23 else 0
    decide (p.originX ≤ x) && decide (x < p.originX + p.width) && m.names (p.tileOf x row)
  | .nowhere => false

/-- The departures of an issue: its direction, whether on the metadata channel, and their cycles. -/
def departures (p : Part) (t eng : Nat) (e : Ev) : Option (Dir × Bool × List Nat) :=
  let row := fun (d : Dir) (n : Nat) => (List.range n).map (p.eligible t d e.at_)
  match eng, e.instr with
  | 2, some i => (vecWrites i).2.2.map fun d => (d, false, [e.at_ + (vecWrites i).2.1])
  | _, some (.sxl _ d _ len _) => some (d, false, row d ((lenOf len + 1) / 2))
  | _, some (.scnt _ d _ len _) => some (d, false, row d (lenOf len / 2))
  | _, some (.smeta d _ len _) => some (d, true, row d (8 * lenOf len))
  | _, _ => none

/-- An issue put in its place among issues in order. -/
def insertEv (e : Nat × Ev) : List (Nat × Ev) → List (Nat × Ev)
  | [] => [e]
  | x :: r => if e.2.at_ ≤ x.2.at_ then e :: x :: r else x :: insertEv e r

/-- The link offences of a tile: `evs` are its VEC and STRM issues in order. Pairs are refused where beats are (07 R209; DESIGN CHOICE,
log 119). -/
def badLinks (m : Image) (p : Part) (t : Nat) (evs : List (Nat × Ev)) : List Offence :=
  let go := fun (x : List (Dir × Bool × Nat) × List Offence) (e : Nat × Ev) =>
    let off : Offence := { status := stBadTime, tile := t, line := e.2.line, slot := e.2.slot, cause := 0 }
    match departures p t e.1 e.2 with
    | none => x
    | some (d, side, l) =>
      let parity := match p.toward t d with
        | .causeway _ row => l.any fun c => c % 2 != row % 2
        | _ => false
      if !m.takesPart p t d || parity then (x.1, x.2 ++ [off])
      else
        let new := l.map fun c => (d, side, c)
        ((x.1.filter fun y => decide (e.2.at_ ≤ y.2.2)) ++ new, if new.any x.1.contains then x.2 ++ [off] else x.2)
  (evs.foldl go ([], [])).2

/-! ## HBM transfers (07 R227, 08 R256) -/

/-- The owners that the image gives a pseudo-channel's static slots. -/
def Image.owners (m : Image) (pch : Nat) : List Nat :=
  ((m.recs.find? fun r => r.type == 3 && r.index == pch).map TableRec.owners).getD []

/-- The segment of an HBM transfer. -/
def segOf : Instr → Option Nat
  | .sld _ _ g _ _ | .sldl _ _ g _ _ | .sst _ g _ _ | .sgth _ _ _ g _ _ | .ssct _ _ g _ _ => some g.toNat
  | _ => none

/-- The transfers of a tile without an owned slot. -/
def badHbm (m : Image) (p : Part) (t : Nat) (evs : List Ev) : List Offence :=
  evs.filterMap fun e =>
    match e.instr.bind segOf with
    | some g =>
      if p.segValid g && (m.owners (p.segPch g)).contains t then none
      else some { status := stBadSlot, tile := t, line := e.line, slot := e.slot, cause := 0 }
    | none => none

/-! ## Gangs, arrivals and banks (06 R192, R196, R201) -/

/-- The tile's Mill arrival group by the image's tables (06 R201). -/
def Image.millGroup (m : Image) (t : Nat) : Bool := m.recs.any fun r => r.type == 2 && decide (0 < r.gangs) && r.tiles.contains t

/-- The members of a MILLG beside its width. -/
def gangOf : Instr → Option Nat
  | .millg _ _ _ _ _ _ w _ _ _ => some w.toNat
  | _ => none

/-- Whether a Mill operation arrives. -/
def arrives : Instr → Bool
  | .mill _ _ _ _ _ _ _ a _ | .millg _ _ _ _ _ _ _ _ a _ | .millx _ _ _ _ _ _ _ _ a _ => a == .arr
  | _ => false

/-- Whether a MILLG of tile t offends against 06 R196. -/
def gangBad (m : Image) (mills : Nat → List Ev) (t : Nat) (e : Ev) (w n : Nat) : Bool :=
  let hi := e.at_ + 16 * n
  let members := (List.range (w + 1)).map fun k => t + k
  let meets := fun (u : Nat) (f : Ev) =>
    !(u == t && f == e) &&
      ((decide (e.at_ ≤ f.at_) && decide (f.at_ < hi))
        || match f.instr with
           | some i => (gangOf i).isSome && decide (f.at_ < hi) && decide (e.at_ < f.at_ + 16 * (millSweeps i).getD 0)
           | none => false)
  members.any (fun u => (m.chainOf u 4).isNone) || members.any fun u => (mills u).any (meets u)

/-- The BADGANG offences of tile t. -/
def badGang (m : Image) (p : Part) (mills : Nat → List Ev) (t : Nat) : List Offence :=
  (mills t).filterMap fun e =>
    match e.instr with
    | none => none
    | some i =>
      let bad := (arrives i && !m.millGroup t) ||
        match gangOf i with
        | some w => decide (11 < p.tileX t % 12 + w) || gangBad m mills t e w ((millSweeps i).getD 0)
        | none => false
      if bad then some { status := stBadGang, tile := t, line := e.line, slot := e.slot, cause := 0 } else none

/-- A write of a bank: issue, ready cycle, bank and place (06 R192). -/
structure BankWrite where
  issue : Nat
  ready : Nat
  bank : Nat
  line : Nat
  slot : Nat

/-- The bank writes of an issue. -/
def bankWrite (e : Ev) : Option BankWrite :=
  let w := fun (b : BitVec 3) (r : Nat) => some { issue := e.at_, ready := r, bank := b.toNat, line := e.line, slot := e.slot }
  match e.instr with
  | some (.mill b _ _ _ _ _ n _ _) => w b (e.at_ + 16 * (n.toNat + 1) + 12)
  | some (.millx b _ _ _ _ _ _ n _ _) => w b (e.at_ + 16 * (n.toNat + 1) + 12)
  | some (.millg b _ _ _ _ _ _ n _ _) => w b (e.at_ + 16 * (n.toNat + 1) + 14)
  | some (.mzero b _) => w b (e.at_ + 1)
  | _ => none

/-- The writes that a tile's banks carry: its own, and those of gangs led from the west in its row (06 R192, R196, R197). -/
def bankWrites (p : Part) (mills : Nat → List Ev) (t : Nat) : List BankWrite :=
  (mills t).filterMap bankWrite
    ++ ([1, 2, 3].filter fun k => decide (k ≤ p.tileX t)).flatMap fun k =>
      (mills (t - k)).filterMap fun e =>
        match e.instr.bind gangOf with
        | some w => if k ≤ w then bankWrite e else none
        | none => none

/-- The bank offences of tile t (06 R192). -/
def badBanks (p : Part) (mills : Nat → List Ev) (t : Nat) : List Offence :=
  let ws := bankWrites p mills t
  let off := fun (line slot : Nat) => { status := stBadTime, tile := t, line := line, slot := slot, cause := 0 : Offence }
  let order := ws.filterMap fun a =>
    if ws.any fun b => b.bank == a.bank && decide (b.issue < a.issue) && decide (a.ready ≤ b.ready) then some (off a.line a.slot) else none
  let drains := (mills t).flatMap fun e =>
    match e.instr with
    | some (.mdrain _ b _) =>
      (if ws.any fun a => a.bank == b.toNat && decide (a.issue < e.at_) && decide (e.at_ < a.ready) then [off e.line e.slot] else [])
        ++ ws.filterMap fun a =>
          if a.bank = b.toNat ∧ e.at_ < a.issue ∧ a.ready ≤ e.at_ + 31 then some (off a.line a.slot) else none
    | _ => []
  let equal := (ws.filter fun a => decide (1 < ws.countP fun b => b.bank == a.bank && b.ready == a.ready && b.issue == a.issue)).map fun a =>
    off a.line a.slot
  order ++ equal ++ drains

/-! ## Tables (01 R37, R38; 08 R269; 10 R307) -/

/-- The BADREGION offences of one table: `base` is the number of its entry 0. -/
def badTable (m : Image) (isCore : Bool) (id base share len : Nat) : List Offence :=
  let es := (List.range 16).map fun i => (i, wordOf m.words isCore id (base + i))
  let bad := fun (before : List (Nat × Word × Nat)) (x : Nat × Word × Nat) =>
    let e := x.2.1
    let fmtOk := rgFmt e == 4#5 || rgFmt e == 5#5 || rgFmt e == 7#5
    rgValid e && (rgRule e == 3 || (rgRule e == 1 && !fmtOk) || !m.groupUsed (rgGroup e)
      || !inUnits (rgBase e) (rgStorage e) share len
      || rgSize e != 0 && before.any fun y =>
        rgValid y.2.1 && rgSize y.2.1 != 0 && decide (rgBase y.2.1 < rgBase e + rgStorage e) && decide (rgBase e < rgBase y.2.1 + rgStorage y.2.1))
  (withBefore bad [] es).map fun x =>
    { status := stBadRegion, tile := if isCore then 0x8000 + id else id, line := x.2.2, slot := 0, cause := 0 }

/-- The ids that records of a kind reach. -/
def recordIds (m : Image) (isCore : Bool) (lo hi n : Nat) : List Nat :=
  (List.range n).filter fun id =>
    m.words.any fun r => r.isCore == isCore && decide (lo ≤ r.cw) && decide (r.cw ≤ hi) && decide (r.frm ≤ id) && decide (id ≤ r.toId)

/-- The BADSLOT offences of the ownership map (02 R72, 10 R307). -/
def badSlots (m : Image) (p : Part) : List Offence :=
  (m.recs.filter fun r => r.type == 3 && (r.owners.length != (staticSlots m.desc.ratio).length || !p.il.getLsbD (r.index / 64)
      || r.owners.any fun t => decide (p.tileCount ≤ t))).map fun r =>
    { status := stBadSlot, tile := noTile, line := r.line, slot := 0, cause := 0 }

/-- BASE and length of an owned-region record. -/
def TableRec.ownBase (r : TableRec) : Nat := leOf r.bytes 8 8 % 2 ^ 56 / 64 * 64
def TableRec.ownSize (r : TableRec) : Nat := 64 * leOf r.bytes 16 4

/-- The BADOWN offences (01 R38): an entry that overlaps an earlier one. One of SIZE 0 has no byte, so it overlaps none (DEDUCED, log
110). -/
def badOwned (m : Image) : List Offence :=
  let beyond := fun (before : List TableRec) (r : TableRec) =>
    r.ownSize != 0 && before.any fun q =>
      q.ownSize != 0 && decide (q.ownBase < r.ownBase + r.ownSize) && decide (r.ownBase < q.ownBase + q.ownSize)
  (withBefore beyond [] (m.recs.filter fun r => r.type == 1)).map fun r =>
    { status := stBadOwn, tile := noTile, line := r.line, slot := 0, cause := 0 }

/-! ## The verifier -/

/-- The timed chains walked: those of the entries whose first line is code and that name a tile. -/
def Image.walks (m : Image) (line : Nat → Option Line) : List (ChainEntry × Walked) :=
  (m.chains.filter fun c => decide (1 ≤ c.eng) && decide (c.eng ≤ 4) && (line c.first).isSome && decide (c.frm ≤ c.toId)).map fun c =>
    (c, walkEntry line c)

/-- The offences of an image's timed chains and tables, once its own layout and chain table stand. -/
def badRest (x : Setting) (m : Image) (walks : List (ChainEntry × Walked)) : List Offence :=
  let p := x.part
  let walkOf := fun (t e : Nat) =>
    (walks.find? fun y => y.1.eng == e && decide (y.1.frm ≤ t) && decide (t ≤ y.1.toId)).map Prod.snd
  let evsOf := fun (t e : Nat) => ((walkOf t e).map Walked.evs).getD []
  let mills := fun (t : Nat) => evsOf t 1
  let tiles := (List.range p.tileCount).filter m.names
  let size := tiles.filterMap fun t =>
    let ls := ([1, 2, 3, 4].flatMap fun e => ((walkOf t e).map Walked.lines).getD []).eraseDups
    if 2048 < ls.length then some { status := stBadSize, tile := t, line := 0, slot := 0, cause := 0 } else none
  (walks.flatMap fun y => y.2.offs) ++ size ++ (walks.flatMap fun y => badSpacing y.1.frm y.2.evs)
    ++ (tiles.flatMap fun t => badReeve m t (evsOf t 4) ++ badHbm m p t (evsOf t 3) ++ badGang m p mills t ++ badBanks p mills t
        ++ badLinks m p t (((evsOf t 2).map fun e => (2, e)).foldr insertEv ((evsOf t 3).map fun e => (3, e))))
    ++ badSlots m p
    ++ ((recordIds m false 0x830 0x83F p.tileCount).flatMap fun t => badTable m false t 0x830 x.place.mbase x.place.mlen)
    ++ ((recordIds m true 0x700 0x70F p.coreCount).flatMap fun c => badTable m true c 0x700 x.place.lbase x.place.llen)
    ++ badOwned m

/-- The verifier (02 R72): the image that passes, or the first offence of the first status. -/
def verify (x : Setting) (img : Nat → Option Line) : Except Offence Image :=
  let at_ := fun (n : Nat) => { status := stBadImage, tile := noTile, line := n, slot := 0, cause := 0 : Offence }
  match img 0 with
  | none => .error (at_ 0)
  | some l0 =>
    match imgHead l0 with
    | none => .error (at_ 0)
    | some h =>
      let line := fun (n : Nat) => (img n).getD 0#512
      let unread := (List.range h.nlines).find? fun n => (img n).isNone
      let u := unread.getD h.nlines
      let m := parseImage line (fun n => (img n).isSome) h u
      match firstOffence ((unread.map at_).toList ++ badImage x m.1 m.2 u) with
      | some o => .error o
      | none =>
        let bad := badEntries m.1 x.part
        let walks := m.1.walks (fun n => if h.code ≤ n ∧ n < h.code + h.ncode then img n else none)
        let chain := (walks.flatMap fun y => y.2.offs.filter fun o => o.status == stBadChain)
          ++ bad.map fun i => { status := stBadChain, tile := noTile, line := h.chainLine i, slot := 0, cause := 0 }
        match firstOffence chain with
        | some o => .error o
        | none =>
          match firstStatus (badRest x m.1 walks) with
          | some o => .error o
          | none => .ok m.1

end Sys2Proof.Machine
end

