-- ==== Sys2Proof/Machine/Launch.lean ====
section
/-!
DEFINITION. Launches (10 R299-R313, R321-R324; 11 R338): the placement record, loading, the launch epoch and its
announcement in a chain, the Bell's sweeps, the end of a launch, the change from one resident job to the other, and what
the advisor, the scrubber and the sampler do beside them (08 R259-R261; 14 R398).
-/

namespace Sys2Proof.Machine

/-! ## The placement record (10 R304, R305) -/

/-- The placement record in 128 bytes. -/
def placeOf (l : List Byte) : Place :=
  { root := leOf l 0 8, quant := leOf l 8 4, mbase := leOf l 12 1, mlen := leOf l 13 1, fbase := leOf l 14 1, flen := leOf l 15 1
    lbase := leOf l 16 1, llen := leOf l 17 1, advring := leOf l 24 8, freeaddr := leOf l 32 8, thr := leOf l 40 4
    fmin := leOf l 44 4, qlow := leOf l 48 4, replen := leOf l 52 4, repva := leOf l 56 8 }

/-- Whether two ranges given by base and length share a unit. -/
def overlap (a n b m : Nat) : Bool := decide (a < b + m) && decide (b < a + n)

/-- Whether a placement record passes the checks of 10 R305, against the resident jobs of the partition. -/
def placeOk (p : Part) (l : List Byte) : Bool :=
  let x := placeOf l
  let zero := fun (a n : Nat) => leOf l a n == 0
  let share := fun (b n top : Nat) => n != 0 && decide (b + n ≤ top)
  zero 18 6 && zero 64 64 && x.root % 8192 == 0 && decide (x.root + 8192 ≤ p.hbmSize) && share x.mbase x.mlen 32
    && share x.fbase x.flen 2 && share x.lbase x.llen 4
    && ([0, 1].all fun k =>
      match SMap.get p.res k with
      | some r =>
        let y := r.place
        !(overlap x.mbase x.mlen y.mbase y.mlen || overlap x.fbase x.flen y.fbase y.flen || overlap x.lbase x.llen y.lbase y.llen)
      | none => true)
    && (x.advring == 0 || (x.advring % 64 == 0 && x.freeaddr % 8 == 0))
    && (x.replen == 0 || (x.repva != 0 && x.repva % 4096 == 0))

/-- The layout of a LAUNCH body (10 R304, 13 R369): FLAGS and the reserved bytes, and the alignment of IMAGE. -/
def launchLayout (k : Packet) : Bool := decide (k.le 40 1 < 2) && k.zero 41 64 && k.le 16 8 % 64 == 0

/-- LAUNCH (10 R304, R305, R309 step 1): the packet takes the free residency slot and begins to load, or is refused. -/
def execLaunch (s : State) : Out :=
  let q := s.focus.queue
  .next (s.withPacket q 1 (fun _ => true) launchLayout false fun k t =>
    let pa := k.le 24 8
    let l := t.paBytes pa 128
    if pa % 128 ≠ 0 ∨ t.pt.hbmSize < pa + 128 ∨ placeOk t.pt l = false then t.finish k { status := stBadPlace }
    else
      match t.pt.freeSlot with
      | none => t
      | some slot =>
        let r : Resident :=
          { (default : Resident) with
            state := .loading, queue := q, seq := k.seq, anum := k.num, prio := q, image := k.le 16 8, place := placeOf l
            arg := BitVec.ofNat 64 (k.le 32 8), useArg := k.le 40 1 % 2 == 1 }
        t.onPt fun p => { p with res := SMap.set p.res slot (some r) })

/-! ## Loading (10 R309 step 2) -/

/-- A line of an image read under a ROOT (02 R50): its page has R and not P, and maps partition HBM. R50 does not name a line whose
sector is uncorrectable: the model counts it with those that cannot be read (DESIGN CHOICE, log 51). -/
def State.imageLine (s : State) (root image n : Nat) : Option Line :=
  let va := image + 64 * n
  if 2 ^ 56 < va + 64 then none
  else
    match s.walkRoot va root with
    | .leaf _ l =>
      let pa := leafAddr l va
      match s.pt.home pa with
      | .hbm k =>
        if leafR l && !leafP l && !s.pt.poisoned (.hbm k) then some (BitVec.ofNat 512 (ofBytes (s.paBytes pa 64))) else none
      | _ => none
    | _ => none

/-- Whether a ROOT maps a virtual address. -/
def State.rootMaps (s : State) (root va : Nat) : Bool :=
  match s.walkRoot va root with
  | .leaf _ _ => true
  | _ => false

/-- Bytes written at virtual addresses under a ROOT by the steward, with A and D set in their leaves (08 R253); a byte that does not
translate is left out. -/
def State.rootPuts (root va : Nat) : List Byte → State → State
  | [], s => s
  | b :: r, s =>
    match s.walkRoot va root with
    | .leaf a l => State.rootPuts root (va + 1) r ((s.markLeaf a l (leafMarked true l)).paPut (leafNC l) (leafAddr l va) b)
    | _ => State.rootPuts root (va + 1) r s

/-- A memory of equal pieces of `size` bytes without the bytes that lie in a share of each piece. -/
def clearShare (m : Mem) (size base len : Nat) : Mem :=
  m.filter fun x => !(decide (base * 65536 ≤ x.1 % size) && decide (x.1 % size < (base + len) * 65536))

/-- A poison key of the Mere, the Loft or local memory that lies in the job's shares. -/
def inShares (x : Place) (k : Nat) : Bool :=
  let within := fun (o b n : Nat) => decide (b * 65536 ≤ o) && decide (o < (b + n) * 65536)
  if 2 ^ 81 ≤ k then false
  else if 2 ^ 80 ≤ k then within (k % 2 ^ 17) x.fbase x.flen
  else if k % 4 = 2 then within (k / 4 * 8 % 2 ^ 21) x.mbase x.mlen
  else if k % 4 = 3 then within (k / 4 * 8 % 2 ^ 18) x.lbase x.llen
  else false

/-- The job's shares zero-filled (10 R309): every word of them is written, so poison there ends too (08 R261). -/
def Part.zeroShares (x : Place) (p : Part) : Part :=
  { p with
    mere := clearShare p.mere (2 ^ 21) x.mbase x.mlen, loft := clearShare p.loft (2 ^ 17) x.fbase x.flen
    loc := clearShare p.loc (2 ^ 18) x.lbase x.llen, poison := p.poison.filter fun k => !inShares x k }

/-- The sectors that a block written at virtual addresses under a ROOT covers whole lose their poison (08 R261). -/
def State.rootClean (root va n : Nat) (s : State) : State :=
  ((List.range (n / 64 + 1)).map fun i => 64 * ((va + 63) / 64 + i)).foldl (fun s x =>
    if va + n < x + 64 then s
    else
      match s.walkRoot x root with
      | .leaf _ l => s.unpoison (leafAddr l x) 64
      | _ => s) s

/-- The data block of kind 0 to 3 written (02 R49). -/
def State.loadBlock (root : Nat) (s : State) (b : Block) : State :=
  let ids := (List.range (b.toId + 1 - b.frm)).map fun i => b.frm + i
  match b.kind with
  | 0 => s.onPt fun p => { p with mere := ids.foldl (fun m t => writeMem m (t * 2 ^ 21 + b.addr) b.bytes) p.mere }
  | 1 => s.onPt fun p => { p with loft := ids.foldl (fun m t => writeMem m (t * 2 ^ 22 + b.addr) b.bytes) p.loft }
  | 2 => s.onPt fun p => { p with loc := ids.foldl (fun m c => writeMem m (c * 2 ^ 18 + b.addr) b.bytes) p.loc }
  | 3 => (s.rootPuts root b.addr b.bytes).rootClean root b.addr b.bytes.length
  | _ => s

/-- The step groups of the launch tables (10 R307). -/
def Image.groupTable (m : Image) : SMap Group :=
  (m.recs.filter fun r => r.type == 2).foldl (fun g r =>
    SMap.insert g r.index { (default : Group) with tiles := r.tiles, ctxs := r.ctxs, gangs := r.gangs }) []

/-- The owned regions of the launch tables (10 R307). -/
def Image.ownedTable (m : Image) : SMap Owned :=
  (m.recs.filter fun r => r.type == 1).foldl (fun g r =>
    SMap.insert g r.index
      { valid := true, base := r.ownBase, size := r.ownSize, holder := BitVec.ofNat 12 (leOf r.bytes 20 2), hseq := 0#16 }) []

/-- The ownership map of the launch tables (10 R307). -/
def Image.slotTable (m : Image) : SMap (List Nat) :=
  (m.recs.filter fun r => r.type == 3).foldl (fun g r => SMap.insert g r.index r.owners) []

/-- The resident job after loading: what the launch keeps of its image (02 R60). -/
def Resident.loaded (m : Image) (img : Nat → Line) (r : Resident) : Resident :=
  { r with
    state := .ready
    desc := m.desc
    code := ((List.range m.head.ncode).map fun i => (m.head.code + i, img (m.head.code + i))).filter fun x => x.2 != 0#512
    codeFirst := m.head.code, codeCount := m.head.ncode, nlines := m.head.nlines, chains := m.chains
    words := m.words.map fun w => (w.isCore, w.frm, w.toId, w.cw, w.val)
    groups := m.groupTable, owned := m.ownedTable, slots := m.slotTable
    layouts := (m.recs.filter fun x => x.type == 4).map fun x =>
      (x.index, leOf x.bytes 8 2, leOf x.bytes 10 2, BitVec.ofNat 512 (ofBytes (x.bytes.drop 16)))
    hash := Config.digest ((List.range m.head.nlines).flatMap fun n => (img n).bytes) }

/-- The residency slot that is loading: of two, the one accepted first. -/
def Part.loadingSlot (p : Part) : Option Nat :=
  let num := fun (k : Nat) => match SMap.get p.res k with | some r => if r.state = ResState.loading then some r.anum else none | none => none
  match num 0, num 1 with
  | some a, some b => some (if a < b then 0 else 1)
  | some _, none => some 0
  | none, some _ => some 1
  | none, none => none

/-! ### The end of a resident job -/

/-- Once no job is current, a SHADOW job is read back from its bank (10 R312, 12 R356). -/
def Part.callShadow (p : Part) : Part :=
  if p.cur.isSome then p
  else if p.ckpt.isSome || p.aborting then { p with switch := none }
  else
    let shadow := fun (k : Nat) => match SMap.get p.res k with | some r => r.state == .shadow | none => false
    match ([0, 1].filter shadow) with
    | [] => { p with switch := none }
    | k :: _ => { p with switch := some { stage := .swap, toId := some k, since := 0 } }

/-- The EVENT packets that wait at a job's agent complete without a stop (13 R370), each with a status of its own. -/
def State.endEvents (j : Job) (status : Packet → Nat) (s : State) : State :=
  match j.debug with
  | none => s
  | some d => d.events.foldl (fun s e => s.finish e { status := status e }) s

/-- The status of an EVENT packet whose job ends: ABORTED for a user packet under a QUIESCE with FORCE (13 R375), else NODEST. -/
def Part.eventEnd (p : Part) (k : Packet) : Nat := if p.aborting && decide (k.queue < 4) then stAborted else stNodest

/-- A resident job that is not current ends (10 R301): the EVENT packets that wait at its agent complete (13 R370), its slot is freed,
and its completion record is written. -/
def State.endResident (d : Done) (k : Nat) (r : Resident) (s : State) : State :=
  ((s.endEvents r.saved s.pt.eventEnd).onPt (Part.vacate k)).completePacket r.queue r.seq 1 r.anum d

/-- LOADING_COMPLETE (10 R309 step 2; 02 R72, R73): the verifier refuses the launch, whose slot is freed, or the data
blocks are written and the job is READY. -/
def execLoadingComplete (s : State) : Out :=
  .next (
    match s.pt.loadingSlot with
    | none => s
    | some slot =>
      match SMap.get s.pt.res slot with
      | none => s
      | some r =>
        let img := s.imageLine r.place.root r.image
        match verify { part := s.pt, place := r.place, maps := s.rootMaps r.place.root } img with
        | .error o =>
          s.endResident { status := o.status, vcause := o.cause, tile := o.tile, line := o.line, slot := o.slot } slot r
        | .ok m =>
          let t := (m.blocks.filter fun b => decide (b.kind ≤ 3)).foldl (State.loadBlock r.place.root) (s.onPt (Part.zeroShares r.place))
          t.onPt fun p => p.onRes slot (Resident.loaded m fun n => (img n).getD 0#512))

/-! ## The launch epoch (10 R309 steps 4 and 5, R310; 01 R13, R27, R35, R45) -/

/-- A chain of tile t at its start (02 R54). -/
def Resident.chainsOf (r : Resident) (t : Nat) : SMap Chain :=
  (r.chains.filter fun c => c.eng != 0 && decide (c.frm ≤ t) && decide (t ≤ c.toId)).foldl (fun m c =>
    SMap.insert m c.eng (chainStart r.line c.first c.lc0 c.lc1)) []

/-- A tile as a launch that does not name it finds it (02 R48, 16 R425): the state of 01 R13 as it was left, every window
closed. -/
def Tile.kept (x : Tile) : Tile :=
  { (default : Tile) with
    v := x.v, acc := x.acc, ma := x.ma, mb := x.mb, midx := x.midx, nf := x.nf, pw := x.pw, pws := x.pws, wmask := x.wmask
    wctl := x.wctl.foldl (fun m w => SMap.set m w.1 (w.2 &&& ~~~0x1010000#64)) []
    wrg := x.wrg, stepped := x.stepped, tstat := x.tstat, srec := x.srec }

/-- The tiles of a job as they are left when it ends or is switched out. -/
def Job.keptTiles (j : Job) : SMap Tile := j.tiles.map fun x => (x.1, x.2.kept)

/-- A tile at the launch epoch (01 R13, 02 R49): its launch values where the launch names it, else as it was left (16 R425). -/
def Resident.tile0 (r : Resident) (p : Part) (t : Nat) : Tile :=
  let ch := r.chainsOf t
  let base : Tile := if ch = [] then SMap.get p.left t else { (default : Tile) with chains := ch, named := true }
  (r.words.filter fun w => !w.1 && decide (w.2.1 ≤ t) && decide (t ≤ w.2.2.1)).foldl (fun x w => x.cwWrite w.2.2.2.1 w.2.2.2.2) base

/-- A core at the launch epoch (01 R27, R45; 02 R48, R49; 10 R309 step 5). 02 R48 starts context 0 at the first valid slot of line
FIRST, and does not say what a FIRST line without one gives: the model passes on to NEXT as 02 R58's search for a successor does
(DESIGN CHOICE, log 89). -/
def Resident.core0 (r : Resident) (p : Part) (c : Nat) : Core :=
  let ws := r.words.filter fun w => w.1 && decide (w.2.1 ≤ c) && decide (c ≤ w.2.2.1)
  let tab := ws.foldl (fun m w => if 0x700 ≤ w.2.2.2.1 ∧ w.2.2.2.1 ≤ 0x70F then setBits m (w.2.2.2.1 - 0x700) regionMask w.2.2.2.2 else m) []
  let start := r.chains.find? fun e => e.eng == 0 && decide (e.frm ≤ c) && decide (c ≤ e.toId)
  let own := fun (x : Ctx) => ws.foldl (fun (x : Ctx) w => if w.2.2.2.1 ≤ 0x020 then x.cwWrite w.2.2.2.1 w.2.2.2.2 else x) x
  let ctx : Ctx :=
    match start with
    | some e =>
      own ((default : Ctx).started (if r.useArg then r.arg else r.desc.arg) 0#64 r.desc.prio (enterLine p 64 e.first))
    | none => own default
  { (default : Core) with ctxs := [(0, ctx)], stepped := { (default : Stepped) with tab := tab } }

/-- The job at its launch epoch. What a debug agent has set up before it stays (14 R387). -/
def Resident.job0 (r : Resident) (p : Part) : Job :=
  { (default : Job) with
    tiles := (List.range p.tileCount).map fun t => (t, r.tile0 p t)
    cores := (List.range p.coreCount).map fun c => (c, r.core0 p c)
    hamlets := (List.range p.hamletCount).map fun h => (h, { (default : Hamlet) with
      lrec := (r.layouts.filter fun x => decide (x.2.1 ≤ h) && decide (h ≤ x.2.2.1)).foldl (fun m x => SMap.set m x.1 x.2.2.2) [] })
    groups := r.groups, owned := r.owned, slots := r.slots, debug := r.saved.debug, trace := r.saved.trace }

/-- The partition words of a job that is current (10 R309 step 4). -/
def Part.wordsOf (d : Desc) (p : Part) : Part := { p with det := d.det, seed := d.seed, ratio := d.ratio }

/-- The first quantum (10 R310), and a later one (10 R311): the verifier's run time, the time of step 4 and that of rewriting the
timetables are not given, so what they take from it is a free value (log 2, log 67). -/
def firstQuota (quant draw : Nat) : Nat := if quant = 0 then 0 else Nat.max 65536 (quant * 65536 - draw)

/-- Whether the partition runs in a chain of more than one package (01 R39). -/
def Part.chained (p : Part) : Bool := p.chain.extractLsb' 3 3 != 0#3
/-- The package's position in its chain. -/
def Part.position (p : Part) : Nat := (p.chain.extractLsb' 0 3).toNat

/-- The position that the package facing the east edge reports. -/
def Part.eastPos (p : Part) : Option Nat := (p.members.find? Member.east).map Member.pos

/-- What this package reports to its chain (11 R338): its own words, with its job past step 4. -/
def Part.member (p : Part) (r : Resident) : Member :=
  { east := false, pos := p.position, faces := p.eastPos, len := (p.chain.extractLsb' 3 3).toNat + 1, ring := p.chain.getLsbD 6, shape := p.qmask
    hash := r.hash, ratio := r.desc.ratio, ready := true }

/-- Whether a report contradicts this package's own words (11 R338): the package that faces the east edge, here or at the member
that reports, has another position than the next, or the length, the ring bit, the shape, the image or the ratio differ. -/
def Part.disagrees (p : Part) (r : Resident) (m : Member) : Bool :=
  let o := p.member r
  m.east && m.pos != (o.pos + 1) % o.len || (m.faces.any fun x => x != (m.pos + 1) % m.len) || m.len != o.len || m.ring != o.ring || m.shape != o.shape || m.hash != o.hash
    || m.ratio != o.ratio

/-- Whether position i of the chain has a package to its east: every one but the last of a chain that is no ring. -/
def Part.hasEast (p : Part) (i : Nat) : Bool := p.chain.getLsbD 6 || i != (p.chain.extractLsb' 3 3).toNat

/-- Whether every other position of the chain has reported that its job has reached the epoch step, and every one which package
faces its east edge (11 R338). -/
def Part.allReady (p : Part) : Bool :=
  (List.range ((p.chain.extractLsb' 3 3).toNat + 1)).all fun i =>
    if i = p.position then p.eastPos.isSome || !p.hasEast i
    else p.members.any fun m => m.pos == i && m.ready && (m.faces.isSome || !p.hasEast i)

/-- A report of another package is heard; it replaces what that position has reported before (11 R338). -/
def Part.hears (m : Member) (p : Part) : Part :=
  { p with members := (p.members.filter fun x => x.pos != m.pos || x.east != m.east) ++ [m] }

/-- A report reaches the partition in focus. One that tells a package past step 4 who faces its east edge is passed on to the
chain. -/
def State.hearMember (m : Member) (s : State) : State :=
  let t := s.onPt (Part.hears m)
  match (t.pt.res.filterMap Prod.snd).find? Resident.stepFour with
  | some r => if t.pt.eastPos = s.pt.eastPos then t else { t with out := t.out ++ [.member (t.pt.member r)] }
  | none => t

/-- The registers and accumulators of the tiles that a launch names take their launch values (01 R13): each is written whole, so
poison there ends (08 R261). -/
def Resident.cleanTiles (r : Resident) (p : Part) : Part :=
  { p with poison := p.poison.filter fun k => (poisonTile k).all fun t => r.chainsOf t == [] }

/-- Resident job k becomes current at its launch epoch. -/
def State.beginEpoch (k : Nat) (r : Resident) (s : State) : State :=
  let quota := firstQuota r.place.quant (Config.freeWord s.free).toNat
  s.draw.onPt fun p =>
    let q := (p.wordsOf r.desc).onRes k fun x =>
      { x with state := .current, used := 0, quota := quota, ran := true, announced := none, stepFour := false, saved := default }
    r.cleanTiles { q with cur := some k, job := r.job0 { q with cur := some k }, members := [] }

/-- The READY job that becomes current next (10 R300, R312): the one whose step 4 is done, else the higher priority, else
the first accepted. -/
def Part.nextReady (p : Part) : Option Nat :=
  let get := fun (k : Nat) => (SMap.get p.res k).bind fun r => if r.state = .ready then some r else none
  match get 0, get 1 with
  | some a, some b =>
    some (if a.stepFour then 0 else if b.stepFour then 1
      else if b.prio < a.prio ∨ a.prio = b.prio ∧ a.anum < b.anum then 0 else 1)
  | some _, none => some 0
  | none, some _ => some 1
  | none, none => none

/-- LAUNCH_EPOCH (10 R309, R312): with no job current and none being switched, a READY job becomes current. In a chain it
completes step 4, reports it, and its epoch falls in the announced cycle (11 R338). -/
def execLaunchEpoch (s : State) : Out :=
  .next (
    if s.pt.cur.isSome || s.pt.switch.isSome || s.pt.ckpt.isSome || s.pt.aborting then s
    else
      match s.pt.nextReady with
      | none => s
      | some k =>
        match SMap.get s.pt.res k with
        | none => s
        | some r =>
          if !s.pt.chained then s.beginEpoch k r
          else if !r.stepFour then
            { (s.onPt fun p => p.onRes k fun x => { x with stepFour := true }) with out := s.out ++ [.member (s.pt.member r)] }
          else
            match r.announced with
            | some tb => if tb ≤ (s.clock + 1) / 2 then s.beginEpoch k r else s
            | none => s)

/-- A READY job that waits for its epoch in a chain ends: it is refused, or a member has left the chain (11 R338, 12 R342). A SHADOW
job that had given way to it is called back (10 R300). -/
def State.endWaiting (d : Done) (k : Nat) (r : Resident) (s : State) : State :=
  ((s.onPt fun p => { p with members := [] }).endResident d k r).onPt fun p => if p.switch.isSome then p else p.callShadow

/-- EPOCH_ANNOUNCE (11 R338): the launch is refused where the members of the chain do not agree. Else position 0, once all have
reported, fixes the epoch cycle, at least 512 tc ahead, and announces it; the other packages take it. -/
def execEpochAnnounce (tb : Option Nat) (s : State) : Out :=
  .next (
    match s.pt.nextReady with
    | none => s
    | some k =>
      match SMap.get s.pt.res k with
      | none => s
      | some r =>
        if !(s.pt.chained && r.stepFour) || s.pt.cur.isSome || r.announced.isSome then s
        else
          if s.pt.members.any (s.pt.disagrees r) then
            s.endWaiting { status := stBadChain, tile := noTile } k r
          else
            match tb with
            | none => s
            | some c =>
              let t := s.onPt fun p => p.onRes k fun x => { x with announced := some c }
              if s.pt.position ≠ 0 then t
              else if s.pt.allReady = true ∧ s.clock / 2 + 512 ≤ c then { t with out := t.out ++ [.announce c] }
              else s)

/-! ## The end of a launch (10 R312, R323; 12 R351) -/

/-- The launch of the current job ends: its agent is detached, its contexts are free, its mailboxes and shadow messages
are gone, its TLB entries are removed, its slot is free, and its completion record is written. In a chain the other
packages learn of an end by fault or abort (11 R338). -/
def State.endCurrent (d : Done) (s : State) : State :=
  match s.pt.cur, s.pt.current with
  | some k, some r =>
    let tb := s.job.tb
    let t := (s.endEvents s.job s.pt.eventEnd).onPt fun p =>
      Part.vacate k { p with cur := none, left := p.job.keptTiles, job := default }
    let u := t.completePacket r.queue r.seq 1 r.anum { d with tb := tb }
    let v := u.onPt Part.callShadow
    if s.pt.chained && d.status != stDone then { v with out := v.out ++ [.left] } else v
  | _, _ => s

/-! ## The Bell's sweep (10 R322) -/

/-- The sums of CORE.SENT and CORE.RCVD over the cores. -/
def Job.sums (j : Job) : Nat × Nat :=
  (j.cores.foldl (fun n x => n + x.2.sent.toNat) 0, j.cores.foldl (fun n x => n + x.2.rcvd.toNat) 0)

/-- BELL_SWEEP (10 R322): a sweep at a dc that is a multiple of 2,048 and quiet; the second of two equal ones in an unbroken
quiet ends the launch. A context woken earlier in the dc breaks the quiet. -/
def execBellSweep (s : State) : Out :=
  let j := s.job
  let n := j.sums
  .next (
    if s.pt.cur.isNone || s.pt.switch.isSome || j.stop.isSome || j.dc % 2048 != 0 then s
    else
      match (if s.pt.quiet then j.quietFrom else none) with
      | none => s.onJob fun j => { j with sweep := none }
      | some q =>
        match j.sweep with
        | some (a, b, start) =>
          if n.1 = n.2 ∧ a = n.1 ∧ b = n.2 ∧ q ≤ start ∧ start < j.dc then s.endCurrent { status := stDone }
          else s.onJob fun j => { j with sweep := some (n.1, n.2, j.dc) }
        | none => s.onJob fun j => { j with sweep := some (n.1, n.2, j.dc) })

/-! ## The two resident jobs (10 R312; 12 R356-R358) -/

/-- A stopped context goes on at its resume point (14 R393): STATE 1, a HALT at its successor. What was in flight at the stop and
is not yet performed ends first (log 44). -/
def Ctx.letGo (p : Part) (x : Ctx) : Ctx :=
  if x.state ≠ .halted then x
  else
    match x.wait with
    | .halt => { (x.advance p) with state := .ready, wait := .none }
    | w => { x with state := .ready, wait := if w.inFlight then w else .none }

/-- The debug stops in force end (14 R391, R393), but for the permanent hold of the gang-stop form: that ends as a switch does.
Stops already reported fall at no member any more; a context that HALT stopped stays unless `all` asks for it too. -/
def State.letGo (all : Bool) (s : State) : State :=
  (s.onJob fun j => { j with
      cores := j.cores.map fun c => (c.1, { c.2 with ctxs := c.2.ctxs.map fun x =>
        (x.1, if all || x.2.wait != .halt then x.2.letGo s.pt else x.2) }) }).onDebug
    fun d => { d with inForce := false, gang := false, due := d.due.filter fun x => x.2.1 != 0 }

/-- Whether a debug stop is in force (14 R391). -/
def Job.debugStopped (j : Job) : Bool := match j.debug with | some d => d.inForce | none => false

/-- A debug stop that is never released ends with the quantum (14 R391): a HALT waits for its own release (R393). -/
def State.endStops (s : State) : State := if s.job.debugStopped then s.letGo false else s

/-- QUANTUM_EXPIRY (10 R312): the job-wide switch begins when the other job waits with a higher priority, or with one not
lower once the quantum is used, which ends a debug stop too: till then a job with a stop in force stays current (14 R391). -/
def execQuantumExpiry (s : State) : Out :=
  .next (
    match s.pt.cur, s.pt.current with
    | some k, some c =>
      match SMap.get s.pt.res (1 - k) with
      | none => s
      | some h =>
        let waits := h.state == .ready || h.state == .shadow
        let used := c.quota != 0 && decide (c.quota ≤ c.used)
        let due := (decide (c.prio < h.prio) && !s.job.debugStopped) || (used && decide (c.prio ≤ h.prio))
        if waits && due && s.pt.switch.isNone && !s.job.ending && s.pt.ckpt.isNone then
          let t := if used then s.endStops else s
          (t.onPt fun p => { p with switch := some { stage := .stop, toId := some (1 - k), since := 0 } }).gangStop .steward 0#8 0#8 0#8 0#64
        else s
    | _, _ => s)

/-- Whether every node and core of the current job has received the stop (12 R348). -/
def Part.allStopped (p : Part) : Bool :=
  match p.job.stop with
  | none => false
  | some g =>
    (p.nodes.all fun n => (p.job.node n).stop.isSome || (p.nodeDist (Origin.node g.origin) n).isNone)
      && p.job.cores.all fun c => c.2.stopped

/-- Whether an issued instruction still has to be performed, not merely to wait on a condition (12 R350). -/
def Wait.unperformed : Wait → Bool
  | .copyId | .service _ => false
  | w => w.inFlight

/-- Whether context k of core c has issued an instruction that the drain still performs: an EXIT, or a FENCE that releases, waits on a
condition while a copy of the context stands (12 R350). -/
def Job.unperformed (j : Job) (c k : Nat) (w : Wait) : Bool :=
  let copies := j.copiesDone c k && !((j.hamlet (hamletOf c)).reqs.any fun o => o.core == c && o.ctx == k)
  match w with
  | .pend .exit => copies
  | .pend (.fence ord sc) => !MemOrd.releases ord || sc == .ctx || copies
  | w => w.unperformed

/-- Whether everything that the job's cores and copy units have begun is performed and every message is placed (12 R350, R356), and
every Mill operation has come to its ready cycle; where the stop ends the launch, every write burst placed by then too (R349).
A fault-completion notice whose context waits on a stopped core stays where it is, as in the shadow message buffer (log 87). -/
def Job.drained (ends : Bool) (j : Job) : Bool :=
  (j.cores.all fun c => c.2.sq == [] && c.2.ctxs.all fun k => !j.unperformed c.1 k.1 k.2.wait)
    && (j.hamlets.all fun h => h.2.ops.all fun o => match o.2 with | some x => x.beyond || x.susp.isSome || !x.midway | none => true)
    && j.posts == [] && (j.msgs.all fun m => m.kind == 4#4)
    && j.tiles.all fun t =>
      t.2.mills.all (fun r => !j.millGoes t.1 r) && t.2.bursts.all fun b =>
          !ends || !b.kind.writes || b.performed || b.null ||
            match (j.node t.1).stop with
            | some x => decide (x.1 < b.slot)
            | none => true

/-- The messages that wait in the network interfaces and spill buffers of the outgoing job go to its shadow message buffer, in
arrival order (12 R356). -/
def Part.shadowMail (k : Nat) (p : Part) : Part :=
  let held := p.job.cores.flatMap fun c => (c.2.spill ++ c.2.netif).map fun e => (c.1, e)
  (p.onRes k fun r => { r with msgs := r.msgs ++ held }).onJob fun j =>
    { j with cores := j.cores.map fun c => (c.1, { c.2 with spill := [], netif := [] }) }

/-- SWITCH_DRAIN_COMPLETE (12 R356): stage 1 ends when every tile and core has stopped, stage 2 when every issued
instruction is performed and every message is placed. A fault ends the launch instead (R359). -/
def execSwitchDrainComplete (s : State) : Out :=
  .next (
    match s.pt.switch with
    | some w =>
      match w.stage with
      | .stop =>
        if s.pt.allStopped && !s.job.ending then s.onPt fun p => { p with switch := some { w with stage := .drain, since := 0 } } else s
      | .drain =>
        if s.job.drained false && !s.job.ending then
          s.onPt fun p =>
            { (match p.cur, w.toId with | some k, some _ => p.shadowMail k | _, _ => p) with
              switch := some { w with stage := .swap, since := 0 } }
        else s
      | .swap => s
    | none => s)

/-- A stop's permanent hold ends (12 R357, 14 R393): it counts as one hold of the least whole frames that every node has
served, so all nodes again differ from TIMEBASE by the same pauses. -/
def Job.resume (p : Part) (j : Job) : Job :=
  let served := p.nodes.map fun n => match (j.node n).stop with | some x => (j.node n).h - x.2 | none => 0
  let len := ((served.foldl Nat.max 0) + 31) / 32 * 32
  let go := fun (j : Job) (n : Nat) =>
    match (j.node n).stop with
    | some x => j.onNode n fun y => { y with owed := y.owed + (len - (y.h - x.2)), stop := none }
    | none => j
  let k := p.nodes.foldl go j
  { k with
    holds := k.holds.map fun h => if h.len.isNone then { h with len := some len } else h
    frames := k.frames.map fun f => { f with test := k.tb + (k.node f.node).owed }
    cores := k.cores.map fun c => (c.1, { c.2 with stopped := false })
    stop := none }

/-- A stopped job goes on, unless a debug stop in the gang-stop form still holds it (14 R388, R393). -/
def Job.goOn (p : Part) (j : Job) : Job :=
  match j.debug with
  | some d =>
    if d.gang then { j with stop := j.stop.map fun g => { g with cause := 0x21#8, detail := 0#8 } } else j.resume p
  | none => j.resume p

/-- The mailbox waits of the cores that a stop held are looked at again once it has ended, and the requests for copy ids. -/
def State.rewake (s : State) : State :=
  let t := (s.job.cores.map Prod.fst).foldl (fun s c => s.settle c) s
  (t.job.hamlets.map Prod.fst).foldl (fun s h =>
    let f := s.focus
    let u := ({ s with focus := { f with core := 8 * h } } : State).grantFree
    { u with focus := f }) t

/-- A message of the shadow buffer enters its mailbox, or the spill buffer where it does not fit (12 R355, R357). -/
def State.enterShadow (s : State) (x : Nat × MEntry) : State :=
  (s.onCoreAt x.1 fun c => s.pt.wakeAllMail { (({ c with preempted := true } : Core).deliver x.2) with preempted := c.preempted }).wakeTakes x.1

/-- C is saved to its bank and is SHADOW, with a fresh quantum (10 R312, 12 R356, R358). -/
def Part.saveCurrent (k : Nat) (p : Part) : Part :=
  let q := p.onRes k fun r =>
    { r with state := .shadow, saved := p.job, used := 0, quota := r.place.quant * 65536 }
  { q with cur := none, left := p.job.keptTiles, job := default, bankValid := SMap.set q.bankValid k true }

/-- H is read back from its bank and goes on (12 R357, R358): its registers and accumulators are written anew. -/
def State.restoreJob (h : Nat) (r : Resident) (s : State) : State :=
  let t := s.draw.onPt fun p =>
    let q := (p.wordsOf r.desc).onRes h fun x =>
      { x with
        state := .current, saved := default, msgs := [], used := 0
        quota := firstQuota r.place.quant (Config.freeWord s.free).toNat }
    { q with
      cur := some h, job := r.saved, bankValid := SMap.set q.bankValid h false, switch := none
      poison := q.poison.filter fun k => decide (k < poisonBank 0 0 0) }
  let u := r.msgs.foldl State.enterShadow t
  (u.onPt fun p => p.onJob (Job.goOn p)).rewake

/-- Whether a bank error is one that 12 R358 names. -/
def bankError (e : Option (BitVec 8)) : Option (BitVec 8) :=
  match e with
  | some d => if d = 0x05#8 ∨ d = 0x0B#8 then some d else none
  | none => none

/-- The error that the save meets in C's own state (12 R358): a vector register that is marked uncorrectable, or an accumulator,
which leaves the shadow bank in error (log 88). -/
def Part.saveError (p : Part) : Option (BitVec 8) :=
  if p.poison.any fun k => decide (poisonReg 0 0 0 ≤ k) then some 0x05#8
  else if p.poison.any fun k => decide (poisonBank 0 0 0 ≤ k) then some 0x0B#8
  else none

/-- SWITCH_SWAP_COMPLETE (12 R356-R358): the outgoing job's state is written to its bank, and the incoming job's read from
its own; an uncorrectable error ends the job it meets, which in a chain leaves it (11 R338). -/
def execSwitchSwapComplete (saveErr restoreErr : Option (BitVec 8)) (s : State) : Out :=
  let err := fun (d : BitVec 8) => ({ status := stFault, cause := 0x18, detail := d.toNat } : Done)
  .next (
    match s.pt.switch with
    | some { stage := .swap, toId := some h, since := _ } =>
      if s.job.ending then s
      else
      let saved :=
        match s.pt.cur, (s.pt.saveError.or (bankError saveErr)) with
        | some _, some d => s.endCurrent (err d)
        | some k, none => s.onPt (Part.saveCurrent k)
        | none, _ => s
      match SMap.get saved.pt.res h with
      | none => saved.onPt Part.callShadow
      | some r =>
        if r.state = .shadow then
          match bankError restoreErr with
          | some d =>
            let t := (saved.endResident { (err d) with tb := r.saved.tb } h r).onPt Part.callShadow
            if s.pt.chained then { t with out := t.out ++ [.left] } else t
          | none => saved.restoreJob h r
        else saved.onPt fun p => { p with switch := none }
    | _ => s)

/-! ## The migration advisor (08 R259, R260) -/

/-- A page that the advisor of a quarter counted, by its number, with what it has counted. -/
structure PageCount where
  quarter : Nat
  page : Nat
  stat : PageStat

/-- The pages counted in the present epoch. -/
def Job.counted (j : Job) : List PageCount := j.pages.map fun x => { quarter := x.1 / 2 ^ 40, page := x.1 % 2 ^ 40, stat := x.2 }

/-- Whether a page lies in the near tier on the quarter's own stacks (08 R259), as its first byte does (log 60); none where it
does not translate. -/
def State.pageNear (s : State) (q page : Nat) : Option Bool :=
  match s.walkVa (page * 65536) with
  | .leaf _ l =>
    match s.pt.home (leafAddr l (page * 65536)) with
    | .hbm k => some (k / 2 ^ 30 / 64 / 4 == q)
    | _ => some false
  | _ => none

/-- Whether a page contains a byte of a static segment: the advisor leaves such a page alone (08 R257). -/
def State.pageStatic (s : State) (page : Nat) : Bool :=
  match s.walkVa (page * 65536) with
  | .leaf _ l =>
    (List.range 128).any fun i =>
      match s.pt.home (leafAddr l (page * 65536) + 512 * i) with
      | .hbm k => s.pt.segLine k
      | _ => false
  | _ => false

/-- The advice for a page (08 R259): 0 migrate, 1 replicate, 2 map remotely. A store that has reached any part of it counts, and
so does every quarter that has asked for a fill of it. -/
def State.advise (s : State) (free depth : Nat) (all : List PageCount) (c : PageCount) : Option Nat :=
  let x := s.pt.place
  match s.pageNear c.quarter c.page with
  | some false =>
    if s.pageStatic c.page then none
    else
    let same := all.filter fun y => y.page == c.page
    let store := same.any fun y => y.stat.store
    let quarters := ((List.range 4).filter fun q => same.any fun y => y.stat.askers.getLsbD q).length
    if store = true ∧ x.fmin ≤ free ∧ x.qlow ≤ depth then some 0
    else if store = false ∧ 2 ≤ quarters ∧ x.fmin ≤ free then some 1
    else if free < x.fmin ∨ depth < x.qlow then some 2
    else none
  | _ => none

/-- The 8 bytes at a virtual address of the current job, where they translate. -/
def State.vaWord (s : State) (va : Nat) : Option Nat :=
  match s.walkVa va with
  | .leaf _ l => some (s.paWord (leafAddr l va)).toNat
  | _ => none

/-- An item reserved and published in a ring of 32-byte or larger slots, as RRSV and RPUB do, by the producer of index
`pidx` (08 R260, 13 R384); none when the reservation fails. -/
def State.ringItem (s : State) (va pidx : Nat) (item : List Byte) : Option State :=
  match s.walkVa va with
  | .leaf a l =>
    let pa := leafAddr l va
    let inHbm := match s.pt.home pa with | .hbm _ => true | _ => false
    let r := RingRec.read (ofBytes (s.paBytes pa 64))
    let h : Word := BitVec.ofNat 64 (2 ^ 63 + 2 ^ 62 + pidx * 2 ^ 56)
    if (ringFault h inHbm r (.rrsv 1#64)).isSome || !r.fits 1 then none
    else
      let t := r.resv
      let r1 := ({ r with resv := r.resv + 1 } : RingRec)
      let base := ofBytes (s.paBytes pa 8)
      match s.vaPuts (base + t % r.nslot * r.slotsz) item with
      | none => none
      | some s1 =>
        let r2 := ((r1.publish t 1).settle 128).closeCheck
        some ((((s1.markLeaf a l (leafMarked true l)).paPuts (leafNC l) (pa + 14) r2.stat1).paPuts (leafNC l) (pa + 20) r2.tail).noteStore
          va pa)
  | _ => none

/-- One advice item published, or dropped and counted: each quarter's advisor counts what it drops (08 R260). -/
def State.publishAdvice (epoch : Nat) (s : State) (x : PageCount × Nat) : State :=
  let c := x.1
  let item := toBytes 8 (c.page * 65536) ++ toBytes 1 x.2 ++ toBytes 1 c.quarter ++ toBytes 2 0 ++ toBytes 4 c.stat.fills
    ++ toBytes 8 epoch ++ toBytes 8 (SMap.get s.job.advDrop c.quarter)
  match s.ringItem s.pt.place.advring 31 item with
  | some t => t.onJob fun j => { j with advDrop := SMap.set j.advDrop c.quarter 0 }
  | none => s.onJob fun j => { j with advDrop := SMap.set j.advDrop c.quarter (Nat.min (SMap.get j.advDrop c.quarter + 1) (2 ^ 64 - 1)) }

/-- ADVISOR_EPOCH_END (08 R259, R260): every page with enough fills is judged, at the mean queue depth given. FREE is a free value
where its address does not translate (log 60). -/
def execAdvisorEpochEnd (depth : Nat) (s : State) : Out :=
  let x := s.pt.place
  let all := s.job.counted
  let free := (s.vaWord x.freeaddr).getD (Config.freeWord s.free).toNat
  .next (
    if s.pt.cur.isNone || x.advring = 0 || s.pt.det then s
    else
      let items := (all.filter fun c => decide (x.thr ≤ c.stat.fills)).filterMap fun c => (s.advise free depth all c).map fun a => (c, a)
      (items.foldl (State.publishAdvice s.job.advEpoch) s.draw).onJob fun j => { j with pages := [], advEpoch := j.advEpoch + 1 })

/-! ## The scrubber and the sampler -/

/-- PATROL_SCRUB (08 R261): an HBM sector of the partition is read, and written back where it was corrected. The corrected
sector is what the memory holds. -/
def execPatrolScrub (sector : Nat) (corrected : Option (BitVec 512)) (s : State) : Out :=
  let mine := s.pt.il.getLsbD (sector / 2 ^ 24 / 64) && decide (sector < 2 ^ 34)
  .next (
    if !mine then s
    else
      let t := if corrected = some (s.memSector sector) then s.memPut sector (s.memSector sector) else s
      t.onJob fun j => { j with patrol := sector + 1 })

/-- TRACE_SAMPLE (14 R398): every core and tile writes one record for each counter selected. -/
def execTraceSample (s : State) : Out :=
  let t := s.job.trace
  let core := fun (s : State) (x : Nat × Core) =>
    (List.range 8).foldl (fun s b =>
      if t.csel.getLsbD b then
        s.traceOut t.samples (traceRecord 5 b (gctx x.1 0) 0 (x.2.ctx 0).steps s.job.dc (SMap.get x.2.counters b).toNat)
      else s) s
  let tile := fun (s : State) (x : Nat × Tile) =>
    (List.range 8).foldl (fun s b =>
      if t.csel.getLsbD (8 + b) then
        s.traceOut t.samples (traceRecord 5 (8 + b) x.1 0 x.2.superstep (s.job.scyc x.1) (SMap.get x.2.counters b).toNat)
      else s) s
  .next (
    if !t.on || s.pt.cur.isNone || t.period = 0 || decide (s.job.dc < t.next) then s
    else
      (s.job.tiles.foldl tile (s.job.cores.foldl core s)).onJob fun j =>
        { j with trace := { j.trace with next := t.next + 1024 * t.period } })

end Sys2Proof.Machine
end

