-- ==== Sys2Proof/Machine/System.lean ====
section
/-!
DEFINITION. The dynamic plane between issues: the performing of accesses (09 R275; 04 R136, R145-R148; 05 R154), instruction
fills (05 R150), walks and TLB acknowledgements (08 R251-R254; 12 R360, R361), context switches (10 R314-R316), deliveries
(12 R341-R343), the service path (R346) and the pre-emption of one core (R354, R355).
-/

namespace Sys2Proof.Machine

/-! ## EXIT (05 R154) -/

/-- The mailbox entries of an exited context leave: those of kind 0 from a context go back to their senders, and no longer
count as received here (log 30); what is discarded before the mailbox took it counts at this core (05 R158). -/
def State.exitMail (k : Nat) (s : State) : State :=
  let c := s.cr
  let mine := fun (e : MEntry) => e.dst == k
  let back := fun (e : MEntry) => e.kind == 0#4 && e.peer != 0xFFF#12
  let gone := (c.mbox ++ c.spill ++ c.netif).filter fun e => mine e && back e
  let counted := (c.mbox.filter fun e => mine e && back e).length
  let lost := ((c.spill ++ c.netif).filter fun e => mine e && !back e && e.counts).length
  let keep := fun (l : List MEntry) => l.filter fun e => !mine e
  let t := s.onCr fun c =>
    { c with
      mbox := keep c.mbox, spill := keep c.spill, netif := keep c.netif
      rcvd := c.rcvd - BitVec.ofNat 64 counted + BitVec.ofNat 64 lost }
  let u := gone.foldl (fun s e =>
    s.sendMsg { src := s.me, dst := e.peer.toNat, kind := 0#4, seq := e.seq, lo := e.lo, hi := e.hi, returned := true }) t
  u.settle s.focus.core

/-- Whether a pending EXIT may complete: the stores, posts, messages and copies of the context have reached their homes. A copy
that suspends after step 1 of EXIT has passed gets no answer of itself, so the EXIT stays pending with it: DESIGN CHOICE,
log 79. -/
def State.exitReady (s : State) : Bool :=
  s.cr.storesDone s.focus.ctx && (s.job.posts.all fun p => p.src != s.writer)
    && (s.job.msgs.all fun m => m.returned || m.src != s.me) && s.job.copiesDone s.focus.core s.focus.ctx
    && !(s.hm.reqs.any fun o => o.core == s.focus.core && o.ctx == s.focus.ctx)

/-- EXIT completes (05 R154, steps 3 to 5). An arrival of the context that is still outstanding at a step group stays with its
number, as capabilities do, for a helper started there later (DESIGN CHOICE, log 115). -/
def State.exitDone (s : State) : State :=
  if !s.exitReady then s
  else
    (s.exitMail s.focus.ctx).onCx fun c =>
      { c with strmAct := 0#16, strms := [], held := [], state := .free, wait := .none, inupc := false, undo := none }

/-! ## ACCESS_PERFORMED (09 R275) -/

/-- FENCE completes once its order holds (04 R147, 09 R281). -/
def State.fenceDone (ord : MemOrd) (sc : Scope) (s : State) : State :=
  if MemOrd.releases ord && !s.released s.focus.ctx sc then s
  else
    let t := if MemOrd.releases ord then s.flushFor sc else s
    (t.onCr (Core.acquire s.focus.ctx (acqScope ord sc))).complete

/-- One covered sector of a DISCARD or FLUSH at its home slice (08 R272): each is an event of its own, in no order among them,
and the last completes the instruction. -/
def State.sweepStep (discard : Bool) (l : List Nat) (n : Nat) (s : State) : State :=
  match l[n % l.length]? with
  | none => s.complete
  | some pa =>
    let t := s.sweepOne discard pa
    let rest := l.eraseIdx (n % l.length)
    if rest = [] then t.complete else t.onCx fun c => { c with wait := .pend (.sweep discard rest) }

/-- Whether a context may have a pending instruction performed: it has yielded, or holds the core with an access to own local
memory under way (09 R275); a debugger may have stopped it meanwhile (14 R389). -/
def Ctx.performs (c : Ctx) : Bool := c.state != .free && c.state != .swapped

/-- The pending instruction of the context in focus is performed, part `n` of it where it has parts. -/
def State.performPend (p : Pend) (n : Nat) (s : State) : State :=
  match p with
  | .load a f dReg d acq => s.loadPart a f dReg d acq n
  | .store t =>
    match s.cr.sq.find? fun e => e.ticket == t with
    | some e => s.storePart e n
    | none => s
  | .amo a op v d ord sc => s.rmw a (fun m => some (amoNew op a.len m v)) d ord sc
  | .cas a cmp new d ord sc => s.rmw a (casNew a.len cmp new) d ord sc
  | .sweep discard l => s.sweepStep discard l n
  | .fence ord sc => s.fenceDone ord sc
  | .ring st h d a => s.ringPerform st h d a
  | .smode x h b => s.smodeDone x h b
  | .handoff d dst k => s.handoff d dst k
  | .sysr d cw tile => s.sysrPerform d cw tile
  | .sysw v cw tile => s.syswPerform v cw tile
  | .tlbi _ _ _ _ => s
  | .exit => s.exitDone

/-- ACCESS_PERFORMED (09 R275): on the core in focus, n mod 32 names what is performed: 0 to 15 the pending instruction of
that context, 16 to 31 the store-queue entry n − 16; n / 32 names the part of it. An idle RWAIT looks again when its
record has been woken (05 R163). -/
def execAccessPerformed (n : Nat) (s : State) : Out :=
  .next (
    if n % 32 < 16 then
      let t : State := { s with focus := { s.focus with ctx := n % 32 } }
      match t.cx.wait with
      | .pend p => if t.cx.performs then t.performPend p (n / 32) else s
      | _ => s
    else
      match s.cr.sq[n % 32 - 16]? with
      | some e => ({ s with focus := { s.focus with ctx := e.ctx } } : State).storePart e (n / 32)
      | none => s)

/-! ## Instruction fills (05 R150, 08 R251) -/

/-- A line put into an instruction cache that holds at most 512 lines (08 R246); which one a full cache gives up is not
architectural. -/
def Core.icachePut (victim l : Nat) (c : Core) : Core :=
  let keep := c.icache.filter fun x => x != l
  { c with icache := (if l1Size ≤ keep.length then keep.eraseIdx (victim % keep.length) else keep) ++ [l] }

/-- ICACHE_FILL_COMPLETE (05 R150): the line that the context in focus waits for is fetched, or its fault is taken. A context
parked when a stop reached its core stays parked (12 R350). -/
def execIcacheFillComplete (s : State) : Out :=
  .next (
    match s.cx.wait, s.pt.current with
    | .line l, some r =>
      let va := r.image + 64 * l
      if s.cr.stopped then s
      else
      match s.range .fetch va 64 with
      | .ok pa _ _ t =>
        if t.pt.poisoned (t.pt.home pa) then t.fault 0x18#8 (t.poisonDetail (t.pt.home pa)) 0#64
        else (((t.draw.noteFill va pa).onCr (Core.icachePut (Config.freeTag t.free) l)).onCx Ctx.wake)
      | .trans d => s.transFault d (BitVec.ofNat 64 va) true
      | .perm d => s.fault 0x09#8 d (BitVec.ofNat 64 va)
      | .broken x d => s.gangStop (.ctx s.me) 0x18#8 d 0#8 (BitVec.ofNat 64 x)
    | _, _ => s)

/-! ## Walks and TLBs (08 R251-R254; 12 R360, R361) -/

/-- PAGE_WALK (08 R251, R253): the walker of the core in focus translates an address and loads the TLBs. A fault that it
meets belongs to the access that needs the walk, and an uncorrectable entry stops the partition. -/
def execPageWalk (va : BitVec 56) (store : Bool) (s : State) : Out :=
  let a := va.toNat
  .next (
    match s.walkHeld a with
    | (.trans _, _) => s
    | (.broken d, _) => s.gangStop (.ctx s.me) 0x18#8 d 0#8 (va.setWidth 64)
    | (.leaf at_ l, ptrs) => s.loadTlb a false store at_ l ptrs)

/-- Whether a TLB entry matches a TLBI's range, whatever its slot (12 R360). -/
def TlbEnt.hit (e : TlbEnt) (lo hi : Nat) : Bool :=
  if e.large then decide (lo / 2 ^ 25 ≤ e.page / 512) && decide (e.page / 512 ≤ hi / 2 ^ 25)
  else decide (lo / 2 ^ 16 ≤ e.page) && decide (e.page ≤ hi / 2 ^ 16)

/-- Whether an access may have been translated through an entry that matches a range: it is taken as such when it lies in
the same 32 MiB pages. -/
def Acc.within (a : Acc) (lo hi : Nat) : Bool :=
  decide (lo / 2 ^ 25 ≤ (a.va + a.len) / 2 ^ 25) && decide (a.va / 2 ^ 25 ≤ hi / 2 ^ 25)

/-- The access of a pending instruction, when it has one. -/
def Pend.acc : Pend → Option Acc
  | .load a _ _ _ _ => some a
  | .amo a _ _ _ _ _ => some a
  | .cas a _ _ _ _ _ => some a
  | .ring _ _ _ a => some a
  | _ => none

/-- Whether core `c` has an access of the range outstanding (12 R361). A ring instruction that its record has made wait has
none: it translates again when it looks again. -/
def Job.outstanding (j : Job) (c lo hi : Nat) : Bool :=
  ((j.core c).sq.any fun e => e.acc.within lo hi)
    || (j.core c).ctxs.any fun x =>
      match x.2.wait with
      | .pend (.sweep _ _) => true
      | .pend p => !p.idle && match p.acc with | some a => a.within lo hi | none => false
      | _ => false

/-- Whether TLB `n` still has an access of the range to wait for (12 R361). -/
def Part.tlbBusy (p : Part) (n lo hi : Nat) : Bool :=
  if n < 2 * p.coreCount then n % 2 == 1 && p.job.outstanding (n / 2) lo hi
  else (List.range 8).any fun i => p.job.outstanding (8 * (n - 2 * p.coreCount) + i) lo hi

/-- Whether a table-pointer entry lies on the path to a page of a range (08 R254). -/
def PtrEnt.hit (e : PtrEnt) (lo hi : Nat) : Bool :=
  decide (lo / 2 ^ (46 - 10 * e.level) ≤ e.path) && decide (e.path ≤ hi / 2 ^ (46 - 10 * e.level))

/-- The entries of TLB `n` that match a range removed, those of both resident jobs (12 R360); a hamlet's with the table pointers
on the path to the range. -/
def State.tlbDrop (n lo hi : Nat) (s : State) : State :=
  s.onPt fun p =>
    let q := p.onTlb n fun l => l.filter fun e => !e.hit lo hi
    if n < 2 * p.coreCount then q else q.onPtrs (n - 2 * p.coreCount) fun l => l.filter fun e => !e.hit lo hi

/-- TLB_ACKNOWLEDGE (12 R360, R361): TLB number `focus.tile` acknowledges the TLBI of the context in focus once its entries
are gone and the accesses through them performed; the TLBI completes with the last acknowledgement. -/
def execTlbAcknowledge (s : State) : Out :=
  let n := s.focus.tile
  .next (
    match s.cx.wait with
    | .pend (.tlbi k lo hi acked) =>
      if s.pt.tlbCount ≤ n ∨ acked.contains n = true ∨ s.pt.tlbBusy n lo hi = true then s
      else
        let t := s.tlbDrop n lo hi
        if acked.length + 1 = s.pt.tlbCount then t.complete
        else t.onCx fun c => { c with wait := .pend (.tlbi k lo hi (acked ++ [n])) }
    | _ => s)

/-! ## Switching contexts (10 R314-R316) -/

/-- Whether a context may take the core: ready, with nothing left in flight by a debug stop (14 R393), or in a handler that has
begun (05 R180, 12 R344). -/
def Ctx.runnable (c : Ctx) : Bool := c.state == .ready && !c.wait.inFlight || c.state == .upcall || c.state == .running

/-- The first context that may run after the former one, in ring order (10 R315). -/
def Core.pick (c : Core) : Option Nat :=
  ((List.range 11).map fun i => (c.last + 1 + i) % 11).find? fun k => (c.ctx k).runnable

/-- A context takes the core (10 R314): STATE 2, or 4 within its upcall handler. -/
def Ctx.take (c : Ctx) : Ctx := { c with state := if c.inupc && c.sys.isNone then .upcall else .running }

/-- CONTEXT_SWITCH (10 R315): the switch cycle of the core in focus ends with the next context in ring order. -/
def execContextSwitch (s : State) : Out :=
  .next (
    if s.cr.running.isSome || s.cr.preempted || s.cr.stopped then s
    else
      match s.cr.pick with
      | some k => s.onCr fun c => Core.onCtx { c with running := some k, switching := false, count := 0 } k Ctx.take
      | none => s.onCr fun c => { c with switching := false })

/-- FORCED_SWITCH (10 R316): the running context of the core in focus has issued 256 instructions and gives it up. -/
def execForcedSwitch (s : State) : Out :=
  .next (
    match s.cr.running with
    | some k =>
      if s.cr.count < 256 then s
      else
        s.onCr fun c =>
          (c.release k).onCtx k fun x => { x with state := if x.state = .running ∨ x.state = .upcall then .ready else x.state }
    | none => s)

/-! ## Deliveries (12 R341) -/

/-- The causes that are delivered precisely to the system handler (12 R341). -/
def preciseCause (c : BitVec 8) : Bool :=
  [0x01#8, 0x02#8, 0x03#8, 0x04#8, 0x09#8, 0x0A#8, 0x0B#8, 0x0C#8, 0x0D#8, 0x10#8, 0x11#8, 0x13#8, 0x18#8].contains c

/-- Whether the context in focus is the running context of its core, and no resident handler has taken the core: a delivery
waits until that ends (12 R343, R354). -/
def State.isRunning (s : State) : Bool :=
  s.cr.running == some s.focus.ctx && s.cx.runnable && !s.cr.stopped && !s.cr.preempted

/-- TRAP_DELIVERY (12 R341): a precise fault of the running context in focus writes its record and enters the system
handler. A meaning that finds a fault makes this delivery within its own step; as a step of its own it is what the agenda
names (log 37). -/
def execTrapDelivery (cause detail : BitVec 8) (f1 : BitVec 64) (s : State) : Out :=
  .next (if s.isRunning && preciseCause cause then s.fault cause detail f1 else s)

/-- UPCALL (05 R180, 12 R341): the running context in focus takes a translation fault that the tables give at the address,
a window fault at a Mere byte that no window opens, or its oldest copy fault, at UPV. -/
def execUpcall (cause : BitVec 8) (f1 : BitVec 64) (s : State) : Out :=
  .next (
    if !s.isRunning || !s.cx.upcalls then s
    else if cause = 0x08#8 then
      match s.walkVa (ptrAddr f1) with
      | .trans d => s.transFault d f1 false
      | _ => s
    else if cause = 0x0B#8 then
      match s.range .load (ptrAddr f1) 1 with
      | .ok pa _ _ t =>
        match t.pt.home pa with
        | .mere tile o => if (t.job.tile tile).openByte o then s else t.windowFault f1
        | _ => s
      | _ => s
    else if cause = 0x12#8 then
      match s.cx.held with
      | f :: r => (s.onCx fun c => { c with held := r }).copyFault f
      | [] => s
    else s)

/-! ## Pre-emption of one core (12 R354, R355) -/

/-- The registers that the resident handler saves return to their context (12 R354). -/
def Ctx.restored (saved c : Ctx) : Ctx :=
  { c with g := saved.g, d := saved.d, pc := saved.pc, pcBad := saved.pcBad, upen := saved.upen, prio := saved.prio
           inupc := saved.inupc, frec0 := saved.frec0, frec1 := saved.frec1, frec2 := saved.frec2, frec3 := saved.frec3 }

/-- A resident handler takes a core at an instruction boundary, with its running context saved. What waits in the network
interface has met a full mailbox and is spilled, ahead of what arrives later (12 R354, R355; 01 R32). -/
def Core.preempt (c : Core) : Core :=
  { c with preempted := true, save := c.running.map fun k => (k, c.ctx k), spill := c.spill ++ c.netif, netif := [] }

/-- The resident handler of core `c` ends: the context is restored with its forced-switch count at zero, and spilled messages
enter the mailbox (12 R354, R355). -/
def State.unpreempt (c : Nat) (s : State) : State :=
  (s.onCoreAt c fun x =>
    let d := { x with preempted := false, save := none, count := 0 }
    match x.save with
    | some (k, y) => d.onCtx k (Ctx.restored y)
    | none => d).settle c

/-- Whether the running context of a core stands at an instruction boundary: a load of own local memory that is made in parts
may be under way (09 R275). -/
def Core.atBoundary (c : Core) : Bool :=
  match c.running with
  | some k => !(c.ctx k).wait.inFlight
  | none => true

/-- PREEMPT (12 R354, R355): a resident handler takes the core in focus, or ends. One that the service context runs ends with
its work (12 R346). -/
def execPreempt (leave : Bool) (s : State) : Out :=
  .next (
    if leave then
      if !s.cr.preempted || s.hm.serving && s.focus.core % 8 == 0 then s else s.unpreempt s.focus.core
    else if s.cr.preempted || !s.cr.atBoundary then s
    else s.onCr Core.preempt)

/-! ## The service path (12 R346) -/

/-- Whether some access of the partition through a range is outstanding. -/
def Part.anyBusy (p : Part) (lo hi : Nat) : Bool := (List.range p.coreCount).any fun c => p.job.outstanding c lo hi

/-- The range of a service outcome's invalidation; a range that TLBI would refuse removes nothing. -/
def svcRange (x : TlbK × BitVec 64 × BitVec 64) : Option (Nat × Nat) := tlbiRange x.1 x.2.1 x.2.2

/-- Core 0 of the hamlet in focus, which its service context pre-empts. -/
def State.svcCore (s : State) : Nat := 8 * hamletOf s.focus.core

/-- The service context corrects a record as its outcome says: it writes the tables and invalidates the translations named,
and sends the notice; with no record left it gives core 0 back. -/
def State.serve (o : SvcOutcome) (ranges : List (Nat × Nat)) (r : SvcRec) (s : State) : State :=
  let t := o.writes.foldl (fun s w => s.paPuts false w.1 (toBytes 8 w.2.toNat)) s
  let u := ranges.foldl (fun s x => (List.range s.pt.tlbCount).foldl (fun s n => s.tlbDrop n x.1 x.2) s) t
  let v := u.noticeSent (gctx r.core r.ctx) (r.tag.setWidth 64) 0#64
  if v.hm.svc.all fun x => x.done then (v.onHm fun h => { h with serving := false }).unpreempt s.svcCore else v

/-- SERVICE_PATH (12 R346): the service context of the hamlet in focus pre-empts core 0, and then takes the oldest fault
record: it corrects it, or stops the partition. It waits for the accesses that an invalidation waits for (12 R361), and for
another resident handler of the core. A stop that has reached the core stops it too (R350). -/
def execServicePath (o : SvcOutcome) (s : State) : Out :=
  .next (
    match s.hm.svc.find? fun r => !r.done with
    | none => s
    | some r =>
      if (s.coreAt s.svcCore).stopped then s else
      let ranges := o.tlbi.filterMap svcRange
      if !s.hm.serving then
        if (s.coreAt s.svcCore).preempted || !(s.coreAt s.svcCore).atBoundary then s
        else (s.onCoreAt s.svcCore Core.preempt).onHm fun h => { h with serving := true }
      else if !o.corrected then s.gangStop (.ctx (gctx r.core r.ctx)) 0x08#8 r.detail 0#8 r.va
      else if ranges.any fun x => s.pt.anyBusy x.1 x.2 then s
      else s.serve o ranges r)

end Sys2Proof.Machine
end

