-- ==== Sys2Proof/Machine/Stop.lean ====
section
/-!
DEFINITION. The end of a gang stop (12 R348-R353, R359): the halt tree, the partial-work report and the place it is written
to (13 R372), and the watchdog.
-/

namespace Sys2Proof.Machine

/-! ## The halt tree (12 R348, R350) -/

/-- HALT_TREE_ARRIVAL (12 R348, R350): the stop in force reaches the core in focus, which issues no further instruction. -/
def execHaltTreeArrival (s : State) : Out :=
  .next (if s.job.stop.isSome then s.onCr fun c => { c with stopped := true } else s)

/-! ## The partial-work report (12 R352, R353) -/

/-- OKIND of an origin (12 R352). -/
def Origin.kind : Origin → Nat
  | .tile _ => 0
  | .sluice _ => 1
  | .causeway _ => 2
  | .ctx _ => 3
  | .steward => 4
  | .core _ => 5
/-- OID of an origin. -/
def Origin.id : Origin → Nat
  | .tile t => t
  | .sluice p => p
  | .causeway l => l
  | .ctx c => c
  | .steward => 0
  | .core c => c

/-- The next instruction of a chain, as line·8 + slot; all ones for an ended chain. -/
def Chain.next (c : Chain) : Nat := if c.live then 8 * c.line + c.slot else 0xFFFFFFFF

/-- Bytes of zero. -/
def zeros (n : Nat) : List Byte := List.replicate n 0#8

/-- A tile entry (12 R353). -/
def Job.tileEntry (j : Job) (o : Origin) (t : Nat) (x : Tile) : List Byte :=
  let f := x.failed.getD (0, 0, 0)
  let stop := match (j.node t).stop with | some y => y.1 | none => j.scyc t
  let chain := fun (e : Nat) => if x.chains.any fun y => y.1 == e then (SMap.get x.chains e).next else 0xFFFFFFFF
  toBytes 2 t ++ toBytes 1 ((if o = .tile t then 1 else 0) + (if x.failed.isSome then 2 else 0)) ++ zeros 5 ++ toBytes 8 stop
    ++ toBytes 8 x.tstat.toNat ++ toBytes 8 x.superstep ++ ([1, 2, 3, 4].flatMap fun e => toBytes 4 (chain e))
    ++ toBytes 4 f.1 ++ toBytes 1 (f.2.1 / 16) ++ toBytes 1 (f.2.1 % 16) ++ toBytes 1 f.2.2 ++ zeros 1 ++ toBytes 8 x.sweepsDone

/-- Where a context goes on when it next issues (12 R353): in the system handler, where ERET leaves it (12 R344). -/
def Ctx.resumePoint (x : Ctx) : BitVec 29 := if x.sys.isSome then x.frec0.extractLsb' 35 29 else x.pc

/-- A context entry (12 R353). -/
def ctxEntry (o : Origin) (core : Core) (g : Nat) (x : Ctx) : List Byte :=
  toBytes 2 g ++ toBytes 1 (CtxState.code x.state) ++ toBytes 1 (if o = .ctx g then 1 else 0) ++ toBytes 4 x.resumePoint.toNat
    ++ toBytes 8 x.steps ++ toBytes 8 core.sent.toNat ++ toBytes 8 core.rcvd.toNat

/-- A copy entry (12 R353). -/
def copyEntry (id : Nat) (o : CopyOp) : List Byte :=
  let flags := match o.susp with
    | some h => 1 + (if h.detail.getLsbD 6 then 2 else 0) + (if h.detail.getLsbD 7 then 128 else 0)
    | none => 0
  let l := match o.susp with | some h => o.side h | none => o.dlay
  toBytes 2 (gctx o.core o.ctx) ++ toBytes 1 id ++ toBytes 1 o.kind.num ++ toBytes 1 flags ++ zeros 3 ++ toBytes 4 o.applied
    ++ toBytes 4 o.skipped ++ (List.range 4).flatMap fun k => toBytes 4 (((l.coords o.next)[k]?).getD 0)

/-- A step entry (12 R353). -/
def stepEntry (g : Nat) (x : Group) : List Byte := toBytes 1 g ++ zeros 1 ++ toBytes 2 x.arr ++ zeros 4 ++ toBytes 8 x.count

/-- A group as the report shows it (12 R353): a completion that a collision on a member tile has ended counts as not made, with
every arrival. -/
def Job.reportedGroup (j : Job) (n : Nat) (g : Group) : Group :=
  let hit := j.collisions.any fun x => !x.1 && g.tiles.contains x.2.1 && rgGroup (SMap.get (j.tile x.2.1).stepped.tab x.2.2.1) == n
  if hit && decide (g.arr < g.nmem) then
    { g with count := g.count - 1, arrTiles := g.tiles, arrCtxs := g.ctxs, arrGangs := g.gangs }
  else g

/-- Whole numbers put in order. -/
def insertNat (n : Nat) : List Nat → List Nat
  | [] => [n]
  | x :: r => if n ≤ x then n :: x :: r else x :: insertNat n r

/-- A collision entry (12 R353). -/
def collEntry (x : Bool × Nat × Nat × Nat × List Nat) : List Byte :=
  let ws := x.2.2.2.2.foldr insertNat []
  toBytes 2 (x.2.1 + if x.1 then 0x8000 else 0) ++ toBytes 1 x.2.2.1 ++ toBytes 1 (Nat.min ws.length 255) ++ toBytes 4 x.2.2.2.1
    ++ ((List.range 8).flatMap fun i => toBytes 2 ((ws[i]?).getD 0xFFFF)) ++ zeros 8

/-- The sections of a report, each as its entries. -/
def Job.sections (j : Job) (o : Origin) : List (List (List Byte)) :=
  [ (j.tiles.filter fun x => x.2.named).map fun x => j.tileEntry o x.1 x.2,
    j.cores.flatMap fun c => (c.2.ctxs.filter fun x => x.2.state != .free && decide (x.1 < 11)).map fun x => ctxEntry o c.2 (gctx c.1 x.1) x.2,
    j.hamlets.flatMap fun h => h.2.ops.filterMap fun x => x.2.map fun y => copyEntry x.1 y,
    (j.groups.filter fun g => decide (0 < g.2.nmem)).map fun g => stepEntry g.1 (j.reportedGroup g.1 g.2),
    j.collisions.map collEntry ]

/-- The header (12 R352), with the counts of the sections. -/
def reportHeader (g : GangStop) (l : List (List (List Byte))) (trunc : Bool) : List Byte :=
  toBytes 1 g.cause.toNat ++ toBytes 1 g.detail.toNat ++ toBytes 1 g.origin.kind ++ toBytes 1 g.cause2.toNat ++ toBytes 4 g.origin.id
    ++ toBytes 8 g.tb ++ toBytes 8 g.aux.toNat ++ (l.flatMap fun x => toBytes 4 x.length) ++ toBytes 1 (if trunc then 1 else 0)
    ++ zeros 19

/-- The entries that fit in a number of bytes, whole, from the first on. -/
def fitting : Nat → List (List Byte) → List Byte
  | _, [] => []
  | n, e :: r => if e.length ≤ n then e ++ fitting (n - e.length) r else []

/-- The report in at most n bytes: the full counts stand in the header, and TRUNC tells that entries are missing (13 R372). -/
def Job.report (j : Job) (g : GangStop) (n : Nat) : List Byte :=
  let l := j.sections g.origin
  let all := l.flatten
  let body := fitting (n - 64) all
  reportHeader g l (body.length != all.flatten.length) ++ body

/-- Bytes stored at virtual addresses of the current job, with the poison of the sectors that they cover cleared (08
R261); none where a byte does not translate. -/
def State.vaStore (s : State) (va : Nat) (l : List Byte) : Option State :=
  (s.vaPuts va l).map fun t =>
    (List.range (l.length / 64)).foldl (fun (t : State) i =>
      match t.walkVa (va + 64 * i) with
      | .leaf _ x => if va % 64 = 0 then t.unpoison (leafAddr x (va + 64 * i)) 64 else t
      | _ => t) t

/-- Whether the page of a virtual address is mapped writable in the near tier (13 R372). -/
def State.nearWritable (s : State) (va : Nat) : Option Nat :=
  match s.walkVa va with
  | .leaf _ l =>
    match s.pt.home (leafAddr l va) with
    | .hbm _ => if leafW l && !leafP l then some (leafAddr l va) else none
    | _ => none
  | _ => none

/-- The bytes of the report buffer up to its end or to the first 4 KiB that cannot be written. -/
def State.bufferLen (s : State) (va : Nat) : Nat → Nat → Nat
  | 0, n => n
  | fuel + 1, n => if va + n < 2 ^ 56 ∧ (s.nearWritable (va + n)).isSome = true then State.bufferLen s va fuel (n + 4096) else n

/-- The report written into the buffer of the placement record (13 R372), with its physical address, or zero. -/
def State.writeReport (g : GangStop) (s : State) : State × Nat :=
  let x := s.pt.place
  let n := s.bufferLen x.repva x.replen 0
  if n = 0 then (s, 0)
  else
    match s.vaStore x.repva (s.job.report g n) with
    | some t => (t, (s.nearWritable x.repva).getD 0)
    | none => (s, 0)

/-- The launch of the current job ends with a report. -/
def State.endReported (g : GangStop) (status : Nat) (s : State) : State :=
  let r := s.writeReport g
  r.1.endCurrent { status := status, cause := g.cause.toNat, detail := g.detail.toNat, report := r.2 }

/-- PARTIAL_WORK_REPORT (12 R350, R351): once a fatal stop has reached every node and core, and everything begun is
performed, the report and the completion record are written. Under a QUIESCE with FORCE the job completes ABORTED, one that a fault
had stopped too (10 R301, 13 R375). -/
def execPartialWorkReport (s : State) : Out :=
  .next (
    match s.job.stop with
    | none => s
    | some g =>
      if !(g.fatal || s.pt.aborting) || s.pt.cur.isNone || !s.pt.allStopped || !s.job.drained true then s
      else s.endReported g (if s.pt.aborting then stAborted else stFault))

/-! ## The watchdog (12 R359) -/

/-- The origin that a node is. -/
def originOf (n : Nat) : Origin :=
  if n < 1000 then .tile n else if n < 3000 then .sluice (n - 1000) else .causeway (n - 3000)

/-- The node whose continuous-hold count has reached the limit: the largest count, and of equals the lowest node. -/
def Job.hung (j : Job) : Option Nat :=
  ((j.nodes.filter fun n => decide (2 ^ 24 ≤ n.2.cont) && n.2.stop.isNone).foldl (fun (m : Option (Nat × Nat)) n =>
    match m with
    | none => some (n.1, n.2.cont)
    | some y => if y.2 < n.2.cont then some (n.1, n.2.cont) else m) none).map Prod.fst

/-- A partition reset (12 R359): tiles and cores, with their TLBs, return to the power-on state of 01 R44; HBM, with what the granary
holds for it, the journal, the shadow banks, the partition's shape and standing, and its host-queue registers stay (log 69). -/
def State.partitionReset (s : State) : State :=
  s.onPt fun p =>
    { p with
      det := false, seed := 0#64, ratio := 0#2, chain := 0#7, mere := [], loft := [], loc := [], job := default, left := [], cur := none
      switch := none, tlbs := [], ptrs := [], redo := p.aseq.toNat
      poison := p.poison.filter fun k => decide (k < 2 ^ 80) && decide (k % 4 ≤ 1) }

/-- The stop that a watchdog of a switch stage reports. -/
def watchdogStop (detail : BitVec 8) (tb : Nat) : GangStop :=
  { origin := .steward, cause := 0x1A#8, detail := detail, cause2 := 0#8, aux := 0#64, tb := tb }

/-- HANG_WATCHDOG (12 R359): a node held too long stops the partition; a switch whose stop or drain takes too long ends the
outgoing job; one whose swap takes too long resets the partition, and the job whose save was under way ends. -/
def execHangWatchdog (s : State) : Out :=
  .next (
    match s.pt.switch with
    | some w =>
      if s.job.ending then s
      else if w.stage = .swap then
        if w.toId.isNone = true ∨ w.since ≤ 16384 then s
        else
          let c := s.pt.current
          let tb := s.job.tb
          let t := (s.endEvents s.job s.pt.eventEnd).partitionReset
          let u :=
            match s.pt.cur, c with
            | some k, some r =>
              (t.onPt (Part.vacate k)).completePacket r.queue r.seq 1 r.anum
                { status := stFault, cause := 0x1A, detail := 3, tb := tb }
            | _, _ => t
          let v := u.onPt Part.callShadow
          if s.pt.chained && s.pt.cur.isSome then { v with out := v.out ++ [.left] } else v
      else if w.since ≤ 2 ^ 20 then s
      else s.endReported (watchdogStop 0x02#8 s.job.tb) stFault
    | none =>
      match s.job.stop, s.job.hung with
      | none, some n => s.gangStop (originOf n) 0x1A#8 0x01#8 0#8 0#64
      | _, _ => s)

end Sys2Proof.Machine
end

