-- ==== Sys2Proof/Machine/Links.lean ====
section
/-!
DEFINITION. Retries and failures of the die-to-die bridges and of the Causeway (11 R326, R338, R339; 12 R342, R352; 13 R364;
18 R442).
-/

namespace Sys2Proof.Machine

/-- Whether a beat or a metadata pair from another quarter is to be presented to a tile in its next tc (07 R210, R231; 11 R330; 13
R364). -/
def State.bridgeBeat (s : State) (t : Nat) : Bool :=
  (s.tileAt t).beats.any (fun b =>
    b.due == s.job.scyc t + 1 && match s.pt.toward t b.dir with | .tile _ hop => hop == 4 | _ => false)
    || (s.tileAt t).pairs.any fun q => q.due == s.job.scyc t + 1 && q.hop == 4

/-- Whether some link of a tile crosses a bridge that is open to the partition. -/
def Part.onBridge (p : Part) (t : Nat) : Bool :=
  [Dir.n, Dir.e, Dir.s, Dir.w].any fun d => match p.toward t d with | .tile _ hop => hop == 4 | _ => false

/-- A frame hold raised by a node at the end of the present tc until a flit comes `delay` tc late (11 R326, R329). -/
def State.retryHold (n delay : Nat) (s : State) : State :=
  (s.raiseHold n (some 32)).onJob fun j =>
    { j with frames := j.frames ++ [{ node := n, test := j.tb + 32 + (j.node n).owed, cond := .retry (j.tb + delay) }] }

/-- Whether a node begins its next tc after this one. -/
def Job.begins (j : Job) (n : Nat) : Bool := !(j.node n).paused && (j.node n).stop.isNone

/-- BRIDGE_FLIT_RETRY (13 R364): the flit of a timed beat or pair that the tile in focus is to be presented comes `delay` tc late. A
retried dynamic packet only arrives later. -/
def execBridgeFlitRetry (delay : Nat) (s : State) : Out :=
  let t := s.focus.tile
  .next (
    if s.pt.cur.isSome && decide (0 < delay) && decide (delay ≤ 1024) && s.job.begins t && s.bridgeBeat t then s.retryHold t delay
    else s)

/-- BRIDGE_FLIT_TIMEOUT (13 R364; 12 R352): a flit to the tile in focus has not been delivered within 1,024 tc. -/
def execBridgeFlitTimeout (s : State) : Out :=
  let t := s.focus.tile
  .next (if s.pt.cur.isSome && decide (t < s.pt.tileCount) && s.pt.onBridge t then s.gangStop (.tile t) 0x19#8 0x01#8 0#8 0#64 else s)

/-- The number of a Causeway edge (12 R352). -/
def edgeOf (west : Bool) : Nat := if west then 0 else 1

/-- CAUSEWAY_RETRY (11 R339): a flit comes late at a Causeway end in use, which raises a hold until it arrives. -/
def execCausewayRetry (west : Bool) (link : BitVec 3) (delay : Nat) (s : State) : Out :=
  let e := (edgeOf west, link.toNat)
  let n := causewayNode e.1 e.2
  .next (
    if s.pt.cur.isSome && decide (0 < delay) && decide (delay ≤ 4096) && s.job.begins n && s.pt.causeways.contains e then
      s.retryHold n delay
    else s)

/-- CAUSEWAY_RETRY_TIMEOUT (11 R339): a link failure at a Causeway end in use. -/
def execCausewayRetryTimeout (west : Bool) (link : BitVec 3) (s : State) : Out :=
  let e := (edgeOf west, link.toNat)
  .next (
    if s.pt.cur.isSome && s.pt.causeways.contains e then s.gangStop (.causeway (e.1 * 8 + e.2)) 0x19#8 0x02#8 0#8 0#64 else s)

/-- The origin of a link failure that concerns the chain as a whole: the lowest Causeway end in use (log 42). -/
def Part.chainOrigin (p : Part) : Origin :=
  match p.causeways with
  | e :: _ => .causeway (e.1 * 8 + e.2)
  | [] => .steward

/-- CAUSEWAY_LOCK_LOSS (18 R442): a package other than position 0 loses the reference it receives during a launch. -/
def execCausewayLockLoss (s : State) : Out :=
  .next (
    if s.pt.cur.isSome && s.pt.chained && s.pt.position != 0 then s.gangStop s.pt.chainOrigin 0x19#8 0x06#8 0#8 0#64 else s)

/-- The resident job that takes part in the chain while none is current: a SHADOW one that is being read back, or a READY one
whose step 4 is done. -/
def Part.chainWaits (p : Part) : Option (Nat × Resident) :=
  let back := (p.switch.bind Switch.toId).bind fun h => (SMap.get p.res h).map fun r => (h, r)
  match back.filter fun x => x.2.state == .shadow with
  | some x => some x
  | none => (p.nextReady.bind fun k => (SMap.get p.res k).map fun r => (k, r)).filter fun x => x.2.stepFour

/-- CHAIN_MEMBER_LEFT (11 R338): another member of the chain has left it: the current launch is gang-stopped, and one that
waits for its epoch, or is being read back from its bank, ends with the same cause. -/
def execChainMemberLeft (s : State) : Out :=
  .next (
    if !s.pt.chained then s
    else if s.pt.cur.isSome then s.gangStop s.pt.chainOrigin 0x19#8 0x05#8 0#8 0#64
    else
      match s.pt.chainWaits with
      | some (k, r) =>
        let t := s.onPt fun p => if r.state = .shadow then { p with switch := none } else p
        t.endWaiting { status := stFault, cause := 0x19, detail := 0x05, tile := noTile, tb := r.saved.tb } k r
      | none => s)

end Sys2Proof.Machine
end

