-- ==== Sys2Proof/Machine/UE.lean ====
section
/-!
DEFINITION. The Ultra Ethernet ports (13 R382-R384): a port as consumer of its work ring and producer of its completion and
receive rings, the work items, and what peers ask for.
-/

namespace Sys2Proof.Machine

/-! ## The bound job -/

/-- The job that holds a residency slot, current or not. -/
def Part.slotJob (p : Part) (slot : Nat) : Job :=
  if p.cur = some slot then p.job else ((SMap.get p.res slot).map Resident.saved).getD default

/-- The state with the job of a residency slot changed. -/
def State.onSlotJob (slot : Nat) (f : Job → Job) (s : State) : State :=
  if s.pt.cur = some slot then s.onJob f else s.onPt fun p => p.onRes slot fun r => { r with saved := f r.saved }

/-- Port n of the partition in focus. -/
def State.uport (s : State) (n : Nat) : Port := SMap.get s.pt.uports n
/-- The state with port n changed. -/
def State.onUport (n : Nat) (f : Port → Port) (s : State) : State := s.onPt fun p => { p with uports := upd p.uports n f }

/-- Whether a partition owns a port (13 R382). -/
def Part.ownsPort (p : Part) (n : Nat) : Bool := p.qmask.getLsbD (n / 2)

/-- The port stops for a job, named by its acceptance number (13 R383). -/
def State.stopPort (n : Nat) (r : Resident) (s : State) : State :=
  s.onUport n fun x => { x with stopped := if x.stopped.contains r.anum then x.stopped else x.stopped ++ [r.anum] }

/-- The owned regions of a resident job. -/
def Part.slotOwned (p : Part) (slot : Nat) (r : Resident) : SMap Owned :=
  if r.state = ResState.current ∨ r.state = ResState.shadow then (p.slotJob slot).owned else r.owned

/-- The place of one byte that a port reads or writes for a job, with NC; or the cause of its failure (13 R384): a
translation fault, a permission, an owned region, or an uncorrectable sector. -/
def State.portByte (s : State) (slot : Nat) (r : Resident) (write : Bool) (va : Nat) : Except (BitVec 8) (Nat × Bool) :=
  if 2 ^ 56 ≤ va then .error 0x08#8
  else
    match s.walkRoot va r.place.root with
    | .trans _ => .error 0x08#8
    | .broken _ => .error 0x18#8
    | .leaf _ l =>
      let pa := leafAddr l va
      let h := s.pt.home pa
      let place := match h with | .hbm k => !s.pt.inSegment k | .far _ => true | _ => false
      if leafP l || (if write then !leafW l else !leafR l) || !place then .error 0x09#8
      else if write && decide (r.image ≤ va) && decide (va < r.image + 64 * r.nlines) then .error 0x09#8
      else if (s.pt.slotOwned slot r).any fun o => o.2.valid && decide (o.2.base ≤ va) && decide (va < o.2.base + o.2.size) then
        .error 0x0A#8
      else if !write && s.pt.poisoned h then .error 0x18#8
      else .ok (pa, leafNC l)

/-- The places of n bytes from a virtual address, or the cause at the first byte that fails. -/
def State.portRange (s : State) (slot : Nat) (r : Resident) (write : Bool) : Nat → Nat → Except (BitVec 8) (List (Nat × Bool))
  | _, 0 => .ok []
  | va, n + 1 =>
    match s.portByte slot r write va with
    | .error e => .error e
    | .ok x =>
      match State.portRange s slot r write (va + 1) n with
      | .error e => .error e
      | .ok l => .ok (x :: l)

/-- A and D of the pages of a range set by the walks of a port (08 R253). -/
def State.portMark (r : Resident) (write : Bool) (va n : Nat) (s : State) : State :=
  ((List.range n).filter fun i => i == 0 || (va + i) % 65536 == 0).foldl (fun s i =>
    match s.walkRoot (va + i) r.place.root with
    | .leaf a l => s.markLeaf a l (leafMarked write l)
    | _ => s) s

/-- Bytes read by a port. -/
def State.portRead (slot : Nat) (r : Resident) (va n : Nat) (s : State) : Except (BitVec 8) (List Byte × State) :=
  match s.portRange slot r false va n with
  | .error e => .error e
  | .ok l => .ok (l.map fun x => s.paByte x.1, s.portMark r false va n)

/-- A store of a port notes its page for the advisor of the current job (08 R259). -/
def State.notePort (slot va pa : Nat) (s : State) : State := if s.pt.cur = some slot then s.noteStore va pa else s

/-- Bytes written by a port: a sector covered whole loses its poison (08 R261). -/
def State.portWrite (slot : Nat) (r : Resident) (va : Nat) (data : List Byte) (s : State) : Except (BitVec 8) State :=
  match s.portRange slot r true va data.length with
  | .error e => .error e
  | .ok l =>
    let t := (l.zip data).foldl (fun (s : State) x => s.paPut x.1.2 x.1.1 x.2) (s.portMark r true va data.length)
    .ok ((List.range data.length).foldl (fun (t : State) i =>
      match l[i]? with
      | some x =>
        let u := if (va + i) % 64 = 0 ∨ i = 0 then t.notePort slot (va + i) x.1 else t
        if x.1 % 64 = 0 ∧ i + 64 ≤ data.length then u.unpoison x.1 64 else u
      | none => t) t)

/-! ## Ring steps of a port (05 R161-R164; 13 R383) -/

/-- What a ring step of a port gives: the record fails 05 R162, the step must wait, or it is made with its result. -/
inductive PortStep where
  | fault (detail : BitVec 8) | wait | ok (v : Word) (s : State)

/-- The handle that a port's step goes through: the producer of an index, or the consumer (13 R383). -/
def producer (pidx : Nat) : Word := BitVec.ofNat 64 (2 ^ 63 + 2 ^ 62 + pidx * 2 ^ 56)
def consumer : Word := BitVec.ofNat 64 (2 ^ 63 + 2 ^ 61)

/-- What a ring step does to the record `x` at physical address `pa` (05 R162): a reservation that does not fit waits. -/
def State.portEffect (slot pa : Nat) (nc : Bool) (x : RingRec) (h : Word) (st : RingStep) (s : State) : PortStep :=
  match ringEffect s.pt.det (SMap.get (s.pt.slotJob slot).turns (pa / 64)) h x st with
  | .wait => .wait
  | .result v => if v = -1#64 then .wait else .ok v s
  | .write n v =>
    let t := (s.paPuts nc (pa + 14) n.stat1).paPuts nc (pa + 20) n.tail
    let turn := match st with | .rrsv _ => s.pt.det | _ => false
    .ok (v.getD 0#64) (t.onSlotJob slot fun j =>
      if turn then { j with turns := SMap.insert j.turns (pa / 64) (hPidx h + 1) } else j)

/-- A ring step on the record at physical address `pa`, reached through the leaf `l` (05 R162, R163). -/
def State.portAt (slot pa : Nat) (l h : Word) (st : RingStep) (s : State) : PortStep :=
  let home := s.pt.home pa
  let inHbm := match home with | .hbm _ => true | _ => false
  if s.pt.poisoned home || leafP l || !leafW l then .fault 1#8
  else
    let x := RingRec.read (ofBytes (s.paBytes pa 64))
    match ringFault h inHbm x st with
    | some d => .fault d
    | none => s.portEffect slot pa (leafNC l) x h st

/-- A ring step on the record at a virtual address of a job (05 R162, R163), whose leaf it leaves with A and D set (08 R253). -/
def State.portStep (slot : Nat) (r : Resident) (va : Nat) (h : Word) (st : RingStep) (s : State) : PortStep :=
  match s.walkRoot va r.place.root with
  | .leaf a l =>
    match s.portAt slot (leafAddr l va) l h st with
    | .ok v t => .ok v ((t.markLeaf a l (leafMarked true l)).notePort slot va (leafAddr l va))
    | x => x
  | _ => .fault 1#8

/-- The address of the slot of ticket t, and the bytes of a slot. -/
def State.portSlot (r : Resident) (va t : Nat) (s : State) : Nat × Nat :=
  match s.walkRoot va r.place.root with
  | .leaf _ l =>
    let pa := leafAddr l va
    let x := RingRec.read (ofBytes (s.paBytes pa 64))
    (ofBytes (s.paBytes pa 8) + t % x.nslot * x.slotsz, x.slotsz)
  | _ => (0, 0)

/-- One item reserved, written and published (13 R384). Slot storage that cannot be written counts as a record that fails. -/
def State.portPublish (slot : Nat) (r : Resident) (va pidx : Nat) (item : List Byte) (s : State) : PortStep :=
  match s.portStep slot r va (producer pidx) (.rrsv 1#64) with
  | .ok t s1 =>
    match s1.portWrite slot r (s1.portSlot r va t.toNat).1 item with
    | .ok s2 => s2.portStep slot r va (producer pidx) (.rpub t 1#64)
    | .error _ => .fault 1#8
  | x => x

/-- A port's ring of a kind with the job that holds its slot (13 R383). -/
def State.portRing (s : State) (n kind : Nat) : Option (Nat × Resident × Nat) :=
  match SMap.get (s.uport n).rings kind with
  | some (slot, va) => (SMap.get s.pt.res slot).map fun r => (slot, r, va)
  | none => none

/-! ## Work items (13 R384) -/

/-- The slot of a finished item is freed, and no item is in progress. -/
def State.freeItem (n : Nat) (s : State) : State :=
  let t := s.onUport n fun x => { x with work := none }
  match t.portRing n 0 with
  | some (slot, r, va) =>
    match t.portStep slot r va consumer (.radv 1#64) with
    | .ok _ u => u
    | _ => t.stopPort n r
  | none => t

/-- A completion-ring slot (13 R384). -/
def workDone (item : List Byte) (status detail : BitVec 8) (moved : Nat) : List Byte :=
  (item.drop 32).take 8 ++ [status, detail] ++ toBytes 6 0 ++ toBytes 8 moved ++ toBytes 8 0

/-- A work item ends: its completion slot is written and published, and its own slot freed. It waits while the completion
ring has no room; with no completion ring, or one that fails 05 R162, only its own slot is freed. -/
def State.endItem (n : Nat) (item : List Byte) (status detail : BitVec 8) (moved : Nat) (s : State) : State :=
  match s.portRing n 1 with
  | none => s.freeItem n
  | some (slot, r, va) =>
    match s.portPublish slot r va 30 (workDone item status detail moved) with
    | .ok _ t => t.freeItem n
    | .wait => s
    | .fault _ => (s.stopPort n r).freeItem n

/-- LADDR and LEN of a work item. -/
def itemAddr (item : List Byte) : Nat := leOf item 8 8
def itemLen (item : List Byte) : Nat := leOf item 4 4
/-- OP of a work item. -/
def itemOp (item : List Byte) : Nat := leOf item 0 1

/-- The status that ends a work item before it leaves the package (13 R384), and its DETAIL; or the bytes that it carries. A
malformed item is found first (log 43). -/
def State.itemCheck (n slot : Nat) (r : Resident) (item : List Byte) (s : State) : Except (BitVec 8 × BitVec 8) (List Byte × State) :=
  let zero := leOf item 28 4 == 0 && leOf item 40 24 == 0
  if (s.uport n).stopped.contains r.anum || decide (2 < itemOp item) || decide (itemLen item = 0) || decide (2 ^ 56 ≤ itemAddr item) || !zero then
    .error (5#8, 0#8)
  else if 2 < leOf item 1 1 then .error (1#8, 0#8)
  else if (SMap.get (s.uport n).peers (leOf item 2 2)).isNone then .error (2#8, 0#8)
  else if itemOp item = 2 then
    match s.portRange slot r true (itemAddr item) (itemLen item) with
    | .error e => .error (4#8, e)
    | .ok _ => .ok ([], s)
  else
    match s.portRead slot r (itemAddr item) (itemLen item) with
    | .error e => .error (4#8, e)
    | .ok x => .ok x

/-- UE_WORK_ITEM (13 R384): the port takes the next published slot of its work ring. An item that cannot leave is completed
at once, on a stopped port with status 5 even where its slot cannot be read (13 R383); any other goes out and waits for its
peer. -/
def execUeWorkItem (port : BitVec 3) (s : State) : Out :=
  let n := port.toNat
  .next (
    if !s.pt.ownsPort n || (s.uport n).work.isSome then s
    else
      match s.portRing n 0 with
      | none => s
      | some (slot, r, va) =>
        match s.portStep slot r va consumer (.radv 1#64) with
        | .fault d => if d = 7#8 then s else s.stopPort n r
        | .wait => s
        | .ok _ _ =>
          let freed := match s.walkRoot va r.place.root with
            | .leaf _ l => (RingRec.read (ofBytes (s.paBytes (leafAddr l va) 64))).freed
            | _ => 0
          match s.portRead slot r (s.portSlot r va freed).1 64 with
          | .error e =>
            if (s.uport n).stopped.contains r.anum then s.endItem n (zeros 64) 5#8 0#8 0 else s.endItem n (zeros 64) 4#8 e 0
          | .ok (item, t) =>
            match t.itemCheck n slot r item with
            | .error (status, detail) => t.endItem n item status detail 0
            | .ok (data, u) =>
              let v := u.onUport n fun x => { x with work := some item }
              { v with out := v.out ++ [.net n (item ++ data)] })

/-- UE_WORK_COMPLETION (13 R384): the peer answers the item in progress with 0, 2 or 3; the data of a READ is written before
the completion slot is published. -/
def execUeWorkCompletion (port : BitVec 3) (status detail : BitVec 8) (moved : Nat) (data : List (BitVec 8)) (s : State) : Out :=
  let n := port.toNat
  .next (
    match (s.uport n).work with
    | none => s
    | some item =>
      if !(status == 0#8 || status == 2#8 || status == 3#8) then s
      else if status = 0#8 ∧ itemOp item = 2 then
        match s.portRing n 0 with
        | none => s.freeItem n
        | some (slot, r, _) =>
          let l := data.take (itemLen item)
          match s.portWrite slot r (itemAddr item) l with
          | .ok t => t.endItem n item 0#8 detail l.length
          | .error e => s.endItem n item 4#8 e 0
      else s.endItem n item status detail (Nat.min moved (itemLen item)))

/-! ## Incoming operations (13 R384) -/

/-- The data of a SEND put into receive-ring slots of `size` bytes one after another; none where one has no room. -/
def State.fillReceive (slot : Nat) (r : Resident) (va size : Nat) : Nat → List Byte → State → PortStep
  | 0, _, s => .ok 0#64 s
  | fuel + 1, l, s =>
    if l = [] then .ok 0#64 s
    else
      match s.portPublish slot r va 29 (l.take size) with
      | .ok _ t => State.fillReceive slot r va size fuel (l.drop size) t
      | x => x

/-- The answer of a port to its peer. -/
def State.portAnswer (n : Nat) (status : Nat) (data : List Byte) (s : State) : State :=
  { s with out := s.out ++ [.net n (toBytes 1 status ++ data)] }

/-- A peer's access to a memory region: its job, its virtual address, when the key names a region with the right and range. -/
def State.regionAt (s : State) (n key : Nat) (write : Bool) (off len : Nat) : Option (Nat × Resident × Nat) :=
  match SMap.get (s.uport n).regions key with
  | some (rights, slot, base, size) =>
    if (if write then rights / 2 % 2 = 1 else rights % 2 = 1) ∧ off + len ≤ size then
      (SMap.get s.pt.res slot).map fun r => (slot, r, base + off)
    else none
  | none => none

/-- UE_INCOMING (13 R384): a SEND fills receive-ring slots, a WRITE or READ acts on a memory region; what may not be done is
refused to the peer. -/
def execUeIncoming (port : BitVec 3) (op : UeIn) (s : State) : Out :=
  let n := port.toNat
  .next (
    if !s.pt.ownsPort n then s
    else
      match op with
      | .send data =>
        match s.portRing n 2 with
        | none => s.portAnswer n 3 []
        | some (slot, r, va) =>
          if (s.uport n).stopped.contains r.anum then s.portAnswer n 3 []
          else
            match s.fillReceive slot r va (s.portSlot r va 0).2 data.length data with
            | .ok _ t => t.portAnswer n 0 []
            | .wait => s.portAnswer n 3 []
            | .fault _ => (s.stopPort n r).portAnswer n 3 []
      | .write key off data =>
        match s.regionAt n key true off data.length with
        | none => s.portAnswer n 3 []
        | some (slot, r, va) =>
          match s.portWrite slot r va data with
          | .ok t => t.portAnswer n 0 []
          | .error _ => s.portAnswer n 3 []
      | .read key off len =>
        match s.regionAt n key false off len with
        | none => s.portAnswer n 3 []
        | some (slot, r, va) =>
          match s.portRead slot r va len with
          | .ok (l, t) => t.portAnswer n 0 l
          | .error _ => s.portAnswer n 3 [])

end Sys2Proof.Machine
end

