-- ==== Sys2Proof/Machine/Agent.lean ====
section
/-!
DEFINITION. The debug agent's packets (14 R386-R394, R396, R399): the target launch, triggers, stops and their release,
dumps, pokes, the trace stream, the Bell log, and EVENT.
-/

namespace Sys2Proof.Machine

/-! ## The target launch (14 R386) -/

/-- The slot of the launch that a packet of queue q is addressed to (10 R308, 14 R386): the latest accepted from that queue
that has not ended; on the steward queue, for DEBUG, the current one. -/
def Part.targetOf (p : Part) (q : Nat) : Option Nat :=
  let num := fun (k : Nat) => match SMap.get p.res k with | some r => if r.queue = q then some r.anum else none | none => none
  match num 0, num 1 with
  | some a, some b => some (if a < b then 1 else 0)
  | some _, none => some 0
  | none, some _ => some 1
  | none, none => none

/-- The launch in a residency slot as a debug agent meets it (14 R387): of one whose image is still being verified, the tables that
the image will give it. -/
def State.targetRes (s : State) (r : Resident) : Resident :=
  if r.state = .loading then
    let img := s.imageLine r.place.root r.image
    match verify { part := s.pt, place := r.place, maps := s.rootMaps r.place.root } img with
    | .ok m => { Resident.loaded m (fun n => (img n).getD 0#512) r with state := .loading }
    | .error _ => r
  else r

/-- The job of a launch as a debug agent meets it (14 R387): before its launch epoch no context is ready yet (10 R309). -/
def Resident.target (r : Resident) (p : Part) : Job :=
  if r.state = .ready ∨ r.state = .loading then { r.job0 p with cores := [] } else r.saved

/-- What a debug agent leaves of a launch: before the epoch, only its own triggers, stops and trace. -/
def Resident.withTarget (j : Job) (r : Resident) : Resident :=
  { r with saved := if r.state = .ready ∨ r.state = .loading then { r.saved with debug := j.debug, trace := j.trace } else j }

/-- A change made to the job of a residency slot through the current job's operations. -/
def State.asSlot (slot : Nat) (f : State → State) (s : State) : State :=
  if s.pt.cur = some slot then f s
  else
    match SMap.get s.pt.res slot with
    | none => s
    | some r =>
      let x := s.targetRes r
      let t := f (s.onPt fun p =>
        let q := { (p.onRes slot fun _ => x) with cur := some slot }
        { q with job := x.target q })
      t.onPt fun p => { (p.onRes slot fun _ => r.withTarget p.job) with cur := s.pt.cur, job := s.pt.job }

/-- Whether the job of a slot runs but for its own stops: it is current and no switch or checkpoint is under way. -/
def Part.live (p : Part) (slot : Nat) : Bool := p.cur == some slot && p.switch.isNone && p.ckpt.isNone

/-- Whether the owner has opened a queue to debug (14 R386). -/
def Part.debugOpen (p : Part) (q : Nat) : Bool := if q = 4 then p.debugOk == 15#4 else p.debugOk.getLsbD q

/-- A DEBUG packet of a SUB at the head of queue q, handed on with its target launch's job in focus as current (14 R386,
R387): NODEST without a target; DENIED, with no change, from a queue that is not attached, and for ATTACH when an agent is
attached already or the owner has not opened the queue. -/
def State.withDebug (s : State) (q sub : Nat) (layout : Packet → Bool) (attach : Bool)
    (f : Packet → Resident → Bool → State → State) : State :=
  s.withPacket q 3 (fun k => k.sub == sub) layout false fun k t =>
    match (if q = 4 then t.pt.cur else t.pt.targetOf q) with
    | none => t.finish k { status := stNodest }
    | some slot =>
      match SMap.get t.pt.res slot with
      | none => t.finish k { status := stNodest }
      | some r =>
        let open_ :=
          match (t.pt.slotJob slot).debug with
          | some d => !attach && d.queue == q
          | none => attach && t.pt.debugOpen q
        if open_ then t.asSlot slot (f k r (t.pt.live slot)) else t.finish k { status := stDenied }

/-- A packet done without more to say. -/
def State.ok (k : Packet) (s : State) : State := s.finish k { status := stDone }

/-! ## EVENT (14 R392) -/

/-- Pending EVENT packets and stops not yet told are paired, the oldest of each first. -/
def State.pairEvents : Nat → State → State
  | 0, s => s
  | fuel + 1, s =>
    match s.job.debug with
    | none => s
    | some d =>
      match d.events, d.past with
      | e :: es, a :: l =>
        State.pairEvents fuel ((s.onDebug fun d => { d with events := es, past := l }).finish e { status := stDone, aux := a.toNat })
      | _, _ => s

/-- Every EVENT that can complete does. -/
def State.settleEvents (s : State) : State :=
  match s.job.debug with
  | none => s
  | some d => s.pairEvents d.events.length

/-- EVENT (14 R392). -/
def execEvent (s : State) : Out :=
  let q := s.focus.queue
  .next (s.withDebug q 11 (fun k => k.zero 16 64) false fun k _ _ t =>
    (t.onDebug fun d => { d with events := d.events ++ [k] }).settleEvents)

/-! ## Attaching and stopping -/

/-- ATTACH (14 R386, R387). -/
def execAttach (s : State) : Out :=
  let q := s.focus.queue
  .next (s.withDebug q 1 (fun k => k.zero 16 64) true fun k r _ t =>
    (t.onJob fun j => { j with debug := some { (default : Debug) with queue := q } }).finish k { status := stDone, aux := r.anum })

/-- RELEASE (14 R393): every stop in force ends, HALTs too. The gang-stop form ends as a switch does, once the job runs
again. -/
def State.releaseStops (live : Bool) (s : State) : State :=
  let gang := match s.job.debug with | some d => d.gang | none => false
  let t := s.letGo true
  if gang && live && !s.job.ending then (t.onPt fun p => p.onJob (Job.resume p)).rewake else t

/-- An agent is detached (14 R387): its triggers and its trace end, its stops are released, and the EVENT packets that wait
complete DENIED, as from a queue that is not attached. -/
def State.detachAgent (live : Bool) (s : State) : State :=
  ((s.endEvents s.job fun _ => stDenied).releaseStops live).onJob fun j => { j with debug := none, trace := default }

/-- DETACH (14 R387). -/
def execDetach (s : State) : Out :=
  let q := s.focus.queue
  .next (s.withDebug q 2 (fun k => k.zero 16 64) false fun k _ live t => (t.detachAgent live).ok k)

/-- RELEASE (14 R387, R393). -/
def execRelease (s : State) : Out :=
  let q := s.focus.queue
  .next (s.withDebug q 6 (fun k => k.zero 16 64) false fun k _ live t => (t.releaseStops live).ok k)

/-- Whether a kind has a trigger of an index (14 R390). -/
def triggerIndex (kind index : Nat) : Bool := kind == 0 || kind == 1 && decide (index < 16) || kind == 2 && decide (index < 4)

/-- The layout of ARM (14 R387, R390). -/
def armLayout (k : Packet) : Bool :=
  let kind := k.le 16 1
  triggerIndex kind (k.le 18 2) && decide (k.le 17 1 < 8) && k.zero 20 24 && k.zero 40 64
    && (kind != 1 || decide (k.le 24 8 < 2 ^ 34))
    && (kind != 2 || (k.le 17 1 / 2 != 0 && decide (1 ≤ k.le 32 8) && decide (k.le 32 8 ≤ 2 ^ 32)))

/-- ARM (14 R390): at most 64 DBGBRK ids are armed; the index replaces its own trigger. -/
def execArm (s : State) : Out :=
  let q := s.focus.queue
  .next (s.withDebug q 3 armLayout false fun k _ _ t =>
    let kind := k.le 16 1
    let id := k.le 18 2
    let f := k.le 17 1
    let x : Trigger :=
      { kind := kind, id := id, value := k.le 24 8, len := k.le 32 8, read := f / 2 % 2 == 1, write := f / 4 % 2 == 1
        stop := f % 2 == 1 }
    let others := match t.job.debug with
      | some d => d.triggers.filter fun (y : Trigger) => !(y.kind == kind && y.id == id)
      | none => []
    if kind = 0 ∧ 64 ≤ (others.countP fun y => y.kind == 0) then t.finish k { status := stBadConfig }
    else (t.onDebug fun d => { d with triggers := others ++ [x] }).ok k)

/-- DISARM (14 R390). -/
def execDisarm (s : State) : Out :=
  let q := s.focus.queue
  .next (s.withDebug q 4 (fun k => triggerIndex (k.le 16 1) (k.le 18 2) && k.zero 17 18 && k.zero 20 64) false fun k _ _ t =>
    (t.onDebug fun d =>
      { d with triggers := d.triggers.filter fun y => !(y.kind == k.le 16 1 && y.id == k.le 18 2) }).ok k)

/-- STOP (14 R387, R389): at the next completion of a used group, or at once for a context of the launch. -/
def execStop (s : State) : Out :=
  let q := s.focus.queue
  .next (s.withDebug q 5 (fun k => k.zero 17 18 && k.zero 20 64) false fun k _ _ t =>
    let g := k.le 16 1
    let id := k.le 18 2
    if g = 0xFF then
      if !t.pt.hasCtx id || (t.ctxAt (id / 11) (id % 11)).state == .free then t.finish k { status := stDenied }
      else if (t.ctxAt (id / 11) (id % 11)).state = .halted then t.ok k
      else ((t.stopCtx (id / 11) (id % 11)).recordStop (eventAux 0xFF 1 id) false id 0).settleEvents.ok k
    else if (t.job.group g).nmem = 0 then t.finish k { status := stDenied }
    else (t.onDebug fun d => { d with wantGroups := d.wantGroups ++ [g] }).ok k)

/-! ## Writing at the agent's addresses (14 R386) -/

/-- The writer id of the agent's stores in a stepped region: no tile's and no context's (DESIGN CHOICE, log 90). -/
def agentWriter : Nat := 0xFFF

/-- Bytes within one sector stored at a virtual address of the target launch with the permissions of its leaf, as a store of that
job would be: into a stepped region's next plane, and into an owned region as its holder may (14 R386; log 90); or DETAIL of 08
R251, zero where no condition of that table names the failure. -/
def State.agentStore (va : Nat) (l : List Byte) (s : State) : Except (BitVec 8) State :=
  if 2 ^ 56 < va + l.length then .error 0#8
  else
    match s.walkVa va with
    | .trans d => .error d
    | .broken _ => .error 0#8
    | .leaf at_ x =>
      let pa := leafAddr x va
      let pas := rangeAddrs va pa 0 l.length
      match s.agentPerm va l.length x pas with
      | some d => .error d
      | none =>
        if pas.any (fun a => match s.pt.home a with | .mere t o => !(s.job.tile t).openByte o | _ => false) then .error 0#8
        else
          let a : Acc :=
            { va := va, pa := pa, pa2 := 0, len := l.length, fmt := 0#5, nc := leafNC x, data := l, keep := [], parts := [], got := []
              writer := agentWriter, prio := 0#2 }
          match (s.markLeaf at_ x (leafMarked true x)).elemPut a with
          | some t => .ok ((t.noteStored a 0 l.length).noteStores a)
          | none => .error 0#8

/-- Bytes stored for the agent sector by sector, in ascending order, up to the first that fails. -/
def State.agentPutFrom : Nat → Nat → List Byte → State → Except (BitVec 8) State
  | 0, _, _, s => .ok s
  | _, _, [], s => .ok s
  | fuel + 1, va, l, s =>
    let n := 64 - va % 64
    match s.agentStore va (l.take n) with
    | .ok t => State.agentPutFrom fuel (va + n) (l.drop n) t
    | .error d => .error d

/-- Bytes stored at virtual addresses of the target launch (14 R386). -/
def State.agentPut (va : Nat) (l : List Byte) (s : State) : Except (BitVec 8) State := State.agentPutFrom (l.length + 1) va l s

/-- The sectors of HBM that a write covered whole are no longer poisoned (08 R261). -/
def State.cleanVa (va n : Nat) (s : State) : State :=
  ((List.range n).filter fun i => (va + i) % 64 == 0 && decide (i + 64 ≤ n)).foldl (fun s i =>
    match s.walkVa (va + i) with
    | .leaf _ l => s.unpoison (leafAddr l (va + i)) 64
    | _ => s) s

/-- Whether some byte of a range that the agent writes lies on a paused tile, where a store counts as arriving in the next tc
that the tile begins (11 R331). -/
def State.agentWaits (s : State) (va n : Nat) : Bool :=
  (List.range n).any fun i =>
    match s.walkVa (va + i) with
    | .leaf _ l => (match s.pt.home (leafAddr l (va + i)) with | .mere t o => s.mereWaits t o | _ => false)
    | _ => false

/-- A packet that writes bytes for the agent, with a SYSTEM-scope release after them (14 R394). One that reaches a paused tile
stays at the head of its queue till the tile goes on. -/
def State.agentWrite (k : Packet) (va : Nat) (l : List Byte) (fin : State → State) (s : State) : State :=
  if s.agentWaits va l.length then s.onPt fun p => p.onQueue k.queue fun y => { y with pending := k :: y.pending }
  else
    match s.agentPut va l with
    | .error d => s.finish k { status := stDenied, detail := d.toNat }
    | .ok t => (fin (t.cleanVa va l.length)).flushAll.ok k

/-! ## DUMP and POKE (14 R387, R394) -/

/-- Whether context n is stopped. -/
def Job.ctxStopped (j : Job) (n : Nat) : Bool :=
  ((j.core (n / 11)).ctx (n % 11)).state == .halted || j.gangHeld && (j.core (n / 11)).stopped
/-- Whether tile t is stopped. -/
def Job.tileStopped (j : Job) (t : Nat) : Bool := j.gangHeld && (j.node t).stop.isSome

/-- The bytes of a context (14 R394). -/
def Ctx.dump (x : Ctx) : List Byte :=
  ((List.range 64).flatMap fun r => toBytes 8 (SMap.get x.g r).toNat) ++ ((List.range 32).flatMap fun r => toBytes 64 (SMap.get x.d r).toNat)
    ++ toBytes 8 x.pc.toNat ++ toBytes 8 x.word.toNat ++ toBytes 8 (0#32 ++ x.strmEnd ++ x.strmAct : BitVec 64).toNat
    ++ toBytes 8 x.pseq.toNat ++ [x.frec0, x.frec1, x.frec2, x.frec3].flatMap fun f => toBytes 8 f.toNat

/-- The bytes of a tile item (14 R394); SREC is read without clearing HIST (01 R26). -/
def Tile.dump (t : Tile) (scyc item first count : Nat) : List Byte :=
  match item with
  | 1 => (List.range count).flatMap fun i => toBytes 128 (t.vr (first + i)).toNat
  | 2 => (List.range 32).flatMap fun i => toBytes 128 (SMap.get t.acc (32 * first + i)).toNat
  | _ => (List.range 256).flatMap fun i =>
      toBytes 8 (if (cwAccess true (0x800 + i)).isSome then (t.cwRead scyc (0x800 + i)).toNat else 0)

/-- The stop that a summary reports (14 R394): the gang stop in force, under cause 0x21; without one the steward stands for
the origin (log 48). -/
def Job.summary (j : Job) : List Byte :=
  let o := match j.stop with | some g => g.origin | none => .steward
  let tb := match j.stop with | some g => g.tb | none => j.tb
  j.report { origin := o, cause := 0x21#8, detail := 0#8, cause2 := 0#8, aux := 0#64, tb := tb } (2 ^ 40)

/-- The layout of DUMP (14 R387, R394). -/
def dumpLayout (k : Packet) : Bool :=
  let item := k.le 16 1
  k.zero 17 18 && k.zero 32 64 && decide (item ≤ 4)
    && (item != 1 || (decide (1 ≤ k.le 22 2) && decide (k.le 20 2 + k.le 22 2 ≤ 2048)))
    && (item != 2 || decide (k.le 20 2 ≤ 7)) && (item != 4 || k.le 18 2 == 0)

/-- DUMP (14 R394). -/
def execDump (s : State) : Out :=
  let q := s.focus.queue
  .next (s.withDebug q 7 dumpLayout false fun k _ _ t =>
    let item := k.le 16 1
    let id := k.le 18 2
    match item with
    | 0 =>
      if !t.pt.hasCtx id then t.finish k { status := stDenied }
      else if !t.job.ctxStopped id then t.finish k { status := stBusy }
      else t.agentWrite k (k.le 24 8) (t.ctxAt (id / 11) (id % 11)).dump fun s => s
    | 4 =>
      if t.job.debugStopped then t.agentWrite k (k.le 24 8) t.job.summary fun s => s
      else t.finish k { status := stBusy }
    | _ =>
      if !(t.tileAt id).named then t.finish k { status := stDenied }
      else if !t.job.tileStopped id then t.finish k { status := stBusy }
      else t.agentWrite k (k.le 24 8) ((t.tileAt id).dump (t.job.scyc id) item (k.le 20 2) (k.le 22 2)) fun s => s)

/-- The layout of POKE (14 R387): a G register, a lane and D register, or a control-word number. -/
def pokeLayout (k : Packet) : Bool :=
  let item := k.le 16 1
  let r := k.le 20 2
  k.zero 17 18 && k.zero 22 24 && k.zero 32 64 && decide (item ≤ 2) && (item != 0 || decide (r < 64))
    && (item != 1 || (decide (r < 1024) && decide (r % 64 < 32))) && (item != 2 || decide (r < 4096))

/-- Lane l of a D register replaced. -/
def setLane (v : BitVec 512) (l : Nat) (x : BitVec 32) : BitVec 512 :=
  (v &&& ~~~((0xFFFFFFFF#512) <<< (32 * l))) ||| (x.setWidth 512 <<< (32 * l))

/-- A control word written with the steward's access (01 R41, R42), through context `id` or, for a tile word, tile `id`. -/
def State.pokeWord (k : Packet) (n id : Nat) (v : Word) (s : State) : State :=
  match cwAccess true n with
  | none => s.finish k { status := stDenied }
  | some .none => s.finish k { status := stDenied }
  | some .ro => s.ok k
  | some .rw =>
    let f := s.focus
    match ({ s with focus := { f with core := id / 11, ctx := id % 11 } } : State).cwWrite n id v with
    | some t => ({ t with focus := f } : State).ok k
    | none => s.finish k { status := stDenied }

/-- POKE (14 R387): one value to a stopped context or tile. -/
def execPoke (s : State) : Out :=
  let q := s.focus.queue
  .next (s.withDebug q 8 pokeLayout false fun k _ _ t =>
    let item := k.le 16 1
    let id := k.le 18 2
    let r := k.le 20 2
    let v := BitVec.ofNat 64 (k.le 24 8)
    if item = 2 ∧ isTileWord r = true then
      if !(t.tileAt id).named then t.finish k { status := stDenied }
      else if !t.job.tileStopped id then t.finish k { status := stBusy }
      else t.pokeWord k r id v
    else if !t.pt.hasCtx id then t.finish k { status := stDenied }
    else if !t.job.ctxStopped id then t.finish k { status := stBusy }
    else
      match item with
      | 0 => (t.onCtxAt (id / 11) (id % 11) fun x => x.wg (BitVec.ofNat 6 r) v).ok k
      | 1 => (t.onCtxAt (id / 11) (id % 11) fun x =>
          { x with d := SMap.set x.d (r % 64) (setLane (SMap.get x.d (r % 64)) (r / 64) (v.setWidth 32)) }).ok k
      | _ => t.pokeWord k r id v)

/-! ## The trace stream and the Bell log (14 R396, R399) -/

/-- The layout of TRACE (14 R396); a zero length ends the trace, whatever the other fields. -/
def traceLayout (k : Packet) : Bool :=
  let len := k.le 32 8
  k.zero 40 64 && decide (k.le 16 1 < 32) && decide (k.le 17 1 < 2)
    && (len == 0 || (k.le 24 8 % 4096 == 0 && len % 4096 == 0 && decide (8192 ≤ len) && decide (len ≤ 2 ^ 40)
      && decide (1 ≤ k.le 20 4)))

/-- TRACE (14 R396). -/
def execTrace (s : State) : Out :=
  let q := s.focus.queue
  .next (s.withDebug q 9 traceLayout false fun k _ _ t =>
    let e := k.le 16 1
    let len := k.le 32 8
    if len = 0 then (t.onJob fun j => { j with trace := default }).ok k
    else
      t.agentWrite k (k.le 24 8) (zeros 64) fun s => s.onJob fun j =>
        { j with trace :=
          { on := true, marks := e % 2 == 1, breaks := e / 2 % 2 == 1, watch := e / 4 % 2 == 1, stops := e / 8 % 2 == 1
            samples := e / 16 % 2 == 1, wrap := k.le 17 1 == 1, csel := BitVec.ofNat 16 (k.le 18 2), period := k.le 20 4
            buf := k.le 24 8, len := len, head := 0, lost := 0, told := 0, next := j.dc + 1024 * k.le 20 4 } })

/-- LOGCOPY (14 R399): the newest records, oldest first. -/
def execLogcopy (s : State) : Out :=
  let q := s.focus.queue
  .next (s.withDebug q 10 (fun k => k.zero 16 24 && k.zero 36 64 && decide (1 ≤ k.le 32 4) && decide (k.le 32 4 ≤ 32768)) false
    fun k _ _ t =>
      let l := t.job.bellLog.drop (t.job.bellLog.length - k.le 32 4)
      t.agentWrite k (k.le 24 8) (l.flatMap fun r => toBytes 64 r.toNat) fun s => s.onJob fun j => { j with bellSeq := 0 })

end Sys2Proof.Machine
end

