-- ==== Sys2Proof/Machine/Packets.lean ====
section
/-!
DEFINITION. The other packets: SIGNAL (10 R308), CHECKPOINT (13 R385), QUIESCE (13 R375), RESHAPE (13 R374, R376, R378; 18
R447), the port configuration (13 R383) and CWRITE (13 R363, R374; 17 R427).
-/

namespace Sys2Proof.Machine

/-! ## SIGNAL (10 R308) -/

/-- The mailbox entry of a SIGNAL. -/
def signalEntry (k : Packet) : MEntry :=
  { kind := 0#4, dst := k.le 16 2 % 11, peer := 0xFFF#12, seq := BitVec.ofNat 32 k.seq, lo := BitVec.ofNat 64 (k.le 24 8)
    hi := BitVec.ofNat 64 (k.le 32 8) }

/-- SIGNAL (10 R308): to a context of the latest launch of its queue, in the shadow message buffer when that is SHADOW. -/
def execSignal (s : State) : Out :=
  let q := s.focus.queue
  .next (s.withPacket q 2 (fun _ => true) (fun k => k.zero 18 24 && k.zero 40 64) false fun k t =>
    let n := k.le 16 2
    match t.pt.targetOf q with
    | none => t.finish k { status := stNodest }
    | some slot =>
      if !t.pt.hasCtx n || (((t.pt.slotJob slot).core (n / 11)).ctx (n % 11)).state == .free then t.finish k { status := stNodest }
      else if t.pt.cur = some slot then (t.deliver (n / 11) (signalEntry k)).ok k
      else (t.onPt fun p => p.onRes slot fun r => { r with msgs := r.msgs ++ [(n / 11, signalEntry k)] }).ok k)

/-! ## CHECKPOINT (13 R385) -/

/-- The layout of CHECKPOINT: OP, the partition's own ports, and the peer. -/
def ckptLayout (p : Part) (k : Packet) : Bool :=
  decide (k.le 16 1 ≤ 1) && decide (k.le 17 1 < 2 ^ (2 * p.quarters.length)) && decide (k.le 18 2 ≤ 1023) && k.zero 20 24
    && k.zero 40 64

/-- The ports that a CHECKPOINT names. -/
def ckptPorts (p : Part) (k : Packet) : List Nat :=
  ((List.range (2 * p.quarters.length)).filter fun i => (k.le 17 1).testBit i).map fun i =>
    2 * (p.quarters[i / 2]?).getD 0 + i % 2

/-- Whether the safe tier can be reached: some port is named, and every one named has the peer (13 R385). -/
def State.reaches (k : Packet) (s : State) : Bool :=
  let l := ckptPorts s.pt k
  l != [] && l.all fun n => (SMap.get (s.uport n).peers (k.le 18 2)).isSome

/-- CHECKPOINT SAVE (13 R385, step 1): the current job is stopped with stages 1 and 2 of a switch; with none the stream
begins at once. -/
def execCheckpointSave (s : State) : Out :=
  let q := s.focus.queue
  .next (s.withPacket q 4 (fun k => k.le 16 1 != 1) (ckptLayout s.pt) false fun k t =>
    let u := t.onPt fun p => { p with ckpt := some { pkt := k, save := true, bytes := 0 } }
    if t.pt.cur.isSome then
      (u.onPt fun p => { p with switch := some { stage := .stop, toId := none, since := 0 } }).gangStop .steward 0#8 0#8 0#8 0#64
    else u)

/-- CHECKPOINT RESTORE (13 R385): of a quiesced partition with no resident job, once the owner has authorised it. -/
def execCheckpointRestore (s : State) : Out :=
  let q := s.focus.queue
  .next (s.withPacket q 4 (fun k => k.le 16 1 == 1) (ckptLayout s.pt) false fun k t =>
    if !t.pt.quiesced || (SMap.get t.pt.res 0).isSome || (SMap.get t.pt.res 1).isSome then t.finish k { status := stNotQuiesced }
    else if !t.pt.restoreOk then t.finish k { status := stDenied }
    else t.onPt fun p => { p with restoreOk := false, ckpt := some { pkt := k, save := false, bytes := 0 } })

/-- Whether a sector lies on the stacks of a mask. -/
def sectorIn (il : BitVec 16) (k : Nat) : Bool := decide (k < 2 ^ 60) && il.getLsbD (k / 2 ^ 24 / 64)
/-- Whether a byte of HBM lies on the stacks of a mask, below the steward reserve of its pseudo-channel (08 R243). -/
def byteIn (il : BitVec 16) (a : Nat) : Bool := il.getLsbD (a / 2 ^ 30 / 64) && decide (a % 2 ^ 30 < 0x2FF00000)

/-- A job without the EVENT packets that wait at its agent: each completes once, where it was accepted (13 R370). -/
def Job.withoutEvents (j : Job) : Job := { j with debug := Option.map (fun d => { d with events := [] }) j.debug }

/-- A resident job as a checkpoint holds it: SHADOW, one that never ran at its launch epoch (13 R385). -/
def Resident.checkpointed (p : Part) (r : Resident) : Option Resident :=
  let at_ := fun (j : Job) => { r with state := .shadow, saved := j.withoutEvents, used := 0, quota := r.place.quant * 65536 }
  match r.state with
  | .loading => none
  | .ready => some { at_ (r.job0 p) with ran := true }
  | .current => some (at_ p.job)
  | .shadow => some { r with saved := r.saved.withoutEvents }

/-- The dirty sectors of the partition written back (13 R385, step 2). -/
def State.flushPart (s : State) : State :=
  (s.dirty.filter fun (x : Nat × Option (BitVec 512)) => sectorIn s.pt.il x.1 || x.1 / 2 ^ 50 == 2 ^ 10 + s.focus.part).foldl (fun s x => s.writeBack x.1) s

/-- The checkpoint stream of the partition (13 R385, step 3). -/
def State.stream (k : Packet) (bytes : Nat) (s : State) : Stored :=
  let p := s.pt
  { label := k.le 24 8, il := p.il, rbase := k.le 32 8, key := p.key, hbm := s.hbm.filter fun x => byteIn p.il x.1
    mere := p.mere, loft := p.loft, loc := p.loc
    res := p.res.map fun (x : Nat × Option Resident) => (x.1, x.2.bind (Resident.checkpointed { p with cur := some x.1 }))
    bytes := bytes }

/-- Partition HBM replaced by the bytes of a stream, or by zeros (13 R385): its dirty sectors and its poison go. -/
def State.putHbm (m : Mem) (s : State) : State :=
  let il := s.pt.il
  let keep := s.hbm.filter fun x => !byteIn il x.1
  ({ s with
      hbm := m.foldl (fun (h : Mem) (x : Nat × Byte) => SMap.set h x.1 x.2) keep
      dirty := s.dirty.filter fun x => !sectorIn il x.1 }).onPt fun p =>
    { p with poison := p.poison.filter fun k => !(k % 4 == 0 && sectorIn il (k / 4)) }

/-- CHECKPOINT_STREAM_COMPLETE (13 R385): a SAVE whose stream has ended lets the job go on and completes with the bytes
written; a RESTORE puts the stream back when it was made under this partition key, else it leaves HBM zeroed. -/
def execCheckpointStreamComplete (ok : Bool) (bytes : BitVec 64) (s : State) : Out :=
  .next (
    match s.pt.ckpt with
    | none => s
    | some c =>
      let drained := match s.pt.switch with
        | some { stage := .swap, toId := none, since := _ } => true
        | _ => false
      if c.save then
        if s.pt.cur.isSome && !drained then s
        else
          let good := ok && s.reaches c.pkt
          let t := s.flushPart
          let u := if good then t.onPt fun p => { p with streams := p.streams ++ [t.stream c.pkt bytes.toNat] } else t
          let v := u.onPt fun p => { p with ckpt := none, switch := none }
          let w := if v.pt.cur.isSome then (v.onPt fun p => p.onJob (Job.goOn p)).rewake else v.onPt Part.callShadow
          w.finish c.pkt { status := if good then stDone else stCkptFail, aux := if good then bytes.toNat else 0 }
      else
        let t := s.onPt fun p => { p with ckpt := none }
        let mine := fun (x : Stored) =>
          x.label == c.pkt.le 24 8 && x.rbase == c.pkt.le 32 8 && x.key == s.pt.key && x.il == s.pt.il
        match (if ok && s.reaches c.pkt then s.pt.streams.reverse.find? mine else none) with
        | none => (t.putHbm []).finish c.pkt { status := stCkptFail }
        | some x =>
          let u := (t.putHbm x.hbm).onPt fun p =>
            { p with
              mere := x.mere, loft := x.loft, loc := x.loc, res := x.res
              bankValid := x.res.map fun y => (y.1, y.2.isSome)
              poison := p.poison.filter fun k => decide (k < 2 ^ 80) && decide (k % 4 ≤ 1) }
          (u.finish c.pkt { status := stDone }).onPt Part.callShadow)

/-! ## QUIESCE (13 R375) -/

/-- The layout of QUIESCE. -/
def quiesceLayout (k : Packet) : Bool := decide (1 ≤ k.le 16 4) && decide (k.le 20 1 < 4) && k.zero 21 64

/-- Whether a user queue is busy. -/
def Part.userBusy (p : Part) : Bool := (List.range 4).any p.busy

/-- Every resident job and accepted user packet that remains completes ABORTED (13 R375); a package whose chained job ends so
leaves the chain, whether or not the job has reached the epoch step (11 R338). -/
def State.abortRest (s : State) : State :=
  let one := fun (s : State) (k : Nat) =>
    match SMap.get s.pt.res k with
    | none => s
    | some r =>
      let u := s.endResident { status := stAborted, tb := r.saved.tb } k r
      if s.pt.chained then { u with out := u.out ++ [.left] } else u
  let c := match s.pt.ckpt with
    | some x => (s.onPt fun p => { p with ckpt := none, switch := none }).finish x.pkt { status := stAborted }
    | none => s
  let t := [0, 1].foldl one c
  (List.range 4).foldl (fun s q =>
    ((s.pt.queue q).pending.foldl (fun s k => s.finish k { status := stAborted }) s).onPt fun p =>
      p.onQueue q fun x => { x with pending := [] }) t

/-- A QUIESCE under way looks at the queues: idle ones, or jobs that have been ended, quiesce the partition. -/
def State.quiesceCheck (s : State) : State :=
  match s.pt.quiesce with
  | none => s
  | some q =>
    let fin := fun (t : State) => (t.onPt fun p => { p with quiesced := true, quiesce := none }).ok q.pkt
    if q.aborting then (if s.pt.cur.isNone then fin s.abortRest else s)
    else if s.pt.userBusy then s
    else fin s

/-- QUIESCE, enter (13 R375): reading of user queues stops, and the partition is quiesced once every queue is idle. -/
def execQuiesceEnter (s : State) : Out :=
  let q := s.focus.queue
  .next (s.withPacket q 5 (fun k => k.le 20 1 % 2 == 0) quiesceLayout true fun k t =>
    (t.onPt fun p =>
      { p with quiesce := some { pkt := k, limit := t.clock + 1600 * k.le 16 4, force := k.le 20 1 / 2 == 1, aborting := false } }).quiesceCheck)

/-- QUIESCE, leave (13 R375). -/
def execQuiesceLeave (s : State) : Out :=
  let q := s.focus.queue
  .next (s.withPacket q 5 (fun k => k.le 20 1 % 2 == 1) quiesceLayout true fun k t =>
    (t.onPt fun p => { p with quiesced := false }).ok k)

/-- QUIESCE_LIMIT (13 R375): a QUIESCE whose LIMIT has passed while a user queue is busy completes BUSY, or, with FORCE, ends
every job: a job-wide switch under way ends with it. -/
def execQuiesceLimit (s : State) : Out :=
  .next (
    match s.pt.quiesce with
    | none => s
    | some q =>
      if s.clock < q.limit ∨ q.aborting = true then s
      else if !s.pt.userBusy then s.quiesceCheck
      else if !q.force then
        let mask := (List.range 4).foldl (fun m i => if s.pt.busy i then m + 2 ^ i else m) 0
        (s.onPt fun p => { p with quiesce := none }).finish q.pkt { status := stBusy, aux := mask }
      else
        let t := s.onPt fun p => { p with quiesce := some { q with aborting := true }, switch := none }
        (if t.pt.cur.isSome then t.gangStop .steward 0#8 0#8 0#8 0#64 else t).quiesceCheck)

/-! ## RESHAPE (13 R374, R376) -/

/-- The quarter masks of a layout's partitions (13 R374). -/
def layoutMasks (n : Nat) : List (BitVec 4) :=
  match n with
  | 0 => [1#4, 2#4, 4#4, 8#4]
  | 1 => [3#4, 12#4]
  | 2 => [3#4, 4#4, 8#4]
  | 3 => [1#4, 2#4, 12#4]
  | _ => [15#4]

/-- The number of a mask's partition: its lowest quarter (13 R365). -/
def maskPart (m : BitVec 4) : Nat := ((List.range 4).find? fun q => m.getLsbD q).getD 0
/-- The number of quarters of a mask. -/
def maskSize (m : BitVec 4) : Nat := ((List.range 4).filter fun q => m.getLsbD q).length
/-- The stacks of a mask's quarters. -/
def maskStacks (m : BitVec 4) : BitVec 16 :=
  ((List.range 4).filter fun q => m.getLsbD q).foldl (fun x q => x ||| BitVec.ofNat 16 (15 * 16 ^ q)) 0#16
/-- The links between a mask's quarters. -/
def maskLinks (m : BitVec 4) : BitVec 4 :=
  [(0, 1, 1), (2, 3, 2), (0, 2, 4), (1, 3, 8)].foldl (fun x l =>
    if m.getLsbD l.1 && m.getLsbD l.2.1 then x ||| BitVec.ofNat 4 l.2.2 else x) 0#4

/-- Whether a partition counts as quiesced with no resident job; an absent one does (13 R376, 18 R447). -/
def State.still (m : BitVec 4) (s : State) : Bool :=
  let p := s.part (maskPart m)
  (maskSize m == 1 && !s.qok.getLsbD (maskPart m)) || (p.quiesced && (SMap.get p.res 0).isNone && (SMap.get p.res 1).isNone)

/-- A partition of a new layout (13 R376, steps 2 to 6): its function is in ERROR when it was an affected partition's. -/
def Part.fresh (m : BitVec 4) (key : Nat) (old : Bool) : Part :=
  { Part.quarter (maskPart m) with
    qmask := m, il := maskStacks m, bound := maskLinks m, key := key, quiesced := true, tdi := if old then .error else .unlocked }

/-- What the steward reserve keeps of partition n (08 R243, 17 R438). -/
def Part.reserve (n : Nat) (p : Part) : Reserve :=
  { part := n, accepted := p.queues.map fun x => (x.1, x.2.accepted), held := p.held, bells := p.job.bellLog }

/-- The affected partitions give way to the new ones (13 R376). The steward reserve of their stacks, with
the journal and the Bell log of each, stays as it is (08 R243, 17 R438). -/
def State.reshape (layout : Nat) (olds news : List (BitVec 4)) (s : State) : State :=
  let il := news.foldl (fun x m => x ||| maskStacks m) 0#16
  let gone := olds.map maskPart
  let mineFar := fun (k : Nat) => decide (2 ^ 60 ≤ k) && (gone ++ news.map maskPart).contains (k / 2 ^ 50 % 2 ^ 10)
  let t : State :=
    { s with
      layout := layout, hbm := s.hbm.filter fun x => !byteIn il x.1
      dirty := s.dirty.filter fun x => !sectorIn il x.1 && !mineFar x.1, far := s.far.filter fun x => !mineFar x.1
      reserve := s.reserve ++ gone.map fun k => (s.part k).reserve k, parts := gone.foldl SMap.erase s.parts }
  news.foldl (fun s m =>
    let k := maskPart m
    { s with
      parts := SMap.insert s.parts k (Part.fresh m (Config.freshKey s.free) (gone.contains k))
      free := s.free + 1 }) t

/-- Whether an affected partition has no CHECKPOINT under way, and its records are all on its status page, with room for those of the
packets that its steward queue still holds, so that none is lost with it (13 R370, R371; DEDUCED, log 84). -/
def State.recordsOut (m : BitVec 4) (s : State) : Bool :=
  let p := s.part (maskPart m)
  p.ckpt.isNone && p.held.all (fun c => decide (c.cseq ≤ p.cseq.toNat)) && decide (p.cseq.toNat + (p.queue 4).pending.length < p.hseen.toNat + 32)

/-- The accepted packets of an affected partition that have not been taken complete ABORTED (13 R370; DEDUCED, log 84). -/
def State.abortQueue (m : BitVec 4) (s : State) : State :=
  let at_ : State := { s with focus := { s.focus with part := maskPart m } }
  let t := ((at_.pt.queue 4).pending.foldl (fun s k => s.finish k { status := stAborted }) at_).onPt fun p =>
    p.onQueue 4 fun x => { x with pending := [] }
  { t with focus := s.focus }

/-- RESHAPE (13 R376, 18 R447): from the steward queue of an affected partition, once every affected one is quiesced with no
resident job. It completes before the queues of the new partitions take their reset values, and waits for the records that
would go with the affected ones. -/
def execReshape (s : State) : Out :=
  let q := s.focus.queue
  .next (s.withPacket q 6 (fun k => k.sub == 1) (fun k => decide (k.le 16 1 ≤ 4) && k.zero 17 64) true fun k t =>
    let n := k.le 16 1
    let olds := (layoutMasks t.layout).filter fun m => !(layoutMasks n).contains m
    let news := (layoutMasks n).filter fun m => !(layoutMasks t.layout).contains m
    let whole := (layoutMasks n).all fun m => maskSize m == 1 || (List.range 4).all fun i => !m.getLsbD i || t.qok.getLsbD i
    if !whole || !olds.contains t.pt.qmask then t.finish k { status := stBadConfig }
    else if !(olds.all fun m => t.still m) then t.finish k { status := stNotQuiesced }
    else if !(olds.all fun m => t.recordsOut m) then s
    else (olds.foldl (fun s m => s.abortQueue m) (t.ok k)).reshape n olds news)

/-! ## The ports (13 R383) -/

/-- Whether a byte names a port of the partition. -/
def Part.portOk (p : Part) (n : Nat) : Bool := decide (n < 8) && p.ownsPort n

/-- PORTRING (13 R383). The ring record is named by bits 55:6 of the address (log 46). -/
def execPortring (s : State) : Out :=
  let q := s.focus.queue
  .next (s.withPacket q 6 (fun k => k.sub == 2)
    (fun k => s.pt.portOk (k.le 16 1) && decide (k.le 17 1 ≤ 2) && decide (k.le 18 1 ≤ 1) && k.zero 19 24
      && decide (k.le 24 8 < 2 ^ 56) && k.zero 32 64) true fun k t =>
    (t.onUport (k.le 16 1) fun x =>
      { x with rings := SMap.insert x.rings (k.le 17 1) (some (k.le 18 1, k.le 24 8 / 64 * 64)) }).ok k)

/-- PEER (13 R383). -/
def execPeer (s : State) : Out :=
  let q := s.focus.queue
  .next (s.withPacket q 6 (fun k => k.sub == 3)
    (fun k => s.pt.portOk (k.le 16 1) && k.zero 17 18 && decide (k.le 18 2 ≤ 1023) && k.zero 20 24 && k.zero 44 64) true fun k t =>
    (t.onUport (k.le 16 1) fun x =>
      { x with peers := SMap.insert x.peers (k.le 18 2) (some ((k.bytes.drop 24).take 20)) }).ok k)

/-- MREGION (13 R383). -/
def execMregion (s : State) : Out :=
  let q := s.focus.queue
  .next (s.withPacket q 6 (fun k => k.sub == 4)
    (fun k => s.pt.portOk (k.le 16 1) && k.zero 17 18 && decide (k.le 18 2 ≤ 1023) && decide (k.le 20 1 < 4)
      && decide (k.le 21 1 ≤ 1) && k.zero 22 24 && decide (k.le 24 8 < 2 ^ 56) && k.zero 40 64) true fun k t =>
    (t.onUport (k.le 16 1) fun x =>
      { x with regions := SMap.insert x.regions (k.le 18 2) (some (k.le 20 1, k.le 21 1, k.le 24 8, k.le 32 8)) }).ok k)

/-! ## CWRITE (17 R427) -/

/-- The bits that a word CWRITE may write holds; none for a word that it may not. -/
def cwriteMask (n : Nat) : Option Word :=
  if n = 0x201 then some 0xFFFF#64
  else if n = 0x202 then some 0xF#64
  else if 0x300 ≤ n ∧ n ≤ 0x37F then some (segMask (n - 0x300))
  else none

/-- The value of the partition word that a number names, as the steward reads it (01 R41); zero where it names none. -/
def State.cwriteWord (s : State) (n : Nat) : Word :=
  if 0x200 ≤ n ∧ n ≤ 0x6FF ∧ (cwAccess true n).isSome = true then s.cwRead n 0 else 0#64

/-- Whether PART.IL may take a mask (13 R374): stacks of the partition, and those of its valid segments among them. -/
def Part.ilOk (p : Part) (il : BitVec 16) : Bool :=
  il != 0#16 && il &&& ~~~maskStacks p.qmask == 0#16
    && (List.range 64).all fun n => !p.segValid n || il.getLsbD (p.segPch n / 64)

/-- Whether PART.BOUND may take a mask (13 R363): no link to a quarter outside, and a route between every two quarters,
direct or through one other. -/
def Part.boundOk (p : Part) (b : BitVec 4) : Bool :=
  let x : Part := { p with bound := b }
  b &&& ~~~maskLinks p.qmask == 0#4
    && p.quarters.all fun q => p.quarters.all fun r =>
      q == r || x.linkOpen q r || p.quarters.any fun m => x.linkOpen q m && x.linkOpen m r

/-- What refuses a CWRITE of a word with a value, in the order of 17 R427. -/
def Part.cwriteRefused (p : Part) (n : Nat) (v : Word) : Option Nat :=
  if 0x300 ≤ n then
    if (SMap.get p.res 0).isSome || (SMap.get p.res 1).isSome then some stNotQuiesced
    else if p.segWritable (n - 0x300) v then none
    else some stBadConfig
  else if !p.quiesced then some stNotQuiesced
  else if (if n = 0x201 then p.ilOk (v.setWidth 16) else p.boundOk (v.setWidth 4)) then none
  else some stBadConfig

/-- CWRITE (17 R427): AUX is the word's value afterwards, and an accepted one sends the TDI to ERROR. -/
def execCwrite (s : State) : Out :=
  let q := s.focus.queue
  .next (s.withPacket q 6 (fun k => k.sub == 6) (fun _ => true) false fun k t =>
    let n := k.le 16 2
    let v := BitVec.ofNat 64 (k.le 24 8)
    let no := fun (st : Nat) => t.finish k { status := st, aux := (t.cwriteWord n).toNat }
    let bad := match cwriteMask n with | some m => v &&& ~~~m != 0#64 | none => true
    if bad || !k.zero 18 24 then no stBadConfig
    else if q ≠ 4 then no stNotSteward
    else
      match t.pt.cwriteRefused n v with
      | some st => no st
      | none =>
        (t.onPt fun p =>
          { (if 0x300 ≤ n then { p with segs := SMap.set p.segs (n - 0x300) v } else p.setWord (n - 0x200) v) with
            tdi := .error }).segFlush.finish k
          { status := stDone, aux := v.toNat })

end Sys2Proof.Machine
end

