-- ==== Sys2Proof/Machine/Session.lean ====
section
/-!
DEFINITION. The owner's session (13 R380): the messages that the host relays in CONFIG SECMSG; and the SPDM responder (13
R379).
-/

namespace Sys2Proof.Machine

/-- n bytes whose values the spec does not give (log 2). -/
def freeBytes (at_ n : Nat) : List Byte := (List.range n).map fun i => (Config.freeWord (at_ + i)).setWidth 8

/-! ## SECMSG (13 R380) -/

/-- The layout of SECMSG: a length and a host buffer. -/
def secmsgLayout (k : Packet) : Bool := k.zero 20 24 && k.zero 32 64

/-- The queue whose next packet is a SECMSG. -/
def Part.secmsgQueue (p : Part) : Option Nat :=
  (List.range 5).find? fun q =>
    match (p.queue q).pending with
    | k :: _ => k.kind == 6 && k.sub == 5 && p.takes q
    | [] => false

/-- A SECMSG whose message the step is: it is done with its change, or, where its sender may not do it, DENIED; the device's
reply, whose bytes the spec does not give, fills the buffer. -/
def State.withSecmsg (s : State) (allowed : State → Bool) (f : State → State) : State :=
  match s.pt.secmsgQueue with
  | none => s
  | some q =>
    s.withPacket q 6 (fun k => k.sub == 5) secmsgLayout true fun k t =>
      let n := k.le 16 4
      let u := { (t.hostPuts (k.le 24 8) (freeBytes t.free n)) with free := t.free + n }
      if allowed t then (f u).ok k else u.finish k { status := stDenied }

/-- A SECMSG whose message fails its session's MAC (13 R380): it completes DENIED and changes nothing, the host's buffer included. -/
def State.badMessage (s : State) : State :=
  match s.pt.secmsgQueue with
  | none => s
  | some q => s.withPacket q 6 (fun k => k.sub == 5) secmsgLayout true fun k t => t.finish k { status := stDenied }

/-- Whether the session is the owner's: its party is the one whose CLAIM was answered (13 R380). -/
def State.byOwner (s : State) : Bool :=
  match s.pt.spdm.session, s.pt.owner with
  | some (some party), some o => party == o
  | _, _ => false

/-- CLAIM (13 R380): the first claim inside a session that the responder has set up with mutual authentication makes its
sender, the party of that session, the owner. -/
def execClaim (session bothSides : Bool) (keyHash : BitVec 256) (s : State) : Out :=
  .next (s.withSecmsg
    (fun t => session && bothSides && t.pt.spdm.session == some (some keyHash) && t.pt.owner.isNone)
    fun t => t.onPt fun p => { p with owner := some keyHash })

/-- GRANT (13 R367, R380): a range of whole 64 KiB, in force once the SECMSG's completion record is written. -/
def execGrant (index : BitVec 3) (base len : Nat) (read write : Bool) (s : State) : Out :=
  .next (s.withSecmsg (fun t => t.byOwner && base % 65536 == 0 && len % 65536 == 0) fun t =>
    t.onPt fun p =>
      { p with
        grants := SMap.insert p.grants index.toNat (some { base := base, len := len, read := read, write := write, after := p.nextDone }) })

/-- GRANT_REVOKE (13 R380). -/
def execGrantRevoke (index : BitVec 3) (s : State) : Out :=
  .next (s.withSecmsg State.byOwner fun t => t.onPt fun p => { p with grants := SMap.set p.grants index.toNat none })

/-- DEBUGOK (13 R380). -/
def execDebugok (mask : BitVec 4) (s : State) : Out :=
  .next (s.withSecmsg State.byOwner fun t => t.onPt fun p => { p with debugOk := p.debugOk ||| mask })

/-- The agents whose queue is no longer open are detached (13 R380; log 47 for the steward queue). -/
def State.closeAgents (s : State) : State :=
  [0, 1].foldl (fun s slot =>
    match (SMap.get s.pt.res slot), (s.pt.slotJob slot).debug with
    | some _, some d => if s.pt.debugOpen d.queue then s else s.asSlot slot (State.detachAgent (s.pt.live slot))
    | _, _ => s) s

/-- DEBUGOFF (13 R380). -/
def execDebugoff (mask : BitVec 4) (s : State) : Out :=
  .next (s.withSecmsg State.byOwner fun t => (t.onPt fun p => { p with debugOk := p.debugOk &&& ~~~mask }).closeAgents)

/-- RESTORE_AUTHORISATION (13 R380, R385). -/
def execRestoreAuthorisation (s : State) : Out :=
  .next (s.withSecmsg State.byOwner fun t => t.onPt fun p => { p with restoreOk := true })

/-! ## SPDM (13 R379) -/

/-- What is measured under an index (13 R379), as bytes: an empty list for 32 zero bytes. The bytes of the ROM and of the
firmware are opaque (log 22). -/
def State.measured (s : State) (index : Nat) : List Byte :=
  let p := s.pt
  let image := fun (slot : Option Nat) =>
    match slot.bind fun k => SMap.get p.res k with
    | some r => toBytes 32 r.hash
    | none => []
  match index with
  | 3 => ((List.range 4).flatMap fun i => toBytes 8 (Config.feat i).toNat) ++ toBytes 8 s.fused
  | 4 => toBytes 1 p.qmask.toNat ++ toBytes 2 p.il.toNat ++ toBytes 1 p.bound.toNat ++ toBytes 1 s.layout
  | 5 => image p.cur
  | 6 => image (match p.cur with | some k => some (1 - k) | none => (([0, 1].filter fun k => (SMap.get p.res k).isSome).head?))
  | 7 => match p.owner with | some h => toBytes 32 h.toNat | none => []
  | n => Config.firmware n

/-- A measurement: the digest of what is measured; measurements 5 to 7 are digests already, or 32 zero bytes. -/
def State.measurement (s : State) (index : Nat) : List Byte :=
  let l := s.measured index
  if 5 ≤ index then (if l = [] then List.replicate 32 0#8 else l) else toBytes 32 (Config.digest l)

/-- An answer of the responder. -/
def State.spdmReply (a : SpdmAns) (s : State) : State := { s with out := s.out ++ [.spdm a] }

/-- An answer that carries bytes (13 R379): where the requester takes fewer at once, the first chunk, and the rest is kept. -/
def State.spdmData (l : List Byte) (s : State) : State :=
  let n := s.pt.spdm.xfer
  if n = 0 ∨ l.length ≤ n then s.spdmReply (.data l)
  else (s.spdmReply (.data (l.take n))).onPt fun p => { p with spdm := { p.spdm with rest := l.drop n } }

/-- The next chunk of an answer. -/
def State.spdmChunk (s : State) : State :=
  let l := s.pt.spdm.rest
  if l = [] then s.spdmReply .error
  else
    (s.spdmReply (.data (l.take s.pt.spdm.xfer))).onPt fun p => { p with spdm := { p.spdm with rest := l.drop s.pt.spdm.xfer } }

/-- The capabilities of the responder (13 R379). -/
def spdmCaps : List SpdmCap := [.cert, .chal, .measSig, .keyEx, .mutAuth, .encrypt, .mac, .hbeat, .keyUpd, .chunk]

/-- The algorithms that the responder takes of an offer (13 R379): no BaseAsymAlgo. -/
def algsTaken (a : SpdmAlgs) : SpdmAlgs := { a with baseAsym := false }

/-- The bytes of a signature (13 R379). -/
def sigBytes : Nat := 7856

/-- A request served inside a secured session alone. -/
def State.inSession (f : Spdm → Spdm) (s : State) : State :=
  if s.pt.spdm.session.isNone then s.spdmReply .error
  else (s.spdmReply .done).onPt fun p => { p with spdm := f p.spdm }

/-- SPDM_REQUEST (13 R379): version 1.3 alone; capabilities and algorithms; certificates of slots 0 and 1; signed answers;
measurements 1 to 7, each with a signature; a key exchange sets up a session, with a requester that has authenticated itself
or without, which has heartbeats, key updates and IDE_KM (R366) and can be ended. The bytes that the spec does not give are
free values (log 2). -/
def execSpdmRequest (r : SpdmReq) (s : State) : Out :=
  let free := fun (l : List Byte) (n : Nat) => ({ s with free := s.free + n } : State).spdmData (l ++ freeBytes s.free n)
  .next (
    if !s.link || decide (s.stage < 6) || s.stage == 15 || !s.active then s
    else
      match r with
      | .version v => s.spdmReply (if v = 0x13 then .version 0x13 else .error)
      | .capabilities n => (s.spdmReply (.capabilities spdmCaps)).onPt fun p => { p with spdm := { p.spdm with xfer := n } }
      | .algorithms a => s.spdmReply (.algorithms (algsTaken a))
      | .certificate slot => if slot ≤ 1 then free [] 64 else s.spdmReply .error
      | .challenge _ => free [] sigBytes
      | .measurement i => if 1 ≤ i ∧ i ≤ 7 then free (s.measurement i) sigBytes else s.spdmReply .error
      | .keyExchange party => (free [] 64).onPt fun p => { p with spdm := { p.spdm with session := some party, updates := 0 } }
      | .heartbeat => s.inSession id
      | .keyUpdate => s.inSession fun x => { x with updates := x.updates + 1 }
      | .chunk => s.spdmChunk
      | .ideKey k =>
        if s.pt.spdm.session.isNone then s.spdmReply .error else (s.spdmReply .done).onPt fun p => { p with ide := some k }
      | .endSession => (s.spdmReply .done).onPt fun p => { p with spdm := { p.spdm with session := none } })

end Sys2Proof.Machine
end

