-- ==== Sys2Proof/Machine/Boot.lean ====
section
/-!
DEFINITION. Power, resets and boot (01 R44; 13 R378, R381; 18 R439, R441, R443-R447).
-/

namespace Sys2Proof.Machine

/-- The package as a cold reset leaves it (01 R44, 18 R443): the host's memory, the fused version
and the model's own agenda and counter of free values stay (13 R381). -/
def State.cold (s : State) : State :=
  { State.reset with host := s.host, agenda := s.agenda, focus := s.focus, free := s.free, fused := s.fused }

/-- COLD_RESET (18 R443). -/
def execColdReset (s : State) : Out := .next s.cold

/-- Package power removed (18 R439, R441): every launch, every key and the journal are lost. -/
def State.off (s : State) : State := { s.cold with powered := false }

/-- POWER_LOSS (18 R439). -/
def execPowerLoss (s : State) : Out := .next s.off

/-- THERMAL_TRIP (18 R441). -/
def execThermalTrip (s : State) : Out := .next s.off

/-- HOST_PORT_RESET (18 R443): the port retrains, so that the link is down till then; every TDI returns to CONFIG_UNLOCKED, and IDE
keys and SPDM sessions end. -/
def execHostPortReset (s : State) : Out :=
  .next { s with link := false, parts := s.parts.map fun x => (x.1, { x.2 with tdi := .unlocked, ide := none, spdm := default }) }

/-- The host link has trained once boot has begun to serve it; without FLIT mode it stays down (13 R365; 18 R443, R444). -/
def State.train (flit : Bool) (s : State) : State := if s.stage ≤ 1 ∨ s.powered = false then s else { s with link := flit }

/-- Boot fails with a reason (18 R446). -/
def State.bootFail (e : BitVec 8) (s : State) : State := { s with stage := 15, bootErr := e }

/-- The quarters that pass stage 4 (18 R447): self-test, and all four stacks trained. -/
def quartersOk (f : BootFinding) : BitVec 4 :=
  (List.range 4).foldl (fun m q =>
    if f.quarters.getLsbD q && (List.range 4).all (fun i => f.stackOk.getLsbD (4 * q + i)) then m ||| BitVec.ofNat 4 (2 ^ q) else m) 0#4

/-- The partition keys of layout 0 drawn for the quarters in service (13 R378, 18 R444). -/
def State.drawKeys (s : State) : State :=
  (List.range 4).foldl (fun s q =>
    if s.qok.getLsbD q then { (s.onPart q fun p => { p with key := Config.freshKey s.free }) with free := s.free + 1 } else s) s

/-- Every memory zeroed (18 R444, stage 3). -/
def State.zeroed (s : State) : State :=
  { s with
    hbm := [], dirty := [], far := []
    parts := s.parts.map fun x => (x.1, { x.2 with mere := [], loft := [], loc := [], poison := [] }) }

/-- BOOT_STAGE (18 R444-R447): the present stage ends, with what it found, and the next begins, or boot fails. -/
def execBootStage (f : BootFinding) (s : State) : Out :=
  .next (
    match s.stage with
    | 0 => { s with stage := 1 }
    | 1 => { s with stage := 2, link := f.flit }
    | 2 =>
      if !f.signatureOk then s.bootFail 0x01#8
      else if f.version < s.fused then s.bootFail 0x02#8
      else { s with stage := 3 }
    | 3 => if f.stackOk.extractLsb' 0 4 ≠ 15#4 then s.bootFail 0x04#8 else { s.zeroed with stage := 4 }
    | 4 =>
      let t : State := { s with qok := quartersOk f, stkok := f.stackOk }
      if f.stackOk.extractLsb' 0 4 ≠ 15#4 then t.bootFail 0x04#8
      else if quartersOk f = 0#4 then t.bootFail 0x03#8
      else { t with stage := 5 }
    | 5 => { s.drawKeys with stage := 6 }
    | 6 => { s with stage := 7 }
    | _ => s)

/-! ## Firmware (13 R381) -/

/-- The steward loads an image of the system handler's firmware, at a trap entry, when its signature holds and its version is
not below the fused one; any other is not run. -/
def State.loadFirmware (signed : Bool) (version : Nat) (entry : BitVec 29) (s : State) : State :=
  if signed && decide (s.fused ≤ version) then s.onPt fun p => { p with trapEntry := entry } else s

/-- A higher version is fused for good. -/
def State.fuse (version : Nat) (s : State) : State := { s with fused := Nat.max s.fused version }

end Sys2Proof.Machine
end

