-- ==== Sys2Proof/Machine/Integer.lean ====
section
/-!
DEFINITION. Integer and pointer arithmetic of group 0 (04 R120-R124).
-/

namespace Sys2Proof.Machine

/-- The shift amount b[5:0] (04 R120). -/
def shiftOf (y : Word) : Nat := (y.extractLsb' 0 6).toNat

/-- Bits 127:64 of the signed product (04 R120). -/
def mulHigh (x y : Word) : Word := ((x.signExtend 128 * y.signExtend 128).extractLsb' 64 64)
/-- Bits 127:64 of the unsigned product (04 R120). -/
def mulHighU (x y : Word) : Word := ((x.setWidth 128 * y.setWidth 128).extractLsb' 64 64)

/-- Signed division toward zero (04 R120, R122): all ones for a zero divisor; the quotient is taken modulo 2^64. -/
def divS (x y : Word) : Word := if y = 0#64 then -1#64 else BitVec.ofInt 64 (x.toInt.tdiv y.toInt)
/-- Unsigned division (04 R120, R122). -/
def divU (x y : Word) : Word := if y = 0#64 then -1#64 else BitVec.ofNat 64 (x.toNat / y.toNat)
/-- The signed remainder (04 R120, R122): the dividend for a zero divisor. -/
def remS (x y : Word) : Word := if y = 0#64 then x else BitVec.ofInt 64 (x.toInt.tmod y.toInt)
/-- The unsigned remainder (04 R120, R122). -/
def remU (x y : Word) : Word := if y = 0#64 then x else BitVec.ofNat 64 (x.toNat % y.toNat)

/-- Leading zero bits, 64 for zero (04 R120). -/
def leadingZeros (x : Word) : Nat := if x = 0#64 then 64 else 63 - Nat.log2 x.toNat
/-- Trailing zero bits, 64 for zero (04 R120). -/
def trailingZeros (x : Word) : Nat := ((List.range 64).find? fun i => x.getLsbD i).getD 64
/-- Set bits (04 R120). -/
def onesCount (x : Word) : Nat := (List.range 64).countP fun i => x.getLsbD i

/-- The low w bits set. -/
def lowMask (w : Nat) : Word := BitVec.ofNat 64 (2 ^ w - 1)
/-- The w bits of x from bit p; bits above bit 63 read as zero (04 R120). -/
def extract (x : Word) (p w : Nat) : Word := (x >>> p) &&& lowMask w
/-- z with w bits from bit p replaced by the low bits of x; bits above bit 63 are dropped (04 R120). -/
def insertBits (z x : Word) (p w : Nat) : Word := (z &&& ~~~(lowMask w <<< p)) ||| ((x &&& lowMask w) <<< p)

/-- The pointer sum (04 R123), exact; none outside 0 to 2^56 - 1. -/
def pointerSum (x y : Word) : Option Word :=
  let v : Int := (ptrAddr x : Int) + y.toInt
  if 0 ≤ v ∧ v < 2 ^ 56 then some (x.extractLsb' 56 8 ++ BitVec.ofNat 56 v.toNat) else none

/-- G[d] takes the pointer sum, or the instruction takes a tag fault (04 R123). -/
def State.ptrSum (s : State) (d : BitVec 6) (x y : Word) : State :=
  match pointerSum x y with
  | some v => s.retire d v
  | none => s.fault 0x0D#8 0#8 0#64

/-- The distance of two pointers in elements (04 R124): none when their format codes differ or name no element. -/
def elemDistance (x y : Word) : Option Word :=
  if tagFmt x ≠ tagFmt y then none
  else
    match Fmt.ofCode (tagFmt x) with
    | none | some .raw => none
    | some f => some (BitVec.ofInt 64 ((elemIndex f (ptrAddr x) : Int) - elemIndex f (ptrAddr y)))

/-- NOP (04 R120). -/
def execNop  (s : State) : Out :=
  .next s.advance

/-- ADD (04 R120). -/
def execAdd (d a b : BitVec 6) (s : State) : Out :=
  .next (s.alu2 d a b fun x y => x + y)

/-- ADDI (04 R120). -/
def execAddi (d a : BitVec 6) (imm : BitVec 34) (s : State) : Out :=
  .next (s.alu1 d a fun x => x + imm34 imm)

/-- SUB (04 R120). -/
def execSub (d a b : BitVec 6) (s : State) : Out :=
  .next (s.alu2 d a b fun x y => x - y)

/-- MUL: the low 64 bits of the product (04 R120). -/
def execMul (d a b : BitVec 6) (s : State) : Out :=
  .next (s.alu2 d a b fun x y => x * y)

/-- MULH: bits 127:64 of the signed product (04 R120). -/
def execMulh (d a b : BitVec 6) (s : State) : Out :=
  .next (s.alu2 d a b fun x y => mulHigh x y)

/-- MULHU: bits 127:64 of the unsigned product (04 R120). -/
def execMulhu (d a b : BitVec 6) (s : State) : Out :=
  .next (s.alu2 d a b fun x y => mulHighU x y)

/-- DIV (04 R120, R122). -/
def execDiv (d a b : BitVec 6) (s : State) : Out :=
  .next (s.alu2 d a b fun x y => divS x y)

/-- DIVU (04 R120, R122). -/
def execDivu (d a b : BitVec 6) (s : State) : Out :=
  .next (s.alu2 d a b fun x y => divU x y)

/-- REM (04 R120, R122). -/
def execRem (d a b : BitVec 6) (s : State) : Out :=
  .next (s.alu2 d a b fun x y => remS x y)

/-- REMU (04 R120, R122). -/
def execRemu (d a b : BitVec 6) (s : State) : Out :=
  .next (s.alu2 d a b fun x y => remU x y)

/-- AND (04 R120). -/
def execAnd (d a b : BitVec 6) (s : State) : Out :=
  .next (s.alu2 d a b fun x y => x &&& y)

/-- ANDI (04 R120). -/
def execAndi (d a : BitVec 6) (imm : BitVec 34) (s : State) : Out :=
  .next (s.alu1 d a fun x => x &&& imm34 imm)

/-- OR (04 R120). -/
def execOr (d a b : BitVec 6) (s : State) : Out :=
  .next (s.alu2 d a b fun x y => x ||| y)

/-- ORI (04 R120). -/
def execOri (d a : BitVec 6) (imm : BitVec 34) (s : State) : Out :=
  .next (s.alu1 d a fun x => x ||| imm34 imm)

/-- XOR (04 R120). -/
def execXor (d a b : BitVec 6) (s : State) : Out :=
  .next (s.alu2 d a b fun x y => x ^^^ y)

/-- XORI (04 R120). -/
def execXori (d a : BitVec 6) (imm : BitVec 34) (s : State) : Out :=
  .next (s.alu1 d a fun x => x ^^^ imm34 imm)

/-- ANDN: a AND NOT b (04 R120). -/
def execAndn (d a b : BitVec 6) (s : State) : Out :=
  .next (s.alu2 d a b fun x y => x &&& ~~~y)

/-- SHL by b[5:0] (04 R120). -/
def execShl (d a b : BitVec 6) (s : State) : Out :=
  .next (s.alu2 d a b fun x y => x <<< shiftOf y)

/-- SHLI (04 R120, R121). -/
def execShli (d a : BitVec 6) (n : BitVec 6) (s : State) : Out :=
  .next (s.alu1 d a fun x => x <<< n.toNat)

/-- SHR by b[5:0] (04 R120). -/
def execShr (d a b : BitVec 6) (s : State) : Out :=
  .next (s.alu2 d a b fun x y => x >>> shiftOf y)

/-- SHRI (04 R120, R121). -/
def execShri (d a : BitVec 6) (n : BitVec 6) (s : State) : Out :=
  .next (s.alu1 d a fun x => x >>> n.toNat)

/-- SRA by b[5:0] (04 R120). -/
def execSra (d a b : BitVec 6) (s : State) : Out :=
  .next (s.alu2 d a b fun x y => x.sshiftRight (shiftOf y))

/-- SRAI (04 R120, R121). -/
def execSrai (d a : BitVec 6) (n : BitVec 6) (s : State) : Out :=
  .next (s.alu1 d a fun x => x.sshiftRight n.toNat)

/-- ROL by b[5:0] (04 R120). -/
def execRol (d a b : BitVec 6) (s : State) : Out :=
  .next (s.alu2 d a b fun x y => x.rotateLeft (shiftOf y))

/-- MIN, signed (04 R120). -/
def execMin (d a b : BitVec 6) (s : State) : Out :=
  .next (s.alu2 d a b fun x y => if y.slt x then y else x)

/-- MAX, signed (04 R120). -/
def execMax (d a b : BitVec 6) (s : State) : Out :=
  .next (s.alu2 d a b fun x y => if x.slt y then y else x)

/-- MINU (04 R120). -/
def execMinu (d a b : BitVec 6) (s : State) : Out :=
  .next (s.alu2 d a b fun x y => if y.ult x then y else x)

/-- MAXU (04 R120). -/
def execMaxu (d a b : BitVec 6) (s : State) : Out :=
  .next (s.alu2 d a b fun x y => if x.ult y then y else x)

/-- CLZ: 64 for zero (04 R120). -/
def execClz (d a : BitVec 6) (s : State) : Out :=
  .next (s.alu1 d a fun x => BitVec.ofNat 64 (leadingZeros x))

/-- CTZ: 64 for zero (04 R120). -/
def execCtz (d a : BitVec 6) (s : State) : Out :=
  .next (s.alu1 d a fun x => BitVec.ofNat 64 (trailingZeros x))

/-- POPC (04 R120). -/
def execPopc (d a : BitVec 6) (s : State) : Out :=
  .next (s.alu1 d a fun x => BitVec.ofNat 64 (onesCount x))

/-- EXTR with width w + 1, the sub field holding the width less 1 (04 R120, R121). -/
def execExtr (d a b : BitVec 6) (w : BitVec 6) (s : State) : Out :=
  .next (s.alu2 d a b fun x y => extract x (shiftOf y) (w.toNat + 1))

/-- INS with width w + 1 (04 R120, R121). -/
def execIns (d a b c : BitVec 6) (w : BitVec 6) (s : State) : Out :=
  .next (s.alu3 d a b c fun x y z => insertBits z x (shiftOf y) (w.toNat + 1))

/-- SEL: a when c is not 0, else b (04 R120). -/
def execSel (d a b c : BitVec 6) (s : State) : Out :=
  .next (s.alu3 d a b c fun x y z => if z = 0#64 then y else x)

/-- CMP (04 R120, R121; 02 R64). -/
def execCmp (cc : Cond) (d a b : BitVec 6) (s : State) : Out :=
  .next (s.alu2 d a b fun x y => boolWord (Cond.holds cc x y))

/-- CMPI with a signed 30-bit immediate (04 R120, R121). -/
def execCmpi (cc : Cond) (d a : BitVec 6) (imm : BitVec 30) (s : State) : Out :=
  .next (s.alu1 d a fun x => boolWord (Cond.holds cc x (imm.signExtend 64)))

/-- LI (04 R120). -/
def execLi (d : BitVec 6) (imm : BitVec 34) (s : State) : Out :=
  .next (s.retire d (imm34 imm))

/-- LIH: the immediate in bits 63:34 above a[33:0] (04 R120). -/
def execLih (d a : BitVec 6) (imm : BitVec 30) (s : State) : Out :=
  .next (s.alu1 d a fun x => imm ++ x.extractLsb' 0 34)

/-- ADDA: the pointer sum, or a tag fault (04 R123). -/
def execAdda (d a b : BitVec 6) (s : State) : Out :=
  .next (s.withSrc (fun c => c.srcG2 a b) fun x s => s.ptrSum d x.1 x.2)

/-- ADDAI: the pointer sum, or a tag fault (04 R123). -/
def execAddai (d a : BitVec 6) (imm : BitVec 34) (s : State) : Out :=
  .next (s.withSrc (fun c => c.srcG a) fun x s => s.ptrSum d x (imm34 imm))

/-- TAGSET: b[7:0] above a[55:0] (04 R120). -/
def execTagset (d a b : BitVec 6) (s : State) : Out :=
  .next (s.alu2 d a b fun x y => y.extractLsb' 0 8 ++ x.extractLsb' 0 56)

/-- TAGGET: a[63:56] (04 R120). -/
def execTagget (d a : BitVec 6) (s : State) : Out :=
  .next (s.alu1 d a fun x => (x.extractLsb' 56 8).setWidth 64)

/-- PDIFF: the distance in elements, or a tag fault (04 R124). -/
def execPdiff (d a b : BitVec 6) (s : State) : Out :=
  .next (s.withSrc (fun c => c.srcG2 a b) fun x s =>
    match elemDistance x.1 x.2 with
    | some v => s.retire d v
    | none => s.fault 0x0D#8 0#8 0#64)

end Sys2Proof.Machine
end

