-- ==== Sys2Proof/Machine/Dispatch.lean ====
section
/-!
DEFINITION. Every step of the machine with its meaning, one arm per constructor.
-/

namespace Sys2Proof.Machine

def exec (i : Instr) (s : State) : Host.Outcome State Fault Refusal :=
  match i with
  | .nop => Sys2Proof.Machine.execNop s
  | .add d a b => Sys2Proof.Machine.execAdd d a b s
  | .addi d a imm => Sys2Proof.Machine.execAddi d a imm s
  | .sub d a b => Sys2Proof.Machine.execSub d a b s
  | .mul d a b => Sys2Proof.Machine.execMul d a b s
  | .mulh d a b => Sys2Proof.Machine.execMulh d a b s
  | .mulhu d a b => Sys2Proof.Machine.execMulhu d a b s
  | .div d a b => Sys2Proof.Machine.execDiv d a b s
  | .divu d a b => Sys2Proof.Machine.execDivu d a b s
  | .rem d a b => Sys2Proof.Machine.execRem d a b s
  | .remu d a b => Sys2Proof.Machine.execRemu d a b s
  | .and d a b => Sys2Proof.Machine.execAnd d a b s
  | .andi d a imm => Sys2Proof.Machine.execAndi d a imm s
  | .or d a b => Sys2Proof.Machine.execOr d a b s
  | .ori d a imm => Sys2Proof.Machine.execOri d a imm s
  | .xor d a b => Sys2Proof.Machine.execXor d a b s
  | .xori d a imm => Sys2Proof.Machine.execXori d a imm s
  | .andn d a b => Sys2Proof.Machine.execAndn d a b s
  | .shl d a b => Sys2Proof.Machine.execShl d a b s
  | .shli d a n => Sys2Proof.Machine.execShli d a n s
  | .shr d a b => Sys2Proof.Machine.execShr d a b s
  | .shri d a n => Sys2Proof.Machine.execShri d a n s
  | .sra d a b => Sys2Proof.Machine.execSra d a b s
  | .srai d a n => Sys2Proof.Machine.execSrai d a n s
  | .rol d a b => Sys2Proof.Machine.execRol d a b s
  | .min d a b => Sys2Proof.Machine.execMin d a b s
  | .max d a b => Sys2Proof.Machine.execMax d a b s
  | .minu d a b => Sys2Proof.Machine.execMinu d a b s
  | .maxu d a b => Sys2Proof.Machine.execMaxu d a b s
  | .clz d a => Sys2Proof.Machine.execClz d a s
  | .ctz d a => Sys2Proof.Machine.execCtz d a s
  | .popc d a => Sys2Proof.Machine.execPopc d a s
  | .extr d a b w => Sys2Proof.Machine.execExtr d a b w s
  | .ins d a b c w => Sys2Proof.Machine.execIns d a b c w s
  | .sel d a b c => Sys2Proof.Machine.execSel d a b c s
  | .cmp cc d a b => Sys2Proof.Machine.execCmp cc d a b s
  | .cmpi cc d a imm => Sys2Proof.Machine.execCmpi cc d a imm s
  | .li d imm => Sys2Proof.Machine.execLi d imm s
  | .lih d a imm => Sys2Proof.Machine.execLih d a imm s
  | .adda d a b => Sys2Proof.Machine.execAdda d a b s
  | .addai d a imm => Sys2Proof.Machine.execAddai d a imm s
  | .tagset d a b => Sys2Proof.Machine.execTagset d a b s
  | .tagget d a => Sys2Proof.Machine.execTagget d a s
  | .pdiff d a b => Sys2Proof.Machine.execPdiff d a b s
  | .fadd rm d a b => Sys2Proof.Machine.execFadd rm d a b s
  | .fsub rm d a b => Sys2Proof.Machine.execFsub rm d a b s
  | .fmul rm d a b => Sys2Proof.Machine.execFmul rm d a b s
  | .fma rm d a b c => Sys2Proof.Machine.execFma rm d a b c s
  | .fmin d a b => Sys2Proof.Machine.execFmin d a b s
  | .fmax d a b => Sys2Proof.Machine.execFmax d a b s
  | .fcmp fc d a b => Sys2Proof.Machine.execFcmp fc d a b s
  | .fcvt src dst rm d a => Sys2Proof.Machine.execFcvt src dst rm d a s
  | .fclass f d a => Sys2Proof.Machine.execFclass f d a s
  | .dadd m d a b mask => Sys2Proof.Machine.execDadd m d a b mask s
  | .dsub m d a b mask => Sys2Proof.Machine.execDsub m d a b mask s
  | .dmul m d a b mask => Sys2Proof.Machine.execDmul m d a b mask s
  | .dfma m d a b c mask => Sys2Proof.Machine.execDfma m d a b c mask s
  | .dmin m d a b mask => Sys2Proof.Machine.execDmin m d a b mask s
  | .dmax m d a b mask => Sys2Proof.Machine.execDmax m d a b mask s
  | .dand d a b mask => Sys2Proof.Machine.execDand d a b mask s
  | .dor d a b mask => Sys2Proof.Machine.execDor d a b mask s
  | .dxor d a b mask => Sys2Proof.Machine.execDxor d a b mask s
  | .dshl d a k mask => Sys2Proof.Machine.execDshl d a k mask s
  | .dshr arith d a k mask => Sys2Proof.Machine.execDshr arith d a k mask s
  | .dcmp m d a b mask => Sys2Proof.Machine.execDcmp m d a b mask s
  | .dsel d a b c mask => Sys2Proof.Machine.execDsel d a b c mask s
  | .dcvt src dst rm d a mask => Sys2Proof.Machine.execDcvt src dst rm d a mask s
  | .dbcast d a j mask => Sys2Proof.Machine.execDbcast d a j mask s
  | .dext ty d a j => Sys2Proof.Machine.execDext ty d a j s
  | .dins d a j => Sys2Proof.Machine.execDins d a j s
  | .dshuf d a b mask => Sys2Proof.Machine.execDshuf d a b mask s
  | .dscan ty op ex d a mask => Sys2Proof.Machine.execDscan ty op ex d a mask s
  | .dred ty op d a mask => Sys2Proof.Machine.execDred ty op d a mask s
  | .dhist rank d a b mask => Sys2Proof.Machine.execDhist rank d a b mask s
  | .diota d start step mask => Sys2Proof.Machine.execDiota d start step mask s
  | .ld d base index sc ord scope off => Sys2Proof.Machine.execLd d base index sc ord scope off s
  | .st s2 base index sc ord scope off => Sys2Proof.Machine.execSt s2 base index sc ord scope off s
  | .ldf d base index sc ord scope off => Sys2Proof.Machine.execLdf d base index sc ord scope off s
  | .stf s2 base index sc ord scope off => Sys2Proof.Machine.execStf s2 base index sc ord scope off s
  | .ldd d base index sc ord scope off => Sys2Proof.Machine.execLdd d base index sc ord scope off s
  | .std s2 base index sc ord scope off => Sys2Proof.Machine.execStd s2 base index sc ord scope off s
  | .lddf d base index sc ord scope off => Sys2Proof.Machine.execLddf d base index sc ord scope off s
  | .stdf s2 base index sc ord scope off => Sys2Proof.Machine.execStdf s2 base index sc ord scope off s
  | .amo op d base index ord scope off => Sys2Proof.Machine.execAmo op d base index ord scope off s
  | .cas d base index ord scope off => Sys2Proof.Machine.execCas d base index ord scope off s
  | .pref base index sc scope off => Sys2Proof.Machine.execPref base index sc scope off s
  | .discard d base index sc scope off => Sys2Proof.Machine.execDiscard d base index sc scope off s
  | .flush d base index sc scope off => Sys2Proof.Machine.execFlush d base index sc scope off s
  | .fence ord scope => Sys2Proof.Machine.execFence ord scope s
  | .br cc a b slot line => Sys2Proof.Machine.execBr cc a b slot line s
  | .jmp slot line => Sys2Proof.Machine.execJmp slot line s
  | .jmpr a => Sys2Proof.Machine.execJmpr a s
  | .call slot line => Sys2Proof.Machine.execCall slot line s
  | .start p a b slot line => Sys2Proof.Machine.execStart p a b slot line s
  | .exit => Sys2Proof.Machine.execExit s
  | .yield => Sys2Proof.Machine.execYield s
  | .ctxq q d a => Sys2Proof.Machine.execCtxq q d a s
  | .send notice d a b c => Sys2Proof.Machine.execSend notice d a b c s
  | .recv d a b => Sys2Proof.Machine.execRecv d a b s
  | .waitm d => Sys2Proof.Machine.execWaitm d s
  | .rrsv d a h => Sys2Proof.Machine.execRrsv d a h s
  | .rpub a b h => Sys2Proof.Machine.execRpub a b h s
  | .rwait d a h => Sys2Proof.Machine.execRwait d a h s
  | .radv a h => Sys2Proof.Machine.execRadv a h s
  | .reos h => Sys2Proof.Machine.execReos h s
  | .rqry q d h => Sys2Proof.Machine.execRqry q d h s
  | .smode x a b => Sys2Proof.Machine.execSmode x a b s
  | .soff x => Sys2Proof.Machine.execSoff x s
  | .copy a b c => Sys2Proof.Machine.execCopy a b c s
  | .gather a b c => Sys2Proof.Machine.execGather a b c s
  | .scatter a b c => Sys2Proof.Machine.execScatter a b c s
  | .rcopy op idx a b c => Sys2Proof.Machine.execRcopy op idx a b c s
  | .cretry a => Sys2Proof.Machine.execCretry a s
  | .cskip row a => Sys2Proof.Machine.execCskip row a s
  | .cabort a => Sys2Proof.Machine.execCabort a s
  | .step d g => Sys2Proof.Machine.execStep d g s
  | .handoff d a n => Sys2Proof.Machine.execHandoff d a n s
  | .take d n => Sys2Proof.Machine.execTake d n s
  | .post a b k => Sys2Proof.Machine.execPost a b k s
  | .trap imm => Sys2Proof.Machine.execTrap imm s
  | .eret => Sys2Proof.Machine.execEret s
  | .sysr d a cw => Sys2Proof.Machine.execSysr d a cw s
  | .sysw d a cw => Sys2Proof.Machine.execSysw d a cw s
  | .resume a b => Sys2Proof.Machine.execResume a b s
  | .halt => Sys2Proof.Machine.execHalt s
  | .tlbi k a b => Sys2Proof.Machine.execTlbi k a b s
  | .dbgbrk id => Sys2Proof.Machine.execDbgbrk id s
  | .mill acc c fA fB ma mb sweeps m nf => Sys2Proof.Machine.execMill acc c fA fB ma mb sweeps m nf s
  | .millg acc c fA fB ma mb w sweeps m nf => Sys2Proof.Machine.execMillg acc c fA fB ma mb w sweeps m nf s
  | .millx acc c fA fB ma mb off sweeps m nf => Sys2Proof.Machine.execMillx acc c fA fB ma mb off sweeps m nf s
  | .mzero acc nf => Sys2Proof.Machine.execMzero acc nf s
  | .mdrain d bank nf => Sys2Proof.Machine.execMdrain d bank nf s
  | .mseta d a nf => Sys2Proof.Machine.execMseta d a nf s
  | .msetb d a nf => Sys2Proof.Machine.execMsetb d a nf s
  | .midx a nf => Sys2Proof.Machine.execMidx a nf s
  | .vadd ty x => Sys2Proof.Machine.execVadd ty x s
  | .vsub ty x => Sys2Proof.Machine.execVsub ty x s
  | .vmul ty x => Sys2Proof.Machine.execVmul ty x s
  | .vfma ty x => Sys2Proof.Machine.execVfma ty x s
  | .vmin ty x => Sys2Proof.Machine.execVmin ty x s
  | .vmax ty x => Sys2Proof.Machine.execVmax ty x s
  | .vand ty x => Sys2Proof.Machine.execVand ty x s
  | .vor ty x => Sys2Proof.Machine.execVor ty x s
  | .vxor ty x => Sys2Proof.Machine.execVxor ty x s
  | .vshl ty x => Sys2Proof.Machine.execVshl ty x s
  | .vshr ty x => Sys2Proof.Machine.execVshr ty x s
  | .vsra ty x => Sys2Proof.Machine.execVsra ty x s
  | .vcmp ty x => Sys2Proof.Machine.execVcmp ty x s
  | .vsel ty x => Sys2Proof.Machine.execVsel ty x s
  | .vcvt ty widen rm f x => Sys2Proof.Machine.execVcvt ty widen rm f x s
  | .vpack f d a nf => Sys2Proof.Machine.execVpack f d a nf s
  | .vunpk f d a nf => Sys2Proof.Machine.execVunpk f d a nf s
  | .vexp2 ty x => Sys2Proof.Machine.execVexp2 ty x s
  | .vlog2 ty x => Sys2Proof.Machine.execVlog2 ty x s
  | .vrcp ty x => Sys2Proof.Machine.execVrcp ty x s
  | .vrsq ty x => Sys2Proof.Machine.execVrsq ty x s
  | .vred ty op x => Sys2Proof.Machine.execVred ty op x s
  | .vscan ty op ex x => Sys2Proof.Machine.execVscan ty op ex x s
  | .vthr x => Sys2Proof.Machine.execVthr x s
  | .vbis x => Sys2Proof.Machine.execVbis x s
  | .vcnt x => Sys2Proof.Machine.execVcnt x s
  | .vperm x => Sys2Proof.Machine.execVperm x s
  | .vrot n x => Sys2Proof.Machine.execVrot n x s
  | .vbc j x => Sys2Proof.Machine.execVbc j x s
  | .vmov x => Sys2Proof.Machine.execVmov x s
  | .vli hi lane d imm nf => Sys2Proof.Machine.execVli hi lane d imm nf s
  | .vld d a off nf => Sys2Proof.Machine.execVld d a off nf s
  | .vst p d a off nf => Sys2Proof.Machine.execVst p d a off nf s
  | .sld p sx seg len nf => Sys2Proof.Machine.execSld p sx seg len nf s
  | .sldl spread sx seg len nf => Sys2Proof.Machine.execSldl spread sx seg len nf s
  | .sst sx seg len nf => Sys2Proof.Machine.execSst sx seg len nf s
  | .sgth p f sx seg len nf => Sys2Proof.Machine.execSgth p f sx seg len nf s
  | .ssct f sx seg len nf => Sys2Proof.Machine.execSsct f sx seg len nf s
  | .sxl p dir sx len nf => Sys2Proof.Machine.execSxl p dir sx len nf s
  | .scnt p dir sx len nf => Sys2Proof.Machine.execScnt p dir sx len nf s
  | .smeta dir sx len nf => Sys2Proof.Machine.execSmeta dir sx len nf s
  | .sset dst sx sy len nf => Sys2Proof.Machine.execSset dst sx sy len nf s
  | .window pol w len => Sys2Proof.Machine.execWindow pol w len s
  | .pread x k n => Sys2Proof.Machine.execPread x k n s
  | .nfset rel ctr k j v => Sys2Proof.Machine.execNfset rel ctr k j v s
  | .nfclr mask => Sys2Proof.Machine.execNfclr mask s
  | .loopset c rld cnt => Sys2Proof.Machine.execLoopset c rld cnt s
  | .tstep g d => Sys2Proof.Machine.execTstep g d s
  | .tmark v => Sys2Proof.Machine.execTmark v s
  | .tsync e => Sys2Proof.Machine.execTsync e s
  | .tend => Sys2Proof.Machine.execTend s
  | .twait n => Sys2Proof.Machine.execTwait n s
  | .linkBeatPresent ext => Sys2Proof.Machine.execLinkBeatPresent ext s
  | .metadataPairArrival ext => Sys2Proof.Machine.execMetadataPairArrival ext s
  | .windowClose w => Sys2Proof.Machine.execWindowClose w s
  | .postArrival n => Sys2Proof.Machine.execPostArrival n s
  | .holdArrival ext => Sys2Proof.Machine.execHoldArrival ext s
  | .stepGroupComplete g => Sys2Proof.Machine.execStepGroupComplete g s
  | .stepTakesEffect g => Sys2Proof.Machine.execStepTakesEffect g s
  | .stepCompletionWake g => Sys2Proof.Machine.execStepCompletionWake g s
  | .tsyncMarkerArrival ext => Sys2Proof.Machine.execTsyncMarkerArrival ext s
  | .accessPerformed n => Sys2Proof.Machine.execAccessPerformed n s
  | .pageWalk va store => Sys2Proof.Machine.execPageWalk va store s
  | .messageArrival n => Sys2Proof.Machine.execMessageArrival n s
  | .copyElement op => Sys2Proof.Machine.execCopyElement op s
  | .copyCompletion op => Sys2Proof.Machine.execCopyCompletion op s
  | .streamRefill x => Sys2Proof.Machine.execStreamRefill x s
  | .trapDelivery cause detail f1 => Sys2Proof.Machine.execTrapDelivery cause detail f1 s
  | .upcall cause f1 => Sys2Proof.Machine.execUpcall cause f1 s
  | .servicePath o => Sys2Proof.Machine.execServicePath o s
  | .faultCompletionNotice tag => Sys2Proof.Machine.execFaultCompletionNotice tag s
  | .preempt leave => Sys2Proof.Machine.execPreempt leave s
  | .epochAnnounce tb => Sys2Proof.Machine.execEpochAnnounce tb s
  | .switchSwapComplete saveErr restoreErr => Sys2Proof.Machine.execSwitchSwapComplete saveErr restoreErr s
  | .advisorEpochEnd depth => Sys2Proof.Machine.execAdvisorEpochEnd depth s
  | .patrolScrub sector corrected => Sys2Proof.Machine.execPatrolScrub sector corrected s
  | .bridgeFlitRetry delay => Sys2Proof.Machine.execBridgeFlitRetry delay s
  | .causewayRetry west link delay => Sys2Proof.Machine.execCausewayRetry west link delay s
  | .causewayRetryTimeout west link => Sys2Proof.Machine.execCausewayRetryTimeout west link s
  | .ueWorkItem port => Sys2Proof.Machine.execUeWorkItem port s
  | .ueIncoming port op => Sys2Proof.Machine.execUeIncoming port op s
  | .qtailWrite q v => Sys2Proof.Machine.execQtailWrite q v s
  | .packetAccept q => Sys2Proof.Machine.execPacketAccept q s
  | .hseenWrite v => Sys2Proof.Machine.execHseenWrite v s
  | .replay v => Sys2Proof.Machine.execReplay v s
  | .bar0RegisterWrite off v => Sys2Proof.Machine.execBar0RegisterWrite off v s
  | .bar2Read off len => Sys2Proof.Machine.execBar2Read off len s
  | .bar2Write off data => Sys2Proof.Machine.execBar2Write off data s
  | .tdispRequest mode => Sys2Proof.Machine.execTdispRequest mode s
  | .spdmRequest r => Sys2Proof.Machine.execSpdmRequest r s
  | .claim session bothSides keyHash => Sys2Proof.Machine.execClaim session bothSides keyHash s
  | .grant index base len read write => Sys2Proof.Machine.execGrant index base len read write s
  | .grantRevoke index => Sys2Proof.Machine.execGrantRevoke index s
  | .debugok mask => Sys2Proof.Machine.execDebugok mask s
  | .debugoff mask => Sys2Proof.Machine.execDebugoff mask s
  | .ldataRead d => Sys2Proof.Machine.execLdataRead d s
  | .ldataWrite d => Sys2Proof.Machine.execLdataWrite d s
  | .srecRead tile d => Sys2Proof.Machine.execSrecRead tile d s
  | .bootStage f => Sys2Proof.Machine.execBootStage f s
  | .ueWorkCompletion port status detail moved data => Sys2Proof.Machine.execUeWorkCompletion port status detail moved data s
  | .checkpointStreamComplete ok bytes => Sys2Proof.Machine.execCheckpointStreamComplete ok bytes s
  | .launch => Sys2Proof.Machine.execLaunch s
  | .signal => Sys2Proof.Machine.execSignal s
  | .attach => Sys2Proof.Machine.execAttach s
  | .detach => Sys2Proof.Machine.execDetach s
  | .arm => Sys2Proof.Machine.execArm s
  | .disarm => Sys2Proof.Machine.execDisarm s
  | .stop => Sys2Proof.Machine.execStop s
  | .release => Sys2Proof.Machine.execRelease s
  | .dump => Sys2Proof.Machine.execDump s
  | .poke => Sys2Proof.Machine.execPoke s
  | .trace => Sys2Proof.Machine.execTrace s
  | .logcopy => Sys2Proof.Machine.execLogcopy s
  | .event => Sys2Proof.Machine.execEvent s
  | .checkpointSave => Sys2Proof.Machine.execCheckpointSave s
  | .checkpointRestore => Sys2Proof.Machine.execCheckpointRestore s
  | .quiesceEnter => Sys2Proof.Machine.execQuiesceEnter s
  | .quiesceLeave => Sys2Proof.Machine.execQuiesceLeave s
  | .reshape => Sys2Proof.Machine.execReshape s
  | .portring => Sys2Proof.Machine.execPortring s
  | .peer => Sys2Proof.Machine.execPeer s
  | .mregion => Sys2Proof.Machine.execMregion s
  | .cwrite => Sys2Proof.Machine.execCwrite s
  | .vecResultWrite => Sys2Proof.Machine.execVecResultWrite s
  | .ssetFillUnit => Sys2Proof.Machine.execSsetFillUnit s
  | .millReadyCycle => Sys2Proof.Machine.execMillReadyCycle s
  | .staticBurstPerform => Sys2Proof.Machine.execStaticBurstPerform s
  | .staticReadLanding => Sys2Proof.Machine.execStaticReadLanding s
  | .holdFrameTest => Sys2Proof.Machine.execHoldFrameTest s
  | .tsyncMarkerTimeout => Sys2Proof.Machine.execTsyncMarkerTimeout s
  | .haltTreeArrival => Sys2Proof.Machine.execHaltTreeArrival s
  | .partialWorkReport => Sys2Proof.Machine.execPartialWorkReport s
  | .hangWatchdog => Sys2Proof.Machine.execHangWatchdog s
  | .icacheFillComplete => Sys2Proof.Machine.execIcacheFillComplete s
  | .contextSwitch => Sys2Proof.Machine.execContextSwitch s
  | .forcedSwitch => Sys2Proof.Machine.execForcedSwitch s
  | .tlbAcknowledge => Sys2Proof.Machine.execTlbAcknowledge s
  | .pendingQueueReturn => Sys2Proof.Machine.execPendingQueueReturn s
  | .copyFault => Sys2Proof.Machine.execCopyFault s
  | .bellSweep => Sys2Proof.Machine.execBellSweep s
  | .launchEpoch => Sys2Proof.Machine.execLaunchEpoch s
  | .loadingComplete => Sys2Proof.Machine.execLoadingComplete s
  | .quantumExpiry => Sys2Proof.Machine.execQuantumExpiry s
  | .switchDrainComplete => Sys2Proof.Machine.execSwitchDrainComplete s
  | .traceSample => Sys2Proof.Machine.execTraceSample s
  | .bridgeFlitTimeout => Sys2Proof.Machine.execBridgeFlitTimeout s
  | .causewayLockLoss => Sys2Proof.Machine.execCausewayLockLoss s
  | .ideIntegrityFailure => Sys2Proof.Machine.execIdeIntegrityFailure s
  | .quiesceLimit => Sys2Proof.Machine.execQuiesceLimit s
  | .coldReset => Sys2Proof.Machine.execColdReset s
  | .hostPortReset => Sys2Proof.Machine.execHostPortReset s
  | .powerLoss => Sys2Proof.Machine.execPowerLoss s
  | .thermalTrip => Sys2Proof.Machine.execThermalTrip s
  | .millSweepRead => Sys2Proof.Machine.execMillSweepRead s
  | .mdrainRowWrite => Sys2Proof.Machine.execMdrainRowWrite s
  | .staticBurstSlot => Sys2Proof.Machine.execStaticBurstSlot s
  | .linkBeatDeparture => Sys2Proof.Machine.execLinkBeatDeparture s
  | .chainMemberLeft => Sys2Proof.Machine.execChainMemberLeft s
  | .restoreAuthorisation => Sys2Proof.Machine.execRestoreAuthorisation s

end Sys2Proof.Machine
end

