-- ==== Sys2Proof/Machine/Sched.lean ====
section
/-!
DEFINITION. The passing of one dc and what falls due in it (05 R150; 07 R208-R240; 10 R314-R322; 11 R325-R329; 12 R348-R359;
13 R370): the model's own schedule. In each dc every actor does one thing, in the order of this file; any other order comes
from the agenda (log 1). Also the bit errors of 08 R261 and R262.
-/

namespace Sys2Proof.Machine

/-- The state that a meaning leaves; as it was where the meaning stops. -/
def State.after (s : State) (o : Out) : State :=
  match o with
  | .next t => t
  | _ => s

/-! ## The beginning of a tc (11 R325, R328; 12 R348, R359) -/

/-- A node begins its next SCYC tc, or is paused. -/
def Node.turn (n : Node) : Node :=
  if n.stop.isSome then { n with h := n.h + 1, paused := true }
  else if 0 < n.owed then { n with owed := n.owed - 1, h := n.h + 1, cont := n.cont + 1, paused := true }
  else { n with cont := 0, paused := false }

/-- Whether something that tile t has issued has not reached its last effect (07 R240). -/
def Part.tileBusy (p : Part) (t : Nat) (x : Tile) : Bool :=
  let sent := fun (d : Dir) =>
    match p.toward t d with
    | .tile u _ => (p.job.tile u).beats.any fun b => decide (b.dir = Dir.opposite d)
    | _ => false
  (x.chains.any fun c => c.2.live) || !x.mills.isEmpty || !x.zeros.isEmpty || !x.drains.isEmpty || !x.vwrites.isEmpty
    || !x.vsts.isEmpty || !x.afar.isEmpty || !x.fills.isEmpty || !x.bursts.isEmpty || !x.xfers.isEmpty || [Dir.n, .e, .s, .w].any sent
    || p.job.tiles.any fun y => y.2.pairs.any fun z => z.writer == t

/-- The tiles at the beginning of a tc: errors of the last tc are told, hold cycles count (14 R398), and a timetable that has
nothing left to do has ended (07 R240). -/
def Part.tilesBegin (p : Part) : SMap Tile :=
  p.job.tiles.map fun x =>
    let z := { x.2 with afar := x.2.afar.filter fun d => decide (p.job.scyc x.1 ≤ d) }
    let y := if (p.job.node x.1).paused then z.bump 2 1 else z
    (x.1, { y with cerr := false, statSet := 0#64, stored := [], ended := x.2.ended || (x.2.named && !p.tileBusy x.1 z) })

/-- Whether a job uses its quantum (10 R310, R312): unless a job-wide switch or a fault has stopped it. One that a debugger has
stopped does. -/
def Job.usesQuantum (j : Job) : Bool :=
  match j.stop with
  | some g => g.cause == 0x21#8 && !g.fatal
  | none => true

/-- A tc of TIMEBASE begins: holds arrive, every node begins its tc or is paused, and the quantum counts it. -/
def State.tcBegins (s : State) : State :=
  let t := s.onJob fun j => { j with tb := j.tb + 1, phase := false }
  let u := t.after (execHoldArrival none t)
  let v := u.onJob fun j => u.pt.nodes.foldl (fun j n => j.onNode n Node.turn) j
  let w := v.onJob fun j => { j with tiles := v.pt.tilesBegin }
  match w.pt.cur with
  | some k => if w.job.usesQuantum then w.onPt fun p => p.onRes k fun r => { r with used := r.used + 1 } else w
  | none => w

/-- The clocks of the current job after one dc more; its first dc is dc 0 of tc 0. -/
def State.jobTime (s : State) : State :=
  if !s.job.begun then s.onJob fun j => { j with begun := true }
  else if !s.job.phase then s.onJob fun j => { j with phase := true }
  else s.tcBegins

/-! ## Conditions that have come to hold -/

/-- Whether what a context waits for, to issue again, has come. -/
def State.waitOver (s : State) (c k : Nat) : Bool :=
  let x := s.coreAt c
  match (x.ctx k).wait with
  | .release sc => ({ s with focus := { s.focus with core := c } } : State).released k sc
  | .stores =>
    x.storesDone k && (s.job.posts.all fun p => p.src != ctxWriter c k) && s.job.msgs.all fun m => m.returned || m.src != gctx c k
  | .queueFull => decide (x.sq.length < 16)
  | .helper h => (x.ctx h).state == .free
  | _ => false

/-- Contexts whose condition has come to hold are ready (10 R315), unless a stop holds their core (12 R350). -/
def State.wakeRetries (s : State) : State :=
  let l := s.job.cores.flatMap fun c => c.2.ctxs.filterMap fun x =>
    if x.2.state = .parked ∧ !c.2.stopped ∧ s.waitOver c.1 x.1 then some (c.1, x.1) else none
  l.foldl (fun s x => s.onCtxAt x.1 x.2 Ctx.wake) s

/-- The dc from which the quiet condition has held without a break (10 R322). -/
def Part.noteQuiet (p : Part) : Part :=
  p.onJob fun j => { j with quietFrom := if p.quiet then some (j.quietFrom.getD j.dc) else none }

/-- Whether some context of a core waits in a way. -/
def Core.waits (c : Core) (f : Wait → Bool) : Bool := c.ctxs.any fun x => x.2.state == .parked && f x.2.wait

/-- What the counters of a core tell of a dc (14 R398): one in which a context is parked in STEP, and one in which a context
is parked in WAITM, RWAIT or TAKE. -/
def Core.dcCount (c : Core) : Core :=
  let step := fun (w : Wait) => match w with | .step _ _ => true | _ => false
  let mail := fun (w : Wait) =>
    match w with
    | .message _ | .take _ _ => true
    | .pend (.ring (.rwait _) _ _ _) => true
    | _ => false
  let c := if c.waits step then c.bump 6 1 else c
  if c.waits mail then c.bump 7 1 else c

/-- One dc of the partition in focus. -/
def State.partTick (s : State) : State :=
  let t := if s.clock % 2 = 0 then s.onPt fun p => { p with switch := p.switch.map fun w => { w with since := w.since + 1 } } else s
  let u :=
    if t.pt.cur.isSome then
      (((t.jobTime.wakeRetries).onPt Part.noteQuiet).onJob fun j =>
        { j with cores := j.cores.map fun c => (c.1, c.2.dcCount), taken := [] }).settleEvents
    else t
  u.quiesceCheck

/-! ## What is due in a dc -/

/-- A step as a mover of partition n with nobody else in focus. -/
def moverOf (n : Nat) (i : Instr) : Mover := .op { part := n, core := 0, ctx := 0, tile := 0, eng := .mill, queue := 0 } i
/-- The packet at the head of queue q. -/
def packetMover (n q : Nat) (i : Instr) : Mover := .op { part := n, core := 0, ctx := 0, tile := 0, eng := .mill, queue := q } i
/-- A step of a tile. -/
def tileMover (n t : Nat) (i : Instr) : Mover := .op { part := n, core := 0, ctx := 0, tile := t, eng := .mill, queue := 0 } i
/-- A step of a context, with a TLB number or tile. -/
def ctxMover (n c k t : Nat) (i : Instr) : Mover := .op { part := n, core := c, ctx := k, tile := t, eng := .mill, queue := 0 } i

/-- The step groups of a tile's TSTEPs that are due by a tc. -/
def Tile.stepsDue (t : Tile) (due : Nat → Bool) : List Nat :=
  (List.range 64).filter fun g => t.tsteps.any fun r => r.g == g && due r.due

/-- The tiles that have begun a tc and not stopped. -/
def Job.runningTiles (j : Job) : List (Nat × Tile) := j.tiles.filter fun x => !(j.node x.1).paused && (j.node x.1).stop.isNone

/-- The first half of a tc: completions take effect, chains issue, then what the engines do in the tc. A Mill goes on after
the permanent hold of a stop (06 R207). -/
def Part.tcEarly (p : Part) (n : Nat) : List Mover :=
  let j := p.job
  let runs := j.runningTiles
  let all := fun (i : Instr) => runs.map fun x => tileMover n x.1 i
  let mills := j.tiles.filter fun x =>
    (!(j.node x.1).paused || (j.node x.1).stop.isSome) && ((j.node x.1).stop.isNone || !x.2.mills.isEmpty || !x.2.zeros.isEmpty)
  let chains := fun (x : Nat × Tile) => [Eng.mill, .vec, .strm, .reeve].filterMap fun e =>
    let c := SMap.get x.2.chains (engNum e)
    if c.live && decide (c.due ≤ j.scyc x.1) then some (Mover.chain n x.1 e) else none
  (runs.flatMap fun x => (x.2.stepsDue fun d => decide (d ≤ j.scyc x.1)).map fun g =>
      tileMover n x.1 (.stepTakesEffect (BitVec.ofNat 6 g)))
    ++ runs.flatMap chains
    ++ (mills.map fun x => tileMover n x.1 .millReadyCycle) ++ (mills.map fun x => tileMover n x.1 .millSweepRead)
    ++ all .mdrainRowWrite ++ all .staticBurstSlot ++ all .linkBeatDeparture

/-- Whether a window of a tile closes at the end of tc c. -/
def Tile.closesAt (t : Tile) (c : Nat) : Bool := (List.range 16).any fun w => wdOpen (SMap.get t.wctl w) && decide (SMap.get t.wclose w ≤ c + 1)

/-- The end of a tc: bursts at their channels, landings and arrivals, results, windows, and what must have come by then. The dynamic
stores that a closing window has admitted are first of all the writes of its tc (07 R224). -/
def Part.tcLate (p : Part) (n : Nat) : List Mover :=
  let j := p.job
  let runs := j.runningTiles
  let all := fun (i : Instr) => runs.map fun x => tileMover n x.1 i
  let syncs := j.tiles.filter fun x => !x.2.syncs.isEmpty && (j.node x.1).stop.isNone
  ((runs.filter fun x => x.2.closesAt (j.scyc x.1)).map fun x => Mover.lands n x.1)
    ++ ((j.tiles.filter fun x => !x.2.bursts.isEmpty).map fun x => tileMover n x.1 .staticBurstPerform)
    ++ all .staticReadLanding ++ all (.linkBeatPresent none) ++ all (.metadataPairArrival none) ++ all .ssetFillUnit
    ++ all .vecResultWrite
    ++ (runs.flatMap fun x => ((List.range 16).filter fun w => wdOpen (SMap.get x.2.wctl w)).map fun w =>
        tileMover n x.1 (.windowClose (BitVec.ofNat 4 w)))
    ++ (runs.flatMap fun x => (x.2.stepsDue fun d => d == j.scyc x.1 + 1).map fun g =>
        tileMover n x.1 (.stepTakesEffect (BitVec.ofNat 6 g)))
    ++ (syncs.map fun x => tileMover n x.1 (.tsyncMarkerArrival none)) ++ (syncs.map fun x => tileMover n x.1 .tsyncMarkerTimeout)
    ++ [moverOf n .holdFrameTest]

/-- What one context has under way in a dc. -/
def Ctx.due (p : Part) (n c k : Nat) (x : Ctx) : List Mover :=
  (match x.wait with
    | .pend (.tlbi _ _ _ _) => (List.range p.tlbCount).map fun t => ctxMover n c k t .tlbAcknowledge
    | .pend _ => [ctxMover n c k 0 (.accessPerformed k)]
    | .line _ => [ctxMover n c k 0 .icacheFillComplete]
    | _ => [])
    ++ if x.held.isEmpty then [] else [ctxMover n c k 0 .copyFault]

/-- What a core has under way in a dc: its issue or switch cycle first, then its contexts, then its oldest queued store. -/
def Core.due (p : Part) (n c : Nat) (x : Core) : List Mover :=
  Mover.core n c :: (x.ctxs.flatMap fun k => k.2.due p n c k.1)
    ++ if x.sq.isEmpty then [] else [ctxMover n c 0 0 (.accessPerformed 16)]

/-- The events that the present element of a copy operation still has at most (05 R168; 09 R275). -/
def CopyOp.eventsLeft (o : CopyOp) : Nat :=
  (if o.listSide.isSome && o.row.isNone then 1 else 0) + (if o.buf.isNone then 1 else 0) + 1

/-- One turn of a copy operation in a round: its present element, and its completion when nothing is left (10 R318). -/
def CopyOp.turn (n h id : Nat) (o : CopyOp) : List Mover :=
  List.replicate ((if o.begun then 0 else 1) + o.eventsLeft) (ctxMover n (8 * h) 0 0 (.copyElement (BitVec.ofNat 4 id)))
    ++ [ctxMover n (8 * h) 0 0 (.copyCompletion (BitVec.ofNat 4 id))]

/-- The stream registers that wait for a refill in hamlet h, in ascending order from the one to be served next (10 R318). -/
def Part.refillsDue (p : Part) (h from_ : Nat) : List Nat :=
  let l := (List.range 8).flatMap fun i =>
    ((p.job.core (8 * h + i)).ctxs.filter fun k => decide (k.1 < 11)).flatMap fun k => ((List.range 16).filter k.2.refillDue).map (refillKey (gctx (8 * h + i) k.1))
  (l.filter fun x => decide (from_ ≤ x)) ++ l.filter fun x => decide (x < from_)

/-- One refill of the copy unit: a pop's worth of elements (05 R167). -/
def refillTurn (n key : Nat) : List Mover :=
  List.replicate (popWidth (key % 16)) (ctxMover n (key / 16 / 11) (key / 16 % 11) 0 (.streamRefill (BitVec.ofNat 4 (key % 16))))

/-- A round of a copy unit: one refill between successive operations, and with no operation one refill (10 R318). -/
def serveRound : List (List Mover) → List (List Mover) → List Mover
  | [], [] => []
  | [], r :: _ => r
  | [o], [] => o
  | [o], r :: _ => o ++ r
  | o :: l, [] => o ++ serveRound l []
  | o :: l, r :: rs => o ++ r ++ serveRound l rs

/-- What the copy unit of hamlet h has under way in a dc (10 R318). -/
def Hamlet.due (p : Part) (n h : Nat) (x : Hamlet) : List Mover :=
  let ops := x.ops.filterMap fun o => o.2.map fun c => (o.1, c)
  serveRound ((ops.filter fun o => o.2.susp.isNone && !o.2.beyond).map fun o => CopyOp.turn n h o.1 o.2)
      ((p.refillsDue h x.refillAt).map (refillTurn n))
    ++ (ops.filter fun o => o.2.beyond).map fun o => ctxMover n (8 * h) 0 0 (.copyCompletion (BitVec.ofNat 4 o.1))

/-- The dynamic plane and the job as a whole in a dc. -/
def Part.dcDue (p : Part) (n : Nat) (depth : Nat) : List Mover :=
  let j := p.job
  let when_ := fun (b : Bool) (i : Instr) => if b then [moverOf n i] else []
  (j.cores.flatMap fun c => c.2.due p n c.1) ++ (j.hamlets.flatMap fun h => h.2.due p n h.1)
    ++ ((j.groups.filter fun g => decide (0 < g.2.nmem)).flatMap fun g =>
        [moverOf n (.stepGroupComplete (BitVec.ofNat 6 g.1)), moverOf n (.stepCompletionWake (BitVec.ofNat 6 g.1))])
    ++ when_ j.quietFrom.isSome .pendingQueueReturn
    ++ List.replicate j.msgs.length (moverOf n (.messageArrival 0))
    ++ ((List.range j.msgs.length).reverse.map fun i => moverOf n (.messageArrival i))
    ++ ((List.range j.posts.length).reverse.map fun i => moverOf n (.postArrival i))
    ++ (if j.stop.isSome then (j.cores.filter fun c => !c.2.stopped).map fun c => ctxMover n c.1 0 0 .haltTreeArrival else [])
    ++ when_ j.stop.isSome .partialWorkReport ++ when_ (!j.phase) .hangWatchdog
    ++ when_ (j.dc % 2048 == 0) .bellSweep ++ when_ (!j.phase) .quantumExpiry
    ++ when_ j.trace.on .traceSample ++ when_ (j.dc % 65536 == 0 && j.dc != 0) (.advisorEpochEnd depth)

/-- The step that the packet at the head of a queue is. The message of a CONFIG SECMSG comes from outside, by the agenda. -/
def Packet.op (k : Packet) : Option Instr :=
  match k.kind with
  | 1 => some .launch
  | 2 => some .signal
  | 3 =>
    ([Instr.attach, .detach, .arm, .disarm, .stop, .release, .dump, .poke, .trace, .logcopy, .event])[k.sub - 1]?
  | 4 => some (if k.le 16 1 = 1 then .checkpointRestore else .checkpointSave)
  | 5 => some (if k.le 20 1 % 2 = 1 then .quiesceLeave else .quiesceEnter)
  | 6 =>
    match k.sub with
    | 1 => some .reshape
    | 2 => some .portring
    | 3 => some .peer
    | 4 => some .mregion
    | 6 => some .cwrite
    | _ => none
  | _ => none

/-- What takes the packet at the head of queue q: a CONFIG SECMSG for which the agenda has brought no message fails its session's
MAC (13 R380). -/
def Packet.mover (n q : Nat) (k : Packet) : Option Mover :=
  if k.kind = 6 ∧ k.sub = 5 then some (.badMessage n) else k.op.map (packetMover n q)

/-- The packets at the heads of the queues whose turn has come, DEBUG packets or the others. -/
def Part.packetDue (p : Part) (n : Nat) (debug : Bool) : List Mover :=
  [4, 3, 2, 1, 0].flatMap fun q =>
    match (p.queue q).pending with
    | k :: _ => if p.takes q && (k.kind == 3) == debug then (k.mover n q).toList else []
    | [] => []

/-- What the host port and the ports of a partition do in a dc. -/
def Part.portDue (p : Part) (n clock : Nat) : List Mover :=
  let when_ := fun (b : Bool) (i : Instr) => if b then [moverOf n i] else []
  when_ (clock % 2 == 1) .launchEpoch ++ when_ p.loadingSlot.isSome .loadingComplete
    ++ when_ p.switch.isSome .switchDrainComplete
    ++ when_ (match p.switch with | some w => decide (w.stage = .swap) | none => false) (.switchSwapComplete none none)
    ++ ([4, 3, 2, 1, 0].map fun q => moverOf n (.packetAccept q))
    ++ p.packetDue n false ++ when_ p.quiesce.isSome .quiesceLimit
    ++ (p.uports.filter fun x => !x.2.rings.isEmpty).map fun x => moverOf n (.ueWorkItem (BitVec.ofNat 3 x.1))

/-- What falls due in partition n in this dc. A debug agent's packets come with the dynamic plane's stores, before what lands at
the end of the tc (07 R224). The mean queue depth that the advisor judges by is a free value (log 2). -/
def State.due (s : State) (n : Nat) : List Mover :=
  let p := s.part n
  let cur := p.cur.isSome
  (if cur && !p.job.phase then p.tcEarly n else []) ++ (if cur then p.dcDue n (Config.freeWord s.free).toNat else [])
    ++ p.packetDue n true ++ (if cur && p.job.phase then p.tcLate n else []) ++ p.portDue n s.clock

/-- One dc passes: every partition's clocks advance, and what falls due joins the agenda. -/
def State.tick (s : State) : State :=
  let t : State := { s with clock := s.clock + 1 }
  let u := (t.parts.map Prod.fst).foldl (fun (s : State) n => ({ s with focus := { s.focus with part := n } } : State).partTick) t
  { u with agenda := (u.parts.map Prod.fst).flatMap u.due ++ u.agenda, free := u.free + 1 }

/-! ## Bit errors (08 R261, R262; log 39) -/

/-- A correctable error that a tile detects: one hold of 64 tc for all of a tc, TSTAT.CECNT and the tile's counter. -/
def State.tileCorrected (t : Nat) (s : State) : State :=
  let u := if (s.tileAt t).cerr then s else s.raiseHold t (some 64)
  u.onTileAt t fun x => Tile.bump 6 1 { (bumpCecnt x) with cerr := true }

/-- An uncorrectable word in a staging row of tile t (06 R197, R207): the gang operation that reads bytes of its B there in this tc
fails; with none, nothing reads it. -/
def State.stagingError (t : Nat) (s : State) : State :=
  let now := s.job.runOn t
  let reads := fun (r : MillRun) =>
    let i := now - r.issue
    !r.null && r.width != 0 && decide (r.issue ≤ now) && decide (i < 16 * r.sweeps) && readLen r.fB r.ks (i % 16) != 0
      && s.job.millBegins t r
  ((s.tileAt t).mills.filter reads).foldl (fun (s : State) r => s.millMet t (now - r.issue) r false true 0x03#8) s

/-- Both copies of the acceptance journal are lost (13 R370): JLOST is set and every NEXTSEQ returns to 1, on the status page
too (13 R371). -/
def State.journalLost (s : State) : State :=
  State.pageTop <| s.onPt fun p =>
    { p with
      jlost := true
      queues := p.queues.map fun x => (x.1, { x.2 with nextSeq := 1#64, head := 1, accepted := [] }) }

/-- A bit error befalls a memory of the partition in focus. `mem` names it as DETAIL of 12 R342 does, `addr` its place: 1 a byte
of a tile's Mere, 2 of its Loft, 3 a tile's staging rows, 4 an accumulator element, 5 a register lane, 6 a tile's timetable
store, 7 a byte of local memory, 8 a byte of a granary sector, by the sector's number, and 9 of an HBM burst, by its place, 10 a
core's tables, 11 both copies of the acceptance journal. -/
def State.inflict (e : Upset) (s : State) : State :=
  let a := e.addr
  let poison := fun (k : Nat) => s.onPt fun p => { p with poison := if p.poison.contains k then p.poison else p.poison ++ [k] }
  let tile := match e.mem.toNat with
    | 1 => a / 2 ^ 21
    | 2 => a / 2 ^ 22
    | 4 => a / 2 ^ 13
    | 5 => a / 2 ^ 16
    | _ => a
  let timed := decide (1 ≤ e.mem.toNat) && decide (e.mem.toNat ≤ 6)
  if timed && (s.pt.cur.isNone || s.pt.tileCount ≤ tile) then s
  else if e.correctable then (if timed && !(s.job.node tile).paused then s.tileCorrected tile else s)
  else
    match e.mem.toNat with
    | 1 => poison (poisonKey (.mere tile (a % 2 ^ 21)))
    | 2 => poison (poisonLoft tile (a % 2 ^ 22))
    | 3 => s.stagingError tile
    | 4 => poison (poisonBank tile (a / 1024 % 8) (a % 1024))
    | 5 => poison (poisonReg tile (a / 32 % 2048) (a % 32))
    | 6 => s.tileError tile 0x06#8
    | 7 => if a / 2 ^ 18 < s.pt.coreCount then poison (poisonKey (.loc (a / 2 ^ 18) (a % 2 ^ 18))) else s
    | 8 =>
      if s.isDirty (a / 64) && s.ownSector (a / 64) then
        (poison (sectorPoison (a / 64))).onPt fun p => { p with granaryErr := p.granaryErr ++ [a / 64] }
      else s
    | 9 =>
      if s.isDirty (a / 64) then s
      else (poison (poisonKey (.hbm a))).onPt fun p => { p with granaryErr := p.granaryErr.filter fun k => k != a / 64 }
    | 10 => if s.pt.cur.isSome && decide (a < s.pt.coreCount) then s.gangStop (.core a) 0x18#8 0x0A#8 0#8 0#64 else s
    | 11 => s.journalLost
    | _ => s

end Sys2Proof.Machine
end

