-- ==== Sys2Proof/Machine/Issue.lean ====
section
/-!
DEFINITION. Issue: one instruction of a context (02 R58, R68; 05 R150; 10 R314-R316; 12 R343, R344) or of a timed chain (02
R54-R57, 01 R19), and what each entry of the agenda does.
-/

namespace Sys2Proof.Machine

/-! ## The timed plane -/

/-- The chain in focus moves on from the instruction that it has issued (02 R54, R56). -/
def State.chainMoves (s : State) : State :=
  s.onChain fun c => if c.live then chainAdvance s.pt.line 0 c else c

/-- A tile's counters of instructions issued and nullified (14 R398). -/
def Tile.countIssue (null : Bool) (t : Tile) : Tile := Tile.bump 0 1 (if null then t.bump 1 1 else t)

/-- Whether an instruction of a timed engine is of a format with an NF field: those of FREEVE, which every engine may hold, are
never nullified (02 R63). -/
def Instr.hasNf : Instr → Bool
  | .loopset _ _ _ | .tmark _ | .twait _ => false
  | _ => true

/-- The issue of the chain of engine e on tile t (02 R54-R57): its instruction runs in its issue cycle. A line that the
verifier would have refused ends the chain. -/
def State.issueChain (t : Nat) (e : Eng) (s : State) : Out :=
  let u : State := { s with focus := { s.focus with tile := t, eng := e } }
  let c := u.chain
  let n := u.job.node t
  if u.pt.cur.isNone || n.paused || n.stop.isSome || !c.live || c.due != u.now then .next s
  else
    match (u.pt.line c.line).map fun x => x.word c.slot with
    | none => .next (u.onChain fun c => { c with live := false })
    | some w =>
      match decodeOn (engNum e) w with
      | .error _ => .next (u.onChain fun c => { c with live := false })
      | .ok i =>
        match exec i.instr (u.onTl (Tile.countIssue (e != .reeve && Instr.hasNf i.instr && u.nullified (w.extractLsb' 0 4)))) with
        | .next v => .next v.chainMoves
        | o => o

/-! ## The dynamic plane -/

/-- What the decoder's refusal of a word raises (02 R68, R69; 12 R342). -/
def State.decodeFault (e : DecodeError) (w : Word) (s : State) : State :=
  match e with
  | .wrongEngine => s.fault 0x03#8 0#8 0#64
  | .unassigned => s.fault 0x01#8 0#8 0#64
  | .absent => s.fault 0x04#8 0#8 w
  | .illegal => s.fault 0x02#8 0#8 0#64

/-- Waits after which the instruction that found them is tried again: it has not issued yet (05 R150). -/
def Wait.retries : Wait → Bool
  | .stream _ | .queueFull | .release _ | .stores | .helper _ => true
  | _ => false

/-- The counter of issued instructions of core c after a try by its context k (14 R398): one that is to be tried again has not
issued. -/
def countIssued (c k : Nat) (o : Out) : Out :=
  match o with
  | .next u => .next (if (u.ctxAt c k).wait.retries then u else u.onCoreAt c (Core.bump 0 1))
  | o => o

/-- The context in focus issues the instruction at its program counter (02 R58, R59, R68): its line is checked and fetched,
the word decoded, and the instruction run. -/
def State.issueAt (s : State) : Out :=
  let pc := s.cx.pc
  if !pcOk s.pt s.cx then .next s.badLine
  else if !s.cr.icache.contains (pcLine pc) then .next (s.again (.line (pcLine pc)))
  else
    match s.pt.line (pcLine pc) with
    | none => .next s.badLine
    | some l =>
      let w := l.word (pcSlot pc)
      let t := s.onCr fun c => { c with count := c.count + 1 }
      countIssued s.focus.core s.focus.ctx (
        match decodeOn 0 w with
        | .error e => .next (t.decodeFault e w)
        | .ok i => exec i.instr t)

/-- The system handler's own course (12 R344, R345): the firmware aborts the operation of a copy fault that the context does
not take itself, returns from a debug stop, and does nothing after a fatal cause. -/
def State.sysHandler (cause : BitVec 8) (s : State) : State :=
  if cause = 0x12#8 then (s.answer (s.cx.frec0.extractLsb' 16 4).toNat CopyOp.abort).eret
  else if cause = 0x21#8 then s.eret
  else s

/-- One issue of context k of core c: a context in the system handler runs that, one with parts of an access to own local
memory left performs the next (09 R275), a held copy fault is delivered first (05 R172), and any other issues its
instruction. -/
def State.issueFor (c k : Nat) (s : State) : Out :=
  let t : State := { s with focus := { s.focus with core := c, ctx := k } }
  match t.cx.sys, t.cx.wait with
  | some x, _ => .next (t.sysHandler x.1)
  | none, .pend p => .next (t.performPend p t.free)
  | none, _ =>
    match t.cx.held with
    | f :: r => if t.cx.inHandler then t.issueAt else .next ((t.onCx fun x => { x with held := r }).copyFault f)
    | [] => t.issueAt

/-- Whether core c may issue. -/
def State.coreRuns (s : State) (c : Nat) : Bool := s.pt.cur.isSome && !(s.coreAt c).stopped && !(s.coreAt c).preempted

/-- The issue of context k of core c, by the agenda: the running context, or one that may run while no other does. -/
def State.issueCtx (c k : Nat) (s : State) : Out :=
  let x := s.coreAt c
  if !s.coreRuns c || !decide (k < 11) || !(x.ctx k).runnable then .next s
  else if x.running = some k then s.issueFor c k
  else if x.running.isNone then
    (s.onCoreAt c fun y => Core.onCtx { y with running := some k, switching := false, count := 0 } k Ctx.take).issueFor c k
  else .next s

/-- One dc of core c (10 R314-R316): its running context issues, and gives the core up at a forced switch; with none running,
a switch cycle or an idle dc passes. -/
def State.coreDc (c : Nat) (s : State) : Out :=
  let t : State := { s with focus := { s.focus with core := c } }
  if !t.coreRuns c then .next t
  else
    match t.cr.running with
    | none =>
      let busy := t.cr.switching || t.cr.pick.isSome
      execContextSwitch (t.onCr (Core.bump (if busy then 1 else 2) 1))
    | some k =>
      match t.issueFor c k with
      | .next u => execForcedSwitch u
      | o => o

/-! ## The agenda -/

/-- The steward, on core c, writes a control word as SYSW does (01 R37, R40-R42): with its access of the table, and with the
fault of a write that the rules discard (DEDUCED, log 61). -/
def State.stewardWrite (c cw tile : Nat) (v : Word) (s : State) : State :=
  let t : State := { s with focus := { s.focus with core := c, ctx := stewardCtx } }
  t.withWord cw (BitVec.ofNat 64 tile) fun acc tile s => s.syswDone v acc cw tile id

/-- One entry of the agenda acts (log 1). -/
def State.run (m : Mover) (s : State) : Out :=
  let at_ := fun (p : Nat) => ({ s with focus := { s.focus with part := p } } : State)
  match m with
  | .op f i => exec i { s with focus := f }
  | .ctx p c k => (at_ p).issueCtx c k
  | .chain p t e => (at_ p).issueChain t e
  | .core p c => (at_ p).coreDc c
  | .upset p u => .next ((at_ p).inflict u)
  | .hostWrite a l => .next (s.hostPuts a l)
  | .steward p c cw tile v => .next ((at_ p).stewardWrite c cw tile v)
  | .member p m => .next ((at_ p).hearMember m)
  | .lands p t => .next ((at_ p).storesLand t)
  | .bar0Read p off => .next { (at_ p) with out := s.out ++ [.bar0 ((at_ p).bar0Read off)] }
  | .configRead p => .next ((at_ p).configRead p)
  | .firmware p signed version entry => .next ((at_ p).loadFirmware signed version entry)
  | .fuse version => .next (s.fuse version)
  | .badMessage p => .next (at_ p).badMessage
  | .train flit => .next (s.train flit)
  | .tick => .next s.tick

/-- Whether an entry of the agenda can act on a package without power: its cold reset, and the host on its own memory. -/
def Mover.unpowered : Mover → Bool
  | .op _ .coldReset => true
  | .hostWrite _ _ => true
  | _ => false

/-- One step: the next entry of the agenda acts, or, with none, a dc passes. Without power only a cold reset goes on (18
R439, R441). -/
def State.next (s : State) : Out :=
  match s.agenda with
  | [] => if s.powered then .next s.tick else .fault .poweredOff
  | m :: r => if s.powered || m.unpowered then ({ s with agenda := r } : State).run m else .fault .poweredOff

/-! ## Placing one instruction -/

/-- A code line with one instruction in slot 0, of an engine, that ends its chain (02 R52, R53). -/
def oneWord (eng w : Nat) : Line := BitVec.ofNat 512 (eng * 2 ^ 28 + 2 ^ 26 + 2 ^ 32 + w % 2 ^ 64 * 2 ^ 64)

/-- A job whose image is one line, in residency slot 0. -/
def Resident.ofLine (l : Line) : Resident :=
  { (default : Resident) with state := .current, code := [(0, l)], codeFirst := 0, codeCount := 1, nlines := 1 }

/-- Context 0 at slot 0 of line 0, about to issue. -/
def Ctx.atZero (c : Ctx) : Ctx :=
  { c with pc := 0#29, pcBad := false, state := .running, wait := .none, sys := none, held := [] }

/-- The instruction w placed where the next step fetches (log 49): partition 0 has a current job whose image is one line with
w in slot 0; context 0 of core 0 stands there with the line fetched, or, for an instruction of a timed engine, tile 0 has a
chain of that engine there which issues in the present tc. The agenda names that issue. -/
def State.place (w : Nat) (s : State) : State :=
  let e := engineOf (BitVec.ofNat 64 w)
  let eng := match e with | 1 => Eng.mill | 2 => .vec | 3 => .strm | _ => .reeve
  let r := Resident.ofLine (oneWord e w)
  let t : State :=
    { s with powered := true, agenda := [if e = 0 then Mover.ctx 0 0 0 else Mover.chain 0 0 eng] }
  t.onPart 0 fun p =>
    let j :=
      if e = 0 then
        p.job.onCore 0 fun c =>
          Core.onCtx { c with running := some 0, stopped := false, preempted := false, icache := [0] } 0 Ctx.atZero
      else
        (p.job.onNode 0 fun n => { n with paused := false, stop := none }).onTile 0 fun x =>
          { x with
            named := true
            chains := SMap.insert x.chains e
              { line := 0, slot := 0, lc0 := 0#32, lc1 := 0#32, live := true, due := p.job.tb - (p.job.node 0).h } }
    { p with cur := some 0, res := SMap.insert p.res 0 (some r), job := j }

end Sys2Proof.Machine
end

