-- ==== Sys2Proof/Machine/Step.lean ====
section
/-!
DEFINITION. One step of the machine, and the placing of an instruction where the next step fetches it.
-/

namespace Sys2Proof.Machine

/-- One step: the next entry of the agenda, or the passing of one dc. -/
def step (s : State) : Host.Outcome State Fault Refusal := s.next

/-- The state with the instruction word w placed where `step` fetches next (log 49). Every instruction is one word of 64
bits (02 R61). -/
def State.withFetchWord (s : State) (nbits w : Nat) : State := s.place (w % 2 ^ nbits)

end Sys2Proof.Machine
end

