-- ==== Sys2Proof/Safety.lean ====
section
/-!
DEFINITION. The terms in which statements are made: the canonical form of the memories, what one instruction may leave
unchanged, how its operands are read, and a run that does not stop.
-/

namespace Sys2Proof.Machine

/-! ## Memory -/

/-- The canonical form of a byte memory: addresses strictly rising and no entry equal to what an unlisted address reads
as. -/
def Memory.wf (m : Mem) : Bool := SMap.wf m

/-- Every byte memory of a partition in canonical form: the Mere, the Loft, local memory, and those that its checkpoint
streams hold. -/
def Part.memOk (p : Part) : Bool :=
  Memory.wf p.mere && Memory.wf p.loft && Memory.wf p.loc
    && p.streams.all fun x => Memory.wf x.hbm && Memory.wf x.mere && Memory.wf x.loft && Memory.wf x.loc

/-- Every byte memory of the machine in canonical form. -/
def State.memOk (s : State) : Bool :=
  Memory.wf s.hbm && Memory.wf s.host && s.parts.all fun x => x.2.memOk

/-- A byte in the storage of a stepped region reads its present half within the same tile's Mere or core's local memory. -/
def State.regionFits (s : State) (h : Home) : Prop :=
  match h, s.regionOf h with
  | .mere _ _, some (_, e) => rgBase e + rgStorage e ≤ 2 ^ 21
  | .loc _ _, some (_, e) => rgBase e + rgStorage e ≤ 2 ^ 18
  | _, _ => True

/-- The bytes at `n` physical addresses from `a` are populated, lie in no stepped region, and have homes of their own. -/
def State.plainBytes (s : State) (a n : Nat) : Prop :=
  (∀ i : Nat, i < n → s.pt.home (a + i) ≠ .unpopulated ∧ s.regionOf (s.pt.home (a + i)) = none)
    ∧ ∀ i j : Nat, i < n → j < n → s.pt.home (a + i) = s.pt.home (a + j) → i = j

/-- From `s` to `t` the bytes at `n` physical addresses from `a` become those of `l`, and the byte at every other physical
address, whose home is none of theirs, reads as before. -/
def State.stored (s t : State) (a n : Nat) (l : Nat → Byte) : Prop :=
  (∀ i : Nat, i < n → t.paByte (a + i) = l i)
    ∧ ∀ x : Nat, (∀ i : Nat, i < n → s.pt.home x ≠ s.pt.home (a + i)) → s.regionFits (s.pt.home x) → t.paByte x = s.paByte x

/-! ## Frames -/

/-- Every byte of HBM, the far tier, the Mere and local memory, as its home gives it to a reader of the partition in focus,
reads in `t` as in `s`; so does every byte of the Loft and of host memory. -/
def State.bytesKept (s t : State) : Prop :=
  (∀ h : Home, t.homeByte h = s.homeByte h) ∧ (∀ a : Nat, SMap.get t.pt.loft a = SMap.get s.pt.loft a)
    ∧ ∀ a : Nat, SMap.get t.host a = SMap.get s.host a

/-- Nothing but the context in focus differs from `s` to `t`. -/
def State.onlyContext (s t : State) : Prop := t = s.onCx fun _ => t.cx

/-- Nothing but G registers, the program counter and the record of this instruction's pops differs from context `c` to
context `e`. -/
def Ctx.onlyG (c e : Ctx) : Prop := e = { c with g := e.g, pc := e.pc, undo := e.undo }

/-- Nothing but D registers, the program counter and the record of this instruction's pops differs from context `c` to
context `e`. -/
def Ctx.onlyD (c e : Ctx) : Prop := e = { c with d := e.d, pc := e.pc, undo := e.undo }

/-- Nothing but the tile in focus differs from `s` to `t`. -/
def State.onlyTile (s t : State) : Prop := t = s.onTl fun _ => t.tl

/-! ## Mailboxes -/

/-- No context of the core is parked in TAKE on a region whose handover already stands in the mailbox (05 R177: such a
context goes on as soon as the entry arrives). -/
def Core.takesServed (c : Core) : Prop :=
  ∀ (k : Nat) (d : BitVec 6) (n : BitVec 8), k < 11 → (c.ctx k).wait = .take d n → c.handover k n = none

/-! ## Operands -/

/-- The instruction of the context in focus reads its operands: they have the value `v`, and `t` is the state with the
pops of stream mode made (05 R167); `t` is `s` where there are none. -/
def State.reads {α : Type} (s : State) (read : Ctx → Pop α) (v : α) (t : State) : Prop :=
  ∃ c : Ctx, read { s.cx with undo := none } = .ok v c ∧ t = if c.undo.isSome then s.onCx (fun _ => c) else s

/-- A D register and a mask field (04 R129), in field order. -/
def Ctx.srcDm (a : BitVec 5) (m : BitVec 6) (c : Ctx) : Pop (BitVec 512 × BitVec 16) :=
  (c.srcD a).andThen fun x c => (c.srcMask m).andThen fun k c => .ok (x, k) c

/-- Two D registers and a mask field, in field order. -/
def Ctx.srcDDm (a b : BitVec 5) (m : BitVec 6) (c : Ctx) : Pop (BitVec 512 × BitVec 512 × BitVec 16) :=
  (c.srcD a).andThen fun x c => (c.srcD b).andThen fun y c => (c.srcMask m).andThen fun k c => .ok (x, y, k) c

/-- Three D registers and a mask field, in field order. -/
def Ctx.srcDDDm (a b e : BitVec 5) (m : BitVec 6) (c : Ctx) : Pop (BitVec 512 × BitVec 512 × BitVec 512 × BitVec 16) :=
  (c.srcD a).andThen fun x c => (c.srcD b).andThen fun y c => (c.srcD e).andThen fun z c => (c.srcMask m).andThen fun k c =>
    .ok (x, y, z, k) c

/-- Instruction `i` at `s` completes with D[d] written, in the state `t` after its operands are read: the lanes that the
mask `k` enables take `f`, and the others keep their old value (04 R129). -/
def State.writesLanes (s t : State) (i : Instr) (d : BitVec 5) (k : BitVec 16) (f : Nat → BitVec 32) : Prop :=
  ∃ v : BitVec 512, exec i s = .next (t.retireD d v)
    ∧ ∀ l : Nat, l < 16 → dLane v l = if k.getLsbD l = true then f l else dLane (t.cx.rd d) l

/-- No source register of a list of G registers is in stream mode. -/
def Ctx.plain (c : Ctx) (l : List (BitVec 6)) : Prop := ∀ r ∈ l, c.active (gStream r) = false

/-! ## The timed plane -/

/-- A VEC instruction `i` of the tile in focus queues one register write (07 R208, R210): it reaches register `d` in tc issue
+ `lat` - 1, with its beat on `sink`, lane l of the value being `f l`; nothing else changes. -/
def State.queues (s : State) (i : Instr) (d lat : Nat) (sink : Option Dir) (f : Nat → BitVec 32) : Prop :=
  ∃ v : BitVec 1024,
    exec i s = .next (s.onTl fun t => { t with vwrites := t.vwrites ++
      [{ due := s.now + lat - 1, reg := d, lane := none, val := v, sink := sink, pread := false }] })
      ∧ ∀ l : Nat, l < 32 → vLane v l = f l

/-- An instruction of the tile in focus that its flag does not nullify and that reads no uncorrectable register. -/
def State.vecRuns (s : State) (nf : BitVec 4) (regs : List Nat) : Prop := s.nullified nf = false ∧ s.regsBroken regs = false

/-! ## Packets -/

/-- Packet `k` stands at the head of queue `q`, before `rest`, and the device takes its next packet there (10 R303). -/
def State.atHead (s : State) (q : Nat) (k : Packet) (rest : List Packet) : Prop :=
  (s.pt.queue q).pending = k :: rest ∧ s.pt.takes q = true

/-- The state with that packet taken from its queue. -/
def State.taken (s : State) (q : Nat) (rest : List Packet) : State :=
  s.onPt fun p => p.onQueue q fun y => { y with pending := rest }

/-- The head of queue `q` is the packet `k` of a KIND and SUB. -/
def State.packetIs (s : State) (q : Nat) (k : Packet) (rest : List Packet) (kind sub : Nat) : Prop :=
  s.atHead q k rest ∧ k.kind = kind ∧ k.sub = sub

/-- The current launch, in residency slot `slot` as `r`, is the one that a DEBUG packet of queue `q` is addressed to (14
R386). -/
def State.targets (s : State) (q slot : Nat) (r : Resident) : Prop :=
  s.pt.cur = some slot ∧ SMap.get s.pt.res slot = some r ∧ (q = 4 ∨ s.pt.targetOf q = some slot)

/-- The agent attached through queue `q` is `d`. -/
def State.attachedAs (s : State) (q : Nat) (d : Debug) : Prop := s.job.debug = some d ∧ d.queue = q

/-- The 128 bytes at a physical address of partition HBM are a placement record that passes the checks of 10 R305. -/
def State.placeOkAt (s : State) (pa : Nat) : Bool :=
  pa % 128 == 0 && decide (pa + 128 ≤ s.pt.hbmSize) && placeOk s.pt (s.paBytes pa 128)

/-! ## Runs -/

/-- A step goes on: it answers a next state. -/
def State.goesOn (s : State) : Prop := ∃ t : State, step s = .next t

/-- A safe run of `n` steps: none of them stops the machine. -/
def State.safeFor : Nat → State → Prop
  | 0, _ => True
  | n + 1, s => ∃ t : State, step s = .next t ∧ State.safeFor n t

end Sys2Proof.Machine
end

