-- ==== Sys2Proof/Certificates/Slice0/Obligations.lean ====
section
/-!
DEFINITION. What is claimed of the machine: each statement's docstring names the rules of spec/ that it formalises.
-/

section

open Sys2Proof Sys2Proof.Machine

/-- A source field whose register is not in stream mode reads the register, and pops nothing: G0 reads zero (01 R27),
another G register and a D register what was last written, mask field 0 every lane (04 R129), two sources each its own. -/
def Claims.PlainSources : Prop :=
  ∀ (c : Ctx) (a b : BitVec 6) (x : BitVec 5),
    (c.active (gStream a) = false → c.srcG a = .ok (if a = 0#6 then 0#64 else SMap.get c.g a.toNat) c)
      ∧ (c.active (dStream x) = false → c.srcD x = .ok (SMap.get c.d x.toNat) c)
      ∧ c.srcMask 0#6 = .ok 0xFFFF#16 c
      ∧ (a ≠ 0#6 → c.active (gStream a) = false → c.srcMask a = .ok ((SMap.get c.g a.toNat).setWidth 16) c)
      ∧ (c.active (gStream a) = false → c.active (gStream b) = false → Ctx.srcG2 a b c = .ok (c.rg a, c.rg b) c)

/-- A source field that names a register in stream mode pops (05 R167): the element fetched ahead is the value and POS
moves by one element for a G register and by sixteen for a D register; at or past the end the value is zero; a pop that
reaches past the end sets END; and where the element has not arrived the pop waits. -/
def Claims.StreamPops : Prop :=
  ∀ (c : Ctx) (x : Nat), x < 16 →
    let d := SMap.get c.strms x
    let w := if x < 8 then 1 else 16
    (∀ (v : BitVec 512) (r : List Refill), d.pos < d.pat.count → d.ahead = .data v :: r →
        ∃ e : Ctx, c.pop x = .ok v e ∧ (SMap.get e.strms x).pos = d.pos + w ∧ (SMap.get e.strms x).ahead = r
          ∧ (∀ y : Nat, y ≠ x → SMap.get e.strms y = SMap.get c.strms y)
          ∧ (∀ y : Nat, e.strmEnd.getLsbD y = (c.strmEnd.getLsbD y || (y == x && decide (d.pat.count < d.pos + w))))
          ∧ e = { c with strms := e.strms, strmEnd := e.strmEnd, undo := e.undo })
      ∧ (d.pat.count ≤ d.pos →
        ∃ e : Ctx, c.pop x = .ok 0#512 e ∧ e.strms = c.strms
          ∧ (∀ y : Nat, e.strmEnd.getLsbD y = (c.strmEnd.getLsbD y || (y == x))))
      ∧ (d.pos < d.pat.count → d.ahead = [] → c.pop x = .wait x)

/-- An instruction whose operand has not arrived yields and will issue again at the same program counter, with every pop it
made taken back (05 R150, R167; 02 R68): stated of ADD, whose second source waits. -/
def Claims.MissingOperandWaits : Prop :=
  ∀ (s : State) (d a b : BitVec 6) (x : Nat),
    Ctx.srcG2 a b { s.cx with undo := none } = .wait x →
      ∃ t : State, exec (.add d a b) s = .next t ∧ t.cx.state = .parked ∧ t.cx.wait = .stream (BitVec.ofNat 4 x)
        ∧ t.cx.pc = s.cx.pc ∧ t.cx.g = s.cx.g ∧ t.cx.d = s.cx.d ∧ t.cx.strms = (s.cx.rollback).strms
        ∧ t.cr.running = (if s.cr.running = some s.focus.ctx then none else s.cr.running) ∧ s.bytesKept t

/-- Source fields read registers, or pop streams; a missing element makes the instruction wait. -/
def Obligations.SourceOperands : Prop :=
  Claims.PlainSources ∧ Claims.StreamPops ∧ Claims.MissingOperandWaits

/-- What completing with a value for G[d] does, and its frame (01 R27, 02 R58, 05 R167): G[d] takes the value, but for G0
and for a register in stream mode, whose writes are discarded; the program counter stands at the successor; every other
register of the context, every other context, every other core, tile and partition and every byte of memory is unchanged. -/
def Claims.RetireFrame : Prop :=
  ∀ (s : State) (d : BitVec 6) (v : Word),
    let t := s.retire d v
    (∀ r : BitVec 6, t.cx.rg r =
        if r = d ∧ d ≠ 0#6 ∧ s.cx.active (gStream d) = false then v else s.cx.rg r)
      ∧ t.cx.pc = succ s.pt s.cx.pc
      ∧ t.cx.undo = none
      ∧ s.cx.onlyG t.cx
      ∧ s.onlyContext t
      ∧ (∀ c k : Nat, ¬(c = s.focus.core ∧ k = s.focus.ctx) → t.ctxAt c k = s.ctxAt c k)
      ∧ (∀ n : Nat, t.tileAt n = s.tileAt n)
      ∧ (∀ p : Nat, p ≠ s.focus.part → t.part p = s.part p)
      ∧ s.bytesKept t

/-- What completing with a value for D[d] does, and its frame (01 R27, 02 R58, 05 R167). -/
def Claims.RetireLanesFrame : Prop :=
  ∀ (s : State) (d : BitVec 5) (v : BitVec 512),
    let t := s.retireD d v
    (∀ r : BitVec 5, t.cx.rd r = if r = d ∧ s.cx.active (dStream d) = false then v else s.cx.rd r)
      ∧ t.cx.pc = succ s.pt s.cx.pc
      ∧ s.cx.onlyD t.cx
      ∧ s.onlyContext t
      ∧ (∀ c k : Nat, ¬(c = s.focus.core ∧ k = s.focus.ctx) → t.ctxAt c k = s.ctxAt c k)
      ∧ s.bytesKept t

/-- Completing writes one register and moves the program counter, and nothing else. -/
def Obligations.CompletionFrame : Prop :=
  Claims.RetireFrame ∧ Claims.RetireLanesFrame

/-- Every instruction of groups 0 and 1, the branches, jumps and CALL, TRAP and ERET leave every byte of memory as it was
whatever happens to them: completing, waiting for an operand, or taking a fault (02 R68, 04 R119). -/
def Obligations.RegisterInstructionsKeepMemory : Prop :=
  ∀ (s t : State) (d a b c w : BitVec 6) (imm : BitVec 34) (imm30 : BitVec 30) (cc : Cond) (rm : Rm) (x y z u : BitVec 5) (m : LaneArith)
      (lm : LaneMin) (lc : LaneCmp) (fc : FRel) (f g : Fmt) (ks : DShift) (ty : Lane2) (op : RedOp) (flag : Bool) (j : BitVec 4)
      (start : BitVec 9) (slot : BitVec 3) (line : BitVec 26) (i : Instr),
    i ∈ [Instr.nop, .add d a b, .addi d a imm, .sub d a b, .mul d a b, .mulh d a b, .mulhu d a b, .div d a b, .divu d a b,
         .rem d a b, .remu d a b, .and d a b, .andi d a imm, .or d a b, .ori d a imm, .xor d a b, .xori d a imm,
         .andn d a b, .shl d a b, .shli d a w, .shr d a b, .shri d a w, .sra d a b, .srai d a w, .rol d a b, .min d a b,
         .max d a b, .minu d a b, .maxu d a b, .clz d a, .ctz d a, .popc d a, .extr d a b w, .ins d a b c w, .sel d a b c,
         .cmp cc d a b, .cmpi cc d a imm30, .li d imm, .lih d a imm30, .adda d a b, .addai d a imm, .tagset d a b,
         .tagget d a, .pdiff d a b, .fadd rm d a b, .fsub rm d a b, .fmul rm d a b, .fma rm d a b c, .fmin d a b,
         .fmax d a b, .fcmp fc d a b, .fcvt f g rm d a, .fclass f d a, .dadd m x y z c, .dsub m x y z c, .dmul m x y z c,
         .dfma m x y z u c, .dmin lm x y z c, .dmax lm x y z c, .dand x y z c, .dor x y z c, .dxor x y z c,
         .dshl x y ks c, .dshr flag x y ks c, .dcmp lc x y z c, .dsel x y z u c, .dcvt f g rm x y c, .dbcast x y j c,
         .dext ty x y j, .dins x y j, .dshuf x y z c, .dscan ty op flag x y c, .dred ty op x y c, .dhist flag x y z c,
         .diota x start w c, .br cc a b slot line, .jmp slot line, .jmpr a, .call slot line, .trap imm, .eret] →
      exec i s = .next t → s.bytesKept t

/-- NOP completes and changes nothing but the program counter. -/
def Claims.NopAdvances : Prop :=
  ∀ s : State, ∃ t : State, exec .nop s = .next t ∧ t.cx.pc = succ s.pt s.cx.pc
    ∧ s.cx.onlyG t.cx ∧ t.cx.g = s.cx.g ∧ s.onlyContext t ∧ s.bytesKept t

/-- The results of the arithmetic and logical instructions on two registers. -/
def Claims.IntegerResults : Prop :=
  ∀ (s t : State) (d a b : BitVec 6) (x y : Word), s.reads (Ctx.srcG2 a b) (x, y) t →
    exec (.add d a b) s = .next (t.retire d (x + y))
      ∧ exec (.sub d a b) s = .next (t.retire d (x - y))
      ∧ exec (.mul d a b) s = .next (t.retire d (BitVec.ofNat 64 (x.toNat * y.toNat)))
      ∧ exec (.mulh d a b) s = .next (t.retire d (BitVec.ofInt 64 (x.toInt * y.toInt / 2 ^ 64)))
      ∧ exec (.mulhu d a b) s = .next (t.retire d (BitVec.ofNat 64 (x.toNat * y.toNat / 2 ^ 64)))
      ∧ exec (.and d a b) s = .next (t.retire d (x &&& y))
      ∧ exec (.or d a b) s = .next (t.retire d (x ||| y))
      ∧ exec (.xor d a b) s = .next (t.retire d (x ^^^ y))
      ∧ exec (.andn d a b) s = .next (t.retire d (x &&& ~~~y))
      ∧ exec (.min d a b) s = .next (t.retire d (if x.toInt ≤ y.toInt then x else y))
      ∧ exec (.max d a b) s = .next (t.retire d (if y.toInt ≤ x.toInt then x else y))
      ∧ exec (.minu d a b) s = .next (t.retire d (if x.toNat ≤ y.toNat then x else y))
      ∧ exec (.maxu d a b) s = .next (t.retire d (if y.toNat ≤ x.toNat then x else y))

/-- DIV, DIVU, REM and REMU: a zero divisor gives all ones for the quotient and the dividend for the remainder; otherwise
the quotient is taken toward zero and the remainder has the dividend's sign; the most negative value over minus one gives
itself, and remainder zero. -/
def Claims.DivisionResults : Prop :=
  ∀ (s t : State) (d a b : BitVec 6) (x y : Word), s.reads (Ctx.srcG2 a b) (x, y) t →
    exec (.div d a b) s = .next (t.retire d (if y = 0#64 then BitVec.allOnes 64 else x.sdiv y))
      ∧ exec (.divu d a b) s = .next (t.retire d (if y = 0#64 then BitVec.allOnes 64 else x / y))
      ∧ exec (.rem d a b) s = .next (t.retire d (if y = 0#64 then x else x.srem y))
      ∧ exec (.remu d a b) s = .next (t.retire d (if y = 0#64 then x else x % y))
      ∧ (x = BitVec.intMin 64 → y = BitVec.allOnes 64 →
          exec (.div d a b) s = .next (t.retire d x) ∧ exec (.rem d a b) s = .next (t.retire d 0#64))

/-- Integer arithmetic and logic, and division at its corners. -/
def Obligations.IntegerArithmetic : Prop :=
  Claims.NopAdvances ∧ Claims.IntegerResults ∧ Claims.DivisionResults

/-- Shifts and rotation: the amount is b[5:0] or the immediate; SHR fills with zeros, SRA with the sign, and ROL brings the
bits round. -/
def Claims.ShiftResults : Prop :=
  (∀ (s t : State) (d a b : BitVec 6) (x y : Word), s.reads (Ctx.srcG2 a b) (x, y) t →
    let n := y.toNat % 64
    exec (.shl d a b) s = .next (t.retire d (BitVec.ofNat 64 (x.toNat * 2 ^ n)))
      ∧ exec (.shr d a b) s = .next (t.retire d (BitVec.ofNat 64 (x.toNat / 2 ^ n)))
      ∧ exec (.sra d a b) s = .next (t.retire d (BitVec.ofInt 64 (x.toInt / 2 ^ n)))
      ∧ ∃ v : Word, exec (.rol d a b) s = .next (t.retire d v) ∧ ∀ i : Nat, i < 64 → v.getLsbD ((i + n) % 64) = x.getLsbD i)
    ∧ ∀ (s t : State) (d a n : BitVec 6) (x : Word), s.reads (fun c => c.srcG a) x t →
      exec (.shli d a n) s = .next (t.retire d (BitVec.ofNat 64 (x.toNat * 2 ^ n.toNat)))
        ∧ exec (.shri d a n) s = .next (t.retire d (BitVec.ofNat 64 (x.toNat / 2 ^ n.toNat)))
        ∧ exec (.srai d a n) s = .next (t.retire d (BitVec.ofInt 64 (x.toInt / 2 ^ n.toNat)))

/-- EXTR and INS bit by bit, for every width from 1 to 64 and every position: bits above bit 63 read as zero and are
dropped. -/
def Claims.BitFieldResults : Prop :=
  (∀ (s t : State) (d a b w : BitVec 6) (x y : Word), s.reads (Ctx.srcG2 a b) (x, y) t →
    ∃ v : Word, exec (.extr d a b w) s = .next (t.retire d v)
      ∧ ∀ i : Nat, i < 64 → v.getLsbD i = (decide (i ≤ w.toNat) && x.getLsbD (y.toNat % 64 + i)))
    ∧ ∀ (s t : State) (d a b c w : BitVec 6) (x y z : Word), s.reads (Ctx.srcG3 a b c) (x, y, z) t →
      ∃ v : Word, exec (.ins d a b c w) s = .next (t.retire d v)
        ∧ ∀ i : Nat, i < 64 → v.getLsbD i =
            if y.toNat % 64 ≤ i ∧ i ≤ y.toNat % 64 + w.toNat then x.getLsbD (i - y.toNat % 64) else z.getLsbD i

/-- Immediates, counts of bits and tags: the instructions with one source. -/
def Claims.OneSourceResults : Prop :=
  ∀ (s t : State) (d a : BitVec 6) (imm : BitVec 34) (imm30 : BitVec 30) (x : Word), s.reads (fun c => c.srcG a) x t →
    exec (.addi d a imm) s = .next (t.retire d (x + imm.signExtend 64))
      ∧ exec (.andi d a imm) s = .next (t.retire d (x &&& imm.signExtend 64))
      ∧ exec (.ori d a imm) s = .next (t.retire d (x ||| imm.signExtend 64))
      ∧ exec (.xori d a imm) s = .next (t.retire d (x ^^^ imm.signExtend 64))
      ∧ exec (.lih d a imm30) s = .next (t.retire d (imm30 ++ x.extractLsb' 0 34))
      ∧ exec (.tagget d a) s = .next (t.retire d (x >>> 56))
      ∧ (∃ n : Nat, exec (.clz d a) s = .next (t.retire d (BitVec.ofNat 64 n)) ∧ n ≤ 64
          ∧ (∀ i : Nat, i < n → x.getLsbD (63 - i) = false) ∧ (n < 64 → x.getLsbD (63 - n) = true))
      ∧ (∃ n : Nat, exec (.ctz d a) s = .next (t.retire d (BitVec.ofNat 64 n)) ∧ n ≤ 64
          ∧ (∀ i : Nat, i < n → x.getLsbD i = false) ∧ (n < 64 → x.getLsbD n = true))
      ∧ exec (.popc d a) s = .next (t.retire d (BitVec.ofNat 64 ((List.range 64).filter fun i => x.getLsbD i).length))

/-- Shifts, bit fields, counts of bits and instructions with one source. -/
def Obligations.BitOperations : Prop :=
  Claims.ShiftResults ∧ Claims.BitFieldResults ∧ Claims.OneSourceResults

/-- LI writes its sign-extended immediate; a compare writes 1 or 0 by its condition, ZERO and NONZERO testing the first
operand alone; SEL picks by its third source; TAGSET puts a tag above an address. -/
def Claims.SelectAndCompareResults : Prop :=
  (∀ (s : State) (d : BitVec 6) (imm : BitVec 34), exec (.li d imm) s = .next (s.retire d (imm.signExtend 64)))
    ∧ (∀ (s t : State) (cc : Cond) (d a b : BitVec 6) (x y : Word), s.reads (Ctx.srcG2 a b) (x, y) t →
      exec (.cmp cc d a b) s = .next (t.retire d (if Cond.holds cc x y then 1#64 else 0#64))
        ∧ exec (.tagset d a b) s = .next (t.retire d (BitVec.ofNat 64 (y.toNat % 256 * 2 ^ 56 + x.toNat % 2 ^ 56))))
    ∧ (∀ (s t : State) (cc : Cond) (d a : BitVec 6) (imm : BitVec 30) (x : Word), s.reads (fun c => c.srcG a) x t →
      exec (.cmpi cc d a imm) s = .next (t.retire d (if Cond.holds cc x (imm.signExtend 64) then 1#64 else 0#64)))
    ∧ (∀ (s t : State) (d a b c : BitVec 6) (x y z : Word), s.reads (Ctx.srcG3 a b c) (x, y, z) t →
      exec (.sel d a b c) s = .next (t.retire d (if z ≠ 0#64 then x else y)))
    ∧ (∀ x y : Word,
        (Cond.holds .eq x y = true ↔ x = y) ∧ (Cond.holds .ne x y = true ↔ x ≠ y)
          ∧ (Cond.holds .lt x y = true ↔ x.toInt < y.toInt) ∧ (Cond.holds .ge x y = true ↔ y.toInt ≤ x.toInt)
          ∧ (Cond.holds .ltu x y = true ↔ x.toNat < y.toNat) ∧ (Cond.holds .geu x y = true ↔ y.toNat ≤ x.toNat)
          ∧ (Cond.holds .zero x y = true ↔ x = 0#64) ∧ (Cond.holds .nonzero x y = true ↔ x ≠ 0#64))

/-- ADDA, ADDAI and PDIFF: the pointer sum keeps the tag while the address stays within 56 bits, and is a tag fault otherwise,
with FREC1 zero (log 54: 05 R151 gives the address or zero); PDIFF gives the difference of the element numbers and takes a tag
fault where the format codes differ, are reserved or are raw. -/
def Claims.PointerResults : Prop :=
  (∀ (s t : State) (d a b : BitVec 6) (imm : BitVec 34) (x y : Word),
    let addr := fun (y : Word) => (x.toNat % 2 ^ 56 : Int) + y.toInt
    let sum := fun (y : Word) => BitVec.ofInt 64 ((x.toNat / 2 ^ 56 * 2 ^ 56 : Nat) + addr y)
    (s.reads (Ctx.srcG2 a b) (x, y) t →
      exec (.adda d a b) s =
        .next (if 0 ≤ addr y ∧ addr y < 2 ^ 56 then t.retire d (sum y) else t.fault 0x0D#8 0#8 0#64))
    ∧ (s.reads (fun c => c.srcG a) x t →
      exec (.addai d a imm) s =
        .next (if 0 ≤ addr (imm.signExtend 64) ∧ addr (imm.signExtend 64) < 2 ^ 56 then t.retire d (sum (imm.signExtend 64))
               else t.fault 0x0D#8 0#8 0#64)))
    ∧ ∀ (s t : State) (d a b : BitVec 6) (x y : Word) (f : Fmt), s.reads (Ctx.srcG2 a b) (x, y) t →
      (tagFmt x = tagFmt y → Fmt.ofCode (tagFmt x) = some f → f ≠ .raw →
        exec (.pdiff d a b) s =
          .next (t.retire d (BitVec.ofInt 64 ((elemIndex f (ptrAddr x) : Int) - (elemIndex f (ptrAddr y) : Int)))))
      ∧ (tagFmt x ≠ tagFmt y ∨ Fmt.ofCode (tagFmt x) = none ∨ Fmt.ofCode (tagFmt x) = some .raw →
        exec (.pdiff d a b) s = .next (t.fault 0x0D#8 0#8 0#64))

/-- Compares, selections, immediates, tags and pointer arithmetic. -/
def Obligations.SelectComparePointer : Prop :=
  Claims.SelectAndCompareResults ∧ Claims.PointerResults

/-- The results of the scalar floating instructions: FP32 in bits 31:0 of the sources, the result zero-extended; FMA rounds
the exact sum of the exact product once. -/
def Claims.FloatResults : Prop :=
  (∀ (s t : State) (rm : Rm) (d a b : BitVec 6) (x y : Word), s.reads (Ctx.srcG2 a b) (x, y) t →
    let p := num32 (x.setWidth 32)
    let q := num32 (y.setWidth 32)
    let done := fun (r : Sys2Proof.Machine.Num) (m : Rm) => Host.Outcome.next (ρ := Refusal) (φ := Fault) (t.retire d ((fp32 m r).setWidth 64))
    exec (.fadd rm d a b) s = done (p.add rm q) rm
      ∧ exec (.fsub rm d a b) s = done (p.add rm q.neg) rm
      ∧ exec (.fmul rm d a b) s = done (p.mul q) rm
      ∧ exec (.fmin d a b) s = done (p.min q) .rne
      ∧ exec (.fmax d a b) s = done (p.max q) .rne)
    ∧ (∀ (s t : State) (rm : Rm) (d a b c : BitVec 6) (x y z : Word), s.reads (Ctx.srcG3 a b c) (x, y, z) t →
      exec (.fma rm d a b c) s =
        .next (t.retire d
          ((fp32 rm (((num32 (x.setWidth 32)).mul (num32 (y.setWidth 32))).add rm (num32 (z.setWidth 32)))).setWidth 64)))

/-- FCVT decodes the source element from the low bits of G[a], rounds it into the destination format and extends it; FCLASS
writes the one bit of the operand's class: bit 0 and 7 for the infinities, 3 and 4 for the zeros, 8 for NaN. -/
def Claims.ConvertAndClassResults : Prop :=
  ∀ (s t : State) (src dst f : Fmt) (rm : Rm) (d a : BitVec 6) (x : Word), s.reads (fun c => c.srcG a) x t →
    exec (.fcvt src dst rm d a) s =
        .next (t.retire d (extendNum 64 dst (roundNum dst rm 0 (decodeNum src x.toNat))))
      ∧ ∃ n : Nat, exec (.fclass f d a) s = .next (t.retire d (BitVec.ofNat 64 (2 ^ n)))
        ∧ (decodeNum f x.toNat = .nan → n = 8)
        ∧ (decodeNum f x.toNat = .inf true → n = 0) ∧ (decodeNum f x.toNat = .inf false → n = 7)
        ∧ (decodeNum f x.toNat = .zero true → n = 3) ∧ (decodeNum f x.toNat = .zero false → n = 4)
        ∧ (∀ v : Dy, decodeNum f x.toNat = .fin v → (v.m < 0 → n = 1 ∨ n = 2) ∧ (0 ≤ v.m → n = 5 ∨ n = 6))

/-- Scalar floating arithmetic, conversion and classes. -/
def Obligations.FloatOperations : Prop :=
  Claims.FloatResults ∧ Claims.ConvertAndClassResults

/-- FCMP writes 1 when its relation holds and 0 otherwise (04 R126), by the codes 0 to 7: with a NaN only NE and UN hold; of two
other numbers exactly one is less, equal or greater, −0 equal to +0, the infinities outermost, finite values by their exact
order. -/
def Obligations.FloatCompare : Prop :=
  (∀ (s t : State) (fc : FRel) (d a b : BitVec 6) (x y : Word), s.reads (Ctx.srcG2 a b) (x, y) t →
    exec (.fcmp fc d a b) s =
      .next (t.retire d (if FRel.holds fc (num32 (x.setWidth 32)) (num32 (y.setWidth 32)) = true then 1#64 else 0#64)))
    ∧ [FRel.eq, .ne, .lt, .le, .gt, .ge, .un, .or].map FRel.code = [0#3, 1#3, 2#3, 3#3, 4#3, 5#3, 6#3, 7#3]
    ∧ (∀ p q : Sys2Proof.Machine.Num, p = .nan ∨ q = .nan →
      (∀ r ∈ [FRel.eq, .lt, .le, .gt, .ge, .or], FRel.holds r p q = false) ∧ FRel.holds .ne p q = true ∧ FRel.holds .un p q = true)
    ∧ (∀ x y : BitVec 32,
      let p := num32 x
      let q := num32 y
      p ≠ .nan → q ≠ .nan →
        FRel.holds .un p q = false ∧ FRel.holds .or p q = true
          ∧ (FRel.holds .ne p q = !FRel.holds .eq p q)
          ∧ (FRel.holds .le p q = (FRel.holds .lt p q || FRel.holds .eq p q))
          ∧ (FRel.holds .ge p q = (FRel.holds .gt p q || FRel.holds .eq p q))
          ∧ (FRel.holds .gt p q = FRel.holds .lt q p)
          ∧ (FRel.holds .eq p q = true → FRel.holds .lt p q = false ∧ FRel.holds .gt p q = false)
          ∧ (FRel.holds .lt p q = true → FRel.holds .eq p q = false ∧ FRel.holds .gt p q = false)
          ∧ (FRel.holds .eq p q = false → FRel.holds .lt p q = false → FRel.holds .gt p q = true))
    ∧ (∀ a b : Bool, FRel.holds .eq (.zero a) (.zero b) = true)
    ∧ (∀ v : Dy, FRel.holds .lt (.inf true) (.fin v) = true ∧ FRel.holds .lt (.fin v) (.inf false) = true
      ∧ (FRel.holds .lt (.zero true) (.fin v) = true ↔ 0 < v.m) ∧ (FRel.holds .lt (.fin v) (.zero true) = true ↔ v.m < 0))
    ∧ ∀ v w : Dy, v.e ≤ w.e →
      (FRel.holds .lt (.fin v) (.fin w) = true ↔ v.m < w.m * 2 ^ (w.e - v.e).toNat)
        ∧ (FRel.holds .gt (.fin v) (.fin w) = true ↔ w.m * 2 ^ (w.e - v.e).toNat < v.m)

/-- Integer and floating arithmetic in lanes: INT32 modulo 2^32 or saturating, FP32, and each BF16 half on its own. -/
def Claims.LaneArithmeticResults : Prop :=
  (∀ (s t : State) (m : LaneArith) (d a b : BitVec 5) (mask : BitVec 6) (x y : BitVec 512) (k : BitVec 16),
    s.reads (Ctx.srcDDm a b mask) (x, y, k) t →
      s.writesLanes t (.dadd m d a b mask) d k
          (fun l => laneArith2 m (fun u v => u + v) fadd32 fadd16 (dLane x l) (dLane y l))
        ∧ s.writesLanes t (.dsub m d a b mask) d k
          (fun l => laneArith2 m (fun u v => u - v) fsub32 fsub16 (dLane x l) (dLane y l))
        ∧ s.writesLanes t (.dmul m d a b mask) d k
          (fun l => laneArith2 m (fun u v => u * v) fmul32 fmul16 (dLane x l) (dLane y l)))
    ∧ (∀ (s t : State) (m : LaneArith) (d a b c : BitVec 5) (mask : BitVec 6) (x y z : BitVec 512) (k : BitVec 16),
      s.reads (Ctx.srcDDDm a b c mask) (x, y, z, k) t →
        s.writesLanes t (.dfma m d a b c mask) d k (fun l => laneFma m (dLane x l) (dLane y l) (dLane z l))
          ∧ s.writesLanes t (.dsel d a b c mask) d k (fun l => if dLane z l ≠ 0#32 then dLane x l else dLane y l))
    ∧ (∀ v : Int, int32Of false v = BitVec.ofInt 32 v
        ∧ (int32Of true v).toInt = max (-2 ^ 31) (min (2 ^ 31 - 1) v))

/-- Minimum, maximum, bitwise and compare operations in lanes. -/
def Claims.LaneLogicResults : Prop :=
  ∀ (s t : State) (m : LaneMin) (q : LaneCmp) (d a b : BitVec 5) (mask : BitVec 6) (x y : BitVec 512) (k : BitVec 16),
    s.reads (Ctx.srcDDm a b mask) (x, y, k) t →
      s.writesLanes t (.dmin m d a b mask) d k (fun l => laneMin m (dLane x l) (dLane y l))
        ∧ s.writesLanes t (.dmax m d a b mask) d k (fun l => laneMax m (dLane x l) (dLane y l))
        ∧ s.writesLanes t (.dand d a b mask) d k (fun l => dLane x l &&& dLane y l)
        ∧ s.writesLanes t (.dor d a b mask) d k (fun l => dLane x l ||| dLane y l)
        ∧ s.writesLanes t (.dxor d a b mask) d k (fun l => dLane x l ^^^ dLane y l)
        ∧ s.writesLanes t (.dcmp q d a b mask) d k (fun l => laneCmp q (dLane x l) (dLane y l))
        ∧ s.writesLanes t (.dshl d a (.reg b) mask) d k (fun l => BitVec.ofNat 32 ((dLane x l).toNat * 2 ^ ((dLane y l).toNat % 32)))
        ∧ s.writesLanes t (.dshr false d a (.reg b) mask) d k
            (fun l => BitVec.ofNat 32 ((dLane x l).toNat / 2 ^ ((dLane y l).toNat % 32)))
        ∧ s.writesLanes t (.dshr true d a (.reg b) mask) d k
            (fun l => BitVec.ofInt 32 ((dLane x l).toInt / 2 ^ ((dLane y l).toNat % 32)))
        ∧ s.writesLanes t (.dshuf d a b mask) d k
            (fun l => if (dLane y l).toNat < 16 then dLane x (dLane y l).toNat else 0#32)

/-- What a lane operation computes by its lane type (04 R129, R130, 03 R106): INT32 the exact sum, difference, product or
product and sum, wrapped or saturated; FP32 the exact result rounded once; a BF16 pair each half on its own, rounded to BF16;
the lesser and the greater signed, unsigned or by number; a compare all ones or zero, for a BF16 pair in each half. -/
def Claims.LaneFunctions : Prop :=
  (∀ (sat : Bool) (x y z : BitVec 32),
      laneArith2 (.int sat) (fun u v => u + v) fadd32 fadd16 x y = int32Of sat (x.toInt + y.toInt)
        ∧ laneFma (.int sat) x y z = int32Of sat (x.toInt * y.toInt + z.toInt))
    ∧ (∀ (rm : Rm) (fi : Int → Int → Int) (x y z : BitVec 32),
      let p := num32 x
      let q := num32 y
      laneArith2 (.fp32 rm) fi fadd32 fadd16 x y = fp32 rm (p.add rm q)
        ∧ laneArith2 (.fp32 rm) fi fsub32 fsub16 x y = fp32 rm (p.add rm q.neg)
        ∧ laneArith2 (.fp32 rm) fi fmul32 fmul16 x y = fp32 rm (p.mul q)
        ∧ laneFma (.fp32 rm) x y z = fp32 rm ((p.mul q).add rm (num32 z)))
    ∧ (∀ (rm : Rm) (fi : Int → Int → Int) (x y z : BitVec 32) (h : Nat), h < 2 →
      let half := fun (v : BitVec 32) => v.extractLsb' (16 * h) 16
      let p := num16 (half x)
      let q := num16 (half y)
      half (laneArith2 (.bf16 rm) fi fadd32 fadd16 x y) = bf16 rm (p.add rm q)
        ∧ half (laneArith2 (.bf16 rm) fi fsub32 fsub16 x y) = bf16 rm (p.add rm q.neg)
        ∧ half (laneArith2 (.bf16 rm) fi fmul32 fmul16 x y) = bf16 rm (p.mul q)
        ∧ half (laneFma (.bf16 rm) x y z) = bf16 rm ((p.mul q).add rm (num16 (half z)))
        ∧ half (laneMin (.bf16 rm) x y) = bf16 .rne (p.min q)
        ∧ half (laneMax (.bf16 rm) x y) = bf16 .rne (p.max q)
        ∧ ∀ r : FRel, half (laneCmp (.bf16 r) x y) = if FRel.holds r p q = true then 0xFFFF#16 else 0#16)
    ∧ (∀ (rm : Rm) (x y : BitVec 32),
      (laneMin (.int false) x y).toInt = min x.toInt y.toInt ∧ (laneMax (.int false) x y).toInt = max x.toInt y.toInt
        ∧ (laneMin (.int true) x y).toNat = min x.toNat y.toNat ∧ (laneMax (.int true) x y).toNat = max x.toNat y.toNat
        ∧ laneMin (.fp32 rm) x y = fp32 .rne ((num32 x).min (num32 y))
        ∧ laneMax (.fp32 rm) x y = fp32 .rne ((num32 x).max (num32 y)))
    ∧ (∀ (r : FRel) (x y : BitVec 32),
      laneCmp (.fp32 r) x y = if FRel.holds r (num32 x) (num32 y) = true then 0xFFFFFFFF#32 else 0#32)
    ∧ (∀ x y : BitVec 32,
      let bits := fun (c : Cond) (b : Bool) => laneCmp (.int c) x y = if b = true then 0xFFFFFFFF#32 else 0#32
      bits .eq (decide (x = y)) ∧ bits .ne (decide (x ≠ y)) ∧ bits .lt (decide (x.toInt < y.toInt))
        ∧ bits .ge (decide (y.toInt ≤ x.toInt)) ∧ bits .ltu (decide (x.toNat < y.toNat)) ∧ bits .geu (decide (y.toNat ≤ x.toNat)))

/-- The lesser and the greater of two numbers (03 R106): NaN with a NaN, −0 below +0, otherwise by their order. -/
def Claims.NumbersOrdered : Prop :=
  ∀ p q : Sys2Proof.Machine.Num,
    (p = .nan ∨ q = .nan → p.min q = .nan ∧ p.max q = .nan)
      ∧ (FRel.holds .lt p q = true → p.min q = p ∧ p.max q = q)
      ∧ (FRel.holds .gt p q = true → p.min q = q ∧ p.max q = p)
      ∧ (∀ a b : Bool, p = .zero a → q = .zero b → p.min q = .zero (a || b) ∧ p.max q = .zero (a && b))

/-- Arithmetic and logic in the lanes of D registers. -/
def Obligations.LaneOperations : Prop :=
  Claims.LaneArithmeticResults ∧ Claims.LaneLogicResults ∧ Claims.LaneFunctions ∧ Claims.NumbersOrdered

/-- Lane operations with one source, and those that move single lanes between D and G registers. -/
def Claims.LaneMoveResults : Prop :=
  (∀ (s t : State) (d a : BitVec 5) (n : BitVec 5) (j : BitVec 4) (mask : BitVec 6) (src dst : Fmt) (rm : Rm) (x : BitVec 512)
      (k : BitVec 16), s.reads (Ctx.srcDm a mask) (x, k) t →
    s.writesLanes t (.dshl d a (.imm n) mask) d k (fun l => BitVec.ofNat 32 ((dLane x l).toNat * 2 ^ n.toNat))
      ∧ s.writesLanes t (.dshr false d a (.imm n) mask) d k (fun l => BitVec.ofNat 32 ((dLane x l).toNat / 2 ^ n.toNat))
      ∧ s.writesLanes t (.dshr true d a (.imm n) mask) d k (fun l => BitVec.ofInt 32 ((dLane x l).toInt / 2 ^ n.toNat))
      ∧ s.writesLanes t (.dbcast d a j mask) d k (fun _ => dLane x j.toNat)
      ∧ s.writesLanes t (.dcvt src dst rm d a mask) d k
          (fun l => extendNum 32 dst (convert src dst rm (srDraw (s.dcvtRow d) (srBits dst) l 0) (dLane x l).toNat)))
    ∧ (∀ (s t : State) (d a : BitVec 5) (j : BitVec 4) (x : BitVec 512), s.reads (fun c => c.srcD a) x t →
      exec (.dext .int d a j) s = .next (t.retire (d.setWidth 6) ((dLane x j.toNat).signExtend 64))
        ∧ exec (.dext .fp32 d a j) s = .next (t.retire (d.setWidth 6) ((dLane x j.toNat).setWidth 64)))
    ∧ (∀ (s t : State) (d a : BitVec 5) (j : BitVec 4) (x : Word), s.reads (fun c => c.srcG (a.setWidth 6)) x t →
      ∃ v : BitVec 512, exec (.dins d a j) s = .next (t.retireD d v)
        ∧ ∀ l : Nat, l < 16 → dLane v l = if l = j.toNat then x.setWidth 32 else dLane (t.cx.rd d) l)
    ∧ (∀ (s t : State) (d : BitVec 5) (start : BitVec 9) (step : BitVec 6) (mask : BitVec 6) (k : BitVec 16),
      s.reads (fun c => c.srcMask mask) k t →
        s.writesLanes t (.diota d start step mask) d k (fun l => BitVec.ofInt 32 (start.toInt + (l : Int) * step.toInt)))

/-- Operations across lanes. A lane of an INT32 sum scan holds the sum of the enabled lanes up to it, and the INT32 sum
reduction puts the sum of all enabled lanes in lane 0; a scan's disabled lanes keep their old values and a reduction clears
lanes 1 to 15, whatever the operation; a histogram adds to lane k of D[b] the number of enabled
lanes whose key is k, and a rank adds the number of those below the lane. -/
def Claims.AcrossLanesResults : Prop :=
  (∀ (s t : State) (d a : BitVec 5) (mask : BitVec 6) (x : BitVec 512) (k : BitVec 16), s.reads (Ctx.srcDm a mask) (x, k) t →
    let sum := fun (n : Nat) =>
      ((List.range n).map fun l => if k.getLsbD l = true then dLane x l else 0#32).foldl (fun u v => u + v) 0#32
    s.writesLanes t (.dscan .int .add false d a mask) d k (fun l => sum (l + 1))
      ∧ s.writesLanes t (.dscan .int .add true d a mask) d k (fun l => sum l)
      ∧ (∃ v : BitVec 512, exec (.dred .int .add d a mask) s = .next (t.retireD d v)
          ∧ ∀ l : Nat, l < 16 → dLane v l = if l = 0 then sum 16 else 0#32)
      ∧ ∀ (ty : Lane2) (op : RedOp) (ex : Bool),
          (∃ v : BitVec 512, exec (.dscan ty op ex d a mask) s = .next (t.retireD d v)
            ∧ ∀ l : Nat, l < 16 → k.getLsbD l = false → dLane v l = dLane (t.cx.rd d) l)
          ∧ (∃ v : BitVec 512, exec (.dred ty op d a mask) s = .next (t.retireD d v)
            ∧ ∀ l : Nat, 1 ≤ l → l < 16 → dLane v l = 0#32))
    ∧ ∀ (s t : State) (d a b : BitVec 5) (mask : BitVec 6) (x y : BitVec 512) (k : BitVec 16),
      s.reads (Ctx.srcDDm a b mask) (x, y, k) t →
        let count := fun (n : Nat) (key : Int) =>
          ((List.range n).filter fun l => k.getLsbD l && (dLane x l).toInt == key).length
        (∃ v : BitVec 512, exec (.dhist false d a b mask) s = .next (t.retireD d v)
          ∧ ∀ j : Nat, j < 16 → dLane v j = dLane y j + BitVec.ofNat 32 (count 16 (j : Int)))
        ∧ s.writesLanes t (.dhist true d a b mask) d k
            (fun l => if (dLane x l).toNat < 16 then dLane y (dLane x l).toNat + BitVec.ofNat 32 (count l (dLane x l).toInt)
                      else 0xFFFFFFFF#32)

/-- Scans and reductions of every type and operation (03 R110, R111, 04 R130, R133). Disabled lanes enter as the identity.
DSCAN makes the passes at distances 1, 2, 4 and 8, the lower-numbered lane on the left, and delivers a NaN as the canonical
one (R90); .EX gives the identity in lane 0 and lane l - 1's result in lane l. DRED combines neighbours in pairs four times.
The operation is the INT32 sum modulo 2^32, the signed lesser or greater, the FP32 sum rounded to nearest even, or the FP32
minimum or maximum. -/
def Claims.ScansAndReductions : Prop :=
  (∀ (s t : State) (ty : Lane2) (op : RedOp) (d a : BitVec 5) (mask : BitVec 6) (x : BitVec 512) (k : BitVec 16),
    s.reads (Ctx.srcDm a mask) (x, k) t →
      let enter := fun (l : Nat) => if k.getLsbD l = true then dLane x l else redIdentity ty op
      let pass := fun (dist : Nat) (y : Nat → BitVec 32) (l : Nat) => if l < dist then y l else redOp ty op (y (l - dist)) (y l)
      let pairs := fun (y : Nat → BitVec 32) (l : Nat) => redOp ty op (y (2 * l)) (y (2 * l + 1))
      let given := fun (v : BitVec 32) => if ty = .fp32 ∧ num32 v = .nan then 0x7FC00000#32 else v
      let y := pass 8 (pass 4 (pass 2 (pass 1 enter)))
      s.writesLanes t (.dscan ty op false d a mask) d k (fun l => given (y l))
        ∧ s.writesLanes t (.dscan ty op true d a mask) d k (fun l => if l = 0 then redIdentity ty op else given (y (l - 1)))
        ∧ ∃ v : BitVec 512, exec (.dred ty op d a mask) s = .next (t.retireD d v)
          ∧ ∀ l : Nat, l < 16 → dLane v l = if l = 0 then pairs (pairs (pairs (pairs enter))) 0 else 0#32)
    ∧ (∀ u v : BitVec 32,
      redOp .int .add u v = u + v
        ∧ (redOp .int .min u v).toInt = min u.toInt v.toInt ∧ (redOp .int .max u v).toInt = max u.toInt v.toInt
        ∧ redOp .fp32 .add u v = fp32 .rne ((num32 u).add .rne (num32 v))
        ∧ redOp .fp32 .min u v = fp32 .rne ((num32 u).min (num32 v))
        ∧ redOp .fp32 .max u v = fp32 .rne ((num32 u).max (num32 v)))
    ∧ redIdentity .int .add = 0#32 ∧ redIdentity .int .min = BitVec.intMax 32 ∧ redIdentity .int .max = BitVec.intMin 32
    ∧ num32 (redIdentity .fp32 .add) = .zero true ∧ num32 (redIdentity .fp32 .min) = .inf false
    ∧ num32 (redIdentity .fp32 .max) = .inf true

/-- Lane conversion, moves, scans, reductions and histograms. -/
def Obligations.LaneMoves : Prop :=
  Claims.LaneMoveResults ∧ Claims.AcrossLanesResults ∧ Claims.ScansAndReductions

/-- Bytes written at consecutive physical addresses read back, and the byte at every other address reads as before, in HBM
(through the granary or not), the far tier, the Mere and local memory. -/
def Claims.StoredBytesReadBack : Prop :=
  ∀ (s : State) (nc : Bool) (a : Nat) (l : List Byte), s.plainBytes a l.length →
    s.stored (s.paPuts nc a l) a l.length fun i => (l[i]?).getD 0#8

/-- The granary's write-back of a sector changes no byte that a reader sees (08 R246): of any sector of HBM, and of any of
the reader's far tier. -/
def Claims.WriteBackKeepsBytes : Prop :=
  ∀ (s : State) (k x : Nat), s.ownSector k = true → (s.writeBack k).paByte x = s.paByte x

/-- Stored bytes read back, other bytes stay, and a write-back changes nothing that is read. -/
def Obligations.MemoryReadsBack : Prop :=
  Claims.StoredBytesReadBack ∧ Claims.WriteBackKeepsBytes

/-- The effective address of a memory instruction: pointer address plus index times the scale plus the offset, which must
stay within 56 bits; and the form of LD: through a raw pointer without an index register the scale gives the width, with
one it is eight bytes; through a format the width is the element's; a misaligned address is an alignment fault, and an address
out of range, a reserved format or a typed access with a scale and no index register a tag fault (04 R135-R137). That a tag fault
reports the formed address, and 0 where none is formed, is log 54. -/
def Claims.LoadForms : Prop :=
  (∀ (p x : Word) (sc : Scale) (off : BitVec 20),
    effAddr p x sc off =
      let ea : Int := (p.toNat % 2 ^ 56 : Nat) + x.toInt * (match sc with | .x1 => 1 | .x8 => 8 | .x64 => 64 | .x512 => 512) + off.toInt
      if 0 ≤ ea ∧ ea < 2 ^ 56 then some ea.toNat else none)
    ∧ (∀ (p x : Word) (sc : Scale) (off : BitVec 20) (a : Nat), tagFmt p = 0#5 → effAddr p 0#64 .x1 off = some a →
        formLd p x true sc off =
          let w := match sc with | .x1 => 1 | .x8 => 2 | .x64 => 4 | .x512 => 8
          if a % w = 0 then .ok a w .zext else .align a)
    ∧ (∀ (p x : Word) (sc : Scale) (off : BitVec 20) (a : Nat), tagFmt p = 0#5 → effAddr p x sc off = some a →
        formLd p x false sc off = if a % 8 = 0 then .ok a 8 .zext else .align a)
    ∧ (∀ (p x : Word) (sc : Scale) (off : BitVec 20) (a : Nat) (f : Fmt), Fmt.ofCode (tagFmt p) = some f → f ≠ .raw →
        effAddr p x sc off = some a →
        formLd p x false sc off =
          if a % fmtBytes f = 0 then
            .ok a (fmtBytes f) (match f with | .int8 | .int16 | .int32 => .sext | .t6 => .t6 | _ => .zext)
          else .align a)
    ∧ (∀ (p x : Word) (off : BitVec 20) (a : Nat) (f : Fmt), Fmt.ofCode (tagFmt p) = some f → f ≠ .raw →
        effAddr p x .x1 off = some a → formLd p x true .x1 off = formLd p x false .x1 off)
    ∧ (∀ (p x : Word) (sc : Scale) (off : BitVec 20) (f : Fmt), Fmt.ofCode (tagFmt p) = some f → f ≠ .raw → sc ≠ .x1 →
        formLd p x true sc off = .tag ((effAddr p x sc off).getD 0))
    ∧ (∀ (p x : Word) (n : Bool) (sc : Scale) (off : BitVec 20), Fmt.ofCode (tagFmt p) = none →
        formLd p x n sc off = .tag ((effAddr p x sc off).getD 0))
    ∧ (∀ (p x : Word) (n : Bool) (sc : Scale) (off : BitVec 20), tagFmt p ≠ 0#5 → effAddr p x sc off = none →
        formLd p x n sc off = .tag 0)
    ∧ (∀ (p x : Word) (sc : Scale) (off : BitVec 20), tagFmt p = 0#5 →
        (effAddr p x sc off = none → formLd p x false sc off = .tag 0)
          ∧ (effAddr p 0#64 .x1 off = none → formLd p x true sc off = .tag 0))

/-- The values that loads give: little-endian, zero- or sign-extended, a T6 word by its low 30 bits, a converted element in
FP32, times its block scale. -/
def Claims.LoadValues : Prop :=
  (∀ l : List Byte, l.length ≤ 64 → (loadValue .zext l).toNat = ofBytes l)
    ∧ (∀ l : List Byte, l.length = 1 ∨ l.length = 2 ∨ l.length = 4 →
        (loadValue .sext l).setWidth 64 = (BitVec.ofNat (8 * l.length) (ofBytes l)).signExtend 64)
    ∧ (∀ l : List Byte, (loadValue .t6 l).toNat = ofBytes l % 2 ^ 30)
    ∧ (∀ (f : Fmt) (l : List Byte), loadValue (.toFp32 f none) l = (fp32 .rne (decodeNum f (ofBytes l))).setWidth 512)
    ∧ (∀ (f : Fmt) (e : Byte) (l : List Byte),
        loadValue (.toFp32 f (some e)) l =
          (fp32 .rne ((decodeNum f (ofBytes l)).mul (decodeNum .e8m0 e.toNat))).setWidth 512)

/-- A load whose address is misaligned or wrongly tagged, or whose page forbids it, takes its fault precisely, with the
address in FREC1 (for a tag fault, log 54); an address that does not translate is a translation fault, an upcall or the service
path (04 R136; 12 R341, R346). -/
def Claims.LoadFaults : Prop :=
  ∀ (s t : State) (d base index : BitVec 6) (sc : Scale) (ord : MemOrd) (scope : Scope) (off : BitVec 20) (p x : Word),
    s.reads (Ctx.srcG2 base index) (p, x) t →
      let i := Instr.ld d base index sc ord scope off
      let f := formLd p x (index == 0#6) sc off
      (∀ a : Nat, f = .tag a → exec i s = .next (t.fault 0x0D#8 0#8 (BitVec.ofNat 64 a)))
        ∧ (∀ a : Nat, f = .align a → exec i s = .next (t.fault 0x0C#8 0#8 (BitVec.ofNat 64 a)))
        ∧ (∀ (a w : Nat) (g : LdForm) (r : BitVec 8), f = .ok a w g → t.range .load a w = .perm r →
            exec i s = .next (t.fault 0x09#8 r (BitVec.ofNat 64 a)))
        ∧ (∀ (a w : Nat) (g : LdForm) (r : BitVec 8), f = .ok a w g → t.range .load a w = .trans r →
            exec i s = .next (t.transFault r (BitVec.ofNat 64 a) false))

/-- A translation fault of a load that raises no gang stop (05 R180; 12 R346, R347): the hamlet's service context gets a record
of the core, the context, the address and the detail; a context that takes upcalls enters its handler with the record's tag, and
any other parks on that tag at the same program counter. -/
def Claims.TranslationFaults : Prop :=
  ∀ (s : State) (r : BitVec 8) (va : Word), s.cx.sys = none →
    let t := s.transFault r va false
    let tag := s.freshTag
    (∃ e : SvcRec, t.hm.svc = s.hm.svc ++ [e] ∧ e.tag = tag ∧ e.core = s.focus.core ∧ e.ctx = s.focus.ctx ∧ e.va = va
        ∧ e.detail = r ∧ e.upcall = s.cx.upcalls ∧ e.done = false)
      ∧ (s.cx.upcalls = true → ∃ u : State, t = u.upcall 0x08#8 r tag va 0#64 0#64 s.cx.pc ∧ u.cx = s.cx)
      ∧ (s.cx.upcalls = false → t.cx.state = .parked ∧ t.cx.wait = .service tag ∧ t.cx.pc = s.cx.pc ∧ t.cx.g = s.cx.g)

/-- Addresses, widths, values and faults of loads. -/
def Obligations.LoadMeaning : Prop :=
  Claims.LoadForms ∧ Claims.LoadValues ∧ Claims.LoadFaults ∧ Claims.TranslationFaults

/-- Loads from the own core's local memory of at most an event's bytes complete at once (04 R118, R137-R139): the register
takes the value of the bytes in the form that the pointer's tag names; a wider one has its parts performed one after another
(09 R275), and its context keeps the core, as does an acquire at HAMLET scope or wider that finds own stores to its bytes still
queued (09 R277). -/
def Claims.LocalLoadsComplete : Prop :=
  ∀ (s t u : State) (d base index : BitVec 6) (e : BitVec 5) (sc : Scale) (ord : MemOrd) (scope : Scope) (off : BitVec 20) (p x : Word)
      (va w pa pa2 : Nat) (nc : Bool),
    let a := u.accOf va pa pa2 w (tagFmt p) nc [] []
    let bytes := (List.range w).map fun i => u.loadByte u.focus.ctx false a i
    let parts := splitParts va 16 0 w
    let done := fun (f : LdForm) (dReg : Bool) (r : BitVec 6) =>
      if 1 < parts.length ∨ (atHome (acqScope ord scope) = true ∧ u.cr.homeWaits u.focus.ctx a = true) then
        u.onCx fun c => { c with wait := .pend (.load { a with parts := parts, got := [] } f dReg r (acqScope ord scope)) }
      else u.loadDone a f dReg r (acqScope ord scope) bytes
    s.reads (Ctx.srcG2 base index) (p, x) t → t.range .load va w = .ok pa pa2 nc u → u.ownLocal a = true →
    u.loadMet a = .none →
      (∀ f : LdForm, formLd p x (index == 0#6) sc off = .ok va w f →
          exec (.ld d base index sc ord scope off) s = .next (done f false d))
        ∧ (∀ (f : Fmt) (k : Option Byte), formLdf p x (index == 0#6) sc off = .ok va w (f, k) →
          exec (.ldf d base index sc ord scope off) s = .next (done (.toFp32 f k) false d))
        ∧ (formLdd p x (index == 0#6) sc off = .ok va w () →
          exec (.ldd e base index sc ord scope off) s = .next (done .lanesRaw true (e.setWidth 6)))
        ∧ (∀ (f : Fmt) (k : List (Option Byte)), formLddf p x (index == 0#6) sc off = .ok va w (f, k) →
          exec (.lddf e base index sc ord scope off) s = .next (done (.lanesFp32 f k) true (e.setWidth 6)))

/-- What a completed load changes, and its frame, where no debugger watches: the destination register and the program
counter, and a context that had yielded for it is ready again; an acquire at HAMLET scope or wider also empties the core's L1
(04 R140, 09 R281). -/
def Claims.LoadFrame : Prop :=
  ∀ (s : State) (a : Acc) (f : LdForm) (d : BitVec 6) (e : BitVec 5) (acq : Option Scope) (l : List Byte), s.job.debug = none →
    (let t := s.loadDone a f false d acq l
     (∀ r : BitVec 6, t.cx.rg r =
        if r = d ∧ d ≠ 0#6 ∧ s.cx.active (gStream d) = false then (loadValue f l).setWidth 64 else s.cx.rg r)
      ∧ t.cx.pc = succ s.pt s.cx.pc ∧ s.cx.goesOn.onlyG t.cx ∧ s.bytesKept t
      ∧ t.cr.l1 = (if atHome acq = true then [] else s.cr.l1)
      ∧ ∀ c k : Nat, ¬(c = s.focus.core ∧ k = s.focus.ctx) → t.ctxAt c k = s.ctxAt c k)
    ∧ (let t := s.loadDone a f true (e.setWidth 6) acq l
     (∀ r : BitVec 5, t.cx.rd r = if r = e ∧ s.cx.active (dStream e) = false then loadValue f l else s.cx.rd r)
      ∧ t.cx.pc = succ s.pt s.cx.pc ∧ s.cx.goesOn.onlyD t.cx ∧ s.bytesKept t
      ∧ t.cr.l1 = (if atHome acq = true then [] else s.cr.l1))

/-- LD, LDF, LDD or LDDF from anywhere else yields its context with the access pending, unless the L1 serves it (04 R118, 09
R277); the program counter stays until ACCESS_PERFORMED completes it. -/
def Claims.RemoteLoadsYield : Prop :=
  ∀ (s t u : State) (d base index : BitVec 6) (e : BitVec 5) (sc : Scale) (ord : MemOrd) (scope : Scope) (off : BitVec 20) (p x : Word)
      (va w pa pa2 : Nat) (nc : Bool),
    let a := u.accOf va pa pa2 w (tagFmt p) nc [] []
    let yields := fun (i : Instr) (f : LdForm) (dReg : Bool) (r : BitVec 6) =>
      ∃ v : State, exec i s = .next v
        ∧ v.cx.wait = .pend (.load { a with parts := splitParts va 16 0 w, got := [] } f dReg r (acqScope ord scope))
        ∧ v.cx.state = .parked ∧ v.cx.pc = u.cx.pc ∧ v.cx.g = u.cx.g ∧ v.cx.d = u.cx.d ∧ u.bytesKept v
    s.reads (Ctx.srcG2 base index) (p, x) t → t.range .load va w = .ok pa pa2 nc u → u.ownLocal a = false →
    ((List.range w).all fun i => (u.cr.l1Byte (a.addr i)).isSome) = false →
      (∀ f : LdForm, formLd p x (index == 0#6) sc off = .ok va w f → yields (.ld d base index sc ord scope off) f false d)
        ∧ (∀ (f : Fmt) (k : Option Byte), formLdf p x (index == 0#6) sc off = .ok va w (f, k) →
          yields (.ldf d base index sc ord scope off) (.toFp32 f k) false d)
        ∧ (formLdd p x (index == 0#6) sc off = .ok va w () →
          yields (.ldd e base index sc ord scope off) .lanesRaw true (e.setWidth 6))
        ∧ (∀ (f : Fmt) (k : List (Option Byte)), formLddf p x (index == 0#6) sc off = .ok va w (f, k) →
          yields (.lddf e base index sc ord scope off) (.lanesFp32 f k) true (e.setWidth 6))

/-- ACCESS_PERFORMED on a pending load (09 R275): the last part reads its bytes and completes the load, whose context, parked
or still on its core, goes on at the successor with its G or D register written. The access must not be one that its memory
puts off to the next tc (07 R224, 11 R331), nor one whose context has read a store that its home does not have yet (09
R276). -/
def Claims.PendingLoadsPerformed : Prop :=
  ∀ (s : State) (a : Acc) (f : LdForm) (d : BitVec 6) (e : BitVec 5) (acq : Option Scope) (parked dReg : Bool) (off n : Nat),
    let reg := if dReg = true then e.setWidth 6 else d
    s.focus.ctx < 16 → s.job.debug = none → s.cx.state = (if parked = true then .parked else .running) →
    s.cx.wait = .pend (.load a f dReg reg acq) → s.loadMet a = .none → s.deferred a true = false →
    (atHome acq && s.cr.homeWaits s.focus.ctx a) = false → a.parts = [(off, n)] →
      let any := !atHome acq && s.coin
      let byte := fun (i : Nat) => if off ≤ i ∧ i < off + n then s.loadByte s.focus.ctx any a i else SMap.get a.got i
      let l := (List.range a.len).map byte
      ∃ t : State, exec (.accessPerformed s.focus.ctx) s = .next t
        ∧ t.cx.state = (if parked = true then .ready else .running) ∧ t.cx.wait = .none
        ∧ t.cx.pc = succ s.pt s.cx.pc ∧ s.bytesKept t
        ∧ (∀ r : BitVec 6, t.cx.rg r =
            if dReg = false ∧ r = d ∧ d ≠ 0#6 ∧ s.cx.active (gStream d) = false then (loadValue f l).setWidth 64
            else s.cx.rg r)
        ∧ ∀ r : BitVec 5, t.cx.rd r =
            if dReg = true ∧ r = e ∧ s.cx.active (dStream e) = false then loadValue f l else s.cx.rd r

/-- Loads complete, at once or when performed, and change only their destination. -/
def Obligations.LoadsComplete : Prop :=
  Claims.LocalLoadsComplete ∧ Claims.LoadFrame ∧ Claims.RemoteLoadsYield ∧ Claims.PendingLoadsPerformed

/-- A store enters the store queue with its bytes (04 R137-R139, R148): with room in the queue, its release done, and its
page open to it. -/
def Claims.StoresIssue : Prop :=
  ∀ (s t u : State) (v base index : BitVec 6) (e : BitVec 5) (sc : Scale) (ord : MemOrd) (scope : Scope) (off : BitVec 20) (p x : Word)
      (va w pa pa2 : Nat) (nc : Bool),
    let r := if MemOrd.releases ord = true then t.flushFor scope else t
    let acc := fun (data keep : List Byte) => u.accOf va pa pa2 w (tagFmt p) nc data keep
    (MemOrd.releases ord = true → t.released t.focus.ctx scope = true) → r.cr.sq.length < 16 →
    r.range .store va w = .ok pa pa2 nc u →
      (∀ (y : Word) (f : LdForm), s.reads (Ctx.srcG3 base index v) (p, x, y) t → formLd p x (index == 0#6) sc off = .ok va w f →
          exec (.st v base index sc ord scope off) s =
            .next (u.storeIssue (acc (toBytes w (if f = .t6 then y.toNat % 2 ^ 30 else y.toNat)) [])))
        ∧ (∀ (y : Word) (f : Fmt) (k : Option Byte), s.reads (Ctx.srcG3 base index v) (p, x, y) t →
            formLdf p x (index == 0#6) sc off = .ok va w (f, k) →
          exec (.stf v base index sc ord scope off) s = .next (u.storeIssue (acc (toBytes w (stElem f k (y.setWidth 32))) [])))
        ∧ (∀ y : BitVec 512, s.reads (Ctx.srcGGD base index e) (p, x, y) t → formLdd p x (index == 0#6) sc off = .ok va w () →
          exec (.std e base index sc ord scope off) s = .next (u.storeIssue (acc (toBytes w y.toNat) [])))
        ∧ (∀ (y : BitVec 512) (f : Fmt) (k : List (Option Byte)), s.reads (Ctx.srcGGD base index e) (p, x, y) t →
            formLddf p x (index == 0#6) sc off = .ok va w (f, k) →
          exec (.stdf e base index sc ord scope off) s = .next (u.storeIssue (acc (toBytes w (stLanes f k y)) (stKeep f))))

/-- A store in the queue (04 R148): one to the Commons aperture or to an owned region yields its context until it is
performed; any other lets it go on at once. Registers and memory are unchanged; a store whose format differs from its
stepped region's takes a tag fault (04 R142), with its address in FREC1 (log 54). -/
def Claims.StoreQueueEntry : Prop :=
  ∀ (s : State) (a : Acc),
    (s.storeFmtOk a = false → s.storeIssue a = s.fault 0x0D#8 0#8 (BitVec.ofNat 64 a.va))
      ∧ (s.storeFmtOk a = true →
        let t := s.storeIssue a
        (∃ e : SqEnt, t.cr.sq = s.cr.sq ++ [e] ∧ e.ctx = s.focus.ctx ∧ e.checked = s.checkedStore a ∧ e.acc.data = a.data
            ∧ e.acc.va = a.va ∧ e.ticket = s.cr.nextTicket)
          ∧ t.cr.nextTicket = s.cr.nextTicket + 1
          ∧ t.cx.g = s.cx.g ∧ t.cx.d = s.cx.d ∧ s.bytesKept t
          ∧ (s.checkedStore a = false → t.cx.pc = succ s.pt s.cx.pc ∧ t.cx.state = s.cx.state)
          ∧ (s.checkedStore a = true → t.cx.pc = s.cx.pc ∧ t.cx.state = .parked ∧ t.cx.wait = .pend (.store s.cr.nextTicket)))

/-- ACCESS_PERFORMED on a queued store outside stepped regions whose bytes lie in one page (04 R148, 09 R275): the bytes of
the part that it performs last are stored, those that a packed store keeps excepted, no other byte changes, and the store leaves
the queue; a checked store performs a part only once its checks have passed. It must stand behind no other queued
store to its bytes, and reach no tile that puts it off to the next tc (11 R331). -/
def Claims.QueuedStoresPerformed : Prop :=
  ∀ (s : State) (e : SqEnt) (j off n : Nat),
    let c := e.acc.pa + off
    let u : State := { s with focus := { s.focus with ctx := e.ctx } }
    j < 16 → s.cr.sq[j]? = some e → s.job.debug = none → s.cr.blocked e = false → s.deferred e.acc false = false →
    e.acc.va % 65536 + e.acc.len ≤ 65536 → off + n ≤ e.acc.len → s.plainBytes c n →
    e.acc.parts = [(off, n)] → (e.checked = true → e.admitted = false → u.storeMet e.acc = .none ∧ u.whole e.acc = false) →
      ∃ t : State, exec (.accessPerformed (16 + j)) s = .next t
        ∧ s.stored t c n (fun i => e.acc.merged (off + i) (s.paByte (c + i)))
        ∧ (∀ k : Nat, (t.ctxAt s.focus.core k).g = (s.ctxAt s.focus.core k).g)
        ∧ t.cr.sq = s.cr.sq.filter fun x => x.ticket != e.ticket

/-- A store refused at its place (04 R136, R143, R148; 08 R264, R270): by a window that is not open, by an owned region that the
context does not hold, or by a SUM word that leaves its range; it leaves the queue, changes no byte, and its context faults. On a core that a stop has reached no delivery begins (12 R343), nor for a context in STATE 5 (14 R391): the store will issue
again. A store that its region takes is performed whole. -/
def Claims.RefusedStoresTrap : Prop :=
  ∀ (s : State) (e : SqEnt) (j : Nat), j < 16 → s.cr.sq[j]? = some e → e.checked = true → e.admitted = false →
    s.cr.blocked e = false → s.deferred e.acc false = false → e.ctx = s.focus.ctx →
    let out := s.onCr fun c => c.dequeue e.ticket
    let taken := s.cr.stopped = false ∧ s.cx.state ≠ .halted
    (taken → s.storeMet e.acc = .capability →
      exec (.accessPerformed (16 + j)) s = .next (out.fault 0x0A#8 0#8 (BitVec.ofNat 64 e.acc.va)))
    ∧ (taken → s.storeMet e.acc = .window →
      exec (.accessPerformed (16 + j)) s = .next (out.windowFault (BitVec.ofNat 64 e.acc.va)))
    ∧ (taken → s.storeMet e.acc = .none → s.whole e.acc = true → s.elemPut e.acc = none →
      exec (.accessPerformed (16 + j)) s = .next (out.fault 0x10#8 0x01#8 0#64))
    ∧ (¬taken →
      s.storeMet e.acc = .capability ∨ s.storeMet e.acc = .window
          ∨ s.storeMet e.acc = .none ∧ s.whole e.acc = true ∧ s.elemPut e.acc = none →
      exec (.accessPerformed (16 + j)) s = .next (out.onCx fun c => c.rollback.goesOn))
    ∧ (∀ t : State, s.storeMet e.acc = .none → s.whole e.acc = true → s.elemPut e.acc = some t →
      exec (.accessPerformed (16 + j)) s = .next (((t.markOwned e.acc.va e.acc.len).noteStored e.acc 0 e.acc.len).storeDone e))

/-- A store into a stepped region whose rule is PRIORITY or FAULT changes no present value of that memory (08 R264): the
bytes go to the next plane, which a reader sees only once the step has completed. That a contribution stores bytes of its
own word alone is kept by the store. -/
def Claims.SteppedStoresStayHidden : Prop :=
  ∀ (m m' : Mem) (base a writer r : Nat) (st st' : Stepped) (prio : BitVec 2) (timed : Bool) (l : List StByte) (e : Word),
    st.find a = some (r, e) → rgRule e ≠ 1 → (∀ x ∈ l, a + x.at_ < rgBase e + rgSize e ∧ rgBase e ≤ a) →
    (∀ c ∈ st.contribs, c.reg = r → c.mask.toNat < 2 ^ rgWord e) →
    stepStore m base st a writer prio timed l = .ok m' st' →
      (∀ x : Nat, st'.find x = st.find x)
        ∧ (∀ c ∈ st'.contribs, c.reg = r → c.mask.toNat < 2 ^ rgWord e)
        ∧ (∀ x : Nat, rgBase e ≤ x → x < rgBase e + rgSize e → st.find x = some (r, e) →
            SMap.get m' (base + st'.present x) = SMap.get m (base + st.present x))
        ∧ (∀ x : Nat, x < base + rgBase e ∨ base + rgBase e + 2 * rgSize e ≤ x → SMap.get m' x = SMap.get m x)

/-- A word stored into a SUM region (08 R264, R268, 04 R142): its value in sum units is added to the word's 64-bit sum, exactly,
every other byte of the memory, the present half with it, stays, and the word is marked as stored by its writer; a value that is
not in range, or a sum that leaves 64 bits, is a collision. The value is the integer, or an FP32 value over 2^SCALE where that is
whole. -/
def Claims.SumStoresAdd : Prop :=
  (∀ (m : Mem) (base : Nat) (st : Stepped) (a writer r i : Nat) (prio : BitVec 2) (l : List Byte) (e : Word),
    st.find a = some (r, e) → rgRule e = 1 → a = rgBase e + i * rgWord e → a < rgBase e + rgSize e → l.length = rgWord e →
      let sum := fun (m : Mem) => (BitVec.ofNat 64 (ofBytes (readMem m (base + sumAddr e i) 8))).toInt
      let out := stepStore m base st a writer prio false (wholeBytes l)
      (∀ v : Int, sumValue e (ofBytes l) = some v → -2 ^ 63 ≤ sum m + v → sum m + v < 2 ^ 63 →
        ∃ (m' : Mem) (st' : Stepped), out = .ok m' st' ∧ sum m' = sum m + v ∧ st'.tab = st.tab
          ∧ (∃ c ∈ st'.contribs, c.reg = r ∧ c.word = i ∧ c.writer = writer)
          ∧ (∀ x : Nat, x < base + sumAddr e i ∨ base + sumAddr e i + 8 ≤ x → SMap.get m' x = SMap.get m x)
          ∧ ∀ x : Nat, x < rgSize e → SMap.get m' (base + rgBase e + x) = SMap.get m (base + rgBase e + x))
      ∧ ((∀ v : Int, sumValue e (ofBytes l) = some v → sum m + v < -2 ^ 63 ∨ 2 ^ 63 ≤ sum m + v) → out = .collision))
    ∧ ∀ (e v : Word),
      (rgFmt e = 4#5 → sumValue e v.toNat = some (v.setWidth 32).toInt)
        ∧ (rgFmt e = 5#5 → sumValue e v.toNat = some v.toInt)
        ∧ (rgFmt e = 7#5 →
          (∀ b : Bool, num32 (v.setWidth 32) = .zero b → sumValue e v.toNat = some 0)
            ∧ (num32 (v.setWidth 32) = .nan → sumValue e v.toNat = none)
            ∧ (∀ b : Bool, num32 (v.setWidth 32) = .inf b → sumValue e v.toNat = none)
            ∧ ∀ (d : Dy) (n : Int), num32 (v.setWidth 32) = .fin d →
                (sumValue e v.toNat = some n ↔ Num.eq (.fin d) (.fin { m := n, e := rgScale e }) = true))

/-- Stores enter the queue, are performed at their home, or are refused. -/
def Obligations.StoresComplete : Prop :=
  Claims.StoresIssue ∧ Claims.StoreQueueEntry ∧ Claims.QueuedStoresPerformed ∧ Claims.RefusedStoresTrap ∧
    Claims.SteppedStoresStayHidden ∧ Claims.SumStoresAdd

/-- AMO and CAS on a word of the own core's local memory, behind no queued store to its bytes, complete at once (04 R141): where
their checks pass, as the read-modify-write of the word. -/
def Claims.LocalAtomicsComplete : Prop :=
  ∀ (s t u : State) (op : AmoOp) (d base index : BitVec 6) (ord : MemOrd) (scope : Scope) (off : BitVec 16) (p x y : Word)
      (va w pa pa2 : Nat) (nc : Bool) (f : Fmt),
    let r := if MemOrd.releases ord = true then t.flushFor scope else t
    let a := u.accOf va pa pa2 w (tagFmt p) nc [] []
    (MemOrd.releases ord = true → t.released t.focus.ctx scope = true) → r.range .amo va w = .ok pa pa2 nc u →
    u.ownLocal a = true →
    u.cr.blocked (u.cr.lastEntry u.focus.ctx a) = false →
      (s.reads (Ctx.srcG2 base index) (p, x) t → formAmo (AmoOp.float op) (op == .swap) p off = .ok va w f →
          exec (.amo op d base index ord scope off) s = .next (u.rmw a (fun m => some (amoNew op w m x)) d ord scope))
        ∧ (s.reads (Ctx.srcG3 base index d) (p, x, y) t → formAmo false true p off = .ok va w f →
          exec (.cas d base index ord scope off) s =
            .next (u.rmw a (fun m => if atWidth w m = atWidth w x then some y else none) d ord scope))

/-- AMO and CAS on a word elsewhere, or behind a queued store to its bytes, yield their context with the access pending (04 R118,
R141); ACCESS_PERFORMED then performs the read-modify-write. -/
def Claims.RemoteAtomicsYield : Prop :=
  (∀ (s t u : State) (op : AmoOp) (d base index : BitVec 6) (ord : MemOrd) (scope : Scope) (off : BitVec 16) (p x y : Word)
      (va w pa pa2 : Nat) (nc : Bool) (f : Fmt),
    let r := if MemOrd.releases ord = true then t.flushFor scope else t
    let a := u.accOf va pa pa2 w (tagFmt p) nc [] []
    let yields := fun (i : Instr) (q : Pend) =>
      ∃ v : State, exec i s = .next v ∧ v.cx.state = .parked ∧ v.cx.wait = .pend q ∧ v.cx.pc = u.cx.pc ∧ v.cx.g = u.cx.g
        ∧ v.cx.d = u.cx.d ∧ u.bytesKept v
    (MemOrd.releases ord = true → t.released t.focus.ctx scope = true) → r.range .amo va w = .ok pa pa2 nc u →
    u.ownLocal a = false ∨ u.cr.blocked (u.cr.lastEntry u.focus.ctx a) = true →
      (s.reads (Ctx.srcG2 base index) (p, x) t → formAmo (AmoOp.float op) (op == .swap) p off = .ok va w f →
          yields (.amo op d base index ord scope off) (.amo a op x d ord scope))
        ∧ (s.reads (Ctx.srcG3 base index d) (p, x, y) t → formAmo false true p off = .ok va w f →
          yields (.cas d base index ord scope off) (.cas a x y d ord scope)))
    ∧ ∀ (s : State) (a : Acc) (op : AmoOp) (x y : Word) (d : BitVec 6) (ord : MemOrd) (scope : Scope),
      s.focus.ctx < 16 → s.cx.state ≠ .free → s.cx.state ≠ .swapped →
        (s.cx.wait = .pend (.amo a op x d ord scope) →
          exec (.accessPerformed s.focus.ctx) s = .next (s.rmw a (fun m => some (amoNew op a.len m x)) d ord scope))
        ∧ (s.cx.wait = .pend (.cas a x y d ord scope) →
          exec (.accessPerformed s.focus.ctx) s =
            .next (s.rmw a (fun m => if atWidth a.len m = atWidth a.len x then some y else none) d ord scope))

/-- A read-modify-write performed (04 R141): G[d] takes the old word, sign-extended from INT32, the new word is stored at
the width of the access where there is one, no other byte changes, and a context that had yielded is ready at the successor. It
stands behind no queued store to its bytes and behind no writer that its home takes later (09 R276). -/
def Claims.AtomicEffect : Prop :=
  ∀ (s : State) (a : Acc) (new : Word → Option Word) (d : BitVec 6) (ord : MemOrd) (scope : Scope),
    s.job.debug = none → s.storeMet a = .none → (s.homes a 0 a.len).find? s.pt.poisoned = none → (a.len = 4 ∨ a.len = 8) →
    s.plainBytes a.pa a.len →
    s.cr.blocked (s.cr.lastEntry s.focus.ctx a) = false → s.deferred a false = false →
      let old := BitVec.ofNat 64 (ofBytes (s.paBytes a.pa a.len))
      let t := s.rmw a new d ord scope
      (∀ r : BitVec 6, t.cx.rg r =
          if r = d ∧ d ≠ 0#6 ∧ s.cx.active (gStream d) = false then
            (if a.fmt = 4#5 then (old.setWidth 32).signExtend 64 else old)
          else s.cx.rg r)
        ∧ t.cx.pc = succ s.pt s.cx.pc ∧ t.cx.d = s.cx.d ∧ (s.cx.state = .parked → t.cx.state = .ready ∧ t.cx.wait = .none)
        ∧ (new old = none → ∀ x : Nat, t.paByte x = s.paByte x)
        ∧ (∀ v : Word, new old = some v → s.stored t a.pa a.len fun i => v.extractLsb' (8 * i) 8)

/-- The new word of each AMO operation (04 R141), on 64-bit words and on INT32 words, which are compared at their own
width. -/
def Claims.AtomicOperations : Prop :=
  ∀ m v : Word,
    amoNew .add 8 m v = m + v ∧ amoNew .and 8 m v = m &&& v ∧ amoNew .or 8 m v = m ||| v ∧ amoNew .xor 8 m v = m ^^^ v
      ∧ amoNew .swap 8 m v = v
      ∧ amoNew .min 8 m v = (if m.toInt ≤ v.toInt then m else v) ∧ amoNew .max 8 m v = (if v.toInt ≤ m.toInt then m else v)
      ∧ amoNew .minu 8 m v = (if m.toNat ≤ v.toNat then m else v) ∧ amoNew .maxu 8 m v = (if v.toNat ≤ m.toNat then m else v)
      ∧ (amoNew .add 4 m v).setWidth 32 = m.setWidth 32 + v.setWidth 32
      ∧ ((amoNew .min 4 m v).setWidth 32).toInt = min (m.setWidth 32).toInt (v.setWidth 32).toInt
      ∧ ((amoNew .max 4 m v).setWidth 32).toInt = max (m.setWidth 32).toInt (v.setWidth 32).toInt
      ∧ (m.toNat < 2 ^ 32 →
          (amoNew .minu 4 m v).toNat = min m.toNat (v.toNat % 2 ^ 32) ∧ (amoNew .maxu 4 m v).toNat = max m.toNat (v.toNat % 2 ^ 32))
      ∧ amoNew .fadd 4 m v = (fadd32 .rne (m.setWidth 32) (v.setWidth 32)).setWidth 64
      ∧ amoNew .fmin 4 m v = (fmin32 (m.setWidth 32) (v.setWidth 32)).setWidth 64
      ∧ amoNew .fmax 4 m v = (fmax32 (m.setWidth 32) (v.setWidth 32)).setWidth 64

/-- Atomic instructions read, compute and write once. -/
def Obligations.Atomics : Prop :=
  Claims.LocalAtomicsComplete ∧ Claims.RemoteAtomicsYield ∧ Claims.AtomicEffect ∧ Claims.AtomicOperations

/-- PREF never traps and completes at once, its address failing a check or not, with no register changed and no byte of memory
but those of the page-table leaf that its walk may mark as accessed (04 R144, 08 R253); FENCE at CTX scope completes at once,
and at a wider scope yields and completes when ACCESS_PERFORMED finds what it waits for, an acquiring one emptying the core's L1
(04 R147). -/
def Claims.PrefetchAndFence : Prop :=
  (∀ (s t : State) (base index : BitVec 6) (sc : Scale) (scope : Scope) (off : BitVec 20) (p x : Word),
    s.reads (Ctx.srcG2 base index) (p, x) t →
      ∃ v : State, exec (.pref base index sc scope off) s = .next v ∧ v.cx.pc = succ t.pt t.cx.pc ∧ v.cx.g = t.cx.g
        ∧ v.cx.d = t.cx.d ∧ v.cx.state = t.cx.state
        ∧ ((∀ (va a : Nat) (l : Word), formSweep p x (index == 0#6) sc off = some va → (t.walkHeld va).1 ≠ .leaf a l) →
            t.bytesKept v)
        ∧ ∀ (va a : Nat) (l : Word), formSweep p x (index == 0#6) sc off = some va → (t.walkHeld va).1 = .leaf a l →
            t.plainBytes a 8 → ∀ z : Nat, (∀ i : Nat, i < 8 → t.pt.home z ≠ t.pt.home (a + i)) → t.regionFits (t.pt.home z) →
              v.paByte z = t.paByte z)
    ∧ (∀ (s : State) (ord : MemOrd), exec (.fence ord .ctx) s = .next s.advance)
    ∧ (∀ (s : State) (ord : MemOrd) (scope : Scope), scope ≠ .ctx →
      exec (.fence ord scope) s = .next (s.park (.pend (.fence ord scope))))
    ∧ (∀ (s : State) (ord : MemOrd) (scope : Scope), s.focus.ctx < 16 → s.cx.state = .parked →
      s.cx.wait = .pend (.fence ord scope) → (MemOrd.releases ord = true → s.released s.focus.ctx scope = true) →
        ∃ t : State, exec (.accessPerformed s.focus.ctx) s = .next t ∧ t.cx.state = .ready ∧ t.cx.pc = succ s.pt s.cx.pc
          ∧ t.cx.g = s.cx.g ∧ t.cr.l1 = (if MemOrd.acquires ord = true ∧ Scope.wide scope = true then [] else s.cr.l1)
          ∧ ∀ x : Nat, t.paByte x = s.paByte x)

/-- DISCARD and FLUSH yield with the sectors that they cover, zero bytes covering none, and each ACCESS_PERFORMED does one of
them, in any order, the last completing the instruction (04 R145, R146; 08 R272, R274): FLUSH leaves every byte reading as
before; DISCARD drops the sector from the granary, outside the static segments, and every byte of another sector reads as
before. -/
def Claims.SweepsComplete : Prop :=
  (∀ (s t : State) (d base index : BitVec 6) (sc : Scale) (scope : Scope) (off : BitVec 20) (p x y : Word) (va : Nat),
    s.reads (Ctx.srcG3 base index d) (p, x, y) t → formSweep p x (index == 0#6) sc off = some va → y.setWidth 32 = 0#32 →
      exec (.discard d base index sc scope off) s = .next (t.park (.pend (.sweep true [])))
        ∧ exec (.flush d base index sc scope off) s = .next (t.park (.pend (.sweep false []))))
    ∧ (∀ (s t u : State) (d base index : BitVec 6) (sc : Scale) (scope : Scope) (off : BitVec 20) (p x y : Word)
        (va pa pa2 : Nat) (nc : Bool),
      let n := y.toNat % 2 ^ 32
      let l := (List.range ((va + n - 1) / 64 + 1 - va / 64)).map fun i => pa / 64 * 64 + 64 * i
      s.reads (Ctx.srcG3 base index d) (p, x, y) t → formSweep p x (index == 0#6) sc off = some va → 0 < n →
      va % 65536 + n ≤ 65536 →
        (t.range .flush va n = .ok pa pa2 nc u →
          exec (.flush d base index sc scope off) s = .next (u.park (.pend (.sweep false l))))
        ∧ (t.range .discard va n = .ok pa pa2 nc u → u.discardOk va (va + n - 1) = true →
          exec (.discard d base index sc scope off) s = .next (u.park (.pend (.sweep true l)))))
    ∧ (∀ (s : State) (discard : Bool) (l : List Nat) (m : Nat), s.focus.ctx < 16 → s.cx.state = .parked →
      s.cx.wait = .pend (.sweep discard l) →
        let rest := l.eraseIdx (m % l.length)
        ∃ t : State, exec (.accessPerformed (s.focus.ctx + 32 * m)) s = .next t ∧ t.cx.g = s.cx.g
          ∧ (rest = [] → t.cx.state = .ready ∧ t.cx.wait = .none ∧ t.cx.pc = succ s.pt s.cx.pc)
          ∧ (rest ≠ [] → t.cx.state = .parked ∧ t.cx.wait = .pend (.sweep discard rest) ∧ t.cx.pc = s.cx.pc)
          ∧ (discard = false → ∀ x : Nat, t.paByte x = s.paByte x)
          ∧ (discard = true → ∀ pa : Nat, l[m % l.length]? = some pa →
              (∀ x : Nat, s.sectorOf (s.pt.home x) ≠ s.sectorOf (s.pt.home pa) ∨ s.sectorOf (s.pt.home x) = none →
                  t.paByte x = s.paByte x)
                ∧ ∀ k : Nat, s.sectorOf (s.pt.home pa) = some k →
                    (∀ key : Nat, s.pt.home pa = .hbm key → s.pt.inSegment key = false) → SMap.get t.dirty k = none))

/-- PREF, FENCE, DISCARD and FLUSH. -/
def Obligations.PrefetchFenceSweep : Prop :=
  Claims.PrefetchAndFence ∧ Claims.SweepsComplete

/-- Branches: BR goes to its target when its condition holds and to the successor otherwise; JMP and CALL go to their
target, JMPR to bits 28:0 of its register; CALL leaves the successor in G63; nothing else changes. -/
def Claims.Branches : Prop :=
  (∀ (s t : State) (cc : Cond) (a b : BitVec 6) (slot : BitVec 3) (line : BitVec 26) (x y : Word),
    s.reads (Ctx.srcG2 a b) (x, y) t →
      exec (.br cc a b slot line) s = .next (if Cond.holds cc x y = true then t.jump (line ++ slot) else t.advance))
    ∧ (∀ (s : State) (slot : BitVec 3) (line : BitVec 26), exec (.jmp slot line) s = .next (s.jump (line ++ slot)))
    ∧ (∀ (s t : State) (a : BitVec 6) (x : Word), s.reads (fun c => c.srcG a) x t →
      ∃ v : State, exec (.jmpr a) s = .next v ∧ v.cx.pc = x.setWidth 29 ∧ (v.cx.pcBad = true ↔ x.toNat / 2 ^ 29 ≠ 0)
        ∧ v.cx.g = t.cx.g ∧ t.onlyContext v ∧ t.bytesKept v)
    ∧ (∀ (s : State) (slot : BitVec 3) (line : BitVec 26),
      ∃ v : State, exec (.call slot line) s = .next v ∧ v.cx.pc = line ++ slot
        ∧ v.cx.rg 63#6 = (succ s.pt s.cx.pc).setWidth 64 ∧ (∀ r : BitVec 6, r ≠ 63#6 → v.cx.rg r = s.cx.rg r)
        ∧ s.onlyContext v ∧ s.bytesKept v)
    ∧ ∀ (s : State) (p : BitVec 29),
        (s.jump p).cx.pc = p ∧ (s.jump p).cx.pcBad = false ∧ (s.jump p).cx.g = s.cx.g ∧ (s.jump p).cx.d = s.cx.d
          ∧ s.onlyContext (s.jump p) ∧ s.bytesKept (s.jump p)

/-- What START of helper k leaves (05 R153), `t` being the state with its operands read: the helper has its program counter, its
priority, G1 and G2, and zero elsewhere, in STATE 1, and G[a] of the starter, which goes on, its number. -/
def Claims.helperStarted (t v : State) (p : BitVec 2) (a : BitVec 6) (pc : BitVec 29) (x : Word) (k : Nat) : Prop :=
  let h := v.ctxAt t.focus.core k
  (h.pc = pc ∧ h.state = .ready ∧ h.prio = p ∧ h.rg 1#6 = x ∧ h.rg 2#6 = BitVec.ofNat 64 t.me
      ∧ (∀ r : BitVec 6, r ≠ 1#6 → r ≠ 2#6 → h.rg r = 0#64) ∧ (∀ r : BitVec 5, h.rd r = 0#512)
      ∧ h.upen = false ∧ h.inupc = false ∧ h.frec0 = 0#64 ∧ h.pseq = 0#16 ∧ h.strmAct = 0#16 ∧ h.steps = 0)
    ∧ v.cx.pc = succ t.pt t.cx.pc
    ∧ ∀ r : BitVec 6, v.cx.rg r =
        if r = a ∧ a ≠ 0#6 ∧ t.cx.active (gStream a) = false then BitVec.ofNat 64 k else t.cx.rg r

/-- START gives a free helper context its program counter, its priority, G1 and G2, and zero elsewhere, in STATE 1, and the
number of the helper to the starter; with no free helper it answers all ones; in deterministic mode the number is asked
for: that helper starts when it is free, START waits, to issue again, while it is not, and an impossible number is a permission
fault (05 R153, 09 R298). -/
def Claims.StartHelper : Prop :=
  (∀ (s t : State) (p : BitVec 2) (a b : BitVec 6) (slot : BitVec 3) (line : BitVec 26) (x : Word) (k : Nat),
    s.pt.det = false → s.reads (fun c => c.srcG b) x t → t.cr.freeHelper = some k → k ≠ s.focus.ctx → t.hm.pendq = [] →
      ∃ v : State, exec (.start p a b slot line) s = .next v ∧ Claims.helperStarted t v p a (line ++ slot) x k)
    ∧ (∀ (s t : State) (p : BitVec 2) (a b : BitVec 6) (slot : BitVec 3) (line : BitVec 26) (x y : Word),
      s.pt.det = true → s.reads (Ctx.srcG2 a b) (x, y) t → 1 ≤ x.toNat → x.toNat ≤ 10 →
        ((t.cr.ctx x.toNat).state = .free → x.toNat ≠ s.focus.ctx → t.hm.pendq = [] →
          ∃ v : State, exec (.start p a b slot line) s = .next v ∧ Claims.helperStarted t v p a (line ++ slot) y x.toNat)
        ∧ ((t.cr.ctx x.toNat).state ≠ .free →
          ∃ v : State, exec (.start p a b slot line) s = .next v ∧ v.cx.state = .parked ∧ v.cx.wait = .helper x.toNat
            ∧ v.cx.pc = s.cx.pc ∧ v.cx.g = s.cx.g ∧ s.bytesKept v))
    ∧ (∀ (s t : State) (p : BitVec 2) (a b : BitVec 6) (slot : BitVec 3) (line : BitVec 26) (x : Word),
      s.pt.det = false → s.reads (fun c => c.srcG b) x t → t.cr.freeHelper = none →
        exec (.start p a b slot line) s = .next (t.retire a (BitVec.allOnes 64)))
    ∧ (∀ (s t : State) (p : BitVec 2) (a b : BitVec 6) (slot : BitVec 3) (line : BitVec 26) (x y : Word),
      s.pt.det = true → s.reads (Ctx.srcG2 a b) (x, y) t → x = 0#64 ∨ 10 < x.toNat →
        exec (.start p a b slot line) s = .next (t.fault 0x09#8 0#8 0#64))
    ∧ ∀ (c : Core) (k : Nat), c.freeHelper = some k →
        1 ≤ k ∧ k ≤ 10 ∧ (c.ctx k).state = .free ∧ ∀ j : Nat, 1 ≤ j → j < k → (c.ctx j).state ≠ .free

/-- EXIT yields until what its context left outstanding has come home, and ACCESS_PERFORMED then frees the context (05
R154). -/
def Claims.ExitFrees : Prop :=
  (∀ s : State, ∃ t : State, exec .exit s = .next t ∧ t.cx.state = .parked ∧ t.cx.wait = .pend .exit ∧ t.cx.held = []
    ∧ s.bytesKept t)
    ∧ ∀ s : State, s.focus.ctx < 11 → s.cx.state = .parked → s.cx.wait = .pend .exit →
      (s.exitReady = true →
        ∃ t : State, exec (.accessPerformed s.focus.ctx) s = .next t ∧ t.cx.state = .free ∧ t.cx.strmAct = 0#16 ∧ s.bytesKept t)
      ∧ (s.exitReady = false → exec (.accessPerformed s.focus.ctx) s = .next s)

/-- YIELD leaves the core with the context ready at its successor; CTXQ answers a context's STATE, the number of free
helpers or the context's own number (05 R155, 10 R315). -/
def Claims.YieldAndQuery : Prop :=
  (∀ s : State, ∃ t : State, exec .yield s = .next t ∧ t.cx.state = .ready ∧ t.cx.pc = succ s.pt s.cx.pc
    ∧ t.cr.running = (if s.cr.running = some s.focus.ctx then none else s.cr.running) ∧ t.cx.g = s.cx.g ∧ s.bytesKept t)
    ∧ (∀ (s t : State) (d a : BitVec 6) (x : Word), s.reads (fun c => c.srcG a) x t →
      exec (.ctxq .state d a) s = .next (t.retire d
        (if x.toNat ≤ 10 then
          (match (t.cr.ctx x.toNat).state with
            | .free => 0#64 | .ready => 1#64 | .running => 2#64 | .parked => 3#64 | .upcall => 4#64 | .halted => 5#64
            | .swapped => 6#64)
         else BitVec.allOnes 64)))
    ∧ ∀ (s : State) (d a : BitVec 6),
      exec (.ctxq .self d a) s = .next (s.retire d (BitVec.ofNat 64 s.focus.ctx))
        ∧ exec (.ctxq .free d a) s = .next (s.retire d
            (BitVec.ofNat 64 (([1, 2, 3, 4, 5, 6, 7, 8, 9, 10].filter fun k => (s.cr.ctx k).state == .free).length)))

/-- Branches, and starting, ending, yielding and asking about contexts. -/
def Obligations.BranchesAndContexts : Prop :=
  Claims.Branches ∧ Claims.StartHelper ∧ Claims.ExitFrees ∧ Claims.YieldAndQuery

/-- Taking a trap outside the system handler: FREC0 packs RESUME, DETAIL and CAUSE with FTAG zero, FREC1 to FREC3 take the
fault's words, the program counter stands at the trap entry of the core's system handler, the context's turn on its core ends (10
R314), and the other registers keep their values (05 R151, 12 R341, R344). A fatal cause also stops the partition with the context as origin (12 R345, R348), in
the step of the trap itself (the model's choice, log 5). -/
def Claims.TrapEntry : Prop :=
  ∀ (s : State) (cause detail : BitVec 8) (f1 f2 f3 : Word) (resume : BitVec 29), s.cx.sys = none →
    let t := s.trap cause detail f1 f2 f3 resume
    t.cx.frec0.extractLsb' 35 29 = resume ∧ t.cx.frec0.extractLsb' 32 3 = 0#3 ∧ t.cx.frec0.extractLsb' 16 16 = 0#16
      ∧ t.cx.frec0.extractLsb' 8 8 = detail ∧ t.cx.frec0.extractLsb' 0 8 = cause
      ∧ t.cx.frec1 = f1 ∧ t.cx.frec2 = f2 ∧ t.cx.frec3 = f3
      ∧ t.cx.pc = s.pt.trapEntry ∧ t.cx.sys = some (cause, detail)
      ∧ t.cx.g = s.cx.g ∧ t.cx.d = s.cx.d ∧ t.cx.inupc = s.cx.inupc ∧ t.cx.upv = s.cx.upv
      ∧ t.cr.running = (if s.cr.running = some s.focus.ctx then none else s.cr.running)
      ∧ (∀ c k : Nat, ¬(c = s.focus.core ∧ k = s.focus.ctx) → t.ctxAt c k = s.ctxAt c k)
      ∧ s.bytesKept t
      ∧ (cause = 0x12#8 ∨ cause = 0x21#8 → t.job.stop = s.job.stop)
      ∧ (cause ≠ 0x12#8 → cause ≠ 0x21#8 → s.job.stop = none →
          ∃ g : GangStop, t.job.stop = some g ∧ g.origin = .ctx s.me ∧ g.cause = cause ∧ g.detail = detail ∧ g.tb = s.job.tb)

/-- TRAP takes its trap with cause 0x20 and the sign-extended immediate in FREC1, resuming at the successor (05 R179). -/
def Claims.TrapInstruction : Prop :=
  ∀ (s : State) (imm : BitVec 34), s.cx.sys = none →
    exec (.trap imm) s = .next (s.trap 0x20#8 0#8 (imm.signExtend 64) 0#64 0#64 (succ s.pt s.cx.pc))
      ∧ ∃ t : State, exec (.trap imm) s = .next t ∧ t.cx.frec0.extractLsb' 0 8 = 0x20#8 ∧ t.cx.frec1 = imm.signExtend 64
        ∧ t.cx.frec0.extractLsb' 35 29 = succ s.pt s.cx.pc ∧ t.cx.pc = s.pt.trapEntry

/-- Taking an upcall: the fault record with its tag, INUPC set, STATE 4 and the program counter at UPV; the context's turn on its
core ends (10 R314), after which a switch cycle follows; the other registers keep their values (05 R180, 12 R341). -/
def Claims.UpcallEntry : Prop :=
  ∀ (s : State) (cause detail : BitVec 8) (tag : BitVec 16) (f1 f2 f3 : Word) (resume : BitVec 29),
    let t := s.upcall cause detail tag f1 f2 f3 resume
    t.cx.frec0 = resume ++ 0#3 ++ tag ++ detail ++ cause ∧ t.cx.frec1 = f1 ∧ t.cx.frec2 = f2 ∧ t.cx.frec3 = f3
      ∧ t.cx.pc = s.cx.upv ∧ t.cx.inupc = true ∧ t.cx.state = .upcall ∧ t.cx.g = s.cx.g ∧ t.cx.d = s.cx.d
      ∧ s.endTurn.onlyContext t ∧ s.bytesKept t
      ∧ (s.cr.running = some s.focus.ctx → t.cr.running = none ∧ t.cr.switching = true ∧ t.cr.last = s.focus.ctx)
      ∧ (s.cr.running ≠ some s.focus.ctx → t.cr.running = s.cr.running)

/-- Taking a trap or an upcall: what is saved, and where the program counter goes. -/
def Obligations.TrapsAndUpcalls : Prop :=
  Claims.TrapEntry ∧ Claims.TrapInstruction ∧ Claims.UpcallEntry

/-- ERET in an upcall handler goes on at FREC0.RESUME with INUPC clear and STATE 2, and outside any handler is an illegal
instruction; what a handler entered by an upcall returns to is the RESUME that was saved (05 R179). -/
def Claims.ReturnFromHandler : Prop :=
  (∀ s : State, s.cx.inupc = true → s.cx.sys = none →
    ∃ t : State, exec .eret s = .next t ∧ t.cx.pc = s.cx.frec0.extractLsb' 35 29 ∧ t.cx.inupc = false ∧ t.cx.state = .running
      ∧ t.cx.g = s.cx.g ∧ t.cx.d = s.cx.d ∧ t.cx.frec0 = s.cx.frec0 ∧ s.onlyContext t ∧ s.bytesKept t)
    ∧ (∀ s : State, s.cx.inupc = false → s.cx.sys = none → exec .eret s = .next (s.fault 0x01#8 0#8 0#64))
    ∧ ∀ (s : State) (cause detail : BitVec 8) (tag : BitVec 16) (f1 f2 f3 : Word) (resume : BitVec 29), s.cx.sys = none →
      ∃ t : State, exec .eret (s.upcall cause detail tag f1 f2 f3 resume) = .next t ∧ t.cx.pc = resume

/-- RESUME in a handler takes the notice with its tag, if it has come, and goes on at the given address outside the handler;
without the notice it only advances; outside a handler it is illegal (05 R181). HALT without a debugger traps with cause
0x21, and with one halts in STATE 5 (05 R183); DBGBRK that nothing is armed for only advances (05 R185); TLBI from a
launch's context is a permission fault (05 R184). -/
def Claims.HandlerAndDebugInstructions : Prop :=
  (∀ (s t : State) (a b : BitVec 6) (x y : Word), s.cx.inupc = true → s.reads (Ctx.srcG2 a b) (x, y) t →
    (t.cr.notice t.focus.ctx (x.setWidth 16) = none → exec (.resume a b) s = .next t.advance)
      ∧ ∀ e : MEntry, t.cr.notice t.focus.ctx (x.setWidth 16) = some e →
        ∃ v : State, exec (.resume a b) s = .next v ∧ v.cx.pc = y.setWidth 29 ∧ v.cx.inupc = false ∧ v.cx.state = .running
          ∧ (∀ r ∈ v.hm.svc, r.tag ≠ x.setWidth 16))
    ∧ (∀ (s : State) (a b : BitVec 6), s.cx.inupc = false → exec (.resume a b) s = .next (s.fault 0x01#8 0#8 0#64))
    ∧ (∀ s : State, s.job.debug = none →
      exec .halt s = .next (s.trap 0x21#8 0#8 0#64 0#64 0#64 (succ s.pt s.cx.pc)))
    ∧ (∀ s : State, (s.job.debug).isSome = true → s.job.trace.on = false →
      ∃ t : State, exec .halt s = .next t ∧ t.cx.state = .halted ∧ t.cx.g = s.cx.g ∧ t.cx.pc = s.cx.pc)
    ∧ (∀ (s : State) (id : BitVec 16), s.job.debug = none → exec (.dbgbrk id) s = .next s.advance)
    ∧ (∀ (s : State) (k : TlbK) (a b : BitVec 6), s.focus.ctx < 11 →
      exec (.tlbi k a b) s = .next (s.fault 0x09#8 0#8 0#64))
    ∧ ∀ (s t : State) (a b : BitVec 6) (x y : Word), s.focus.ctx = svcCtx → s.reads (Ctx.srcG2 a b) (x, y) t →
      exec (.tlbi .all a b) s = .next (t.park (.pend (.tlbi .all 0 (2 ^ 56 - 1) [])))
        ∧ exec (.tlbi .page a b) s = .next (t.park (.pend (.tlbi .page (ptrAddr x) (ptrAddr x) [])))
        ∧ (y = 0#64 ∨ 2 ^ 20 < y.toNat → exec (.tlbi .range a b) s = .next (t.fault 0x09#8 0#8 0#64))

/-- Returning from handlers; RESUME, HALT, DBGBRK and TLBI. -/
def Obligations.HandlersReturn : Prop :=
  Claims.ReturnFromHandler ∧ Claims.HandlerAndDebugInstructions

/-- SEND counts the message in CORE.SENT, puts it on its way with that number as its sequence number, and gives the number
to the sender; a destination that names no context is a permission fault, and so is SEND.NOTICE in a launch (05 R156). A
service context's SEND.NOTICE is a message of kind 4 that counts nowhere (12 R346). -/
def Claims.SendMessage : Prop :=
  ∀ (s t : State) (d a b c : BitVec 6) (x y z : Word), s.reads (fun e => e.srcG3 a b c) (x, y, z) t →
    (∀ n : Nat, t.pt.destOf x = some n → t.cr.sq.length < 16 →
      ∃ v : State, exec (.send false d a b c) s = .next v
        ∧ v.cr.sent = t.cr.sent + 1#64
        ∧ v.job.msgs = t.job.msgs ++ [{ src := s.me, dst := n, kind := 0#4, seq := (t.cr.sent + 1#64).setWidth 32, lo := y
                                        hi := z, returned := false }]
        ∧ (∀ r : BitVec 6, v.cx.rg r =
            if r = d ∧ d ≠ 0#6 ∧ t.cx.active (gStream d) = false then ((t.cr.sent + 1#64).setWidth 32).setWidth 64 else t.cx.rg r)
        ∧ v.cx.pc = succ t.pt t.cx.pc ∧ t.bytesKept v)
      ∧ (t.pt.destOf x = none → exec (.send false d a b c) s = .next (t.fault 0x09#8 0#8 0#64))
      ∧ (s.focus.ctx < 11 → exec (.send true d a b c) s = .next (t.fault 0x09#8 0#8 0#64))
      ∧ ∀ n : Nat, s.focus.ctx = svcCtx → t.pt.destOf x = some n →
          ∃ v : State, exec (.send true d a b c) s = .next v ∧ v.cr.sent = t.cr.sent
            ∧ v.job.msgs = t.job.msgs ++ [{ src := 0xFFE, dst := n, kind := 4#4, seq := 0#32, lo := y, hi := z, returned := false }]
            ∧ v.cx.pc = succ t.pt t.cx.pc ∧ t.bytesKept v

/-- RECV takes the oldest entry of its context, its words and its descriptor with VALID, kind, peer and sequence number, or
writes three zeros; WAITM takes nothing and answers the number of entries, which in deterministic mode it gives as 1 (09 R298), or
parks (05 R159, R160). -/
def Claims.ReceiveMessage : Prop :=
  (∀ (s : State) (d a b : BitVec 6), (s.cr.mbox.find? fun e => e.visible s.focus.ctx) = none →
    ∃ t : State, exec (.recv d a b) s = .next t ∧ t.cx = (((s.cx.wg d 0#64).wg a 0#64).wg b 0#64).advance s.pt ∧ s.bytesKept t)
    ∧ (∀ (s : State) (d a b : BitVec 6) (e : MEntry), (s.cr.mbox.find? fun e => e.visible s.focus.ctx) = some e →
      s.cr.spill = [] → s.cr.netif = [] → s.cx.wait = .none → s.cr.takesServed →
      ∃ t : State, exec (.recv d a b) s = .next t
        ∧ t.cr.mbox = s.cr.mbox.erase e
        ∧ t.cx = (((s.cx.wg d e.lo).wg a e.hi).wg b e.descriptor).advance s.pt ∧ s.bytesKept t)
    ∧ (∀ e : MEntry, e.descriptor.getLsbD 63 = true ∧ e.descriptor.extractLsb' 48 4 = e.kind
        ∧ e.descriptor.extractLsb' 32 12 = e.peer
        ∧ e.descriptor.extractLsb' 0 32 = (if e.kind = 3#4 ∨ e.kind = 4#4 then 0#32 else e.seq))
    ∧ (∀ (s : State) (d : BitVec 6),
      let n := (s.cr.mbox.filter fun e => decide (e.kind.toNat ≤ 4) && e.dst == s.focus.ctx).length
      exec (.waitm d) s =
        .next (if n = 0 then s.park (.message d) else s.retire d (if s.pt.det = true then 1#64 else BitVec.ofNat 64 n)))

/-- A message that arrives at a context that runs enters its mailbox and counts in CORE.RCVD; one for a context that has
exited is turned back to its sender (05 R157, R158). No earlier message of the sender to that core may still be on its way
(01 R32). -/
def Claims.MessageArrives : Prop :=
  ∀ (s : State) (n : Nat) (m : Msg), s.job.msgs[n]? = some m → m.returned = false → m.kind = 0#4 →
    m.dst ≠ 0xFFE → (∀ x ∈ s.job.msgs.take n, ¬(x.src = m.src ∧ x.returned = false ∧ x.dst / 11 = m.dst / 11)) →
    let c := m.dst / 11
    let k := m.dst % 11
    ((s.ctxAt c k).state = .running → (s.coreAt c).mbox.length < 128 → (s.coreAt c).spill = [] → (s.coreAt c).netif = [] →
      (s.coreAt c).preempted = false → m.src < 4095 → (s.coreAt c).takesServed →
      ∃ t : State, exec (.messageArrival n) s = .next t
        ∧ (t.coreAt c).rcvd = (s.coreAt c).rcvd + 1#64
        ∧ (t.coreAt c).mbox = (s.coreAt c).mbox ++
            [{ kind := 0#4, dst := k, peer := BitVec.ofNat 12 m.src, seq := m.seq, lo := m.lo, hi := m.hi }]
        ∧ t.job.msgs = s.job.msgs.eraseIdx n ∧ s.bytesKept t)
    ∧ ((s.ctxAt c k).state = .free → (s.ctxAt c k).ran = true →
      ∃ t : State, exec (.messageArrival n) s = .next t
        ∧ t.job.msgs = s.job.msgs.eraseIdx n ++ [{ m with src := m.dst, dst := m.src, returned := true }] ∧ s.bytesKept t)

/-- Messages are sent, travel, arrive and are taken. -/
def Obligations.Messages : Prop :=
  Claims.SendMessage ∧ Claims.ReceiveMessage ∧ Claims.MessageArrives

/-- HANDOFF by the holder yields until its stores are home, and then the capability is in transit with the next sequence
number, which the giver's register takes; HANDOFF without the capability is a capability fault. TAKE by the holder answers HSEQ;
by another context it takes the handover that stands in its mailbox, or parks until one arrives; of a region that is not valid it
is a capability fault (05 R176, R177). -/
def Claims.OwnedRegions : Prop :=
  (∀ (s t : State) (d a : BitVec 6) (n : BitVec 8) (x : Word) (dst : Nat), s.reads (fun c => c.srcG a) x t →
    t.pt.destOf x = some dst →
    let o := SMap.get t.job.owned n.toNat
    exec (.handoff d a n) s =
      .next (if o.valid = true ∧ o.holder.toNat = t.writer then t.park (.pend (.handoff d dst n))
             else t.fault 0x0A#8 0#8 0#64))
    ∧ (∀ (s : State) (d : BitVec 6) (n : BitVec 8) (dst : Nat), s.focus.ctx < 11 → s.cx.state = .parked →
      s.cx.wait = .pend (.handoff d dst n) → s.cr.storesDone s.focus.ctx = true →
      let o := SMap.get s.job.owned n.toNat
      ∃ t : State, exec (.accessPerformed s.focus.ctx) s = .next t
        ∧ (SMap.get t.job.owned n.toNat).hseq = o.hseq + 1#16 ∧ (SMap.get t.job.owned n.toNat).holder = 0xFFF#12
        ∧ t.cr.sent = s.cr.sent + 1#64 ∧ t.cx.state = .ready ∧ t.cx.pc = succ s.pt s.cx.pc
        ∧ (∀ r : BitVec 6, t.cx.rg r =
            if r = d ∧ d ≠ 0#6 ∧ s.cx.active (gStream d) = false then (o.hseq + 1#16).setWidth 64 else s.cx.rg r)
        ∧ s.bytesKept t)
    ∧ (∀ (s : State) (d : BitVec 6) (n : BitVec 8),
      let o := SMap.get s.job.owned n.toNat
      (o.valid = false → exec (.take d n) s = .next (s.fault 0x0A#8 0#8 0#64))
        ∧ (o.valid = true → o.holder.toNat = s.writer → exec (.take d n) s = .next (s.retire d (o.hseq.setWidth 64)))
        ∧ (o.valid = true → o.holder.toNat ≠ s.writer → s.cr.handover s.focus.ctx n = none →
            exec (.take d n) s = .next (s.park (.take d n)))
        ∧ ∀ e : MEntry, o.valid = true → o.holder.toNat ≠ s.writer → s.cr.handover s.focus.ctx n = some e →
            s.cr.spill = [] → s.cr.netif = [] → s.cx.wait = .none → s.cr.takesServed →
            ∃ t : State, exec (.take d n) s = .next t ∧ (SMap.get t.job.owned n.toNat).holder = BitVec.ofNat 12 s.writer
              ∧ t.cr.mbox = s.cr.mbox.erase e ∧ t.cr.l1 = [] ∧ t.cx.pc = succ s.pt s.cx.pc)

/-- POST to a word of a tile of the launch puts the post on its way with the next sequence number of its context, which
CTX.PSEQ takes; a tile that is none of the launch's is a permission fault (05 R178). -/
def Claims.PostIssues : Prop :=
  ∀ (s t : State) (a b k : BitVec 6) (x y : Word), s.reads (Ctx.srcG2 a b) (x, y) t →
    (x.toNat < 2 ^ 16 → (t.tileAt x.toNat).named = true → t.cr.sq.length < 16 →
      ∃ v : State, exec (.post a b k) s = .next v ∧ v.cx.pseq = t.cx.pseq + 1#16 ∧ v.cx.pc = succ t.pt t.cx.pc
        ∧ v.job.posts = t.job.posts ++ [{ src := t.writer, tile := x.toNat, word := k.toNat, value := y.setWidth 32
                                          seq := t.cx.pseq + 1#16 }]
        ∧ v.cx.g = t.cx.g ∧ t.bytesKept v)
      ∧ (2 ^ 16 ≤ x.toNat ∨ (t.tileAt x.toNat).named = false →
        exec (.post a b k) s = .next (t.fault 0x09#8 0#8 0#64))

/-- POST_ARRIVAL at a running tile (05 R178, 01 R21): a post to a word that an open window expects is accepted when it is
the first or its sequence number is ahead: the word takes its value, the status word its number with ARR and SEEN; an
older one changes nothing there; a post that no window expects sets LATE. -/
def Claims.PostsApply : Prop :=
  ∀ (s : State) (p : Post), s.job.posts = [p] → (s.job.node p.tile).paused = false →
    SMap.get (s.tileAt p.tile).pwLast p.word = none →
    let t := s.tileAt p.tile
    let old := SMap.get t.pws p.word
    let n := (p.seq - old.extractLsb' 0 16).toNat
    (t.hears p.word = true → (old.getLsbD 16 = false ∨ (1 ≤ n ∧ n ≤ 32767)) →
      ∃ u : State, exec (.postArrival 0) s = .next u ∧ u.job.posts = [] ∧ SMap.get (u.tileAt p.tile).pw p.word = p.value
        ∧ (SMap.get (u.tileAt p.tile).pws p.word).extractLsb' 0 16 = p.seq
        ∧ (SMap.get (u.tileAt p.tile).pws p.word).getLsbD 16 = true ∧ (SMap.get (u.tileAt p.tile).pws p.word).getLsbD 17 = true
        ∧ (∀ k : Nat, k ≠ p.word → SMap.get (u.tileAt p.tile).pw k = SMap.get t.pw k) ∧ s.bytesKept u)
      ∧ (t.hears p.word = true → old.getLsbD 16 = true → ¬(1 ≤ n ∧ n ≤ 32767) →
        ∃ u : State, exec (.postArrival 0) s = .next u ∧ u.job.posts = [] ∧ (u.tileAt p.tile).pw = t.pw
          ∧ (u.tileAt p.tile).pws = t.pws)
      ∧ (t.hears p.word = false →
        ∃ u : State, exec (.postArrival 0) s = .next u ∧ (u.tileAt p.tile).pw = t.pw
          ∧ (SMap.get (u.tileAt p.tile).pws p.word).getLsbD 18 = true)

/-- Capabilities of owned regions, and posts to tiles. -/
def Obligations.OwnedRegionsAndPosts : Prop :=
  Claims.OwnedRegions ∧ Claims.PostIssues ∧ Claims.PostsApply

/-- A ring instruction on an unbound handle takes the ring fault with DETAIL 1; on a bound one, its release done and its
record's page open, it yields with its step pending at the record (05 R162, R164). -/
def Claims.RingInstructionsIssue : Prop :=
  ∀ (s t u : State) (d a b : BitVec 6) (h : BitVec 4) (x y : Word) (q : RingQ) (pa pa2 : Nat) (nc : Bool),
    let hd := SMap.get s.cx.h h.toNat
    let va := (hd.extractLsb' 6 50).toNat * 64
    let yields := fun (v : State) (st : RingStep) (e : BitVec 6) =>
      v.park (.pend (.ring st h e (v.accOf va pa pa2 64 0#5 nc [] [])))
    (hd.getLsbD 63 = false →
      exec (.reos h) s = .next (s.fault 0x13#8 1#8 (BitVec.ofNat 64 va))
        ∧ exec (.rqry q d h) s = .next (s.fault 0x13#8 1#8 (BitVec.ofNat 64 va)))
    ∧ (hd.getLsbD 63 = true →
      (s.range .load va 64 = .ok pa pa2 nc u → exec (.rqry q d h) s = .next (yields u (.rqry q) d))
      ∧ (s.released s.focus.ctx .partition = true → (s.flushFor .partition).range .store va 64 = .ok pa pa2 nc u →
          exec (.reos h) s = .next (yields u .reos 0#6))
      ∧ (s.reads (fun c => c.srcG a) x t → t.cx.h = s.cx.h →
          (t.range .store va 64 = .ok pa pa2 nc u → exec (.rrsv d a h) s = .next (yields u (.rrsv x) d))
          ∧ (t.range .load va 64 = .ok pa pa2 nc u → exec (.rwait d a h) s = .next (yields u (.rwait x) d))
          ∧ (t.released t.focus.ctx .partition = true → (t.flushFor .partition).range .store va 64 = .ok pa pa2 nc u →
              exec (.radv a h) s = .next (yields u (.radv x) 0#6)))
      ∧ (s.reads (Ctx.srcG2 a b) (x, y) t → t.cx.h = s.cx.h → t.released t.focus.ctx .partition = true →
          (t.flushFor .partition).range .store va 64 = .ok pa pa2 nc u → exec (.rpub a b h) s = .next (yields u (.rpub x y) 0#6)))

/-- What a ring step does to a record that raises no fault (05 R163): RRSV takes the next n slots where they fit and answers
their first number, RADV frees n, RPUB publishes and FILL takes up the published prefix, REOS ends a producer and may close
the ring, RWAIT answers once n are filled or the ring is closed, and RQRY answers AVAIL, SPACE, STATE or FILL. -/
def Claims.RingSteps : Prop :=
  ∀ (turn : Nat) (h : Word) (r : RingRec),
    (∀ n : Word, ringEffect false turn h r (.rrsv n) =
        if r.stat % 2 = 0 ∧ r.resv + n.toNat ≤ r.nslot + r.freed ∧ r.resv + n.toNat ≤ 128 + r.fill then
          .write { r with resv := r.resv + n.toNat } (some (BitVec.ofNat 64 r.resv))
        else .result (BitVec.allOnes 64))
      ∧ (∀ n : Word, ringEffect false turn h r (.radv n) = .write { r with freed := r.freed + n.toNat } none)
      ∧ (∀ n : Word, r.freed ≤ r.fill →
          ringEffect false turn h r (.rwait n) =
            if n.toNat ≤ r.fill - r.freed ∨ r.stat % 2 = 1 then
              .result (BitVec.ofNat 64 (r.fill - r.freed) ||| if r.stat % 2 = 1 then 0x8000000000000000#64 else 0#64)
            else .wait)
      ∧ (r.resv - r.freed ≤ r.nslot →
          ringEffect false turn h r (.rqry .avail) = .result (BitVec.ofNat 64 (r.fill - r.freed))
          ∧ ringEffect false turn h r (.rqry .space) = .result (BitVec.ofNat 64 (r.nslot - (r.resv - r.freed)))
          ∧ ringEffect false turn h r (.rqry .state) =
              .result (BitVec.ofNat 64 (r.eosmask + if r.stat % 2 = 1 then 2 ^ 32 else 0))
          ∧ ringEffect false turn h r (.rqry .fill) = .result (BitVec.ofNat 64 r.fill))
      ∧ (∃ w : RingRec, ringEffect false turn h r .reos = .write w none ∧ w.eosmask = r.eosmask ||| 2 ^ hPidx h
          ∧ w.fill = r.fill ∧ w.resv = r.resv ∧ w.freed = r.freed ∧ w.pubmap = r.pubmap
          ∧ w.stat = (if w.eosmask = r.prodmask ∧ r.resv = r.fill ∧ r.stat % 2 = 0 then r.stat + 1 else r.stat))
      ∧ (∀ t n : Word, r.fill ≤ t.toNat → t.toNat + n.toNat ≤ r.resv → r.resv ≤ r.fill + 128 → r.pubmap < 2 ^ 128 →
          ∃ w : RingRec, ringEffect false turn h r (.rpub t n) = .write w none ∧ r.fill ≤ w.fill
            ∧ w.resv = r.resv ∧ w.freed = r.freed ∧ w.eosmask = r.eosmask
            ∧ (∀ k : Nat, r.fill ≤ k → k < w.fill →
                r.pubmap.testBit (k - r.fill) = true ∨ (t.toNat ≤ k ∧ k < t.toNat + n.toNat))
            ∧ w.pubmap.testBit 0 = false
            ∧ ∀ k : Nat, w.fill ≤ k → k < r.fill + 128 →
                w.pubmap.testBit (k - w.fill) = (r.pubmap.testBit (k - r.fill) || decide (t.toNat ≤ k ∧ k < t.toNat + n.toNat)))

/-- ACCESS_PERFORMED on a pending ring step (05 R163, R164): RQRY, a failed RRSV or a served RWAIT completes, its register written,
no byte changed; RPUB, RADV, REOS and a granted RRSV complete with the record's STAT and its words from EOSMASK on in memory, no
other byte changed; one that faults takes the ring fault with its DETAIL, unless a stop has reached its core (12 R343); a step
that the record makes wait stays parked. It must stand behind no queued store to its record and behind no writer that its home
takes later (09 R276). A step that has waited looks again through a translation made anew (12 R361), and not on a core that a
stop has reached (12 R350). -/
def Claims.RingStepsPerformed : Prop :=
  ∀ (s : State) (st : RingStep) (n : BitVec 4) (d : BitVec 6) (a : Acc),
    s.focus.ctx < 11 → s.job.debug = none → s.cx.state = .parked → s.cx.wait = .pend (.ring st n d a) →
    s.cr.blocked (s.cr.lastEntry s.focus.ctx a) = false → s.deferred a false = false →
    (a.got ≠ [] →
      (s.cr.stopped = true → exec (.accessPerformed s.focus.ctx) s = .next s)
        ∧ ∀ (pa pa2 : Nat) (nc : Bool) (u : State), s.cr.stopped = false →
            s.range (if st.reads then .load else .store) a.va 64 = .ok pa pa2 nc u →
            exec (.accessPerformed s.focus.ctx) s = .next (u.ringStep st n d { a with pa := pa, pa2 := pa2, nc := nc }))
    ∧ (a.got = [] → s.pt.poisoned (s.pt.home a.pa) = false →
    let h := SMap.get s.cx.h n.toNat
    let r := RingRec.read (ofBytes (s.paBytes a.pa 64))
    let hbm := match s.pt.home a.pa with | .hbm _ => true | _ => false
    (∀ x : BitVec 8, ringFault h hbm r st = some x → s.cr.stopped = false →
        exec (.accessPerformed s.focus.ctx) s = .next (s.fault 0x13#8 x (BitVec.ofNat 64 a.va)))
      ∧ (∀ v : Word, ringFault h hbm r st = none →
          ringEffect s.pt.det (SMap.get s.job.turns (a.pa / 64)) h r st = .result v →
          ∃ t : State, exec (.accessPerformed s.focus.ctx) s = .next t ∧ t.cx.state = .ready ∧ t.cx.wait = .none
            ∧ t.cx.pc = succ s.pt s.cx.pc ∧ s.bytesKept t
            ∧ ∀ g : BitVec 6, t.cx.rg g = if g = d ∧ d ≠ 0#6 ∧ s.cx.active (gStream d) = false then v else s.cx.rg g)
      ∧ (∀ (w : RingRec) (v : Option Word), ringFault h hbm r st = none →
          ringEffect s.pt.det (SMap.get s.job.turns (a.pa / 64)) h r st = .write w v →
          ∃ t : State, exec (.accessPerformed s.focus.ctx) s = .next t ∧ t.cx.pc = succ s.pt s.cx.pc ∧ t.cx.state = .ready
            ∧ (∀ g : BitVec 6, t.cx.rg g =
                if g = d ∧ d ≠ 0#6 ∧ s.cx.active (gStream d) = false then v.getD (s.cx.rg g) else s.cx.rg g)
            ∧ (s.plainBytes a.pa 64 → s.stored t a.pa 64 fun i =>
                if i = 14 then BitVec.ofNat 8 w.stat
                else if 20 ≤ i then
                  ((toBytes 4 w.eosmask ++ toBytes 8 w.resv ++ toBytes 8 w.fill ++ toBytes 8 w.freed ++ toBytes 16 w.pubmap)[i - 20]?).getD 0#8
                else s.paByte (a.pa + i)))
      ∧ (ringFault h hbm r st = none →
          ringEffect s.pt.det (SMap.get s.job.turns (a.pa / 64)) h r st = .wait →
          ∃ t : State, exec (.accessPerformed s.focus.ctx) s = .next t ∧ t.cx.state = .parked ∧ t.cx.pc = s.cx.pc
            ∧ t.cx.g = s.cx.g ∧ s.bytesKept t))

/-- Ring instructions and what a step does to a ring record. -/
def Obligations.Rings : Prop :=
  Claims.RingInstructionsIssue ∧ Claims.RingSteps ∧ Claims.RingStepsPerformed

/-- SMODE yields while its record is read, and then puts the register in stream mode at element 0, or takes a tag fault with
FREC1 zero (log 54), on a core that no stop has reached (12 R343);
SOFF takes it out, the register holding again what it held before, and ACT alone changing of the status (05 R166). -/
def Claims.StreamMode : Prop :=
  (∀ (s t : State) (x : BitVec 4) (a b : BitVec 6) (y z : Word), s.reads (Ctx.srcG2 a b) (y, z) t →
    exec (.smode x a b) s = .next (t.park (.pend (.smode x (y.setWidth 8) z))))
    ∧ (∀ (s : State) (x : BitVec 4) (h : BitVec 8) (base : Word), s.focus.ctx < 11 → s.cx.state = .parked →
      s.cx.wait = .pend (.smode x h base) →
      (∀ p : Affine, streamPattern (SMap.get s.hm.lrec h.toNat) base (decide (8 ≤ x.toNat)) = some p →
        ∃ t : State, exec (.accessPerformed s.focus.ctx) s = .next t ∧ t.cx.state = .ready ∧ t.cx.pc = succ s.pt s.cx.pc
          ∧ t.cx.strmAct.getLsbD x.toNat = true
          ∧ (∀ y : Nat, y ≠ x.toNat → t.cx.strmAct.getLsbD y = s.cx.strmAct.getLsbD y)
          ∧ (SMap.get t.cx.strms x.toNat).pat = p ∧ (SMap.get t.cx.strms x.toNat).pos = 0
          ∧ (SMap.get t.cx.strms x.toNat).base = base ∧ s.bytesKept t)
      ∧ (streamPattern (SMap.get s.hm.lrec h.toNat) base (decide (8 ≤ x.toNat)) = none → s.cr.stopped = false →
        exec (.accessPerformed s.focus.ctx) s = .next (s.fault 0x0D#8 0#8 0#64)))
    ∧ (∀ (s : State) (x : BitVec 4), ∃ t : State, exec (.soff x) s = .next t ∧ t.cx.pc = succ s.pt s.cx.pc
        ∧ t.cx.strmAct.getLsbD x.toNat = false ∧ t.cx.strmEnd = s.cx.strmEnd
        ∧ (∀ y : Nat, y ≠ x.toNat → t.cx.strmAct.getLsbD y = s.cx.strmAct.getLsbD y)
        ∧ (s.cx.strmAct.getLsbD x.toNat = true → 8 ≤ x.toNat →
            SMap.get t.cx.d (16 + x.toNat) = (SMap.get s.cx.strms x.toNat).saved)
        ∧ (s.cx.strmAct.getLsbD x.toNat = true → x.toNat < 8 →
            SMap.get t.cx.g (48 + x.toNat) = (SMap.get s.cx.strms x.toNat).saved.setWidth 64)
        ∧ (s.cx.strmAct.getLsbD x.toNat = false → t.cx.g = s.cx.g ∧ t.cx.d = s.cx.d)
        ∧ s.bytesKept t)

/-- STREAM_REFILL (05 R167; 09 R275, R288): once the stores before SMODE have been performed, the next element of a stream
register is read; with its last element a pop joins those ahead, and a context that waits for it may issue again; an element
that faults is held for its pop. With eight pops ahead, or past the end, nothing is read. -/
def Claims.StreamsRefill : Prop :=
  ∀ (s : State) (x : BitVec 4),
    let i := x.toNat
    let d := SMap.get s.cx.strms i
    let e := d.pos + popWidth i * d.ahead.length + d.read
    let u := s.onHm fun h => { h with refillAt := refillKey s.me i + 1 }
    let due := s.cx.refillDue i = true ∧ s.cr.stopped = false ∧ s.cr.storesBefore s.focus.ctx d.fork = true
    let joins := fun (t v : State) (r : Refill) =>
      (SMap.get v.cx.strms i).ahead = (SMap.get t.cx.strms i).ahead ++ [r] ∧ (SMap.get v.cx.strms i).read = 0
        ∧ (t.cx.wait = .stream x → t.cx.state ≠ .halted → v.cx.state = .ready ∧ v.cx.wait = .none)
        ∧ v.cx.pc = t.cx.pc ∧ t.bytesKept v
    (s.cx.refillDue i = false → exec (.streamRefill x) s = .next s)
      ∧ (due → ∀ (v : BitVec 512) (t : State), u.refillElem d (streamD i) e = .ok v t →
        let lanes := d.lanes ||| (v <<< (32 * d.read))
        ∃ w : State, exec (.streamRefill x) s = .next w
          ∧ (d.read + 1 = popWidth i ∨ d.pat.count ≤ e + 1 → joins t w (.data lanes))
          ∧ (¬(d.read + 1 = popWidth i ∨ d.pat.count ≤ e + 1) →
              (SMap.get w.cx.strms i).read = d.read + 1 ∧ (SMap.get w.cx.strms i).lanes = lanes
                ∧ (SMap.get w.cx.strms i).ahead = (SMap.get t.cx.strms i).ahead ∧ w.cx.pc = t.cx.pc ∧ t.bytesKept w))
      ∧ (due → ∀ (c k : BitVec 8) (va : Nat), u.refillElem d (streamD i) e = .bad c k va →
        ∃ w : State, exec (.streamRefill x) s = .next w ∧ joins s w (.fault c k (BitVec.ofNat 64 va)))
      ∧ (8 ≤ d.ahead.length → s.cx.refillDue i = false)
      ∧ (d.pat.count ≤ d.pos + popWidth i * d.ahead.length → s.cx.refillDue i = false)

/-- Stream mode is entered, refilled and left. -/
def Obligations.Streams : Prop :=
  Claims.StreamMode ∧ Claims.StreamsRefill

/-- COPY, GATHER, SCATTER and RCOPY take the lowest free operation id of the hamlet and go on, the operation holding their
pointers, handles and tag; with no id free they wait while the request stands in the hamlet's line (05 R168, R169; 10
R318). That the index pointer of G[c+1] is read with no pop, also where G[c+1] is an active stream register, is the model's choice
(log 106). -/
def Claims.CopiesIssue : Prop :=
  ∀ (s t : State) (op : RcOp) (idx : Bool) (a b c : BitVec 6) (x y z : Word), s.reads (Ctx.srcG3 a b c) (x, y, z) t →
    let list := t.cx.rg (c + 1#6)
    let o := fun (k : CopyKind) (l : Word) => copyOpOf k t.focus.core t.focus.ctx x y z l t.cr.nextTicket
    (∀ i : Nat, t.hm.freeOp = some i →
      let taken := fun (p : CopyOp) => (t.onHm fun h => { h with ops := SMap.set h.ops i (some p) }).advance
      i < 16 ∧ (SMap.get t.hm.ops i) = none
        ∧ exec (.copy a b c) s = .next (taken (o .copy 0#64))
        ∧ exec (.gather a b c) s = .next (taken (o .gather list))
        ∧ exec (.scatter a b c) s = .next (taken (o .scatter list))
        ∧ exec (.rcopy op idx a b c) s = .next (taken (o (.rcopy op idx) (if idx then list else 0#64))))
      ∧ (t.hm.freeOp = none →
        let waits := fun (p : CopyOp) => (t.onHm fun h => { h with reqs := h.reqs ++ [p] }).park .copyId
        exec (.copy a b c) s = .next (waits (o .copy 0#64))
          ∧ exec (.gather a b c) s = .next (waits (o .gather list))
          ∧ exec (.scatter a b c) s = .next (waits (o .scatter list))
          ∧ exec (.rcopy op idx a b c) s = .next (waits (o (.rcopy op idx) (if idx then list else 0#64))))

/-- The answers to a suspended copy operation of the own context (05 R174): CRETRY attempts the element again, CSKIP skips
it and counts it, CSKIP.ROW skips and counts the rest of its row on the faulting side, which is the element alone on an indexed
side, and CABORT ends the operation; an answer to an operation of another context, to one that is not suspended, or to an id that
no operation has changes nothing; each completes. -/
def Claims.CopyAnswers : Prop :=
  ∀ (s t : State) (a : BitVec 6) (x : Word), s.reads (fun c => c.srcG a) x t →
    let i := x.toNat % 16
    (∀ (o : CopyOp) (f : HeldFault), SMap.get t.hm.ops i = some o → o.core = t.focus.core → o.ctx = t.focus.ctx → o.susp = some f →
      (∃ u : State, exec (.cretry a) s = .next u ∧ SMap.get u.hm.ops i = some { o with susp := none, row := none, buf := none }
          ∧ u.cx.pc = succ t.pt t.cx.pc ∧ t.bytesKept u)
        ∧ (∃ u : State, exec (.cskip false a) s = .next u
          ∧ SMap.get u.hm.ops i =
              some { o with susp := none, row := none, buf := none, next := o.next + 1, skipped := o.skipped + 1 }
          ∧ u.cx.pc = succ t.pt t.cx.pc ∧ t.bytesKept u)
        ∧ (∃ u : State, exec (.cabort a) s = .next u ∧ SMap.get u.hm.ops i = some { o with susp := none, aborted := true }
          ∧ u.cx.pc = succ t.pt t.cx.pc ∧ t.bytesKept u)
        ∧ let side := if f.detail.getLsbD 6 = true then o.dlay else o.slay
          let skipsRow := fun (n : Nat) => ∃ u : State, exec (.cskip true a) s = .next u
            ∧ SMap.get u.hm.ops i =
                some { o with susp := none, row := none, buf := none, next := o.next + n, skipped := o.skipped + n }
            ∧ u.cx.pc = succ t.pt t.cx.pc ∧ t.bytesKept u
          (∀ (p : Affine) (n : Nat), side = .affine p → p.cnt.head? = some n → skipsRow (n - o.next % n))
            ∧ ((∀ p : Affine, side ≠ .affine p) → skipsRow 1))
      ∧ ((∀ o : CopyOp, SMap.get t.hm.ops i = some o → o.core ≠ t.focus.core ∨ o.ctx ≠ t.focus.ctx ∨ o.susp = none) →
        exec (.cretry a) s = .next t.advance ∧ (∀ row : Bool, exec (.cskip row a) s = .next t.advance)
          ∧ exec (.cabort a) s = .next t.advance)

/-- The copy unit at work (05 R169, R171, R172; 09 R275): COPY_ELEMENT makes the next event of an element, its last counting
the element where it has been applied; one that meets a fault suspends and holds the fault for its issuer; a stop lets an
element under way end, and no other begin (12 R350). COPY_COMPLETION of an operation with nothing left frees the id, drops the
issuer's L1 copies, and puts the completion entry, with tag, status and the counts of elements applied and skipped, into the
issuer's mailbox where that has room and nothing waits before it. -/
def Claims.CopyUnitWorks : Prop :=
  ∀ (s : State) (op : BitVec 4) (o : CopyOp), SMap.get s.hm.ops op.toNat = some o →
    (o.susp = none → o.beyond = false → (s.coreAt o.core).stopped = false ∨ o.midway = true → o.begun = true →
      o.core = s.focus.core →
      (∀ (p : CopyOp) (u : State), (s.asIssuer o).copyMove o = .ok (.going p) u →
        exec (.copyElement op) s = .next (u.onHm fun h => h.onOp op.toNat fun o => { o with row := p.row, buf := p.buf }))
      ∧ (∀ (applied : Bool) (u : State), (s.asIssuer o).copyMove o = .ok (.done applied) u →
        exec (.copyElement op) s =
          .next ((u.onHm fun h => h.onOp op.toNat fun o =>
            { o with next := o.next + 1, applied := o.applied + (if applied then 1 else 0), row := none, buf := none }).onCr
            fun c => if applied then Core.bump 5 1 c else c))
      ∧ ((s.asIssuer o).copyMove o = .later → exec (.copyElement op) s = .next s)
      ∧ ∀ (cause detail : BitVec 8) (va : Nat), (s.asIssuer o).copyMove o = .bad cause detail va →
        ∃ t : State, exec (.copyElement op) s = .next t ∧ s.bytesKept t
          ∧ SMap.get t.hm.ops op.toNat = some { o with susp := some (o.heldFault op.toNat detail va) }
          ∧ (t.ctxAt o.core o.ctx).held = (s.ctxAt o.core o.ctx).held ++ [o.heldFault op.toNat detail va])
    ∧ ((s.coreAt o.core).stopped = true → o.midway = false → exec (.copyElement op) s = .next s)
    ∧ (o.beyond = true → s.hm.reqs = [] →
      ∃ t : State, exec (.copyCompletion op) s = .next t ∧ SMap.get t.hm.ops op.toNat = none ∧ s.bytesKept t
        ∧ (t.coreAt o.core).l1 = []
        ∧ let c := s.coreAt o.core
          (c.mbox.length < 128 → c.spill = [] → c.preempted = true ∨ c.netif = [] → c.takesServed →
            (t.coreAt o.core).mbox = c.mbox ++ [o.entry op.toNat]))
    ∧ (o.beyond = false → exec (.copyCompletion op) s = .next s)
    ∧ (o.entry op.toNat).kind = 1#4 ∧ (o.entry op.toNat).dst = o.ctx
    ∧ (o.entry op.toNat).hi.extractLsb' 0 32 = BitVec.ofNat 32 (min o.applied (2 ^ 32 - 1))
    ∧ (o.entry op.toNat).hi.extractLsb' 32 32 = BitVec.ofNat 32 (min o.skipped (2 ^ 32 - 1))
    ∧ (o.entry op.toNat).lo.extractLsb' 0 16 = o.tag
    ∧ (o.entry op.toNat).lo.extractLsb' 16 8 =
        (if o.broken = true then 3#8 else if o.badLayout = true then 4#8 else if o.aborted = true then 2#8
         else if 0 < o.skipped then 1#8 else 0#8)

/-- Copies take an id, move elements, suspend, are answered and complete. -/
def Obligations.Copies : Prop :=
  Claims.CopiesIssue ∧ Claims.CopyAnswers ∧ Claims.CopyUnitWorks

/-- STEP by a listed context with its stores, posts and messages home arrives once at the group and parks; issued again after the
completion it ends, unless a debug stop falls there, which the wake takes (05 R185); by an unlisted context it is a permission
fault (05 R175). -/
def Claims.StepArrives : Prop :=
  ∀ (s : State) (d g : BitVec 6),
    let grp := s.job.group g.toNat
    (s.me ∉ grp.ctxs → exec (.step d g) s = .next (s.fault 0x09#8 0#8 0#64))
      ∧ (s.me ∈ grp.ctxs → s.cx.arrivals = [] → s.cr.storesDone s.focus.ctx = true → s.job.posts = [] → s.job.msgs = [] →
        ∃ t : State, exec (.step d g) s = .next t
          ∧ (t.job.group g.toNat).arrCtxs = grp.arrCtxs ++ [s.me] ∧ (t.job.group g.toNat).count = grp.count
          ∧ t.cx.state = .parked ∧ t.cx.wait = .step g d ∧ t.cx.arrivals = [(g.toNat, grp.count + 1)]
          ∧ t.cx.pc = s.cx.pc ∧ s.bytesKept t)
      ∧ (∀ a : Nat × Nat, s.me ∈ grp.ctxs → (s.cx.arrivals.find? fun a => a.1 == g.toNat) = some a → a.2 ≤ grp.count →
          s.job.stepReached g.toNat = true → s.job.stopDue g.toNat = none →
        ∃ t : State, exec (.step d g) s = .next t ∧ t.cx.pc = succ s.pt s.cx.pc ∧ t.cx.steps = s.cx.steps + 1
          ∧ t.cr.l1 = []
          ∧ ∀ r : BitVec 6, t.cx.rg r =
              if r = d ∧ d ≠ 0#6 ∧ s.cx.active (gStream d) = false then BitVec.ofNat 64 grp.count else s.cx.rg r)
      ∧ (∀ a : Nat × Nat, s.me ∈ grp.ctxs → (s.cx.arrivals.find? fun a => a.1 == g.toNat) = some a →
          grp.count < a.2 ∨ s.job.stepReached g.toNat = false ∨ (s.job.stopDue g.toNat).isSome = true →
        exec (.step d g) s = .next (s.park (.step g d)))

/-- STEP_GROUP_COMPLETE: with every arrival made and nothing colliding COUNT rises by one, the arrivals of the step are
gone, and the regions of cores that the group binds settle, core by core; with an arrival missing nothing happens (01 R35, 08
R265). -/
def Claims.StepCompletes : Prop :=
  ∀ (s : State) (g : BitVec 6),
    let grp := s.job.group g.toNat
    (grp.nmem ≠ 0 → grp.nmem ≤ grp.arr → s.job.stop = none → s.stepCollisions g.toNat = [] →
      ∃ t : State, exec (.stepGroupComplete g) s = .next t
        ∧ (t.job.group g.toNat).count = (grp.count + 1) % 2 ^ 40
        ∧ (t.job.group g.toNat).arrTiles = [] ∧ (t.job.group g.toNat).arrCtxs = []
        ∧ (grp.carry = [] → (t.job.group g.toNat).arrGangs = 0)
        ∧ t.job.bellSeq = s.job.bellSeq + 1
        ∧ ((∀ x ∈ s.job.tiles, x.1 ∈ grp.tiles) →
            t.pt.loc = ((s.job.cores.map Prod.fst).foldl (fun u c => u.settleCore c g.toNat) s).pt.loc ∧ t.pt.mere = s.pt.mere))
      ∧ (grp.arr < grp.nmem → exec (.stepGroupComplete g) s = .next s)

/-- What the completion of a step publishes (08 R265, R268): in a PRIORITY or FAULT region a word stored in the step shows what the
next plane holds and every other word keeps its value; in a SUM region a stored word takes its sum, rounded once from FP32 sum
units, and the sum is cleared, and every other word keeps its value; the step's marks are gone. A tile's or a core's region that
the group binds settles so. -/
def Claims.StepPublishes : Prop :=
  (∀ (m : Mem) (base r x : Nat) (st : Stepped) (e : Word), st.find x = some (r, e) → x < rgBase e + rgSize e → rgRule e ≠ 1 →
    let t := settleRegion m base st r e
    let stored := ∃ c ∈ st.contribs, c.reg = r ∧ c.word = (x - rgBase e) / rgWord e
    (stored → SMap.get t.1 (base + t.2.present x) = SMap.get m (base + x + (if rgPlane e = true then 0 else rgSize e)))
      ∧ (¬stored → SMap.get t.1 (base + t.2.present x) = SMap.get m (base + st.present x))
      ∧ ∀ c : Contrib, c ∈ t.2.contribs ↔ c ∈ st.contribs ∧ c.reg ≠ r)
    ∧ (∀ (m : Mem) (base r : Nat) (st : Stepped) (e : Word), rgRule e = 1 →
      (∀ c ∈ st.contribs, c.reg = r → c.word * rgWord e < rgSize e) →
      let t := settleRegion m base st r e
      let stored := fun (i : Nat) => ∃ c ∈ st.contribs, c.reg = r ∧ c.word = i
      (∀ i : Nat, stored i →
        readMem t.1 (base + rgBase e + i * rgWord e) (rgWord e) =
            toBytes (rgWord e) (sumToWord e (BitVec.ofNat 64 (ofBytes (readMem m (base + sumAddr e i) 8))).toInt)
          ∧ readMem t.1 (base + sumAddr e i) 8 = List.replicate 8 0#8)
        ∧ (∀ x : Nat, x < rgSize e → ¬stored (x / rgWord e) →
            SMap.get t.1 (base + rgBase e + x) = SMap.get m (base + rgBase e + x))
        ∧ ∀ c : Contrib, c ∈ t.2.contribs ↔ c ∈ st.contribs ∧ c.reg ≠ r)
    ∧ (∀ (e : Word) (v : Int),
      (rgFmt e = 4#5 → BitVec.ofNat 32 (sumToWord e v) = BitVec.ofInt 32 v)
        ∧ (rgFmt e = 5#5 → BitVec.ofNat 64 (sumToWord e v) = BitVec.ofInt 64 v)
        ∧ (rgFmt e = 7#5 → v ≠ 0 → BitVec.ofNat 32 (sumToWord e v) = fp32 .rne (.fin { m := v, e := rgScale e }))
        ∧ (rgFmt e = 7#5 → sumToWord e 0 = 0))
    ∧ ∀ (s : State) (n g r : Nat) (e : Word),
      ((s.tileAt n).stepped.bound g = [(r, e)] →
        (s.settleTile n g).pt.mere = (settleRegion s.pt.mere (n * 2 ^ 21) (s.tileAt n).stepped r e).1)
      ∧ ((s.coreAt n).stepped.bound g = [(r, e)] →
        (s.settleCore n g).pt.loc = (settleRegion s.pt.loc (n * 2 ^ 18) (s.coreAt n).stepped r e).1)

/-- STEP_COMPLETION_WAKE with no debugger: a member context parked on the completed step goes on at its successor with the
group's COUNT and one more completed STEP, its core's L1 emptied (05 R175); with no member waiting nothing happens. -/
def Claims.StepWakes : Prop :=
  ∀ (s : State) (g d : BitVec 6) (n : Nat),
    let grp := s.job.group g.toNat
    s.job.debug = none →
    (grp.ctxs = [n] → (s.ctxAt (n / 11) (n % 11)).wait = .step g d → (s.ctxAt (n / 11) (n % 11)).state = .parked →
      (s.ctxAt (n / 11) (n % 11)).arrivals = [(g.toNat, grp.count)] → (s.coreAt (n / 11)).stopped = false →
      s.job.stepReached g.toNat = true →
      ∃ t : State, exec (.stepCompletionWake g) s = .next t
        ∧ (let c := t.ctxAt (n / 11) (n % 11)
           c.state = .ready ∧ c.wait = .none ∧ c.arrivals = []
            ∧ c.pc = succ s.pt (s.ctxAt (n / 11) (n % 11)).pc ∧ c.steps = (s.ctxAt (n / 11) (n % 11)).steps + 1
            ∧ (d ≠ 0#6 → (s.ctxAt (n / 11) (n % 11)).active (gStream d) = false → c.rg d = BitVec.ofNat 64 grp.count))
        ∧ (t.coreAt (n / 11)).l1 = [] ∧ s.bytesKept t)
      ∧ (grp.ctxs = [] → exec (.stepCompletionWake g) s = .next s)

/-- STEP_TAKES_EFFECT on a member tile at its tc t + D, once the group has completed, with nothing colliding there or on another
member (08 R265) and with no debug stop bound to it: the tile's TSTEP is over, its regions that the group binds settle (08 R265), and its step record holds the count, the group and the
sticky bits, whose history clears (07 R238, 01 R25, R26); a TSTEP that is not yet due does nothing; and where the tile's next planes
collide, or a collision of the step has stopped the partition, no present half changes and the TSTEP stands. -/
def Claims.StepTakesEffect : Prop :=
  ∀ (s : State) (g : BitVec 6) (r : TStepRun), s.tl.tsteps = [r] → r.g = g.toNat → s.job.debug = none →
    (r.due ≤ s.now → r.need ≤ (s.job.group r.g).count → s.tileCollisions s.focus.tile r.g = [] → s.stepBlocked r.g = false →
      ∃ t : State, exec (.stepTakesEffect g) s = .next t ∧ t.tl.tsteps = []
        ∧ t.tl.srec.extractLsb' 24 40 = BitVec.ofNat 40 r.need ∧ t.tl.srec.extractLsb' 18 6 = BitVec.ofNat 6 r.g
        ∧ t.tl.srec.extractLsb' 0 4 = s.tl.tstat.extractLsb' 0 4
        ∧ t.tl.tstat.extractLsb' 0 4 = 0#4
        ∧ t.pt.mere = (s.settleTile s.focus.tile r.g).pt.mere ∧ t.pt.loc = s.pt.loc
        ∧ (r.due, s.focus.tile) ∈ ((t.job.group r.g).effect.map fun x => (x.2, x.1)))
      ∧ (r.due ≤ s.now → r.need ≤ (s.job.group r.g).count →
        s.tileCollisions s.focus.tile r.g ≠ [] ∨ s.stepBlocked r.g = true →
        ∃ t : State, exec (.stepTakesEffect g) s = .next t ∧ t.tl.tsteps = [r] ∧ t.pt.mere = s.pt.mere ∧ t.pt.loc = s.pt.loc
          ∧ t.tl.srec = s.tl.srec)
      ∧ (s.now + 1 < r.due → exec (.stepTakesEffect g) s = .next s)

/-- Arrival, completion and taking effect of a step of a group. -/
def Obligations.StepGroups : Prop :=
  Claims.StepArrives ∧ Claims.StepCompletes ∧ Claims.StepPublishes ∧ Claims.StepWakes ∧ Claims.StepTakesEffect

/-- SYSR of an own word completes at once with the word as it stands, and of any other yields; an unassigned number is an
illegal word, and one closed to the requester a permission fault (05 R182, 01 R41, R42). -/
def Claims.ControlWordsRead : Prop :=
  ∀ (s t : State) (d a : BitVec 6) (cw : BitVec 12) (x : Word), s.reads (fun c => c.srcG a) x t →
    let n := cw.toNat
    (cwAccess t.isSteward n = none → exec (.sysr d a cw) s = .next (t.fault 0x02#8 0#8 0#64))
      ∧ (cwAccess t.isSteward n = some .none → exec (.sysr d a cw) s = .next (t.fault 0x09#8 0#8 0#64))
      ∧ (∀ k : CwAccess, cwAccess t.isSteward n = some k → k ≠ .none → isOwnWord n = true →
        ∃ u : State, exec (.sysr d a cw) s = .next u ∧ u.cx.pc = succ t.pt t.cx.pc ∧ t.bytesKept u
          ∧ ∀ r : BitVec 6, u.cx.rg r =
              if r = d ∧ d ≠ 0#6 ∧ t.cx.active (gStream d) = false then t.cwRead n 0 else t.cx.rg r)
      ∧ (∀ k : CwAccess, cwAccess t.isSteward n = some k → k ≠ .none → isOwnWord n = false → (n < 0x800 ∨ 0x900 ≤ n) →
        exec (.sysr d a cw) s = .next (t.park (.pend (.sysr d cw 0))))
      ∧ (∀ k : CwAccess, cwAccess t.isSteward n = some k → k ≠ .none → 0x800 ≤ n → n < 0x900 →
        exec (.sysr d a cw) s =
          .next (if x.toNat < 2 ^ 16
                     ∧ ((t.tileAt x.toNat).named = true ∨ t.isSteward = true ∧ x.toNat < t.pt.tileCount) then t.park (.pend (.sysr d cw x.toNat))
                 else t.fault 0x09#8 0#8 0#64))

/-- SYSW by a context of a launch (01 R41, 05 R182): its own writable words change in their writable fields, CTX.STRM
clearing END bits alone; words that are read-only to it keep their value and the instruction completes; a SEG word is a
permission fault. -/
def Claims.ControlWordsWritten : Prop :=
  ∀ (s t : State) (d a : BitVec 6) (x v : Word), s.focus.ctx < 11 → s.reads (Ctx.srcG2 a d) (x, v) t →
    let done := fun (n : BitVec 12) (f : Ctx → Ctx) => exec (.sysw d a n) s = .next ((t.onCx f).advance)
    done 0x000#12 (fun c => { c with upen := v.getLsbD 2, prio := v.setWidth 2 })
      ∧ done 0x001#12 (fun c => { c with strmEnd := c.strmEnd &&& ~~~(v.extractLsb' 16 16) })
      ∧ done 0x003#12 (fun c => { c with upv := v.extractLsb' 0 26 ++ v.extractLsb' 26 3 })
      ∧ done 0x010#12 (fun c => { c with h := SMap.set c.h 0 (v &&& ~~~0x3F#64) })
      ∧ done 0x020#12 (fun c => { c with lsel := v.setWidth 11 })
      ∧ (∀ n : BitVec 12, n ∈ [0x002#12, 0x004#12, 0x005#12, 0x006#12, 0x007#12, 0x008#12, 0x100#12, 0x101#12, 0x102#12, 0x103#12,
          0x700#12, 0x70F#12] → exec (.sysw d a n) s = .next t.advance)
      ∧ (∀ n : BitVec 12, 0x300 ≤ n.toNat → n.toNat ≤ 0x37F → exec (.sysw d a n) s = .next (t.fault 0x09#8 0#8 0#64))

/-- ACCESS_PERFORMED on a pending SYSR or SYSW that yielded (01 R43): the register takes the word, or the word is written,
and the context is ready at its successor; LDATA_READ, LDATA_WRITE and SREC_READ are that performing for their words (01
R26, R34), and do nothing when their word is not awaited. -/
def Claims.ControlWordsPerformed : Prop :=
  (∀ (s : State) (d : BitVec 6) (cw : BitVec 12) (tile : Nat), s.focus.ctx < 11 → s.cx.state = .parked →
    s.cx.wait = .pend (.sysr d cw tile) →
    (∃ t : State, exec (.accessPerformed s.focus.ctx) s = .next t ∧ t.cx.state = .ready ∧ t.cx.pc = succ s.pt s.cx.pc ∧ s.bytesKept t
      ∧ ∀ r : BitVec 6, t.cx.rg r =
          if r = d ∧ d ≠ 0#6 ∧ s.cx.active (gStream d) = false then s.cwRead cw.toNat tile else s.cx.rg r)
      ∧ (cw = 0x021#12 → exec (.ldataRead d) s = exec (.accessPerformed s.focus.ctx) s)
      ∧ (cw = 0x823#12 → exec (.srecRead tile d) s = exec (.accessPerformed s.focus.ctx) s
          ∧ ∀ t : State, (s.tileAt tile).named = true → exec (.srecRead tile d) s = .next t →
              (t.tileAt tile).srec = (s.tileAt tile).srec &&& ~~~0xF0#64))
    ∧ (∀ (s : State) (d : BitVec 6) (v : Word) (n : Nat), s.focus.ctx < 11 → s.cx.state = .parked →
      s.cx.wait = .pend (.sysw v 0x021#12 n) →
      ∃ t : State, exec (.accessPerformed s.focus.ctx) s = .next t ∧ t.cx.state = .ready ∧ t.cx.pc = succ s.pt s.cx.pc
        ∧ (let w := s.cx.lsel.toNat / 256
           let r := s.cx.lsel.toNat % 256
           (SMap.get t.hm.lrec r).extractLsb' (64 * w) 64 = v
            ∧ (∀ j : Nat, j < 8 → j ≠ w →
                (SMap.get t.hm.lrec r).extractLsb' (64 * j) 64 = (SMap.get s.hm.lrec r).extractLsb' (64 * j) 64)
            ∧ t.cx.lsel.toNat = (w + 1) % 8 * 256 + r)
        ∧ (v = s.cx.rg d → exec (.ldataWrite d) s = .next t))
    ∧ ∀ (s : State) (d : BitVec 6) (tile : Nat), s.cx.wait = .none →
      exec (.ldataRead d) s = .next s ∧ exec (.ldataWrite d) s = .next s ∧ exec (.srecRead tile d) s = .next s

/-- SYSR and SYSW of control words, at once or when performed. -/
def Obligations.ControlWords : Prop :=
  Claims.ControlWordsRead ∧ Claims.ControlWordsWritten ∧ Claims.ControlWordsPerformed

/-- A context of a launch changes no word of the table that is the steward's (01 R41): whatever control word it names, and
whatever happens, neither SYSW nor ACCESS_PERFORMED on a SYSW that has yielded changes a partition word, a segment, an owned region
or a tile's registers. -/
def Obligations.UserWritesStayOwn : Prop :=
  ∀ (s t : State) (d a : BitVec 6) (cw : BitVec 12) (v : Word) (tile : Nat), s.focus.ctx < 11 →
    exec (.sysw d a cw) s = .next t
      ∨ s.cx.wait = .pend (.sysw v cw tile) ∧ exec (.accessPerformed s.focus.ctx) s = .next t →
    t.pt.segs = s.pt.segs ∧ t.pt.qmask = s.pt.qmask ∧ t.pt.il = s.pt.il ∧ t.pt.bound = s.pt.bound ∧ t.pt.det = s.pt.det
      ∧ t.pt.seed = s.pt.seed ∧ t.pt.ratio = s.pt.ratio ∧ t.pt.chain = s.pt.chain ∧ t.job.owned = s.job.owned
      ∧ (∀ n : Nat, t.tileAt n = s.tileAt n) ∧ (∀ c : Nat, (t.coreAt c).stepped = (s.coreAt c).stepped) ∧ s.bytesKept t

/-- A nullified VEC instruction does nothing (01 R14, 07 R208), whatever its operands: stated of one of each form. -/
def Claims.NullifiedVecDoesNothing : Prop :=
  ∀ (s : State) (ty : VTy) (x : VArgs) (y : VArgs1) (op : RedOp) (f : Fmt) (d a : BitVec 11) (off : BitVec 18) (p : BitVec 2)
      (hi : Bool) (lane : Option (BitVec 5)) (imm : BitVec 20) (nf : BitVec 4),
    s.nullified nf = true → x.nf = nf → y.nf = nf →
      ∀ i ∈ [Instr.vadd ty x, .vfma ty x, .vcmp ty x, .vsel ty x, .vthr x, .vperm x, .vmov y, .vred ty op y, .vpack f d a nf,
             .vunpk f d a nf, .vld d a off nf, .vst p d a off nf, .vli hi lane d imm nf],
        exec i s = .next s

/-- The lane operations of two sources (07 R212, R213) with their latencies (R208): whole lanes by type, and 16-bit halves
each on its own. -/
def Claims.VectorLaneResults : Prop :=
  ∀ (s : State) (ty : VTy) (x : VArgs), s.vecRuns x.nf (x.b.toNat :: VSrc.regs x.a) →
    let u := fun (l : Nat) => vLane (s.vsrc x.a) l
    let v := fun (l : Nat) => vLane (s.tl.vr x.b.toNat) l
    let q := fun (i : Instr) (lat : Nat) (f : BitVec 32 → BitVec 32 → BitVec 32) =>
      s.queues i x.d.toNat lat x.sink fun l => f (u l) (v l)
    q (.vand ty x) 2 (fun a b => a &&& b) ∧ q (.vor ty x) 2 (fun a b => a ||| b) ∧ q (.vxor ty x) 2 (fun a b => a ^^^ b)
      ∧ q (.vadd .fp32 x) 4 (fadd32 .rne) ∧ q (.vsub .fp32 x) 4 (fsub32 .rne) ∧ q (.vmul .fp32 x) 4 (fmul32 .rne)
      ∧ q (.vadd .int32 x) 2 (fun a b => a + b) ∧ q (.vsub .int32 x) 2 (fun a b => a - b)
      ∧ q (.vmul .int32 x) 4 (fun a b => a * b)
      ∧ q (.vadd .int16x2 x) 2 (halves2 fun a b => a + b) ∧ q (.vadd .bf16x2 x) 4 (halves2 (fadd16 .rne))
      ∧ q (.vmin .fp32 x) 4 fmin32 ∧ q (.vmax .fp32 x) 4 fmax32
      ∧ q (.vmin .int32 x) 2 (fun a b => if a.toInt ≤ b.toInt then a else b)
      ∧ q (.vmax .int32 x) 2 (fun a b => if b.toInt ≤ a.toInt then a else b)
      ∧ q (.vmin .uint32 x) 2 (fun a b => if a.toNat ≤ b.toNat then a else b)
      ∧ q (.vmax .uint32 x) 2 (fun a b => if b.toNat ≤ a.toNat then a else b)
      ∧ q (.vshl .int32 x) 2 (fun a b => BitVec.ofNat 32 (a.toNat * 2 ^ (b.toNat % 32)))
      ∧ q (.vshr .uint32 x) 2 (fun a b => BitVec.ofNat 32 (a.toNat / 2 ^ (b.toNat % 32)))
      ∧ q (.vsra .int32 x) 2 (fun a b => BitVec.ofInt 32 (a.toInt / 2 ^ (b.toNat % 32)))
      ∧ q (.vshl .int16x2 x) 2 (halves2 fun a b => BitVec.ofNat 16 (a.toNat * 2 ^ (b.toNat % 16)))
      ∧ q (.vcmp .int32 x) 2 (fun a b => if a.toInt < b.toInt then 1#32 else if a = b then 2#32 else 4#32)
      ∧ q (.vcmp .uint32 x) 2 (fun a b => if a.toNat < b.toNat then 1#32 else if a = b then 2#32 else 4#32)
      ∧ q (.vcmp .fp32 x) 2 (fun a b =>
          if num32 a = .nan ∨ num32 b = .nan then 8#32
          else if (num32 a).lt false (num32 b) = true then 1#32 else if (num32 a).eq (num32 b) = true then 2#32 else 4#32)

/-- The lane operations that also read the old destination (07 R212): VFMA rounds the exact sum once, VSEL picks by it. -/
def Claims.VectorThreeSourceResults : Prop :=
  ∀ (s : State) (x : VArgs), s.vecRuns x.nf (x.b.toNat :: x.d.toNat :: VSrc.regs x.a) →
    let q := fun (i : Instr) (lat : Nat) (f : BitVec 32 → BitVec 32 → BitVec 32 → BitVec 32) =>
      s.queues i x.d.toNat lat x.sink fun l =>
        f (vLane (s.vsrc x.a) l) (vLane (s.tl.vr x.b.toNat) l) (vLane (s.tl.vr x.d.toNat) l)
    q (.vfma .fp32 x) 4 (fun a b d => fp32 .rne (((num32 a).mul (num32 b)).add .rne (num32 d)))
      ∧ q (.vfma .int32 x) 4 (fun a b d => a * b + d) ∧ q (.vfma .uint32 x) 4 (fun a b d => a * b + d)
      ∧ q (.vfma .bf16x2 x) 4 (halves3 (fma16 .rne)) ∧ q (.vfma .int16x2 x) 4 (halves3 fun a b d => a * b + d)
      ∧ q (.vsel .int32 x) 2 (fun a b d => if d ≠ 0#32 then a else b)
      ∧ q (.vsel .fp32 x) 2 (fun a b d => if d ≠ 0#32 then a else b)
      ∧ q (.vsel .int16x2 x) 2 (halves3 fun a b d => if d ≠ 0#16 then a else b)

/-- The instructions of the one source a: functions, moves, rotations, broadcasts, conversions, reductions and scans (07
R214, R216, R217, R221): a function acts on FP32 lanes (VectorFunctions says what it gives), or on each BF16 half widened to FP32 and
rounded back; an INT32 sum and the scans of INT32 by sums are the sums of the lanes. -/
def Claims.VectorOneSourceResults : Prop :=
  ∀ (s : State) (x : VArgs1) (n j : BitVec 5) (rm : Rm) (f : Fmt), s.vecRuns x.nf (VSrc.regs x.a) →
    let a := s.vsrc x.a
    let q := fun (i : Instr) (lat : Nat) (g : Nat → BitVec 32) => s.queues i x.d.toNat lat x.sink g
    let sum := fun (n : Nat) => ((List.range n).map (vLane a)).foldl (fun u v => u + v) 0#32
    q (.vmov x) 2 (fun l => vLane a l)
      ∧ q (.vrot n x) 2 (fun l => vLane a ((l + n.toNat) % 32))
      ∧ q (.vbc j x) 2 (fun _ => vLane a j.toNat)
      ∧ q (.vexp2 .fp32 x) 8 (fun l => vexp32 (vLane a l)) ∧ q (.vlog2 .fp32 x) 8 (fun l => vlog32 (vLane a l))
      ∧ q (.vrcp .fp32 x) 8 (fun l => vrcp32 (vLane a l)) ∧ q (.vrsq .fp32 x) 8 (fun l => vrsq32 (vLane a l))
      ∧ q (.vcvt .fp32 true rm f x) 3
          (fun l => BitVec.ofNat 32 (roundNum .fp32 rm (srDraw (s.tileRow x.d) (srBits .fp32) l 0) (decodeNum f (vLane a l).toNat)))
      ∧ q (.vcvt .fp32 false rm f x) 3
          (fun l => extendNum 32 f (roundNum f rm (srDraw (s.tileRow x.d) (srBits f) l 0) (num32 (vLane a l))))
      ∧ q (.vred .int32 .add x) 6 (fun l => if l = 0 then sum 32 else 0#32)
      ∧ q (.vscan .int32 .add false x) 6 (fun l => sum (l + 1))
      ∧ q (.vscan .int32 .add true x) 6 (fun l => sum l)
      ∧ (let pair := fun (f : BitVec 32 → BitVec 32) (l : Nat) =>
           let h := fun (b : BitVec 16) => bf16 .rne (num32 (f (b ++ 0#16)))
           h ((vLane a l).extractLsb' 16 16) ++ h ((vLane a l).extractLsb' 0 16)
         q (.vexp2 .bf16x2 x) 8 (pair vexp32) ∧ q (.vlog2 .bf16x2 x) 8 (pair vlog32)
           ∧ q (.vrcp .bf16x2 x) 8 (pair vrcp32) ∧ q (.vrsq .bf16x2 x) 8 (pair vrsq32))

/-- VRED and VSCAN of every lane type and operation (03 R90, R110, R111, 07 R217). A scan makes the passes at distances 1, 2, 4, 8 and
16, the lower-numbered lane on the left, and delivers a NaN as the canonical one; .EX gives the identity in lane 0 and lane l - 1's
result in lane l. VRED combines neighbours in pairs five times, and clears the other lanes. Integer sums wrap, UINT32 orders are
unsigned, FP32 sums round to nearest even. -/
def Claims.VectorScansAndReductions : Prop :=
  (∀ (s : State) (x : VArgs1) (ty : VTy) (op : RedOp), s.vecRuns x.nf (VSrc.regs x.a) → ty ∈ [VTy.fp32, .int32, .uint32] →
    let enter := fun (l : Nat) => vLane (s.vsrc x.a) l
    let pass := fun (dist : Nat) (y : Nat → BitVec 32) (l : Nat) => if l < dist then y l else vredOp ty op (y (l - dist)) (y l)
    let pairs := fun (y : Nat → BitVec 32) (l : Nat) => vredOp ty op (y (2 * l)) (y (2 * l + 1))
    let given := fun (v : BitVec 32) => if ty = .fp32 ∧ num32 v = .nan then 0x7FC00000#32 else v
    let y := pass 16 (pass 8 (pass 4 (pass 2 (pass 1 enter))))
    s.queues (.vscan ty op false x) x.d.toNat 6 x.sink (fun l => given (y l))
      ∧ s.queues (.vscan ty op true x) x.d.toNat 6 x.sink (fun l => if l = 0 then vredIdentity ty op else given (y (l - 1)))
      ∧ s.queues (.vred ty op x) x.d.toNat 6 x.sink
          (fun l => if l = 0 then pairs (pairs (pairs (pairs (pairs enter)))) 0 else 0#32))
    ∧ (∀ u v : BitVec 32,
      vredOp .int32 .add u v = u + v ∧ vredOp .uint32 .add u v = u + v
        ∧ (vredOp .int32 .min u v).toInt = min u.toInt v.toInt ∧ (vredOp .int32 .max u v).toInt = max u.toInt v.toInt
        ∧ (vredOp .uint32 .min u v).toNat = min u.toNat v.toNat ∧ (vredOp .uint32 .max u v).toNat = max u.toNat v.toNat
        ∧ vredOp .fp32 .add u v = fp32 .rne ((num32 u).add .rne (num32 v))
        ∧ vredOp .fp32 .min u v = fp32 .rne ((num32 u).min (num32 v))
        ∧ vredOp .fp32 .max u v = fp32 .rne ((num32 u).max (num32 v)))
    ∧ vredIdentity .int32 .add = 0#32 ∧ vredIdentity .int32 .min = BitVec.intMax 32 ∧ vredIdentity .int32 .max = BitVec.intMin 32
    ∧ vredIdentity .uint32 .add = 0#32 ∧ vredIdentity .uint32 .min = 0xFFFFFFFF#32 ∧ vredIdentity .uint32 .max = 0#32
    ∧ vredIdentity .fp32 .add = 0x80000000#32 ∧ vredIdentity .fp32 .min = 0x7F800000#32
    ∧ vredIdentity .fp32 .max = 0xFF800000#32

/-- The helpers of 03 R112: FMA32, FMUL32 and Scale, rounding once to nearest even, and a pattern's negative. -/
def Claims.fma (a b c : BitVec 32) : BitVec 32 := fp32 .rne (((num32 a).mul (num32 b)).add .rne (num32 c))
def Claims.fmul (a b : BitVec 32) : BitVec 32 := fp32 .rne ((num32 a).mul (num32 b))
def Claims.negated (a : BitVec 32) : BitVec 32 := a ^^^ 0x80000000#32
def Claims.scaled (y : BitVec 32) (n : Int) : BitVec 32 :=
  fp32 .rne (match num32 y with | .fin w => .fin { w with e := w.e + n } | u => u)

/-- Decompose (03 R112): the magnitude of v is the FP32 pattern m, of a number from 1 to below 2, times 2^e. -/
def Claims.decomposes (v : Dy) (m : BitVec 32) (e : Int) : Prop :=
  0x3F800000 ≤ m.toNat ∧ m.toNat < 0x40000000 ∧ ({ (num32 m).dy with e := (num32 m).dy.e + e } : Dy).same v.abs = true

/-- The significand, of 24 bits, of the pattern p of an FP32 number from 1/2 to below 1, or from 1 to below 2 with `top` the pattern of
the lower bound. -/
def Claims.significand (top : Nat) (p : BitVec 32) : Nat := p.toNat - top + 2 ^ 23

/-- VRCP, VRSQ, VLOG2 and VEXP2 of an FP32 lane (03 R112-R116): the special values, and for the others each rule's algorithm over a
table whose entries are nearest the rule's real numbers. VRCP's entry i is nearest 256/(257 + 2i); VRSQ's entry 64p + j nearest
1/sqrt((129 + 2j) · 2^p/128), as its square says; VLOG2's TInv nearest 128/(128 + i); VEXP2's nearest 2^(i/64), as its 64th power
says. VLOG2's table TLg is given here to 12 places behind the binary point, and A1 to A4 and B1 to B4 by their patterns. -/
def Claims.VectorFunctions : Prop :=
  (vrcp32 0#32 = 0x7F800000#32 ∧ vrcp32 0x80000000#32 = 0xFF800000#32 ∧ vrcp32 0x7F800000#32 = 0#32
      ∧ vrcp32 0xFF800000#32 = 0x80000000#32)
    ∧ (vrsq32 0#32 = 0x7F800000#32 ∧ vrsq32 0x80000000#32 = 0xFF800000#32 ∧ vrsq32 0x7F800000#32 = 0#32)
    ∧ (vlog32 0#32 = 0xFF800000#32 ∧ vlog32 0x80000000#32 = 0xFF800000#32 ∧ vlog32 0x7F800000#32 = 0x7F800000#32
      ∧ vlog32 0x3F800000#32 = 0#32)
    ∧ (vexp32 0#32 = 0x3F800000#32 ∧ vexp32 0x80000000#32 = 0x3F800000#32 ∧ vexp32 0x7F800000#32 = 0x7F800000#32
      ∧ vexp32 0xFF800000#32 = 0#32)
    ∧ (∀ x : BitVec 32, num32 x = .nan → ∀ f ∈ [vrcp32, vrsq32, vlog32, vexp32], f x = 0x7FC00000#32)
    ∧ (∀ x : BitVec 32, num32 x = .inf true ∨ (∃ v : Dy, num32 x = .fin v ∧ v.m < 0) →
      vrsq32 x = 0x7FC00000#32 ∧ vlog32 x = 0x7FC00000#32)
    ∧ (∀ (x : BitVec 32) (v : Dy), num32 x = .fin v →
      ((Dy.int 128).le v = true → vexp32 x = 0x7F800000#32) ∧ (v.lt (.int (-150)) = true → vexp32 x = 0#32))
    ∧ (∃ T : Nat → BitVec 32,
      (∀ i : Nat, i < 128 →
        2 * ((Claims.significand 0x3F000000 (T i) * (257 + 2 * i) : Int) - 2 ^ 32).natAbs ≤ 257 + 2 * i)
        ∧ ∀ (x m : BitVec 32) (v : Dy) (e : Int), num32 x = .fin v → Claims.decomposes v m e →
          let near := fun (y : BitVec 32) => Claims.fma y (Claims.fma (Claims.negated m) y 0x3F800000#32) y
          let r := Claims.scaled (near (near (T ((m.toNat - 0x3F800000) / 2 ^ 16)))) (-e)
          vrcp32 x = if v.m < 0 then Claims.negated r else r)
    ∧ (∃ T : Nat → BitVec 32,
      (∀ p j : Nat, p < 2 → j < 64 →
        let M := Claims.significand 0x3F000000 (T (64 * p + j))
        (2 * M - 1) ^ 2 * (129 + 2 * j) * 2 ^ p < 128 * 2 ^ 50 ∧ 128 * 2 ^ 50 < (2 * M + 1) ^ 2 * (129 + 2 * j) * 2 ^ p)
        ∧ ∀ (x m : BitVec 32) (v : Dy) (e : Int), num32 x = .fin v → 0 < v.m → Claims.decomposes v m e →
          let p := e % 2
          let mm := Claims.scaled m p
          let near := fun (y : BitVec 32) =>
            Claims.fma (Claims.fmul y 0x3F000000#32) (Claims.fma (Claims.negated mm) (Claims.fmul y y) 0x3F800000#32) y
          vrsq32 x = Claims.scaled (near (near (T (64 * p.toNat + (m.toNat - 0x3F800000) / 2 ^ 17)))) (-((e - p) / 2)))
    ∧ (∃ TInv TLg : Nat → BitVec 32,
      TInv 0 = 0x3F800000#32 ∧ TLg 0 = 0#32
        ∧ (∀ i : Nat, 1 ≤ i → i < 128 →
          2 * ((Claims.significand 0x3F000000 (TInv i) * (128 + i) : Int) - 2 ^ 31).natAbs ≤ 128 + i)
        ∧ (∀ i : Nat, i < 128 →
          let l := ((num32 (TLg i)).dy.floorAt (-12)).toNat
          2 ^ (7 * 4096 + l) ≤ (128 + i) ^ 4096 ∧ (128 + i) ^ 4096 < 2 ^ (7 * 4096 + l + 1))
        ∧ ∀ (x m : BitVec 32) (v : Dy) (e : Int), num32 x = .fin v → 0 < v.m → Claims.decomposes v m e →
          let i := (m.toNat - 0x3F800000) / 2 ^ 16
          let u := Claims.fma m (TInv i) 0xBF800000#32
          let q := Claims.fma u (Claims.fma u (Claims.fma u 0xBEB8AA3B#32 0x3EF6384F#32) 0xBF38AA3B#32) 0x3FB8AA3B#32
          let sum := fun (a b : BitVec 32) => fp32 .rne ((num32 a).add .rne (num32 b))
          vlog32 x = sum (sum (fp32 .rne (Num.ofDy (.int e))) (TLg i)) (Claims.fmul u q))
    ∧ (∃ T : Nat → BitVec 32,
      (∀ i : Nat, i < 64 →
        let M := Claims.significand 0x3F800000 (T i)
        (2 * M - 1) ^ 64 < 2 ^ (i + 24 * 64) ∧ 2 ^ (i + 24 * 64) < (2 * M + 1) ^ 64)
        ∧ ∀ (x : BitVec 32) (v : Dy) (n : Int) (i : Nat), num32 x = .fin v → (Dy.int 128).le v = false →
          v.lt (.int (-150)) = false → i < 64 → ({ m := 64 * n + i, e := -6 } : Dy).le v = true →
          v.lt { m := 64 * n + i + 1, e := -6 } = true →
          let u := fp32 .rne (Num.ofDy (v.add { m := -(64 * n + i), e := -6 }))
          let q := Claims.fma u (Claims.fma u (Claims.fma u 0x3C1D955B#32 0x3D635847#32) 0x3E75FDF0#32) 0x3F317218#32
          vexp32 x = Claims.scaled (Claims.fma (T i) (Claims.fmul u q) (T i)) n)
    ∧ ∀ e : Int, -149 ≤ e → e ≤ 127 → e ≠ 0 →
      vlog32 (fp32 .rne (.fin (Dy.pow2 e))) = fp32 .rne (.fin (.int e))
        ∧ vexp32 (fp32 .rne (.fin (.int e))) = fp32 .rne (.fin (Dy.pow2 e))

/-- Gate scoring and permutation (07 R218, R220, R221): VTHR gives the mask and the count of the lanes whose order key
reaches that of lane 0 of b; VCNT adds to lane j of b the number of lanes of a that equal j; VPERM picks lane b[l], or 0. -/
def Claims.VectorScoringResults : Prop :=
  (∀ (s : State) (x : VArgs), s.vecRuns x.nf (x.b.toNat :: VSrc.regs x.a) →
    let a := s.vsrc x.a
    let b := s.tl.vr x.b.toNat
    let hit := fun (l : Nat) => decide (orderKey (vLane b 0) ≤ orderKey (vLane a l))
    (∃ v : BitVec 1024,
      exec (.vthr x) s = .next (s.onTl fun t => { t with vwrites := t.vwrites ++
          [{ due := s.now + 2, reg := x.d.toNat, lane := none, val := v, sink := x.sink, pread := false }] })
        ∧ (∀ l : Nat, l < 32 → (vLane v 0).getLsbD l = hit l)
        ∧ vLane v 1 = BitVec.ofNat 32 ((List.range 32).filter hit).length
        ∧ ∀ l : Nat, 2 ≤ l → l < 32 → vLane v l = 0#32)
      ∧ s.queues (.vcnt x) x.d.toNat 3 x.sink
          (fun j => vLane b j + BitVec.ofNat 32 ((List.range 32).filter fun l => (vLane a l).toNat == j).length)
      ∧ s.queues (.vperm x) x.d.toNat 2 x.sink (fun l => if (vLane b l).toNat < 32 then vLane a (vLane b l).toNat else 0#32))
    ∧ ∀ p q : BitVec 32, num32 p ≠ .nan → num32 q ≠ .nan → (num32 p).lt false (num32 q) = true → orderKey p < orderKey q

/-- VEC instructions lane by lane, and nullified ones. -/
def Obligations.VectorLanes : Prop :=
  Claims.NullifiedVecDoesNothing ∧ Claims.VectorLaneResults ∧ Claims.VectorThreeSourceResults ∧
    Claims.VectorOneSourceResults ∧ Claims.VectorScansAndReductions ∧ Claims.VectorFunctions ∧ Claims.VectorScoringResults

/-- VBIS (07 R219): eight passes of the bisection between the keys in lanes 0 and 1 of b leave the interval in lanes 0 and
1, lane 2 as it was, and in lanes 3 and 4 the mask and the number of the lanes taken: of the lanes whose key is above the interval,
in ascending order, and then those whose key lies in it, the first K, which lane 2 gives. Where lane 0 is above lane 1, that is the
pseudocode's selection (log 102). -/
def Claims.BisectionResults : Prop :=
  ∀ (s : State) (x : VArgs), s.vecRuns x.nf (x.b.toNat :: VSrc.regs x.a) →
    let a := s.vsrc x.a
    let b := s.tl.vr x.b.toNat
    let k := min (vLane b 2).toNat 32
    let keys := (List.range 32).map fun l => orderKey (vLane a l)
    let r := (List.range 8).foldl (fun i _ => bisect keys k i) ((vLane b 0).toNat, (vLane b 1).toNat)
    let above := fun (l : Nat) => decide (r.2 < orderKey (vLane a l))
    let within := fun (l : Nat) => decide (r.1 ≤ orderKey (vLane a l) ∧ orderKey (vLane a l) ≤ r.2)
    let before := fun (p : Nat → Bool) (n : Nat) => ((List.range n).filter p).length
    let place := fun (l : Nat) => if above l = true then before above l else before above 32 + before within l
    ∃ v : BitVec 1024,
      exec (.vbis x) s = .next (s.onTl fun t => { t with vwrites := t.vwrites ++
          [{ due := s.now + 9, reg := x.d.toNat, lane := none, val := v, sink := x.sink, pread := false }] })
        ∧ vLane v 0 = BitVec.ofNat 32 r.1 ∧ vLane v 1 = BitVec.ofNat 32 r.2 ∧ vLane v 2 = vLane b 2
        ∧ (∀ l : Nat, l < 32 → (vLane v 3).getLsbD l = ((above l || within l) && decide (place l < k)))
        ∧ (vLane v 4).toNat = ((List.range 32).filter fun l => (vLane v 3).getLsbD l).length ∧ (vLane v 4).toNat ≤ k
        ∧ ∀ l : Nat, 5 ≤ l → l < 32 → vLane v l = 0#32

/-- VPACK and VUNPK (07 R215): element e of the packed register is the low bits of lane e mod 32 of register a + e / 32; an
unpacked lane is its element, extended. -/
def Claims.PackResults : Prop :=
  ∀ (s : State) (f : Fmt) (d a : BitVec 11) (nf : BitVec 4),
    (s.vecRuns nf ((List.range (Fmt.packCount f)).map fun j => a.toNat + j) →
      ∃ v : BitVec 1024, exec (.vpack f d a nf) s = .next (s.onTl fun t => { t with vwrites := t.vwrites ++
          [{ due := s.now + 2, reg := d.toNat, lane := none, val := v, sink := none, pread := false }] })
        ∧ ∀ e : Nat, e < 32 * Fmt.packCount f → packBit f e + fmtBits f ≤ 1024 →
            v.toNat / 2 ^ packBit f e % 2 ^ fmtBits f = (vLane (s.tl.vr (a.toNat + e / 32)) (e % 32)).toNat % 2 ^ fmtBits f)
      ∧ (s.vecRuns nf [a.toNat] →
        ∃ w : List VWrite, exec (.vunpk f d a nf) s = .next (s.onTl fun t => { t with vwrites := t.vwrites ++ w })
          ∧ w.length = Fmt.packCount f
          ∧ ∀ j l : Nat, j < Fmt.packCount f → l < 32 →
              ∃ x : VWrite, w[j]? = some x ∧ x.due = s.now + 2 ∧ x.reg = d.toNat + j
                ∧ vLane x.val l =
                    extendNum 32 f ((s.tl.vr a.toNat).toNat / 2 ^ packBit f (32 * j + l) % 2 ^ fmtBits f))

/-- VLI, VLD, VST and PREAD (07 R222, R223, R236): an immediate for one lane or for all; 128 bytes of the tile's Mere inside
the launch's share, as they stand, for VLD; VST's register and address latched for the next tc; PREAD's post words. -/
def Claims.VectorLoadsAndStores : Prop :=
  (∀ (s : State) (hi : Bool) (lane : Option (BitVec 5)) (d : BitVec 11) (imm : BitVec 20) (nf : BitVec 4),
    s.vecRuns nf (if hi then [d.toNat] else []) →
    ∃ v : BitVec 1024, exec (.vli hi lane d imm nf) s = .next (s.onTl fun t => { t with vwrites := t.vwrites ++
        [{ due := s.now + 1, reg := d.toNat, lane := lane, val := v, sink := none, pread := false }] })
      ∧ ∀ l : Nat, l < 32 →
          vLane v l = if hi then imm ++ (vLane (s.tl.vr d.toNat) l).extractLsb' 0 12 else imm.signExtend 32)
    ∧ (∀ (s : State) (d a : BitVec 11) (off : BitVec 18) (nf : BitVec 4), s.vecRuns nf [a.toNat] →
      let ea := vecAddr (s.tl.vr a.toNat) off
      let r := s.mereRead s.focus.tile ea 128 false
      r.bound = false → r.broken = false →
      ∃ v : BitVec 1024, exec (.vld d a off nf) s = .next (s.onTl fun t => { t with vwrites := t.vwrites ++
          [{ due := s.now + 3, reg := d.toNat, lane := none, val := v, sink := none, pread := false }] })
        ∧ (∀ i : Nat, i < 128 →
            v.extractLsb' (8 * i) 8 = s.homeByte (.mere s.focus.tile ((ea + i) % 2 ^ 21)))
        ∧ ea % 64 = 0
        ∧ (ea : Int) = (((vLane (s.tl.vr a.toNat) 0).toNat : Int) + 128 * off.toInt) % 2 ^ 21 / 64 * 64)
    ∧ (∀ (s : State) (p : BitVec 2) (d a : BitVec 11) (off : BitVec 18) (nf : BitVec 4), s.vecRuns nf [d.toNat, a.toNat] →
      exec (.vst p d a off nf) s = .next (s.onTl fun t => { t with vsts := t.vsts ++
        [{ due := s.now + 1, ea := vecAddr (s.tl.vr a.toNat) off, data := s.tl.vr d.toNat, prio := p }] }))
    ∧ (∀ (s : State) (x k : BitVec 6) (n : BitVec 5),
      ∃ v : BitVec 1024, exec (.pread x k n) s = .next (s.onTl fun t => { t with vwrites := t.vwrites ++
          [{ due := s.now + 1, reg := 1984 + x.toNat, lane := none, val := v, sink := none, pread := true }] })
        ∧ ∀ l : Nat, l < 32 → vLane v l = if l ≤ n.toNat then SMap.get s.tl.pw (k.toNat + l) else 0#32)

/-- VEC_RESULT_WRITE (07 R208, R209, R223): a result that is due reaches its register, one lane alone where it is for one;
every other register keeps its value; a result not yet due stays queued. A store that is due reaches the Mere at its address
and nothing else changes there, inside the share and outside stepped regions. -/
def Claims.VectorResultsLand : Prop :=
  (∀ (s : State) (w : VWrite), s.tl.vwrites = [w] → s.tl.vsts = [] →
    (w.due ≤ s.now → w.sink = none →
      ∃ t : State, exec .vecResultWrite s = .next t ∧ t.tl.vwrites = []
        ∧ (∀ l : Nat, l < 32 → vLane (t.tl.vr w.reg) l =
            match w.lane with
            | none => vLane w.val l
            | some j => if l = j.toNat then vLane w.val l else vLane (s.tl.vr w.reg) l)
        ∧ (∀ r : Nat, r ≠ w.reg → t.tl.vr r = s.tl.vr r) ∧ s.bytesKept t)
      ∧ (s.now < w.due → ∃ t : State, exec .vecResultWrite s = .next t ∧ t.tl.vwrites = [w] ∧ t.tl.v = s.tl.v ∧ s.bytesKept t))
    ∧ ∀ (s : State) (w : VstWrite), s.tl.vwrites = [] → s.tl.vsts = [w] → w.due ≤ s.now → w.ea % 64 = 0 → w.ea < 2 ^ 21 →
      (∀ i : Nat, i < 128 → s.pt.mereIn ((w.ea + i) % 2 ^ 21) = true ∧ s.tl.stepped.find ((w.ea + i) % 2 ^ 21) = none) →
      ∃ t : State, exec .vecResultWrite s = .next t ∧ t.tl.vsts = [] ∧ t.tl.v = s.tl.v
        ∧ (∀ i : Nat, i < 128 →
            SMap.get t.pt.mere (s.focus.tile * 2 ^ 21 + (w.ea + i) % 2 ^ 21) = w.data.extractLsb' (8 * i) 8)
        ∧ ∀ n : Nat, (∀ i : Nat, i < 128 → n ≠ s.focus.tile * 2 ^ 21 + (w.ea + i) % 2 ^ 21) →
            SMap.get t.pt.mere n = SMap.get s.pt.mere n

/-- VBIS, packing, vector loads and stores, and the landing of results. -/
def Obligations.VectorPacksAndMemory : Prop :=
  Claims.BisectionResults ∧ Claims.PackResults ∧ Claims.VectorLoadsAndStores ∧ Claims.VectorResultsLand

/-- A Mill operation issues (06 R190, R195-R199): its tile, or every member of a gang, runs it from this tc, with the
registers as they stand latched, ready 16 tc a sweep and 12 more, or 14 in a gang, later; a gang's member that has no operation
begun ahead of its leader takes the leader's. -/
def Claims.MillOperationsIssue : Prop :=
  ∀ (s : State) (acc : BitVec 3) (c : MillC) (fA fB : Fmt) (ma mb : BitVec 4) (w : BitVec 2) (sweeps : BitVec 3) (m : AccM)
      (off : BitVec 4) (nf : BitVec 4),
    (∃ r : MillRun, exec (.mill acc c fA fB ma mb sweeps m nf) s = .next (s.onTl fun t => { t with mills := t.mills ++ [r] })
        ∧ r.issue = s.now ∧ r.ready = s.now + 16 * (sweeps.toNat + 1) + 12 ∧ r.bank = acc.toNat ∧ r.sweeps = sweeps.toNat + 1
        ∧ r.null = s.nullified nf ∧ r.ma = SMap.get s.tl.ma ma.toNat ∧ r.mb = SMap.get s.tl.mb mb.toNat ∧ r.fA = fA ∧ r.fB = fB
        ∧ (r.ovw = true ↔ m = .ovw) ∧ (r.arrive = true ↔ m = .arr))
      ∧ (∃ t : State, exec (.millg acc c fA fB ma mb w sweeps m nf) s = .next t
        ∧ ∀ i : Nat, i ≤ w.toNat → (∀ x ∈ (s.tileAt (s.focus.tile + i)).mills, x.issued = true) →
            ∃ r : MillRun, (t.tileAt (s.focus.tile + i)).mills = (s.tileAt (s.focus.tile + i)).mills ++ [r]
            ∧ r.leader = s.focus.tile ∧ r.issue = s.now ∧ r.bank = acc.toNat
            ∧ r.ready = s.now + 16 * (sweeps.toNat + 1) + (if w = 0#2 then 12 else 14)
            ∧ r.ma = SMap.get (s.tileAt (s.focus.tile + i)).ma ma.toNat ∧ r.mb = SMap.get s.tl.mb mb.toNat)
      ∧ (s.regsBroken [2032 + off.toNat] = false →
        ∃ (t : State) (r : MillRun), exec (.millx acc c fA fB ma mb off sweeps m nf) s = .next t
          ∧ t.tl.mills = s.tl.mills ++ [r] ∧ r.issue = s.now ∧ r.ready = s.now + 16 * (sweeps.toNat + 1) + 12
          ∧ ∀ row g : Nat, row < 32 → ((r.rows[row]?).getD none = some g ↔
              (g < 31 ∧ (vLane (s.tl.vr (2032 + off.toNat)) g).toNat ≤ row
                ∧ row < (vLane (s.tl.vr (2032 + off.toNat)) (g + 1)).toNat
                ∧ ∀ h : Nat, h < g → ¬((vLane (s.tl.vr (2032 + off.toNat)) h).toNat ≤ row
                    ∧ row < (vLane (s.tl.vr (2032 + off.toNat)) (h + 1)).toNat))))

/-- MZERO, MDRAIN and the register setters issue (06 R203, R204): a setter takes lanes 1 and 0 of its register in the
writable bits; a nullified MZERO or setter does nothing. -/
def Claims.MillRegistersSet : Prop :=
  ∀ (s : State) (acc d : BitVec 3) (k : BitVec 4) (a : BitVec 11) (nf : BitVec 4),
    let w := vLane (s.tl.vr a.toNat) 1 ++ vLane (s.tl.vr a.toNat) 0
    (s.nullified nf = false →
      exec (.mzero acc nf) s = .next (s.onTl fun t => { t with zeros := t.zeros ++ [(acc.toNat, s.now + 1)] }))
      ∧ exec (.mdrain a d nf) s = .next (s.onTl fun t => { t with drains := t.drains ++
          [{ issue := s.now, d := a.toNat, bank := d.toNat, null := s.nullified nf, row := none, kept := [] }] })
      ∧ (s.vecRuns nf [a.toNat] →
          exec (.mseta k a nf) s =
              .next (s.onTl fun t => { t with ma := SMap.set t.ma k.toNat (w &&& 0x00003FFF80007FFF#64) })
            ∧ exec (.msetb k a nf) s =
              .next (s.onTl fun t => { t with mb := SMap.set t.mb k.toNat (w &&& 0x00000003FF8007FF#64) })
            ∧ exec (.midx a nf) s = .next (s.onTl fun t => { t with midx := w &&& 0xF#64 }))
      ∧ (s.nullified nf = true →
          exec (.mzero acc nf) s = .next s ∧ exec (.mseta k a nf) s = .next s ∧ exec (.msetb k a nf) s = .next s
            ∧ exec (.midx a nf) s = .next s)

/-- Mill operations and register settings at issue. -/
def Obligations.MillOperations : Prop :=
  Claims.MillOperationsIssue ∧ Claims.MillRegistersSet

/-- MILL_READY_CYCLE (06 R190, R195, R199, R203): an operation that has run without error writes its bank at its ready
cycle: each cell of a covered row takes its result over the incoming bank that the operation has read, rows that it does not
cover and other banks keep theirs; nothing happens before. -/
def Claims.MillResultsWritten : Prop :=
  ∀ (s : State) (r : MillRun), s.tl.mills = [r] → s.tl.zeros = [] → r.arrive = false → r.issued = true →
    s.job.millGoes s.focus.tile r = true →
    (r.ready ≤ s.job.runOn s.focus.tile → r.null = false → r.err = none → s.pt.poison = [] → r.bank < 8 →
      ∃ t : State, exec .millReadyCycle s = .next t ∧ t.tl.mills = []
        ∧ (∀ m n : Nat, m < 32 → n < 32 →
            vLane (SMap.get t.tl.acc (r.bank * 32 + m)) n =
              match (r.rows[m]?).getD none with
              | some g => r.cell g m n (vLane (SMap.get r.accIn m) n)
              | none => vLane (SMap.get s.tl.acc (r.bank * 32 + m)) n)
        ∧ (∀ k : Nat, k / 32 ≠ r.bank → SMap.get t.tl.acc k = SMap.get s.tl.acc k)
        ∧ s.bytesKept t)
      ∧ (r.ready ≤ s.job.runOn s.focus.tile → r.null = true →
        ∃ t : State, exec .millReadyCycle s = .next t ∧ t.tl.mills = [] ∧ t.tl.acc = s.tl.acc)
      ∧ (s.job.runOn s.focus.tile < r.ready → ∃ t : State, exec .millReadyCycle s = .next t ∧ t.tl.mills = [r] ∧ t.tl.acc = s.tl.acc)

/-- MILL_READY_CYCLE in every state (06 R190, R203): the operations due, that their stop lets go on, and the clears due leave
their queues, and no other; a bank that none of them names keeps its rows, and no byte of memory changes. -/
def Claims.MillReadyCompletes : Prop :=
  ∀ s : State,
    let now := s.job.runOn s.focus.tile
    let due := fun (r : MillRun) => decide (r.ready ≤ now) && r.issued && s.job.millGoes s.focus.tile r
    ∃ t : State, exec .millReadyCycle s = .next t
      ∧ t.tl.mills = s.tl.mills.filter (fun r => !due r)
      ∧ t.tl.zeros = s.tl.zeros.filter (fun z => !decide (z.2 ≤ now))
      ∧ (∀ k : Nat, (∀ r ∈ s.tl.mills, due r = true → r.bank ≠ k / 32) → (∀ z ∈ s.tl.zeros, z.2 ≤ now → z.1 ≠ k / 32) →
          SMap.get t.tl.acc k = SMap.get s.tl.acc k)
      ∧ t.tl.v = s.tl.v ∧ s.bytesKept t

/-- The drain (06 R204): in each of its 32 tc a running drain reads the next row of its bank and writes the row it read in
the tc before to the V register of that number. Rows kept for it, as an operation ran on after a stop (06 R207, 12 R357), are
read as kept. -/
def Claims.DrainMovesRows : Prop :=
  ∀ (s : State) (d : Drain), s.tl.drains = [d] → s.tl.vwrites = [] → s.pt.poison = [] → d.null = false → d.issue ≤ s.now →
    s.now < d.issue + 32 →
    ∃ t : State, exec .mdrainRowWrite s = .next t
      ∧ (∃ e : Drain, t.tl.drains = [e] ∧ e.row = some (s.now - d.issue, d.bankRow s.tl (s.now - d.issue)))
      ∧ (d.kept = [] → ∀ r : Nat, d.bankRow s.tl r = SMap.get s.tl.acc (32 * d.bank + r))
      ∧ (∀ (r : Nat) (x : BitVec 1024 × Bool), d.kept[r]? = some x → d.bankRow s.tl r = x.1)
      ∧ (∀ (r : Nat) (v : BitVec 1024), d.row = some (r, v) → t.tl.vr (d.d + r) = v ∧ ∀ n : Nat, n ≠ d.d + r → t.tl.vr n = s.tl.vr n)
      ∧ (d.row = none → t.tl.v = s.tl.v) ∧ t.tl.acc = s.tl.acc

/-- MDRAIN_ROW_WRITE in every state (06 R204, R205): each drain that goes on holds the row that it reads in this tc, or
none when it has read its 32 or is nullified; registers that no drain writes in this tc, banks and memory keep their values. -/
def Claims.DrainCompletes : Prop :=
  ∀ s : State, ∃ t : State, exec .mdrainRowWrite s = .next t
    ∧ (∀ e ∈ t.tl.drains, ∃ d ∈ s.tl.drains, e.issue = d.issue ∧ e.d = d.d ∧ e.bank = d.bank ∧ e.null = d.null
        ∧ e.row = if d.null = false ∧ d.issue ≤ s.now ∧ s.now < d.issue + 32 then
            some (s.now - d.issue, d.bankRow s.tl (s.now - d.issue))
          else none)
    ∧ (∀ n : Nat, (∀ d ∈ s.tl.drains, ∀ (r : Nat) (v : BitVec 1024), d.row = some (r, v) → n ≠ d.d + r) →
        t.tl.vr n = s.tl.vr n)
    ∧ t.tl.acc = s.tl.acc ∧ s.bytesKept t

/-- No tile that could lead a gang of the tile in focus has a MILL chain in progress (06 R196). -/
def Claims.noGangAbove (s : State) : Prop :=
  ∀ k : Nat, 1 ≤ k → k ≤ 3 → k ≤ s.focus.tile → (SMap.get (s.tileAt (s.focus.tile - k)).chains 1).live = false

/-- MILL_SWEEP_READ (06 R188, R190): in tc i of a single-tile operation without a C operand the bytes of A that belong to
the tc are read from the Mere row by row, and those of B from the Loft; in its tc 16 an operation that accumulates reads its
incoming bank. -/
def Claims.MillReadsOperands : Prop :=
  (∀ (s : State) (r : MillRun), s.tl.mills = [r] → Claims.noGangAbove s → s.job.millGoes s.focus.tile r = true → r.null = false →
      r.c = .none → r.fA ∈ [Fmt.bf16, .e4m3, .e5m2, .t8, .fp4, .t6] → r.fB = r.fA →
      r.leader = s.focus.tile → r.width = 0 → r.err = none → r.rows = allRows → s.pt.poison = [] →
      r.issue ≤ s.job.runOn s.focus.tile → s.job.runOn s.focus.tile < r.issue + 16 * r.sweeps →
      let i := s.job.runOn s.focus.tile - r.issue
      ∃ (t : State) (u : MillRun), exec .millSweepRead s = .next t ∧ t.tl.mills = [u]
        ∧ (∀ m : Nat, m < 32 →
            SMap.get u.a (i * 32 + m) =
              read256 (s.mereRead s.focus.tile (maBase r.ma + m * maStride r.ma + 512 * (i / 16) + 32 * (i % 16)) 32 true).bytes)
        ∧ (∀ n : Nat, n < 32 →
            SMap.get u.b (i * 32 + n) =
              read256 (s.loftRead s.focus.tile n (mbOffset r.mb + 512 * (i / 16) + 32 * (i % 16)) 32).bytes)
        ∧ s.bytesKept t)
    ∧ ∀ (s : State) (r : MillRun), s.tl.mills = [r] → Claims.noGangAbove s → s.job.millGoes s.focus.tile r = true → r.null = false →
      r.ovw = false → r.sweeps = 1 → s.pt.poison = [] → s.job.runOn s.focus.tile = r.issue + 16 →
      ∃ (t : State) (u : MillRun), exec .millSweepRead s = .next t ∧ t.tl.mills = [u]
        ∧ (∀ m ∈ r.covered, SMap.get u.accIn m = SMap.get s.tl.acc (r.bank * 32 + m)) ∧ s.bytesKept t

/-- The number that a cell receives, from the operand bytes that a plain single-sweep operation has read (03 R107-R109, 06 R186, R187,
R195). Elements lie packed from their lowest bits, 32 bytes to a tc. A NaN or NaR among them gives the canonical NaN; where every element is a whole number and each product, as the incoming accumulator, lies below 2^62, no
bit is cut and the cell is the accumulator plus the sum of the products, rounded to FP32, +0 for 0. -/
def Claims.MillCellValue : Prop :=
  ∀ (r : MillRun) (f : Fmt) (m n : Nat) (old : BitVec 32), f ∈ [Fmt.bf16, .e4m3, .e5m2, .t8, .fp4] → r.c = .none → r.fA = f →
    r.fB = f → r.sweeps = 1 → m < 32 → n < 32 →
    let bits := fmtBits f
    let count := 4096 / bits
    let elem := fun (x : SMap (BitVec 256)) (row k : Nat) =>
      decodeNum f ((SMap.get x (bits * k / 256 * 32 + row)).toNat / 2 ^ (bits * k % 256) % 2 ^ bits)
    let whole := fun (x : Sys2Proof.Machine.Num) (z : Int) =>
      x ≠ .nan ∧ (∀ neg : Bool, x ≠ .inf neg) ∧ x.dy.same (.int z) = true
    ((∃ k : Nat, k < count ∧ (elem r.a m k = .nan ∨ elem r.b n k = .nan)) → r.cell 0 m n old = 0x7FC00000#32)
      ∧ ∀ (A B : Nat → Int) (v : Int),
        (∀ k : Nat, k < count → whole (elem r.a m k) (A k) ∧ whole (elem r.b n k) (B k) ∧ (A k * B k).natAbs < 2 ^ 62) →
        (if r.ovw = true then v = 0 else whole (num32 old) v ∧ v.natAbs < 2 ^ 62) →
        let total := v + ((List.range count).map fun k => A k * B k).sum
        (total = 0 → r.cell 0 m n old = 0#32)
          ∧ (total ≠ 0 → ∃ x : Dy, x.same (.int total) = true ∧ r.cell 0 m n old = fp32 .rne (.fin x))

/-- MILL_SWEEP_READ in every state (06 R190): no operation leaves the tile, and no bank, V register or byte of memory changes;
where no operation of the tile is in its reading cycles and no gang's leader stands behind, nothing is read. -/
def Claims.MillReadCompletes : Prop :=
  (∀ s : State, ∃ t : State, exec .millSweepRead s = .next t
      ∧ (∀ r ∈ s.tl.mills, ∃ u ∈ t.tl.mills, r.same u = true)
      ∧ (∀ n : Nat, (t.tileAt n).acc = (s.tileAt n).acc ∧ (t.tileAt n).v = (s.tileAt n).v) ∧ s.bytesKept t)
    ∧ ∀ s : State, Claims.noGangAbove s →
        (∀ r ∈ s.tl.mills, r.null = true ∨ s.job.runOn s.focus.tile < r.issue ∨ s.job.millBegins s.focus.tile r = false) →
        exec .millSweepRead s = .next s

/-- The Mill reads its operands, writes its results, of the values that the operand bytes give, and drains rows. -/
def Obligations.MillWorks : Prop :=
  Claims.MillResultsWritten ∧ Claims.DrainMovesRows ∧ Claims.MillReadsOperands ∧ Claims.MillReadyCompletes ∧ Claims.DrainCompletes ∧
    Claims.MillReadCompletes ∧ Claims.MillCellValue

/-- The HBM transfers issue (07 R227, R228): within the segment's limit a straight transfer of n units places bursts, one in
each slot that it takes, at consecutive segment offsets and local places; beyond the limit it stops the partition; and
the indexed ones leave their offsets to the list. -/
def Claims.HbmTransfersIssue : Prop :=
  ∀ (s : State) (p : BitVec 2) (f : IdxFmt) (spread : Bool) (sx seg : BitVec 6) (len : BitVec 12) (nf : BitVec 4),
    s.vecRuns nf [1984 + sx.toNat] →
    let v := s.tl.vr (1984 + sx.toNat)
    let n := if len = 0#12 then 4096 else len.toNat
    let slots := s.slotsFor (s.pt.segPch seg.toNat) n
    let fits := descHoff v + 64 * n ≤ s.pt.segLen seg.toNat
    let placed := fun (i : Instr) (k : BurstKind) (loc : Nat → Nat) =>
      ∃ (t : State) (l : List Burst), exec i s = .next t ∧ t.tl.bursts = s.tl.bursts ++ l ∧ l.map Burst.slot = slots
        ∧ (∀ (j : Nat) (b : Burst), l[j]? = some b → b.kind = k ∧ b.seg = seg.toNat ∧ b.off = some (descHoff v + 64 * j)
            ∧ b.loc = loc j ∧ b.null = false ∧ b.performed = false)
        ∧ t.tl.v = s.tl.v ∧ s.bytesKept t
    (fits → placed (.sld p sx seg len nf) .ld (fun j => (descMere v + 64 * j) % 2 ^ 21)
        ∧ placed (.sst sx seg len nf) .st (fun j => (descMere v + 64 * j) % 2 ^ 21)
        ∧ placed (.sldl spread sx seg len nf) .ldl
            (fun j => (loftPlace (descLoft v) j spread).1 * 2 ^ 17 + (loftPlace (descLoft v) j spread).2))
      ∧ (¬fits →
          exec (.sld p sx seg len nf) s = .next (s.gangStop (.tile s.focus.tile) 0x09#8 0x0B#8 0#8 0#64)
            ∧ exec (.sst sx seg len nf) s = .next (s.gangStop (.tile s.focus.tile) 0x09#8 0x0B#8 0#8 0#64))
      ∧ (∀ (i : Instr) (k : BurstKind), (i = .sgth p f sx seg len nf ∧ k = .gth f) ∨ (i = .ssct f sx seg len nf ∧ k = .sct f) →
          ∃ (t : State) (l : List Burst), exec i s = .next t ∧ t.tl.bursts = s.tl.bursts ++ l ∧ l.map Burst.slot = slots
            ∧ (∀ (j : Nat) (b : Burst), l[j]? = some b → b.kind = k ∧ b.off = none ∧ b.loc = (descMere v + 64 * j) % 2 ^ 21
                ∧ b.row = j / descRowb v ∧ b.unit = j % descRowb v)
            ∧ s.bytesKept t)

/-- A static slot belongs to its owner (11 R332, 07 R227): the slots that a transfer takes begin after its issue, in
ascending order, each in a cycle of the frame that the slot table gives the tile, and none that another of its bursts on
that pseudo-channel holds; no two tiles' cycles of a pseudo-channel are the same. -/
def Claims.StaticSlotsAreOwned : Prop :=
  (∀ (s : State) (pch n : Nat),
    (∀ c ∈ s.slotsFor pch n, s.now < c ∧ c % 32 ∈ s.pt.ownedAt pch s.focus.tile
        ∧ ∀ b ∈ s.tl.bursts, b.pch = pch → b.slot ≠ c)
      ∧ (s.slotsFor pch n).Pairwise (fun x y => x < y)
      ∧ (s.pt.ownedAt pch s.focus.tile ≠ [] → (s.slotsFor pch n).length = n))
    ∧ ∀ (p : Part) (pch t u c : Nat), c ∈ p.ownedAt pch t → c ∈ p.ownedAt pch u → t = u

/-- A straight burst from its slot to its landing (07 R227, R228; 11 R333): a load burst takes HBM's 64 bytes at its offset in
the segment when its channel performs it and lands them in the Mere in tc slot + 192; a store burst takes the Mere's
bytes in its slot and performs them into HBM. After a stop that ends the launch it still does so (12 R349), and in a job that goes
on it waits for its cycle (R357). -/
def Claims.StaticBurstsMove : Prop :=
  (∀ (s : State) (b : Burst) (o : Nat), s.tl.bursts = [b] → b.null = false → b.latched = true → b.performed = false → b.off = some o →
    b.kind = .ld → s.pt.poison = [] → b.slot + 64 ≤ s.job.scyc (sluiceNode b.pch) →
    let key := hbmKey b.pch (s.pt.segBase b.seg + o)
    ∃ t : State, exec .staticBurstPerform s = .next t ∧ s.bytesKept t
      ∧ t.tl.bursts = [{ b with performed := true, data := BitVec.ofNat 512 (ofBytes (readMem s.hbm key 64)) }])
    ∧ (∀ (s : State) (b : Burst) (o : Nat), s.tl.bursts = [b] → b.null = false → b.latched = true → b.performed = false →
      b.off = some o → b.kind = .st → b.slot + 64 ≤ s.burstClock b →
      let key := hbmKey b.pch (s.pt.segBase b.seg + o)
      ∃ t : State, exec .staticBurstPerform s = .next t ∧ t.tl.bursts = []
        ∧ (∀ i : Nat, i < 64 → SMap.get t.hbm (key + i) = b.data.extractLsb' (8 * i) 8)
        ∧ ∀ k : Nat, k < key ∨ key + 64 ≤ k → SMap.get t.hbm k = SMap.get s.hbm k)
    ∧ (∀ (s : State) (b : Burst), s.tl.bursts = [b] → b.null = false → b.latched = false → b.kind = .st → b.off.isSome = true →
      b.unit = 0 → b.rowLen = 0 → b.slot ≤ s.now →
      let r := s.mereRead s.focus.tile b.loc 64 true
      r.bound = false → r.broken = false →
      ∃ t : State, exec .staticBurstSlot s = .next t ∧ s.bytesKept t
        ∧ t.tl.bursts = [{ b with latched := true, data := BitVec.ofNat 512 (ofBytes r.bytes) }])
    ∧ (∀ (s : State) (b : Burst), s.tl.bursts = [b] → b.null = false → b.performed = true → b.kind = .ld →
      b.slot + 192 ≤ s.now → b.loc % 64 = 0 →
      (∀ i : Nat, i < 64 → s.pt.mereIn ((b.loc + i) % 2 ^ 21) = true ∧ s.tl.stepped.find ((b.loc + i) % 2 ^ 21) = none) →
      ∃ t : State, exec .staticReadLanding s = .next t ∧ t.tl.bursts = []
        ∧ (∀ i : Nat, i < 64 → SMap.get t.pt.mere (s.focus.tile * 2 ^ 21 + (b.loc + i) % 2 ^ 21) = b.data.extractLsb' (8 * i) 8)
        ∧ ∀ n : Nat, (∀ i : Nat, i < 64 → n ≠ s.focus.tile * 2 ^ 21 + (b.loc + i) % 2 ^ 21) →
            SMap.get t.pt.mere n = SMap.get s.pt.mere n)
    ∧ ∀ s : State, s.tl.bursts = [] →
        exec .staticBurstSlot s = .next s ∧ exec .staticBurstPerform s = .next s ∧ exec .staticReadLanding s = .next s

/-- Static HBM transfers: issue, slots and movement. -/
def Obligations.StaticTransfers : Prop :=
  Claims.HbmTransfersIssue ∧ Claims.StaticSlotsAreOwned ∧ Claims.StaticBurstsMove

/-- SXL, SCNT, SMETA and SSET issue (07 R229, R231, R232): the transfer, or the fill, stands with its length and places from
the descriptor, to depart or to be written from the next tc on. -/
def Claims.LinkTransfersIssue : Prop :=
  ∀ (s : State) (p : BitVec 2) (dir : Dir) (dst : SsetDst) (sx sy : BitVec 6) (len : BitVec 12) (nf : BitVec 4),
    s.vecRuns nf [1984 + sx.toNat] →
    let v := s.tl.vr (1984 + sx.toNat)
    let n := if len = 0#12 then 4096 else len.toNat
    let sends := fun (i : Instr) (scnt smeta : Bool) (count unit : Nat) (q : BitVec 2) =>
      exec i s = .next (s.onTl fun t => { t with xfers := t.xfers ++
        [{ scnt := scnt, smeta := smeta, dir := dir, issue := s.now, next := 0, n := count, len := n, loc := descMere v
           dst := descDst v unit, prio := q, null := false, count := 0 }] })
    sends (.sxl p dir sx len nf) false false ((n + 1) / 2) 64 p
      ∧ sends (.scnt p dir sx len nf) true false (n / 2) 64 p
      ∧ sends (.smeta dir sx len nf) false true (8 * n) 4 0#2
      ∧ (s.regsBroken [1984 + sx.toNat, 1984 + sy.toNat] = false →
        ∃ f : Fill, exec (.sset dst sx sy len nf) s = .next (s.onTl fun t => { t with fills := t.fills ++ [f] })
          ∧ f.issue = s.now ∧ f.next = 0 ∧ f.len = n ∧ f.null = false ∧ f.pat = s.tl.vr (1984 + sy.toNat)
          ∧ match dst with
            | .mere q => f.loft = false ∧ f.prio = q ∧ f.loc = descMere v
            | .loft sp => f.loft = true ∧ f.spread = sp ∧ f.loc = descLoft v)

/-- Beats, pairs and fills of a tc (07 R229, R231, R232): a beat of SXL leaves for the neighbour with the Mere's bytes, to land
at its place one hop later; where two land on one byte in one tc their order is log 104's; a pair's word lands at the place that
its slot names; a fill writes two units a tc; a tile with nothing under way does nothing. -/
def Claims.LinkBeatsMove : Prop :=
  (∀ (s : State) (x : Xfer) (u hop : Nat), s.tl.xfers = [x] → x.scnt = false → x.smeta = false → x.null = false →
    s.pt.toward s.focus.tile x.dir = .tile u hop → u ≠ s.focus.tile → x.next < x.n → x.issue + 1 + x.next ≤ s.now →
    let r := s.mereRead s.focus.tile (x.loc + 128 * x.next) (x.beatLen x.next) true
    r.bound = false → r.broken = false →
    ∃ (t : State) (b : Beat), exec .linkBeatDeparture s = .next t ∧ s.bytesKept t
      ∧ (t.tileAt u).beats = (s.tileAt u).beats ++ [b] ∧ b.due = s.now + hop
      ∧ b.data = BitVec.ofNat 1024 (ofBytes r.bytes)
      ∧ b.land = some { addr := (x.dst + 128 * x.next) % 2 ^ 21, len := x.beatLen x.next, writer := s.focus.tile, prio := x.prio }
      ∧ t.tl.xfers = if x.next + 1 < x.n then [{ x with next := x.next + 1, count := if x.next = 0 then ofBytes (r.bytes.take 4) else x.count }] else [])
    ∧ (∀ (s : State) (b : Beat), s.tl.beats = [b] → b.due ≤ s.now → b.land = none →
      ∃ t : State, exec (.linkBeatPresent none) s = .next t ∧ t.tl.beats = [] ∧ t.tl.linkIn (s.now + 1) b.dir = b.data
        ∧ s.bytesKept t)
    ∧ (∀ (s : State) (b : Beat) (l : Landing), s.tl.beats = [b] → b.due ≤ s.now → b.land = some l → l.addr % 64 = 0 →
      (l.len = 64 ∨ l.len = 128) →
      (∀ i : Nat, i < l.len → s.pt.mereIn ((l.addr + i) % 2 ^ 21) = true ∧ s.tl.stepped.find ((l.addr + i) % 2 ^ 21) = none) →
      ∃ t : State, exec (.linkBeatPresent none) s = .next t ∧ t.tl.beats = []
        ∧ ∀ i : Nat, i < l.len →
            SMap.get t.pt.mere (s.focus.tile * 2 ^ 21 + (l.addr + i) % 2 ^ 21) = b.data.extractLsb' (8 * i) 8)
    ∧ (∀ (s : State) (q : Pair), s.tl.pairs = [q] → q.due ≤ s.now → q.slot ≠ 0xFFFFFFFF#32 → q.dst % 4 = 0 →
      let a := (q.dst + 4 * (q.slot.toNat % 2 ^ 16)) % 2 ^ 21
      (∀ i : Nat, i < 4 → s.pt.mereIn (a + i) = true ∧ s.tl.stepped.find (a + i) = none) →
      ∃ t : State, exec (.metadataPairArrival none) s = .next t ∧ t.tl.pairs = []
        ∧ (∀ i : Nat, i < 4 → SMap.get t.pt.mere (s.focus.tile * 2 ^ 21 + a + i) = q.word.extractLsb' (8 * i) 8)
        ∧ ∀ n : Nat, n < s.focus.tile * 2 ^ 21 + a ∨ s.focus.tile * 2 ^ 21 + a + 4 ≤ n →
            SMap.get t.pt.mere n = SMap.get s.pt.mere n)
    ∧ (∀ (s : State) (f : Fill), s.tl.fills = [f] → f.null = false → f.loft = false → f.issue + 1 = s.now → f.next = 0 → 2 ≤ f.len →
      f.loc % 64 = 0 →
      (∀ i : Nat, i < 128 → s.pt.mereIn ((f.loc + i) % 2 ^ 21) = true ∧ s.tl.stepped.find ((f.loc + i) % 2 ^ 21) = none) →
      ∃ t : State, exec .ssetFillUnit s = .next t
        ∧ t.tl.fills = (if f.len = 2 then [] else [{ f with next := 2 }])
        ∧ ∀ i : Nat, i < 128 →
            SMap.get t.pt.mere (s.focus.tile * 2 ^ 21 + (f.loc + i) % 2 ^ 21) = f.pat.extractLsb' (8 * i) 8)
    ∧ ∀ s : State,
        (s.tl.xfers = [] → exec .linkBeatDeparture s = .next s) ∧ (s.tl.fills = [] → exec .ssetFillUnit s = .next s)

/-- Link transfers: issue, beats and their arrival. -/
def Obligations.LinkTransfers : Prop :=
  Claims.LinkTransfersIssue ∧ Claims.LinkBeatsMove

/-- WINDOW opens its window for its length of tc under its policy, and clears ARR of the words it expects (07 R234); at its
close a window under DEFAULT gives the words that no post has reached the default value, and one under STALL with a word
missing raises a frame hold; before its last tc nothing happens. -/
def Claims.Windows : Prop :=
  (∀ (s : State) (pol : WinPol) (w : BitVec 4) (len : BitVec 34),
    ∃ t : State, exec (.window pol w len) s = .next t ∧ SMap.get t.tl.wclose w.toNat = s.now + len.toNat
      ∧ wdOpen (SMap.get t.tl.wctl w.toNat) = true
      ∧ (wdStall (SMap.get t.tl.wctl w.toNat) = true ↔
          pol = .stall ∨ pol = .desc ∧ wdStall (SMap.get s.tl.wctl w.toNat) = true)
      ∧ wdDefval (SMap.get t.tl.wctl w.toNat) = wdDefval (SMap.get s.tl.wctl w.toNat)
      ∧ (∀ v : Nat, v ≠ w.toNat → SMap.get t.tl.wctl v = SMap.get s.tl.wctl v)
      ∧ (∀ k : Nat, t.tl.arrived k = (s.tl.arrived k && !(decide (k < 64) && (SMap.get s.tl.wmask w.toNat).getLsbD k)))
      ∧ t.tl.pw = s.tl.pw ∧ s.onlyTile t ∧ s.bytesKept t)
    ∧ (∀ (s : State) (w : BitVec 4), wdOpen (SMap.get s.tl.wctl w.toNat) = true → s.now + 1 = SMap.get s.tl.wclose w.toNat →
      (s.job.node s.focus.tile).paused = false →
      (wdStall (SMap.get s.tl.wctl w.toNat) = false →
        ∃ t : State, exec (.windowClose w) s = .next t ∧ wdOpen (SMap.get t.tl.wctl w.toNat) = false
          ∧ ∀ k : Nat, SMap.get t.tl.pw k =
              if k ∈ s.tl.awaited w.toNat then wdDefval (SMap.get s.tl.wctl w.toNat) else SMap.get s.tl.pw k)
        ∧ (wdStall (SMap.get s.tl.wctl w.toNat) = true → s.tl.awaited w.toNat = [] →
          ∃ t : State, exec (.windowClose w) s = .next t ∧ wdOpen (SMap.get t.tl.wctl w.toNat) = false ∧ t.tl.pw = s.tl.pw
            ∧ t.job.frames = s.job.frames)
        ∧ (wdStall (SMap.get s.tl.wctl w.toNat) = true → s.tl.awaited w.toNat ≠ [] → s.job.frames = [] →
          ∃ t : State, exec (.windowClose w) s = .next t ∧ wdOpen (SMap.get t.tl.wctl w.toNat) = false
            ∧ wdHold (SMap.get t.tl.wctl w.toNat) = true ∧ t.tl.pw = s.tl.pw
            ∧ ∃ f : Frame, t.job.frames = [f] ∧ f.node = s.focus.tile ∧ f.cond = .window s.focus.tile [w.toNat]))
    ∧ ∀ (s : State) (w : BitVec 4), s.now + 1 < SMap.get s.tl.wclose w.toNat → exec (.windowClose w) s = .next s

/-- NFSET sets or clears its flag by its relation between a post word and its value less a loop counter's count, if it names
one, exactly; F0 stays clear; NFCLR clears the flags of its mask; nothing else of the tile changes (07 R236, 01 R14). -/
def Claims.NullifyFlags : Prop :=
  (∀ (s : State) (rel : NfRel) (ctr : NfCtr) (k : BitVec 4) (j : BitVec 6) (v : BitVec 28),
    let x : Int := (SMap.get s.tl.pw j.toNat).toNat
    let y : Int := v.toInt - (match ctr with
      | .none => 0
      | .lc0 => (s.chain.lc0.toNat % 65536 : Nat)
      | .lc1 => (s.chain.lc1.toNat % 65536 : Nat))
    let holds : Prop := match rel with
      | .eq => x = y | .ne => x ≠ y | .ltu => x < y | .geu => y ≤ x | .leu => x ≤ y | .gtu => y < x | .always => True
    ∃ t : State, exec (.nfset rel ctr k j v) s = .next t
      ∧ (k ≠ 0#4 → (t.tl.nf.getLsbD k.toNat = true ↔ holds)) ∧ (k = 0#4 → t.tl.nf = s.tl.nf)
      ∧ (∀ i : Nat, i ≠ k.toNat → t.tl.nf.getLsbD i = s.tl.nf.getLsbD i)
      ∧ s.onlyTile t ∧ t.tl = { s.tl with nf := t.tl.nf } ∧ s.bytesKept t)
    ∧ ∀ (s : State) (mask : BitVec 15), ∃ t : State, exec (.nfclr mask) s = .next t
      ∧ (∀ i : Nat, i < 15 → t.tl.nf.getLsbD (i + 1) = (s.tl.nf.getLsbD (i + 1) && !mask.getLsbD i))
      ∧ t.tl.nf.getLsbD 0 = s.tl.nf.getLsbD 0 ∧ s.onlyTile t ∧ t.tl = { s.tl with nf := t.tl.nf }

/-- LOOPSET, TWAIT and TEND act on the chain that issues them (07 R237, R240; 02 R55, R56): a counter word is set, the next
issue moves by n tc, or the chain ends; the other chains of the tile are untouched. TMARK with no trace and no debugger
only advances its chain. -/
def Claims.ChainControl : Prop :=
  ∀ (s : State) (c : BitVec 1) (rld cnt : BitVec 16) (n v : BitVec 34),
    (∃ t : State, exec (.loopset c rld cnt) s = .next t
        ∧ (c = 0#1 → t.chain.lc0 = rld ++ cnt ∧ t.chain.lc1 = s.chain.lc1)
        ∧ (c = 1#1 → t.chain.lc1 = rld ++ cnt ∧ t.chain.lc0 = s.chain.lc0)
        ∧ t.chain.due = s.chain.due ∧ s.onlyTile t
        ∧ ∀ e : Nat, e ≠ engNum s.focus.eng → SMap.get t.tl.chains e = SMap.get s.tl.chains e)
      ∧ (∃ t : State, exec (.twait n) s = .next t ∧ t.chain = { s.chain with due := s.chain.due + n.toNat } ∧ s.onlyTile t
        ∧ ∀ e : Nat, e ≠ engNum s.focus.eng → SMap.get t.tl.chains e = SMap.get s.tl.chains e)
      ∧ (∃ t : State, exec .tend s = .next t ∧ t.chain = { s.chain with live := false } ∧ s.onlyTile t
        ∧ ∀ e : Nat, e ≠ engNum s.focus.eng → SMap.get t.tl.chains e = SMap.get s.tl.chains e)
      ∧ (s.job.debug = none → s.job.trace.on = false → exec (.tmark v) s = .next s)

/-- Windows open and close; nullify flags; loop counters, marks and waits of a chain. -/
def Obligations.WindowsFlagsChains : Prop :=
  Claims.Windows ∧ Claims.NullifyFlags ∧ Claims.ChainControl

/-- TSTEP arrives for its tile at the group, plans the step's effect D tc later and advances the superstep index (07 R238);
TSYNC on a tile that faces no Causeway link in use changes nothing, and on one that faces a link sends its marker, in the
first cycle eligible for its row (07 R230), and awaits the neighbour's (07 R239). -/
def Claims.StepAndSyncIssue : Prop :=
  (∀ (s : State) (g : BitVec 6) (d : BitVec 34),
    let grp := s.job.group g.toNat
    ∃ t : State, exec (.tstep g d) s = .next t
      ∧ (t.job.group g.toNat).arrTiles = grp.arrTiles ++ [s.focus.tile] ∧ (t.job.group g.toNat).count = grp.count
      ∧ t.tl.tsteps = s.tl.tsteps ++ [{ g := g.toNat, due := s.now + d.toNat, need := grp.count + 1 }]
      ∧ t.tl.superstep = s.tl.superstep + 1 ∧ s.bytesKept t)
    ∧ ∀ (s : State) (e : BitVec 16),
      (s.pt.faces s.focus.tile true = none → s.pt.faces s.focus.tile false = none → exec (.tsync e) s = .next s)
        ∧ ∀ row : Nat, s.pt.faces s.focus.tile true = some row → s.pt.faces s.focus.tile false = none →
          ∃ t : State, exec (.tsync e) s = .next t ∧ t.out = s.out ++ [.marker true row e (BitVec.ofNat 16 s.now) (s.now + (s.now + row) % 2)]
            ∧ t.tl.syncs = s.tl.syncs ++ [{ west := true, epoch := e, issue := s.now }]

/-- Alignment and holds (11 R326-R329, R340): a marker that agrees ends its TSYNC, and one that does not stops the
partition; a hold that reaches a node adds its length to what the node owes, and the permanent hold sets its stop cycle
once; a frame hold tested with its condition met ends, and otherwise is raised for 32 cycles more, to be tested when its node has
also served what it owes by then (log 68). -/
def Claims.AlignmentAndHolds : Prop :=
  (∀ (s : State) (r : SyncRun) (m : Marker), s.tl.syncs = [r] → s.tl.markers = [m] → m.west = r.west →
    (m.epoch = r.epoch → m.scyc = BitVec.ofNat 16 r.issue → r.issue ≤ m.at_ + 4096 →
      ∃ t : State, exec (.tsyncMarkerArrival none) s = .next t ∧ t.tl.syncs = [] ∧ t.tl.markers = [] ∧ t.job.stop = s.job.stop)
      ∧ (m.epoch ≠ r.epoch →
        exec (.tsyncMarkerArrival none) s = .next (s.gangStop (.tile s.focus.tile) 0x19#8 0x03#8 0#8 0#64)))
    ∧ (∀ (s : State) (h : HoldRun) (n : Nat), s.job.holds = [h] → h.due ≤ s.job.tb → h.len = some n →
      ∃ t : State, exec (.holdArrival none) s = .next t ∧ t.job.holds = []
        ∧ (t.job.node h.node).owed = (s.job.node h.node).owed + n
        ∧ ∀ k : Nat, k ≠ h.node → t.job.node k = s.job.node k)
    ∧ (∀ (s : State) (h : HoldRun), s.job.holds = [h] → h.due ≤ s.job.tb → h.len = none → (s.job.node h.node).stop = none →
      ∃ t : State, exec (.holdArrival none) s = .next t
        ∧ (t.job.node h.node).stop = some (s.job.scyc h.node - 1, (s.job.node h.node).h))
    ∧ (∀ (s : State) (f : Frame), s.job.frames = [f] → f.test ≤ s.job.tb → (s.job.node f.node).stop = none →
      (s.job.frameMet f.cond = true → ∃ t : State, exec .holdFrameTest s = .next t ∧ t.job.frames = [])
        ∧ (s.job.frameMet f.cond = false →
          ∃ t : State, exec .holdFrameTest s = .next t
            ∧ t.job.frames = [{ f with test := s.job.tb + 32 + (s.job.node f.node).owed }]))
    ∧ ∀ s : State, s.tl.syncs = [] → exec (.tsyncMarkerTimeout) s = .next s

/-- TSYNC_MARKER_TIMEOUT in every state (11 R340): a marker later than 4,096 tc stops the partition with the alignment fault;
before that, each TSYNC whose marker has not come by the end of its 64 tc has a frame hold that waits for it, the tile and
the stop standing as they were; where none is late nothing happens. -/
def Claims.LateMarkers : Prop :=
  ∀ s : State,
    let late := fun (r : SyncRun) => s.tl.markerOf r = none ∧ r.issue + 64 ≤ s.now + 1
    (s.syncLate = true → exec .tsyncMarkerTimeout s = .next (s.gangStop (.tile s.focus.tile) 0x19#8 0x04#8 0#8 0#64))
      ∧ (s.syncLate = false →
        ∃ t : State, exec .tsyncMarkerTimeout s = .next t ∧ t.tl = s.tl ∧ t.job.stop = s.job.stop ∧ s.bytesKept t
          ∧ (∀ f ∈ s.job.frames, f ∈ t.job.frames)
          ∧ ∀ r ∈ s.tl.syncs, late r → ∃ f ∈ t.job.frames, f.node = s.focus.tile
              ∧ ∃ n u : Nat, f.cond = .marker n r.west r.issue u)
      ∧ (s.syncLate = false → (∀ r ∈ s.tl.syncs, ¬late r) → exec .tsyncMarkerTimeout s = .next s)

/-- TSTEP and TSYNC, alignment markers, and holds. -/
def Obligations.TimedStepsAndHolds : Prop :=
  Claims.StepAndSyncIssue ∧ Claims.AlignmentAndHolds ∧ Claims.LateMarkers

/-- A value that FP32 or BF16 represents exactly rounds to itself in every mode, whatever is drawn, and a NaN becomes the
canonical NaN. -/
def Claims.RepresentableRoundsToItself : Prop :=
  (∀ (rm : Rm) (rnd : Nat) (p : BitVec 32), num32 p ≠ .nan → roundNum .fp32 rm rnd (num32 p) = p.toNat)
    ∧ (∀ (rm : Rm) (rnd : Nat) (p : BitVec 16), num16 p ≠ .nan → roundNum .bf16 rm rnd (num16 p) = p.toNat)
    ∧ (∀ (rm : Rm) (rnd : Nat), roundNum .fp32 rm rnd .nan = 0x7FC00000 ∧ roundNum .bf16 rm rnd .nan = 0x7FC0)

/-- The first stage of the Mill's sum is exact on whole numbers below 2^62 (03 R107, R108): its truncation cuts nothing. -/
def Claims.WholeProductsSumExactly : Prop :=
  ∀ l : List Int, (∀ x ∈ l, -2 ^ 62 < x ∧ x < 2 ^ 62) → (stage1 (l.map Dy.int)).same (.int l.sum) = true

/-- Representable values round to themselves, and whole products sum exactly. -/
def Obligations.NumbersAreExact : Prop :=
  Claims.RepresentableRoundsToItself ∧ Claims.WholeProductsSumExactly

/-- Writes of the BAR0 registers (13 R368-R371): QTAIL takes its value and reading of the queue resumes; HSEEN takes a value
up to CSEQ, one below its present value too (log 75), and what the host has seen is no longer held, while a larger one only sets
the error bit; REPLAY takes its value; STATBASE and QBASE take theirs, every bit of it, and read as written (00 R8; log 101), QBASE
while its queue is idle. -/
def Claims.HostRegisters : Prop :=
  ∀ (s : State) (v : Word), s.ready = true →
    (∀ q : Nat, q ≤ 4 → s.pt.tdi = .run →
      ∃ t : State, exec (.qtailWrite q v) s = .next t ∧ exec (.bar0RegisterWrite (0x20 * q + 0x10) v) s = .next t
        ∧ (t.pt.queue q).tail = v ∧ (t.pt.queue q).gap = false ∧ (t.pt.queue q).nextSeq = (s.pt.queue q).nextSeq
        ∧ (∀ r : Nat, r ≠ q → t.pt.queue r = s.pt.queue r) ∧ s.bytesKept t)
      ∧ (s.pt.cseq.toNat < v.toNat →
        ∃ t : State, exec (.hseenWrite v) s = .next t ∧ t.pt.herr = true ∧ t.pt.hseen = s.pt.hseen ∧ t.pt.held = s.pt.held)
      ∧ (v.toNat ≤ s.pt.cseq.toNat →
        ∃ t : State, exec (.hseenWrite v) s = .next t ∧ t.pt.hseen = v ∧ ∀ c ∈ t.pt.held, v.toNat < c.cseq)
      ∧ (∃ t : State, exec (.replay v) s = .next t ∧ t.pt.replay = v ∧ t.pt.held = s.pt.held ∧ t.pt.cseq = s.pt.cseq)
      ∧ (let t := s.onPt fun p => { p with statbase := v }
         exec (.bar0RegisterWrite 0x100 v) s = .next t ∧ t.pt.bar0 0x100 = v)
      ∧ ∀ q : Nat, q ≤ 4 → s.pt.busy q = false →
        let t := s.onPt fun p => p.onQueue q fun x => { x with base := v }
        exec (.bar0RegisterWrite (0x20 * q) v) s = .next t ∧ t.pt.bar0 (0x20 * q) = v

/-- Host windows (13 R367, R380): a read or a write of partition HBM is served in RUN inside a range that opens to it by some
grant whose completion record the host has; any other read answers Unsupported Request, and any other write is dropped. -/
def Claims.HostWindows : Prop :=
  (∀ (s : State) (off len : Nat), s.bar2Ok false off len = true → (∀ i : Nat, i < len → s.pt.poisoned (s.pt.home (off + i)) = false) →
      exec (.bar2Read off len) s = .next { s with out := s.out ++ [.bar2 (some (s.paBytes off len))] })
    ∧ (∀ (s : State) (off len : Nat), s.bar2Ok false off len = false →
      exec (.bar2Read off len) s = .next { s with out := s.out ++ [.bar2 none] })
    ∧ (∀ (s : State) (off : Nat) (data : List Byte), s.bar2Ok true off data.length = true → s.plainBytes off data.length →
      ∃ t : State, exec (.bar2Write off data) s = .next t ∧ s.stored t off data.length fun i => (data[i]?).getD 0#8)
    ∧ (∀ (s : State) (off : Nat) (data : List Byte), s.bar2Ok true off data.length = false →
      exec (.bar2Write off data) s = .next s)
    ∧ ∀ (s : State) (w : Bool) (off n : Nat), s.bar2Ok w off n = true ↔
        s.link = true ∧ s.pt.tdi = .run ∧ off + n ≤ 2 ^ 36 ∧ off + n ≤ s.pt.hbmSize
          ∧ ∃ (i : Nat) (g : Grant), i < 8 ∧ SMap.get s.pt.grants i = some g ∧ g.after ≤ s.pt.cseq.toNat ∧ g.base ≤ off ∧ off + n ≤ g.base + g.len
              ∧ (if w = true then g.write = true else g.read = true)

/-- Host registers and host windows. -/
def Obligations.HostPort : Prop :=
  Claims.HostRegisters ∧ Claims.HostWindows

/-- PACKET_ACCEPT (13 R370-R372): the packet in the next slot with the sequence number that is next is accepted and waits
in its queue, with an acceptance record in the status page; one with an earlier number is a duplicate, whose record names the
original's, and one with a later number a gap, after which the queue is no longer read. A LAUNCH is accepted when it is the packet
that the device takes next (10 R303, R309): with a residency slot free, no CHECKPOINT under way, no other LAUNCH still to take one,
nothing before it in its queue and no head that can proceed in a higher one; before that it stays in its slot. -/
def Claims.PacketsAccepted : Prop :=
  ∀ (s : State) (q : Nat),
    let x := s.pt.queue q
    let k : Packet :=
      { queue := q, num := s.pt.aseq.toNat + 1
        bytes := readMem s.host (x.base.toNat + 64 * (x.head % x.size.toNat)) 64 }
    s.ready = true → q ≤ 4 → x.size.toNat ∈ ringSizes → x.gap = false → x.head ≤ x.tail.toNat →
    (q = 4 ∨ (s.pt.quiesced = false ∧ s.pt.quiesce = none)) →
      let record := fun (t : State) (status ref : Nat) =>
        readMem t.host (s.pt.statbase.toNat + 1024 + 32 * (k.num % 32)) 32 =
          toBytes 8 k.num ++ toBytes 8 k.seq ++ toBytes 1 q ++ toBytes 1 k.kind ++ toBytes 1 status ++ toBytes 5 0 ++ toBytes 8 ref
      let accepts := ∃ t : State, exec (.packetAccept q) s = .next t ∧ (t.pt.queue q).pending = x.pending ++ [k]
        ∧ (t.pt.queue q).head = x.head + 1 ∧ (t.pt.queue q).nextSeq = x.nextSeq + 1#64 ∧ t.pt.aseq = s.pt.aseq + 1#64
        ∧ SMap.get (t.pt.queue q).accepted k.seq = k.num ∧ record t 0 0
      let goesFirst := s.pt.ckpt = none ∧ s.pt.freeSlot.isSome = true ∧ x.pending = []
        ∧ (∀ r : Nat, r < 5 → ∀ y ∈ (s.pt.queue r).pending, y.kind ≠ 1)
        ∧ ∀ r : Nat, q < r → r < 5 → s.pt.headReady r = false ∧ (s.unread r = true → (s.pt.queue r).pending ≠ [])
      (k.seq = x.nextSeq.toNat → 2 ≤ k.kind → k.kind ≤ 6 → subOk k.kind k.sub = true → accepts)
        ∧ (k.seq = x.nextSeq.toNat → k.kind = 1 → k.sub = 0 → goesFirst → accepts)
        ∧ (k.seq = x.nextSeq.toNat → k.kind = 1 → ¬goesFirst → exec (.packetAccept q) s = .next s)
        ∧ (k.seq < x.nextSeq.toNat →
          ∃ t : State, exec (.packetAccept q) s = .next t ∧ (t.pt.queue q).pending = x.pending ∧ (t.pt.queue q).head = x.head + 1
            ∧ (t.pt.queue q).nextSeq = x.nextSeq ∧ t.pt.aseq = s.pt.aseq + 1#64 ∧ record t 1 (SMap.get x.accepted k.seq))
        ∧ (x.nextSeq.toNat < k.seq →
          ∃ t : State, exec (.packetAccept q) s = .next t ∧ (t.pt.queue q).pending = x.pending ∧ (t.pt.queue q).head = x.head
            ∧ (t.pt.queue q).gap = true ∧ t.pt.aseq = s.pt.aseq + 1#64 ∧ record t 2 0)

/-- The completion record of a packet (13 R370, R372): with no record waiting and room in the page it takes the next
completion number, stands in the page at that number modulo 32, and is held until the host has seen it. -/
def Claims.CompletionRecords : Prop :=
  ∀ (s : State) (queue seq kind anum : Nat) (d : Done),
    let n := s.pt.cseq.toNat + 1
    let t := s.completePacket queue seq kind anum d
    s.pt.held = [] → n < 2 ^ 64 → n ≤ s.pt.hseen.toNat + 32 →
      t.pt.cseq.toNat = n
        ∧ readMem t.host (s.pt.statbase.toNat + 2048 + 64 * (n % 32)) 64 = d.bytes n seq queue kind anum
        ∧ t.pt.held = [{ cseq := n, bytes := d.bytes n seq queue kind anum }]
        ∧ t.job = s.job ∧ t.pt.res = s.pt.res ∧ t.hbm = s.hbm ∧ ∀ q : Nat, t.pt.queue q = s.pt.queue q

/-- Packets are accepted in order, and their records stand in the status page. -/
def Obligations.PacketRecords : Prop :=
  Claims.PacketsAccepted ∧ Claims.CompletionRecords

/-- The steward's packets that configure the partition (13 R363, R374-R376, R383; 17 R427), from the steward queue with the
layout their kinds have: QUIESCE leaves, or enters once the user queues are idle; PORTRING, PEER and MREGION set an entry of
a port, PORTRING dropping bits 5:0 of its address (log 46); CWRITE writes a word that its rules allow and sends the TDI to ERROR,
and refuses one that they do not with the word's value; RESHAPE puts the partitions of the new layout in place, quiesced, once the
records of the old ones are out (its wait for them is the model's, log 84). -/
def Claims.StewardPackets : Prop :=
  ∀ (s : State) (k : Packet) (rest : List Packet), s.focus.queue = 4 →
    let t := s.taken 4 rest
    let port := k.le 16 1
    (s.packetIs 4 k rest 5 0 → quiesceLayout k = true →
      (k.le 20 1 % 2 = 1 → exec .quiesceLeave s = .next ((t.onPt fun p => { p with quiesced := false }).ok k))
        ∧ (k.le 20 1 % 2 = 0 → k.queue = 4 → t.pt.userBusy = false →
          ∃ u : State, exec .quiesceEnter s = .next u ∧ u.pt.quiesced = true ∧ u.pt.quiesce = none)
        ∧ (k.le 20 1 % 2 = 0 → k.queue = 4 → t.pt.userBusy = true →
          exec .quiesceEnter s = .next (t.onPt fun p =>
            { p with quiesce := some { pkt := k, limit := s.clock + 1600 * k.le 16 4, force := k.le 20 1 / 2 == 1, aborting := false } })))
      ∧ (s.packetIs 4 k rest 6 1 → k.le 16 1 ≤ 4 → k.zero 17 64 = true →
        let n := k.le 16 1
        (∀ m ∈ layoutMasks n, 1 < maskSize m → ∀ i : Nat, i < 4 → m.getLsbD i = true → s.qok.getLsbD i = true) →
        s.pt.qmask ∈ layoutMasks s.layout → s.pt.qmask ∉ layoutMasks n →
        (∀ m ∈ layoutMasks s.layout, m ∉ layoutMasks n → t.still m = true ∧ t.recordsOut m = true) →
        ∃ u : State, exec .reshape s = .next u ∧ u.layout = n
          ∧ ∀ m ∈ layoutMasks n, m ∉ layoutMasks s.layout →
            (u.part (maskPart m)).qmask = m ∧ (u.part (maskPart m)).quiesced = true ∧ (u.part (maskPart m)).cur = none
              ∧ ∀ q : Nat, ((u.part (maskPart m)).queue q).pending = [])
      ∧ (s.packetIs 4 k rest 6 2 → s.pt.portOk port = true → k.le 17 1 ≤ 2 → k.le 18 1 ≤ 1 → k.zero 19 24 = true →
        k.le 24 8 < 2 ^ 56 → k.zero 32 64 = true →
        ∃ u : State, exec .portring s = .next u ∧ ∃ a : Nat, SMap.get (u.uport port).rings (k.le 17 1) = some (k.le 18 1, a)
          ∧ a % 64 = 0 ∧ a / 64 = k.le 24 8 / 64)
      ∧ (s.packetIs 4 k rest 6 3 → s.pt.portOk port = true → k.zero 17 18 = true → k.le 18 2 ≤ 1023 → k.zero 20 24 = true →
        k.zero 44 64 = true →
        ∃ u : State, exec .peer s = .next u ∧ SMap.get (u.uport port).peers (k.le 18 2) = some ((k.bytes.drop 24).take 20))
      ∧ (s.packetIs 4 k rest 6 4 → s.pt.portOk port = true → k.zero 17 18 = true → k.le 18 2 ≤ 1023 → k.le 20 1 < 4 → k.le 21 1 ≤ 1 →
        k.zero 22 24 = true → k.le 24 8 < 2 ^ 56 → k.zero 40 64 = true →
        ∃ u : State, exec .mregion s = .next u
          ∧ SMap.get (u.uport port).regions (k.le 18 2) = some (k.le 20 1, k.le 21 1, k.le 24 8, k.le 32 8))
      ∧ (s.packetIs 4 k rest 6 6 → k.zero 18 24 = true →
        let n := k.le 16 2
        let v := BitVec.ofNat 64 (k.le 24 8)
        ∀ m : Word, cwriteMask n = some m → v &&& ~~~m = 0#64 →
          (t.pt.cwriteRefused n v = none →
            ∃ u : State, exec .cwrite s = .next u ∧ u.cwriteWord n = v ∧ u.pt.tdi = .error)
          ∧ ∀ st : Nat, t.pt.cwriteRefused n v = some st →
            exec .cwrite s = .next (t.finish k { status := st, aux := (t.cwriteWord n).toNat }))

/-- QUIESCE_LIMIT (13 R375): before the limit nothing happens; past it, while a user queue is busy, a QUIESCE without FORCE
completes BUSY with the busy queues in AUX and ends, and one with FORCE gang-stops the current job, which then completes ABORTED
(StopsEnd), or, with none current, ends every resident job's launch and every accepted user packet, ABORTED, and is quiesced; where
the queues have become idle by then it is quiesced. CWRITE from a user queue is refused NOTSTEWARD and writes nothing. -/
def Claims.QuiesceLimits : Prop :=
  (∀ (s : State) (q : Quiesce), s.pt.quiesce = some q → s.clock < q.limit → exec .quiesceLimit s = .next s)
    ∧ (∀ (s : State) (q : Quiesce), s.pt.quiesce = some q → q.limit ≤ s.clock → q.aborting = false → q.force = false →
      s.pt.userBusy = true →
      let busy := fun (i : Nat) => if s.pt.busy i = true then 2 ^ i else 0
      ∃ t : State, exec .quiesceLimit s = .next t ∧ t.pt.quiesce = none ∧ t.pt.quiesced = s.pt.quiesced ∧ t.job = s.job
        ∧ t = (s.onPt fun p => { p with quiesce := none }).finish q.pkt { status := 6, aux := busy 0 + busy 1 + busy 2 + busy 3 })
    ∧ (∀ (s : State) (q : Quiesce), s.pt.quiesce = some q → q.limit ≤ s.clock → q.aborting = false → q.force = true →
      s.pt.userBusy = true → s.pt.cur = none →
      ∃ t : State, exec .quiesceLimit s = .next t ∧ t.pt.quiesce = none ∧ t.pt.quiesced = true
        ∧ (∀ k : Nat, k ≤ 1 → SMap.get t.pt.res k = none) ∧ (∀ i : Nat, i < 4 → (t.pt.queue i).pending = [])
        ∧ ∀ (k : Nat) (r : Resident), k ≤ 1 → SMap.get s.pt.res k = some r → SMap.get s.pt.res (1 - k) = none → r.saved.debug = none →
          s.pt.ckpt = none → s.pt.held = [] → (∀ i : Nat, i < 4 → (s.pt.queue i).pending = []) →
          let n := s.pt.cseq.toNat + 1
          let ended : Done := { status := 2, tb := r.saved.tb }
          let quiet : Done := { status := 0 }
          t.pt.held =
            [{ cseq := n, bytes := ended.bytes n r.seq r.queue 1 r.anum },
             { cseq := n + 1, bytes := quiet.bytes (n + 1) q.pkt.seq q.pkt.queue q.pkt.kind q.pkt.num }])
    ∧ (∀ (s : State) (q : Quiesce) (k : Nat), s.pt.quiesce = some q → q.limit ≤ s.clock → q.aborting = false → q.force = true →
      s.pt.userBusy = true → s.pt.cur = some k →
      ∃ t : State, exec .quiesceLimit s = .next t ∧ t.pt.quiesce = some { q with aborting := true } ∧ t.pt.switch = none
        ∧ t.pt.cur = some k ∧ t.pt.res = s.pt.res ∧ t.pt.quiesced = s.pt.quiesced
        ∧ (s.job.stop = none → ∃ g : GangStop, t.job.stop = some g ∧ g.origin = .steward ∧ g.cause = 0#8 ∧ g.tb = s.job.tb))
    ∧ (∀ (s : State) (q : Quiesce), s.pt.quiesce = some q → q.limit ≤ s.clock → q.aborting = false → s.pt.userBusy = false →
      ∃ t : State, exec .quiesceLimit s = .next t ∧ t.pt.quiesce = none ∧ t.pt.quiesced = true ∧ t.job = s.job)
    ∧ ∀ (s : State) (k : Packet) (rest : List Packet), s.focus.queue < 4 → s.packetIs s.focus.queue k rest 6 6 →
      let t := s.taken s.focus.queue rest
      ∀ m : Word, cwriteMask (k.le 16 2) = some m → BitVec.ofNat 64 (k.le 24 8) &&& ~~~m = 0#64 → k.zero 18 24 = true →
        exec .cwrite s = .next (t.finish k { status := 4, aux := (t.cwriteWord (k.le 16 2)).toNat })

/-- QUIESCE, RESHAPE, PORTRING, PEER, MREGION and CWRITE. -/
def Obligations.StewardPackets : Prop :=
  Claims.StewardPackets ∧ Claims.QuiesceLimits

/-- SIGNAL and CHECKPOINT (10 R308, 13 R385): a signal to a context of the current launch enters its mailbox as an entry
with the host as peer, and one without a destination completes NODEST; a SAVE with no job current waits for its stream,
whose end stores it and completes; a RESTORE needs a quiesced empty partition and the owner's authorisation, and one that
fails leaves partition HBM zeroed. -/
def Obligations.SignalsAndCheckpoints : Prop :=
  ∀ (s : State) (k : Packet) (rest : List Packet),
    let q := s.focus.queue
    let t := s.taken q rest
    let n := k.le 16 2
    (s.atHead q k rest → k.kind = 2 → k.zero 18 24 = true → k.zero 40 64 = true →
      (s.pt.targetOf q = none → exec .signal s = .next (t.finish k { status := 3 }))
        ∧ ∀ slot : Nat, s.pt.targetOf q = some slot → s.pt.cur = some slot → s.pt.hasCtx n = true →
          (s.ctxAt (n / 11) (n % 11)).state ≠ .free →
          exec .signal s = .next ((t.deliver (n / 11)
            { kind := 0#4, dst := n % 11, peer := 0xFFF#12, seq := BitVec.ofNat 32 k.seq, lo := BitVec.ofNat 64 (k.le 24 8)
              hi := BitVec.ofNat 64 (k.le 32 8) }).ok k))
      ∧ (s.atHead q k rest → k.kind = 4 → ckptLayout s.pt k = true →
        (k.le 16 1 = 0 → s.pt.cur = none →
          exec .checkpointSave s = .next (t.onPt fun p => { p with ckpt := some { pkt := k, save := true, bytes := 0 } }))
        ∧ (k.le 16 1 = 1 →
          (s.pt.quiesced = false → exec .checkpointRestore s = .next (t.finish k { status := 7 }))
          ∧ (s.pt.quiesced = true → SMap.get s.pt.res 0 = none → SMap.get s.pt.res 1 = none →
            (s.pt.restoreOk = false → exec .checkpointRestore s = .next (t.finish k { status := 9 }))
            ∧ (s.pt.restoreOk = true →
              exec .checkpointRestore s = .next (t.onPt fun p =>
                { p with restoreOk := false, ckpt := some { pkt := k, save := false, bytes := 0 } })))))
      ∧ ∀ (c : Ckpt) (ok : Bool) (bytes : Word), s.pt.ckpt = some c →
        (c.save = true → s.pt.cur = none → ok = true → s.reaches c.pkt = true →
          ∃ (u : State) (x : Stored), exec (.checkpointStreamComplete ok bytes) s = .next u ∧ u.pt.ckpt = none
            ∧ u.pt.streams = s.pt.streams ++ [x] ∧ x.label = c.pkt.le 24 8 ∧ x.key = s.pt.key ∧ x.bytes = bytes.toNat
            ∧ x.mere = s.pt.mere ∧ x.loft = s.pt.loft ∧ x.loc = s.pt.loc)
        ∧ (c.save = false → ok = false →
          ∃ u : State, exec (.checkpointStreamComplete ok bytes) s = .next u ∧ u.pt.ckpt = none ∧ u.pt.streams = s.pt.streams
            ∧ ∀ a : Nat, byteIn s.pt.il a = true → SMap.get u.hbm a = 0#8)

/-- The messages of the owner's session (13 R380), each in a SECMSG on the steward queue: the first CLAIM in a session with
mutual authentication makes its party the owner; GRANT opens a window, from its completion record on, and GRANT_REVOKE ends it,
DEBUGOK and DEBUGOFF open and close queues to debugging, RESTORE_AUTHORISATION allows a restore, for the owner in its own
session; another party, or a message whose MAC fails, is DENIED, the latter with nothing else changed. What bytes an answer puts
into the host's buffer is free (log 94). -/
def Claims.OwnerMessages : Prop :=
  ∀ (s : State) (k : Packet) (rest : List Packet), s.pt.secmsgQueue = some 4 → s.packetIs 4 k rest 6 5 → secmsgLayout k = true →
    let t := s.taken 4 rest
    let n := k.le 16 4
    let u : State := { (t.hostPuts (k.le 24 8) (freeBytes s.free n)) with free := s.free + n }
    let denied := u.finish k { status := 9 }
    (∀ h : BitVec 256, s.pt.spdm.session = some (some h) → s.pt.owner = none →
      exec (.claim true true h) s = .next ((u.onPt fun p => { p with owner := some h }).ok k))
      ∧ (∀ (session bothSides : Bool) (h : BitVec 256),
        session = false ∨ bothSides = false ∨ s.pt.spdm.session ≠ some (some h) ∨ s.pt.owner.isSome = true →
        exec (.claim session bothSides h) s = .next denied)
      ∧ (∀ h : BitVec 256, s.pt.spdm.session = some (some h) → s.pt.owner = some h →
        (∀ (i : BitVec 3) (base len : Nat) (r w : Bool), base % 65536 = 0 → len % 65536 = 0 →
          ∃ v : State, exec (.grant i base len r w) s = .next v
            ∧ SMap.get v.pt.grants i.toNat = some { base := base, len := len, read := r, write := w, after := s.pt.nextDone })
        ∧ (∀ i : BitVec 3, ∃ v : State, exec (.grantRevoke i) s = .next v ∧ SMap.get v.pt.grants i.toNat = none)
        ∧ (∀ m : BitVec 4, ∃ v : State, exec (.debugok m) s = .next v ∧ v.pt.debugOk = s.pt.debugOk ||| m)
        ∧ (∀ m : BitVec 4, ∃ v : State, exec (.debugoff m) s = .next v ∧ v.pt.debugOk = s.pt.debugOk &&& ~~~m)
        ∧ ∃ v : State, exec .restoreAuthorisation s = .next v ∧ v.pt.restoreOk = true)
      ∧ ((∀ h : BitVec 256, s.pt.spdm.session = some (some h) → s.pt.owner ≠ some h) →
        (∀ (i : BitVec 3) (base len : Nat) (r w : Bool), exec (.grant i base len r w) s = .next denied)
          ∧ (∀ i : BitVec 3, exec (.grantRevoke i) s = .next denied) ∧ (∀ m : BitVec 4, exec (.debugok m) s = .next denied)
          ∧ (∀ m : BitVec 4, exec (.debugoff m) s = .next denied) ∧ exec .restoreAuthorisation s = .next denied)
      ∧ s.badMessage = t.finish k { status := 9 }

/-- SPDM (13 R379), TDISP and an IDE failure (13 R366): a key exchange sets a session up, with a party that has authenticated
itself or without one, and it can be ended; version 1.3 is answered, and the capabilities and algorithms listed; a
measurement is answered with a signature; heartbeats, key updates and IDE_KM are refused outside a session (the refusals and the
form of the answers are log 94); the interface goes from unlocked to locked to RUN and back to unlocked from anywhere, and no other
request changes it (the transitions are TDISP's own, log 107); and it goes to ERROR on an integrity failure of a stream that has
keys. -/
def Claims.DeviceInterface : Prop :=
  (∀ s : State, s.ready = true → s.pt.ide.isSome = true →
      ∃ t : State, exec .ideIntegrityFailure s = .next t ∧ t.pt.tdi = .error ∧ t.job = s.job ∧ s.bytesKept t)
    ∧ (∀ s : State, s.pt.ide = none → exec .ideIntegrityFailure s = .next s)
    ∧ (∀ (s : State) (mode : Tdi), s.ready = true →
      exec (.tdispRequest mode) s =
        .next (if mode = .unlocked ∨ (mode = .locked ∧ s.pt.tdi = .unlocked) ∨ (mode = .run ∧ s.pt.tdi = .locked) then
            s.onPt fun p => { p with tdi := mode } else s))
    ∧ ∀ s : State, s.ready = true →
      (∀ party : Option (BitVec 256), ∃ t : State, exec (.spdmRequest (.keyExchange party)) s = .next t
          ∧ t.pt.spdm.session = some party ∧ t.pt.owner = s.pt.owner ∧ t.out.length = s.out.length + 1)
        ∧ (∃ t : State, exec (.spdmRequest .endSession) s = .next t ∧ t.pt.spdm.session = none)
        ∧ exec (.spdmRequest (.version 0x13)) s = .next (s.spdmReply (.version 0x13))
        ∧ (∀ n : Nat, ∃ t : State, exec (.spdmRequest (.capabilities n)) s = .next t
            ∧ t.out = s.out ++ [.spdm (.capabilities [.cert, .chal, .measSig, .keyEx, .mutAuth, .encrypt, .mac, .hbeat, .keyUpd, .chunk])]
            ∧ t.pt.spdm.xfer = n)
        ∧ (∀ a : SpdmAlgs, exec (.spdmRequest (.algorithms a)) s = .next (s.spdmReply (.algorithms { a with baseAsym := false })))
        ∧ (∀ i : Nat, 1 ≤ i → i ≤ 7 → ∃ sig : List Byte, sig.length = 7856
            ∧ exec (.spdmRequest (.measurement i)) s =
                .next (({ s with free := s.free + 7856 } : State).spdmData (s.measurement i ++ sig)))
        ∧ (s.pt.spdm.session = none → ∀ r : Nat, ∀ x ∈ [SpdmReq.heartbeat, .keyUpdate, .ideKey r],
            exec (.spdmRequest x) s = .next (s.spdmReply .error))
        ∧ ∀ r : Nat, s.pt.spdm.session.isSome = true →
            ∃ t : State, exec (.spdmRequest (.ideKey r)) s = .next t ∧ t.pt.ide = some r

/-- The owner's messages, SPDM and TDISP. -/
def Obligations.OwnerAndInterface : Prop :=
  Claims.OwnerMessages ∧ Claims.DeviceInterface

/-- The Ultra Ethernet ports (13 R384): a peer's WRITE or READ acts on a memory region whose key and rights allow it, and a
SEND fills receive-ring slots, each answered 0; what may not be done is answered 3; a port takes its next work item, sends
it with its bytes and waits, or completes one that cannot leave; the peer's answer completes it. -/
def Obligations.PortsWork : Prop :=
  (∀ (s : State) (port : BitVec 3), s.pt.ownsPort port.toNat = true →
    let n := port.toNat
    (∀ (key off : Nat) (data : List Byte), s.regionAt n key true off data.length = none →
        exec (.ueIncoming port (.write key off data)) s = .next (s.portAnswer n 3 []))
      ∧ (∀ (key off va slot : Nat) (r : Resident) (data : List Byte) (t : State),
        s.regionAt n key true off data.length = some (slot, r, va) → s.portWrite slot r va data = .ok t →
          exec (.ueIncoming port (.write key off data)) s = .next (t.portAnswer n 0 []))
      ∧ (∀ (key off len va slot : Nat) (r : Resident) (l : List Byte) (t : State),
        s.regionAt n key false off len = some (slot, r, va) → s.portRead slot r va len = .ok (l, t) →
          exec (.ueIncoming port (.read key off len)) s = .next (t.portAnswer n 0 l))
      ∧ (∀ (va slot : Nat) (r : Resident) (v : Word) (data : List Byte) (t : State), s.portRing n 2 = some (slot, r, va) →
        r.anum ∉ (s.uport n).stopped → s.fillReceive slot r va (s.portSlot r va 0).2 data.length data = .ok v t →
          exec (.ueIncoming port (.send data)) s = .next (t.portAnswer n 0 []))
      ∧ ∀ (va slot freed : Nat) (r : Resident) (v : Word) (item : List Byte) (t u : State),
        (s.uport n).work = none → s.portRing n 0 = some (slot, r, va) → s.portStep slot r va consumer (.radv 1#64) = .ok v t →
        (∀ a l, s.walkRoot va r.place.root = .leaf a l →
          freed = (RingRec.read (ofBytes (s.paBytes (leafAddr l va) 64))).freed) →
        s.portRead slot r (s.portSlot r va freed).1 64 = .ok (item, u) →
          (∀ (data : List Byte) (w : State), u.itemCheck n slot r item = .ok (data, w) →
            ∃ x : State, exec (.ueWorkItem port) s = .next x ∧ (x.uport n).work = some item
              ∧ x.out = w.out ++ [.net n (item ++ data)])
          ∧ ∀ status detail : BitVec 8, u.itemCheck n slot r item = .error (status, detail) →
            exec (.ueWorkItem port) s = .next (u.endItem n item status detail 0))
    ∧ ∀ (s : State) (port : BitVec 3) (item : List Byte) (status detail : BitVec 8) (moved : Nat) (data : List Byte),
      let n := port.toNat
      (s.uport n).work = some item → status = 0#8 ∨ status = 2#8 ∨ status = 3#8 →
        (¬(status = 0#8 ∧ itemOp item = 2) →
          exec (.ueWorkCompletion port status detail moved data) s =
            .next (s.endItem n item status detail (Nat.min moved (itemLen item))))
        ∧ ∀ (slot va : Nat) (r : Resident) (t : State), status = 0#8 → itemOp item = 2 → s.portRing n 0 = some (slot, r, va) →
          s.portWrite slot r (itemAddr item) (data.take (itemLen item)) = .ok t →
            exec (.ueWorkCompletion port status detail moved data) s =
              .next (t.endItem n item 0#8 detail (data.take (itemLen item)).length)

/-- The packets of an agent that arm, stop and let go (14 R387-R393), for a target launch that is current: ATTACH from an open
queue; DETACH ends the agent and its trace; ARM sets a trigger, of a DBGBRK id unless 64 other ids are armed, which is BADCONFIG
(14 R390), and DISARM removes it; STOP of a used group is taken up at
its next completion, of an unused group is DENIED (log 64), and of a context halts it; RELEASE ends the stops: every context takes
what its letting go gives it, and after a stop in the gang-stop form the job's cores run again; EVENT waits for a stop. -/
def Claims.DebugControl : Prop :=
  ∀ (s : State) (k : Packet) (rest : List Packet) (slot : Nat) (r : Resident),
    let q := s.focus.queue
    let t := s.taken q rest
    let kind := k.le 16 1
    let id := k.le 18 2
    s.targets q slot r →
      (s.packetIs q k rest 3 1 → k.zero 16 64 = true → s.job.debug = none → s.pt.debugOpen q = true →
        ∃ (u : State) (d : Debug), exec .attach s = .next u ∧ u.job.debug = some d ∧ d.queue = q ∧ d.triggers = [])
      ∧ ∀ d : Debug, s.attachedAs q d →
        (s.packetIs q k rest 3 2 → k.zero 16 64 = true →
          ∃ u : State, exec .detach s = .next u ∧ u.job.debug = none ∧ u.job.trace.on = false)
        ∧ (s.packetIs q k rest 3 3 → armLayout k = true →
          let others := d.triggers.filter fun y => !(y.kind == kind && y.id == id)
          let armed := (others.filter fun y => y.kind == 0).length
          (kind ≠ 0 ∨ armed < 64 →
            ∃ (u : State) (e : Debug) (x : Trigger), exec .arm s = .next u ∧ u.job.debug = some e ∧ x ∈ e.triggers
              ∧ x.kind = kind ∧ x.id = id ∧ x.value = k.le 24 8 ∧ x.len = k.le 32 8 ∧ x.stop = (k.bytes[17]?.getD 0#8).getLsbD 0
              ∧ x.read = (k.bytes[17]?.getD 0#8).getLsbD 1 ∧ x.write = (k.bytes[17]?.getD 0#8).getLsbD 2
              ∧ (∀ y ∈ e.triggers, y.kind = kind → y.id = id → y = x)
              ∧ ∀ y ∈ d.triggers, ¬(y.kind = kind ∧ y.id = id) → y ∈ e.triggers)
          ∧ (kind = 0 → 64 ≤ armed → exec .arm s = .next (t.finish k { status := 8 })))
        ∧ (s.packetIs q k rest 3 4 → triggerIndex kind id = true → k.zero 17 18 = true → k.zero 20 64 = true →
          ∃ (u : State) (e : Debug), exec .disarm s = .next u ∧ u.job.debug = some e
            ∧ (∀ y ∈ e.triggers, ¬(y.kind = kind ∧ y.id = id)) ∧ ∀ y ∈ d.triggers, ¬(y.kind = kind ∧ y.id = id) → y ∈ e.triggers)
        ∧ (s.packetIs q k rest 3 5 → k.zero 17 18 = true → k.zero 20 64 = true →
          (kind ≠ 0xFF → (s.job.group kind).nmem ≠ 0 →
            exec .stop s = .next ((t.onDebug fun d => { d with wantGroups := d.wantGroups ++ [kind] }).ok k))
          ∧ (kind ≠ 0xFF → (s.job.group kind).nmem = 0 → exec .stop s = .next (t.finish k { status := 9 }))
          ∧ (kind = 0xFF → s.pt.hasCtx id = true → (s.ctxAt (id / 11) (id % 11)).state ≠ .free →
            s.job.trace.on = false →
            ∃ u : State, exec .stop s = .next u ∧ (u.ctxAt (id / 11) (id % 11)).state = .halted))
        ∧ (s.packetIs q k rest 3 6 → k.zero 16 64 = true →
          ∃ u : State, exec .release s = .next u
            ∧ (∀ e : Debug, u.job.debug = some e → e.inForce = false ∧ e.gang = false)
            ∧ (d.gang = false → ∀ c n : Nat, u.ctxAt c n = (s.ctxAt c n).letGo t.pt)
            ∧ (d.gang = true → s.job.ending = false → u.job.stop = none ∧ ∀ c : Nat, (u.coreAt c).stopped = false))
        ∧ (s.packetIs q k rest 3 11 → k.zero 16 64 = true → d.past = [] →
          ∃ u : State, exec .event s = .next u ∧ u.job.debug = some { d with events := d.events ++ [k] })

/-- What the agent's stop lets go (14 R393): every stopped context takes STATE 1, one at a HALT at its successor and any other
at its program counter. What it still had in flight ends before it issues (the model's choice, log 44): until then it keeps
that wait and does not run. -/
def Claims.ReleasedContexts : Prop :=
  ∀ (p : Part) (x : Ctx), x.state = .halted →
    (x.letGo p).state = .ready ∧ (x.letGo p).g = x.g ∧ (x.letGo p).d = x.d
      ∧ (x.wait = .halt → (x.letGo p).pc = succ p x.pc ∧ (x.letGo p).wait = .none ∧ (x.letGo p).runnable = true)
      ∧ (x.wait ≠ .halt → x.wait.inFlight = false →
        (x.letGo p).pc = x.pc ∧ (x.letGo p).wait = .none ∧ (x.letGo p).runnable = true)
      ∧ (x.wait.inFlight = true → (x.letGo p).pc = x.pc ∧ (x.letGo p).wait = x.wait ∧ (x.letGo p).runnable = false)

/-- A debug agent attaches, arms, stops and releases. -/
def Obligations.DebugControl : Prop :=
  Claims.DebugControl ∧ Claims.ReleasedContexts

/-- The packets of an agent that read and write (14 R387, R394, R396, R399), for a target launch that is current: DUMP writes
the state of a stopped context or tile to the agent's buffer, POKE writes a register of a stopped context, each answered
BUSY where it runs; TRACE starts the stream or ends it; LOGCOPY writes the newest records of the Bell log. A packet whose buffer
lies on a tile that is paused stays at the head of its queue (11 R331). -/
def Obligations.DebugData : Prop :=
  ∀ (s : State) (k : Packet) (rest : List Packet) (slot : Nat) (r : Resident) (d : Debug),
    let q := s.focus.queue
    let t := s.taken q rest
    let item := k.le 16 1
    let id := k.le 18 2
    let v := BitVec.ofNat 64 (k.le 24 8)
    s.targets q slot r → s.attachedAs q d →
      (s.packetIs q k rest 3 7 → dumpLayout k = true →
        (item = 0 → s.pt.hasCtx id = true → s.job.ctxStopped id = true →
          exec .dump s = .next (t.agentWrite k (k.le 24 8) (s.ctxAt (id / 11) (id % 11)).dump fun s => s))
        ∧ (item = 0 → s.pt.hasCtx id = true → s.job.ctxStopped id = false → exec .dump s = .next (t.finish k { status := 6 }))
        ∧ (1 ≤ item → item ≤ 3 → (s.tileAt id).named = true → s.job.tileStopped id = true →
          exec .dump s = .next
            (t.agentWrite k (k.le 24 8) ((s.tileAt id).dump (s.job.scyc id) item (k.le 20 2) (k.le 22 2)) fun s => s)))
      ∧ (s.packetIs q k rest 3 8 → pokeLayout k = true → s.pt.hasCtx id = true →
        (item = 0 → s.job.ctxStopped id = true →
          ∃ u : State, exec .poke s = .next u
            ∧ ∀ g : BitVec 6, (u.ctxAt (id / 11) (id % 11)).rg g =
                if g.toNat = k.le 20 2 ∧ g ≠ 0#6 ∧ (s.ctxAt (id / 11) (id % 11)).active (gStream g) = false then v
                else (s.ctxAt (id / 11) (id % 11)).rg g)
        ∧ (item = 0 → s.job.ctxStopped id = false → exec .poke s = .next (t.finish k { status := 6 })))
      ∧ (s.packetIs q k rest 3 9 → traceLayout k = true →
        (k.le 32 8 = 0 → ∃ u : State, exec .trace s = .next u ∧ u.job.trace.on = false)
        ∧ (k.le 32 8 ≠ 0 → t.agentWaits (k.le 24 8) 64 = false → ∀ w : State, t.agentPut (k.le 24 8) (zeros 64) = .ok w →
          ∃ u : State, exec .trace s = .next u ∧ u.job.trace.on = true ∧ u.job.trace.buf = k.le 24 8
            ∧ u.job.trace.len = k.le 32 8 ∧ u.job.trace.head = 0))
      ∧ (s.packetIs q k rest 3 10 → k.zero 16 24 = true → k.zero 36 64 = true → 1 ≤ k.le 32 4 → k.le 32 4 ≤ 32768 →
        exec .logcopy s = .next (t.agentWrite k (k.le 24 8)
          ((s.job.bellLog.drop (s.job.bellLog.length - k.le 32 4)).flatMap fun r => toBytes 64 r.toNat)
          fun s => s.onJob fun j => { j with bellSeq := 0 }))
      ∧ ∀ (va : Nat) (l : List Byte) (fin : State → State),
        (t.agentWaits va l.length = true →
            t.agentWrite k va l fin = t.onPt fun p => p.onQueue k.queue fun y => { y with pending := k :: y.pending })
          ∧ (∀ u : State, t.agentWaits va l.length = false → t.agentPut va l = .ok u →
            t.agentWrite k va l fin = (fin (u.cleanVa va l.length)).flushAll.ok k)
          ∧ ∀ e : BitVec 8, t.agentWaits va l.length = false → t.agentPut va l = .error e → t.agentWrite k va l fin = t.finish k { status := 9, detail := e.toNat }

/-- LAUNCH and its loading (10 R304, R305, R309): with a placement record that passes its checks the launch takes the free
residency slot and loads, and otherwise completes BADPLACE; the end of loading frees the slot of an image that the verifier
refuses, and completes with its status, cause and place, after the EVENT packets that wait at the job's agent (13 R370), or makes the job READY with its shares, zero before, holding the data
blocks one after another: a block of the Mere, the Loft or local memory its bytes at its address in each tile or core it names. -/
def Claims.LaunchLoads : Prop :=
  (∀ (s : State) (k : Packet) (rest : List Packet) (slot : Nat),
    let q := s.focus.queue
    let pa := k.le 24 8
    s.atHead q k rest → k.kind = 1 → launchLayout k = true → s.pt.freeSlot = some slot →
      ((s.taken q rest).placeOkAt pa = true →
        ∃ (t : State) (r : Resident), exec .launch s = .next t ∧ SMap.get t.pt.res slot = some r ∧ r.state = .loading ∧ r.anum = k.num
          ∧ r.image = k.le 16 8 ∧ r.queue = q ∧ r.place = placeOf (s.paBytes pa 128) ∧ t.pt.cur = s.pt.cur ∧ s.bytesKept t)
      ∧ ((s.taken q rest).placeOkAt pa = false → exec .launch s = .next ((s.taken q rest).finish k { status := 0x1A })))
    ∧ (∀ (s : State) (slot : Nat) (r : Resident), s.pt.loadingSlot = some slot → SMap.get s.pt.res slot = some r →
      let img := s.imageLine r.place.root r.image
      let v := verify { part := s.pt, place := r.place, maps := s.rootMaps r.place.root } img
      (∀ o : Offence, v = .error o →
        ∃ t : State, exec .loadingComplete s = .next t ∧ SMap.get t.pt.res slot = none ∧ t.pt.cur = s.pt.cur
          ∧ t = ((s.endEvents r.saved s.pt.eventEnd).onPt (Part.vacate slot)).completePacket r.queue r.seq 1 r.anum
              { status := o.status, vcause := o.cause, tile := o.tile, line := o.line, slot := o.slot })
        ∧ ∀ m : Image, v = .ok m →
          ∃ (t : State) (x : Resident), exec .loadingComplete s = .next t ∧ SMap.get t.pt.res slot = some x ∧ x.state = .ready
            ∧ x.desc = m.desc ∧ x.codeFirst = m.head.code ∧ x.codeCount = m.head.ncode ∧ t.pt.cur = s.pt.cur
            ∧ (let u := (m.blocks.filter fun b => decide (b.kind ≤ 3)).foldl (State.loadBlock r.place.root)
                 (s.onPt (Part.zeroShares r.place))
               t.pt.mere = u.pt.mere ∧ t.pt.loft = u.pt.loft ∧ t.pt.loc = u.pt.loc ∧ t.hbm = u.hbm))
    ∧ (∀ (p : Part) (x : Place) (n i : Nat),
      (i < 2 ^ 21 → x.mbase * 65536 ≤ i → i < (x.mbase + x.mlen) * 65536 → SMap.get (p.zeroShares x).mere (n * 2 ^ 21 + i) = 0#8)
        ∧ (i < 2 ^ 17 → x.fbase * 65536 ≤ i → i < (x.fbase + x.flen) * 65536 →
            SMap.get (p.zeroShares x).loft (n * 2 ^ 17 + i) = 0#8)
        ∧ (i < 2 ^ 18 → x.lbase * 65536 ≤ i → i < (x.lbase + x.llen) * 65536 →
            SMap.get (p.zeroShares x).loc (n * 2 ^ 18 + i) = 0#8))
    ∧ ∀ (s : State) (root : Nat) (b : Block) (id : Nat), b.frm ≤ id → id ≤ b.toId →
      let t := s.loadBlock root b
      let holds := fun (m m' : Mem) (size : Nat) => b.addr + b.bytes.length ≤ size →
        (∀ i : Nat, i < b.bytes.length → SMap.get m' (id * size + b.addr + i) = (b.bytes[i]?).getD 0#8)
          ∧ ∀ i : Nat, i < b.addr ∨ b.addr + b.bytes.length ≤ i → i < size → SMap.get m' (id * size + i) = SMap.get m (id * size + i)
      (b.kind = 0 → holds s.pt.mere t.pt.mere (2 ^ 21)) ∧ (b.kind = 1 → holds s.pt.loft t.pt.loft (2 ^ 22))
        ∧ (b.kind = 2 → holds s.pt.loc t.pt.loc (2 ^ 18))

/-- The launch epoch (10 R309, R312; 11 R338): with no job current a READY job becomes current, its clocks at zero, its
partition words those of its descriptor and context 0 of the cores that its chains name ready at their first line (the search
for its first slot is log 89's), with the argument in G1, every other context free; in a chain step 4 is reported first with the
package's own words, and the epoch falls in the cycle that position 0 announces, 512 tc ahead or more, once all have reported;
reports that contradict each other refuse the launch, and a member that leaves ends it (the form of the reports and when they are
compared is log 92). -/
def Claims.LaunchEpochs : Prop :=
  ∀ (s : State) (k : Nat) (r : Resident), s.pt.cur = none → s.pt.nextReady = some k → SMap.get s.pt.res k = some r →
    (s.pt.switch = none → s.pt.ckpt = none → s.pt.aborting = false → s.pt.chained = false →
      ∃ (t : State) (x : Resident), exec .launchEpoch s = .next t ∧ t.pt.cur = some k ∧ SMap.get t.pt.res k = some x
        ∧ x.state = .current ∧ t.pt.det = r.desc.det ∧ t.pt.seed = r.desc.seed ∧ t.pt.ratio = r.desc.ratio
        ∧ t.job.tb = 0 ∧ t.job.dc = 0 ∧ t.job.groups = r.groups ∧ t.job.owned = r.owned ∧ t.job.stop = none
        ∧ ∀ c : Nat, c < s.pt.coreCount →
          let first := r.chains.find? fun e => e.eng == 0 && decide (e.frm ≤ c) && decide (c ≤ e.toId)
          (∀ e, first = some e →
            ((t.job.core c).ctx 0).state = .ready ∧ ((t.job.core c).ctx 0).pc = enterLine t.pt 64 e.first
              ∧ ((t.job.core c).ctx 0).rg 1#6 = if r.useArg = true then r.arg else r.desc.arg)
          ∧ (first = none → ((t.job.core c).ctx 0).state = .free)
          ∧ ∀ n : Nat, n ≠ 0 → ((t.job.core c).ctx n).state = .free)
      ∧ (s.pt.switch = none → s.pt.ckpt = none → s.pt.aborting = false → s.pt.chained = true → r.stepFour = false →
        ∃ (t : State) (x : Resident), exec .launchEpoch s = .next t ∧ SMap.get t.pt.res k = some x ∧ x.stepFour = true
          ∧ t.pt.cur = none ∧ t.out = s.out ++ [.member (s.pt.member r)])
      ∧ (s.pt.chained = true → r.stepFour = true → r.announced = none →
        (∀ c : Nat, s.pt.members.any (s.pt.disagrees r) = false →
          (s.pt.position = 0 → s.pt.allReady = true → s.clock / 2 + 512 ≤ c →
            ∃ (t : State) (x : Resident), exec (.epochAnnounce (some c)) s = .next t ∧ SMap.get t.pt.res k = some x
              ∧ x.announced = some c ∧ t.out = s.out ++ [.announce c])
          ∧ (s.pt.position = 0 → s.pt.allReady = false ∨ c < s.clock / 2 + 512 →
            exec (.epochAnnounce (some c)) s = .next s)
          ∧ (s.pt.position ≠ 0 →
            ∃ (t : State) (x : Resident), exec (.epochAnnounce (some c)) s = .next t ∧ SMap.get t.pt.res k = some x
              ∧ x.announced = some c ∧ t.out = s.out))
        ∧ (∀ tb : Option Nat, s.pt.members.any (s.pt.disagrees r) = true →
          ∃ t : State, exec (.epochAnnounce tb) s = .next t ∧ SMap.get t.pt.res k = none)
        ∧ ∃ t : State, exec .chainMemberLeft s = .next t ∧ SMap.get t.pt.res k = none)

/-- A launch takes its slot, loads, and begins at its epoch. -/
def Obligations.LaunchBegins : Prop :=
  Claims.LaunchLoads ∧ Claims.LaunchEpochs

/-- The end of a launch by the Bell (10 R322): a sweep of a job that has been quiet since the last one, with the same equal
sums, ends it; a sweep of one that is not quiet, or has just been woken, forgets the last; and off the multiples of 2,048 dc
there is no sweep. -/
def Claims.BellEndsLaunch : Prop :=
  ∀ (s : State) (k : Nat) (r : Resident), s.pt.cur = some k → SMap.get s.pt.res k = some r → s.pt.switch = none → s.job.stop = none →
    (s.job.dc % 2048 = 0 →
      (∀ q start : Nat, s.job.quietFrom = some q → q ≤ start → start < s.job.dc →
        s.job.sweep = some (s.job.sums.1, s.job.sums.1, start) → s.job.sums.2 = s.job.sums.1 → s.pt.quiet = true →
        ∃ t : State, exec .bellSweep s = .next t ∧ t.pt.cur = none ∧ SMap.get t.pt.res k = none)
      ∧ (s.pt.quiet = false ∨ s.job.quietFrom = none → exec .bellSweep s = .next (s.onJob fun j => { j with sweep := none })))
      ∧ (s.job.dc % 2048 ≠ 0 → exec .bellSweep s = .next s)

/-- The change of the current job (10 R312; 12 R355-R357): QUANTUM_EXPIRY stops the current job when the other one waits with a
higher priority, but a job with a debug stop in force only once its quantum is used, which ends that stop (14 R391); the stop
and the drain end when every node and core has stopped and all is performed, with the messages that no mailbox took in the
shadow message buffer; the swap saves the job, its debug agent and its trace with it as the model chooses (log 71), and reads the
other back as it was saved: its times, its tiles, its groups and its posts, and each context that waits for nothing, with the
stop over, each node then serving the rest of one common pause of whole frames (log 68); a stage does not begin early, nor at all
under a fault that ends the launch. -/
def Claims.JobsChange : Prop :=
  (∀ (s : State) (k : Nat) (c h : Resident), s.pt.cur = some k → SMap.get s.pt.res k = some c → SMap.get s.pt.res (1 - k) = some h →
    s.pt.switch = none → s.pt.ckpt = none → s.job.stop = none →
      (h.state = .ready ∨ h.state = .shadow → c.prio < h.prio → s.job.debugStopped = false →
        ∃ t : State, exec .quantumExpiry s = .next t ∧ t.pt.switch = some { stage := .stop, toId := some (1 - k), since := 0 }
          ∧ t.job.stop.isSome = true)
      ∧ (h.state = .ready ∨ h.state = .shadow → c.prio ≤ h.prio → c.quota ≠ 0 → c.quota ≤ c.used →
        ∃ t : State, exec .quantumExpiry s = .next t ∧ t.pt.switch = some { stage := .stop, toId := some (1 - k), since := 0 }
          ∧ t.job.stop.isSome = true ∧ t.job.debugStopped = false)
      ∧ (s.job.debugStopped = true → c.quota = 0 ∨ c.used < c.quota → exec .quantumExpiry s = .next s)
      ∧ (h.prio < c.prio → exec .quantumExpiry s = .next s) ∧ (h.state = .loading → exec .quantumExpiry s = .next s))
    ∧ (∀ (s : State) (w : Switch), s.pt.switch = some w →
      (w.stage = .stop → s.pt.allStopped = true → s.job.ending = false →
        exec .switchDrainComplete s = .next (s.onPt fun p => { p with switch := some { w with stage := .drain, since := 0 } }))
      ∧ (w.stage = .stop → s.pt.allStopped = false → exec .switchDrainComplete s = .next s)
      ∧ (w.stage = .drain → s.job.drained false = true → s.job.ending = false → s.pt.cur = none ∨ w.toId = none →
        exec .switchDrainComplete s = .next (s.onPt fun p => { p with switch := some { w with stage := .swap, since := 0 } }))
      ∧ (∀ (k h : Nat) (c : Resident), w.stage = .drain → s.job.drained false = true → s.job.ending = false → s.pt.cur = some k →
        w.toId = some h → SMap.get s.pt.res k = some c →
        ∃ (t : State) (x : Resident), exec .switchDrainComplete s = .next t
          ∧ t.pt.switch = some { w with stage := .swap, since := 0 } ∧ SMap.get t.pt.res k = some x
          ∧ x.msgs = c.msgs ++ s.job.cores.flatMap (fun y => (y.2.spill ++ y.2.netif).map fun e => (y.1, e))
          ∧ ∀ n : Nat, (t.job.core n).spill = [] ∧ (t.job.core n).netif = [] ∧ (t.job.core n).mbox = (s.job.core n).mbox)
      ∧ (w.stage = .drain → s.job.drained false = false → exec .switchDrainComplete s = .next s)
      ∧ (w.stage ≠ .swap → s.job.ending = true → exec .switchDrainComplete s = .next s))
    ∧ ∀ (s : State) (k h n : Nat) (c r : Resident), s.pt.cur = some k → h ≠ k → SMap.get s.pt.res k = some c →
      SMap.get s.pt.res h = some r → s.pt.switch = some { stage := .swap, toId := some h, since := n } → r.state = .shadow →
      r.saved.debug = none → r.msgs = [] → s.pt.saveError = none → s.job.ending = false →
      ∃ (t : State) (x : Resident), exec (.switchSwapComplete none none) s = .next t ∧ t.pt.cur = some h ∧ t.pt.switch = none
        ∧ SMap.get t.pt.res k = some x ∧ x.state = .shadow ∧ x.saved = s.job
        ∧ t.job.tb = r.saved.tb ∧ t.job.phase = r.saved.phase ∧ t.job.tiles = r.saved.tiles ∧ t.job.groups = r.saved.groups
        ∧ t.job.posts = r.saved.posts ∧ t.job.trace = r.saved.trace ∧ t.job.debug = none ∧ t.job.stop = none
        ∧ (∀ c i : Nat, ((r.saved.core c).ctx i).wait = .none → (∀ m : Nat, (r.saved.hamlet m).reqs = []) →
            (t.job.core c).ctx i = (r.saved.core c).ctx i)
        ∧ (∃ len : Nat, len % 32 = 0
          ∧ (∀ (m : Nat) (p : Nat × Nat), m ∈ s.pt.nodes → (r.saved.node m).stop = some p → (r.saved.node m).h - p.2 ≤ len
              ∧ t.job.node m =
                  { r.saved.node m with owed := (r.saved.node m).owed + (len - ((r.saved.node m).h - p.2)), stop := none })
          ∧ ∀ l : Nat, l % 32 = 0 →
              (∀ (m : Nat) (p : Nat × Nat), m ∈ s.pt.nodes → (r.saved.node m).stop = some p → (r.saved.node m).h - p.2 ≤ l) → len ≤ l)
        ∧ t.pt.mere = s.pt.mere ∧ t.pt.loft = s.pt.loft ∧ t.pt.loc = s.pt.loc ∧ t.hbm = s.hbm

/-- The Bell ends a launch; two resident jobs change places. -/
def Obligations.LaunchEndsOrSwitches : Prop :=
  Claims.BellEndsLaunch ∧ Claims.JobsChange

/-- Failures of links stop the partition with cause 0x19 and their own DETAIL (12 R342): a bridge flit that times out, a
Causeway retry that times out, a lost reference, and a chain member that has left, the last two with the chain's origin as the
model chooses it (log 42). A retried flit raises a hold until it comes. -/
def Obligations.LinkFailures : Prop :=
  ∀ s : State, s.pt.cur.isSome = true → s.job.stop = none →
    let stops := fun (i : Instr) (o : Origin) (d : BitVec 8) =>
      ∃ t : State, exec i s = .next t
        ∧ t.job.stop = some { origin := o, cause := 0x19#8, detail := d, cause2 := 0#8, aux := 0#64, tb := s.job.tb }
    (s.focus.tile < s.pt.tileCount → s.pt.onBridge s.focus.tile = true → stops .bridgeFlitTimeout (.tile s.focus.tile) 0x01#8)
      ∧ (∀ (w : Bool) (l : BitVec 3), ((if w then 0 else 1), l.toNat) ∈ s.pt.causeways →
        stops (.causewayRetryTimeout w l) (.causeway ((if w then 0 else 1) * 8 + l.toNat)) 0x02#8)
      ∧ (s.pt.chained = true → s.pt.position ≠ 0 → stops .causewayLockLoss s.pt.chainOrigin 0x06#8)
      ∧ (s.pt.chained = true → stops .chainMemberLeft s.pt.chainOrigin 0x05#8)
      ∧ (s.pt.chained = false → exec .chainMemberLeft s = .next s ∧ exec .causewayLockLoss s = .next s)
      ∧ (∀ d : Nat, 0 < d → d ≤ 1024 → s.job.begins s.focus.tile = true → s.pt.onBridge s.focus.tile = true →
        (s.bridgeBeat s.focus.tile = true → exec (.bridgeFlitRetry d) s = .next (s.retryHold s.focus.tile d))
          ∧ (s.bridgeBeat s.focus.tile = false → exec (.bridgeFlitRetry d) s = .next s))
      ∧ ∀ (w : Bool) (l : BitVec 3) (d : Nat), 0 < d → d ≤ 4096 → ((if w then 0 else 1), l.toNat) ∈ s.pt.causeways →
        s.job.begins (causewayNode (if w then 0 else 1) l.toNat) = true →
        exec (.causewayRetry w l d) s = .next (s.retryHold (causewayNode (if w then 0 else 1) l.toNat) d)

/-- The partial-work report of a job in a buffer of n bytes (12 R352; 13 R372): the header, with the stop's cause, origin, time and
AUX and the full counts of the five sections; after it, where they fit, all entries, in the order of the counts, and otherwise the
TRUNC bit. -/
def Claims.ReportHeader : Prop :=
  (∀ (j : Job) (g : GangStop) (n : Nat), 64 ≤ n →
    let l := j.report g n
    let at_ := fun (b k : Nat) => (l.drop b).take k
    let tiles := (j.tiles.filter fun x => x.2.named).map fun x => j.tileEntry g.origin x.1 x.2
    let ctxs := j.cores.flatMap fun c =>
      (c.2.ctxs.filter fun x => x.2.state != .free && decide (x.1 < 11)).map fun x => ctxEntry g.origin c.2 (11 * c.1 + x.1) x.2
    let copies := j.hamlets.flatMap fun h => h.2.ops.filterMap fun x => x.2.map fun y => copyEntry x.1 y
    let steps := (j.groups.filter fun x => decide (0 < x.2.nmem)).map fun x => stepEntry x.1 (j.reportedGroup x.1 x.2)
    let colls := j.collisions.map collEntry
    let body := (tiles ++ ctxs ++ copies ++ steps ++ colls).flatten
    l.length ≤ n ∧ at_ 0 4 = [g.cause, g.detail, BitVec.ofNat 8 g.origin.kind, g.cause2] ∧ at_ 4 4 = toBytes 4 g.origin.id
      ∧ at_ 8 8 = toBytes 8 g.tb ∧ at_ 16 8 = toBytes 8 g.aux.toNat
      ∧ at_ 24 20 = toBytes 4 tiles.length ++ toBytes 4 ctxs.length ++ toBytes 4 copies.length ++ toBytes 4 steps.length ++ toBytes 4 colls.length
      ∧ at_ 45 19 = zeros 19
      ∧ (64 + body.length ≤ n → at_ 44 1 = [0#8] ∧ l.drop 64 = body)
      ∧ (n < 64 + body.length → at_ 44 1 = [1#8]))
    ∧ ∀ k : Nat, ((Origin.tile k).kind = 0 ∧ (Origin.tile k).id = k) ∧ ((Origin.sluice k).kind = 1 ∧ (Origin.sluice k).id = k)
        ∧ ((Origin.causeway k).kind = 2 ∧ (Origin.causeway k).id = k) ∧ ((Origin.ctx k).kind = 3 ∧ (Origin.ctx k).id = k)
        ∧ (Origin.steward.kind = 4 ∧ Origin.steward.id = 0) ∧ (Origin.core k).kind = 5 ∧ (Origin.core k).id = k

/-- The entries of the report (12 R353): of a stopped tile, of a context, of a copy operation, of a step group and of a colliding
word, each of its size and with each field at its place. -/
def Claims.ReportEntries : Prop :=
  (∀ (j : Job) (o : Origin) (t : Nat) (x : Tile) (y : Nat × Nat), (j.node t).stop = some y →
    let l := j.tileEntry o t x
    let at_ := fun (b k : Nat) => (l.drop b).take k
    let next := fun (e : Nat) => if x.chains.any (fun z => z.1 == e) = true ∧ (SMap.get x.chains e).live = true then
      8 * (SMap.get x.chains e).line + (SMap.get x.chains e).slot else 0xFFFFFFFF
    l.length = 64 ∧ at_ 0 2 = toBytes 2 t
      ∧ at_ 2 6 = [BitVec.ofNat 8 ((if o = .tile t then 1 else 0) + (if x.failed.isSome = true then 2 else 0)), 0#8, 0#8, 0#8, 0#8, 0#8]
      ∧ at_ 8 8 = toBytes 8 y.1 ∧ at_ 16 8 = toBytes 8 x.tstat.toNat ∧ at_ 24 8 = toBytes 8 x.superstep
      ∧ at_ 32 16 = toBytes 4 (next 1) ++ toBytes 4 (next 2) ++ toBytes 4 (next 3) ++ toBytes 4 (next 4)
      ∧ (x.failed = none → at_ 48 8 = zeros 8)
      ∧ (∀ p q w : Nat, x.failed = some (p, q, w) →
          at_ 48 8 = toBytes 4 p ++ [BitVec.ofNat 8 (q / 16), BitVec.ofNat 8 (q % 16), BitVec.ofNat 8 w, 0#8])
      ∧ at_ 56 8 = toBytes 8 x.sweepsDone)
    ∧ (∀ (o : Origin) (c : Core) (g : Nat) (x : Ctx),
      let resume := if x.sys = none then x.pc else x.frec0.extractLsb' 35 29
      ctxEntry o c g x = toBytes 2 g ++ [BitVec.ofNat 8 (CtxState.code x.state), if o = .ctx g then 1#8 else 0#8]
        ++ toBytes 4 resume.toNat ++ toBytes 8 x.steps ++ toBytes 8 c.sent.toNat ++ toBytes 8 c.rcvd.toNat)
    ∧ (∀ (id : Nat) (o : CopyOp),
      let flags := match o.susp with
        | some h => 1 + (if h.detail.getLsbD 6 = true then 2 else 0) + (if h.detail.getLsbD 7 = true then 128 else 0)
        | none => 0
      ∃ i0 i1 i2 i3 : Nat, copyEntry id o = toBytes 2 (11 * o.core + o.ctx) ++ [BitVec.ofNat 8 id, BitVec.ofNat 8 o.kind.num, BitVec.ofNat 8 flags]
          ++ zeros 3 ++ toBytes 4 o.applied ++ toBytes 4 o.skipped ++ toBytes 4 i0 ++ toBytes 4 i1 ++ toBytes 4 i2 ++ toBytes 4 i3
        ∧ ∀ (h : HeldFault) (p : Affine) (n0 n1 n2 n3 : Nat), o.susp = some h →
            (if h.detail.getLsbD 6 = true then o.dlay else o.slay) = .affine p → p.cnt = [n0, n1, n2, n3] →
            o.next < n0 * n1 * n2 * n3 → i0 + n0 * (i1 + n1 * (i2 + n2 * i3)) = o.next ∧ i0 < n0 ∧ i1 < n1 ∧ i2 < n2)
    ∧ (∀ (g : Nat) (x : Group), stepEntry g x = [BitVec.ofNat 8 g, 0#8] ++ toBytes 2 x.arr ++ zeros 4 ++ toBytes 8 x.count)
    ∧ ∀ (core : Bool) (id r w : Nat) (writers : List Nat), ∃ ws : List Nat, ws.Perm writers ∧ ws.Pairwise (· ≤ ·)
      ∧ collEntry (core, id, r, w, writers) = toBytes 2 (id + if core = true then 0x8000 else 0)
          ++ [BitVec.ofNat 8 r, BitVec.ofNat 8 (min writers.length 255)] ++ toBytes 4 w
          ++ ((List.range 8).flatMap fun i => toBytes 2 ((ws[i]?).getD 0xFFFF)) ++ zeros 8

/-- The end of a stop (12 R348-R353, R359): the halt tree stops the core in focus; once a fatal stop has reached every node
and core and what was begun is performed, the report is written into the buffer of REPLEN · 4 KiB at REPVA, whose physical address
stands in the completion record (13 R372), and the launch ends with the stop's cause, FAULT, or ABORTED under a QUIESCE with FORCE
(13 R375), and not before; a node held for 2^24 tc
stops the partition with cause 0x1A, a stop or a drain that takes too long ends the job, and a swap that does resets the partition, its
Mere, Loft and local memory at their power-on contents (log 69; zero, log 4), unless a fault has begun to end it. -/
def Claims.StopsEnd : Prop :=
  (∀ s : State, (s.job.stop.isSome = true → ∃ t : State, exec .haltTreeArrival s = .next t ∧ t.cr.stopped = true ∧ s.bytesKept t)
      ∧ (s.job.stop = none → exec .haltTreeArrival s = .next s))
    ∧ (∀ (s : State) (g : GangStop) (k : Nat) (r : Resident), s.job.stop = some g → g.fatal = true ∨ s.pt.aborting = true →
      s.pt.cur = some k → SMap.get s.pt.res k = some r →
      (s.pt.allStopped = true → s.job.drained true = true →
        (∃ t : State, exec .partialWorkReport s = .next t ∧ t.pt.cur = none ∧ SMap.get t.pt.res k = none)
        ∧ let p := s.pt.place
          let ended := fun (report : Nat) => ({ status := if s.pt.aborting = true then 2 else 1, cause := g.cause.toNat
                                                detail := g.detail.toNat, report := report } : Done)
          (p.replen = 0 → exec .partialWorkReport s = .next (s.endCurrent (ended 0)))
            ∧ (s.nearWritable p.repva = none → exec .partialWorkReport s = .next (s.endCurrent (ended 0)))
            ∧ ∀ (u : State) (a : Nat), 0 < p.replen → s.nearWritable p.repva = some a →
                (∀ i : Nat, i < p.replen → p.repva + 4096 * i < 2 ^ 56 ∧ (s.nearWritable (p.repva + 4096 * i)).isSome = true) →
                s.vaStore p.repva (s.job.report g (4096 * p.replen)) = some u →
                exec .partialWorkReport s = .next (u.endCurrent (ended a)))
      ∧ (s.pt.allStopped = false ∨ s.job.drained true = false → exec .partialWorkReport s = .next s))
    ∧ (∀ (s : State) (n : Nat), s.pt.switch = none → s.job.stop = none →
      (s.job.hung = some n →
        ∃ (t : State) (g : GangStop), exec .hangWatchdog s = .next t ∧ t.job.stop = some g ∧ g.origin = originOf n
          ∧ g.cause = 0x1A#8 ∧ g.detail = 0x01#8)
      ∧ (s.job.hung = none → exec .hangWatchdog s = .next s))
    ∧ ∀ (s : State) (w : Switch), s.pt.switch = some w →
      (s.job.ending = true → exec .hangWatchdog s = .next s)
      ∧ (w.stage = .stop ∨ w.stage = .drain → s.job.ending = false → 2 ^ 20 < w.since → s.pt.cur.isSome = true →
        s.pt.current.isSome = true →
        (∃ t : State, exec .hangWatchdog s = .next t ∧ t.pt.cur = none)
          ∧ (s.pt.place.replen = 0 →
              exec .hangWatchdog s = .next (s.endCurrent { status := 1, cause := 0x1A, detail := 2, report := 0 })))
      ∧ (w.stage = .stop ∨ w.stage = .drain → w.since ≤ 2 ^ 20 → exec .hangWatchdog s = .next s)
      ∧ (w.stage = .swap → s.job.ending = false → w.toId.isSome = true → 16384 < w.since →
        ∃ t : State, exec .hangWatchdog s = .next t ∧ t.pt.cur = none ∧ t.pt.mere = [] ∧ t.pt.loft = [] ∧ t.pt.loc = [])
      ∧ (w.since ≤ 16384 → exec .hangWatchdog s = .next s)

/-- A stop ends: what it reports, and when. -/
def Obligations.StopsEnd : Prop :=
  Claims.ReportHeader ∧ Claims.ReportEntries ∧ Claims.StopsEnd

/-- Switching contexts (10 R314-R316): the core goes to the first context after the last one, in ring order, that may run;
a context that has issued 256 instructions gives the core up, ready, and not before. -/
def Claims.ContextsSwitch : Prop :=
  (∀ (c : Core) (k : Nat), c.pick = some k →
      ∃ i : Nat, i < 11 ∧ k = (c.last + 1 + i) % 11 ∧ (c.ctx k).runnable = true
        ∧ ∀ j : Nat, j < i → (c.ctx ((c.last + 1 + j) % 11)).runnable = false)
    ∧ (∀ s : State, s.cr.running = none → s.cr.preempted = false → s.cr.stopped = false →
      (∀ k : Nat, s.cr.pick = some k →
        ∃ t : State, exec .contextSwitch s = .next t ∧ t.cr.running = some k ∧ t.cr.count = 0
          ∧ t.cr.ctx k = (s.cr.ctx k).take ∧ (∀ j : Nat, j ≠ k → t.cr.ctx j = s.cr.ctx j) ∧ s.bytesKept t)
      ∧ (s.cr.pick = none → ∃ t : State, exec .contextSwitch s = .next t ∧ t.cr.running = none ∧ t.cr.ctxs = s.cr.ctxs))
    ∧ ∀ (s : State) (k : Nat), s.cr.running = some k →
      exec .contextSwitch s = .next s
        ∧ (s.cr.count < 256 → exec .forcedSwitch s = .next s)
        ∧ (256 ≤ s.cr.count →
          ∃ t : State, exec .forcedSwitch s = .next t ∧ t.cr.running = none ∧ t.cr.last = k ∧ s.bytesKept t
            ∧ ((s.cr.ctx k).state = .running ∨ (s.cr.ctx k).state = .upcall → t.cr.ctx k = { s.cr.ctx k with state := .ready }))

/-- Pre-emption of one core (12 R354, R355): at an instruction boundary of the running context a resident handler takes the core
with that context saved, and not amid an access that keeps the core; what waits in
the network interface is spilled ahead of what comes later; when it leaves, the context's registers are as they were saved
and its forced-switch count is zero. The handler that the service context runs ends with that one's work. -/
def Claims.PreemptionRestores : Prop :=
  (∀ s : State, s.cr.preempted = false → s.cr.atBoundary = true →
    ∃ t : State, exec (.preempt false) s = .next t ∧ t.cr.preempted = true
      ∧ t.cr.save = (s.cr.running.map fun k => (k, s.cr.ctx k)) ∧ t.cr.ctxs = s.cr.ctxs
      ∧ t.cr.spill = s.cr.spill ++ s.cr.netif ∧ t.cr.netif = [] ∧ t.cr.mbox = s.cr.mbox ∧ s.bytesKept t)
    ∧ (∀ (s : State) (k : Nat) (x : Ctx), s.cr.preempted = true → s.hm.serving = false ∨ s.focus.core % 8 ≠ 0 →
      s.cr.save = some (k, x) → (s.cr.ctx k).wait = .none →
      ∃ t : State, exec (.preempt true) s = .next t ∧ t.cr.preempted = false ∧ t.cr.save = none ∧ t.cr.count = 0
        ∧ (t.cr.ctx k).g = x.g ∧ (t.cr.ctx k).d = x.d ∧ (t.cr.ctx k).pc = x.pc ∧ (t.cr.ctx k).frec0 = x.frec0 ∧ s.bytesKept t)
    ∧ ∀ s : State, (s.cr.preempted = true ∨ s.cr.atBoundary = false → exec (.preempt false) s = .next s)
        ∧ (s.cr.preempted = false → exec (.preempt true) s = .next s)
        ∧ (s.hm.serving = true → s.focus.core % 8 = 0 → exec (.preempt true) s = .next s)

/-- Contexts take the core in ring order; pre-emption gives it back unchanged. -/
def Obligations.ContextSwitching : Prop :=
  Claims.ContextsSwitch ∧ Claims.PreemptionRestores

/-- Instruction fills and walks (05 R150; 08 R251-R254): the line that a context waits for is fetched and the context is
ready to issue; one that does not translate, or may not be executed, is that fault; a core that a stop has reached fetches
nothing; a walk marks its entry accessed, and dirty for a store, and loads the TLBs of the core and the hamlet, which hold 64
and 2,048 entries; a walk that shares a table with a TLBI in progress installs nothing. Which entry a full TLB gives up is a
free value (log 2). -/
def Claims.FillsAndWalks : Prop :=
  (∀ (s t : State) (l : Nat) (r : Resident) (pa pa2 : Nat) (nc : Bool), s.cx.wait = .line l → s.pt.current = some r →
    s.cr.stopped = false →
    (s.range .fetch (r.image + 64 * l) 64 = .ok pa pa2 nc t → t.pt.poisoned (t.pt.home pa) = false → t.cx.state ≠ .halted →
      ∃ u : State, exec .icacheFillComplete s = .next u ∧ l ∈ u.cr.icache ∧ u.cx = { t.cx with state := .ready, wait := .none }
        ∧ t.bytesKept u)
      ∧ (∀ d : BitVec 8, s.range .fetch (r.image + 64 * l) 64 = .trans d →
        exec .icacheFillComplete s = .next (s.transFault d (BitVec.ofNat 64 (r.image + 64 * l)) true))
      ∧ ∀ d : BitVec 8, s.range .fetch (r.image + 64 * l) 64 = .perm d →
        exec .icacheFillComplete s = .next (s.fault 0x09#8 d (BitVec.ofNat 64 (r.image + 64 * l))))
    ∧ (∀ (s : State) (l : Nat), s.cx.wait = .line l → s.cr.stopped = true → exec .icacheFillComplete s = .next s)
    ∧ ∀ (s : State) (va : BitVec 56) (store : Bool),
      (∀ (a : Nat) (l : Word), (s.walkHeld va.toNat).1 = .leaf a l →
        let d := coreTlb s.focus.core false
        let h := s.pt.hamletTlb (hamletOf s.focus.core)
        let e := tlbOf s.slot va.toNat (leafMarked store l)
        ∃ t : State, exec (.pageWalk va store) s = .next t
          ∧ (s.focus.core < s.pt.coreCount → s.job.tlbiOver va.toNat = false →
            t.pt.tlb d = tlbPut 64 (Config.freeTag s.free) (s.pt.tlb d) s.slot va.toNat e
              ∧ t.pt.tlb h = tlbPut 2048 (Config.freeTag s.free) (s.pt.tlb h) s.slot va.toNat e)
          ∧ (s.job.tlbiOver va.toNat = true → t.pt.tlbs = s.pt.tlbs ∧ t.pt.ptrs = s.pt.ptrs)
          ∧ (s.plainBytes a 8 → leafMarked store l ≠ l →
            s.stored t a 8 fun i => (leafMarked store l).extractLsb' (8 * i) 8))
        ∧ ∀ d : BitVec 8, (s.walkHeld va.toNat).1 = .trans d → exec (.pageWalk va store) s = .next s

/-- TLB_ACKNOWLEDGE (12 R360, R361): a TLB acknowledges a pending TLBI once no access of the range is outstanding, its matching
entries gone and no other, and the last acknowledgement completes the TLBI; before that it does nothing. PENDING_QUEUE_RETURN
(10 R322): in the quiet condition every hamlet's pending entries go back, and otherwise none. -/
def Claims.AcknowledgesAndReturns : Prop :=
  (∀ (s : State) (k : TlbK) (lo hi : Nat) (acked : List Nat), s.cx.wait = .pend (.tlbi k lo hi acked) →
    let n := s.focus.tile
    (n < s.pt.tlbCount → n ∉ acked → s.pt.tlbBusy n lo hi = false →
      (acked.length + 1 = s.pt.tlbCount → exec .tlbAcknowledge s = .next (s.tlbDrop n lo hi).complete)
        ∧ (acked.length + 1 ≠ s.pt.tlbCount →
          exec .tlbAcknowledge s =
            .next ((s.tlbDrop n lo hi).onCx fun c => { c with wait := .pend (.tlbi k lo hi (acked ++ [n])) })))
      ∧ (s.pt.tlbBusy n lo hi = true → exec .tlbAcknowledge s = .next s))
    ∧ (∀ (s : State) (n lo hi : Nat),
      (∀ e ∈ (s.tlbDrop n lo hi).pt.tlb n, e.hit lo hi = false)
        ∧ (∀ e ∈ s.pt.tlb n, e.hit lo hi = false → e ∈ (s.tlbDrop n lo hi).pt.tlb n)
        ∧ ∀ m : Nat, m ≠ n → (s.tlbDrop n lo hi).pt.tlb m = s.pt.tlb m)
    ∧ ∀ s : State,
      (s.pt.quiet = true → ∃ t : State, exec .pendingQueueReturn s = .next t ∧ s.bytesKept t
        ∧ ∀ h : Nat, h < s.pt.hamletCount → (t.job.hamlet h).pendq = [])
      ∧ (s.pt.quiet = false → exec .pendingQueueReturn s = .next s)

/-- The advice for the one page counted in an epoch (08 R259, R260), FREE at its address and DEPTH given: none below THR fills, of a page on
the quarter's own stacks, or of a static segment's (08 R257); else as the first row of R259 that holds says. An item is published
by producer 31 with the bytes of R260, and the quarter's DROP restarts; where its reservation fails DROP rises by one. That a page is
judged where its first byte lies is the model's choice (log 60). -/
def Claims.AdviceForPage : Prop :=
  ∀ (s : State) (depth k free : Nat) (x : PageStat), s.pt.cur.isSome = true → s.pt.det = false → s.pt.place.advring ≠ 0 →
    s.job.pages = [(k, x)] → s.vaWord s.pt.place.freeaddr = some free →
    let p := s.pt.place
    let q := k / 2 ^ 40
    let page := k % 2 ^ 40
    let drop := SMap.get s.job.advDrop q
    let quarters := ((List.range 4).filter fun n => x.askers.getLsbD n).length
    let none_ := ∃ t : State, exec (.advisorEpochEnd depth) s = .next t ∧ t.job.pages = [] ∧ t.job.advEpoch = s.job.advEpoch + 1
      ∧ t.job.advDrop = s.job.advDrop ∧ s.bytesKept t
    let gives := fun (a : Byte) =>
      let item := toBytes 8 (page * 65536) ++ [a, BitVec.ofNat 8 q, 0#8, 0#8] ++ toBytes 4 x.fills ++ toBytes 8 s.job.advEpoch
        ++ toBytes 8 drop
      (∀ u : State, s.draw.ringItem p.advring 31 item = some u →
        ∃ t : State, exec (.advisorEpochEnd depth) s = .next t ∧ t.job.pages = [] ∧ t.job.advEpoch = s.job.advEpoch + 1
          ∧ SMap.get t.job.advDrop q = 0 ∧ (∀ n : Nat, n ≠ q → SMap.get t.job.advDrop n = SMap.get s.job.advDrop n) ∧ u.bytesKept t)
      ∧ (s.draw.ringItem p.advring 31 item = none →
        ∃ t : State, exec (.advisorEpochEnd depth) s = .next t ∧ t.job.pages = [] ∧ t.job.advEpoch = s.job.advEpoch + 1
          ∧ SMap.get t.job.advDrop q = min (drop + 1) (2 ^ 64 - 1)
          ∧ (∀ n : Nat, n ≠ q → SMap.get t.job.advDrop n = SMap.get s.job.advDrop n) ∧ s.bytesKept t)
    (x.fills < p.thr → none_)
      ∧ (p.thr ≤ x.fills → s.pageNear q page ≠ some false ∨ s.pageStatic page = true → none_)
      ∧ (p.thr ≤ x.fills → s.pageNear q page = some false → s.pageStatic page = false →
        let first := x.store = true ∧ p.fmin ≤ free ∧ p.qlow ≤ depth
        let second := x.store = false ∧ 2 ≤ quarters ∧ p.fmin ≤ free
        let third := free < p.fmin ∨ depth < p.qlow
        (first → gives 0#8) ∧ (second → gives 1#8) ∧ (¬first → ¬second → third → gives 2#8)
          ∧ (¬first → ¬second → ¬third → none_))

/-- TRACE_SAMPLE with one counter of a job's one core or one tile selected (14 R395-R398): one type-5 record of 32 bytes is written
in its place of the ring, HEAD advances and the header follows; a buffer that is full without WRAP counts the record in LOST. That ID
and SSTEP of a core's sample are those of its context 0, and the number of a tile's counter, are the model's choice (log 70). -/
def Claims.SamplesWritten : Prop :=
  ∀ (s : State) (b c : Nat), b < 8 → s.job.trace.on = true → s.job.trace.samples = true → s.pt.cur.isSome = true →
    s.job.trace.period ≠ 0 → s.job.trace.next ≤ s.job.dc → s.job.trace.lost = s.job.trace.told →
    let r := s.job.trace
    let room := (r.len - 64) / 32
    let va := r.buf + 64 + 32 * (r.head % room)
    let writes := fun (bytes : List Byte) =>
      (r.wrap = true ∨ r.head < room → s.vaWritable va 32 = true →
        ∀ u w : State, s.vaPuts va bytes = some u →
          let v := u.onJob fun j => { j with trace := { j.trace with head := r.head + 1 } }
          v.vaWritable r.buf 16 = true → v.vaPuts r.buf (toBytes 8 (r.head + 1) ++ toBytes 8 r.lost) = some w →
          exec .traceSample s = .next (w.onJob fun j => { j with trace := { j.trace with next := r.next + 1024 * r.period } }))
      ∧ (r.wrap = false → room ≤ r.head →
          ∃ t : State, exec .traceSample s = .next t ∧ t.job.trace.head = r.head ∧ t.job.trace.lost = r.lost + 1
            ∧ t.job.trace.next = r.next + 1024 * r.period)
    (∀ x : Core, s.job.cores = [(c, x)] → r.csel = BitVec.ofNat 16 (2 ^ b) →
      writes ([5#8, BitVec.ofNat 8 b] ++ toBytes 2 (11 * c) ++ zeros 4 ++ toBytes 8 (x.ctx 0).steps ++ toBytes 8 s.job.dc
        ++ toBytes 8 (SMap.get x.counters b).toNat))
      ∧ ∀ x : Tile, s.job.tiles = [(c, x)] → r.csel = BitVec.ofNat 16 (2 ^ (8 + b)) →
        writes ([5#8, BitVec.ofNat 8 (8 + b)] ++ toBytes 2 c ++ zeros 4 ++ toBytes 8 x.superstep ++ toBytes 8 (s.job.scyc c)
          ++ toBytes 8 (SMap.get x.counters b).toNat)

/-- What runs beside a job (08 R259-R261; 14 R398): the advisor does nothing in deterministic mode or without a ring, and
otherwise ends its epoch; the scrubber changes no byte of a sector that holds what it read; the sampler writes nothing
before its time. -/
def Claims.BackgroundWork : Prop :=
  (∀ (s : State) (depth : Nat), s.pt.cur.isSome = true →
    (s.pt.det = true ∨ s.pt.place.advring = 0 → exec (.advisorEpochEnd depth) s = .next s)
      ∧ (s.pt.det = false → s.pt.place.advring ≠ 0 → s.job.pages = [] →
        ∃ t : State, exec (.advisorEpochEnd depth) s = .next t ∧ t.job.advEpoch = s.job.advEpoch + 1 ∧ s.bytesKept t))
    ∧ (∀ (s : State) (sector : Nat), sector < 2 ^ 34 → s.pt.il.getLsbD (sector / 2 ^ 24 / 64) = true →
      ∃ t : State, exec (.patrolScrub sector none) s = .next t ∧ t.job.patrol = sector + 1 ∧ s.bytesKept t)
    ∧ ∀ s : State, s.job.trace.on = true → s.pt.cur.isSome = true → s.job.trace.period ≠ 0 →
      (s.job.dc < s.job.trace.next → exec .traceSample s = .next s)
        ∧ (s.job.trace.next ≤ s.job.dc → s.job.trace.csel = 0#16 →
          ∃ t : State, exec .traceSample s = .next t
            ∧ t.job.trace.next = s.job.trace.next + 1024 * s.job.trace.period ∧ s.bytesKept t)

/-- Fills, walks, TLB acknowledgements, returned messages, and work beside a job. -/
def Obligations.CoresBetweenIssues : Prop :=
  Claims.FillsAndWalks ∧ Claims.AcknowledgesAndReturns ∧ Claims.BackgroundWork ∧ Claims.AdviceForPage ∧ Claims.SamplesWritten

/-- Deliveries (05 R172, R180; 12 R341-R343): a precise fault of the running context traps, a held copy fault is taken at an
instruction boundary outside handlers, and an upcall is taken for an address that does not translate, when the context
takes upcalls; a copy fault that a race gave (DETAIL 0x11) is taken as no upcall, but at the trap entry of the system handler, and
stops the partition (09 R297; 12 R341, R345); nothing is delivered to a context that does not run. -/
def Claims.Deliveries : Prop :=
  ∀ (s : State) (cause detail : BitVec 8) (f1 : Word),
    (s.isRunning = true → preciseCause cause = true → exec (.trapDelivery cause detail f1) s = .next (s.fault cause detail f1))
      ∧ (s.isRunning = false → exec (.trapDelivery cause detail f1) s = .next s ∧ exec (.upcall cause f1) s = .next s)
      ∧ (s.isRunning = true → s.cx.upcalls = true →
        (∀ d : BitVec 8, s.walkVa (ptrAddr f1) = .trans d → exec (.upcall 0x08#8 f1) s = .next (s.transFault d f1 false))
        ∧ (∀ (f : HeldFault) (r : List HeldFault), s.cx.held = f :: r → f.detail.extractLsb' 0 6 ≠ 0x11#6 →
          ∃ t : State, exec (.upcall 0x12#8 f1) s = .next t ∧ t.cx.pc = s.cx.upv ∧ t.cx.inupc = true ∧ t.cx.held = r
            ∧ t.cx.frec0.extractLsb' 0 8 = 0x12#8 ∧ t.cx.frec1 = f.f1)
        ∧ ∀ (f : HeldFault) (r : List HeldFault), s.cx.held = f :: r → f.detail.extractLsb' 0 6 = 0x11#6 →
          ∃ t : State, exec (.upcall 0x12#8 f1) s = .next t ∧ t.cx.pc = s.pt.trapEntry ∧ t.cx.sys = some (0x12#8, f.detail)
            ∧ t.cx.inupc = s.cx.inupc ∧ t.cx.held = r
            ∧ t.cx.frec0 = s.cx.pc ++ 0#3 ++ f.op.setWidth 16 ++ f.detail ++ 0x12#8
            ∧ t.cx.frec1 = f.f1 ∧ t.cx.frec2 = f.f2 ∧ t.cx.frec3 = f.f3
            ∧ (s.job.stop = none → ∃ g : GangStop, t.job.stop = some g ∧ g.origin = .ctx s.me ∧ g.cause = 0x12#8 ∧ g.detail = f.detail))
      ∧ (∀ (f : HeldFault) (r : List HeldFault), s.cx.held = f :: r → s.cx.atBoundary = true → s.cx.inHandler = false →
        s.cr.stopped = false → s.cr.preempted = false → exec .copyFault s = .next ((s.onCx fun c => { c with held := r }).copyFault f))
      ∧ (s.cx.held = [] → exec .copyFault s = .next s)

/-- The service path (12 R346; 05 R157, R180): the service context pre-empts core 0 of its hamlet, at an instruction boundary,
and takes the oldest record; it writes the tables as its outcome says and sends the notice, and gives the core back when no
record is left, or stops the partition when it corrects nothing; once a stop has reached core 0 it does nothing (R350); the notice wakes the context that parked on its tag, and enters
the mailbox of one that took an upcall. -/
def Claims.ServicePath : Prop :=
  (∀ (s : State) (o : SvcOutcome) (r : SvcRec), (s.hm.svc.find? fun x => !x.done) = some r →
    ((s.coreAt s.svcCore).stopped = true → exec (.servicePath o) s = .next s)
    ∧ ((s.coreAt s.svcCore).stopped = false →
    (s.hm.serving = false →
      ((s.coreAt s.svcCore).preempted = false → (s.coreAt s.svcCore).atBoundary = true →
        ∃ t : State, exec (.servicePath o) s = .next t ∧ t.hm.serving = true ∧ (t.coreAt s.svcCore).preempted = true
          ∧ t.hm.svc = s.hm.svc ∧ s.bytesKept t)
      ∧ ((s.coreAt s.svcCore).preempted = true ∨ (s.coreAt s.svcCore).atBoundary = false → exec (.servicePath o) s = .next s))
      ∧ (s.hm.serving = true → o.corrected = false →
        exec (.servicePath o) s = .next (s.gangStop (.ctx (gctx r.core r.ctx)) 0x08#8 r.detail 0#8 r.va))
      ∧ (s.hm.serving = true → o.corrected = true → o.tlbi = [] →
        let w := o.writes.foldl (fun s w => s.paPuts false w.1 (toBytes 8 w.2.toNat)) s
        let u := w.noticeSent (gctx r.core r.ctx) (r.tag.setWidth 64) 0#64
        (u.hm.svc.all (fun x => x.done) = false → exec (.servicePath o) s = .next u)
          ∧ (u.hm.svc.all (fun x => x.done) = true →
            exec (.servicePath o) s = .next ((u.onHm fun h => { h with serving := false }).unpreempt s.svcCore)))))
    ∧ (∀ (s : State) (dst : Nat) (lo hi : Word), ∃ m : Msg, (s.noticeSent dst lo hi).job.msgs = s.job.msgs ++ [m] ∧ m.kind = 4#4
      ∧ m.dst = dst ∧ m.src = 0xFFE ∧ m.lo = lo ∧ m.hi = hi ∧ m.returned = false)
    ∧ ∀ (s : State) (tag : BitVec 16) (m : Msg), s.job.msgs = [m] → m.kind = 4#4 → m.lo.extractLsb' 0 16 = tag →
      m.returned = false → m.dst ≠ 0xFFE →
      let c := m.dst / 11
      let k := m.dst % 11
      let x := s.ctxAt c k
      let u := s.onJob fun j => { j with msgs := [] }
      (x.wait = .service tag → (s.coreAt c).stopped = false → x.state ≠ .halted →
        ∃ t : State, exec (.faultCompletionNotice tag) s = .next t ∧ (t.ctxAt c k).state = .ready
          ∧ (t.ctxAt c k).wait = .none ∧ (t.ctxAt c k).pc = x.pc ∧ t.job.msgs = []
          ∧ (∀ y ∈ (t.job.hamlet (hamletOf c)).svc, y.tag ≠ tag) ∧ s.bytesKept t)
      ∧ (x.wait = .service tag → (s.coreAt c).stopped = true → exec (.faultCompletionNotice tag) s = .next s)
      ∧ (x.wait ≠ .service tag → x.state ≠ .free →
        exec (.faultCompletionNotice tag) s =
          .next (u.deliver c { kind := 4#4, dst := k, peer := BitVec.ofNat 12 m.src, seq := m.seq, lo := m.lo, hi := m.hi }))
      ∧ (x.wait ≠ .service tag → x.state = .free → x.ran = true →
        exec (.faultCompletionNotice tag) s = .next (u.sendMsg m.back))

/-- Faults are delivered to contexts, and the service path answers them. -/
def Obligations.DeliveriesAndService : Prop :=
  Claims.Deliveries ∧ Claims.ServicePath

/-- BOOT_STAGE (13 R365, R381; 18 R444-R447): each stage ends in the next, or boot fails with the reason of its stage: stage 1
trains the link, which is up in FLIT mode only, stage 2 refuses a bad signature and a version below the fused one; stage 3
zeroes every memory, and stage 4 takes into service the quarters that pass; in both, a stack of quarter 0 that does not pass
ends boot with reason 0x04. -/
def Obligations.BootStages : Prop :=
  ∀ (s : State) (f : BootFinding),
    let goes := fun (n : Nat) => ∃ t : State, exec (.bootStage f) s = .next t ∧ t.stage = n
    let fails := fun (e : BitVec 8) => ∃ t : State, exec (.bootStage f) s = .next t ∧ t.stage = 15 ∧ t.bootErr = e
    (s.stage = 0 → goes 1)
      ∧ (s.stage = 1 → ∃ t : State, exec (.bootStage f) s = .next t ∧ t.stage = 2 ∧ t.link = f.flit)
      ∧ (s.stage = 2 → (f.signatureOk = false → fails 0x01#8) ∧ (f.signatureOk = true → f.version < s.fused → fails 0x02#8)
        ∧ (f.signatureOk = true → s.fused ≤ f.version → goes 3))
      ∧ (s.stage = 3 → (f.stackOk.extractLsb' 0 4 ≠ 15#4 → fails 0x04#8)
        ∧ (f.stackOk.extractLsb' 0 4 = 15#4 →
          ∃ t : State, exec (.bootStage f) s = .next t ∧ t.stage = 4 ∧ t.hbm = []
            ∧ ∀ n : Nat, (t.part n).mere = [] ∧ (t.part n).loft = [] ∧ (t.part n).loc = []))
      ∧ (s.stage = 4 →
        ∃ t : State, exec (.bootStage f) s = .next t
          ∧ (∀ q : Nat, q < 4 → (t.qok.getLsbD q = true ↔
              f.quarters.getLsbD q = true ∧ ∀ i : Nat, i < 4 → f.stackOk.getLsbD (4 * q + i) = true))
          ∧ (f.stackOk.extractLsb' 0 4 ≠ 15#4 → t.stage = 15 ∧ t.bootErr = 0x04#8)
          ∧ (f.stackOk.extractLsb' 0 4 = 15#4 → (t.stage = if t.qok = 0#4 then 15 else 5) ∧ (t.qok = 0#4 → t.bootErr = 0x03#8)))
      ∧ (s.stage = 5 → goes 6) ∧ (s.stage = 6 → goes 7) ∧ (6 < s.stage → exec (.bootStage f) s = .next s)

/-- Resets and the loss of power (18 R439-R443): a cold reset leaves the package as it stands at power-on, stage 0 of boot with
no launch, key or owner, host memory as it was and the fuses as they stand (13 R381); that HBM then reads zero is the model's choice
(log 4), as it is after a power loss; a power loss or a thermal trip does so and leaves the package without
power, where a step is the fault `poweredOff`; a host-port reset unlocks every interface, ends every session and leaves the link
down until it has trained again, which brings it up in FLIT mode only. -/
def Obligations.ResetsAndPower : Prop :=
  (∀ s : State, ∃ t : State, exec .coldReset s = .next t ∧ t.parts = State.reset.parts ∧ t.stage = 0 ∧ t.powered = true ∧ t.hbm = []
      ∧ t.host = s.host ∧ t.layout = 0 ∧ t.fused = s.fused)
    ∧ (∀ s : State, ∃ t : State, exec .powerLoss s = .next t ∧ exec .thermalTrip s = .next t ∧ t.powered = false
      ∧ t.parts = State.reset.parts ∧ t.hbm = [] ∧ t.host = s.host)
    ∧ (∀ s : State, s.powered = false → s.agenda = [] → step s = .fault .poweredOff)
    ∧ (∀ (s : State) (flit : Bool) (rest : List Mover), s.powered = true → s.agenda = .train flit :: rest → 1 < s.stage →
      step s = .next { s with agenda := rest, link := flit })
    ∧ ∀ s : State, ∃ t : State, exec .hostPortReset s = .next t ∧ t.hbm = s.hbm ∧ t.host = s.host ∧ t.link = false
      ∧ ∀ n : Nat, (t.part n).tdi = .unlocked ∧ (t.part n).spdm.session = none ∧ (t.part n).ide = none ∧ (t.part n).job = (s.part n).job

/-- The machine right after reset (01 R39, R44; 13 R368; 18 R443): layout 0 with four partitions of one quarter and its four
stacks each, boot not begun, no launch, no owner, every queue register zero but NEXTSEQ, which is 1, every memory byte zero.
The zeros of memory and of the registers that the spec gives no reset value are the model's choice (log 4). -/
def Obligations.ResetState : Prop :=
  State.reset.layout = 0 ∧ State.reset.stage = 0 ∧ State.reset.powered = true ∧ State.reset.memOk = true
    ∧ (∀ q : Nat, q < 4 →
      let p := State.reset.part q
      p.qmask = BitVec.ofNat 4 (2 ^ q) ∧ p.il = BitVec.ofNat 16 (15 * 16 ^ q) ∧ p.bound = 0#4 ∧ p.det = false ∧ p.seed = 0#64
        ∧ p.chain = 0#7 ∧ p.tdi = .unlocked ∧ p.owner = none ∧ p.cur = none ∧ p.quiesced = false ∧ p.debugOk = 0#4
        ∧ p.statbase = 0#64 ∧ p.aseq = 0#64 ∧ p.cseq = 0#64 ∧ p.hseen = 0#64
        ∧ (∀ r : Nat, r < 5 → (p.queue r).nextSeq = 1#64 ∧ (p.queue r).tail = 0#64 ∧ (p.queue r).base = 0#64 ∧ (p.queue r).size = 0#64)
        ∧ (∀ n : Nat, SMap.get p.segs n = 0#64) ∧ ∀ k : Nat, SMap.get p.res k = none)
    ∧ ∀ a : Nat, SMap.get State.reset.hbm a = 0#8

/-- Words written out from the encodings of 02 R61-R67, from the spec's own examples, decode to the instructions that they stand
for: one of each group. -/
def Obligations.DecodeWords : Prop :=
  decode 0x0000450420000000#64 = .ok ⟨0#8, .add 5#6 1#6 2#6⟩
    ∧ decode 0x0027481280020200#64 = .ok ⟨0#8, .dhist true 4#5 1#5 5#5 0#6⟩
    ∧ decode 0x0040070C44C00010#64 = .ok ⟨0#8, .ld 7#6 3#6 4#6 .x8 .acq .partition 16#20⟩
    ∧ decode 0x0060041488000123#64 = .ok ⟨0#8, .br .lt 4#6 5#6 2#3 0x123#26⟩
    ∧ decode 0x108003318C402810#64 = .ok ⟨16#8, .mill 0#3 (.kn .bf16 4#4) .bf16 .bf16 2#4 1#4 0#3 .ovw 0#4⟩
    ∧ decode 0x03A0005000019282#64
        = .ok ⟨3#8, .vadd .fp32 { d := 10#11, a := .link .n, b := 12#11, sink := some .e, nf := 2#4 }⟩
    ∧ decode 0x02C0060008000030#64 = .ok ⟨2#8, .sld 0#2 6#6 3#6 32#12 0#4⟩
    ∧ decode 0x04E0020400000006#64 = .ok ⟨4#8, .window .dflt 2#4 6#34⟩

/-- Decoding what encoding gives: for every well-formed instruction that has an encoding, at every operand and every DLY that
its engine admits, the word decodes to that instruction and that DLY (02 R61-R69). -/
def Obligations.RoundTrip : Prop :=
  ∀ (dly : BitVec 8) (i : Instr) (w : Word), i.wf = true → encode dly i = some w → (engineOf w = 0 → dly = 0#8) →
    decode w = .ok ⟨dly, i⟩

/-- Encoding what decoding gives: a word that decodes is the encoding of what it decodes to, which is well-formed, so no two
instructions share a word and a word with a reserved bit set decodes to nothing (02 R65, R68). -/
def Obligations.EncodeOfDecode : Prop :=
  ∀ (w : Word) (x : Slot), decode w = .ok x → encode x.dly x.instr = some w ∧ x.instr.wf = true

/-- A step runs the decoded instruction (02 R58, R68; log 1): where the agenda's head names the issue of the running context,
which stands outside the system handler with no copy fault held at a slot whose line is a code line that the core has fetched,
the step is the meaning of the instruction that the word there decodes to, the core's issue count raised, and its counter of
issued instructions where the instruction is not to be tried again; a word that does not decode traps (DecodeFaults), as does a line that
fails R58. Where the head names an
instruction the step is its meaning, and with no agenda a dc passes. -/
def Claims.StepRunsInstruction : Prop :=
  (∀ (s : State) (p c k : Nat) (rest : List Mover) (l : Line),
    let t : State := { s with agenda := rest, focus := { s.focus with part := p, core := c, ctx := k } }
    let u := t.onCr fun x => { x with count := x.count + 1 }
    s.powered = true → s.agenda = .ctx p c k :: rest → t.coreRuns c = true → k < 11 → t.cx.runnable = true → t.cr.running = some k →
    t.cx.sys = none → (∀ q : Pend, t.cx.wait ≠ .pend q) → t.cx.held = [] →
    (pcOk t.pt t.cx = false → step s = .next t.badLine)
    ∧ (pcOk t.pt t.cx = true → pcLine t.cx.pc ∈ t.cr.icache → t.pt.line (pcLine t.cx.pc) = some l →
      (∀ x : Slot, decodeOn 0 (l.word (pcSlot t.cx.pc)) = .ok x →
          ∃ v : State, exec x.instr u = .next v
            ∧ step s = .next (if (v.ctxAt c k).wait.retries = true then v else v.onCoreAt c (Core.bump 0 1)))
        ∧ ∀ e : DecodeError, decodeOn 0 (l.word (pcSlot t.cx.pc)) = .error e →
          let v := u.decodeFault e (l.word (pcSlot t.cx.pc))
          step s = .next (if (v.ctxAt c k).wait.retries = true then v else v.onCoreAt c (Core.bump 0 1))))
    ∧ (∀ (s : State) (f : Focus) (i : Instr) (rest : List Mover), s.powered = true → s.agenda = .op f i :: rest →
      step s = exec i { s with agenda := rest, focus := f })
    ∧ ∀ s : State, s.powered = true → s.agenda = [] → step s = .next s.tick

/-- A step of a timed chain runs the decoded instruction (02 R54-R57): where the agenda's head names a chain of a tile that is
due, the step is the meaning of the instruction in its slot, and the chain moves on from it. -/
def Claims.StepRunsTimedInstruction : Prop :=
  ∀ (s : State) (p n : Nat) (e : Eng) (rest : List Mover) (l : Line) (x : Slot),
    let t : State := { s with agenda := rest, focus := { s.focus with part := p, tile := n, eng := e } }
    let node := t.job.node n
    let w := l.word t.chain.slot
    let u := t.onTl (Tile.countIssue (e != .reeve && Sys2Proof.Machine.Instr.hasNf x.instr && t.nullified (w.extractLsb' 0 4)))
    s.powered = true → s.agenda = .chain p n e :: rest → t.pt.cur.isSome = true → node.paused = false → node.stop = none →
    t.chain.live = true → t.chain.due = t.now → t.pt.line t.chain.line = some l → decodeOn (engNum e) w = .ok x →
      ∃ v : State, exec x.instr u = .next v ∧ step s = .next v.chainMoves

/-- What a word of a dynamic line that is no instruction raises, the first row of R69's order (02 R66-R69): an opcode of a group that
the dynamic plane does not run is the wrong-engine trap, cause 0x03; one from 0x60 on, or a format code from 24 on, an absent
extension, cause 0x04, which gives FREC1 the word (12 R341); another one past the last assigned of its group an illegal
instruction, cause 0x01; and a delay, or what is no encoding of a well-formed instruction, an illegal encoding, cause 0x02. Each
names the word's own line and slot, as a line that fails R58 is named with slot 7. -/
def Claims.DecodeFaults : Prop :=
  (∀ (s : State) (w : Word), s.decodeFault .unassigned w = s.trap 0x01#8 0#8 0#64 0#64 0#64 s.cx.pc
      ∧ s.decodeFault .illegal w = s.trap 0x02#8 0#8 0#64 0#64 0#64 s.cx.pc
      ∧ s.decodeFault .wrongEngine w = s.trap 0x03#8 0#8 0#64 0#64 0#64 s.cx.pc
      ∧ s.decodeFault .absent w = s.trap 0x04#8 0#8 w 0#64 0#64 s.cx.pc
      ∧ s.badLine = s.trap 0x02#8 0#8 0#64 0#64 0#64 (s.cx.pc.extractLsb' 3 26 ++ 7#3))
    ∧ ∀ w : Word,
      let opcode := (w.extractLsb' 46 10).toNat
      let group := opcode / 128
      let k := opcode % 128
      let assigned := if group = 0 then 44 else if group = 1 then 31 else if group = 2 then 14 else 38
      (4 ≤ group → decodeOn 0 w = .error .wrongEngine)
        ∧ (group < 4 → 0x60 ≤ k → decodeOn 0 w = .error .absent)
        ∧ (group < 4 → assigned ≤ k → k < 0x60 → decodeOn 0 w = .error .unassigned)
        ∧ (group = 1 → 9 ≤ k → k < assigned → 24 ≤ (w.extractLsb' 15 5).toNat → decodeOn 0 w = .error .absent)
        ∧ (group < 4 → group ≠ 1 → k < assigned → w.extractLsb' 56 8 ≠ 0#8 → decodeOn 0 w = .error .illegal)
        ∧ (group < 4 → group ≠ 1 → k < assigned → (∀ i : Instr, i.wf = true → encode 0#8 i ≠ some w) →
            decodeOn 0 w = .error .illegal)
        ∧ (group = 1 → k < assigned → (∀ i : Instr, i.wf = true → encode 0#8 i ≠ some w) →
            decodeOn 0 w = .error .absent ∨ decodeOn 0 w = .error .illegal)

/-- A step runs the instruction decoded at the program counter, or of a chain that is due, or raises what a word that is none does. -/
def Obligations.StepRunsInstruction : Prop :=
  Claims.StepRunsInstruction ∧ Claims.StepRunsTimedInstruction ∧ Claims.DecodeFaults

/-- No instruction stops the machine: every meaning answers a next state whatever its operands and the state, so a step of a
package with power goes on; the one fault is a step without power, and nothing is refused. -/
def Obligations.MachineNeverStops : Prop :=
  (∀ (i : Instr) (s : State), ∃ t : State, exec i s = .next t)
    ∧ (∀ s : State, s.powered = true → s.goesOn)
    ∧ (∀ (s : State) (f : Fault), step s = .fault f → f = .poweredOff ∧ s.powered = false)
    ∧ ∀ (s : State) (r : Refusal), step s ≠ .refused r

/-- The invariant that every step keeps: every byte memory stays in canonical form, so that equal memories are equal data. The
canonical form is the model's own (log 3, DESIGN CHOICE): no rule of the spec speaks of it. -/
def Obligations.MemoryStaysCanonical : Prop :=
  ∀ s t : State, s.memOk = true → step s = .next t → t.memOk = true

end
end

