-- ==== Sys2Proof/Laws/Encoding.lean ====
section
/-!
SUPPORT. The fields of an instruction word read back (02 R61-R67): every code of an operand type, every operand group, and
the three parts of a word.
-/

namespace Sys2Proof

set_option Elab.async false
set_option linter.unusedSimpArgs false

@[simp] theorem Cond.ofCode_code (x : Cond) : Cond.ofCode x.code = some x := by cases x <;> rfl
@[simp] theorem Rm.ofCode_code (x : Rm) : Rm.ofCode x.code = some x := by cases x <;> rfl
@[simp] theorem Fmt.ofCode_code (x : Fmt) : Fmt.ofCode x.code = some x := by cases x <;> rfl
@[simp] theorem MemOrd.ofCode_code (x : MemOrd) : MemOrd.ofCode x.code = some x := by cases x <;> rfl
@[simp] theorem Scope.ofCode_code (x : Scope) : Scope.ofCode x.code = some x := by cases x <;> rfl
@[simp] theorem AmoOp.ofCode_code (x : AmoOp) : AmoOp.ofCode x.code = some x := by cases x <;> rfl
@[simp] theorem RedOp.ofCode_code (x : RedOp) : RedOp.ofCode x.code = some x := by cases x <;> rfl
@[simp] theorem RcOp.ofCode_code (x : RcOp) : RcOp.ofCode x.code = some x := by cases x <;> rfl
@[simp] theorem CtxQ.ofCode_code (x : CtxQ) : CtxQ.ofCode x.code = some x := by cases x <;> rfl
@[simp] theorem TlbK.ofCode_code (x : TlbK) : TlbK.ofCode x.code = some x := by cases x <;> rfl
@[simp] theorem VTy.ofCode_code (x : VTy) : VTy.ofCode x.code = some x := by cases x <;> rfl
@[simp] theorem AccM.ofCode_code (x : AccM) : AccM.ofCode x.code = some x := by cases x <;> rfl
@[simp] theorem WinPol.ofCode_code (x : WinPol) : WinPol.ofCode x.code = some x := by cases x <;> rfl
@[simp] theorem NfRel.ofCode_code (x : NfRel) : NfRel.ofCode x.code = some x := by cases x <;> rfl
@[simp] theorem NfCtr.ofCode_code (x : NfCtr) : NfCtr.ofCode x.code = some x := by cases x <;> rfl
@[simp] theorem FRel.ofCode_code (x : FRel) : FRel.ofCode x.code = x := by cases x <;> rfl
@[simp] theorem Scale.ofCode_code (x : Scale) : Scale.ofCode x.code = x := by cases x <;> rfl
@[simp] theorem RingQ.ofCode_code (x : RingQ) : RingQ.ofCode x.code = x := by cases x <;> rfl
@[simp] theorem Dir.ofNum_num (x : Dir) : Dir.ofNum x.num = x := by cases x <;> rfl
@[simp] theorem IdxFmt.ofCode_code (x : IdxFmt) : IdxFmt.ofCode x.code = some x := by cases x <;> rfl
@[simp] theorem Lane2.ofCode_code (x : Lane2) : Lane2.ofCode x.code = some x := by cases x <;> rfl

@[simp] theorem LaneArith.ofCode_code (x : LaneArith) : LaneArith.ofCode x.ty x.sub = some x := by
  rcases x with s | r | r
  · cases s <;> rfl
  · cases r <;> rfl
  · cases r <;> rfl
@[simp] theorem LaneMin.ofCode_code (x : LaneMin) : LaneMin.ofCode x.ty x.sub = some x := by
  rcases x with s | r | r
  · cases s <;> rfl
  · cases r <;> rfl
  · cases r <;> rfl
@[simp] theorem LaneCmp.ofCode_code (x : LaneCmp) : LaneCmp.ofCode x.ty (x.sub.extractLsb' 0 3) = some x := by
  rcases x with c | r | r
  · cases c <;> rfl
  · cases r <;> rfl
  · cases r <;> rfl
@[simp] theorem DShift.ofCode_fields (x : DShift) :
    DShift.ofCode x.isImm x.b (x.imm9.extractLsb' 0 5) = x := by
  cases x <;> simp (disch := decide) only [DShift.ofCode, DShift.isImm, DShift.b, DShift.imm9, BitVec.extractLsb'_append_eq_of_le, BitVec.extractLsb'_append_eq_of_add_le] <;> simp
@[simp] theorem VSrc.ofCode_fields (x : VSrc) : VSrc.ofCode x.asrc x.a = some x := by
  rcases x with a | l
  · rfl
  · cases l <;> rfl
@[simp] theorem sinkOf_sinkCode (x : Option Dir) : sinkOf (sinkCode x) = some x := by
  rcases x with - | l
  · rfl
  · cases l <;> rfl
@[simp] theorem laneOf_laneField (x : Option (BitVec 5)) : laneOf (laneField x) = x := by
  cases x <;> simp (disch := decide) only [laneOf, laneField, BitVec.extractLsb'_append_eq_of_le, BitVec.extractLsb'_append_eq_of_add_le] <;> simp
@[simp] theorem streamIndex_streamField (x : BitVec 4) : streamIndex (streamField x) (x.getLsbD 3) = x := by
  revert x; decide
theorem MillC.ofCode_fields (x : MillC) : MillC.ofCode x.mode x.fcode x.mcField x.mnField = some x := by
  cases x <;> simp [MillC.ofCode, MillC.mode, MillC.fcode, MillC.mcField, MillC.mnField]
theorem MillC.ofCode_gang (x : MillC) (h : x.wfGang = true) : MillC.ofCode x.mode x.fcode x.mcField 0#4 = some x := by
  cases x <;> simp_all [MillC.ofCode, MillC.mode, MillC.fcode, MillC.mcField, MillC.wfGang]
theorem MillC.ofCodeGrouped_fields (x : MillC) (h : x.wfGrouped = true) :
    MillC.ofCodeGrouped x.modeGrouped x.fcode x.mcField = some x := by
  cases x <;> simp_all [MillC.ofCodeGrouped, MillC.modeGrouped, MillC.fcode, MillC.mcField, MillC.wfGrouped]

/-! ### The parts of a field that is a concatenation -/

theorem part_2_4_f0 (x : BitVec 2) (y : BitVec 4) :
    @BitVec.extractLsb' 6 0 4 (x ++ y) = y := by
  change BitVec.extractLsb' 0 4 (x ++ y) = y
  simp (disch := decide) only [BitVec.extractLsb'_append_eq_of_le, BitVec.extractLsb'_append_eq_of_add_le] <;> simp
theorem part_4_30_f30 (x : BitVec 4) (y : BitVec 30) :
    @BitVec.extractLsb' 34 30 4 (x ++ y) = x := by
  change BitVec.extractLsb' 30 4 (x ++ y) = x
  simp (disch := decide) only [BitVec.extractLsb'_append_eq_of_le, BitVec.extractLsb'_append_eq_of_add_le] <;> simp
theorem part_4_30_f0 (x : BitVec 4) (y : BitVec 30) :
    @BitVec.extractLsb' 34 0 30 (x ++ y) = y := by
  change BitVec.extractLsb' 0 30 (x ++ y) = y
  simp (disch := decide) only [BitVec.extractLsb'_append_eq_of_le, BitVec.extractLsb'_append_eq_of_add_le] <;> simp
theorem part_3_3_f0 (x : BitVec 3) (y : BitVec 3) :
    @BitVec.extractLsb' 6 0 3 (x ++ y) = y := by
  change BitVec.extractLsb' 0 3 (x ++ y) = y
  simp (disch := decide) only [BitVec.extractLsb'_append_eq_of_le, BitVec.extractLsb'_append_eq_of_add_le] <;> simp
theorem part_1_5_f0 (x : BitVec 1) (y : BitVec 5) :
    @BitVec.extractLsb' 6 0 5 (x ++ y) = y := by
  change BitVec.extractLsb' 0 5 (x ++ y) = y
  simp (disch := decide) only [BitVec.extractLsb'_append_eq_of_le, BitVec.extractLsb'_append_eq_of_add_le] <;> simp
theorem part_5_1_f0 (x : BitVec 5) (y : BitVec 1) :
    @BitVec.extractLsb' 6 0 1 (x ++ y) = y := by
  change BitVec.extractLsb' 0 1 (x ++ y) = y
  simp (disch := decide) only [BitVec.extractLsb'_append_eq_of_le, BitVec.extractLsb'_append_eq_of_add_le] <;> simp
theorem part_4_b_1_f0 (x : BitVec 4) (y : Bool) (z : BitVec 1) :
    @BitVec.extractLsb' 6 0 1 (x ++ BitVec.ofBool y ++ z) = z := by
  change BitVec.extractLsb' 0 1 (x ++ BitVec.ofBool y ++ z) = z
  simp (disch := decide) only [BitVec.extractLsb'_append_eq_of_le, BitVec.extractLsb'_append_eq_of_add_le] <;> simp
theorem part_4_b_1_bit1 (x : BitVec 4) (y : Bool) (z : BitVec 1) :
    @BitVec.getLsbD 6 (x ++ BitVec.ofBool y ++ z) 1 = y := by
  change BitVec.getLsbD (x ++ BitVec.ofBool y ++ z) 1 = y
  simp only [BitVec.getLsbD_append, BitVec.getLsbD_ofBool]
  simp
theorem part_6_3_f0 (x : BitVec 6) (y : BitVec 3) :
    @BitVec.extractLsb' 9 0 3 (x ++ y) = y := by
  change BitVec.extractLsb' 0 3 (x ++ y) = y
  simp (disch := decide) only [BitVec.extractLsb'_append_eq_of_le, BitVec.extractLsb'_append_eq_of_add_le] <;> simp
theorem part_5_4_f0 (x : BitVec 5) (y : BitVec 4) :
    @BitVec.extractLsb' 9 0 4 (x ++ y) = y := by
  change BitVec.extractLsb' 0 4 (x ++ y) = y
  simp (disch := decide) only [BitVec.extractLsb'_append_eq_of_le, BitVec.extractLsb'_append_eq_of_add_le] <;> simp
theorem part_3_b_2_f0 (x : BitVec 3) (y : Bool) (z : BitVec 2) :
    @BitVec.extractLsb' 6 0 2 (x ++ BitVec.ofBool y ++ z) = z := by
  change BitVec.extractLsb' 0 2 (x ++ BitVec.ofBool y ++ z) = z
  simp (disch := decide) only [BitVec.extractLsb'_append_eq_of_le, BitVec.extractLsb'_append_eq_of_add_le] <;> simp
theorem part_3_b_2_bit2 (x : BitVec 3) (y : Bool) (z : BitVec 2) :
    @BitVec.getLsbD 6 (x ++ BitVec.ofBool y ++ z) 2 = y := by
  change BitVec.getLsbD (x ++ BitVec.ofBool y ++ z) 2 = y
  simp only [BitVec.getLsbD_append, BitVec.getLsbD_ofBool]
  simp
theorem part_4_2_f0 (x : BitVec 4) (y : BitVec 2) :
    @BitVec.extractLsb' 6 0 2 (x ++ y) = y := by
  change BitVec.extractLsb' 0 2 (x ++ y) = y
  simp (disch := decide) only [BitVec.extractLsb'_append_eq_of_le, BitVec.extractLsb'_append_eq_of_add_le] <;> simp
theorem part_5_b_bit0 (x : BitVec 5) (y : Bool) :
    @BitVec.getLsbD 6 (x ++ BitVec.ofBool y) 0 = y := by
  change BitVec.getLsbD (x ++ BitVec.ofBool y) 0 = y
  simp only [BitVec.getLsbD_append, BitVec.getLsbD_ofBool]
  simp
theorem part_4_16_f0 (x : BitVec 4) (y : BitVec 16) :
    @BitVec.extractLsb' 20 0 16 (x ++ y) = y := by
  change BitVec.extractLsb' 0 16 (x ++ y) = y
  simp (disch := decide) only [BitVec.extractLsb'_append_eq_of_le, BitVec.extractLsb'_append_eq_of_add_le] <;> simp
theorem part_4_16_f16 (x : BitVec 4) (y : BitVec 16) :
    @BitVec.extractLsb' 20 16 4 (x ++ y) = x := by
  change BitVec.extractLsb' 16 4 (x ++ y) = x
  simp (disch := decide) only [BitVec.extractLsb'_append_eq_of_le, BitVec.extractLsb'_append_eq_of_add_le] <;> simp
theorem part_2_2_f0 (x : BitVec 2) (y : BitVec 2) :
    @BitVec.extractLsb' 4 0 2 (x ++ y) = y := by
  change BitVec.extractLsb' 0 2 (x ++ y) = y
  simp (disch := decide) only [BitVec.extractLsb'_append_eq_of_le, BitVec.extractLsb'_append_eq_of_add_le] <;> simp
theorem part_28_6_f0 (x : BitVec 28) (y : BitVec 6) :
    @BitVec.extractLsb' 34 0 6 (x ++ y) = y := by
  change BitVec.extractLsb' 0 6 (x ++ y) = y
  simp (disch := decide) only [BitVec.extractLsb'_append_eq_of_le, BitVec.extractLsb'_append_eq_of_add_le] <;> simp
theorem part_26_8_f0 (x : BitVec 26) (y : BitVec 8) :
    @BitVec.extractLsb' 34 0 8 (x ++ y) = y := by
  change BitVec.extractLsb' 0 8 (x ++ y) = y
  simp (disch := decide) only [BitVec.extractLsb'_append_eq_of_le, BitVec.extractLsb'_append_eq_of_add_le] <;> simp
theorem part_18_16_f0 (x : BitVec 18) (y : BitVec 16) :
    @BitVec.extractLsb' 34 0 16 (x ++ y) = y := by
  change BitVec.extractLsb' 0 16 (x ++ y) = y
  simp (disch := decide) only [BitVec.extractLsb'_append_eq_of_le, BitVec.extractLsb'_append_eq_of_add_le] <;> simp
theorem part_8_3_f0 (x : BitVec 8) (y : BitVec 3) :
    @BitVec.extractLsb' 11 0 3 (x ++ y) = y := by
  change BitVec.extractLsb' 0 3 (x ++ y) = y
  simp (disch := decide) only [BitVec.extractLsb'_append_eq_of_le, BitVec.extractLsb'_append_eq_of_add_le] <;> simp
theorem part_7_4_f0 (x : BitVec 7) (y : BitVec 4) :
    @BitVec.extractLsb' 11 0 4 (x ++ y) = y := by
  change BitVec.extractLsb' 0 4 (x ++ y) = y
  simp (disch := decide) only [BitVec.extractLsb'_append_eq_of_le, BitVec.extractLsb'_append_eq_of_add_le] <;> simp
theorem part_2_b_3_5_f0 (x : BitVec 2) (y : Bool) (z : BitVec 3) (u : BitVec 5) :
    @BitVec.extractLsb' 11 0 5 (x ++ BitVec.ofBool y ++ z ++ u) = u := by
  change BitVec.extractLsb' 0 5 (x ++ BitVec.ofBool y ++ z ++ u) = u
  simp (disch := decide) only [BitVec.extractLsb'_append_eq_of_le, BitVec.extractLsb'_append_eq_of_add_le] <;> simp
theorem part_2_b_3_5_f5 (x : BitVec 2) (y : Bool) (z : BitVec 3) (u : BitVec 5) :
    @BitVec.extractLsb' 11 5 3 (x ++ BitVec.ofBool y ++ z ++ u) = z := by
  change BitVec.extractLsb' 5 3 (x ++ BitVec.ofBool y ++ z ++ u) = z
  simp (disch := decide) only [BitVec.extractLsb'_append_eq_of_le, BitVec.extractLsb'_append_eq_of_add_le] <;> simp
theorem part_2_b_3_5_bit8 (x : BitVec 2) (y : Bool) (z : BitVec 3) (u : BitVec 5) :
    @BitVec.getLsbD 11 (x ++ BitVec.ofBool y ++ z ++ u) 8 = y := by
  change BitVec.getLsbD (x ++ BitVec.ofBool y ++ z ++ u) 8 = y
  simp only [BitVec.getLsbD_append, BitVec.getLsbD_ofBool]
  simp
theorem part_6_5_f0 (x : BitVec 6) (y : BitVec 5) :
    @BitVec.extractLsb' 11 0 5 (x ++ y) = y := by
  change BitVec.extractLsb' 0 5 (x ++ y) = y
  simp (disch := decide) only [BitVec.extractLsb'_append_eq_of_le, BitVec.extractLsb'_append_eq_of_add_le] <;> simp
theorem part_9_2_f0 (x : BitVec 9) (y : BitVec 2) :
    @BitVec.extractLsb' 11 0 2 (x ++ y) = y := by
  change BitVec.extractLsb' 0 2 (x ++ y) = y
  simp (disch := decide) only [BitVec.extractLsb'_append_eq_of_le, BitVec.extractLsb'_append_eq_of_add_le] <;> simp
theorem part_8_b_2_f0 (x : BitVec 8) (y : Bool) (z : BitVec 2) :
    @BitVec.extractLsb' 11 0 2 (x ++ BitVec.ofBool y ++ z) = z := by
  change BitVec.extractLsb' 0 2 (x ++ BitVec.ofBool y ++ z) = z
  simp (disch := decide) only [BitVec.extractLsb'_append_eq_of_le, BitVec.extractLsb'_append_eq_of_add_le] <;> simp
theorem part_8_b_2_bit2 (x : BitVec 8) (y : Bool) (z : BitVec 2) :
    @BitVec.getLsbD 11 (x ++ BitVec.ofBool y ++ z) 2 = y := by
  change BitVec.getLsbD (x ++ BitVec.ofBool y ++ z) 2 = y
  simp only [BitVec.getLsbD_append, BitVec.getLsbD_ofBool]
  simp
theorem part_4_b_6_f0 (x : BitVec 4) (y : Bool) (z : BitVec 6) :
    @BitVec.extractLsb' 11 0 6 (x ++ BitVec.ofBool y ++ z) = z := by
  change BitVec.extractLsb' 0 6 (x ++ BitVec.ofBool y ++ z) = z
  simp (disch := decide) only [BitVec.extractLsb'_append_eq_of_le, BitVec.extractLsb'_append_eq_of_add_le] <;> simp
theorem part_4_b_6_bit6 (x : BitVec 4) (y : Bool) (z : BitVec 6) :
    @BitVec.getLsbD 11 (x ++ BitVec.ofBool y ++ z) 6 = y := by
  change BitVec.getLsbD (x ++ BitVec.ofBool y ++ z) 6 = y
  simp only [BitVec.getLsbD_append, BitVec.getLsbD_ofBool]
  simp
theorem part_2_18_f0 (x : BitVec 2) (y : BitVec 18) :
    @BitVec.extractLsb' 20 0 18 (x ++ y) = y := by
  change BitVec.extractLsb' 0 18 (x ++ y) = y
  simp (disch := decide) only [BitVec.extractLsb'_append_eq_of_le, BitVec.extractLsb'_append_eq_of_add_le] <;> simp
theorem part_2_18_f18 (x : BitVec 2) (y : BitVec 18) :
    @BitVec.extractLsb' 20 18 2 (x ++ y) = x := by
  change BitVec.extractLsb' 18 2 (x ++ y) = x
  simp (disch := decide) only [BitVec.extractLsb'_append_eq_of_le, BitVec.extractLsb'_append_eq_of_add_le] <;> simp
theorem part_2_1_6_f0 (x : BitVec 2) (y : BitVec 1) (z : BitVec 6) :
    @BitVec.extractLsb' 9 0 6 (x ++ y ++ z) = z := by
  change BitVec.extractLsb' 0 6 (x ++ y ++ z) = z
  simp (disch := decide) only [BitVec.extractLsb'_append_eq_of_le, BitVec.extractLsb'_append_eq_of_add_le] <;> simp
theorem part_2_1_6_f7 (x : BitVec 2) (y : BitVec 1) (z : BitVec 6) :
    @BitVec.extractLsb' 9 7 2 (x ++ y ++ z) = x := by
  change BitVec.extractLsb' 7 2 (x ++ y ++ z) = x
  simp (disch := decide) only [BitVec.extractLsb'_append_eq_of_le, BitVec.extractLsb'_append_eq_of_add_le] <;> simp
theorem part_2_b_6_f0 (x : BitVec 2) (y : Bool) (z : BitVec 6) :
    @BitVec.extractLsb' 9 0 6 (x ++ BitVec.ofBool y ++ z) = z := by
  change BitVec.extractLsb' 0 6 (x ++ BitVec.ofBool y ++ z) = z
  simp (disch := decide) only [BitVec.extractLsb'_append_eq_of_le, BitVec.extractLsb'_append_eq_of_add_le] <;> simp
theorem part_2_b_6_bit6 (x : BitVec 2) (y : Bool) (z : BitVec 6) :
    @BitVec.getLsbD 9 (x ++ BitVec.ofBool y ++ z) 6 = y := by
  change BitVec.getLsbD (x ++ BitVec.ofBool y ++ z) 6 = y
  simp only [BitVec.getLsbD_append, BitVec.getLsbD_ofBool]
  simp
theorem part_2_b_6_f7 (x : BitVec 2) (y : Bool) (z : BitVec 6) :
    @BitVec.extractLsb' 9 7 2 (x ++ BitVec.ofBool y ++ z) = x := by
  change BitVec.extractLsb' 7 2 (x ++ BitVec.ofBool y ++ z) = x
  simp (disch := decide) only [BitVec.extractLsb'_append_eq_of_le, BitVec.extractLsb'_append_eq_of_add_le] <;> simp
theorem part_3_6_f0 (x : BitVec 3) (y : BitVec 6) :
    @BitVec.extractLsb' 9 0 6 (x ++ y) = y := by
  change BitVec.extractLsb' 0 6 (x ++ y) = y
  simp (disch := decide) only [BitVec.extractLsb'_append_eq_of_le, BitVec.extractLsb'_append_eq_of_add_le] <;> simp
theorem part_2_7_f7 (x : BitVec 2) (y : BitVec 7) :
    @BitVec.extractLsb' 9 7 2 (x ++ y) = x := by
  change BitVec.extractLsb' 7 2 (x ++ y) = x
  simp (disch := decide) only [BitVec.extractLsb'_append_eq_of_le, BitVec.extractLsb'_append_eq_of_add_le] <;> simp
theorem part_23_5_6_f0 (x : BitVec 23) (y : BitVec 5) (z : BitVec 6) :
    @BitVec.extractLsb' 34 0 6 (x ++ y ++ z) = z := by
  change BitVec.extractLsb' 0 6 (x ++ y ++ z) = z
  simp (disch := decide) only [BitVec.extractLsb'_append_eq_of_le, BitVec.extractLsb'_append_eq_of_add_le] <;> simp
theorem part_23_5_6_f6 (x : BitVec 23) (y : BitVec 5) (z : BitVec 6) :
    @BitVec.extractLsb' 34 6 5 (x ++ y ++ z) = y := by
  change BitVec.extractLsb' 6 5 (x ++ y ++ z) = y
  simp (disch := decide) only [BitVec.extractLsb'_append_eq_of_le, BitVec.extractLsb'_append_eq_of_add_le] <;> simp
theorem part_1_2_3_f0 (x : BitVec 1) (y : BitVec 2) (z : BitVec 3) :
    @BitVec.extractLsb' 6 0 3 (x ++ y ++ z) = z := by
  change BitVec.extractLsb' 0 3 (x ++ y ++ z) = z
  simp (disch := decide) only [BitVec.extractLsb'_append_eq_of_le, BitVec.extractLsb'_append_eq_of_add_le] <;> simp
theorem part_1_2_3_f3 (x : BitVec 1) (y : BitVec 2) (z : BitVec 3) :
    @BitVec.extractLsb' 6 3 2 (x ++ y ++ z) = y := by
  change BitVec.extractLsb' 3 2 (x ++ y ++ z) = y
  simp (disch := decide) only [BitVec.extractLsb'_append_eq_of_le, BitVec.extractLsb'_append_eq_of_add_le] <;> simp
theorem part_6_28_f0 (x : BitVec 6) (y : BitVec 28) :
    @BitVec.extractLsb' 34 0 28 (x ++ y) = y := by
  change BitVec.extractLsb' 0 28 (x ++ y) = y
  simp (disch := decide) only [BitVec.extractLsb'_append_eq_of_le, BitVec.extractLsb'_append_eq_of_add_le] <;> simp
theorem part_6_28_f28 (x : BitVec 6) (y : BitVec 28) :
    @BitVec.extractLsb' 34 28 6 (x ++ y) = x := by
  change BitVec.extractLsb' 28 6 (x ++ y) = x
  simp (disch := decide) only [BitVec.extractLsb'_append_eq_of_le, BitVec.extractLsb'_append_eq_of_add_le] <;> simp
theorem part_18_15_1_f1 (x : BitVec 18) (y : BitVec 15) (z : BitVec 1) :
    @BitVec.extractLsb' 34 1 15 (x ++ y ++ z) = y := by
  change BitVec.extractLsb' 1 15 (x ++ y ++ z) = y
  simp (disch := decide) only [BitVec.extractLsb'_append_eq_of_le, BitVec.extractLsb'_append_eq_of_add_le] <;> simp
theorem part_2_16_16_f0 (x : BitVec 2) (y : BitVec 16) (z : BitVec 16) :
    @BitVec.extractLsb' 34 0 16 (x ++ y ++ z) = z := by
  change BitVec.extractLsb' 0 16 (x ++ y ++ z) = z
  simp (disch := decide) only [BitVec.extractLsb'_append_eq_of_le, BitVec.extractLsb'_append_eq_of_add_le] <;> simp
theorem part_2_16_16_f16 (x : BitVec 2) (y : BitVec 16) (z : BitVec 16) :
    @BitVec.extractLsb' 34 16 16 (x ++ y ++ z) = y := by
  change BitVec.extractLsb' 16 16 (x ++ y ++ z) = y
  simp (disch := decide) only [BitVec.extractLsb'_append_eq_of_le, BitVec.extractLsb'_append_eq_of_add_le] <;> simp
theorem part_widen (n : BitVec 6) : BitVec.extractLsb' 0 6 (n.setWidth 34) = n := by
  simp [BitVec.extractLsb'_setWidth_of_le]

@[simp] theorem Fmt.code_lt (f : Fmt) : f.code.toNat < 24 := by cases f <;> decide
@[simp] theorem Lane2.code_lt (f : Lane2) : f.code.toNat < 24 := by cases f <;> decide
@[simp] theorem IdxFmt.code_lt (f : IdxFmt) : f.code.toNat < 24 := by cases f <;> decide

@[simp] theorem LaneArith.ty_lt (x : LaneArith) : x.ty.toNat < 24 := by cases x <;> simp [LaneArith.ty]
@[simp] theorem LaneMin.ty_lt (x : LaneMin) : x.ty.toNat < 24 := by cases x <;> simp [LaneMin.ty]
@[simp] theorem LaneCmp.ty_lt (x : LaneCmp) : x.ty.toNat < 24 := by cases x <;> simp [LaneCmp.ty]
@[simp] theorem MillC.fcode_lt (x : MillC) : x.fcode.toNat < 24 := by
  cases x <;> simp [MillC.fcode]
theorem streamIndex_back (s : BitVec 4) :
    streamIndex (streamField s) (@BitVec.getLsbD 6 (0#5 ++ s.extractLsb' 3 1) 0) = s := by
  revert s; decide
theorem SsetDst.ofCode_fields (t : SsetDst) :
    SsetDst.ofCode (t.dirField.getLsbD 0) (t.subField.extractLsb' 7 2) (t.subField.getLsbD 6) = t := by
  rcases t with p | sp
  · revert p; decide
  · revert sp; decide

/-! ### The fields of a body, format by format -/

@[simp] theorem fg3_bit33 (d : BitVec 6) (a : BitVec 6) (b : BitVec 6) (c : BitVec 6) (sub : BitVec 6) :
    Body.bit (fg3 d a b c sub) 33 = b.getLsbD 5 := by
  have e : Body.f (fg3 d a b c sub) 33 1 = b.extractLsb' 5 1 := by
    simp (disch := decide) only [fg3, Body.f, BitVec.extractLsb'_append_eq_of_le, BitVec.extractLsb'_append_eq_of_add_le] <;> simp
  have h := congrArg (fun v => v.getLsbD 0) e
  simpa [Body.f, Body.bit] using h
@[simp] theorem fg3_bit27 (d : BitVec 6) (a : BitVec 6) (b : BitVec 6) (c : BitVec 6) (sub : BitVec 6) :
    Body.bit (fg3 d a b c sub) 27 = c.getLsbD 5 := by
  have e : Body.f (fg3 d a b c sub) 27 1 = c.extractLsb' 5 1 := by
    simp (disch := decide) only [fg3, Body.f, BitVec.extractLsb'_append_eq_of_le, BitVec.extractLsb'_append_eq_of_add_le] <;> simp
  have h := congrArg (fun v => v.getLsbD 0) e
  simpa [Body.f, Body.bit] using h
@[simp] theorem fg3_bit21 (d : BitVec 6) (a : BitVec 6) (b : BitVec 6) (c : BitVec 6) (sub : BitVec 6) :
    Body.bit (fg3 d a b c sub) 21 = sub.getLsbD 5 := by
  have e : Body.f (fg3 d a b c sub) 21 1 = sub.extractLsb' 5 1 := by
    simp (disch := decide) only [fg3, Body.f, BitVec.extractLsb'_append_eq_of_le, BitVec.extractLsb'_append_eq_of_add_le] <;> simp
  have h := congrArg (fun v => v.getLsbD 0) e
  simpa [Body.f, Body.bit] using h
@[simp] theorem fdv_bit14 (d : BitVec 5) (a : BitVec 5) (b : BitVec 5) (c : BitVec 5) (mask : BitVec 6) (ty : BitVec 5) (sub : BitVec 6) (imm : BitVec 9) :
    Body.bit (fdv d a b c mask ty sub imm) 14 = sub.getLsbD 5 := by
  have e : Body.f (fdv d a b c mask ty sub imm) 14 1 = sub.extractLsb' 5 1 := by
    simp (disch := decide) only [fdv, Body.f, BitVec.extractLsb'_append_eq_of_le, BitVec.extractLsb'_append_eq_of_add_le] <;> simp
  have h := congrArg (fun v => v.getLsbD 0) e
  simpa [Body.f, Body.bit] using h
@[simp] theorem fg3_bit16 (d : BitVec 6) (a : BitVec 6) (b : BitVec 6) (c : BitVec 6) (sub : BitVec 6) :
    Body.bit (fg3 d a b c sub) 16 = sub.getLsbD 0 := by
  have e : Body.f (fg3 d a b c sub) 16 1 = sub.extractLsb' 0 1 := by
    simp (disch := decide) only [fg3, Body.f, BitVec.extractLsb'_append_eq_of_le, BitVec.extractLsb'_append_eq_of_add_le] <;> simp
  have h := congrArg (fun v => v.getLsbD 0) e
  simpa [Body.f, Body.bit] using h
@[simp] theorem fg3_bit18 (d : BitVec 6) (a : BitVec 6) (b : BitVec 6) (c : BitVec 6) (sub : BitVec 6) :
    Body.bit (fg3 d a b c sub) 18 = sub.getLsbD 2 := by
  have e : Body.f (fg3 d a b c sub) 18 1 = sub.extractLsb' 2 1 := by
    simp (disch := decide) only [fg3, Body.f, BitVec.extractLsb'_append_eq_of_le, BitVec.extractLsb'_append_eq_of_add_le] <;> simp
  have h := congrArg (fun v => v.getLsbD 0) e
  simpa [Body.f, Body.bit] using h
@[simp] theorem fg3_f16_2 (d : BitVec 6) (a : BitVec 6) (b : BitVec 6) (c : BitVec 6) (sub : BitVec 6) :
    Body.f (fg3 d a b c sub) 16 2 = sub.extractLsb' 0 2 := by
  simp (disch := decide) only [fg3, Body.g, Body.f, Body.imm34, BitVec.extractLsb'_append_eq_of_le, BitVec.extractLsb'_append_eq_of_add_le] <;> simp
@[simp] theorem fg3_f16_3 (d : BitVec 6) (a : BitVec 6) (b : BitVec 6) (c : BitVec 6) (sub : BitVec 6) :
    Body.f (fg3 d a b c sub) 16 3 = sub.extractLsb' 0 3 := by
  simp (disch := decide) only [fg3, Body.g, Body.f, Body.imm34, BitVec.extractLsb'_append_eq_of_le, BitVec.extractLsb'_append_eq_of_add_le] <;> simp
@[simp] theorem fg3_f16_4 (d : BitVec 6) (a : BitVec 6) (b : BitVec 6) (c : BitVec 6) (sub : BitVec 6) :
    Body.f (fg3 d a b c sub) 16 4 = sub.extractLsb' 0 4 := by
  simp (disch := decide) only [fg3, Body.g, Body.f, Body.imm34, BitVec.extractLsb'_append_eq_of_le, BitVec.extractLsb'_append_eq_of_add_le] <;> simp
@[simp] theorem fg3_f16_5 (d : BitVec 6) (a : BitVec 6) (b : BitVec 6) (c : BitVec 6) (sub : BitVec 6) :
    Body.f (fg3 d a b c sub) 16 5 = sub.extractLsb' 0 5 := by
  simp (disch := decide) only [fg3, Body.g, Body.f, Body.imm34, BitVec.extractLsb'_append_eq_of_le, BitVec.extractLsb'_append_eq_of_add_le] <;> simp
@[simp] theorem fg3_f20_2 (d : BitVec 6) (a : BitVec 6) (b : BitVec 6) (c : BitVec 6) (sub : BitVec 6) :
    Body.f (fg3 d a b c sub) 20 2 = sub.extractLsb' 4 2 := by
  simp (disch := decide) only [fg3, Body.g, Body.f, Body.imm34, BitVec.extractLsb'_append_eq_of_le, BitVec.extractLsb'_append_eq_of_add_le] <;> simp
@[simp] theorem fg3_f22_5 (d : BitVec 6) (a : BitVec 6) (b : BitVec 6) (c : BitVec 6) (sub : BitVec 6) :
    Body.f (fg3 d a b c sub) 22 5 = c.extractLsb' 0 5 := by
  simp (disch := decide) only [fg3, Body.g, Body.f, Body.imm34, BitVec.extractLsb'_append_eq_of_le, BitVec.extractLsb'_append_eq_of_add_le] <;> simp
@[simp] theorem fg3_f28_5 (d : BitVec 6) (a : BitVec 6) (b : BitVec 6) (c : BitVec 6) (sub : BitVec 6) :
    Body.f (fg3 d a b c sub) 28 5 = b.extractLsb' 0 5 := by
  simp (disch := decide) only [fg3, Body.g, Body.f, Body.imm34, BitVec.extractLsb'_append_eq_of_le, BitVec.extractLsb'_append_eq_of_add_le] <;> simp
@[simp] theorem fg3_g16 (d : BitVec 6) (a : BitVec 6) (b : BitVec 6) (c : BitVec 6) (sub : BitVec 6) :
    Body.g (fg3 d a b c sub) 16 = sub := by
  simp (disch := decide) only [fg3, Body.g, Body.f, Body.imm34, BitVec.extractLsb'_append_eq_of_le, BitVec.extractLsb'_append_eq_of_add_le] <;> simp
@[simp] theorem fg3_g22 (d : BitVec 6) (a : BitVec 6) (b : BitVec 6) (c : BitVec 6) (sub : BitVec 6) :
    Body.g (fg3 d a b c sub) 22 = c := by
  simp (disch := decide) only [fg3, Body.g, Body.f, Body.imm34, BitVec.extractLsb'_append_eq_of_le, BitVec.extractLsb'_append_eq_of_add_le] <;> simp
@[simp] theorem fg3_g28 (d : BitVec 6) (a : BitVec 6) (b : BitVec 6) (c : BitVec 6) (sub : BitVec 6) :
    Body.g (fg3 d a b c sub) 28 = b := by
  simp (disch := decide) only [fg3, Body.g, Body.f, Body.imm34, BitVec.extractLsb'_append_eq_of_le, BitVec.extractLsb'_append_eq_of_add_le] <;> simp
@[simp] theorem fg3_g34 (d : BitVec 6) (a : BitVec 6) (b : BitVec 6) (c : BitVec 6) (sub : BitVec 6) :
    Body.g (fg3 d a b c sub) 34 = a := by
  simp (disch := decide) only [fg3, Body.g, Body.f, Body.imm34, BitVec.extractLsb'_append_eq_of_le, BitVec.extractLsb'_append_eq_of_add_le] <;> simp
@[simp] theorem fg3_g40 (d : BitVec 6) (a : BitVec 6) (b : BitVec 6) (c : BitVec 6) (sub : BitVec 6) :
    Body.g (fg3 d a b c sub) 40 = d := by
  simp (disch := decide) only [fg3, Body.g, Body.f, Body.imm34, BitVec.extractLsb'_append_eq_of_le, BitVec.extractLsb'_append_eq_of_add_le] <;> simp
@[simp] theorem fgi_f0_16 (d : BitVec 6) (a : BitVec 6) (imm : BitVec 34) :
    Body.f (fgi d a imm) 0 16 = imm.extractLsb' 0 16 := by
  simp (disch := decide) only [fgi, Body.g, Body.f, Body.imm34, BitVec.extractLsb'_append_eq_of_le, BitVec.extractLsb'_append_eq_of_add_le] <;> simp
@[simp] theorem fgi_f0_30 (d : BitVec 6) (a : BitVec 6) (imm : BitVec 34) :
    Body.f (fgi d a imm) 0 30 = imm.extractLsb' 0 30 := by
  simp (disch := decide) only [fgi, Body.g, Body.f, Body.imm34, BitVec.extractLsb'_append_eq_of_le, BitVec.extractLsb'_append_eq_of_add_le] <;> simp
@[simp] theorem fgi_f0_8 (d : BitVec 6) (a : BitVec 6) (imm : BitVec 34) :
    Body.f (fgi d a imm) 0 8 = imm.extractLsb' 0 8 := by
  simp (disch := decide) only [fgi, Body.g, Body.f, Body.imm34, BitVec.extractLsb'_append_eq_of_le, BitVec.extractLsb'_append_eq_of_add_le] <;> simp
@[simp] theorem fgi_f30_4 (d : BitVec 6) (a : BitVec 6) (imm : BitVec 34) :
    Body.f (fgi d a imm) 30 4 = imm.extractLsb' 30 4 := by
  simp (disch := decide) only [fgi, Body.g, Body.f, Body.imm34, BitVec.extractLsb'_append_eq_of_le, BitVec.extractLsb'_append_eq_of_add_le] <;> simp
@[simp] theorem fgi_g0 (d : BitVec 6) (a : BitVec 6) (imm : BitVec 34) :
    Body.g (fgi d a imm) 0 = imm.extractLsb' 0 6 := by
  simp (disch := decide) only [fgi, Body.g, Body.f, Body.imm34, BitVec.extractLsb'_append_eq_of_le, BitVec.extractLsb'_append_eq_of_add_le] <;> simp
@[simp] theorem fgi_g34 (d : BitVec 6) (a : BitVec 6) (imm : BitVec 34) :
    Body.g (fgi d a imm) 34 = a := by
  simp (disch := decide) only [fgi, Body.g, Body.f, Body.imm34, BitVec.extractLsb'_append_eq_of_le, BitVec.extractLsb'_append_eq_of_add_le] <;> simp
@[simp] theorem fgi_g40 (d : BitVec 6) (a : BitVec 6) (imm : BitVec 34) :
    Body.g (fgi d a imm) 40 = d := by
  simp (disch := decide) only [fgi, Body.g, Body.f, Body.imm34, BitVec.extractLsb'_append_eq_of_le, BitVec.extractLsb'_append_eq_of_add_le] <;> simp
@[simp] theorem fgi_imm34 (d : BitVec 6) (a : BitVec 6) (imm : BitVec 34) :
    Body.imm34 (fgi d a imm) = imm := by
  simp (disch := decide) only [fgi, Body.g, Body.f, Body.imm34, BitVec.extractLsb'_append_eq_of_le, BitVec.extractLsb'_append_eq_of_add_le] <;> simp
@[simp] theorem fgm_f0_16 (d : BitVec 6) (base : BitVec 6) (index : BitVec 6) (sc : BitVec 2) (ord : BitVec 3) (scope : BitVec 3) (off : BitVec 20) :
    Body.f (fgm d base index sc ord scope off) 0 16 = off.extractLsb' 0 16 := by
  simp (disch := decide) only [fgm, Body.g, Body.f, Body.imm34, BitVec.extractLsb'_append_eq_of_le, BitVec.extractLsb'_append_eq_of_add_le] <;> simp
@[simp] theorem fgm_f0_20 (d : BitVec 6) (base : BitVec 6) (index : BitVec 6) (sc : BitVec 2) (ord : BitVec 3) (scope : BitVec 3) (off : BitVec 20) :
    Body.f (fgm d base index sc ord scope off) 0 20 = off := by
  simp (disch := decide) only [fgm, Body.g, Body.f, Body.imm34, BitVec.extractLsb'_append_eq_of_le, BitVec.extractLsb'_append_eq_of_add_le] <;> simp
@[simp] theorem fgm_f16_4 (d : BitVec 6) (base : BitVec 6) (index : BitVec 6) (sc : BitVec 2) (ord : BitVec 3) (scope : BitVec 3) (off : BitVec 20) :
    Body.f (fgm d base index sc ord scope off) 16 4 = off.extractLsb' 16 4 := by
  simp (disch := decide) only [fgm, Body.g, Body.f, Body.imm34, BitVec.extractLsb'_append_eq_of_le, BitVec.extractLsb'_append_eq_of_add_le] <;> simp
@[simp] theorem fgm_f20_3 (d : BitVec 6) (base : BitVec 6) (index : BitVec 6) (sc : BitVec 2) (ord : BitVec 3) (scope : BitVec 3) (off : BitVec 20) :
    Body.f (fgm d base index sc ord scope off) 20 3 = scope := by
  simp (disch := decide) only [fgm, Body.g, Body.f, Body.imm34, BitVec.extractLsb'_append_eq_of_le, BitVec.extractLsb'_append_eq_of_add_le] <;> simp
@[simp] theorem fgm_f23_3 (d : BitVec 6) (base : BitVec 6) (index : BitVec 6) (sc : BitVec 2) (ord : BitVec 3) (scope : BitVec 3) (off : BitVec 20) :
    Body.f (fgm d base index sc ord scope off) 23 3 = ord := by
  simp (disch := decide) only [fgm, Body.g, Body.f, Body.imm34, BitVec.extractLsb'_append_eq_of_le, BitVec.extractLsb'_append_eq_of_add_le] <;> simp
@[simp] theorem fgm_f26_2 (d : BitVec 6) (base : BitVec 6) (index : BitVec 6) (sc : BitVec 2) (ord : BitVec 3) (scope : BitVec 3) (off : BitVec 20) :
    Body.f (fgm d base index sc ord scope off) 26 2 = sc := by
  simp (disch := decide) only [fgm, Body.g, Body.f, Body.imm34, BitVec.extractLsb'_append_eq_of_le, BitVec.extractLsb'_append_eq_of_add_le] <;> simp
@[simp] theorem fgm_f40_5 (d : BitVec 6) (base : BitVec 6) (index : BitVec 6) (sc : BitVec 2) (ord : BitVec 3) (scope : BitVec 3) (off : BitVec 20) :
    Body.f (fgm d base index sc ord scope off) 40 5 = d.extractLsb' 0 5 := by
  simp (disch := decide) only [fgm, Body.g, Body.f, Body.imm34, BitVec.extractLsb'_append_eq_of_le, BitVec.extractLsb'_append_eq_of_add_le] <;> simp
@[simp] theorem fgm_g28 (d : BitVec 6) (base : BitVec 6) (index : BitVec 6) (sc : BitVec 2) (ord : BitVec 3) (scope : BitVec 3) (off : BitVec 20) :
    Body.g (fgm d base index sc ord scope off) 28 = index := by
  simp (disch := decide) only [fgm, Body.g, Body.f, Body.imm34, BitVec.extractLsb'_append_eq_of_le, BitVec.extractLsb'_append_eq_of_add_le] <;> simp
@[simp] theorem fgm_g34 (d : BitVec 6) (base : BitVec 6) (index : BitVec 6) (sc : BitVec 2) (ord : BitVec 3) (scope : BitVec 3) (off : BitVec 20) :
    Body.g (fgm d base index sc ord scope off) 34 = base := by
  simp (disch := decide) only [fgm, Body.g, Body.f, Body.imm34, BitVec.extractLsb'_append_eq_of_le, BitVec.extractLsb'_append_eq_of_add_le] <;> simp
@[simp] theorem fgm_g40 (d : BitVec 6) (base : BitVec 6) (index : BitVec 6) (sc : BitVec 2) (ord : BitVec 3) (scope : BitVec 3) (off : BitVec 20) :
    Body.g (fgm d base index sc ord scope off) 40 = d := by
  simp (disch := decide) only [fgm, Body.g, Body.f, Body.imm34, BitVec.extractLsb'_append_eq_of_le, BitVec.extractLsb'_append_eq_of_add_le] <;> simp
@[simp] theorem fgb_f0_26 (a : BitVec 6) (b : BitVec 6) (cc : BitVec 4) (slot : BitVec 3) (line : BitVec 26) :
    Body.f (fgb a b cc slot line) 0 26 = line := by
  simp (disch := decide) only [fgb, Body.g, Body.f, Body.imm34, BitVec.extractLsb'_append_eq_of_le, BitVec.extractLsb'_append_eq_of_add_le] <;> simp
@[simp] theorem fgb_f26_3 (a : BitVec 6) (b : BitVec 6) (cc : BitVec 4) (slot : BitVec 3) (line : BitVec 26) :
    Body.f (fgb a b cc slot line) 26 3 = slot := by
  simp (disch := decide) only [fgb, Body.g, Body.f, Body.imm34, BitVec.extractLsb'_append_eq_of_le, BitVec.extractLsb'_append_eq_of_add_le] <;> simp
@[simp] theorem fgb_f30_2 (a : BitVec 6) (b : BitVec 6) (cc : BitVec 4) (slot : BitVec 3) (line : BitVec 26) :
    Body.f (fgb a b cc slot line) 30 2 = cc.extractLsb' 0 2 := by
  simp (disch := decide) only [fgb, Body.g, Body.f, Body.imm34, BitVec.extractLsb'_append_eq_of_le, BitVec.extractLsb'_append_eq_of_add_le] <;> simp
@[simp] theorem fgb_f30_4 (a : BitVec 6) (b : BitVec 6) (cc : BitVec 4) (slot : BitVec 3) (line : BitVec 26) :
    Body.f (fgb a b cc slot line) 30 4 = cc := by
  simp (disch := decide) only [fgb, Body.g, Body.f, Body.imm34, BitVec.extractLsb'_append_eq_of_le, BitVec.extractLsb'_append_eq_of_add_le] <;> simp
@[simp] theorem fgb_g34 (a : BitVec 6) (b : BitVec 6) (cc : BitVec 4) (slot : BitVec 3) (line : BitVec 26) :
    Body.g (fgb a b cc slot line) 34 = b := by
  simp (disch := decide) only [fgb, Body.g, Body.f, Body.imm34, BitVec.extractLsb'_append_eq_of_le, BitVec.extractLsb'_append_eq_of_add_le] <;> simp
@[simp] theorem fgb_g40 (a : BitVec 6) (b : BitVec 6) (cc : BitVec 4) (slot : BitVec 3) (line : BitVec 26) :
    Body.g (fgb a b cc slot line) 40 = a := by
  simp (disch := decide) only [fgb, Body.g, Body.f, Body.imm34, BitVec.extractLsb'_append_eq_of_le, BitVec.extractLsb'_append_eq_of_add_le] <;> simp
@[simp] theorem fdv_bit10 (d : BitVec 5) (a : BitVec 5) (b : BitVec 5) (c : BitVec 5) (mask : BitVec 6) (ty : BitVec 5) (sub : BitVec 6) (imm : BitVec 9) :
    Body.bit (fdv d a b c mask ty sub imm) 10 = sub.getLsbD 1 := by
  have e : Body.f (fdv d a b c mask ty sub imm) 10 1 = sub.extractLsb' 1 1 := by
    simp (disch := decide) only [fdv, Body.f, BitVec.extractLsb'_append_eq_of_le, BitVec.extractLsb'_append_eq_of_add_le] <;> simp
  have h := congrArg (fun v => v.getLsbD 0) e
  simpa [Body.f, Body.bit] using h
@[simp] theorem fdv_bit11 (d : BitVec 5) (a : BitVec 5) (b : BitVec 5) (c : BitVec 5) (mask : BitVec 6) (ty : BitVec 5) (sub : BitVec 6) (imm : BitVec 9) :
    Body.bit (fdv d a b c mask ty sub imm) 11 = sub.getLsbD 2 := by
  have e : Body.f (fdv d a b c mask ty sub imm) 11 1 = sub.extractLsb' 2 1 := by
    simp (disch := decide) only [fdv, Body.f, BitVec.extractLsb'_append_eq_of_le, BitVec.extractLsb'_append_eq_of_add_le] <;> simp
  have h := congrArg (fun v => v.getLsbD 0) e
  simpa [Body.f, Body.bit] using h
@[simp] theorem fdv_bit9 (d : BitVec 5) (a : BitVec 5) (b : BitVec 5) (c : BitVec 5) (mask : BitVec 6) (ty : BitVec 5) (sub : BitVec 6) (imm : BitVec 9) :
    Body.bit (fdv d a b c mask ty sub imm) 9 = sub.getLsbD 0 := by
  have e : Body.f (fdv d a b c mask ty sub imm) 9 1 = sub.extractLsb' 0 1 := by
    simp (disch := decide) only [fdv, Body.f, BitVec.extractLsb'_append_eq_of_le, BitVec.extractLsb'_append_eq_of_add_le] <;> simp
  have h := congrArg (fun v => v.getLsbD 0) e
  simpa [Body.f, Body.bit] using h
@[simp] theorem fdv_f0_3 (d : BitVec 5) (a : BitVec 5) (b : BitVec 5) (c : BitVec 5) (mask : BitVec 6) (ty : BitVec 5) (sub : BitVec 6) (imm : BitVec 9) :
    Body.f (fdv d a b c mask ty sub imm) 0 3 = imm.extractLsb' 0 3 := by
  simp (disch := decide) only [fdv, Body.g, Body.f, Body.imm34, BitVec.extractLsb'_append_eq_of_le, BitVec.extractLsb'_append_eq_of_add_le] <;> simp
@[simp] theorem fdv_f0_4 (d : BitVec 5) (a : BitVec 5) (b : BitVec 5) (c : BitVec 5) (mask : BitVec 6) (ty : BitVec 5) (sub : BitVec 6) (imm : BitVec 9) :
    Body.f (fdv d a b c mask ty sub imm) 0 4 = imm.extractLsb' 0 4 := by
  simp (disch := decide) only [fdv, Body.g, Body.f, Body.imm34, BitVec.extractLsb'_append_eq_of_le, BitVec.extractLsb'_append_eq_of_add_le] <;> simp
@[simp] theorem fdv_f0_5 (d : BitVec 5) (a : BitVec 5) (b : BitVec 5) (c : BitVec 5) (mask : BitVec 6) (ty : BitVec 5) (sub : BitVec 6) (imm : BitVec 9) :
    Body.f (fdv d a b c mask ty sub imm) 0 5 = imm.extractLsb' 0 5 := by
  simp (disch := decide) only [fdv, Body.g, Body.f, Body.imm34, BitVec.extractLsb'_append_eq_of_le, BitVec.extractLsb'_append_eq_of_add_le] <;> simp
@[simp] theorem fdv_f0_9 (d : BitVec 5) (a : BitVec 5) (b : BitVec 5) (c : BitVec 5) (mask : BitVec 6) (ty : BitVec 5) (sub : BitVec 6) (imm : BitVec 9) :
    Body.f (fdv d a b c mask ty sub imm) 0 9 = imm := by
  simp (disch := decide) only [fdv, Body.g, Body.f, Body.imm34, BitVec.extractLsb'_append_eq_of_le, BitVec.extractLsb'_append_eq_of_add_le] <;> simp
@[simp] theorem fdv_f15_5 (d : BitVec 5) (a : BitVec 5) (b : BitVec 5) (c : BitVec 5) (mask : BitVec 6) (ty : BitVec 5) (sub : BitVec 6) (imm : BitVec 9) :
    Body.f (fdv d a b c mask ty sub imm) 15 5 = ty := by
  simp (disch := decide) only [fdv, Body.g, Body.f, Body.imm34, BitVec.extractLsb'_append_eq_of_le, BitVec.extractLsb'_append_eq_of_add_le] <;> simp
@[simp] theorem fdv_f26_5 (d : BitVec 5) (a : BitVec 5) (b : BitVec 5) (c : BitVec 5) (mask : BitVec 6) (ty : BitVec 5) (sub : BitVec 6) (imm : BitVec 9) :
    Body.f (fdv d a b c mask ty sub imm) 26 5 = c := by
  simp (disch := decide) only [fdv, Body.g, Body.f, Body.imm34, BitVec.extractLsb'_append_eq_of_le, BitVec.extractLsb'_append_eq_of_add_le] <;> simp
@[simp] theorem fdv_f31_5 (d : BitVec 5) (a : BitVec 5) (b : BitVec 5) (c : BitVec 5) (mask : BitVec 6) (ty : BitVec 5) (sub : BitVec 6) (imm : BitVec 9) :
    Body.f (fdv d a b c mask ty sub imm) 31 5 = b := by
  simp (disch := decide) only [fdv, Body.g, Body.f, Body.imm34, BitVec.extractLsb'_append_eq_of_le, BitVec.extractLsb'_append_eq_of_add_le] <;> simp
@[simp] theorem fdv_f36_5 (d : BitVec 5) (a : BitVec 5) (b : BitVec 5) (c : BitVec 5) (mask : BitVec 6) (ty : BitVec 5) (sub : BitVec 6) (imm : BitVec 9) :
    Body.f (fdv d a b c mask ty sub imm) 36 5 = a := by
  simp (disch := decide) only [fdv, Body.g, Body.f, Body.imm34, BitVec.extractLsb'_append_eq_of_le, BitVec.extractLsb'_append_eq_of_add_le] <;> simp
@[simp] theorem fdv_f41_5 (d : BitVec 5) (a : BitVec 5) (b : BitVec 5) (c : BitVec 5) (mask : BitVec 6) (ty : BitVec 5) (sub : BitVec 6) (imm : BitVec 9) :
    Body.f (fdv d a b c mask ty sub imm) 41 5 = d := by
  simp (disch := decide) only [fdv, Body.g, Body.f, Body.imm34, BitVec.extractLsb'_append_eq_of_le, BitVec.extractLsb'_append_eq_of_add_le] <;> simp
@[simp] theorem fdv_f9_1 (d : BitVec 5) (a : BitVec 5) (b : BitVec 5) (c : BitVec 5) (mask : BitVec 6) (ty : BitVec 5) (sub : BitVec 6) (imm : BitVec 9) :
    Body.f (fdv d a b c mask ty sub imm) 9 1 = sub.extractLsb' 0 1 := by
  simp (disch := decide) only [fdv, Body.g, Body.f, Body.imm34, BitVec.extractLsb'_append_eq_of_le, BitVec.extractLsb'_append_eq_of_add_le] <;> simp
@[simp] theorem fdv_f9_2 (d : BitVec 5) (a : BitVec 5) (b : BitVec 5) (c : BitVec 5) (mask : BitVec 6) (ty : BitVec 5) (sub : BitVec 6) (imm : BitVec 9) :
    Body.f (fdv d a b c mask ty sub imm) 9 2 = sub.extractLsb' 0 2 := by
  simp (disch := decide) only [fdv, Body.g, Body.f, Body.imm34, BitVec.extractLsb'_append_eq_of_le, BitVec.extractLsb'_append_eq_of_add_le] <;> simp
@[simp] theorem fdv_f9_3 (d : BitVec 5) (a : BitVec 5) (b : BitVec 5) (c : BitVec 5) (mask : BitVec 6) (ty : BitVec 5) (sub : BitVec 6) (imm : BitVec 9) :
    Body.f (fdv d a b c mask ty sub imm) 9 3 = sub.extractLsb' 0 3 := by
  simp (disch := decide) only [fdv, Body.g, Body.f, Body.imm34, BitVec.extractLsb'_append_eq_of_le, BitVec.extractLsb'_append_eq_of_add_le] <;> simp
@[simp] theorem fdv_f9_5 (d : BitVec 5) (a : BitVec 5) (b : BitVec 5) (c : BitVec 5) (mask : BitVec 6) (ty : BitVec 5) (sub : BitVec 6) (imm : BitVec 9) :
    Body.f (fdv d a b c mask ty sub imm) 9 5 = sub.extractLsb' 0 5 := by
  simp (disch := decide) only [fdv, Body.g, Body.f, Body.imm34, BitVec.extractLsb'_append_eq_of_le, BitVec.extractLsb'_append_eq_of_add_le] <;> simp
@[simp] theorem fdv_g20 (d : BitVec 5) (a : BitVec 5) (b : BitVec 5) (c : BitVec 5) (mask : BitVec 6) (ty : BitVec 5) (sub : BitVec 6) (imm : BitVec 9) :
    Body.g (fdv d a b c mask ty sub imm) 20 = mask := by
  simp (disch := decide) only [fdv, Body.g, Body.f, Body.imm34, BitVec.extractLsb'_append_eq_of_le, BitVec.extractLsb'_append_eq_of_add_le] <;> simp
@[simp] theorem fdv_g9 (d : BitVec 5) (a : BitVec 5) (b : BitVec 5) (c : BitVec 5) (mask : BitVec 6) (ty : BitVec 5) (sub : BitVec 6) (imm : BitVec 9) :
    Body.g (fdv d a b c mask ty sub imm) 9 = sub := by
  simp (disch := decide) only [fdv, Body.g, Body.f, Body.imm34, BitVec.extractLsb'_append_eq_of_le, BitVec.extractLsb'_append_eq_of_add_le] <;> simp
@[simp] theorem fsys_f22_12 (d : BitVec 6) (a : BitVec 6) (cw : BitVec 12) :
    Body.f (fsys d a cw) 22 12 = cw := by
  simp (disch := decide) only [fsys, Body.g, Body.f, Body.imm34, BitVec.extractLsb'_append_eq_of_le, BitVec.extractLsb'_append_eq_of_add_le] <;> simp
@[simp] theorem fsys_g34 (d : BitVec 6) (a : BitVec 6) (cw : BitVec 12) :
    Body.g (fsys d a cw) 34 = a := by
  simp (disch := decide) only [fsys, Body.g, Body.f, Body.imm34, BitVec.extractLsb'_append_eq_of_le, BitVec.extractLsb'_append_eq_of_add_le] <;> simp
@[simp] theorem fsys_g40 (d : BitVec 6) (a : BitVec 6) (cw : BitVec 12) :
    Body.g (fsys d a cw) 40 = d := by
  simp (disch := decide) only [fsys, Body.g, Body.f, Body.imm34, BitVec.extractLsb'_append_eq_of_le, BitVec.extractLsb'_append_eq_of_add_le] <;> simp
@[simp] theorem fv3_f0_4 (d : BitVec 11) (a : BitVec 11) (b : BitVec 11) (asrc : BitVec 3) (dsink : BitVec 3) (ty : BitVec 3) (nf : BitVec 4) :
    Body.f (fv3 d a b asrc dsink ty nf) 0 4 = nf := by
  simp (disch := decide) only [fv3, Body.g, Body.f, Body.imm34, BitVec.extractLsb'_append_eq_of_le, BitVec.extractLsb'_append_eq_of_add_le] <;> simp
@[simp] theorem fv3_f13_5 (d : BitVec 11) (a : BitVec 11) (b : BitVec 11) (asrc : BitVec 3) (dsink : BitVec 3) (ty : BitVec 3) (nf : BitVec 4) :
    Body.f (fv3 d a b asrc dsink ty nf) 13 5 = b.extractLsb' 0 5 := by
  simp (disch := decide) only [fv3, Body.g, Body.f, Body.imm34, BitVec.extractLsb'_append_eq_of_le, BitVec.extractLsb'_append_eq_of_add_le] <;> simp
@[simp] theorem fv3_f24_11 (d : BitVec 11) (a : BitVec 11) (b : BitVec 11) (asrc : BitVec 3) (dsink : BitVec 3) (ty : BitVec 3) (nf : BitVec 4) :
    Body.f (fv3 d a b asrc dsink ty nf) 24 11 = a := by
  simp (disch := decide) only [fv3, Body.g, Body.f, Body.imm34, BitVec.extractLsb'_append_eq_of_le, BitVec.extractLsb'_append_eq_of_add_le] <;> simp
@[simp] theorem fv3_f24_3 (d : BitVec 11) (a : BitVec 11) (b : BitVec 11) (asrc : BitVec 3) (dsink : BitVec 3) (ty : BitVec 3) (nf : BitVec 4) :
    Body.f (fv3 d a b asrc dsink ty nf) 24 3 = a.extractLsb' 0 3 := by
  simp (disch := decide) only [fv3, Body.g, Body.f, Body.imm34, BitVec.extractLsb'_append_eq_of_le, BitVec.extractLsb'_append_eq_of_add_le] <;> simp
@[simp] theorem fv3_f35_11 (d : BitVec 11) (a : BitVec 11) (b : BitVec 11) (asrc : BitVec 3) (dsink : BitVec 3) (ty : BitVec 3) (nf : BitVec 4) :
    Body.f (fv3 d a b asrc dsink ty nf) 35 11 = d := by
  simp (disch := decide) only [fv3, Body.g, Body.f, Body.imm34, BitVec.extractLsb'_append_eq_of_le, BitVec.extractLsb'_append_eq_of_add_le] <;> simp
@[simp] theorem fv3_f35_4 (d : BitVec 11) (a : BitVec 11) (b : BitVec 11) (asrc : BitVec 3) (dsink : BitVec 3) (ty : BitVec 3) (nf : BitVec 4) :
    Body.f (fv3 d a b asrc dsink ty nf) 35 4 = d.extractLsb' 0 4 := by
  simp (disch := decide) only [fv3, Body.g, Body.f, Body.imm34, BitVec.extractLsb'_append_eq_of_le, BitVec.extractLsb'_append_eq_of_add_le] <;> simp
@[simp] theorem fvi_bit30 (d : BitVec 11) (a : BitVec 11) (imm : BitVec 20) (nf : BitVec 4) :
    Body.bit (fvi d a imm nf) 30 = a.getLsbD 6 := by
  have e : Body.f (fvi d a imm nf) 30 1 = a.extractLsb' 6 1 := by
    simp (disch := decide) only [fvi, Body.f, BitVec.extractLsb'_append_eq_of_le, BitVec.extractLsb'_append_eq_of_add_le] <;> simp
  have h := congrArg (fun v => v.getLsbD 0) e
  simpa [Body.f, Body.bit] using h
@[simp] theorem fvi_f0_4 (d : BitVec 11) (a : BitVec 11) (imm : BitVec 20) (nf : BitVec 4) :
    Body.f (fvi d a imm nf) 0 4 = nf := by
  simp (disch := decide) only [fvi, Body.g, Body.f, Body.imm34, BitVec.extractLsb'_append_eq_of_le, BitVec.extractLsb'_append_eq_of_add_le] <;> simp
@[simp] theorem fvi_f22_2 (d : BitVec 11) (a : BitVec 11) (imm : BitVec 20) (nf : BitVec 4) :
    Body.f (fvi d a imm nf) 22 2 = imm.extractLsb' 18 2 := by
  simp (disch := decide) only [fvi, Body.g, Body.f, Body.imm34, BitVec.extractLsb'_append_eq_of_le, BitVec.extractLsb'_append_eq_of_add_le] <;> simp
@[simp] theorem fvi_f24_11 (d : BitVec 11) (a : BitVec 11) (imm : BitVec 20) (nf : BitVec 4) :
    Body.f (fvi d a imm nf) 24 11 = a := by
  simp (disch := decide) only [fvi, Body.g, Body.f, Body.imm34, BitVec.extractLsb'_append_eq_of_le, BitVec.extractLsb'_append_eq_of_add_le] <;> simp
@[simp] theorem fvi_f24_6 (d : BitVec 11) (a : BitVec 11) (imm : BitVec 20) (nf : BitVec 4) :
    Body.f (fvi d a imm nf) 24 6 = a.extractLsb' 0 6 := by
  simp (disch := decide) only [fvi, Body.g, Body.f, Body.imm34, BitVec.extractLsb'_append_eq_of_le, BitVec.extractLsb'_append_eq_of_add_le] <;> simp
@[simp] theorem fvi_f35_11 (d : BitVec 11) (a : BitVec 11) (imm : BitVec 20) (nf : BitVec 4) :
    Body.f (fvi d a imm nf) 35 11 = d := by
  simp (disch := decide) only [fvi, Body.g, Body.f, Body.imm34, BitVec.extractLsb'_append_eq_of_le, BitVec.extractLsb'_append_eq_of_add_le] <;> simp
@[simp] theorem fvi_f4_18 (d : BitVec 11) (a : BitVec 11) (imm : BitVec 20) (nf : BitVec 4) :
    Body.f (fvi d a imm nf) 4 18 = imm.extractLsb' 0 18 := by
  simp (disch := decide) only [fvi, Body.g, Body.f, Body.imm34, BitVec.extractLsb'_append_eq_of_le, BitVec.extractLsb'_append_eq_of_add_le] <;> simp
@[simp] theorem fvi_f4_20 (d : BitVec 11) (a : BitVec 11) (imm : BitVec 20) (nf : BitVec 4) :
    Body.f (fvi d a imm nf) 4 20 = imm := by
  simp (disch := decide) only [fvi, Body.g, Body.f, Body.imm34, BitVec.extractLsb'_append_eq_of_le, BitVec.extractLsb'_append_eq_of_add_le] <;> simp
@[simp] theorem fmill_f0_4 (acc : BitVec 3) (mode : BitVec 3) (fA : BitVec 5) (fB : BitVec 5) (fC : BitVec 5) (ma : BitVec 4) (mc : BitVec 4) (mb : BitVec 4) (mn : BitVec 4) (s : BitVec 3) (m : BitVec 2) (nf : BitVec 4) :
    Body.f (fmill acc mode fA fB fC ma mc mb mn s m nf) 0 4 = nf := by
  simp (disch := decide) only [fmill, Body.g, Body.f, Body.imm34, BitVec.extractLsb'_append_eq_of_le, BitVec.extractLsb'_append_eq_of_add_le] <;> simp
@[simp] theorem fmill_f13_4 (acc : BitVec 3) (mode : BitVec 3) (fA : BitVec 5) (fB : BitVec 5) (fC : BitVec 5) (ma : BitVec 4) (mc : BitVec 4) (mb : BitVec 4) (mn : BitVec 4) (s : BitVec 3) (m : BitVec 2) (nf : BitVec 4) :
    Body.f (fmill acc mode fA fB fC ma mc mb mn s m nf) 13 4 = mb := by
  simp (disch := decide) only [fmill, Body.g, Body.f, Body.imm34, BitVec.extractLsb'_append_eq_of_le, BitVec.extractLsb'_append_eq_of_add_le] <;> simp
@[simp] theorem fmill_f17_4 (acc : BitVec 3) (mode : BitVec 3) (fA : BitVec 5) (fB : BitVec 5) (fC : BitVec 5) (ma : BitVec 4) (mc : BitVec 4) (mb : BitVec 4) (mn : BitVec 4) (s : BitVec 3) (m : BitVec 2) (nf : BitVec 4) :
    Body.f (fmill acc mode fA fB fC ma mc mb mn s m nf) 17 4 = mc := by
  simp (disch := decide) only [fmill, Body.g, Body.f, Body.imm34, BitVec.extractLsb'_append_eq_of_le, BitVec.extractLsb'_append_eq_of_add_le] <;> simp
@[simp] theorem fmill_f21_4 (acc : BitVec 3) (mode : BitVec 3) (fA : BitVec 5) (fB : BitVec 5) (fC : BitVec 5) (ma : BitVec 4) (mc : BitVec 4) (mb : BitVec 4) (mn : BitVec 4) (s : BitVec 3) (m : BitVec 2) (nf : BitVec 4) :
    Body.f (fmill acc mode fA fB fC ma mc mb mn s m nf) 21 4 = ma := by
  simp (disch := decide) only [fmill, Body.g, Body.f, Body.imm34, BitVec.extractLsb'_append_eq_of_le, BitVec.extractLsb'_append_eq_of_add_le] <;> simp
@[simp] theorem fmill_f25_5 (acc : BitVec 3) (mode : BitVec 3) (fA : BitVec 5) (fB : BitVec 5) (fC : BitVec 5) (ma : BitVec 4) (mc : BitVec 4) (mb : BitVec 4) (mn : BitVec 4) (s : BitVec 3) (m : BitVec 2) (nf : BitVec 4) :
    Body.f (fmill acc mode fA fB fC ma mc mb mn s m nf) 25 5 = fC := by
  simp (disch := decide) only [fmill, Body.g, Body.f, Body.imm34, BitVec.extractLsb'_append_eq_of_le, BitVec.extractLsb'_append_eq_of_add_le] <;> simp
@[simp] theorem fmill_f30_5 (acc : BitVec 3) (mode : BitVec 3) (fA : BitVec 5) (fB : BitVec 5) (fC : BitVec 5) (ma : BitVec 4) (mc : BitVec 4) (mb : BitVec 4) (mn : BitVec 4) (s : BitVec 3) (m : BitVec 2) (nf : BitVec 4) :
    Body.f (fmill acc mode fA fB fC ma mc mb mn s m nf) 30 5 = fB := by
  simp (disch := decide) only [fmill, Body.g, Body.f, Body.imm34, BitVec.extractLsb'_append_eq_of_le, BitVec.extractLsb'_append_eq_of_add_le] <;> simp
@[simp] theorem fmill_f35_5 (acc : BitVec 3) (mode : BitVec 3) (fA : BitVec 5) (fB : BitVec 5) (fC : BitVec 5) (ma : BitVec 4) (mc : BitVec 4) (mb : BitVec 4) (mn : BitVec 4) (s : BitVec 3) (m : BitVec 2) (nf : BitVec 4) :
    Body.f (fmill acc mode fA fB fC ma mc mb mn s m nf) 35 5 = fA := by
  simp (disch := decide) only [fmill, Body.g, Body.f, Body.imm34, BitVec.extractLsb'_append_eq_of_le, BitVec.extractLsb'_append_eq_of_add_le] <;> simp
@[simp] theorem fmill_f4_2 (acc : BitVec 3) (mode : BitVec 3) (fA : BitVec 5) (fB : BitVec 5) (fC : BitVec 5) (ma : BitVec 4) (mc : BitVec 4) (mb : BitVec 4) (mn : BitVec 4) (s : BitVec 3) (m : BitVec 2) (nf : BitVec 4) :
    Body.f (fmill acc mode fA fB fC ma mc mb mn s m nf) 4 2 = m := by
  simp (disch := decide) only [fmill, Body.g, Body.f, Body.imm34, BitVec.extractLsb'_append_eq_of_le, BitVec.extractLsb'_append_eq_of_add_le] <;> simp
@[simp] theorem fmill_f40_3 (acc : BitVec 3) (mode : BitVec 3) (fA : BitVec 5) (fB : BitVec 5) (fC : BitVec 5) (ma : BitVec 4) (mc : BitVec 4) (mb : BitVec 4) (mn : BitVec 4) (s : BitVec 3) (m : BitVec 2) (nf : BitVec 4) :
    Body.f (fmill acc mode fA fB fC ma mc mb mn s m nf) 40 3 = mode := by
  simp (disch := decide) only [fmill, Body.g, Body.f, Body.imm34, BitVec.extractLsb'_append_eq_of_le, BitVec.extractLsb'_append_eq_of_add_le] <;> simp
@[simp] theorem fmill_f43_3 (acc : BitVec 3) (mode : BitVec 3) (fA : BitVec 5) (fB : BitVec 5) (fC : BitVec 5) (ma : BitVec 4) (mc : BitVec 4) (mb : BitVec 4) (mn : BitVec 4) (s : BitVec 3) (m : BitVec 2) (nf : BitVec 4) :
    Body.f (fmill acc mode fA fB fC ma mc mb mn s m nf) 43 3 = acc := by
  simp (disch := decide) only [fmill, Body.g, Body.f, Body.imm34, BitVec.extractLsb'_append_eq_of_le, BitVec.extractLsb'_append_eq_of_add_le] <;> simp
@[simp] theorem fmill_f6_3 (acc : BitVec 3) (mode : BitVec 3) (fA : BitVec 5) (fB : BitVec 5) (fC : BitVec 5) (ma : BitVec 4) (mc : BitVec 4) (mb : BitVec 4) (mn : BitVec 4) (s : BitVec 3) (m : BitVec 2) (nf : BitVec 4) :
    Body.f (fmill acc mode fA fB fC ma mc mb mn s m nf) 6 3 = s := by
  simp (disch := decide) only [fmill, Body.g, Body.f, Body.imm34, BitVec.extractLsb'_append_eq_of_le, BitVec.extractLsb'_append_eq_of_add_le] <;> simp
@[simp] theorem fmill_f9_2 (acc : BitVec 3) (mode : BitVec 3) (fA : BitVec 5) (fB : BitVec 5) (fC : BitVec 5) (ma : BitVec 4) (mc : BitVec 4) (mb : BitVec 4) (mn : BitVec 4) (s : BitVec 3) (m : BitVec 2) (nf : BitVec 4) :
    Body.f (fmill acc mode fA fB fC ma mc mb mn s m nf) 9 2 = mn.extractLsb' 0 2 := by
  simp (disch := decide) only [fmill, Body.g, Body.f, Body.imm34, BitVec.extractLsb'_append_eq_of_le, BitVec.extractLsb'_append_eq_of_add_le] <;> simp
@[simp] theorem fmill_f9_4 (acc : BitVec 3) (mode : BitVec 3) (fA : BitVec 5) (fB : BitVec 5) (fC : BitVec 5) (ma : BitVec 4) (mc : BitVec 4) (mb : BitVec 4) (mn : BitVec 4) (s : BitVec 3) (m : BitVec 2) (nf : BitVec 4) :
    Body.f (fmill acc mode fA fB fC ma mc mb mn s m nf) 9 4 = mn := by
  simp (disch := decide) only [fmill, Body.g, Body.f, Body.imm34, BitVec.extractLsb'_append_eq_of_le, BitVec.extractLsb'_append_eq_of_add_le] <;> simp
@[simp] theorem fstrm_bit10 (sx : BitVec 6) (sy : BitVec 6) (len : BitVec 12) (dir : BitVec 4) (fmt : BitVec 5) (sub : BitVec 9) (nf : BitVec 4) :
    Body.bit (fstrm sx sy len dir fmt sub nf) 10 = sub.getLsbD 6 := by
  have e : Body.f (fstrm sx sy len dir fmt sub nf) 10 1 = sub.extractLsb' 6 1 := by
    simp (disch := decide) only [fstrm, Body.f, BitVec.extractLsb'_append_eq_of_le, BitVec.extractLsb'_append_eq_of_add_le] <;> simp
  have h := congrArg (fun v => v.getLsbD 0) e
  simpa [Body.f, Body.bit] using h
@[simp] theorem fstrm_bit18 (sx : BitVec 6) (sy : BitVec 6) (len : BitVec 12) (dir : BitVec 4) (fmt : BitVec 5) (sub : BitVec 9) (nf : BitVec 4) :
    Body.bit (fstrm sx sy len dir fmt sub nf) 18 = dir.getLsbD 0 := by
  have e : Body.f (fstrm sx sy len dir fmt sub nf) 18 1 = dir.extractLsb' 0 1 := by
    simp (disch := decide) only [fstrm, Body.f, BitVec.extractLsb'_append_eq_of_le, BitVec.extractLsb'_append_eq_of_add_le] <;> simp
  have h := congrArg (fun v => v.getLsbD 0) e
  simpa [Body.f, Body.bit] using h
@[simp] theorem fstrm_f0_4 (sx : BitVec 6) (sy : BitVec 6) (len : BitVec 12) (dir : BitVec 4) (fmt : BitVec 5) (sub : BitVec 9) (nf : BitVec 4) :
    Body.f (fstrm sx sy len dir fmt sub nf) 0 4 = nf := by
  simp (disch := decide) only [fstrm, Body.g, Body.f, Body.imm34, BitVec.extractLsb'_append_eq_of_le, BitVec.extractLsb'_append_eq_of_add_le] <;> simp
@[simp] theorem fstrm_f11_2 (sx : BitVec 6) (sy : BitVec 6) (len : BitVec 12) (dir : BitVec 4) (fmt : BitVec 5) (sub : BitVec 9) (nf : BitVec 4) :
    Body.f (fstrm sx sy len dir fmt sub nf) 11 2 = sub.extractLsb' 7 2 := by
  simp (disch := decide) only [fstrm, Body.g, Body.f, Body.imm34, BitVec.extractLsb'_append_eq_of_le, BitVec.extractLsb'_append_eq_of_add_le] <;> simp
@[simp] theorem fstrm_f13_5 (sx : BitVec 6) (sy : BitVec 6) (len : BitVec 12) (dir : BitVec 4) (fmt : BitVec 5) (sub : BitVec 9) (nf : BitVec 4) :
    Body.f (fstrm sx sy len dir fmt sub nf) 13 5 = fmt := by
  simp (disch := decide) only [fstrm, Body.g, Body.f, Body.imm34, BitVec.extractLsb'_append_eq_of_le, BitVec.extractLsb'_append_eq_of_add_le] <;> simp
@[simp] theorem fstrm_f18_2 (sx : BitVec 6) (sy : BitVec 6) (len : BitVec 12) (dir : BitVec 4) (fmt : BitVec 5) (sub : BitVec 9) (nf : BitVec 4) :
    Body.f (fstrm sx sy len dir fmt sub nf) 18 2 = dir.extractLsb' 0 2 := by
  simp (disch := decide) only [fstrm, Body.g, Body.f, Body.imm34, BitVec.extractLsb'_append_eq_of_le, BitVec.extractLsb'_append_eq_of_add_le] <;> simp
@[simp] theorem fstrm_f22_12 (sx : BitVec 6) (sy : BitVec 6) (len : BitVec 12) (dir : BitVec 4) (fmt : BitVec 5) (sub : BitVec 9) (nf : BitVec 4) :
    Body.f (fstrm sx sy len dir fmt sub nf) 22 12 = len := by
  simp (disch := decide) only [fstrm, Body.g, Body.f, Body.imm34, BitVec.extractLsb'_append_eq_of_le, BitVec.extractLsb'_append_eq_of_add_le] <;> simp
@[simp] theorem fstrm_g34 (sx : BitVec 6) (sy : BitVec 6) (len : BitVec 12) (dir : BitVec 4) (fmt : BitVec 5) (sub : BitVec 9) (nf : BitVec 4) :
    Body.g (fstrm sx sy len dir fmt sub nf) 34 = sy := by
  simp (disch := decide) only [fstrm, Body.g, Body.f, Body.imm34, BitVec.extractLsb'_append_eq_of_le, BitVec.extractLsb'_append_eq_of_add_le] <;> simp
@[simp] theorem fstrm_g4 (sx : BitVec 6) (sy : BitVec 6) (len : BitVec 12) (dir : BitVec 4) (fmt : BitVec 5) (sub : BitVec 9) (nf : BitVec 4) :
    Body.g (fstrm sx sy len dir fmt sub nf) 4 = sub.extractLsb' 0 6 := by
  simp (disch := decide) only [fstrm, Body.g, Body.f, Body.imm34, BitVec.extractLsb'_append_eq_of_le, BitVec.extractLsb'_append_eq_of_add_le] <;> simp
@[simp] theorem fstrm_g40 (sx : BitVec 6) (sy : BitVec 6) (len : BitVec 12) (dir : BitVec 4) (fmt : BitVec 5) (sub : BitVec 9) (nf : BitVec 4) :
    Body.g (fstrm sx sy len dir fmt sub nf) 40 = sx := by
  simp (disch := decide) only [fstrm, Body.g, Body.f, Body.imm34, BitVec.extractLsb'_append_eq_of_le, BitVec.extractLsb'_append_eq_of_add_le] <;> simp
@[simp] theorem freeve_f0_16 (a : BitVec 6) (sub : BitVec 6) (imm : BitVec 34) :
    Body.f (freeve a sub imm) 0 16 = imm.extractLsb' 0 16 := by
  simp (disch := decide) only [freeve, Body.g, Body.f, Body.imm34, BitVec.extractLsb'_append_eq_of_le, BitVec.extractLsb'_append_eq_of_add_le] <;> simp
@[simp] theorem freeve_f0_28 (a : BitVec 6) (sub : BitVec 6) (imm : BitVec 34) :
    Body.f (freeve a sub imm) 0 28 = imm.extractLsb' 0 28 := by
  simp (disch := decide) only [freeve, Body.g, Body.f, Body.imm34, BitVec.extractLsb'_append_eq_of_le, BitVec.extractLsb'_append_eq_of_add_le] <;> simp
@[simp] theorem freeve_f1_15 (a : BitVec 6) (sub : BitVec 6) (imm : BitVec 34) :
    Body.f (freeve a sub imm) 1 15 = imm.extractLsb' 1 15 := by
  simp (disch := decide) only [freeve, Body.g, Body.f, Body.imm34, BitVec.extractLsb'_append_eq_of_le, BitVec.extractLsb'_append_eq_of_add_le] <;> simp
@[simp] theorem freeve_f16_16 (a : BitVec 6) (sub : BitVec 6) (imm : BitVec 34) :
    Body.f (freeve a sub imm) 16 16 = imm.extractLsb' 16 16 := by
  simp (disch := decide) only [freeve, Body.g, Body.f, Body.imm34, BitVec.extractLsb'_append_eq_of_le, BitVec.extractLsb'_append_eq_of_add_le] <;> simp
@[simp] theorem freeve_f34_2 (a : BitVec 6) (sub : BitVec 6) (imm : BitVec 34) :
    Body.f (freeve a sub imm) 34 2 = sub.extractLsb' 0 2 := by
  simp (disch := decide) only [freeve, Body.g, Body.f, Body.imm34, BitVec.extractLsb'_append_eq_of_le, BitVec.extractLsb'_append_eq_of_add_le] <;> simp
@[simp] theorem freeve_f34_3 (a : BitVec 6) (sub : BitVec 6) (imm : BitVec 34) :
    Body.f (freeve a sub imm) 34 3 = sub.extractLsb' 0 3 := by
  simp (disch := decide) only [freeve, Body.g, Body.f, Body.imm34, BitVec.extractLsb'_append_eq_of_le, BitVec.extractLsb'_append_eq_of_add_le] <;> simp
@[simp] theorem freeve_f37_2 (a : BitVec 6) (sub : BitVec 6) (imm : BitVec 34) :
    Body.f (freeve a sub imm) 37 2 = sub.extractLsb' 3 2 := by
  simp (disch := decide) only [freeve, Body.g, Body.f, Body.imm34, BitVec.extractLsb'_append_eq_of_le, BitVec.extractLsb'_append_eq_of_add_le] <;> simp
@[simp] theorem freeve_f40_1 (a : BitVec 6) (sub : BitVec 6) (imm : BitVec 34) :
    Body.f (freeve a sub imm) 40 1 = a.extractLsb' 0 1 := by
  simp (disch := decide) only [freeve, Body.g, Body.f, Body.imm34, BitVec.extractLsb'_append_eq_of_le, BitVec.extractLsb'_append_eq_of_add_le] <;> simp
@[simp] theorem freeve_f40_4 (a : BitVec 6) (sub : BitVec 6) (imm : BitVec 34) :
    Body.f (freeve a sub imm) 40 4 = a.extractLsb' 0 4 := by
  simp (disch := decide) only [freeve, Body.g, Body.f, Body.imm34, BitVec.extractLsb'_append_eq_of_le, BitVec.extractLsb'_append_eq_of_add_le] <;> simp
@[simp] theorem freeve_f6_5 (a : BitVec 6) (sub : BitVec 6) (imm : BitVec 34) :
    Body.f (freeve a sub imm) 6 5 = imm.extractLsb' 6 5 := by
  simp (disch := decide) only [freeve, Body.g, Body.f, Body.imm34, BitVec.extractLsb'_append_eq_of_le, BitVec.extractLsb'_append_eq_of_add_le] <;> simp
@[simp] theorem freeve_g0 (a : BitVec 6) (sub : BitVec 6) (imm : BitVec 34) :
    Body.g (freeve a sub imm) 0 = imm.extractLsb' 0 6 := by
  simp (disch := decide) only [freeve, Body.g, Body.f, Body.imm34, BitVec.extractLsb'_append_eq_of_le, BitVec.extractLsb'_append_eq_of_add_le] <;> simp
@[simp] theorem freeve_g28 (a : BitVec 6) (sub : BitVec 6) (imm : BitVec 34) :
    Body.g (freeve a sub imm) 28 = imm.extractLsb' 28 6 := by
  simp (disch := decide) only [freeve, Body.g, Body.f, Body.imm34, BitVec.extractLsb'_append_eq_of_le, BitVec.extractLsb'_append_eq_of_add_le] <;> simp
@[simp] theorem freeve_g40 (a : BitVec 6) (sub : BitVec 6) (imm : BitVec 34) :
    Body.g (freeve a sub imm) 40 = a := by
  simp (disch := decide) only [freeve, Body.g, Body.f, Body.imm34, BitVec.extractLsb'_append_eq_of_le, BitVec.extractLsb'_append_eq_of_add_le] <;> simp
@[simp] theorem freeve_imm34 (a : BitVec 6) (sub : BitVec 6) (imm : BitVec 34) :
    Body.imm34 (freeve a sub imm) = imm := by
  simp (disch := decide) only [freeve, Body.g, Body.f, Body.imm34, BitVec.extractLsb'_append_eq_of_le, BitVec.extractLsb'_append_eq_of_add_le] <;> simp

/-- Operand groups of VEC instructions read back from an FV3 body. -/
theorem VArgs.ofBody_body (v : VArgs) (ty : BitVec 3) : VArgs.ofBody (v.body ty) = some v := by
  simp (disch := decide) only [VArgs.ofBody, VArgs.body, fv3, Body.f, BitVec.extractLsb'_append_eq_of_le, BitVec.extractLsb'_append_eq_of_add_le] <;> simp
theorem VArgs1.ofBody_body (v : VArgs1) (ty : BitVec 3) (b : BitVec 11) : VArgs1.ofBody (v.body ty b) = some v := by
  simp (disch := decide) only [VArgs1.ofBody, VArgs1.body, fv3, Body.f, BitVec.extractLsb'_append_eq_of_le, BitVec.extractLsb'_append_eq_of_add_le] <;> simp
theorem VArgs.body_ty (v : VArgs) (ty : BitVec 3) : Body.f (v.body ty) 4 3 = ty := by
  simp (disch := decide) only [VArgs.body, fv3, Body.f, BitVec.extractLsb'_append_eq_of_le, BitVec.extractLsb'_append_eq_of_add_le] <;> simp
theorem VArgs1.body_ty (v : VArgs1) (ty : BitVec 3) (b : BitVec 11) : Body.f (v.body ty b) 4 3 = ty := by
  simp (disch := decide) only [VArgs1.body, fv3, Body.f, BitVec.extractLsb'_append_eq_of_le, BitVec.extractLsb'_append_eq_of_add_le] <;> simp

theorem VArgs1.body_f13_2 (v : VArgs1) (ty : BitVec 3) (b : BitVec 11) :
    Body.f (v.body ty b) 13 2 = b.extractLsb' 0 2 := by
  simp (disch := decide) only [VArgs1.body, fv3, Body.f, BitVec.extractLsb'_append_eq_of_le, BitVec.extractLsb'_append_eq_of_add_le] <;> simp
theorem VArgs1.body_f13_5 (v : VArgs1) (ty : BitVec 3) (b : BitVec 11) :
    Body.f (v.body ty b) 13 5 = b.extractLsb' 0 5 := by
  simp (disch := decide) only [VArgs1.body, fv3, Body.f, BitVec.extractLsb'_append_eq_of_le, BitVec.extractLsb'_append_eq_of_add_le] <;> simp
theorem VArgs1.body_f18_3 (v : VArgs1) (ty : BitVec 3) (b : BitVec 11) :
    Body.f (v.body ty b) 18 3 = b.extractLsb' 5 3 := by
  simp (disch := decide) only [VArgs1.body, fv3, Body.f, BitVec.extractLsb'_append_eq_of_le, BitVec.extractLsb'_append_eq_of_add_le] <;> simp
theorem VArgs1.body_bit15 (v : VArgs1) (ty : BitVec 3) (b : BitVec 11) :
    Body.bit (v.body ty b) 15 = b.getLsbD 2 := by
  have e : Body.f (v.body ty b) 15 1 = b.extractLsb' 2 1 := by
    simp (disch := decide) only [VArgs1.body, fv3, Body.f, BitVec.extractLsb'_append_eq_of_le, BitVec.extractLsb'_append_eq_of_add_le] <;> simp
  have h := congrArg (fun v => v.getLsbD 0) e
  simpa [Body.f, Body.bit] using h
theorem VArgs1.body_bit21 (v : VArgs1) (ty : BitVec 3) (b : BitVec 11) :
    Body.bit (v.body ty b) 21 = b.getLsbD 8 := by
  have e : Body.f (v.body ty b) 21 1 = b.extractLsb' 8 1 := by
    simp (disch := decide) only [VArgs1.body, fv3, Body.f, BitVec.extractLsb'_append_eq_of_le, BitVec.extractLsb'_append_eq_of_add_le] <;> simp
  have h := congrArg (fun v => v.getLsbD 0) e
  simpa [Body.f, Body.bit] using h

/-- The parts of a word made of DLY, OPC and a body. -/
theorem wordDly_append (d : BitVec 8) (o : BitVec 10) (b : BitVec 46) : wordDly (d ++ o ++ b : BitVec 64) = d := by
  simp (disch := decide) only [wordDly, BitVec.extractLsb'_append_eq_of_le, BitVec.extractLsb'_append_eq_of_add_le] <;> simp
theorem wordOpc_append (d : BitVec 8) (o : BitVec 10) (b : BitVec 46) : wordOpc (d ++ o ++ b : BitVec 64) = o := by
  simp (disch := decide) only [wordOpc, BitVec.extractLsb'_append_eq_of_le, BitVec.extractLsb'_append_eq_of_add_le] <;> simp
theorem wordBody_append (d : BitVec 8) (o : BitVec 10) (b : BitVec 46) : wordBody (d ++ o ++ b : BitVec 64) = b := by
  simp (disch := decide) only [wordBody, BitVec.extractLsb'_append_eq_of_le, BitVec.extractLsb'_append_eq_of_add_le] <;> simp

end Sys2Proof
end

