-- ==== Sys2Proof/Laws/Exec.lean ====
section
/-!
SUPPORT. What a step does, said once: which meaning runs for each instruction, and what becomes of each entry of the agenda.
-/

namespace Sys2Proof.Machine

set_option Elab.async false

/-! ### A step -/

/-- With nothing in the agenda a dc passes (log 1). -/
theorem step_idle {s : State} (ha : s.agenda = []) (hp : s.powered = true) : step s = .next s.tick := by
  simp [step, State.next, ha, hp]

/-- The next entry of the agenda acts. -/
theorem step_entry {s : State} {m : Mover} {r : List Mover} (ha : s.agenda = m :: r) (hp : s.powered = true) :
    step s = ({ s with agenda := r } : State).run m := by
  simp [step, State.next, ha, hp]

/-- An entry that names an instruction runs it for its actor. -/
theorem step_op {s : State} {f : Focus} {i : Instr} {r : List Mover} (ha : s.agenda = .op f i :: r) (hp : s.powered = true) :
    step s = exec i { s with agenda := r, focus := f } := by
  rw [step_entry ha hp]
  rfl

/-- Without power nothing but a cold reset and the host's own writes goes on (18 R439, R441). -/
theorem step_unpowered {s : State} (hp : s.powered = false) :
    (∃ m r, s.agenda = m :: r ∧ m.unpowered = true ∧ step s = ({ s with agenda := r } : State).run m)
      ∨ step s = .fault .poweredOff := by
  unfold step State.next
  cases h : s.agenda with
  | nil => exact .inr (by simp [hp])
  | cons m r =>
    cases hu : m.unpowered with
    | true => exact .inl ⟨m, r, rfl, hu, by simp [hu]⟩
    | false => exact .inr (by simp [hp, hu])

/-! ### The meaning of each instruction -/

theorem exec_nop (s : State) : exec (.nop) s = execNop s := rfl
theorem exec_add (d : BitVec 6) (a : BitVec 6) (b : BitVec 6) (s : State) : exec (.add d a b) s = execAdd d a b s := rfl
theorem exec_addi (d : BitVec 6) (a : BitVec 6) (imm : BitVec 34) (s : State) : exec (.addi d a imm) s = execAddi d a imm s := rfl
theorem exec_sub (d : BitVec 6) (a : BitVec 6) (b : BitVec 6) (s : State) : exec (.sub d a b) s = execSub d a b s := rfl
theorem exec_mul (d : BitVec 6) (a : BitVec 6) (b : BitVec 6) (s : State) : exec (.mul d a b) s = execMul d a b s := rfl
theorem exec_mulh (d : BitVec 6) (a : BitVec 6) (b : BitVec 6) (s : State) : exec (.mulh d a b) s = execMulh d a b s := rfl
theorem exec_mulhu (d : BitVec 6) (a : BitVec 6) (b : BitVec 6) (s : State) : exec (.mulhu d a b) s = execMulhu d a b s := rfl
theorem exec_div (d : BitVec 6) (a : BitVec 6) (b : BitVec 6) (s : State) : exec (.div d a b) s = execDiv d a b s := rfl
theorem exec_divu (d : BitVec 6) (a : BitVec 6) (b : BitVec 6) (s : State) : exec (.divu d a b) s = execDivu d a b s := rfl
theorem exec_rem (d : BitVec 6) (a : BitVec 6) (b : BitVec 6) (s : State) : exec (.rem d a b) s = execRem d a b s := rfl
theorem exec_remu (d : BitVec 6) (a : BitVec 6) (b : BitVec 6) (s : State) : exec (.remu d a b) s = execRemu d a b s := rfl
theorem exec_and (d : BitVec 6) (a : BitVec 6) (b : BitVec 6) (s : State) : exec (.and d a b) s = execAnd d a b s := rfl
theorem exec_andi (d : BitVec 6) (a : BitVec 6) (imm : BitVec 34) (s : State) : exec (.andi d a imm) s = execAndi d a imm s := rfl
theorem exec_or (d : BitVec 6) (a : BitVec 6) (b : BitVec 6) (s : State) : exec (.or d a b) s = execOr d a b s := rfl
theorem exec_ori (d : BitVec 6) (a : BitVec 6) (imm : BitVec 34) (s : State) : exec (.ori d a imm) s = execOri d a imm s := rfl
theorem exec_xor (d : BitVec 6) (a : BitVec 6) (b : BitVec 6) (s : State) : exec (.xor d a b) s = execXor d a b s := rfl
theorem exec_xori (d : BitVec 6) (a : BitVec 6) (imm : BitVec 34) (s : State) : exec (.xori d a imm) s = execXori d a imm s := rfl
theorem exec_andn (d : BitVec 6) (a : BitVec 6) (b : BitVec 6) (s : State) : exec (.andn d a b) s = execAndn d a b s := rfl
theorem exec_shl (d : BitVec 6) (a : BitVec 6) (b : BitVec 6) (s : State) : exec (.shl d a b) s = execShl d a b s := rfl
theorem exec_shli (d : BitVec 6) (a : BitVec 6) (n : BitVec 6) (s : State) : exec (.shli d a n) s = execShli d a n s := rfl
theorem exec_shr (d : BitVec 6) (a : BitVec 6) (b : BitVec 6) (s : State) : exec (.shr d a b) s = execShr d a b s := rfl
theorem exec_shri (d : BitVec 6) (a : BitVec 6) (n : BitVec 6) (s : State) : exec (.shri d a n) s = execShri d a n s := rfl
theorem exec_sra (d : BitVec 6) (a : BitVec 6) (b : BitVec 6) (s : State) : exec (.sra d a b) s = execSra d a b s := rfl
theorem exec_srai (d : BitVec 6) (a : BitVec 6) (n : BitVec 6) (s : State) : exec (.srai d a n) s = execSrai d a n s := rfl
theorem exec_rol (d : BitVec 6) (a : BitVec 6) (b : BitVec 6) (s : State) : exec (.rol d a b) s = execRol d a b s := rfl
theorem exec_min (d : BitVec 6) (a : BitVec 6) (b : BitVec 6) (s : State) : exec (.min d a b) s = execMin d a b s := rfl
theorem exec_max (d : BitVec 6) (a : BitVec 6) (b : BitVec 6) (s : State) : exec (.max d a b) s = execMax d a b s := rfl
theorem exec_minu (d : BitVec 6) (a : BitVec 6) (b : BitVec 6) (s : State) : exec (.minu d a b) s = execMinu d a b s := rfl
theorem exec_maxu (d : BitVec 6) (a : BitVec 6) (b : BitVec 6) (s : State) : exec (.maxu d a b) s = execMaxu d a b s := rfl
theorem exec_clz (d : BitVec 6) (a : BitVec 6) (s : State) : exec (.clz d a) s = execClz d a s := rfl
theorem exec_ctz (d : BitVec 6) (a : BitVec 6) (s : State) : exec (.ctz d a) s = execCtz d a s := rfl
theorem exec_popc (d : BitVec 6) (a : BitVec 6) (s : State) : exec (.popc d a) s = execPopc d a s := rfl
theorem exec_extr (d : BitVec 6) (a : BitVec 6) (b : BitVec 6) (w : BitVec 6) (s : State) : exec (.extr d a b w) s = execExtr d a b w s := rfl
theorem exec_ins (d : BitVec 6) (a : BitVec 6) (b : BitVec 6) (c : BitVec 6) (w : BitVec 6) (s : State) : exec (.ins d a b c w) s = execIns d a b c w s := rfl
theorem exec_sel (d : BitVec 6) (a : BitVec 6) (b : BitVec 6) (c : BitVec 6) (s : State) : exec (.sel d a b c) s = execSel d a b c s := rfl
theorem exec_cmp (cc : Cond) (d : BitVec 6) (a : BitVec 6) (b : BitVec 6) (s : State) : exec (.cmp cc d a b) s = execCmp cc d a b s := rfl
theorem exec_cmpi (cc : Cond) (d : BitVec 6) (a : BitVec 6) (imm : BitVec 30) (s : State) : exec (.cmpi cc d a imm) s = execCmpi cc d a imm s := rfl
theorem exec_li (d : BitVec 6) (imm : BitVec 34) (s : State) : exec (.li d imm) s = execLi d imm s := rfl
theorem exec_lih (d : BitVec 6) (a : BitVec 6) (imm : BitVec 30) (s : State) : exec (.lih d a imm) s = execLih d a imm s := rfl
theorem exec_adda (d : BitVec 6) (a : BitVec 6) (b : BitVec 6) (s : State) : exec (.adda d a b) s = execAdda d a b s := rfl
theorem exec_addai (d : BitVec 6) (a : BitVec 6) (imm : BitVec 34) (s : State) : exec (.addai d a imm) s = execAddai d a imm s := rfl
theorem exec_tagset (d : BitVec 6) (a : BitVec 6) (b : BitVec 6) (s : State) : exec (.tagset d a b) s = execTagset d a b s := rfl
theorem exec_tagget (d : BitVec 6) (a : BitVec 6) (s : State) : exec (.tagget d a) s = execTagget d a s := rfl
theorem exec_pdiff (d : BitVec 6) (a : BitVec 6) (b : BitVec 6) (s : State) : exec (.pdiff d a b) s = execPdiff d a b s := rfl
theorem exec_fadd (rm : Rm) (d : BitVec 6) (a : BitVec 6) (b : BitVec 6) (s : State) : exec (.fadd rm d a b) s = execFadd rm d a b s := rfl
theorem exec_fsub (rm : Rm) (d : BitVec 6) (a : BitVec 6) (b : BitVec 6) (s : State) : exec (.fsub rm d a b) s = execFsub rm d a b s := rfl
theorem exec_fmul (rm : Rm) (d : BitVec 6) (a : BitVec 6) (b : BitVec 6) (s : State) : exec (.fmul rm d a b) s = execFmul rm d a b s := rfl
theorem exec_fma (rm : Rm) (d : BitVec 6) (a : BitVec 6) (b : BitVec 6) (c : BitVec 6) (s : State) : exec (.fma rm d a b c) s = execFma rm d a b c s := rfl
theorem exec_fmin (d : BitVec 6) (a : BitVec 6) (b : BitVec 6) (s : State) : exec (.fmin d a b) s = execFmin d a b s := rfl
theorem exec_fmax (d : BitVec 6) (a : BitVec 6) (b : BitVec 6) (s : State) : exec (.fmax d a b) s = execFmax d a b s := rfl
theorem exec_fcmp (fc : FRel) (d : BitVec 6) (a : BitVec 6) (b : BitVec 6) (s : State) : exec (.fcmp fc d a b) s = execFcmp fc d a b s := rfl
theorem exec_fcvt (src : Fmt) (dst : Fmt) (rm : Rm) (d : BitVec 6) (a : BitVec 6) (s : State) : exec (.fcvt src dst rm d a) s = execFcvt src dst rm d a s := rfl
theorem exec_fclass (f : Fmt) (d : BitVec 6) (a : BitVec 6) (s : State) : exec (.fclass f d a) s = execFclass f d a s := rfl
theorem exec_dadd (m : LaneArith) (d : BitVec 5) (a : BitVec 5) (b : BitVec 5) (mask : BitVec 6) (s : State) : exec (.dadd m d a b mask) s = execDadd m d a b mask s := rfl
theorem exec_dsub (m : LaneArith) (d : BitVec 5) (a : BitVec 5) (b : BitVec 5) (mask : BitVec 6) (s : State) : exec (.dsub m d a b mask) s = execDsub m d a b mask s := rfl
theorem exec_dmul (m : LaneArith) (d : BitVec 5) (a : BitVec 5) (b : BitVec 5) (mask : BitVec 6) (s : State) : exec (.dmul m d a b mask) s = execDmul m d a b mask s := rfl
theorem exec_dfma (m : LaneArith) (d : BitVec 5) (a : BitVec 5) (b : BitVec 5) (c : BitVec 5) (mask : BitVec 6) (s : State) : exec (.dfma m d a b c mask) s = execDfma m d a b c mask s := rfl
theorem exec_dmin (m : LaneMin) (d : BitVec 5) (a : BitVec 5) (b : BitVec 5) (mask : BitVec 6) (s : State) : exec (.dmin m d a b mask) s = execDmin m d a b mask s := rfl
theorem exec_dmax (m : LaneMin) (d : BitVec 5) (a : BitVec 5) (b : BitVec 5) (mask : BitVec 6) (s : State) : exec (.dmax m d a b mask) s = execDmax m d a b mask s := rfl
theorem exec_dand (d : BitVec 5) (a : BitVec 5) (b : BitVec 5) (mask : BitVec 6) (s : State) : exec (.dand d a b mask) s = execDand d a b mask s := rfl
theorem exec_dor (d : BitVec 5) (a : BitVec 5) (b : BitVec 5) (mask : BitVec 6) (s : State) : exec (.dor d a b mask) s = execDor d a b mask s := rfl
theorem exec_dxor (d : BitVec 5) (a : BitVec 5) (b : BitVec 5) (mask : BitVec 6) (s : State) : exec (.dxor d a b mask) s = execDxor d a b mask s := rfl
theorem exec_dshl (d : BitVec 5) (a : BitVec 5) (k : DShift) (mask : BitVec 6) (s : State) : exec (.dshl d a k mask) s = execDshl d a k mask s := rfl
theorem exec_dshr (arith : Bool) (d : BitVec 5) (a : BitVec 5) (k : DShift) (mask : BitVec 6) (s : State) : exec (.dshr arith d a k mask) s = execDshr arith d a k mask s := rfl
theorem exec_dcmp (m : LaneCmp) (d : BitVec 5) (a : BitVec 5) (b : BitVec 5) (mask : BitVec 6) (s : State) : exec (.dcmp m d a b mask) s = execDcmp m d a b mask s := rfl
theorem exec_dsel (d : BitVec 5) (a : BitVec 5) (b : BitVec 5) (c : BitVec 5) (mask : BitVec 6) (s : State) : exec (.dsel d a b c mask) s = execDsel d a b c mask s := rfl
theorem exec_dcvt (src : Fmt) (dst : Fmt) (rm : Rm) (d : BitVec 5) (a : BitVec 5) (mask : BitVec 6) (s : State) : exec (.dcvt src dst rm d a mask) s = execDcvt src dst rm d a mask s := rfl
theorem exec_dbcast (d : BitVec 5) (a : BitVec 5) (j : BitVec 4) (mask : BitVec 6) (s : State) : exec (.dbcast d a j mask) s = execDbcast d a j mask s := rfl
theorem exec_dext (ty : Lane2) (d : BitVec 5) (a : BitVec 5) (j : BitVec 4) (s : State) : exec (.dext ty d a j) s = execDext ty d a j s := rfl
theorem exec_dins (d : BitVec 5) (a : BitVec 5) (j : BitVec 4) (s : State) : exec (.dins d a j) s = execDins d a j s := rfl
theorem exec_dshuf (d : BitVec 5) (a : BitVec 5) (b : BitVec 5) (mask : BitVec 6) (s : State) : exec (.dshuf d a b mask) s = execDshuf d a b mask s := rfl
theorem exec_dscan (ty : Lane2) (op : RedOp) (ex : Bool) (d : BitVec 5) (a : BitVec 5) (mask : BitVec 6) (s : State) : exec (.dscan ty op ex d a mask) s = execDscan ty op ex d a mask s := rfl
theorem exec_dred (ty : Lane2) (op : RedOp) (d : BitVec 5) (a : BitVec 5) (mask : BitVec 6) (s : State) : exec (.dred ty op d a mask) s = execDred ty op d a mask s := rfl
theorem exec_dhist (rank : Bool) (d : BitVec 5) (a : BitVec 5) (b : BitVec 5) (mask : BitVec 6) (s : State) : exec (.dhist rank d a b mask) s = execDhist rank d a b mask s := rfl
theorem exec_diota (d : BitVec 5) (start : BitVec 9) (step : BitVec 6) (mask : BitVec 6) (s : State) : exec (.diota d start step mask) s = execDiota d start step mask s := rfl
theorem exec_ld (d : BitVec 6) (base : BitVec 6) (index : BitVec 6) (sc : Scale) (ord : MemOrd) (scope : Scope) (off : BitVec 20) (s : State) : exec (.ld d base index sc ord scope off) s = execLd d base index sc ord scope off s := rfl
theorem exec_st (s2 : BitVec 6) (base : BitVec 6) (index : BitVec 6) (sc : Scale) (ord : MemOrd) (scope : Scope) (off : BitVec 20) (s : State) : exec (.st s2 base index sc ord scope off) s = execSt s2 base index sc ord scope off s := rfl
theorem exec_ldf (d : BitVec 6) (base : BitVec 6) (index : BitVec 6) (sc : Scale) (ord : MemOrd) (scope : Scope) (off : BitVec 20) (s : State) : exec (.ldf d base index sc ord scope off) s = execLdf d base index sc ord scope off s := rfl
theorem exec_stf (s2 : BitVec 6) (base : BitVec 6) (index : BitVec 6) (sc : Scale) (ord : MemOrd) (scope : Scope) (off : BitVec 20) (s : State) : exec (.stf s2 base index sc ord scope off) s = execStf s2 base index sc ord scope off s := rfl
theorem exec_ldd (d : BitVec 5) (base : BitVec 6) (index : BitVec 6) (sc : Scale) (ord : MemOrd) (scope : Scope) (off : BitVec 20) (s : State) : exec (.ldd d base index sc ord scope off) s = execLdd d base index sc ord scope off s := rfl
theorem exec_std (s2 : BitVec 5) (base : BitVec 6) (index : BitVec 6) (sc : Scale) (ord : MemOrd) (scope : Scope) (off : BitVec 20) (s : State) : exec (.std s2 base index sc ord scope off) s = execStd s2 base index sc ord scope off s := rfl
theorem exec_lddf (d : BitVec 5) (base : BitVec 6) (index : BitVec 6) (sc : Scale) (ord : MemOrd) (scope : Scope) (off : BitVec 20) (s : State) : exec (.lddf d base index sc ord scope off) s = execLddf d base index sc ord scope off s := rfl
theorem exec_stdf (s2 : BitVec 5) (base : BitVec 6) (index : BitVec 6) (sc : Scale) (ord : MemOrd) (scope : Scope) (off : BitVec 20) (s : State) : exec (.stdf s2 base index sc ord scope off) s = execStdf s2 base index sc ord scope off s := rfl
theorem exec_amo (op : AmoOp) (d : BitVec 6) (base : BitVec 6) (index : BitVec 6) (ord : MemOrd) (scope : Scope) (off : BitVec 16) (s : State) : exec (.amo op d base index ord scope off) s = execAmo op d base index ord scope off s := rfl
theorem exec_cas (d : BitVec 6) (base : BitVec 6) (index : BitVec 6) (ord : MemOrd) (scope : Scope) (off : BitVec 16) (s : State) : exec (.cas d base index ord scope off) s = execCas d base index ord scope off s := rfl
theorem exec_pref (base : BitVec 6) (index : BitVec 6) (sc : Scale) (scope : Scope) (off : BitVec 20) (s : State) : exec (.pref base index sc scope off) s = execPref base index sc scope off s := rfl
theorem exec_discard (d : BitVec 6) (base : BitVec 6) (index : BitVec 6) (sc : Scale) (scope : Scope) (off : BitVec 20) (s : State) : exec (.discard d base index sc scope off) s = execDiscard d base index sc scope off s := rfl
theorem exec_flush (d : BitVec 6) (base : BitVec 6) (index : BitVec 6) (sc : Scale) (scope : Scope) (off : BitVec 20) (s : State) : exec (.flush d base index sc scope off) s = execFlush d base index sc scope off s := rfl
theorem exec_fence (ord : MemOrd) (scope : Scope) (s : State) : exec (.fence ord scope) s = execFence ord scope s := rfl
theorem exec_br (cc : Cond) (a : BitVec 6) (b : BitVec 6) (slot : BitVec 3) (line : BitVec 26) (s : State) : exec (.br cc a b slot line) s = execBr cc a b slot line s := rfl
theorem exec_jmp (slot : BitVec 3) (line : BitVec 26) (s : State) : exec (.jmp slot line) s = execJmp slot line s := rfl
theorem exec_jmpr (a : BitVec 6) (s : State) : exec (.jmpr a) s = execJmpr a s := rfl
theorem exec_call (slot : BitVec 3) (line : BitVec 26) (s : State) : exec (.call slot line) s = execCall slot line s := rfl
theorem exec_start (p : BitVec 2) (a : BitVec 6) (b : BitVec 6) (slot : BitVec 3) (line : BitVec 26) (s : State) : exec (.start p a b slot line) s = execStart p a b slot line s := rfl
theorem exec_exit (s : State) : exec (.exit) s = execExit s := rfl
theorem exec_yield (s : State) : exec (.yield) s = execYield s := rfl
theorem exec_ctxq (q : CtxQ) (d : BitVec 6) (a : BitVec 6) (s : State) : exec (.ctxq q d a) s = execCtxq q d a s := rfl
theorem exec_send (notice : Bool) (d : BitVec 6) (a : BitVec 6) (b : BitVec 6) (c : BitVec 6) (s : State) : exec (.send notice d a b c) s = execSend notice d a b c s := rfl
theorem exec_recv (d : BitVec 6) (a : BitVec 6) (b : BitVec 6) (s : State) : exec (.recv d a b) s = execRecv d a b s := rfl
theorem exec_waitm (d : BitVec 6) (s : State) : exec (.waitm d) s = execWaitm d s := rfl
theorem exec_rrsv (d : BitVec 6) (a : BitVec 6) (h : BitVec 4) (s : State) : exec (.rrsv d a h) s = execRrsv d a h s := rfl
theorem exec_rpub (a : BitVec 6) (b : BitVec 6) (h : BitVec 4) (s : State) : exec (.rpub a b h) s = execRpub a b h s := rfl
theorem exec_rwait (d : BitVec 6) (a : BitVec 6) (h : BitVec 4) (s : State) : exec (.rwait d a h) s = execRwait d a h s := rfl
theorem exec_radv (a : BitVec 6) (h : BitVec 4) (s : State) : exec (.radv a h) s = execRadv a h s := rfl
theorem exec_reos (h : BitVec 4) (s : State) : exec (.reos h) s = execReos h s := rfl
theorem exec_rqry (q : RingQ) (d : BitVec 6) (h : BitVec 4) (s : State) : exec (.rqry q d h) s = execRqry q d h s := rfl
theorem exec_smode (x : BitVec 4) (a : BitVec 6) (b : BitVec 6) (s : State) : exec (.smode x a b) s = execSmode x a b s := rfl
theorem exec_soff (x : BitVec 4) (s : State) : exec (.soff x) s = execSoff x s := rfl
theorem exec_copy (a : BitVec 6) (b : BitVec 6) (c : BitVec 6) (s : State) : exec (.copy a b c) s = execCopy a b c s := rfl
theorem exec_gather (a : BitVec 6) (b : BitVec 6) (c : BitVec 6) (s : State) : exec (.gather a b c) s = execGather a b c s := rfl
theorem exec_scatter (a : BitVec 6) (b : BitVec 6) (c : BitVec 6) (s : State) : exec (.scatter a b c) s = execScatter a b c s := rfl
theorem exec_rcopy (op : RcOp) (idx : Bool) (a : BitVec 6) (b : BitVec 6) (c : BitVec 6) (s : State) : exec (.rcopy op idx a b c) s = execRcopy op idx a b c s := rfl
theorem exec_cretry (a : BitVec 6) (s : State) : exec (.cretry a) s = execCretry a s := rfl
theorem exec_cskip (row : Bool) (a : BitVec 6) (s : State) : exec (.cskip row a) s = execCskip row a s := rfl
theorem exec_cabort (a : BitVec 6) (s : State) : exec (.cabort a) s = execCabort a s := rfl
theorem exec_step (d : BitVec 6) (g : BitVec 6) (s : State) : exec (.step d g) s = execStep d g s := rfl
theorem exec_handoff (d : BitVec 6) (a : BitVec 6) (n : BitVec 8) (s : State) : exec (.handoff d a n) s = execHandoff d a n s := rfl
theorem exec_take (d : BitVec 6) (n : BitVec 8) (s : State) : exec (.take d n) s = execTake d n s := rfl
theorem exec_post (a : BitVec 6) (b : BitVec 6) (k : BitVec 6) (s : State) : exec (.post a b k) s = execPost a b k s := rfl
theorem exec_trap (imm : BitVec 34) (s : State) : exec (.trap imm) s = execTrap imm s := rfl
theorem exec_eret (s : State) : exec (.eret) s = execEret s := rfl
theorem exec_sysr (d : BitVec 6) (a : BitVec 6) (cw : BitVec 12) (s : State) : exec (.sysr d a cw) s = execSysr d a cw s := rfl
theorem exec_sysw (d : BitVec 6) (a : BitVec 6) (cw : BitVec 12) (s : State) : exec (.sysw d a cw) s = execSysw d a cw s := rfl
theorem exec_resume (a : BitVec 6) (b : BitVec 6) (s : State) : exec (.resume a b) s = execResume a b s := rfl
theorem exec_halt (s : State) : exec (.halt) s = execHalt s := rfl
theorem exec_tlbi (k : TlbK) (a : BitVec 6) (b : BitVec 6) (s : State) : exec (.tlbi k a b) s = execTlbi k a b s := rfl
theorem exec_dbgbrk (id : BitVec 16) (s : State) : exec (.dbgbrk id) s = execDbgbrk id s := rfl
theorem exec_mill (acc : BitVec 3) (c : MillC) (fA : Fmt) (fB : Fmt) (ma : BitVec 4) (mb : BitVec 4) (sweeps : BitVec 3) (m : AccM) (nf : BitVec 4) (s : State) : exec (.mill acc c fA fB ma mb sweeps m nf) s = execMill acc c fA fB ma mb sweeps m nf s := rfl
theorem exec_millg (acc : BitVec 3) (c : MillC) (fA : Fmt) (fB : Fmt) (ma : BitVec 4) (mb : BitVec 4) (w : BitVec 2) (sweeps : BitVec 3) (m : AccM) (nf : BitVec 4) (s : State) : exec (.millg acc c fA fB ma mb w sweeps m nf) s = execMillg acc c fA fB ma mb w sweeps m nf s := rfl
theorem exec_millx (acc : BitVec 3) (c : MillC) (fA : Fmt) (fB : Fmt) (ma : BitVec 4) (mb : BitVec 4) (off : BitVec 4) (sweeps : BitVec 3) (m : AccM) (nf : BitVec 4) (s : State) : exec (.millx acc c fA fB ma mb off sweeps m nf) s = execMillx acc c fA fB ma mb off sweeps m nf s := rfl
theorem exec_mzero (acc : BitVec 3) (nf : BitVec 4) (s : State) : exec (.mzero acc nf) s = execMzero acc nf s := rfl
theorem exec_mdrain (d : BitVec 11) (bank : BitVec 3) (nf : BitVec 4) (s : State) : exec (.mdrain d bank nf) s = execMdrain d bank nf s := rfl
theorem exec_mseta (d : BitVec 4) (a : BitVec 11) (nf : BitVec 4) (s : State) : exec (.mseta d a nf) s = execMseta d a nf s := rfl
theorem exec_msetb (d : BitVec 4) (a : BitVec 11) (nf : BitVec 4) (s : State) : exec (.msetb d a nf) s = execMsetb d a nf s := rfl
theorem exec_midx (a : BitVec 11) (nf : BitVec 4) (s : State) : exec (.midx a nf) s = execMidx a nf s := rfl
theorem exec_vadd (ty : VTy) (x : VArgs) (s : State) : exec (.vadd ty x) s = execVadd ty x s := rfl
theorem exec_vsub (ty : VTy) (x : VArgs) (s : State) : exec (.vsub ty x) s = execVsub ty x s := rfl
theorem exec_vmul (ty : VTy) (x : VArgs) (s : State) : exec (.vmul ty x) s = execVmul ty x s := rfl
theorem exec_vfma (ty : VTy) (x : VArgs) (s : State) : exec (.vfma ty x) s = execVfma ty x s := rfl
theorem exec_vmin (ty : VTy) (x : VArgs) (s : State) : exec (.vmin ty x) s = execVmin ty x s := rfl
theorem exec_vmax (ty : VTy) (x : VArgs) (s : State) : exec (.vmax ty x) s = execVmax ty x s := rfl
theorem exec_vand (ty : VTy) (x : VArgs) (s : State) : exec (.vand ty x) s = execVand ty x s := rfl
theorem exec_vor (ty : VTy) (x : VArgs) (s : State) : exec (.vor ty x) s = execVor ty x s := rfl
theorem exec_vxor (ty : VTy) (x : VArgs) (s : State) : exec (.vxor ty x) s = execVxor ty x s := rfl
theorem exec_vshl (ty : VTy) (x : VArgs) (s : State) : exec (.vshl ty x) s = execVshl ty x s := rfl
theorem exec_vshr (ty : VTy) (x : VArgs) (s : State) : exec (.vshr ty x) s = execVshr ty x s := rfl
theorem exec_vsra (ty : VTy) (x : VArgs) (s : State) : exec (.vsra ty x) s = execVsra ty x s := rfl
theorem exec_vcmp (ty : VTy) (x : VArgs) (s : State) : exec (.vcmp ty x) s = execVcmp ty x s := rfl
theorem exec_vsel (ty : VTy) (x : VArgs) (s : State) : exec (.vsel ty x) s = execVsel ty x s := rfl
theorem exec_vcvt (ty : VTy) (widen : Bool) (rm : Rm) (f : Fmt) (x : VArgs1) (s : State) : exec (.vcvt ty widen rm f x) s = execVcvt ty widen rm f x s := rfl
theorem exec_vpack (f : Fmt) (d : BitVec 11) (a : BitVec 11) (nf : BitVec 4) (s : State) : exec (.vpack f d a nf) s = execVpack f d a nf s := rfl
theorem exec_vunpk (f : Fmt) (d : BitVec 11) (a : BitVec 11) (nf : BitVec 4) (s : State) : exec (.vunpk f d a nf) s = execVunpk f d a nf s := rfl
theorem exec_vexp2 (ty : VTy) (x : VArgs1) (s : State) : exec (.vexp2 ty x) s = execVexp2 ty x s := rfl
theorem exec_vlog2 (ty : VTy) (x : VArgs1) (s : State) : exec (.vlog2 ty x) s = execVlog2 ty x s := rfl
theorem exec_vrcp (ty : VTy) (x : VArgs1) (s : State) : exec (.vrcp ty x) s = execVrcp ty x s := rfl
theorem exec_vrsq (ty : VTy) (x : VArgs1) (s : State) : exec (.vrsq ty x) s = execVrsq ty x s := rfl
theorem exec_vred (ty : VTy) (op : RedOp) (x : VArgs1) (s : State) : exec (.vred ty op x) s = execVred ty op x s := rfl
theorem exec_vscan (ty : VTy) (op : RedOp) (ex : Bool) (x : VArgs1) (s : State) : exec (.vscan ty op ex x) s = execVscan ty op ex x s := rfl
theorem exec_vthr (x : VArgs) (s : State) : exec (.vthr x) s = execVthr x s := rfl
theorem exec_vbis (x : VArgs) (s : State) : exec (.vbis x) s = execVbis x s := rfl
theorem exec_vcnt (x : VArgs) (s : State) : exec (.vcnt x) s = execVcnt x s := rfl
theorem exec_vperm (x : VArgs) (s : State) : exec (.vperm x) s = execVperm x s := rfl
theorem exec_vrot (n : BitVec 5) (x : VArgs1) (s : State) : exec (.vrot n x) s = execVrot n x s := rfl
theorem exec_vbc (j : BitVec 5) (x : VArgs1) (s : State) : exec (.vbc j x) s = execVbc j x s := rfl
theorem exec_vmov (x : VArgs1) (s : State) : exec (.vmov x) s = execVmov x s := rfl
theorem exec_vli (hi : Bool) (lane : Option (BitVec 5)) (d : BitVec 11) (imm : BitVec 20) (nf : BitVec 4) (s : State) : exec (.vli hi lane d imm nf) s = execVli hi lane d imm nf s := rfl
theorem exec_vld (d : BitVec 11) (a : BitVec 11) (off : BitVec 18) (nf : BitVec 4) (s : State) : exec (.vld d a off nf) s = execVld d a off nf s := rfl
theorem exec_vst (p : BitVec 2) (d : BitVec 11) (a : BitVec 11) (off : BitVec 18) (nf : BitVec 4) (s : State) : exec (.vst p d a off nf) s = execVst p d a off nf s := rfl
theorem exec_sld (p : BitVec 2) (sx : BitVec 6) (seg : BitVec 6) (len : BitVec 12) (nf : BitVec 4) (s : State) : exec (.sld p sx seg len nf) s = execSld p sx seg len nf s := rfl
theorem exec_sldl (spread : Bool) (sx : BitVec 6) (seg : BitVec 6) (len : BitVec 12) (nf : BitVec 4) (s : State) : exec (.sldl spread sx seg len nf) s = execSldl spread sx seg len nf s := rfl
theorem exec_sst (sx : BitVec 6) (seg : BitVec 6) (len : BitVec 12) (nf : BitVec 4) (s : State) : exec (.sst sx seg len nf) s = execSst sx seg len nf s := rfl
theorem exec_sgth (p : BitVec 2) (f : IdxFmt) (sx : BitVec 6) (seg : BitVec 6) (len : BitVec 12) (nf : BitVec 4) (s : State) : exec (.sgth p f sx seg len nf) s = execSgth p f sx seg len nf s := rfl
theorem exec_ssct (f : IdxFmt) (sx : BitVec 6) (seg : BitVec 6) (len : BitVec 12) (nf : BitVec 4) (s : State) : exec (.ssct f sx seg len nf) s = execSsct f sx seg len nf s := rfl
theorem exec_sxl (p : BitVec 2) (dir : Dir) (sx : BitVec 6) (len : BitVec 12) (nf : BitVec 4) (s : State) : exec (.sxl p dir sx len nf) s = execSxl p dir sx len nf s := rfl
theorem exec_scnt (p : BitVec 2) (dir : Dir) (sx : BitVec 6) (len : BitVec 12) (nf : BitVec 4) (s : State) : exec (.scnt p dir sx len nf) s = execScnt p dir sx len nf s := rfl
theorem exec_smeta (dir : Dir) (sx : BitVec 6) (len : BitVec 12) (nf : BitVec 4) (s : State) : exec (.smeta dir sx len nf) s = execSmeta dir sx len nf s := rfl
theorem exec_sset (dst : SsetDst) (sx : BitVec 6) (sy : BitVec 6) (len : BitVec 12) (nf : BitVec 4) (s : State) : exec (.sset dst sx sy len nf) s = execSset dst sx sy len nf s := rfl
theorem exec_window (pol : WinPol) (w : BitVec 4) (len : BitVec 34) (s : State) : exec (.window pol w len) s = execWindow pol w len s := rfl
theorem exec_pread (x : BitVec 6) (k : BitVec 6) (n : BitVec 5) (s : State) : exec (.pread x k n) s = execPread x k n s := rfl
theorem exec_nfset (rel : NfRel) (ctr : NfCtr) (k : BitVec 4) (j : BitVec 6) (v : BitVec 28) (s : State) : exec (.nfset rel ctr k j v) s = execNfset rel ctr k j v s := rfl
theorem exec_nfclr (mask : BitVec 15) (s : State) : exec (.nfclr mask) s = execNfclr mask s := rfl
theorem exec_loopset (c : BitVec 1) (rld : BitVec 16) (cnt : BitVec 16) (s : State) : exec (.loopset c rld cnt) s = execLoopset c rld cnt s := rfl
theorem exec_tstep (g : BitVec 6) (d : BitVec 34) (s : State) : exec (.tstep g d) s = execTstep g d s := rfl
theorem exec_tmark (v : BitVec 34) (s : State) : exec (.tmark v) s = execTmark v s := rfl
theorem exec_tsync (e : BitVec 16) (s : State) : exec (.tsync e) s = execTsync e s := rfl
theorem exec_tend (s : State) : exec (.tend) s = execTend s := rfl
theorem exec_twait (n : BitVec 34) (s : State) : exec (.twait n) s = execTwait n s := rfl
theorem exec_linkBeatPresent (ext : Option BeatIn) (s : State) : exec (.linkBeatPresent ext) s = execLinkBeatPresent ext s := rfl
theorem exec_metadataPairArrival (ext : Option PairIn) (s : State) : exec (.metadataPairArrival ext) s = execMetadataPairArrival ext s := rfl
theorem exec_windowClose (w : BitVec 4) (s : State) : exec (.windowClose w) s = execWindowClose w s := rfl
theorem exec_postArrival (n : Nat) (s : State) : exec (.postArrival n) s = execPostArrival n s := rfl
theorem exec_holdArrival (ext : Option HoldIn) (s : State) : exec (.holdArrival ext) s = execHoldArrival ext s := rfl
theorem exec_stepGroupComplete (g : BitVec 6) (s : State) : exec (.stepGroupComplete g) s = execStepGroupComplete g s := rfl
theorem exec_stepTakesEffect (g : BitVec 6) (s : State) : exec (.stepTakesEffect g) s = execStepTakesEffect g s := rfl
theorem exec_stepCompletionWake (g : BitVec 6) (s : State) : exec (.stepCompletionWake g) s = execStepCompletionWake g s := rfl
theorem exec_tsyncMarkerArrival (ext : Option MarkerIn) (s : State) : exec (.tsyncMarkerArrival ext) s = execTsyncMarkerArrival ext s := rfl
theorem exec_accessPerformed (n : Nat) (s : State) : exec (.accessPerformed n) s = execAccessPerformed n s := rfl
theorem exec_pageWalk (va : BitVec 56) (store : Bool) (s : State) : exec (.pageWalk va store) s = execPageWalk va store s := rfl
theorem exec_messageArrival (n : Nat) (s : State) : exec (.messageArrival n) s = execMessageArrival n s := rfl
theorem exec_copyElement (op : BitVec 4) (s : State) : exec (.copyElement op) s = execCopyElement op s := rfl
theorem exec_copyCompletion (op : BitVec 4) (s : State) : exec (.copyCompletion op) s = execCopyCompletion op s := rfl
theorem exec_streamRefill (x : BitVec 4) (s : State) : exec (.streamRefill x) s = execStreamRefill x s := rfl
theorem exec_trapDelivery (cause : BitVec 8) (detail : BitVec 8) (f1 : BitVec 64) (s : State) : exec (.trapDelivery cause detail f1) s = execTrapDelivery cause detail f1 s := rfl
theorem exec_upcall (cause : BitVec 8) (f1 : BitVec 64) (s : State) : exec (.upcall cause f1) s = execUpcall cause f1 s := rfl
theorem exec_servicePath (o : SvcOutcome) (s : State) : exec (.servicePath o) s = execServicePath o s := rfl
theorem exec_faultCompletionNotice (tag : BitVec 16) (s : State) : exec (.faultCompletionNotice tag) s = execFaultCompletionNotice tag s := rfl
theorem exec_preempt (leave : Bool) (s : State) : exec (.preempt leave) s = execPreempt leave s := rfl
theorem exec_epochAnnounce (tb : Option Nat) (s : State) : exec (.epochAnnounce tb) s = execEpochAnnounce tb s := rfl
theorem exec_switchSwapComplete (saveErr : Option (BitVec 8)) (restoreErr : Option (BitVec 8)) (s : State) : exec (.switchSwapComplete saveErr restoreErr) s = execSwitchSwapComplete saveErr restoreErr s := rfl
theorem exec_advisorEpochEnd (depth : Nat) (s : State) : exec (.advisorEpochEnd depth) s = execAdvisorEpochEnd depth s := rfl
theorem exec_patrolScrub (sector : Nat) (corrected : Option (BitVec 512)) (s : State) : exec (.patrolScrub sector corrected) s = execPatrolScrub sector corrected s := rfl
theorem exec_bridgeFlitRetry (delay : Nat) (s : State) : exec (.bridgeFlitRetry delay) s = execBridgeFlitRetry delay s := rfl
theorem exec_causewayRetry (west : Bool) (link : BitVec 3) (delay : Nat) (s : State) : exec (.causewayRetry west link delay) s = execCausewayRetry west link delay s := rfl
theorem exec_causewayRetryTimeout (west : Bool) (link : BitVec 3) (s : State) : exec (.causewayRetryTimeout west link) s = execCausewayRetryTimeout west link s := rfl
theorem exec_ueWorkItem (port : BitVec 3) (s : State) : exec (.ueWorkItem port) s = execUeWorkItem port s := rfl
theorem exec_ueIncoming (port : BitVec 3) (op : UeIn) (s : State) : exec (.ueIncoming port op) s = execUeIncoming port op s := rfl
theorem exec_qtailWrite (q : Nat) (v : BitVec 64) (s : State) : exec (.qtailWrite q v) s = execQtailWrite q v s := rfl
theorem exec_packetAccept (q : Nat) (s : State) : exec (.packetAccept q) s = execPacketAccept q s := rfl
theorem exec_hseenWrite (v : BitVec 64) (s : State) : exec (.hseenWrite v) s = execHseenWrite v s := rfl
theorem exec_replay (v : BitVec 64) (s : State) : exec (.replay v) s = execReplay v s := rfl
theorem exec_bar0RegisterWrite (off : Nat) (v : BitVec 64) (s : State) : exec (.bar0RegisterWrite off v) s = execBar0RegisterWrite off v s := rfl
theorem exec_bar2Read (off : Nat) (len : Nat) (s : State) : exec (.bar2Read off len) s = execBar2Read off len s := rfl
theorem exec_bar2Write (off : Nat) (data : List (BitVec 8)) (s : State) : exec (.bar2Write off data) s = execBar2Write off data s := rfl
theorem exec_tdispRequest (mode : Tdi) (s : State) : exec (.tdispRequest mode) s = execTdispRequest mode s := rfl
theorem exec_spdmRequest (r : SpdmReq) (s : State) : exec (.spdmRequest r) s = execSpdmRequest r s := rfl
theorem exec_claim (session bothSides : Bool) (keyHash : BitVec 256) (s : State) :
    exec (.claim session bothSides keyHash) s = execClaim session bothSides keyHash s := rfl
theorem exec_grant (index : BitVec 3) (base : Nat) (len : Nat) (read : Bool) (write : Bool) (s : State) : exec (.grant index base len read write) s = execGrant index base len read write s := rfl
theorem exec_grantRevoke (index : BitVec 3) (s : State) : exec (.grantRevoke index) s = execGrantRevoke index s := rfl
theorem exec_debugok (mask : BitVec 4) (s : State) : exec (.debugok mask) s = execDebugok mask s := rfl
theorem exec_debugoff (mask : BitVec 4) (s : State) : exec (.debugoff mask) s = execDebugoff mask s := rfl
theorem exec_ldataRead (d : BitVec 6) (s : State) : exec (.ldataRead d) s = execLdataRead d s := rfl
theorem exec_ldataWrite (d : BitVec 6) (s : State) : exec (.ldataWrite d) s = execLdataWrite d s := rfl
theorem exec_srecRead (tile : Nat) (d : BitVec 6) (s : State) : exec (.srecRead tile d) s = execSrecRead tile d s := rfl
theorem exec_bootStage (f : BootFinding) (s : State) : exec (.bootStage f) s = execBootStage f s := rfl
theorem exec_ueWorkCompletion (port : BitVec 3) (status : BitVec 8) (detail : BitVec 8) (moved : Nat) (data : List (BitVec 8)) (s : State) : exec (.ueWorkCompletion port status detail moved data) s = execUeWorkCompletion port status detail moved data s := rfl
theorem exec_checkpointStreamComplete (ok : Bool) (bytes : BitVec 64) (s : State) : exec (.checkpointStreamComplete ok bytes) s = execCheckpointStreamComplete ok bytes s := rfl
theorem exec_launch (s : State) : exec (.launch) s = execLaunch s := rfl
theorem exec_signal (s : State) : exec (.signal) s = execSignal s := rfl
theorem exec_attach (s : State) : exec (.attach) s = execAttach s := rfl
theorem exec_detach (s : State) : exec (.detach) s = execDetach s := rfl
theorem exec_arm (s : State) : exec (.arm) s = execArm s := rfl
theorem exec_disarm (s : State) : exec (.disarm) s = execDisarm s := rfl
theorem exec_stop (s : State) : exec (.stop) s = execStop s := rfl
theorem exec_release (s : State) : exec (.release) s = execRelease s := rfl
theorem exec_dump (s : State) : exec (.dump) s = execDump s := rfl
theorem exec_poke (s : State) : exec (.poke) s = execPoke s := rfl
theorem exec_trace (s : State) : exec (.trace) s = execTrace s := rfl
theorem exec_logcopy (s : State) : exec (.logcopy) s = execLogcopy s := rfl
theorem exec_event (s : State) : exec (.event) s = execEvent s := rfl
theorem exec_checkpointSave (s : State) : exec (.checkpointSave) s = execCheckpointSave s := rfl
theorem exec_checkpointRestore (s : State) : exec (.checkpointRestore) s = execCheckpointRestore s := rfl
theorem exec_quiesceEnter (s : State) : exec (.quiesceEnter) s = execQuiesceEnter s := rfl
theorem exec_quiesceLeave (s : State) : exec (.quiesceLeave) s = execQuiesceLeave s := rfl
theorem exec_reshape (s : State) : exec (.reshape) s = execReshape s := rfl
theorem exec_portring (s : State) : exec (.portring) s = execPortring s := rfl
theorem exec_peer (s : State) : exec (.peer) s = execPeer s := rfl
theorem exec_mregion (s : State) : exec (.mregion) s = execMregion s := rfl
theorem exec_cwrite (s : State) : exec (.cwrite) s = execCwrite s := rfl
theorem exec_vecResultWrite (s : State) : exec (.vecResultWrite) s = execVecResultWrite s := rfl
theorem exec_ssetFillUnit (s : State) : exec (.ssetFillUnit) s = execSsetFillUnit s := rfl
theorem exec_millReadyCycle (s : State) : exec (.millReadyCycle) s = execMillReadyCycle s := rfl
theorem exec_staticBurstPerform (s : State) : exec (.staticBurstPerform) s = execStaticBurstPerform s := rfl
theorem exec_staticReadLanding (s : State) : exec (.staticReadLanding) s = execStaticReadLanding s := rfl
theorem exec_holdFrameTest (s : State) : exec (.holdFrameTest) s = execHoldFrameTest s := rfl
theorem exec_tsyncMarkerTimeout (s : State) : exec (.tsyncMarkerTimeout) s = execTsyncMarkerTimeout s := rfl
theorem exec_haltTreeArrival (s : State) : exec (.haltTreeArrival) s = execHaltTreeArrival s := rfl
theorem exec_partialWorkReport (s : State) : exec (.partialWorkReport) s = execPartialWorkReport s := rfl
theorem exec_hangWatchdog (s : State) : exec (.hangWatchdog) s = execHangWatchdog s := rfl
theorem exec_icacheFillComplete (s : State) : exec (.icacheFillComplete) s = execIcacheFillComplete s := rfl
theorem exec_contextSwitch (s : State) : exec (.contextSwitch) s = execContextSwitch s := rfl
theorem exec_forcedSwitch (s : State) : exec (.forcedSwitch) s = execForcedSwitch s := rfl
theorem exec_tlbAcknowledge (s : State) : exec (.tlbAcknowledge) s = execTlbAcknowledge s := rfl
theorem exec_pendingQueueReturn (s : State) : exec (.pendingQueueReturn) s = execPendingQueueReturn s := rfl
theorem exec_copyFault (s : State) : exec (.copyFault) s = execCopyFault s := rfl
theorem exec_bellSweep (s : State) : exec (.bellSweep) s = execBellSweep s := rfl
theorem exec_launchEpoch (s : State) : exec (.launchEpoch) s = execLaunchEpoch s := rfl
theorem exec_loadingComplete (s : State) : exec (.loadingComplete) s = execLoadingComplete s := rfl
theorem exec_quantumExpiry (s : State) : exec (.quantumExpiry) s = execQuantumExpiry s := rfl
theorem exec_switchDrainComplete (s : State) : exec (.switchDrainComplete) s = execSwitchDrainComplete s := rfl
theorem exec_traceSample (s : State) : exec (.traceSample) s = execTraceSample s := rfl
theorem exec_bridgeFlitTimeout (s : State) : exec (.bridgeFlitTimeout) s = execBridgeFlitTimeout s := rfl
theorem exec_causewayLockLoss (s : State) : exec (.causewayLockLoss) s = execCausewayLockLoss s := rfl
theorem exec_ideIntegrityFailure (s : State) : exec (.ideIntegrityFailure) s = execIdeIntegrityFailure s := rfl
theorem exec_quiesceLimit (s : State) : exec (.quiesceLimit) s = execQuiesceLimit s := rfl
theorem exec_coldReset (s : State) : exec (.coldReset) s = execColdReset s := rfl
theorem exec_hostPortReset (s : State) : exec (.hostPortReset) s = execHostPortReset s := rfl
theorem exec_powerLoss (s : State) : exec (.powerLoss) s = execPowerLoss s := rfl
theorem exec_thermalTrip (s : State) : exec (.thermalTrip) s = execThermalTrip s := rfl
theorem exec_millSweepRead (s : State) : exec (.millSweepRead) s = execMillSweepRead s := rfl
theorem exec_mdrainRowWrite (s : State) : exec (.mdrainRowWrite) s = execMdrainRowWrite s := rfl
theorem exec_staticBurstSlot (s : State) : exec (.staticBurstSlot) s = execStaticBurstSlot s := rfl
theorem exec_linkBeatDeparture (s : State) : exec (.linkBeatDeparture) s = execLinkBeatDeparture s := rfl
theorem exec_chainMemberLeft (s : State) : exec (.chainMemberLeft) s = execChainMemberLeft s := rfl
theorem exec_restoreAuthorisation (s : State) : exec (.restoreAuthorisation) s = execRestoreAuthorisation s := rfl

end Sys2Proof.Machine
end

