-- ==== Sys2Proof/Laws/SMap.lean ====
section
/-!
SUPPORT. Sparse maps: what is read after an update, and that every update keeps the canonical form; the same for the bytes of a
memory.
-/

namespace Sys2Proof

namespace SMap

variable {α : Type}

@[simp] theorem get_nil [Inhabited α] (k : Nat) : get ([] : SMap α) k = default := rfl

theorem get_cons [Inhabited α] (j : Nat) (v : α) (r : SMap α) (k : Nat) :
    get ((j, v) :: r) k = if j = k then v else get r k := rfl

/-- Reading after an insertion. -/
theorem get_insert [Inhabited α] (m : SMap α) (k : Nat) (v : α) (j : Nat) :
    get (insert m k v) j = if k = j then v else get m j := by
  induction m with
  | nil => rfl
  | cons x r ih =>
    obtain ⟨i, w⟩ := x
    by_cases h : i = k
    · subst h
      by_cases h' : i = j <;> simp [insert, get_cons, h']
    · by_cases hlt : k < i
      · simp [insert, h, hlt, get_cons]
      · simp only [insert, h, hlt, if_false, get_cons, ih]
        by_cases h' : i = j
        · subst h'; simp [Ne.symm h]
        · simp [h']

/-- Reading after an erasure. -/
theorem get_erase [Inhabited α] (m : SMap α) (k j : Nat) : get (erase m k) j = if k = j then default else get m j := by
  induction m with
  | nil => simp [erase]
  | cons x r ih =>
    obtain ⟨i, w⟩ := x
    by_cases h : i = k
    · subst h
      simp only [erase, if_true, ih, get_cons]
      by_cases h' : i = j <;> simp [h']
    · simp only [erase, h, if_false, get_cons, ih]
      by_cases h' : i = j
      · subst h'; simp [Ne.symm h]
      · simp [h']

/-- Reading after a write. -/
theorem get_set [Inhabited α] [DecidableEq α] (m : SMap α) (k : Nat) (v : α) (j : Nat) :
    get (set m k v) j = if k = j then v else get m j := by
  unfold set
  split
  · rename_i h; rw [get_erase, h]
  · rw [get_insert]

@[simp] theorem get_set_self [Inhabited α] [DecidableEq α] (m : SMap α) (k : Nat) (v : α) : get (set m k v) k = v := by
  simp [get_set]

theorem get_set_ne [Inhabited α] [DecidableEq α] (m : SMap α) (v : α) {k j : Nat} (h : k ≠ j) :
    get (set m k v) j = get m j := by
  simp [get_set, h]

/-- Reading after an entry has been changed in place. -/
theorem get_upd [Inhabited α] (m : SMap α) (k : Nat) (f : α → α) (j : Nat) :
    get (Machine.upd m k f) j = if k = j then f (get m k) else get m j := by
  simp [Machine.upd, get_insert]

@[simp] theorem get_upd_self [Inhabited α] (m : SMap α) (k : Nat) (f : α → α) : get (Machine.upd m k f) k = f (get m k) := by
  simp [get_upd]

theorem get_upd_ne [Inhabited α] (m : SMap α) (f : α → α) {k j : Nat} (h : k ≠ j) : get (Machine.upd m k f) j = get m j := by
  simp [get_upd, h]

/-- What is listed after an insertion stood there before or is the new entry. -/
theorem mem_insert {m : SMap α} {k : Nat} {v : α} {x : Nat × α} (h : x ∈ insert m k v) : x = (k, v) ∨ x ∈ m := by
  induction m with
  | nil => simpa [insert] using h
  | cons y r ih =>
    obtain ⟨j, w⟩ := y
    unfold insert at h
    split at h
    · rcases List.mem_cons.mp h with rfl | h
      · exact .inl rfl
      · exact .inr (List.mem_cons_of_mem _ h)
    · split at h
      · rcases List.mem_cons.mp h with rfl | h
        · exact .inl rfl
        · exact .inr h
      · rcases List.mem_cons.mp h with rfl | h
        · exact .inr (List.mem_cons_self ..)
        · rcases ih h with rfl | h
          · exact .inl rfl
          · exact .inr (List.mem_cons_of_mem _ h)

/-- What a read gives is listed, or is the default. -/
theorem get_mem [Inhabited α] (m : SMap α) (k : Nat) : get m k = default ∨ (k, get m k) ∈ m := by
  induction m with
  | nil => exact .inl rfl
  | cons x r ih =>
    obtain ⟨j, w⟩ := x
    rw [get_cons]
    split
    · rename_i h; subst h; exact .inr (List.mem_cons_self ..)
    · exact ih.imp_right (List.mem_cons_of_mem _)

/-! ### The canonical form -/

section Canonical

variable [Inhabited α] [DecidableEq α]

theorem wfFrom_mono {m : SMap α} {a b : Nat} (hab : a ≤ b) (h : wfFrom b m = true) : wfFrom a m = true := by
  cases m with
  | nil => rfl
  | cons x r =>
    obtain ⟨j, w⟩ := x
    simp only [wfFrom, Bool.and_eq_true, decide_eq_true_eq] at h ⊢
    exact ⟨⟨by omega, h.1.2⟩, h.2⟩

theorem wfFrom_insert {m : SMap α} {a k : Nat} {v : α} (hk : a ≤ k) (hv : v ≠ default) (h : wfFrom a m = true) :
    wfFrom a (insert m k v) = true := by
  induction m generalizing a with
  | nil => simp [insert, wfFrom, hk, hv]
  | cons x r ih =>
    obtain ⟨j, w⟩ := x
    simp only [wfFrom, Bool.and_eq_true, decide_eq_true_eq] at h
    unfold insert
    split
    · rename_i e; subst e; simp [wfFrom, hk, hv, h.2]
    · split
      · rename_i hlt
        simp only [wfFrom, Bool.and_eq_true, decide_eq_true_eq]
        exact ⟨⟨hk, hv⟩, ⟨by omega, h.1.2⟩, h.2⟩
      · simp only [wfFrom, Bool.and_eq_true, decide_eq_true_eq]
        exact ⟨h.1, ih (by omega) h.2⟩

theorem wfFrom_erase {m : SMap α} {a : Nat} (k : Nat) (h : wfFrom a m = true) : wfFrom a (erase m k) = true := by
  induction m generalizing a with
  | nil => rfl
  | cons x r ih =>
    obtain ⟨j, w⟩ := x
    simp only [wfFrom, Bool.and_eq_true, decide_eq_true_eq] at h
    unfold erase
    split
    · exact wfFrom_mono (by omega) (ih h.2)
    · simp only [wfFrom, Bool.and_eq_true, decide_eq_true_eq]
      exact ⟨h.1, ih h.2⟩

theorem wfFrom_filter {m : SMap α} {a : Nat} (f : Nat × α → Bool) (h : wfFrom a m = true) :
    wfFrom a (m.filter f) = true := by
  induction m generalizing a with
  | nil => rfl
  | cons x r ih =>
    obtain ⟨j, w⟩ := x
    simp only [wfFrom, Bool.and_eq_true, decide_eq_true_eq] at h
    rw [List.filter_cons]
    split
    · simp only [wfFrom, Bool.and_eq_true, decide_eq_true_eq]
      exact ⟨h.1, ih h.2⟩
    · exact wfFrom_mono (by omega) (ih h.2)

@[simp] theorem wf_nil : wf ([] : SMap α) = true := rfl

/-- A write keeps the canonical form. -/
theorem wf_set {m : SMap α} (h : wf m = true) (k : Nat) (v : α) : wf (set m k v) = true := by
  unfold set
  split
  · exact wfFrom_erase k h
  · rename_i hv; exact wfFrom_insert (Nat.zero_le k) hv h

/-- An erasure keeps the canonical form. -/
theorem wf_erase {m : SMap α} (h : wf m = true) (k : Nat) : wf (erase m k) = true := wfFrom_erase k h

/-- A selection of entries keeps the canonical form. -/
theorem wf_filter {m : SMap α} (h : wf m = true) (f : Nat × α → Bool) : wf (m.filter f) = true := wfFrom_filter f h

/-- A run of operations each of which keeps the canonical form keeps it. -/
theorem wf_foldl {β : Type} (f : SMap α → β → SMap α) (hf : ∀ m x, wf m = true → wf (f m x) = true) {m : SMap α}
    (h : wf m = true) (l : List β) : wf (l.foldl f m) = true := by
  induction l generalizing m with
  | nil => exact h
  | cons x r ih => exact ih (hf m x h)

theorem wfFrom_ext {m n : SMap α} {a : Nat} (hm : wfFrom a m = true) (hn : wfFrom a n = true)
    (h : ∀ k, get m k = get n k) : m = n := by
  have low : ∀ {l : SMap α} {b k : Nat}, wfFrom b l = true → k < b → get l k = default := by
    intro l
    induction l with
    | nil => intros; rfl
    | cons x r ih =>
      obtain ⟨j, w⟩ := x
      intro b k hl hk
      simp only [wfFrom, Bool.and_eq_true, decide_eq_true_eq] at hl
      rw [get_cons, if_neg (by omega)]
      exact ih hl.2 (by omega)
  induction m generalizing n a with
  | nil =>
    cases n with
    | nil => rfl
    | cons y s =>
      obtain ⟨i, u⟩ := y
      simp only [wfFrom, Bool.and_eq_true, decide_eq_true_eq] at hn
      have := h i
      rw [get_nil, get_cons, if_pos rfl] at this
      exact absurd this.symm hn.1.2
  | cons x r ih =>
    obtain ⟨j, w⟩ := x
    simp only [wfFrom, Bool.and_eq_true, decide_eq_true_eq] at hm
    cases n with
    | nil =>
      have := h j
      rw [get_nil, get_cons, if_pos rfl] at this
      exact absurd this hm.1.2
    | cons y s =>
      obtain ⟨i, u⟩ := y
      simp only [wfFrom, Bool.and_eq_true, decide_eq_true_eq] at hn
      have hj := h j
      have hi := h i
      simp only [get_cons, if_true] at hj hi
      by_cases e : j = i
      · subst e
        simp only [if_true] at hj
        subst hj
        rw [ih hm.2 hn.2 fun k => ?_]
        by_cases hk : k < j + 1
        · rw [low hm.2 hk, low hn.2 hk]
        · have := h k
          simpa [get_cons, show j ≠ k by omega] using this
      · rcases Nat.lt_or_gt_of_ne e with hlt | hgt
        · rw [if_neg (Ne.symm e), low hn.2 (by omega)] at hj
          exact absurd hj hm.1.2
        · rw [if_neg e, low hm.2 (by omega)] at hi
          exact absurd hi.symm hn.1.2

/-- Canonical maps that read alike are equal. -/
theorem wf_ext {m n : SMap α} (hm : wf m = true) (hn : wf n = true) (h : ∀ k, get m k = get n k) : m = n :=
  wfFrom_ext hm hn h

end Canonical

end SMap

namespace Machine

/-! ### Bytes in a memory -/

/-- A byte after consecutive bytes have been written. -/
theorem get_writeMem (m : Mem) (a : Nat) (l : List Byte) (x : Nat) :
    SMap.get (writeMem m a l) x = if a ≤ x ∧ x < a + l.length then (l[x - a]?).getD 0#8 else SMap.get m x := by
  induction l generalizing m a with
  | nil => simp [writeMem] <;> omega
  | cons b r ih =>
    rw [writeMem, ih, SMap.get_set]
    by_cases h : a = x
    · subst h; simp <;> (intro h; omega)
    · by_cases h' : a + 1 ≤ x ∧ x < a + 1 + r.length
      · have e : x - a = (x - (a + 1)) + 1 := by omega
        have : a ≤ x ∧ x < a + (b :: r).length := by simp; omega
        rw [if_pos h', if_pos this, e]
        simp
      · have : ¬(a ≤ x ∧ x < a + (b :: r).length) := by simp; omega
        rw [if_neg h', if_neg this, if_neg h]

theorem toBytes_length (n v : Nat) : (toBytes n v).length = n := by
  induction n generalizing v with
  | zero => rfl
  | succ n ih => simp [toBytes, ih]

/-- Bytes read back after they have been written. -/
theorem readMem_writeMem (m : Mem) (a : Nat) (l : List Byte) : readMem (writeMem m a l) a l.length = l := by
  apply List.ext_getElem
  · simp [readMem]
  · intro i h1 h2
    simp only [readMem, List.getElem_map, List.getElem_range, get_writeMem]
    rw [if_pos (by omega)]
    simp [h2]

/-- The bytes of a number give the number back, up to its size. -/
theorem ofBytes_toBytes (n v : Nat) : ofBytes (toBytes n v) = v % 256 ^ n := by
  induction n generalizing v with
  | zero => simp [toBytes, ofBytes, Nat.mod_one]
  | succ n ih =>
    have e := Nat.mod_mul (x := v) (a := 256) (b := 256 ^ n)
    have p : (256 : Nat) ^ (n + 1) = 256 * 256 ^ n := Nat.pow_succ'
    rw [toBytes, ofBytes, ih, BitVec.toNat_ofNat, p, e]

end Machine

end Sys2Proof
end

