-- ==== Sys2Proof/Laws/Memory.lean ====
section
/-!
SUPPORT. Every operation on memory keeps the canonical form of every memory, and reset has it: the operations on one memory,
the updates of one component of the state, then the stores at a home, the loading of an image, the write-backs, and a write by
the host.
-/

namespace Sys2Proof.Machine

/-! ### One memory -/

theorem wf_writeMem {m : Mem} (h : Memory.wf m = true) (a : Nat) (l : List Byte) : Memory.wf (writeMem m a l) = true := by
  induction l generalizing m a with
  | nil => exact h
  | cons b r ih => exact ih (SMap.wf_set h a b) (a + 1)

theorem wf_putContrib {m : Mem} (h : Memory.wf m = true) (a n : Nat) (c : Contrib) : Memory.wf (putContrib m a n c) = true :=
  SMap.wf_foldl _ (fun _ _ hm => SMap.wf_set hm _ _) h _

theorem wf_clearShare {m : Mem} (h : Memory.wf m = true) (size base len : Nat) :
    Memory.wf (clearShare m size base len) = true := SMap.wf_filter h _

theorem StepStore.ok_inj {m m' : Mem} {st st' : Stepped} (h : StepStore.ok m st = .ok m' st') : m = m' := by
  injection h
/-- A store of one word into a stepped region keeps the canonical form. -/
theorem wf_stepWord {m m' : Mem} {st st' : Stepped} {base r : Nat} {e : Word} {i writer : Nat} {prio : BitVec 2}
    {timed : Bool} {l : List StByte} (h : Memory.wf m = true)
    (hs : stepWord m base st r e i writer prio timed l = .ok m' st') : Memory.wf m' = true := by
  unfold stepWord at hs
  extract_lets old val mask n st1 at hs
  split at hs
  · split at hs
    · split at hs
      · rw [← StepStore.ok_inj hs]; exact wf_writeMem h _ _
      · split at hs
        · rw [← StepStore.ok_inj hs]; exact h
        · cases hs
    · split at hs
      · rw [← StepStore.ok_inj hs]; exact h
      · cases hs
  · split at hs
    · rw [← StepStore.ok_inj hs]; exact wf_putContrib h _ _ _
    · rw [← StepStore.ok_inj hs]; exact h

theorem wf_stepWords {m m' : Mem} {st st' : Stepped} {base r : Nat} {e : Word} {writer : Nat} {prio : BitVec 2}
    {timed : Bool} {l : List (Nat × List StByte)} (h : Memory.wf m = true)
    (hs : stepWords base r e writer prio timed m st l = .ok m' st') : Memory.wf m' = true := by
  induction l generalizing m st with
  | nil => rw [← StepStore.ok_inj hs]; exact h
  | cons x l ih =>
    unfold stepWords at hs
    split at hs
    · rename_i hw; exact ih (wf_stepWord h hw) hs
    · cases hs

/-- A store into a stepped region keeps the canonical form. -/
theorem wf_stepStore {m m' : Mem} {st st' : Stepped} {base a writer : Nat} {prio : BitVec 2} {timed : Bool}
    {l : List StByte} (h : Memory.wf m = true) (hs : stepStore m base st a writer prio timed l = .ok m' st') :
    Memory.wf m' = true := by
  unfold stepStore at hs
  split at hs
  · exact wf_stepWords h hs
  · rw [← StepStore.ok_inj hs]; exact h

/-- The completion of a region's step keeps the canonical form. -/
theorem wf_settleRegion {m : Mem} (h : Memory.wf m = true) (base : Nat) (st : Stepped) (r : Nat) (e : Word) :
    Memory.wf (settleRegion m base st r e).1 = true := by
  unfold settleRegion
  dsimp only
  split
  · exact SMap.wf_foldl _ (fun m i hm => wf_writeMem (wf_writeMem hm _ _) _ _) h _
  · exact SMap.wf_foldl _ (fun m i hm => by
      split
      · exact hm
      · exact wf_writeMem hm _ _) h _

/-! ### The state, component by component -/

theorem memOk_get {s : State} (h : s.memOk = true) (p : Nat) : (s.part p).memOk = true := by
  simp only [State.memOk, Bool.and_eq_true, List.all_eq_true] at h
  rcases SMap.get_mem s.parts p with e | e
  · rw [State.part, e]; rfl
  · exact h.2 _ e

theorem memOk_hbm {s : State} (h : s.memOk = true) : Memory.wf s.hbm = true := by
  simp only [State.memOk, Bool.and_eq_true] at h; exact h.1.1

theorem memOk_host {s : State} (h : s.memOk = true) : Memory.wf s.host = true := by
  simp only [State.memOk, Bool.and_eq_true] at h; exact h.1.2

theorem memOk_pt {s : State} (h : s.memOk = true) : s.pt.memOk = true := memOk_get h _

theorem Part.memOk_mere {p : Part} (h : p.memOk = true) : Memory.wf p.mere = true := by
  simp only [Part.memOk, Bool.and_eq_true] at h; exact h.1.1.1

theorem Part.memOk_loft {p : Part} (h : p.memOk = true) : Memory.wf p.loft = true := by
  simp only [Part.memOk, Bool.and_eq_true] at h; exact h.1.1.2

theorem Part.memOk_loc {p : Part} (h : p.memOk = true) : Memory.wf p.loc = true := by
  simp only [Part.memOk, Bool.and_eq_true] at h; exact h.1.2

/-- A partition whose byte memories and streams are those of another is canonical with it. -/
theorem Part.memOk_same {p q : Part} (h : p.memOk = true) (hm : q.mere = p.mere) (hf : q.loft = p.loft) (hl : q.loc = p.loc)
    (hs : q.streams = p.streams) : q.memOk = true := by
  unfold Part.memOk at *
  rw [hm, hf, hl, hs]
  exact h

theorem Part.memOk_withMere {p : Part} (h : p.memOk = true) {m : Mem} (hm : Memory.wf m = true) :
    Part.memOk { p with mere := m } = true := by
  simp only [Part.memOk, Bool.and_eq_true] at h ⊢
  exact ⟨⟨⟨hm, h.1.1.2⟩, h.1.2⟩, h.2⟩

theorem Part.memOk_withLoft {p : Part} (h : p.memOk = true) {m : Mem} (hm : Memory.wf m = true) :
    Part.memOk { p with loft := m } = true := by
  simp only [Part.memOk, Bool.and_eq_true] at h ⊢
  exact ⟨⟨⟨h.1.1.1, hm⟩, h.1.2⟩, h.2⟩

theorem Part.memOk_withLoc {p : Part} (h : p.memOk = true) {m : Mem} (hm : Memory.wf m = true) :
    Part.memOk { p with loc := m } = true := by
  simp only [Part.memOk, Bool.and_eq_true] at h ⊢
  exact ⟨⟨⟨h.1.1.1, h.1.1.2⟩, hm⟩, h.2⟩

/-- An update of one partition that keeps its memories canonical keeps all of them so. -/
theorem memOk_onPart {s : State} {p : Nat} {f : Part → Part} (h : s.memOk = true)
    (hf : ∀ x : Part, x.memOk = true → (f x).memOk = true) : (s.onPart p f).memOk = true := by
  have hp := hf _ (memOk_get h p)
  simp only [State.memOk, State.onPart, Bool.and_eq_true, List.all_eq_true] at h ⊢
  refine ⟨h.1, fun x hx => ?_⟩
  rcases SMap.mem_insert hx with rfl | hx
  · exact hp
  · exact h.2 x hx

theorem memOk_onPt {s : State} {f : Part → Part} (h : s.memOk = true)
    (hf : ∀ x : Part, x.memOk = true → (f x).memOk = true) : (s.onPt f).memOk = true := memOk_onPart h hf

theorem memOk_onJob {s : State} (h : s.memOk = true) (f : Job → Job) : (s.onJob f).memOk = true :=
  memOk_onPt h fun _ hx => Part.memOk_same hx rfl rfl rfl rfl

theorem memOk_onCoreAt {s : State} (h : s.memOk = true) (c : Nat) (f : Core → Core) : (s.onCoreAt c f).memOk = true :=
  memOk_onJob h _

theorem memOk_onCr {s : State} (h : s.memOk = true) (f : Core → Core) : (s.onCr f).memOk = true := memOk_onJob h _

theorem memOk_onCtxAt {s : State} (h : s.memOk = true) (c k : Nat) (f : Ctx → Ctx) : (s.onCtxAt c k f).memOk = true :=
  memOk_onJob h _

theorem memOk_onCx {s : State} (h : s.memOk = true) (f : Ctx → Ctx) : (s.onCx f).memOk = true := memOk_onJob h _

theorem memOk_onHm {s : State} (h : s.memOk = true) (f : Hamlet → Hamlet) : (s.onHm f).memOk = true := memOk_onJob h _

theorem memOk_onTileAt {s : State} (h : s.memOk = true) (t : Nat) (f : Tile → Tile) : (s.onTileAt t f).memOk = true :=
  memOk_onJob h _

theorem memOk_onTl {s : State} (h : s.memOk = true) (f : Tile → Tile) : (s.onTl f).memOk = true := memOk_onJob h _

/-- A state whose HBM, host memory and partitions are those of another is canonical with it. -/
theorem memOk_same {s t : State} (h : s.memOk = true) (hb : t.hbm = s.hbm) (hh : t.host = s.host) (hp : t.parts = s.parts) :
    t.memOk = true := by
  unfold State.memOk at *
  rw [hb, hh, hp]
  exact h

theorem memOk_withHbm {s : State} (h : s.memOk = true) {m : Mem} (hm : Memory.wf m = true) :
    State.memOk { s with hbm := m } = true := by
  simp only [State.memOk, Bool.and_eq_true] at h ⊢
  exact ⟨⟨hm, h.1.2⟩, h.2⟩

theorem memOk_withHost {s : State} (h : s.memOk = true) {m : Mem} (hm : Memory.wf m = true) :
    State.memOk { s with host := m } = true := by
  simp only [State.memOk, Bool.and_eq_true] at h ⊢
  exact ⟨⟨h.1.1, hm⟩, h.2⟩

/-- A fold of updates each of which keeps the memories canonical keeps them so. -/
theorem memOk_foldl {β : Type} {f : State → β → State} (hf : ∀ (s : State) (x : β), s.memOk = true → (f s x).memOk = true)
    {s : State} (h : s.memOk = true) (l : List β) : (l.foldl f s).memOk = true := by
  induction l generalizing s with
  | nil => exact h
  | cons x r ih => exact ih (hf s x h)

/-! ### The operations -/

/-- The machine at reset has every memory in canonical form. -/
theorem reset_memories_canonical : State.reset.memOk = true := by decide

theorem memOk_memPut {s : State} (h : s.memOk = true) (k : Nat) (v : BitVec 512) : (s.memPut k v).memOk = true := by
  unfold State.memPut
  split
  · exact memOk_withHbm h (wf_writeMem (memOk_hbm h) _ _)
  · exact memOk_same (memOk_withHost h (wf_writeMem (memOk_host h) _ _)) rfl rfl rfl

theorem memOk_raiseHold {s : State} (h : s.memOk = true) (n : Nat) (len : Option Nat) : (s.raiseHold n len).memOk = true :=
  memOk_same (memOk_onJob h _) rfl rfl rfl

/-- A gang stop changes no memory. -/
theorem memOk_gangStop {s : State} (h : s.memOk = true) (o : Origin) (cause detail cause2 : BitVec 8) (aux : Word) :
    (s.gangStop o cause detail cause2 aux).memOk = true := by
  unfold State.gangStop
  dsimp only
  split
  · split
    · exact h
    · exact memOk_onJob h _
  · exact memOk_onJob (memOk_raiseHold h _ _) _

theorem memOk_writeBack {s : State} (h : s.memOk = true) (k : Nat) : (s.writeBack k).memOk = true := by
  unfold State.writeBack
  split
  · have ht : ∀ v, State.memOk { s.memPut k v with dirty := SMap.erase s.dirty k } = true := fun v =>
      memOk_same (memOk_memPut h k v) rfl rfl rfl
    dsimp only
    split
    · exact memOk_gangStop (ht _) _ _ _ _ _
    · exact ht _
  · exact h

theorem memOk_makeRoom {s : State} (h : s.memOk = true) (k : Nat) : (s.makeRoom k).memOk = true := by
  unfold State.makeRoom
  dsimp only
  split
  · exact h
  · have hd : s.draw.memOk = true := memOk_same h rfl rfl rfl
    refine memOk_foldl (fun t x ht => ?_) hd _
    split
    · exact memOk_writeBack ht _
    · exact ht

theorem memOk_slicePut {s : State} (h : s.memOk = true) (alloc : Bool) (k i : Nat) (b : Byte) :
    (s.slicePut alloc k i b).memOk = true := by
  unfold State.slicePut
  split
  · exact memOk_same h rfl rfl rfl
  · split
    · exact memOk_same (memOk_makeRoom h k) rfl rfl rfl
    · split
      · exact memOk_withHbm h (SMap.wf_set (memOk_hbm h) _ _)
      · exact memOk_memPut h _ _

theorem memOk_dropSector {s : State} (h : s.memOk = true) (k : Nat) : (s.dropSector k).memOk = true :=
  memOk_same h rfl rfl rfl

/-- A byte written at its home keeps every memory canonical. -/
theorem memOk_paPut {s : State} (h : s.memOk = true) (nc : Bool) (a : Nat) (b : Byte) : (s.paPut nc a b).memOk = true := by
  unfold State.paPut
  cases s.pt.home a with
  | hbm k => exact memOk_slicePut h _ _ _ _
  | far x => exact memOk_slicePut h _ _ _ _
  | mere t o =>
    refine memOk_onPt h fun x hx => Part.memOk_withMere hx ?_
    exact SMap.wf_set (Part.memOk_mere hx) _ _
  | loc c o =>
    refine memOk_onPt h fun x hx => Part.memOk_withLoc hx ?_
    exact SMap.wf_set (Part.memOk_loc hx) _ _
  | unpopulated => exact h

theorem memOk_paPuts {s : State} (h : s.memOk = true) (nc : Bool) (a : Nat) (l : List Byte) :
    (s.paPuts nc a l).memOk = true := by
  induction l generalizing s a with
  | nil => exact h
  | cons b r ih => exact ih (memOk_paPut h nc a b) (a + 1)

theorem memOk_markLeaf {s : State} (h : s.memOk = true) (a : Nat) (old new : Word) : (s.markLeaf a old new).memOk = true := by
  unfold State.markLeaf
  split
  · exact h
  · exact memOk_paPuts h _ _ _

theorem memOk_unpoison {s : State} (h : s.memOk = true) (a n : Nat) : (s.unpoison a n).memOk = true :=
  memOk_onPt h fun _ hx => Part.memOk_same hx rfl rfl rfl rfl

theorem Part.memOk_foldl {β : Type} {f : Part → β → Part} (hf : ∀ (p : Part) (x : β), p.memOk = true → (f p x).memOk = true)
    {p : Part} (h : p.memOk = true) (l : List β) : (l.foldl f p).memOk = true := by
  induction l generalizing p with
  | nil => exact h
  | cons x r ih => exact ih (hf p x h)

theorem Part.memOk_setPoison {p : Part} (h : p.memOk = true) (k : Nat) (b : Bool) : (p.setPoison k b).memOk = true :=
  Part.memOk_same h rfl rfl rfl rfl

theorem Part.memOk_cleanNext {p : Part} (h : p.memOk = true) (mk : Nat → Home) (st : Stepped) (a n : Nat) :
    (p.cleanNext mk st a n).memOk = true := by
  unfold Part.cleanNext
  split
  · exact Part.memOk_same h rfl rfl rfl rfl
  · exact h

/-- The poison of a region as its step completes is all that changes. -/
theorem Part.memOk_settlePoison {p : Part} (h : p.memOk = true) (mk : Nat → Home) (st : Stepped) (r : Nat) (e : Word) :
    (p.settlePoison mk st r e).memOk = true := by
  unfold Part.settlePoison
  extract_lets words key bad
  split
  · exact h
  · refine Part.memOk_foldl (fun q g hq => ?_) h _
    extract_lets mine written copied at_ b x
    split
    · split
      · exact hq
      · exact Part.memOk_foldl (fun _ _ hx => Part.memOk_setPoison hx _ _) (Part.memOk_setPoison hq _ _) _
    · split
      · exact hq
      · exact Part.memOk_setPoison hq _ _

/-- A store into a stepped region keeps every memory canonical. -/
theorem memOk_regionPut {s t : State} (h : s.memOk = true) {a : Acc} (hs : s.regionPut a = some t) : t.memOk = true := by
  unfold State.regionPut at hs
  dsimp only at hs
  split at hs
  · split at hs
    · rename_i e
      injection hs with hs
      subst hs
      exact memOk_onTileAt (memOk_onPt h fun x hx => Part.memOk_cleanNext
        (Part.memOk_withMere hx (wf_stepStore (Part.memOk_mere (memOk_pt h)) e)) _ _ _ _) _ _
    · cases hs
  · split at hs
    · rename_i e
      injection hs with hs
      subst hs
      exact memOk_onCoreAt (memOk_onPt h fun x hx => Part.memOk_cleanNext
        (Part.memOk_withLoc hx (wf_stepStore (Part.memOk_loc (memOk_pt h)) e)) _ _ _ _) _ _
    · cases hs
  · injection hs with hs; subst hs; exact h

theorem memOk_settleTile {s : State} (h : s.memOk = true) (t g : Nat) : (s.settleTile t g).memOk = true :=
  memOk_foldl (fun _ _ hs => memOk_onTileAt (memOk_onPt hs fun _ hx => Part.memOk_settlePoison
    (Part.memOk_withMere hx (wf_settleRegion (Part.memOk_mere (memOk_pt hs)) _ _ _ _)) _ _ _ _) _ _) h _

theorem memOk_settleCore {s : State} (h : s.memOk = true) (c g : Nat) : (s.settleCore c g).memOk = true :=
  memOk_foldl (fun _ _ hs => memOk_onCoreAt (memOk_onPt hs fun _ hx => Part.memOk_settlePoison
    (Part.memOk_withLoc hx (wf_settleRegion (Part.memOk_loc (memOk_pt hs)) _ _ _ _)) _ _ _ _) _ _) h _

/-- A job's shares filled with zeros: every memory stays canonical. -/
theorem Part.memOk_zeroShares {p : Part} (h : p.memOk = true) (x : Place) : (p.zeroShares x).memOk = true := by
  simp only [Part.memOk, Part.zeroShares, Bool.and_eq_true] at h ⊢
  exact ⟨⟨⟨wf_clearShare h.1.1.1 _ _ _, wf_clearShare h.1.1.2 _ _ _⟩, wf_clearShare h.1.2 _ _ _⟩, h.2⟩

theorem memOk_rootPuts {s : State} (h : s.memOk = true) (root va : Nat) (l : List Byte) :
    (State.rootPuts root va l s).memOk = true := by
  induction l generalizing s va with
  | nil => exact h
  | cons b r ih =>
    unfold State.rootPuts
    split
    · exact ih (memOk_paPut (memOk_markLeaf h _ _ _) _ _ _) _
    · exact ih h _

theorem memOk_rootClean {s : State} (h : s.memOk = true) (root va n : Nat) : (s.rootClean root va n).memOk = true :=
  memOk_foldl (fun s _ hs => by
    split
    · exact hs
    · split
      · exact memOk_unpoison hs _ _
      · exact hs) h _

/-- A data block of an image written: every memory stays canonical. -/
theorem memOk_loadBlock {s : State} (h : s.memOk = true) (root : Nat) (b : Block) :
    (State.loadBlock root s b).memOk = true := by
  unfold State.loadBlock
  dsimp only
  split
  · exact memOk_onPt h fun x hx => Part.memOk_withMere hx
      (SMap.wf_foldl _ (fun m i hm => wf_writeMem hm _ _) (Part.memOk_mere hx) _)
  · exact memOk_onPt h fun x hx => Part.memOk_withLoft hx
      (SMap.wf_foldl _ (fun m i hm => wf_writeMem hm _ _) (Part.memOk_loft hx) _)
  · exact memOk_onPt h fun x hx => Part.memOk_withLoc hx
      (SMap.wf_foldl _ (fun m i hm => wf_writeMem hm _ _) (Part.memOk_loc hx) _)
  · exact memOk_rootClean (memOk_rootPuts h _ _ _) _ _ _
  · exact h

theorem memOk_mereClean {s : State} (h : s.memOk = true) (t a n : Nat) : (s.mereClean t a n).memOk = true :=
  memOk_onPt h fun _ hx => Part.memOk_same hx rfl rfl rfl rfl

/-- HBM replaced by a canonical stream keeps every memory canonical. -/
theorem memOk_putHbm {s : State} (h : s.memOk = true) (m : Mem) : (State.putHbm m s).memOk = true := by
  unfold State.putHbm
  exact memOk_onPt (memOk_same (memOk_withHbm h (SMap.wf_foldl (α := Byte) _ (fun m x hm => SMap.wf_set hm _ _)
    (SMap.wf_filter (memOk_hbm h) _) m)) rfl rfl rfl) fun _ hx => Part.memOk_same hx rfl rfl rfl rfl

/-- A write of host memory keeps every memory canonical. -/
theorem memOk_hostWrite {s : State} (h : s.memOk = true) (a : Nat) (l : List Byte) :
    State.memOk { s with host := writeMem s.host a l } = true := memOk_withHost h (wf_writeMem (memOk_host h) _ _)

end Sys2Proof.Machine
end

