-- ==== Sys2Proof/Laws/State.lean ====
section
/-!
SUPPORT. Every update of a component read back, one lemma a field and an update, so that no proof unfolds a record update: what
stands outside the component is as before, and the component itself is what the update makes of it.
-/

namespace Sys2Proof.Machine

set_option Elab.async false

/-! ### Outside the partitions -/

@[simp] theorem State.onPart_link (s : State) (p : Nat) (f : Part → Part) : (s.onPart p f).link = s.link := rfl
@[simp] theorem State.onPart_fused (s : State) (p : Nat) (f : Part → Part) : (s.onPart p f).fused = s.fused := rfl
@[simp] theorem State.onPart_layout (s : State) (p : Nat) (f : Part → Part) : (s.onPart p f).layout = s.layout := rfl
@[simp] theorem State.onPart_stage (s : State) (p : Nat) (f : Part → Part) : (s.onPart p f).stage = s.stage := rfl
@[simp] theorem State.onPart_bootErr (s : State) (p : Nat) (f : Part → Part) : (s.onPart p f).bootErr = s.bootErr := rfl
@[simp] theorem State.onPart_qok (s : State) (p : Nat) (f : Part → Part) : (s.onPart p f).qok = s.qok := rfl
@[simp] theorem State.onPart_stkok (s : State) (p : Nat) (f : Part → Part) : (s.onPart p f).stkok = s.stkok := rfl
@[simp] theorem State.onPart_powered (s : State) (p : Nat) (f : Part → Part) : (s.onPart p f).powered = s.powered := rfl
@[simp] theorem State.onPart_hbm (s : State) (p : Nat) (f : Part → Part) : (s.onPart p f).hbm = s.hbm := rfl
@[simp] theorem State.onPart_dirty (s : State) (p : Nat) (f : Part → Part) : (s.onPart p f).dirty = s.dirty := rfl
@[simp] theorem State.onPart_host (s : State) (p : Nat) (f : Part → Part) : (s.onPart p f).host = s.host := rfl
@[simp] theorem State.onPart_far (s : State) (p : Nat) (f : Part → Part) : (s.onPart p f).far = s.far := rfl
@[simp] theorem State.onPart_reserve (s : State) (p : Nat) (f : Part → Part) : (s.onPart p f).reserve = s.reserve := rfl
@[simp] theorem State.onPart_agenda (s : State) (p : Nat) (f : Part → Part) : (s.onPart p f).agenda = s.agenda := rfl
@[simp] theorem State.onPart_focus (s : State) (p : Nat) (f : Part → Part) : (s.onPart p f).focus = s.focus := rfl
@[simp] theorem State.onPart_free (s : State) (p : Nat) (f : Part → Part) : (s.onPart p f).free = s.free := rfl
@[simp] theorem State.onPart_clock (s : State) (p : Nat) (f : Part → Part) : (s.onPart p f).clock = s.clock := rfl
@[simp] theorem State.onPart_out (s : State) (p : Nat) (f : Part → Part) : (s.onPart p f).out = s.out := rfl

@[simp] theorem State.onPt_link (s : State) (f : Part → Part) : (s.onPt f).link = s.link := rfl
@[simp] theorem State.onPt_fused (s : State) (f : Part → Part) : (s.onPt f).fused = s.fused := rfl
@[simp] theorem State.onPt_layout (s : State) (f : Part → Part) : (s.onPt f).layout = s.layout := rfl
@[simp] theorem State.onPt_stage (s : State) (f : Part → Part) : (s.onPt f).stage = s.stage := rfl
@[simp] theorem State.onPt_bootErr (s : State) (f : Part → Part) : (s.onPt f).bootErr = s.bootErr := rfl
@[simp] theorem State.onPt_qok (s : State) (f : Part → Part) : (s.onPt f).qok = s.qok := rfl
@[simp] theorem State.onPt_stkok (s : State) (f : Part → Part) : (s.onPt f).stkok = s.stkok := rfl
@[simp] theorem State.onPt_powered (s : State) (f : Part → Part) : (s.onPt f).powered = s.powered := rfl
@[simp] theorem State.onPt_hbm (s : State) (f : Part → Part) : (s.onPt f).hbm = s.hbm := rfl
@[simp] theorem State.onPt_dirty (s : State) (f : Part → Part) : (s.onPt f).dirty = s.dirty := rfl
@[simp] theorem State.onPt_host (s : State) (f : Part → Part) : (s.onPt f).host = s.host := rfl
@[simp] theorem State.onPt_far (s : State) (f : Part → Part) : (s.onPt f).far = s.far := rfl
@[simp] theorem State.onPt_reserve (s : State) (f : Part → Part) : (s.onPt f).reserve = s.reserve := rfl
@[simp] theorem State.onPt_agenda (s : State) (f : Part → Part) : (s.onPt f).agenda = s.agenda := rfl
@[simp] theorem State.onPt_focus (s : State) (f : Part → Part) : (s.onPt f).focus = s.focus := rfl
@[simp] theorem State.onPt_free (s : State) (f : Part → Part) : (s.onPt f).free = s.free := rfl
@[simp] theorem State.onPt_clock (s : State) (f : Part → Part) : (s.onPt f).clock = s.clock := rfl
@[simp] theorem State.onPt_out (s : State) (f : Part → Part) : (s.onPt f).out = s.out := rfl

@[simp] theorem State.onJob_link (s : State) (f : Job → Job) : (s.onJob f).link = s.link := rfl
@[simp] theorem State.onJob_fused (s : State) (f : Job → Job) : (s.onJob f).fused = s.fused := rfl
@[simp] theorem State.onJob_layout (s : State) (f : Job → Job) : (s.onJob f).layout = s.layout := rfl
@[simp] theorem State.onJob_stage (s : State) (f : Job → Job) : (s.onJob f).stage = s.stage := rfl
@[simp] theorem State.onJob_bootErr (s : State) (f : Job → Job) : (s.onJob f).bootErr = s.bootErr := rfl
@[simp] theorem State.onJob_qok (s : State) (f : Job → Job) : (s.onJob f).qok = s.qok := rfl
@[simp] theorem State.onJob_stkok (s : State) (f : Job → Job) : (s.onJob f).stkok = s.stkok := rfl
@[simp] theorem State.onJob_powered (s : State) (f : Job → Job) : (s.onJob f).powered = s.powered := rfl
@[simp] theorem State.onJob_hbm (s : State) (f : Job → Job) : (s.onJob f).hbm = s.hbm := rfl
@[simp] theorem State.onJob_dirty (s : State) (f : Job → Job) : (s.onJob f).dirty = s.dirty := rfl
@[simp] theorem State.onJob_host (s : State) (f : Job → Job) : (s.onJob f).host = s.host := rfl
@[simp] theorem State.onJob_far (s : State) (f : Job → Job) : (s.onJob f).far = s.far := rfl
@[simp] theorem State.onJob_reserve (s : State) (f : Job → Job) : (s.onJob f).reserve = s.reserve := rfl
@[simp] theorem State.onJob_agenda (s : State) (f : Job → Job) : (s.onJob f).agenda = s.agenda := rfl
@[simp] theorem State.onJob_focus (s : State) (f : Job → Job) : (s.onJob f).focus = s.focus := rfl
@[simp] theorem State.onJob_free (s : State) (f : Job → Job) : (s.onJob f).free = s.free := rfl
@[simp] theorem State.onJob_clock (s : State) (f : Job → Job) : (s.onJob f).clock = s.clock := rfl
@[simp] theorem State.onJob_out (s : State) (f : Job → Job) : (s.onJob f).out = s.out := rfl

@[simp] theorem State.onCoreAt_link (s : State) (c : Nat) (f : Core → Core) : (s.onCoreAt c f).link = s.link := rfl
@[simp] theorem State.onCoreAt_fused (s : State) (c : Nat) (f : Core → Core) : (s.onCoreAt c f).fused = s.fused := rfl
@[simp] theorem State.onCoreAt_layout (s : State) (c : Nat) (f : Core → Core) : (s.onCoreAt c f).layout = s.layout := rfl
@[simp] theorem State.onCoreAt_stage (s : State) (c : Nat) (f : Core → Core) : (s.onCoreAt c f).stage = s.stage := rfl
@[simp] theorem State.onCoreAt_bootErr (s : State) (c : Nat) (f : Core → Core) : (s.onCoreAt c f).bootErr = s.bootErr := rfl
@[simp] theorem State.onCoreAt_qok (s : State) (c : Nat) (f : Core → Core) : (s.onCoreAt c f).qok = s.qok := rfl
@[simp] theorem State.onCoreAt_stkok (s : State) (c : Nat) (f : Core → Core) : (s.onCoreAt c f).stkok = s.stkok := rfl
@[simp] theorem State.onCoreAt_powered (s : State) (c : Nat) (f : Core → Core) : (s.onCoreAt c f).powered = s.powered := rfl
@[simp] theorem State.onCoreAt_hbm (s : State) (c : Nat) (f : Core → Core) : (s.onCoreAt c f).hbm = s.hbm := rfl
@[simp] theorem State.onCoreAt_dirty (s : State) (c : Nat) (f : Core → Core) : (s.onCoreAt c f).dirty = s.dirty := rfl
@[simp] theorem State.onCoreAt_host (s : State) (c : Nat) (f : Core → Core) : (s.onCoreAt c f).host = s.host := rfl
@[simp] theorem State.onCoreAt_far (s : State) (c : Nat) (f : Core → Core) : (s.onCoreAt c f).far = s.far := rfl
@[simp] theorem State.onCoreAt_reserve (s : State) (c : Nat) (f : Core → Core) : (s.onCoreAt c f).reserve = s.reserve := rfl
@[simp] theorem State.onCoreAt_agenda (s : State) (c : Nat) (f : Core → Core) : (s.onCoreAt c f).agenda = s.agenda := rfl
@[simp] theorem State.onCoreAt_focus (s : State) (c : Nat) (f : Core → Core) : (s.onCoreAt c f).focus = s.focus := rfl
@[simp] theorem State.onCoreAt_free (s : State) (c : Nat) (f : Core → Core) : (s.onCoreAt c f).free = s.free := rfl
@[simp] theorem State.onCoreAt_clock (s : State) (c : Nat) (f : Core → Core) : (s.onCoreAt c f).clock = s.clock := rfl
@[simp] theorem State.onCoreAt_out (s : State) (c : Nat) (f : Core → Core) : (s.onCoreAt c f).out = s.out := rfl

@[simp] theorem State.onCr_link (s : State) (f : Core → Core) : (s.onCr f).link = s.link := rfl
@[simp] theorem State.onCr_fused (s : State) (f : Core → Core) : (s.onCr f).fused = s.fused := rfl
@[simp] theorem State.onCr_layout (s : State) (f : Core → Core) : (s.onCr f).layout = s.layout := rfl
@[simp] theorem State.onCr_stage (s : State) (f : Core → Core) : (s.onCr f).stage = s.stage := rfl
@[simp] theorem State.onCr_bootErr (s : State) (f : Core → Core) : (s.onCr f).bootErr = s.bootErr := rfl
@[simp] theorem State.onCr_qok (s : State) (f : Core → Core) : (s.onCr f).qok = s.qok := rfl
@[simp] theorem State.onCr_stkok (s : State) (f : Core → Core) : (s.onCr f).stkok = s.stkok := rfl
@[simp] theorem State.onCr_powered (s : State) (f : Core → Core) : (s.onCr f).powered = s.powered := rfl
@[simp] theorem State.onCr_hbm (s : State) (f : Core → Core) : (s.onCr f).hbm = s.hbm := rfl
@[simp] theorem State.onCr_dirty (s : State) (f : Core → Core) : (s.onCr f).dirty = s.dirty := rfl
@[simp] theorem State.onCr_host (s : State) (f : Core → Core) : (s.onCr f).host = s.host := rfl
@[simp] theorem State.onCr_far (s : State) (f : Core → Core) : (s.onCr f).far = s.far := rfl
@[simp] theorem State.onCr_reserve (s : State) (f : Core → Core) : (s.onCr f).reserve = s.reserve := rfl
@[simp] theorem State.onCr_agenda (s : State) (f : Core → Core) : (s.onCr f).agenda = s.agenda := rfl
@[simp] theorem State.onCr_focus (s : State) (f : Core → Core) : (s.onCr f).focus = s.focus := rfl
@[simp] theorem State.onCr_free (s : State) (f : Core → Core) : (s.onCr f).free = s.free := rfl
@[simp] theorem State.onCr_clock (s : State) (f : Core → Core) : (s.onCr f).clock = s.clock := rfl
@[simp] theorem State.onCr_out (s : State) (f : Core → Core) : (s.onCr f).out = s.out := rfl

@[simp] theorem State.onCtxAt_link (s : State) (c k : Nat) (f : Ctx → Ctx) : (s.onCtxAt c k f).link = s.link := rfl
@[simp] theorem State.onCtxAt_fused (s : State) (c k : Nat) (f : Ctx → Ctx) : (s.onCtxAt c k f).fused = s.fused := rfl
@[simp] theorem State.onCtxAt_layout (s : State) (c k : Nat) (f : Ctx → Ctx) : (s.onCtxAt c k f).layout = s.layout := rfl
@[simp] theorem State.onCtxAt_stage (s : State) (c k : Nat) (f : Ctx → Ctx) : (s.onCtxAt c k f).stage = s.stage := rfl
@[simp] theorem State.onCtxAt_bootErr (s : State) (c k : Nat) (f : Ctx → Ctx) : (s.onCtxAt c k f).bootErr = s.bootErr := rfl
@[simp] theorem State.onCtxAt_qok (s : State) (c k : Nat) (f : Ctx → Ctx) : (s.onCtxAt c k f).qok = s.qok := rfl
@[simp] theorem State.onCtxAt_stkok (s : State) (c k : Nat) (f : Ctx → Ctx) : (s.onCtxAt c k f).stkok = s.stkok := rfl
@[simp] theorem State.onCtxAt_powered (s : State) (c k : Nat) (f : Ctx → Ctx) : (s.onCtxAt c k f).powered = s.powered := rfl
@[simp] theorem State.onCtxAt_hbm (s : State) (c k : Nat) (f : Ctx → Ctx) : (s.onCtxAt c k f).hbm = s.hbm := rfl
@[simp] theorem State.onCtxAt_dirty (s : State) (c k : Nat) (f : Ctx → Ctx) : (s.onCtxAt c k f).dirty = s.dirty := rfl
@[simp] theorem State.onCtxAt_host (s : State) (c k : Nat) (f : Ctx → Ctx) : (s.onCtxAt c k f).host = s.host := rfl
@[simp] theorem State.onCtxAt_far (s : State) (c k : Nat) (f : Ctx → Ctx) : (s.onCtxAt c k f).far = s.far := rfl
@[simp] theorem State.onCtxAt_reserve (s : State) (c k : Nat) (f : Ctx → Ctx) : (s.onCtxAt c k f).reserve = s.reserve := rfl
@[simp] theorem State.onCtxAt_agenda (s : State) (c k : Nat) (f : Ctx → Ctx) : (s.onCtxAt c k f).agenda = s.agenda := rfl
@[simp] theorem State.onCtxAt_focus (s : State) (c k : Nat) (f : Ctx → Ctx) : (s.onCtxAt c k f).focus = s.focus := rfl
@[simp] theorem State.onCtxAt_free (s : State) (c k : Nat) (f : Ctx → Ctx) : (s.onCtxAt c k f).free = s.free := rfl
@[simp] theorem State.onCtxAt_clock (s : State) (c k : Nat) (f : Ctx → Ctx) : (s.onCtxAt c k f).clock = s.clock := rfl
@[simp] theorem State.onCtxAt_out (s : State) (c k : Nat) (f : Ctx → Ctx) : (s.onCtxAt c k f).out = s.out := rfl

@[simp] theorem State.onCx_link (s : State) (f : Ctx → Ctx) : (s.onCx f).link = s.link := rfl
@[simp] theorem State.onCx_fused (s : State) (f : Ctx → Ctx) : (s.onCx f).fused = s.fused := rfl
@[simp] theorem State.onCx_layout (s : State) (f : Ctx → Ctx) : (s.onCx f).layout = s.layout := rfl
@[simp] theorem State.onCx_stage (s : State) (f : Ctx → Ctx) : (s.onCx f).stage = s.stage := rfl
@[simp] theorem State.onCx_bootErr (s : State) (f : Ctx → Ctx) : (s.onCx f).bootErr = s.bootErr := rfl
@[simp] theorem State.onCx_qok (s : State) (f : Ctx → Ctx) : (s.onCx f).qok = s.qok := rfl
@[simp] theorem State.onCx_stkok (s : State) (f : Ctx → Ctx) : (s.onCx f).stkok = s.stkok := rfl
@[simp] theorem State.onCx_powered (s : State) (f : Ctx → Ctx) : (s.onCx f).powered = s.powered := rfl
@[simp] theorem State.onCx_hbm (s : State) (f : Ctx → Ctx) : (s.onCx f).hbm = s.hbm := rfl
@[simp] theorem State.onCx_dirty (s : State) (f : Ctx → Ctx) : (s.onCx f).dirty = s.dirty := rfl
@[simp] theorem State.onCx_host (s : State) (f : Ctx → Ctx) : (s.onCx f).host = s.host := rfl
@[simp] theorem State.onCx_far (s : State) (f : Ctx → Ctx) : (s.onCx f).far = s.far := rfl
@[simp] theorem State.onCx_reserve (s : State) (f : Ctx → Ctx) : (s.onCx f).reserve = s.reserve := rfl
@[simp] theorem State.onCx_agenda (s : State) (f : Ctx → Ctx) : (s.onCx f).agenda = s.agenda := rfl
@[simp] theorem State.onCx_focus (s : State) (f : Ctx → Ctx) : (s.onCx f).focus = s.focus := rfl
@[simp] theorem State.onCx_free (s : State) (f : Ctx → Ctx) : (s.onCx f).free = s.free := rfl
@[simp] theorem State.onCx_clock (s : State) (f : Ctx → Ctx) : (s.onCx f).clock = s.clock := rfl
@[simp] theorem State.onCx_out (s : State) (f : Ctx → Ctx) : (s.onCx f).out = s.out := rfl

@[simp] theorem State.onHm_link (s : State) (f : Hamlet → Hamlet) : (s.onHm f).link = s.link := rfl
@[simp] theorem State.onHm_fused (s : State) (f : Hamlet → Hamlet) : (s.onHm f).fused = s.fused := rfl
@[simp] theorem State.onHm_layout (s : State) (f : Hamlet → Hamlet) : (s.onHm f).layout = s.layout := rfl
@[simp] theorem State.onHm_stage (s : State) (f : Hamlet → Hamlet) : (s.onHm f).stage = s.stage := rfl
@[simp] theorem State.onHm_bootErr (s : State) (f : Hamlet → Hamlet) : (s.onHm f).bootErr = s.bootErr := rfl
@[simp] theorem State.onHm_qok (s : State) (f : Hamlet → Hamlet) : (s.onHm f).qok = s.qok := rfl
@[simp] theorem State.onHm_stkok (s : State) (f : Hamlet → Hamlet) : (s.onHm f).stkok = s.stkok := rfl
@[simp] theorem State.onHm_powered (s : State) (f : Hamlet → Hamlet) : (s.onHm f).powered = s.powered := rfl
@[simp] theorem State.onHm_hbm (s : State) (f : Hamlet → Hamlet) : (s.onHm f).hbm = s.hbm := rfl
@[simp] theorem State.onHm_dirty (s : State) (f : Hamlet → Hamlet) : (s.onHm f).dirty = s.dirty := rfl
@[simp] theorem State.onHm_host (s : State) (f : Hamlet → Hamlet) : (s.onHm f).host = s.host := rfl
@[simp] theorem State.onHm_far (s : State) (f : Hamlet → Hamlet) : (s.onHm f).far = s.far := rfl
@[simp] theorem State.onHm_reserve (s : State) (f : Hamlet → Hamlet) : (s.onHm f).reserve = s.reserve := rfl
@[simp] theorem State.onHm_agenda (s : State) (f : Hamlet → Hamlet) : (s.onHm f).agenda = s.agenda := rfl
@[simp] theorem State.onHm_focus (s : State) (f : Hamlet → Hamlet) : (s.onHm f).focus = s.focus := rfl
@[simp] theorem State.onHm_free (s : State) (f : Hamlet → Hamlet) : (s.onHm f).free = s.free := rfl
@[simp] theorem State.onHm_clock (s : State) (f : Hamlet → Hamlet) : (s.onHm f).clock = s.clock := rfl
@[simp] theorem State.onHm_out (s : State) (f : Hamlet → Hamlet) : (s.onHm f).out = s.out := rfl

@[simp] theorem State.onTileAt_link (s : State) (t : Nat) (f : Tile → Tile) : (s.onTileAt t f).link = s.link := rfl
@[simp] theorem State.onTileAt_fused (s : State) (t : Nat) (f : Tile → Tile) : (s.onTileAt t f).fused = s.fused := rfl
@[simp] theorem State.onTileAt_layout (s : State) (t : Nat) (f : Tile → Tile) : (s.onTileAt t f).layout = s.layout := rfl
@[simp] theorem State.onTileAt_stage (s : State) (t : Nat) (f : Tile → Tile) : (s.onTileAt t f).stage = s.stage := rfl
@[simp] theorem State.onTileAt_bootErr (s : State) (t : Nat) (f : Tile → Tile) : (s.onTileAt t f).bootErr = s.bootErr := rfl
@[simp] theorem State.onTileAt_qok (s : State) (t : Nat) (f : Tile → Tile) : (s.onTileAt t f).qok = s.qok := rfl
@[simp] theorem State.onTileAt_stkok (s : State) (t : Nat) (f : Tile → Tile) : (s.onTileAt t f).stkok = s.stkok := rfl
@[simp] theorem State.onTileAt_powered (s : State) (t : Nat) (f : Tile → Tile) : (s.onTileAt t f).powered = s.powered := rfl
@[simp] theorem State.onTileAt_hbm (s : State) (t : Nat) (f : Tile → Tile) : (s.onTileAt t f).hbm = s.hbm := rfl
@[simp] theorem State.onTileAt_dirty (s : State) (t : Nat) (f : Tile → Tile) : (s.onTileAt t f).dirty = s.dirty := rfl
@[simp] theorem State.onTileAt_host (s : State) (t : Nat) (f : Tile → Tile) : (s.onTileAt t f).host = s.host := rfl
@[simp] theorem State.onTileAt_far (s : State) (t : Nat) (f : Tile → Tile) : (s.onTileAt t f).far = s.far := rfl
@[simp] theorem State.onTileAt_reserve (s : State) (t : Nat) (f : Tile → Tile) : (s.onTileAt t f).reserve = s.reserve := rfl
@[simp] theorem State.onTileAt_agenda (s : State) (t : Nat) (f : Tile → Tile) : (s.onTileAt t f).agenda = s.agenda := rfl
@[simp] theorem State.onTileAt_focus (s : State) (t : Nat) (f : Tile → Tile) : (s.onTileAt t f).focus = s.focus := rfl
@[simp] theorem State.onTileAt_free (s : State) (t : Nat) (f : Tile → Tile) : (s.onTileAt t f).free = s.free := rfl
@[simp] theorem State.onTileAt_clock (s : State) (t : Nat) (f : Tile → Tile) : (s.onTileAt t f).clock = s.clock := rfl
@[simp] theorem State.onTileAt_out (s : State) (t : Nat) (f : Tile → Tile) : (s.onTileAt t f).out = s.out := rfl

@[simp] theorem State.onTl_link (s : State) (f : Tile → Tile) : (s.onTl f).link = s.link := rfl
@[simp] theorem State.onTl_fused (s : State) (f : Tile → Tile) : (s.onTl f).fused = s.fused := rfl
@[simp] theorem State.onTl_layout (s : State) (f : Tile → Tile) : (s.onTl f).layout = s.layout := rfl
@[simp] theorem State.onTl_stage (s : State) (f : Tile → Tile) : (s.onTl f).stage = s.stage := rfl
@[simp] theorem State.onTl_bootErr (s : State) (f : Tile → Tile) : (s.onTl f).bootErr = s.bootErr := rfl
@[simp] theorem State.onTl_qok (s : State) (f : Tile → Tile) : (s.onTl f).qok = s.qok := rfl
@[simp] theorem State.onTl_stkok (s : State) (f : Tile → Tile) : (s.onTl f).stkok = s.stkok := rfl
@[simp] theorem State.onTl_powered (s : State) (f : Tile → Tile) : (s.onTl f).powered = s.powered := rfl
@[simp] theorem State.onTl_hbm (s : State) (f : Tile → Tile) : (s.onTl f).hbm = s.hbm := rfl
@[simp] theorem State.onTl_dirty (s : State) (f : Tile → Tile) : (s.onTl f).dirty = s.dirty := rfl
@[simp] theorem State.onTl_host (s : State) (f : Tile → Tile) : (s.onTl f).host = s.host := rfl
@[simp] theorem State.onTl_far (s : State) (f : Tile → Tile) : (s.onTl f).far = s.far := rfl
@[simp] theorem State.onTl_reserve (s : State) (f : Tile → Tile) : (s.onTl f).reserve = s.reserve := rfl
@[simp] theorem State.onTl_agenda (s : State) (f : Tile → Tile) : (s.onTl f).agenda = s.agenda := rfl
@[simp] theorem State.onTl_focus (s : State) (f : Tile → Tile) : (s.onTl f).focus = s.focus := rfl
@[simp] theorem State.onTl_free (s : State) (f : Tile → Tile) : (s.onTl f).free = s.free := rfl
@[simp] theorem State.onTl_clock (s : State) (f : Tile → Tile) : (s.onTl f).clock = s.clock := rfl
@[simp] theorem State.onTl_out (s : State) (f : Tile → Tile) : (s.onTl f).out = s.out := rfl

@[simp] theorem State.draw_link (s : State) : s.draw.link = s.link := rfl
@[simp] theorem State.draw_fused (s : State) : s.draw.fused = s.fused := rfl
@[simp] theorem State.draw_layout (s : State) : s.draw.layout = s.layout := rfl
@[simp] theorem State.draw_stage (s : State) : s.draw.stage = s.stage := rfl
@[simp] theorem State.draw_bootErr (s : State) : s.draw.bootErr = s.bootErr := rfl
@[simp] theorem State.draw_qok (s : State) : s.draw.qok = s.qok := rfl
@[simp] theorem State.draw_stkok (s : State) : s.draw.stkok = s.stkok := rfl
@[simp] theorem State.draw_powered (s : State) : s.draw.powered = s.powered := rfl
@[simp] theorem State.draw_hbm (s : State) : s.draw.hbm = s.hbm := rfl
@[simp] theorem State.draw_dirty (s : State) : s.draw.dirty = s.dirty := rfl
@[simp] theorem State.draw_host (s : State) : s.draw.host = s.host := rfl
@[simp] theorem State.draw_far (s : State) : s.draw.far = s.far := rfl
@[simp] theorem State.draw_reserve (s : State) : s.draw.reserve = s.reserve := rfl
@[simp] theorem State.draw_parts (s : State) : s.draw.parts = s.parts := rfl
@[simp] theorem State.draw_agenda (s : State) : s.draw.agenda = s.agenda := rfl
@[simp] theorem State.draw_focus (s : State) : s.draw.focus = s.focus := rfl
@[simp] theorem State.draw_free (s : State) : s.draw.free = s.free + 1 := rfl
@[simp] theorem State.draw_clock (s : State) : s.draw.clock = s.clock := rfl
@[simp] theorem State.draw_out (s : State) : s.draw.out = s.out := rfl

/-! ### Within a partition, a job and a core -/

@[simp] theorem Part.onJob_qmask (p : Part) (f : Job → Job) : (p.onJob f).qmask = p.qmask := rfl
@[simp] theorem Part.onJob_il (p : Part) (f : Job → Job) : (p.onJob f).il = p.il := rfl
@[simp] theorem Part.onJob_bound (p : Part) (f : Job → Job) : (p.onJob f).bound = p.bound := rfl
@[simp] theorem Part.onJob_det (p : Part) (f : Job → Job) : (p.onJob f).det = p.det := rfl
@[simp] theorem Part.onJob_seed (p : Part) (f : Job → Job) : (p.onJob f).seed = p.seed := rfl
@[simp] theorem Part.onJob_ratio (p : Part) (f : Job → Job) : (p.onJob f).ratio = p.ratio := rfl
@[simp] theorem Part.onJob_chain (p : Part) (f : Job → Job) : (p.onJob f).chain = p.chain := rfl
@[simp] theorem Part.onJob_segs (p : Part) (f : Job → Job) : (p.onJob f).segs = p.segs := rfl
@[simp] theorem Part.onJob_mere (p : Part) (f : Job → Job) : (p.onJob f).mere = p.mere := rfl
@[simp] theorem Part.onJob_loft (p : Part) (f : Job → Job) : (p.onJob f).loft = p.loft := rfl
@[simp] theorem Part.onJob_loc (p : Part) (f : Job → Job) : (p.onJob f).loc = p.loc := rfl
@[simp] theorem Part.onJob_poison (p : Part) (f : Job → Job) : (p.onJob f).poison = p.poison := rfl
@[simp] theorem Part.onJob_granaryErr (p : Part) (f : Job → Job) : (p.onJob f).granaryErr = p.granaryErr := rfl
@[simp] theorem Part.onJob_tlbs (p : Part) (f : Job → Job) : (p.onJob f).tlbs = p.tlbs := rfl
@[simp] theorem Part.onJob_ptrs (p : Part) (f : Job → Job) : (p.onJob f).ptrs = p.ptrs := rfl
@[simp] theorem Part.onJob_job (p : Part) (f : Job → Job) : (p.onJob f).job = f p.job := rfl
@[simp] theorem Part.onJob_left (p : Part) (f : Job → Job) : (p.onJob f).left = p.left := rfl
@[simp] theorem Part.onJob_cur (p : Part) (f : Job → Job) : (p.onJob f).cur = p.cur := rfl
@[simp] theorem Part.onJob_res (p : Part) (f : Job → Job) : (p.onJob f).res = p.res := rfl
@[simp] theorem Part.onJob_bankValid (p : Part) (f : Job → Job) : (p.onJob f).bankValid = p.bankValid := rfl
@[simp] theorem Part.onJob_switch (p : Part) (f : Job → Job) : (p.onJob f).switch = p.switch := rfl
@[simp] theorem Part.onJob_key (p : Part) (f : Job → Job) : (p.onJob f).key = p.key := rfl
@[simp] theorem Part.onJob_queues (p : Part) (f : Job → Job) : (p.onJob f).queues = p.queues := rfl
@[simp] theorem Part.onJob_statbase (p : Part) (f : Job → Job) : (p.onJob f).statbase = p.statbase := rfl
@[simp] theorem Part.onJob_hseen (p : Part) (f : Job → Job) : (p.onJob f).hseen = p.hseen := rfl
@[simp] theorem Part.onJob_aseq (p : Part) (f : Job → Job) : (p.onJob f).aseq = p.aseq := rfl
@[simp] theorem Part.onJob_cseq (p : Part) (f : Job → Job) : (p.onJob f).cseq = p.cseq := rfl
@[simp] theorem Part.onJob_replay (p : Part) (f : Job → Job) : (p.onJob f).replay = p.replay := rfl
@[simp] theorem Part.onJob_held (p : Part) (f : Job → Job) : (p.onJob f).held = p.held := rfl
@[simp] theorem Part.onJob_quiesced (p : Part) (f : Job → Job) : (p.onJob f).quiesced = p.quiesced := rfl
@[simp] theorem Part.onJob_herr (p : Part) (f : Job → Job) : (p.onJob f).herr = p.herr := rfl
@[simp] theorem Part.onJob_jlost (p : Part) (f : Job → Job) : (p.onJob f).jlost = p.jlost := rfl
@[simp] theorem Part.onJob_quiesce (p : Part) (f : Job → Job) : (p.onJob f).quiesce = p.quiesce := rfl
@[simp] theorem Part.onJob_ckpt (p : Part) (f : Job → Job) : (p.onJob f).ckpt = p.ckpt := rfl
@[simp] theorem Part.onJob_restoreOk (p : Part) (f : Job → Job) : (p.onJob f).restoreOk = p.restoreOk := rfl
@[simp] theorem Part.onJob_streams (p : Part) (f : Job → Job) : (p.onJob f).streams = p.streams := rfl
@[simp] theorem Part.onJob_grants (p : Part) (f : Job → Job) : (p.onJob f).grants = p.grants := rfl
@[simp] theorem Part.onJob_owner (p : Part) (f : Job → Job) : (p.onJob f).owner = p.owner := rfl
@[simp] theorem Part.onJob_debugOk (p : Part) (f : Job → Job) : (p.onJob f).debugOk = p.debugOk := rfl
@[simp] theorem Part.onJob_spdm (p : Part) (f : Job → Job) : (p.onJob f).spdm = p.spdm := rfl
@[simp] theorem Part.onJob_ide (p : Part) (f : Job → Job) : (p.onJob f).ide = p.ide := rfl
@[simp] theorem Part.onJob_uports (p : Part) (f : Job → Job) : (p.onJob f).uports = p.uports := rfl
@[simp] theorem Part.onJob_tdi (p : Part) (f : Job → Job) : (p.onJob f).tdi = p.tdi := rfl
@[simp] theorem Part.onJob_trapEntry (p : Part) (f : Job → Job) : (p.onJob f).trapEntry = p.trapEntry := rfl
@[simp] theorem Part.onJob_members (p : Part) (f : Job → Job) : (p.onJob f).members = p.members := rfl
@[simp] theorem Part.onJob_redo (p : Part) (f : Job → Job) : (p.onJob f).redo = p.redo := rfl

@[simp] theorem Part.onTlb_qmask (p : Part) (n : Nat) (f : List TlbEnt → List TlbEnt) : (p.onTlb n f).qmask = p.qmask := rfl
@[simp] theorem Part.onTlb_il (p : Part) (n : Nat) (f : List TlbEnt → List TlbEnt) : (p.onTlb n f).il = p.il := rfl
@[simp] theorem Part.onTlb_bound (p : Part) (n : Nat) (f : List TlbEnt → List TlbEnt) : (p.onTlb n f).bound = p.bound := rfl
@[simp] theorem Part.onTlb_det (p : Part) (n : Nat) (f : List TlbEnt → List TlbEnt) : (p.onTlb n f).det = p.det := rfl
@[simp] theorem Part.onTlb_seed (p : Part) (n : Nat) (f : List TlbEnt → List TlbEnt) : (p.onTlb n f).seed = p.seed := rfl
@[simp] theorem Part.onTlb_ratio (p : Part) (n : Nat) (f : List TlbEnt → List TlbEnt) : (p.onTlb n f).ratio = p.ratio := rfl
@[simp] theorem Part.onTlb_chain (p : Part) (n : Nat) (f : List TlbEnt → List TlbEnt) : (p.onTlb n f).chain = p.chain := rfl
@[simp] theorem Part.onTlb_segs (p : Part) (n : Nat) (f : List TlbEnt → List TlbEnt) : (p.onTlb n f).segs = p.segs := rfl
@[simp] theorem Part.onTlb_mere (p : Part) (n : Nat) (f : List TlbEnt → List TlbEnt) : (p.onTlb n f).mere = p.mere := rfl
@[simp] theorem Part.onTlb_loft (p : Part) (n : Nat) (f : List TlbEnt → List TlbEnt) : (p.onTlb n f).loft = p.loft := rfl
@[simp] theorem Part.onTlb_loc (p : Part) (n : Nat) (f : List TlbEnt → List TlbEnt) : (p.onTlb n f).loc = p.loc := rfl
@[simp] theorem Part.onTlb_poison (p : Part) (n : Nat) (f : List TlbEnt → List TlbEnt) : (p.onTlb n f).poison = p.poison := rfl
@[simp] theorem Part.onTlb_granaryErr (p : Part) (n : Nat) (f : List TlbEnt → List TlbEnt) : (p.onTlb n f).granaryErr = p.granaryErr := rfl
@[simp] theorem Part.onTlb_ptrs (p : Part) (n : Nat) (f : List TlbEnt → List TlbEnt) : (p.onTlb n f).ptrs = p.ptrs := rfl
@[simp] theorem Part.onTlb_job (p : Part) (n : Nat) (f : List TlbEnt → List TlbEnt) : (p.onTlb n f).job = p.job := rfl
@[simp] theorem Part.onTlb_left (p : Part) (n : Nat) (f : List TlbEnt → List TlbEnt) : (p.onTlb n f).left = p.left := rfl
@[simp] theorem Part.onTlb_cur (p : Part) (n : Nat) (f : List TlbEnt → List TlbEnt) : (p.onTlb n f).cur = p.cur := rfl
@[simp] theorem Part.onTlb_res (p : Part) (n : Nat) (f : List TlbEnt → List TlbEnt) : (p.onTlb n f).res = p.res := rfl
@[simp] theorem Part.onTlb_bankValid (p : Part) (n : Nat) (f : List TlbEnt → List TlbEnt) : (p.onTlb n f).bankValid = p.bankValid := rfl
@[simp] theorem Part.onTlb_switch (p : Part) (n : Nat) (f : List TlbEnt → List TlbEnt) : (p.onTlb n f).switch = p.switch := rfl
@[simp] theorem Part.onTlb_key (p : Part) (n : Nat) (f : List TlbEnt → List TlbEnt) : (p.onTlb n f).key = p.key := rfl
@[simp] theorem Part.onTlb_queues (p : Part) (n : Nat) (f : List TlbEnt → List TlbEnt) : (p.onTlb n f).queues = p.queues := rfl
@[simp] theorem Part.onTlb_statbase (p : Part) (n : Nat) (f : List TlbEnt → List TlbEnt) : (p.onTlb n f).statbase = p.statbase := rfl
@[simp] theorem Part.onTlb_hseen (p : Part) (n : Nat) (f : List TlbEnt → List TlbEnt) : (p.onTlb n f).hseen = p.hseen := rfl
@[simp] theorem Part.onTlb_aseq (p : Part) (n : Nat) (f : List TlbEnt → List TlbEnt) : (p.onTlb n f).aseq = p.aseq := rfl
@[simp] theorem Part.onTlb_cseq (p : Part) (n : Nat) (f : List TlbEnt → List TlbEnt) : (p.onTlb n f).cseq = p.cseq := rfl
@[simp] theorem Part.onTlb_replay (p : Part) (n : Nat) (f : List TlbEnt → List TlbEnt) : (p.onTlb n f).replay = p.replay := rfl
@[simp] theorem Part.onTlb_held (p : Part) (n : Nat) (f : List TlbEnt → List TlbEnt) : (p.onTlb n f).held = p.held := rfl
@[simp] theorem Part.onTlb_quiesced (p : Part) (n : Nat) (f : List TlbEnt → List TlbEnt) : (p.onTlb n f).quiesced = p.quiesced := rfl
@[simp] theorem Part.onTlb_herr (p : Part) (n : Nat) (f : List TlbEnt → List TlbEnt) : (p.onTlb n f).herr = p.herr := rfl
@[simp] theorem Part.onTlb_jlost (p : Part) (n : Nat) (f : List TlbEnt → List TlbEnt) : (p.onTlb n f).jlost = p.jlost := rfl
@[simp] theorem Part.onTlb_quiesce (p : Part) (n : Nat) (f : List TlbEnt → List TlbEnt) : (p.onTlb n f).quiesce = p.quiesce := rfl
@[simp] theorem Part.onTlb_ckpt (p : Part) (n : Nat) (f : List TlbEnt → List TlbEnt) : (p.onTlb n f).ckpt = p.ckpt := rfl
@[simp] theorem Part.onTlb_restoreOk (p : Part) (n : Nat) (f : List TlbEnt → List TlbEnt) : (p.onTlb n f).restoreOk = p.restoreOk := rfl
@[simp] theorem Part.onTlb_streams (p : Part) (n : Nat) (f : List TlbEnt → List TlbEnt) : (p.onTlb n f).streams = p.streams := rfl
@[simp] theorem Part.onTlb_grants (p : Part) (n : Nat) (f : List TlbEnt → List TlbEnt) : (p.onTlb n f).grants = p.grants := rfl
@[simp] theorem Part.onTlb_owner (p : Part) (n : Nat) (f : List TlbEnt → List TlbEnt) : (p.onTlb n f).owner = p.owner := rfl
@[simp] theorem Part.onTlb_debugOk (p : Part) (n : Nat) (f : List TlbEnt → List TlbEnt) : (p.onTlb n f).debugOk = p.debugOk := rfl
@[simp] theorem Part.onTlb_spdm (p : Part) (n : Nat) (f : List TlbEnt → List TlbEnt) : (p.onTlb n f).spdm = p.spdm := rfl
@[simp] theorem Part.onTlb_ide (p : Part) (n : Nat) (f : List TlbEnt → List TlbEnt) : (p.onTlb n f).ide = p.ide := rfl
@[simp] theorem Part.onTlb_uports (p : Part) (n : Nat) (f : List TlbEnt → List TlbEnt) : (p.onTlb n f).uports = p.uports := rfl
@[simp] theorem Part.onTlb_tdi (p : Part) (n : Nat) (f : List TlbEnt → List TlbEnt) : (p.onTlb n f).tdi = p.tdi := rfl
@[simp] theorem Part.onTlb_trapEntry (p : Part) (n : Nat) (f : List TlbEnt → List TlbEnt) : (p.onTlb n f).trapEntry = p.trapEntry := rfl
@[simp] theorem Part.onTlb_members (p : Part) (n : Nat) (f : List TlbEnt → List TlbEnt) : (p.onTlb n f).members = p.members := rfl
@[simp] theorem Part.onTlb_redo (p : Part) (n : Nat) (f : List TlbEnt → List TlbEnt) : (p.onTlb n f).redo = p.redo := rfl

@[simp] theorem Part.onPtrs_qmask (p : Part) (n : Nat) (f : List PtrEnt → List PtrEnt) : (p.onPtrs n f).qmask = p.qmask := rfl
@[simp] theorem Part.onPtrs_il (p : Part) (n : Nat) (f : List PtrEnt → List PtrEnt) : (p.onPtrs n f).il = p.il := rfl
@[simp] theorem Part.onPtrs_bound (p : Part) (n : Nat) (f : List PtrEnt → List PtrEnt) : (p.onPtrs n f).bound = p.bound := rfl
@[simp] theorem Part.onPtrs_det (p : Part) (n : Nat) (f : List PtrEnt → List PtrEnt) : (p.onPtrs n f).det = p.det := rfl
@[simp] theorem Part.onPtrs_seed (p : Part) (n : Nat) (f : List PtrEnt → List PtrEnt) : (p.onPtrs n f).seed = p.seed := rfl
@[simp] theorem Part.onPtrs_ratio (p : Part) (n : Nat) (f : List PtrEnt → List PtrEnt) : (p.onPtrs n f).ratio = p.ratio := rfl
@[simp] theorem Part.onPtrs_chain (p : Part) (n : Nat) (f : List PtrEnt → List PtrEnt) : (p.onPtrs n f).chain = p.chain := rfl
@[simp] theorem Part.onPtrs_segs (p : Part) (n : Nat) (f : List PtrEnt → List PtrEnt) : (p.onPtrs n f).segs = p.segs := rfl
@[simp] theorem Part.onPtrs_mere (p : Part) (n : Nat) (f : List PtrEnt → List PtrEnt) : (p.onPtrs n f).mere = p.mere := rfl
@[simp] theorem Part.onPtrs_loft (p : Part) (n : Nat) (f : List PtrEnt → List PtrEnt) : (p.onPtrs n f).loft = p.loft := rfl
@[simp] theorem Part.onPtrs_loc (p : Part) (n : Nat) (f : List PtrEnt → List PtrEnt) : (p.onPtrs n f).loc = p.loc := rfl
@[simp] theorem Part.onPtrs_poison (p : Part) (n : Nat) (f : List PtrEnt → List PtrEnt) : (p.onPtrs n f).poison = p.poison := rfl
@[simp] theorem Part.onPtrs_granaryErr (p : Part) (n : Nat) (f : List PtrEnt → List PtrEnt) : (p.onPtrs n f).granaryErr = p.granaryErr := rfl
@[simp] theorem Part.onPtrs_tlbs (p : Part) (n : Nat) (f : List PtrEnt → List PtrEnt) : (p.onPtrs n f).tlbs = p.tlbs := rfl
@[simp] theorem Part.onPtrs_job (p : Part) (n : Nat) (f : List PtrEnt → List PtrEnt) : (p.onPtrs n f).job = p.job := rfl
@[simp] theorem Part.onPtrs_left (p : Part) (n : Nat) (f : List PtrEnt → List PtrEnt) : (p.onPtrs n f).left = p.left := rfl
@[simp] theorem Part.onPtrs_cur (p : Part) (n : Nat) (f : List PtrEnt → List PtrEnt) : (p.onPtrs n f).cur = p.cur := rfl
@[simp] theorem Part.onPtrs_res (p : Part) (n : Nat) (f : List PtrEnt → List PtrEnt) : (p.onPtrs n f).res = p.res := rfl
@[simp] theorem Part.onPtrs_bankValid (p : Part) (n : Nat) (f : List PtrEnt → List PtrEnt) : (p.onPtrs n f).bankValid = p.bankValid := rfl
@[simp] theorem Part.onPtrs_switch (p : Part) (n : Nat) (f : List PtrEnt → List PtrEnt) : (p.onPtrs n f).switch = p.switch := rfl
@[simp] theorem Part.onPtrs_key (p : Part) (n : Nat) (f : List PtrEnt → List PtrEnt) : (p.onPtrs n f).key = p.key := rfl
@[simp] theorem Part.onPtrs_queues (p : Part) (n : Nat) (f : List PtrEnt → List PtrEnt) : (p.onPtrs n f).queues = p.queues := rfl
@[simp] theorem Part.onPtrs_statbase (p : Part) (n : Nat) (f : List PtrEnt → List PtrEnt) : (p.onPtrs n f).statbase = p.statbase := rfl
@[simp] theorem Part.onPtrs_hseen (p : Part) (n : Nat) (f : List PtrEnt → List PtrEnt) : (p.onPtrs n f).hseen = p.hseen := rfl
@[simp] theorem Part.onPtrs_aseq (p : Part) (n : Nat) (f : List PtrEnt → List PtrEnt) : (p.onPtrs n f).aseq = p.aseq := rfl
@[simp] theorem Part.onPtrs_cseq (p : Part) (n : Nat) (f : List PtrEnt → List PtrEnt) : (p.onPtrs n f).cseq = p.cseq := rfl
@[simp] theorem Part.onPtrs_replay (p : Part) (n : Nat) (f : List PtrEnt → List PtrEnt) : (p.onPtrs n f).replay = p.replay := rfl
@[simp] theorem Part.onPtrs_held (p : Part) (n : Nat) (f : List PtrEnt → List PtrEnt) : (p.onPtrs n f).held = p.held := rfl
@[simp] theorem Part.onPtrs_quiesced (p : Part) (n : Nat) (f : List PtrEnt → List PtrEnt) : (p.onPtrs n f).quiesced = p.quiesced := rfl
@[simp] theorem Part.onPtrs_herr (p : Part) (n : Nat) (f : List PtrEnt → List PtrEnt) : (p.onPtrs n f).herr = p.herr := rfl
@[simp] theorem Part.onPtrs_jlost (p : Part) (n : Nat) (f : List PtrEnt → List PtrEnt) : (p.onPtrs n f).jlost = p.jlost := rfl
@[simp] theorem Part.onPtrs_quiesce (p : Part) (n : Nat) (f : List PtrEnt → List PtrEnt) : (p.onPtrs n f).quiesce = p.quiesce := rfl
@[simp] theorem Part.onPtrs_ckpt (p : Part) (n : Nat) (f : List PtrEnt → List PtrEnt) : (p.onPtrs n f).ckpt = p.ckpt := rfl
@[simp] theorem Part.onPtrs_restoreOk (p : Part) (n : Nat) (f : List PtrEnt → List PtrEnt) : (p.onPtrs n f).restoreOk = p.restoreOk := rfl
@[simp] theorem Part.onPtrs_streams (p : Part) (n : Nat) (f : List PtrEnt → List PtrEnt) : (p.onPtrs n f).streams = p.streams := rfl
@[simp] theorem Part.onPtrs_grants (p : Part) (n : Nat) (f : List PtrEnt → List PtrEnt) : (p.onPtrs n f).grants = p.grants := rfl
@[simp] theorem Part.onPtrs_owner (p : Part) (n : Nat) (f : List PtrEnt → List PtrEnt) : (p.onPtrs n f).owner = p.owner := rfl
@[simp] theorem Part.onPtrs_debugOk (p : Part) (n : Nat) (f : List PtrEnt → List PtrEnt) : (p.onPtrs n f).debugOk = p.debugOk := rfl
@[simp] theorem Part.onPtrs_spdm (p : Part) (n : Nat) (f : List PtrEnt → List PtrEnt) : (p.onPtrs n f).spdm = p.spdm := rfl
@[simp] theorem Part.onPtrs_ide (p : Part) (n : Nat) (f : List PtrEnt → List PtrEnt) : (p.onPtrs n f).ide = p.ide := rfl
@[simp] theorem Part.onPtrs_uports (p : Part) (n : Nat) (f : List PtrEnt → List PtrEnt) : (p.onPtrs n f).uports = p.uports := rfl
@[simp] theorem Part.onPtrs_tdi (p : Part) (n : Nat) (f : List PtrEnt → List PtrEnt) : (p.onPtrs n f).tdi = p.tdi := rfl
@[simp] theorem Part.onPtrs_trapEntry (p : Part) (n : Nat) (f : List PtrEnt → List PtrEnt) : (p.onPtrs n f).trapEntry = p.trapEntry := rfl
@[simp] theorem Part.onPtrs_members (p : Part) (n : Nat) (f : List PtrEnt → List PtrEnt) : (p.onPtrs n f).members = p.members := rfl
@[simp] theorem Part.onPtrs_redo (p : Part) (n : Nat) (f : List PtrEnt → List PtrEnt) : (p.onPtrs n f).redo = p.redo := rfl

@[simp] theorem Job.onCore_tiles (j : Job) (n : Nat) (f : Core → Core) : (j.onCore n f).tiles = j.tiles := rfl
theorem Job.onCore_cores (j : Job) (n : Nat) (f : Core → Core) : (j.onCore n f).cores = upd j.cores n f := rfl
@[simp] theorem Job.onCore_hamlets (j : Job) (n : Nat) (f : Core → Core) : (j.onCore n f).hamlets = j.hamlets := rfl
@[simp] theorem Job.onCore_groups (j : Job) (n : Nat) (f : Core → Core) : (j.onCore n f).groups = j.groups := rfl
@[simp] theorem Job.onCore_owned (j : Job) (n : Nat) (f : Core → Core) : (j.onCore n f).owned = j.owned := rfl
@[simp] theorem Job.onCore_marks (j : Job) (n : Nat) (f : Core → Core) : (j.onCore n f).marks = j.marks := rfl
@[simp] theorem Job.onCore_turns (j : Job) (n : Nat) (f : Core → Core) : (j.onCore n f).turns = j.turns := rfl
@[simp] theorem Job.onCore_rcMarks (j : Job) (n : Nat) (f : Core → Core) : (j.onCore n f).rcMarks = j.rcMarks := rfl
@[simp] theorem Job.onCore_msgs (j : Job) (n : Nat) (f : Core → Core) : (j.onCore n f).msgs = j.msgs := rfl
@[simp] theorem Job.onCore_posts (j : Job) (n : Nat) (f : Core → Core) : (j.onCore n f).posts = j.posts := rfl
@[simp] theorem Job.onCore_tb (j : Job) (n : Nat) (f : Core → Core) : (j.onCore n f).tb = j.tb := rfl
@[simp] theorem Job.onCore_phase (j : Job) (n : Nat) (f : Core → Core) : (j.onCore n f).phase = j.phase := rfl
@[simp] theorem Job.onCore_begun (j : Job) (n : Nat) (f : Core → Core) : (j.onCore n f).begun = j.begun := rfl
@[simp] theorem Job.onCore_nodes (j : Job) (n : Nat) (f : Core → Core) : (j.onCore n f).nodes = j.nodes := rfl
@[simp] theorem Job.onCore_holds (j : Job) (n : Nat) (f : Core → Core) : (j.onCore n f).holds = j.holds := rfl
@[simp] theorem Job.onCore_frames (j : Job) (n : Nat) (f : Core → Core) : (j.onCore n f).frames = j.frames := rfl
@[simp] theorem Job.onCore_slots (j : Job) (n : Nat) (f : Core → Core) : (j.onCore n f).slots = j.slots := rfl
@[simp] theorem Job.onCore_patrol (j : Job) (n : Nat) (f : Core → Core) : (j.onCore n f).patrol = j.patrol := rfl
@[simp] theorem Job.onCore_bellLog (j : Job) (n : Nat) (f : Core → Core) : (j.onCore n f).bellLog = j.bellLog := rfl
@[simp] theorem Job.onCore_bellSeq (j : Job) (n : Nat) (f : Core → Core) : (j.onCore n f).bellSeq = j.bellSeq := rfl
@[simp] theorem Job.onCore_sweep (j : Job) (n : Nat) (f : Core → Core) : (j.onCore n f).sweep = j.sweep := rfl
@[simp] theorem Job.onCore_quietFrom (j : Job) (n : Nat) (f : Core → Core) : (j.onCore n f).quietFrom = j.quietFrom := rfl
@[simp] theorem Job.onCore_stop (j : Job) (n : Nat) (f : Core → Core) : (j.onCore n f).stop = j.stop := rfl
@[simp] theorem Job.onCore_collisions (j : Job) (n : Nat) (f : Core → Core) : (j.onCore n f).collisions = j.collisions := rfl
@[simp] theorem Job.onCore_pages (j : Job) (n : Nat) (f : Core → Core) : (j.onCore n f).pages = j.pages := rfl
@[simp] theorem Job.onCore_taken (j : Job) (n : Nat) (f : Core → Core) : (j.onCore n f).taken = j.taken := rfl
@[simp] theorem Job.onCore_advEpoch (j : Job) (n : Nat) (f : Core → Core) : (j.onCore n f).advEpoch = j.advEpoch := rfl
@[simp] theorem Job.onCore_advDrop (j : Job) (n : Nat) (f : Core → Core) : (j.onCore n f).advDrop = j.advDrop := rfl
@[simp] theorem Job.onCore_debug (j : Job) (n : Nat) (f : Core → Core) : (j.onCore n f).debug = j.debug := rfl
@[simp] theorem Job.onCore_trace (j : Job) (n : Nat) (f : Core → Core) : (j.onCore n f).trace = j.trace := rfl

@[simp] theorem Job.onHamlet_tiles (j : Job) (n : Nat) (f : Hamlet → Hamlet) : (j.onHamlet n f).tiles = j.tiles := rfl
@[simp] theorem Job.onHamlet_cores (j : Job) (n : Nat) (f : Hamlet → Hamlet) : (j.onHamlet n f).cores = j.cores := rfl
theorem Job.onHamlet_hamlets (j : Job) (n : Nat) (f : Hamlet → Hamlet) : (j.onHamlet n f).hamlets = upd j.hamlets n f := rfl
@[simp] theorem Job.onHamlet_groups (j : Job) (n : Nat) (f : Hamlet → Hamlet) : (j.onHamlet n f).groups = j.groups := rfl
@[simp] theorem Job.onHamlet_owned (j : Job) (n : Nat) (f : Hamlet → Hamlet) : (j.onHamlet n f).owned = j.owned := rfl
@[simp] theorem Job.onHamlet_marks (j : Job) (n : Nat) (f : Hamlet → Hamlet) : (j.onHamlet n f).marks = j.marks := rfl
@[simp] theorem Job.onHamlet_turns (j : Job) (n : Nat) (f : Hamlet → Hamlet) : (j.onHamlet n f).turns = j.turns := rfl
@[simp] theorem Job.onHamlet_rcMarks (j : Job) (n : Nat) (f : Hamlet → Hamlet) : (j.onHamlet n f).rcMarks = j.rcMarks := rfl
@[simp] theorem Job.onHamlet_msgs (j : Job) (n : Nat) (f : Hamlet → Hamlet) : (j.onHamlet n f).msgs = j.msgs := rfl
@[simp] theorem Job.onHamlet_posts (j : Job) (n : Nat) (f : Hamlet → Hamlet) : (j.onHamlet n f).posts = j.posts := rfl
@[simp] theorem Job.onHamlet_tb (j : Job) (n : Nat) (f : Hamlet → Hamlet) : (j.onHamlet n f).tb = j.tb := rfl
@[simp] theorem Job.onHamlet_phase (j : Job) (n : Nat) (f : Hamlet → Hamlet) : (j.onHamlet n f).phase = j.phase := rfl
@[simp] theorem Job.onHamlet_begun (j : Job) (n : Nat) (f : Hamlet → Hamlet) : (j.onHamlet n f).begun = j.begun := rfl
@[simp] theorem Job.onHamlet_nodes (j : Job) (n : Nat) (f : Hamlet → Hamlet) : (j.onHamlet n f).nodes = j.nodes := rfl
@[simp] theorem Job.onHamlet_holds (j : Job) (n : Nat) (f : Hamlet → Hamlet) : (j.onHamlet n f).holds = j.holds := rfl
@[simp] theorem Job.onHamlet_frames (j : Job) (n : Nat) (f : Hamlet → Hamlet) : (j.onHamlet n f).frames = j.frames := rfl
@[simp] theorem Job.onHamlet_slots (j : Job) (n : Nat) (f : Hamlet → Hamlet) : (j.onHamlet n f).slots = j.slots := rfl
@[simp] theorem Job.onHamlet_patrol (j : Job) (n : Nat) (f : Hamlet → Hamlet) : (j.onHamlet n f).patrol = j.patrol := rfl
@[simp] theorem Job.onHamlet_bellLog (j : Job) (n : Nat) (f : Hamlet → Hamlet) : (j.onHamlet n f).bellLog = j.bellLog := rfl
@[simp] theorem Job.onHamlet_bellSeq (j : Job) (n : Nat) (f : Hamlet → Hamlet) : (j.onHamlet n f).bellSeq = j.bellSeq := rfl
@[simp] theorem Job.onHamlet_sweep (j : Job) (n : Nat) (f : Hamlet → Hamlet) : (j.onHamlet n f).sweep = j.sweep := rfl
@[simp] theorem Job.onHamlet_quietFrom (j : Job) (n : Nat) (f : Hamlet → Hamlet) : (j.onHamlet n f).quietFrom = j.quietFrom := rfl
@[simp] theorem Job.onHamlet_stop (j : Job) (n : Nat) (f : Hamlet → Hamlet) : (j.onHamlet n f).stop = j.stop := rfl
@[simp] theorem Job.onHamlet_collisions (j : Job) (n : Nat) (f : Hamlet → Hamlet) : (j.onHamlet n f).collisions = j.collisions := rfl
@[simp] theorem Job.onHamlet_pages (j : Job) (n : Nat) (f : Hamlet → Hamlet) : (j.onHamlet n f).pages = j.pages := rfl
@[simp] theorem Job.onHamlet_taken (j : Job) (n : Nat) (f : Hamlet → Hamlet) : (j.onHamlet n f).taken = j.taken := rfl
@[simp] theorem Job.onHamlet_advEpoch (j : Job) (n : Nat) (f : Hamlet → Hamlet) : (j.onHamlet n f).advEpoch = j.advEpoch := rfl
@[simp] theorem Job.onHamlet_advDrop (j : Job) (n : Nat) (f : Hamlet → Hamlet) : (j.onHamlet n f).advDrop = j.advDrop := rfl
@[simp] theorem Job.onHamlet_debug (j : Job) (n : Nat) (f : Hamlet → Hamlet) : (j.onHamlet n f).debug = j.debug := rfl
@[simp] theorem Job.onHamlet_trace (j : Job) (n : Nat) (f : Hamlet → Hamlet) : (j.onHamlet n f).trace = j.trace := rfl

@[simp] theorem Job.onGroup_tiles (j : Job) (n : Nat) (f : Group → Group) : (j.onGroup n f).tiles = j.tiles := rfl
@[simp] theorem Job.onGroup_cores (j : Job) (n : Nat) (f : Group → Group) : (j.onGroup n f).cores = j.cores := rfl
@[simp] theorem Job.onGroup_hamlets (j : Job) (n : Nat) (f : Group → Group) : (j.onGroup n f).hamlets = j.hamlets := rfl
theorem Job.onGroup_groups (j : Job) (n : Nat) (f : Group → Group) : (j.onGroup n f).groups = upd j.groups n f := rfl
@[simp] theorem Job.onGroup_owned (j : Job) (n : Nat) (f : Group → Group) : (j.onGroup n f).owned = j.owned := rfl
@[simp] theorem Job.onGroup_marks (j : Job) (n : Nat) (f : Group → Group) : (j.onGroup n f).marks = j.marks := rfl
@[simp] theorem Job.onGroup_turns (j : Job) (n : Nat) (f : Group → Group) : (j.onGroup n f).turns = j.turns := rfl
@[simp] theorem Job.onGroup_rcMarks (j : Job) (n : Nat) (f : Group → Group) : (j.onGroup n f).rcMarks = j.rcMarks := rfl
@[simp] theorem Job.onGroup_msgs (j : Job) (n : Nat) (f : Group → Group) : (j.onGroup n f).msgs = j.msgs := rfl
@[simp] theorem Job.onGroup_posts (j : Job) (n : Nat) (f : Group → Group) : (j.onGroup n f).posts = j.posts := rfl
@[simp] theorem Job.onGroup_tb (j : Job) (n : Nat) (f : Group → Group) : (j.onGroup n f).tb = j.tb := rfl
@[simp] theorem Job.onGroup_phase (j : Job) (n : Nat) (f : Group → Group) : (j.onGroup n f).phase = j.phase := rfl
@[simp] theorem Job.onGroup_begun (j : Job) (n : Nat) (f : Group → Group) : (j.onGroup n f).begun = j.begun := rfl
@[simp] theorem Job.onGroup_nodes (j : Job) (n : Nat) (f : Group → Group) : (j.onGroup n f).nodes = j.nodes := rfl
@[simp] theorem Job.onGroup_holds (j : Job) (n : Nat) (f : Group → Group) : (j.onGroup n f).holds = j.holds := rfl
@[simp] theorem Job.onGroup_frames (j : Job) (n : Nat) (f : Group → Group) : (j.onGroup n f).frames = j.frames := rfl
@[simp] theorem Job.onGroup_slots (j : Job) (n : Nat) (f : Group → Group) : (j.onGroup n f).slots = j.slots := rfl
@[simp] theorem Job.onGroup_patrol (j : Job) (n : Nat) (f : Group → Group) : (j.onGroup n f).patrol = j.patrol := rfl
@[simp] theorem Job.onGroup_bellLog (j : Job) (n : Nat) (f : Group → Group) : (j.onGroup n f).bellLog = j.bellLog := rfl
@[simp] theorem Job.onGroup_bellSeq (j : Job) (n : Nat) (f : Group → Group) : (j.onGroup n f).bellSeq = j.bellSeq := rfl
@[simp] theorem Job.onGroup_sweep (j : Job) (n : Nat) (f : Group → Group) : (j.onGroup n f).sweep = j.sweep := rfl
@[simp] theorem Job.onGroup_quietFrom (j : Job) (n : Nat) (f : Group → Group) : (j.onGroup n f).quietFrom = j.quietFrom := rfl
@[simp] theorem Job.onGroup_stop (j : Job) (n : Nat) (f : Group → Group) : (j.onGroup n f).stop = j.stop := rfl
@[simp] theorem Job.onGroup_collisions (j : Job) (n : Nat) (f : Group → Group) : (j.onGroup n f).collisions = j.collisions := rfl
@[simp] theorem Job.onGroup_pages (j : Job) (n : Nat) (f : Group → Group) : (j.onGroup n f).pages = j.pages := rfl
@[simp] theorem Job.onGroup_taken (j : Job) (n : Nat) (f : Group → Group) : (j.onGroup n f).taken = j.taken := rfl
@[simp] theorem Job.onGroup_advEpoch (j : Job) (n : Nat) (f : Group → Group) : (j.onGroup n f).advEpoch = j.advEpoch := rfl
@[simp] theorem Job.onGroup_advDrop (j : Job) (n : Nat) (f : Group → Group) : (j.onGroup n f).advDrop = j.advDrop := rfl
@[simp] theorem Job.onGroup_debug (j : Job) (n : Nat) (f : Group → Group) : (j.onGroup n f).debug = j.debug := rfl
@[simp] theorem Job.onGroup_trace (j : Job) (n : Nat) (f : Group → Group) : (j.onGroup n f).trace = j.trace := rfl

theorem Job.onTile_tiles (j : Job) (n : Nat) (f : Tile → Tile) : (j.onTile n f).tiles = upd j.tiles n f := rfl
@[simp] theorem Job.onTile_cores (j : Job) (n : Nat) (f : Tile → Tile) : (j.onTile n f).cores = j.cores := rfl
@[simp] theorem Job.onTile_hamlets (j : Job) (n : Nat) (f : Tile → Tile) : (j.onTile n f).hamlets = j.hamlets := rfl
@[simp] theorem Job.onTile_groups (j : Job) (n : Nat) (f : Tile → Tile) : (j.onTile n f).groups = j.groups := rfl
@[simp] theorem Job.onTile_owned (j : Job) (n : Nat) (f : Tile → Tile) : (j.onTile n f).owned = j.owned := rfl
@[simp] theorem Job.onTile_marks (j : Job) (n : Nat) (f : Tile → Tile) : (j.onTile n f).marks = j.marks := rfl
@[simp] theorem Job.onTile_turns (j : Job) (n : Nat) (f : Tile → Tile) : (j.onTile n f).turns = j.turns := rfl
@[simp] theorem Job.onTile_rcMarks (j : Job) (n : Nat) (f : Tile → Tile) : (j.onTile n f).rcMarks = j.rcMarks := rfl
@[simp] theorem Job.onTile_msgs (j : Job) (n : Nat) (f : Tile → Tile) : (j.onTile n f).msgs = j.msgs := rfl
@[simp] theorem Job.onTile_posts (j : Job) (n : Nat) (f : Tile → Tile) : (j.onTile n f).posts = j.posts := rfl
@[simp] theorem Job.onTile_tb (j : Job) (n : Nat) (f : Tile → Tile) : (j.onTile n f).tb = j.tb := rfl
@[simp] theorem Job.onTile_phase (j : Job) (n : Nat) (f : Tile → Tile) : (j.onTile n f).phase = j.phase := rfl
@[simp] theorem Job.onTile_begun (j : Job) (n : Nat) (f : Tile → Tile) : (j.onTile n f).begun = j.begun := rfl
@[simp] theorem Job.onTile_nodes (j : Job) (n : Nat) (f : Tile → Tile) : (j.onTile n f).nodes = j.nodes := rfl
@[simp] theorem Job.onTile_holds (j : Job) (n : Nat) (f : Tile → Tile) : (j.onTile n f).holds = j.holds := rfl
@[simp] theorem Job.onTile_frames (j : Job) (n : Nat) (f : Tile → Tile) : (j.onTile n f).frames = j.frames := rfl
@[simp] theorem Job.onTile_slots (j : Job) (n : Nat) (f : Tile → Tile) : (j.onTile n f).slots = j.slots := rfl
@[simp] theorem Job.onTile_patrol (j : Job) (n : Nat) (f : Tile → Tile) : (j.onTile n f).patrol = j.patrol := rfl
@[simp] theorem Job.onTile_bellLog (j : Job) (n : Nat) (f : Tile → Tile) : (j.onTile n f).bellLog = j.bellLog := rfl
@[simp] theorem Job.onTile_bellSeq (j : Job) (n : Nat) (f : Tile → Tile) : (j.onTile n f).bellSeq = j.bellSeq := rfl
@[simp] theorem Job.onTile_sweep (j : Job) (n : Nat) (f : Tile → Tile) : (j.onTile n f).sweep = j.sweep := rfl
@[simp] theorem Job.onTile_quietFrom (j : Job) (n : Nat) (f : Tile → Tile) : (j.onTile n f).quietFrom = j.quietFrom := rfl
@[simp] theorem Job.onTile_stop (j : Job) (n : Nat) (f : Tile → Tile) : (j.onTile n f).stop = j.stop := rfl
@[simp] theorem Job.onTile_collisions (j : Job) (n : Nat) (f : Tile → Tile) : (j.onTile n f).collisions = j.collisions := rfl
@[simp] theorem Job.onTile_pages (j : Job) (n : Nat) (f : Tile → Tile) : (j.onTile n f).pages = j.pages := rfl
@[simp] theorem Job.onTile_taken (j : Job) (n : Nat) (f : Tile → Tile) : (j.onTile n f).taken = j.taken := rfl
@[simp] theorem Job.onTile_advEpoch (j : Job) (n : Nat) (f : Tile → Tile) : (j.onTile n f).advEpoch = j.advEpoch := rfl
@[simp] theorem Job.onTile_advDrop (j : Job) (n : Nat) (f : Tile → Tile) : (j.onTile n f).advDrop = j.advDrop := rfl
@[simp] theorem Job.onTile_debug (j : Job) (n : Nat) (f : Tile → Tile) : (j.onTile n f).debug = j.debug := rfl
@[simp] theorem Job.onTile_trace (j : Job) (n : Nat) (f : Tile → Tile) : (j.onTile n f).trace = j.trace := rfl

@[simp] theorem Job.onNode_tiles (j : Job) (n : Nat) (f : Node → Node) : (j.onNode n f).tiles = j.tiles := rfl
@[simp] theorem Job.onNode_cores (j : Job) (n : Nat) (f : Node → Node) : (j.onNode n f).cores = j.cores := rfl
@[simp] theorem Job.onNode_hamlets (j : Job) (n : Nat) (f : Node → Node) : (j.onNode n f).hamlets = j.hamlets := rfl
@[simp] theorem Job.onNode_groups (j : Job) (n : Nat) (f : Node → Node) : (j.onNode n f).groups = j.groups := rfl
@[simp] theorem Job.onNode_owned (j : Job) (n : Nat) (f : Node → Node) : (j.onNode n f).owned = j.owned := rfl
@[simp] theorem Job.onNode_marks (j : Job) (n : Nat) (f : Node → Node) : (j.onNode n f).marks = j.marks := rfl
@[simp] theorem Job.onNode_turns (j : Job) (n : Nat) (f : Node → Node) : (j.onNode n f).turns = j.turns := rfl
@[simp] theorem Job.onNode_rcMarks (j : Job) (n : Nat) (f : Node → Node) : (j.onNode n f).rcMarks = j.rcMarks := rfl
@[simp] theorem Job.onNode_msgs (j : Job) (n : Nat) (f : Node → Node) : (j.onNode n f).msgs = j.msgs := rfl
@[simp] theorem Job.onNode_posts (j : Job) (n : Nat) (f : Node → Node) : (j.onNode n f).posts = j.posts := rfl
@[simp] theorem Job.onNode_tb (j : Job) (n : Nat) (f : Node → Node) : (j.onNode n f).tb = j.tb := rfl
@[simp] theorem Job.onNode_phase (j : Job) (n : Nat) (f : Node → Node) : (j.onNode n f).phase = j.phase := rfl
@[simp] theorem Job.onNode_begun (j : Job) (n : Nat) (f : Node → Node) : (j.onNode n f).begun = j.begun := rfl
theorem Job.onNode_nodes (j : Job) (n : Nat) (f : Node → Node) : (j.onNode n f).nodes = upd j.nodes n f := rfl
@[simp] theorem Job.onNode_holds (j : Job) (n : Nat) (f : Node → Node) : (j.onNode n f).holds = j.holds := rfl
@[simp] theorem Job.onNode_frames (j : Job) (n : Nat) (f : Node → Node) : (j.onNode n f).frames = j.frames := rfl
@[simp] theorem Job.onNode_slots (j : Job) (n : Nat) (f : Node → Node) : (j.onNode n f).slots = j.slots := rfl
@[simp] theorem Job.onNode_patrol (j : Job) (n : Nat) (f : Node → Node) : (j.onNode n f).patrol = j.patrol := rfl
@[simp] theorem Job.onNode_bellLog (j : Job) (n : Nat) (f : Node → Node) : (j.onNode n f).bellLog = j.bellLog := rfl
@[simp] theorem Job.onNode_bellSeq (j : Job) (n : Nat) (f : Node → Node) : (j.onNode n f).bellSeq = j.bellSeq := rfl
@[simp] theorem Job.onNode_sweep (j : Job) (n : Nat) (f : Node → Node) : (j.onNode n f).sweep = j.sweep := rfl
@[simp] theorem Job.onNode_quietFrom (j : Job) (n : Nat) (f : Node → Node) : (j.onNode n f).quietFrom = j.quietFrom := rfl
@[simp] theorem Job.onNode_stop (j : Job) (n : Nat) (f : Node → Node) : (j.onNode n f).stop = j.stop := rfl
@[simp] theorem Job.onNode_collisions (j : Job) (n : Nat) (f : Node → Node) : (j.onNode n f).collisions = j.collisions := rfl
@[simp] theorem Job.onNode_pages (j : Job) (n : Nat) (f : Node → Node) : (j.onNode n f).pages = j.pages := rfl
@[simp] theorem Job.onNode_taken (j : Job) (n : Nat) (f : Node → Node) : (j.onNode n f).taken = j.taken := rfl
@[simp] theorem Job.onNode_advEpoch (j : Job) (n : Nat) (f : Node → Node) : (j.onNode n f).advEpoch = j.advEpoch := rfl
@[simp] theorem Job.onNode_advDrop (j : Job) (n : Nat) (f : Node → Node) : (j.onNode n f).advDrop = j.advDrop := rfl
@[simp] theorem Job.onNode_debug (j : Job) (n : Nat) (f : Node → Node) : (j.onNode n f).debug = j.debug := rfl
@[simp] theorem Job.onNode_trace (j : Job) (n : Nat) (f : Node → Node) : (j.onNode n f).trace = j.trace := rfl

theorem Core.onCtx_ctxs (c : Core) (k : Nat) (f : Ctx → Ctx) : (c.onCtx k f).ctxs = upd c.ctxs k f := rfl
@[simp] theorem Core.onCtx_sent (c : Core) (k : Nat) (f : Ctx → Ctx) : (c.onCtx k f).sent = c.sent := rfl
@[simp] theorem Core.onCtx_rcvd (c : Core) (k : Nat) (f : Ctx → Ctx) : (c.onCtx k f).rcvd = c.rcvd := rfl
@[simp] theorem Core.onCtx_mbox (c : Core) (k : Nat) (f : Ctx → Ctx) : (c.onCtx k f).mbox = c.mbox := rfl
@[simp] theorem Core.onCtx_netif (c : Core) (k : Nat) (f : Ctx → Ctx) : (c.onCtx k f).netif = c.netif := rfl
@[simp] theorem Core.onCtx_spill (c : Core) (k : Nat) (f : Ctx → Ctx) : (c.onCtx k f).spill = c.spill := rfl
@[simp] theorem Core.onCtx_sq (c : Core) (k : Nat) (f : Ctx → Ctx) : (c.onCtx k f).sq = c.sq := rfl
@[simp] theorem Core.onCtx_nextTicket (c : Core) (k : Nat) (f : Ctx → Ctx) : (c.onCtx k f).nextTicket = c.nextTicket := rfl
@[simp] theorem Core.onCtx_l1 (c : Core) (k : Nat) (f : Ctx → Ctx) : (c.onCtx k f).l1 = c.l1 := rfl
@[simp] theorem Core.onCtx_icache (c : Core) (k : Nat) (f : Ctx → Ctx) : (c.onCtx k f).icache = c.icache := rfl
@[simp] theorem Core.onCtx_stepped (c : Core) (k : Nat) (f : Ctx → Ctx) : (c.onCtx k f).stepped = c.stepped := rfl
@[simp] theorem Core.onCtx_running (c : Core) (k : Nat) (f : Ctx → Ctx) : (c.onCtx k f).running = c.running := rfl
@[simp] theorem Core.onCtx_last (c : Core) (k : Nat) (f : Ctx → Ctx) : (c.onCtx k f).last = c.last := rfl
@[simp] theorem Core.onCtx_switching (c : Core) (k : Nat) (f : Ctx → Ctx) : (c.onCtx k f).switching = c.switching := rfl
@[simp] theorem Core.onCtx_count (c : Core) (k : Nat) (f : Ctx → Ctx) : (c.onCtx k f).count = c.count := rfl
@[simp] theorem Core.onCtx_preempted (c : Core) (k : Nat) (f : Ctx → Ctx) : (c.onCtx k f).preempted = c.preempted := rfl
@[simp] theorem Core.onCtx_save (c : Core) (k : Nat) (f : Ctx → Ctx) : (c.onCtx k f).save = c.save := rfl
@[simp] theorem Core.onCtx_stopped (c : Core) (k : Nat) (f : Ctx → Ctx) : (c.onCtx k f).stopped = c.stopped := rfl
@[simp] theorem Core.onCtx_counters (c : Core) (k : Nat) (f : Ctx → Ctx) : (c.onCtx k f).counters = c.counters := rfl

/-! ### The component itself -/

theorem State.part_onPart (s : State) (p : Nat) (f : Part → Part) (q : Nat) :
    (s.onPart p f).part q = if p = q then f (s.part p) else s.part q := SMap.get_upd _ _ _ _
@[simp] theorem State.part_onPart_self (s : State) (p : Nat) (f : Part → Part) : (s.onPart p f).part p = f (s.part p) :=
  SMap.get_upd_self _ _ _
theorem State.part_onPart_ne (s : State) (f : Part → Part) {p q : Nat} (h : p ≠ q) : (s.onPart p f).part q = s.part q :=
  SMap.get_upd_ne _ _ h
@[simp] theorem State.pt_onPt (s : State) (f : Part → Part) : (s.onPt f).pt = f s.pt := SMap.get_upd_self _ _ _
@[simp] theorem State.pt_onJob (s : State) (f : Job → Job) : (s.onJob f).pt = s.pt.onJob f := State.pt_onPt _ _
@[simp] theorem State.job_onJob (s : State) (f : Job → Job) : (s.onJob f).job = f s.job := by
  rw [State.job, State.pt_onJob]; rfl
@[simp] theorem State.pt_onCoreAt (s : State) (c : Nat) (f : Core → Core) :
    (s.onCoreAt c f).pt = s.pt.onJob fun j => j.onCore c f := State.pt_onJob _ _
@[simp] theorem State.pt_onCr (s : State) (f : Core → Core) :
    (s.onCr f).pt = s.pt.onJob fun j => j.onCore s.focus.core f := State.pt_onJob _ _
@[simp] theorem State.pt_onCtxAt (s : State) (c k : Nat) (f : Ctx → Ctx) :
    (s.onCtxAt c k f).pt = s.pt.onJob fun j => j.onCore c fun x => x.onCtx k f := State.pt_onJob _ _
@[simp] theorem State.pt_onCx (s : State) (f : Ctx → Ctx) :
    (s.onCx f).pt = s.pt.onJob fun j => j.onCore s.focus.core fun x => x.onCtx s.focus.ctx f := State.pt_onJob _ _
@[simp] theorem State.pt_onHm (s : State) (f : Hamlet → Hamlet) :
    (s.onHm f).pt = s.pt.onJob fun j => j.onHamlet (hamletOf s.focus.core) f := State.pt_onJob _ _
@[simp] theorem State.pt_onTileAt (s : State) (t : Nat) (f : Tile → Tile) :
    (s.onTileAt t f).pt = s.pt.onJob fun j => j.onTile t f := State.pt_onJob _ _
@[simp] theorem State.pt_onTl (s : State) (f : Tile → Tile) :
    (s.onTl f).pt = s.pt.onJob fun j => j.onTile s.focus.tile f := State.pt_onJob _ _

theorem Job.core_onCore (j : Job) (c : Nat) (f : Core → Core) (d : Nat) :
    (j.onCore c f).core d = if c = d then f (j.core c) else j.core d := SMap.get_upd _ _ _ _
@[simp] theorem Job.core_onCore_self (j : Job) (c : Nat) (f : Core → Core) : (j.onCore c f).core c = f (j.core c) :=
  SMap.get_upd_self _ _ _
theorem Core.ctx_onCtx (c : Core) (k : Nat) (f : Ctx → Ctx) (l : Nat) :
    (c.onCtx k f).ctx l = if k = l then f (c.ctx k) else c.ctx l := SMap.get_upd _ _ _ _
@[simp] theorem Core.ctx_onCtx_self (c : Core) (k : Nat) (f : Ctx → Ctx) : (c.onCtx k f).ctx k = f (c.ctx k) :=
  SMap.get_upd_self _ _ _
theorem Job.tile_onTile (j : Job) (t : Nat) (f : Tile → Tile) (u : Nat) :
    (j.onTile t f).tile u = if t = u then f (j.tile t) else j.tile u := SMap.get_upd _ _ _ _
@[simp] theorem Job.tile_onTile_self (j : Job) (t : Nat) (f : Tile → Tile) : (j.onTile t f).tile t = f (j.tile t) :=
  SMap.get_upd_self _ _ _
theorem Job.hamlet_onHamlet (j : Job) (h : Nat) (f : Hamlet → Hamlet) (i : Nat) :
    (j.onHamlet h f).hamlet i = if h = i then f (j.hamlet h) else j.hamlet i := SMap.get_upd _ _ _ _
@[simp] theorem Job.hamlet_onHamlet_self (j : Job) (h : Nat) (f : Hamlet → Hamlet) :
    (j.onHamlet h f).hamlet h = f (j.hamlet h) := SMap.get_upd_self _ _ _
@[simp] theorem Job.group_onGroup_self (j : Job) (g : Nat) (f : Group → Group) : (j.onGroup g f).group g = f (j.group g) :=
  SMap.get_upd_self _ _ _

@[simp] theorem State.coreAt_onCoreAt_self (s : State) (c : Nat) (f : Core → Core) :
    (s.onCoreAt c f).coreAt c = f (s.coreAt c) := by
  rw [State.coreAt, State.onCoreAt, State.job_onJob, Job.core_onCore_self]; rfl
theorem State.coreAt_onCoreAt_ne (s : State) (f : Core → Core) {c d : Nat} (h : c ≠ d) :
    (s.onCoreAt c f).coreAt d = s.coreAt d := by
  rw [State.coreAt, State.onCoreAt, State.job_onJob, Job.core_onCore, if_neg h]; rfl
@[simp] theorem State.cr_onCr (s : State) (f : Core → Core) : (s.onCr f).cr = f s.cr := State.coreAt_onCoreAt_self _ _ _
@[simp] theorem State.ctxAt_onCtxAt_self (s : State) (c k : Nat) (f : Ctx → Ctx) :
    (s.onCtxAt c k f).ctxAt c k = f (s.ctxAt c k) := by
  rw [State.ctxAt, State.onCtxAt, State.coreAt_onCoreAt_self, Core.ctx_onCtx_self]; rfl
@[simp] theorem State.cx_onCx (s : State) (f : Ctx → Ctx) : (s.onCx f).cx = f s.cx := State.ctxAt_onCtxAt_self _ _ _ _
@[simp] theorem State.cx_onCr (s : State) (f : Core → Core) : (s.onCr f).cx = (f s.cr).ctx s.focus.ctx := by
  change ((s.onCr f).cr).ctx _ = _
  rw [State.cr_onCr]; rfl
@[simp] theorem State.cr_onCx (s : State) (f : Ctx → Ctx) : (s.onCx f).cr = s.cr.onCtx s.focus.ctx f :=
  State.coreAt_onCoreAt_self _ _ _
@[simp] theorem State.hm_onHm (s : State) (f : Hamlet → Hamlet) : (s.onHm f).hm = f s.hm := by
  rw [State.hm, State.onHm, State.job_onJob]; exact Job.hamlet_onHamlet_self _ _ _
@[simp] theorem State.tileAt_onTileAt_self (s : State) (t : Nat) (f : Tile → Tile) :
    (s.onTileAt t f).tileAt t = f (s.tileAt t) := by
  rw [State.tileAt, State.onTileAt, State.job_onJob, Job.tile_onTile_self]; rfl
theorem State.tileAt_onTileAt_ne (s : State) (f : Tile → Tile) {t u : Nat} (h : t ≠ u) :
    (s.onTileAt t f).tileAt u = s.tileAt u := by
  rw [State.tileAt, State.onTileAt, State.job_onJob, Job.tile_onTile, if_neg h]; rfl
@[simp] theorem State.tl_onTl (s : State) (f : Tile → Tile) : (s.onTl f).tl = f s.tl := State.tileAt_onTileAt_self _ _ _
/-- What a tile's engines change leaves every core as it was. -/
@[simp] theorem State.coreAt_onTileAt (s : State) (t : Nat) (f : Tile → Tile) (c : Nat) :
    (s.onTileAt t f).coreAt c = s.coreAt c := by
  rw [State.coreAt, State.onTileAt, State.job_onJob]; rfl
/-- What a core changes leaves every tile as it was. -/
@[simp] theorem State.tileAt_onCoreAt (s : State) (c : Nat) (f : Core → Core) (t : Nat) :
    (s.onCoreAt c f).tileAt t = s.tileAt t := by
  rw [State.tileAt, State.onCoreAt, State.job_onJob]; rfl
@[simp] theorem State.cx_onTl (s : State) (f : Tile → Tile) : (s.onTl f).cx = s.cx := by
  change ((s.onTl f).coreAt s.focus.core).ctx _ = _
  rw [State.onTl, State.coreAt_onTileAt]; rfl
@[simp] theorem State.tl_onCx (s : State) (f : Ctx → Ctx) : (s.onCx f).tl = s.tl := State.tileAt_onCoreAt _ _ _ _

/-! ### Two updates in turn -/

theorem State.onPt_onPt (s : State) (f g : Part → Part) : (s.onPt f).onPt g = s.onPt fun p => g (f p) := by
  have twice : ∀ (m : SMap Part) (k : Nat) (a b : Part), SMap.insert (SMap.insert m k a) k b = SMap.insert m k b := by
    intro m
    induction m with
    | nil => intro k a b; simp [SMap.insert]
    | cons x r ih =>
      intro k a b
      obtain ⟨j, w⟩ := x
      by_cases h : j = k
      · simp [SMap.insert, h]
      · by_cases hl : k < j
        · simp [SMap.insert, h, hl]
        · simp [SMap.insert, h, hl, ih]
  have e := SMap.get_insert s.parts s.focus.part (f s.pt) s.focus.part
  rw [if_pos rfl] at e
  change { s with
    parts := SMap.insert (SMap.insert s.parts s.focus.part (f s.pt)) s.focus.part
      (g (SMap.get (SMap.insert s.parts s.focus.part (f s.pt)) s.focus.part)) } = _
  rw [e, twice]
  rfl

/-- What a TLB holds after a change to it, and what a hamlet's cache of table pointers holds after one. -/
theorem Part.tlb_onTlb (p : Part) (n m : Nat) (f : List TlbEnt → List TlbEnt) :
    (p.onTlb n f).tlb m = if n = m then f (p.tlb n) else p.tlb m := SMap.get_set p.tlbs n (f (p.tlb n)) m
theorem Part.ptrsOf_onPtrs (p : Part) (n m : Nat) (f : List PtrEnt → List PtrEnt) :
    (p.onPtrs n f).ptrsOf m = if n = m then f (p.ptrsOf n) else p.ptrsOf m := SMap.get_set p.ptrs n (f (p.ptrsOf n)) m

theorem State.onJob_onJob (s : State) (f g : Job → Job) : (s.onJob f).onJob g = s.onJob fun j => g (f j) :=
  State.onPt_onPt s _ _

end Sys2Proof.Machine
end

