-- ==== Sys2Proof/Laws/Ops.lean ====
section
/-!
SUPPORT. What each shared operation can do, said once: completing and parking an instruction, branching, taking a trap or an
upcall, returning from a handler, a gang stop, a counter's rise, and what leaves every byte of memory as it was.
-/

namespace Sys2Proof.Machine

/-! ### Operations on the context in focus -/

theorem onlyContext_onCx (s : State) (f : Ctx → Ctx) : s.onlyContext (s.onCx f) := by
  unfold State.onlyContext
  rw [State.cx_onCx]
  rfl

theorem onlyContext_refl (s : State) : s.onlyContext (s.onCx fun c => c) := onlyContext_onCx s _

@[simp] theorem State.advance_cx (s : State) : s.advance.cx = s.cx.advance s.pt := State.cx_onCx _ _
theorem State.advance_only (s : State) : s.onlyContext s.advance := onlyContext_onCx s _

@[simp] theorem State.retire_cx (s : State) (d : BitVec 6) (v : Word) : (s.retire d v).cx = (s.cx.wg d v).advance s.pt :=
  State.cx_onCx _ _
theorem State.retire_only (s : State) (d : BitVec 6) (v : Word) : s.onlyContext (s.retire d v) := onlyContext_onCx s _

@[simp] theorem State.complete_cx (s : State) :
    s.complete.cx = (s.cx.advance s.pt).wake := State.cx_onCx _ _
/-- A context that a debugger has not stopped is ready when it wakes; a stopped one stands (14 R393). -/
theorem Ctx.wake_ready {c : Ctx} (h : c.state ≠ .halted) : c.wake = { c with state := .ready, wait := .none } := if_neg h
theorem Ctx.wake_halted {c : Ctx} (h : c.state = .halted) : c.wake = { c with wait := .debug } := if_pos h
theorem State.complete_only (s : State) : s.onlyContext s.complete := onlyContext_onCx s _

@[simp] theorem State.jump_pc (s : State) (pc : BitVec 29) : (s.jump pc).cx.pc = pc := by
  unfold State.jump; rw [State.cx_onCx]
theorem State.jump_only (s : State) (pc : BitVec 29) : s.onlyContext (s.jump pc) := onlyContext_onCx s _

@[simp] theorem State.jumpReg_pc (s : State) (t : Word) : (s.jumpReg t).cx.pc = t.extractLsb' 0 29 := by
  unfold State.jumpReg; rw [State.cx_onCx]
theorem State.jumpReg_only (s : State) (t : Word) : s.onlyContext (s.jumpReg t) := onlyContext_onCx s _

theorem State.eret_only (s : State) : s.onlyContext s.eret := onlyContext_onCx s _
@[simp] theorem State.eret_pc (s : State) : s.eret.cx.pc = s.cx.frec0.extractLsb' 35 29 := by
  unfold State.eret; rw [State.cx_onCx]
@[simp] theorem State.eret_state (s : State) : s.eret.cx.state = .running := by
  unfold State.eret; rw [State.cx_onCx]
@[simp] theorem State.eret_sys (s : State) : s.eret.cx.sys = none := by
  unfold State.eret; rw [State.cx_onCx]

@[simp] theorem Core.release_ctx (k : Nat) (c : Core) (i : Nat) : (c.release k).ctx i = c.ctx i := by
  unfold Core.release; split <;> rfl
@[simp] theorem Core.release_stepped (k : Nat) (c : Core) : (c.release k).stepped = c.stepped := by
  unfold Core.release; split <;> rfl
/-- A core whose running context gives it up runs none. -/
theorem Core.release_running (k : Nat) (c : Core) : (c.release k).running ≠ some k := by
  unfold Core.release
  split
  · simp
  · assumption
@[simp] theorem State.endTurn_cx (s : State) : s.endTurn.cx = s.cx := by unfold State.endTurn; simp; rfl

/-- An upcall ends the context's turn and changes nothing else outside the context (10 R314). -/
theorem State.upcall_only (s : State) (c d : BitVec 8) (ft : BitVec 16) (f1 f2 f3 : Word) (r : BitVec 29) :
    s.endTurn.onlyContext (s.upcall c d ft f1 f2 f3 r) := onlyContext_onCx _ _
/-- An upcall stands at the handler's entry in STATE 4 with INUPC set and the fault record written (05 R180). -/
theorem State.upcall_cx (s : State) (c d : BitVec 8) (ft : BitVec 16) (f1 f2 f3 : Word) (r : BitVec 29) :
    (s.upcall c d ft f1 f2 f3 r).cx.pc = s.cx.upv ∧ (s.upcall c d ft f1 f2 f3 r).cx.state = .upcall
      ∧ (s.upcall c d ft f1 f2 f3 r).cx.inupc = true ∧ (s.upcall c d ft f1 f2 f3 r).cx.frec0 = frecWord r ft d c
      ∧ (s.upcall c d ft f1 f2 f3 r).cx.frec1 = f1 ∧ (s.upcall c d ft f1 f2 f3 r).cx.frec2 = f2
      ∧ (s.upcall c d ft f1 f2 f3 r).cx.frec3 = f3 := by
  unfold State.upcall
  rw [State.cx_onCx, State.endTurn_cx]
  exact ⟨rfl, rfl, rfl, rfl, rfl, rfl, rfl⟩

/-! ### Writing a register -/

/-- What a write of G[r] leaves in G[q]: r = 0 and a register in stream mode take nothing (01 R27, 05 R167). -/
theorem Ctx.rg_wg (c : Ctx) (r : BitVec 6) (v : Word) (q : BitVec 6) :
    (c.wg r v).rg q =
      if q = r ∧ ¬(r = 0#6 ∨ c.active (gStream r) = true) then v else c.rg q := by
  unfold Ctx.wg
  split
  · rename_i h; simp [h]
  · rename_i h
    unfold Ctx.rg
    by_cases hq : q = r
    · subst hq
      have : q ≠ 0#6 := fun e => h (.inl e)
      simp [this]
      intro a; exact absurd (.inr a) h
    · have : r.toNat ≠ q.toNat := fun e => hq (BitVec.eq_of_toNat_eq e.symm)
      simp [hq, SMap.get_set, this]

@[simp] theorem Ctx.wg_pc (c : Ctx) (r : BitVec 6) (v : Word) : (c.wg r v).pc = c.pc := by
  unfold Ctx.wg; split <;> rfl
@[simp] theorem Ctx.wg_d (c : Ctx) (r : BitVec 6) (v : Word) : (c.wg r v).d = c.d := by
  unfold Ctx.wg; split <;> rfl
@[simp] theorem Ctx.wd_g (c : Ctx) (r : BitVec 5) (v : BitVec 512) : (c.wd r v).g = c.g := by
  unfold Ctx.wd; split <;> rfl
@[simp] theorem Ctx.wd_pc (c : Ctx) (r : BitVec 5) (v : BitVec 512) : (c.wd r v).pc = c.pc := by
  unfold Ctx.wd; split <;> rfl
@[simp] theorem Ctx.rg_zero (c : Ctx) : c.rg 0#6 = 0#64 := rfl
@[simp] theorem Ctx.advance_g (p : Part) (c : Ctx) : (c.advance p).g = c.g := rfl
@[simp] theorem Ctx.advance_d (p : Part) (c : Ctx) : (c.advance p).d = c.d := rfl
@[simp] theorem Ctx.advance_pc (p : Part) (c : Ctx) : (c.advance p).pc = succ p c.pc := rfl

/-! ### Gang stops and traps -/

/-- All that a gang stop can do (12 R348, R359): nothing once a fatal one is in force; else the job's stop is recorded, and with
none in force before, the permanent hold is raised too. -/
theorem State.gangStop_cases (s : State) (o : Origin) (c d c2 : BitVec 8) (aux : Word) :
    (∃ g, s.job.stop = some g ∧ g.fatal = true ∧ s.gangStop o c d c2 aux = s)
      ∨ (∃ g, s.job.stop = some g ∧ g.fatal = false ∧ s.gangStop o c d c2 aux = s.onJob fun j =>
          { j with stop := some { origin := o, cause := c, detail := d, cause2 := c2, aux := aux, tb := j.tb } })
      ∨ (s.job.stop = none ∧ s.gangStop o c d c2 aux = (s.raiseHold (Origin.node o) none).onJob fun j =>
          { j with stop := some { origin := o, cause := c, detail := d, cause2 := c2, aux := aux, tb := j.tb } }) := by
  unfold State.gangStop
  cases h : s.job.stop with
  | none => exact .inr (.inr ⟨rfl, rfl⟩)
  | some g =>
    cases hf : g.fatal with
    | true => exact .inl ⟨g, rfl, hf, by simp [hf]⟩
    | false => exact .inr (.inl ⟨g, rfl, hf, by simp [hf]⟩)

/-- All that a trap can do (12 R341, R344, R345, R347): within the system handler a gang stop with both causes; else the context,
its turn on the core ended, enters the system handler, and a cause that the firmware makes fatal stops the gang as well. -/
theorem State.trap_cases (s : State) (c d : BitVec 8) (f1 f2 f3 : Word) (r : BitVec 29) :
    (∃ c0 d0, s.cx.sys = some (c0, d0) ∧ s.trap c d f1 f2 f3 r = s.gangStop (.ctx s.me) c0 d0 c (auxOf c f1))
      ∨ (s.cx.sys = none ∧ ∃ t : State, s.endTurn.onlyContext t ∧ t.cx.pc = s.pt.trapEntry ∧ t.cx.sys = some (c, d)
          ∧ t.cx.frec0 = frecWord r 0#16 d c ∧ t.cx.frec1 = f1 ∧ t.cx.frec2 = f2 ∧ t.cx.frec3 = f3
          ∧ s.trap c d f1 f2 f3 r = if fatalCause c then t.gangStop (.ctx s.me) c d 0#8 (auxOf c f1) else t) := by
  unfold State.trap
  cases h : s.cx.sys with
  | some x => exact .inl ⟨x.1, x.2, rfl, rfl⟩
  | none => exact .inr ⟨rfl, _, onlyContext_onCx _ _, by rw [State.cx_onCx], by rw [State.cx_onCx],
      by rw [State.cx_onCx]; rfl, by rw [State.cx_onCx]; rfl, by rw [State.cx_onCx]; rfl, by rw [State.cx_onCx]; rfl, rfl⟩

/-- A window fault is an upcall to a context that takes them, and a trap otherwise (12 R341). -/
theorem State.windowFault_cases (s : State) (va : Word) :
    (s.cx.upcalls = true ∧ s.windowFault va = s.upcall 0x0B#8 0#8 0#16 va 0#64 0#64 s.cx.pc)
      ∨ (s.cx.upcalls = false ∧ s.windowFault va = s.fault 0x0B#8 0#8 va) := by
  unfold State.windowFault
  cases s.cx.upcalls
  · exact .inr ⟨rfl, rfl⟩
  · exact .inl ⟨rfl, rfl⟩

/-! ### Bytes -/

/-- A change of the current job that leaves its stepped regions alone leaves every byte of memory as it was. -/
theorem bytesKept_onJob (s : State) (f : Job → Job) (ht : ∀ t, ((f s.job).tile t).stepped = (s.job.tile t).stepped)
    (hc : ∀ c, ((f s.job).core c).stepped = (s.job.core c).stepped) : s.bytesKept (s.onJob f) := by
  have key : ∀ q, ((s.onJob f).part q).key = (s.part q).key := by
    intro q
    change ((s.onPart s.focus.part _).part q).key = _
    rw [State.part_onPart]
    split
    · rename_i h; subst h; rfl
    · rfl
  refine ⟨fun h => ?_, fun a => by rw [State.pt_onJob]; rfl, fun _ => rfl⟩
  cases h with
  | hbm k => rfl
  | far a =>
    simp only [State.homeByte, State.sliceByte, State.sectorOf, State.sector, State.memSector, State.onJob_dirty,
      State.onJob_hbm, State.onJob_host, State.onJob_far, State.onJob_focus, key]
  | mere t o =>
    simp only [State.homeByte, State.pt_onJob, State.job_onJob, Part.onJob_mere, ht]
  | loc c o =>
    simp only [State.homeByte, State.coreAt, State.pt_onJob, State.job_onJob, Part.onJob_loc, hc]
  | unpopulated => rfl

theorem bytesKept_refl (s : State) : s.bytesKept s := ⟨fun _ => rfl, fun _ => rfl, fun _ => rfl⟩

/-- What changes one context changes no byte of memory. -/
theorem bytesKept_onCtxAt (s : State) (c k : Nat) (f : Ctx → Ctx) : s.bytesKept (s.onCtxAt c k f) := by
  refine bytesKept_onJob s _ (fun _ => rfl) fun d => ?_
  rw [Job.core_onCore]
  split
  · rename_i h; subst h; rfl
  · rfl

theorem bytesKept_onCx (s : State) (f : Ctx → Ctx) : s.bytesKept (s.onCx f) := bytesKept_onCtxAt s _ _ f

/-- The end of a turn changes no byte of memory. -/
theorem bytesKept_endTurn (s : State) : s.bytesKept s.endTurn := by
  refine bytesKept_onJob s _ (fun _ => rfl) fun d => ?_
  rw [Job.core_onCore]
  split
  · rename_i h; subst h; exact Core.release_stepped _ _
  · rfl

theorem bytesKept_onlyContext {s t : State} (h : s.onlyContext t) : s.bytesKept t := by
  have := bytesKept_onCx s fun _ => t.cx
  rwa [← (show t = s.onCx fun _ => t.cx from h)] at this

/-- A tile's change outside its stepped regions changes no byte of memory. -/
theorem bytesKept_onTl (s : State) (f : Tile → Tile) (h : (f s.tl).stepped = s.tl.stepped) : s.bytesKept (s.onTl f) := by
  refine bytesKept_onJob s _ (fun t => ?_) fun _ => rfl
  rw [Job.tile_onTile]
  split
  · rename_i e; subst e; exact h
  · rfl

/-! ### Performance counters -/

@[simp] theorem Tile.bump_counter (k n : Nat) (t : Tile) :
    SMap.get (t.bump k n).counters k = SMap.get t.counters k + BitVec.ofNat 64 n := SMap.get_set_self _ _ _
@[simp] theorem Core.bump_counter (k n : Nat) (c : Core) :
    SMap.get (c.bump k n).counters k = SMap.get c.counters k + BitVec.ofNat 64 n := SMap.get_set_self _ _ _

end Sys2Proof.Machine
end

