-- ==== Sys2Proof/Laws/PerInstr.lean ====
section
/-!
SUPPORT. The reading of a word's body for every instruction of the table, one lemma a constructor; and that no
format code a word uses is an absent one's.
-/

namespace Sys2Proof.Laws.Encoding

set_option Elab.async false
set_option linter.unusedSimpArgs false

/-- A well-formed instruction that has an opcode is what its group reads from its body (02 R65-R67). A row of the table that
is no instruction word has no opcode. -/
def Statement (i : Instr) : Prop :=
  i.wf = true → ∀ o : BitVec 10, i.opcode = some o → readBody (o.toNat / 128) (o.toNat % 128) i.body = some i

theorem nop : Statement (.nop) := by
  intro hw op he
  have he : some 0#10 = some op := he
  cases he
  have hb : Instr.body (.nop) = fg3 0#6 0#6 0#6 0#6 0#6 := rfl
  have hr (x : Body) : readBody ((0#10).toNat / 128) ((0#10).toNat % 128) x = some Instr.nop := rfl
  rw [hb, hr]

theorem add (d : BitVec 6) (a : BitVec 6) (b : BitVec 6) : Statement (.add d a b) := by
  intro hw op he
  have he : some 1#10 = some op := he
  cases he
  have hb : Instr.body (.add d a b) = fg3 d a b 0#6 0#6 := rfl
  have hr (x : Body) : readBody ((1#10).toNat / 128) ((1#10).toNat % 128) x = some (Instr.add (x.g 40) (x.g 34) (x.g 28)) := rfl
  rw [hb, hr]
  simp (disch := decide) only [fg3_g40, fg3_g34, fg3_g28, BitVec.extractLsb'_append_eq_of_le, BitVec.extractLsb'_append_eq_of_add_le] <;> simp

theorem addi (d : BitVec 6) (a : BitVec 6) (imm : BitVec 34) : Statement (.addi d a imm) := by
  intro hw op he
  have he : some 2#10 = some op := he
  cases he
  have hb : Instr.body (.addi d a imm) = fgi d a imm := rfl
  have hr (x : Body) : readBody ((2#10).toNat / 128) ((2#10).toNat % 128) x = some (Instr.addi (x.g 40) (x.g 34) (x.imm34)) := rfl
  rw [hb, hr]
  simp (disch := decide) only [fgi_g40, fgi_g34, fgi_imm34, BitVec.extractLsb'_append_eq_of_le, BitVec.extractLsb'_append_eq_of_add_le] <;> simp

theorem sub (d : BitVec 6) (a : BitVec 6) (b : BitVec 6) : Statement (.sub d a b) := by
  intro hw op he
  have he : some 3#10 = some op := he
  cases he
  have hb : Instr.body (.sub d a b) = fg3 d a b 0#6 0#6 := rfl
  have hr (x : Body) : readBody ((3#10).toNat / 128) ((3#10).toNat % 128) x = some (Instr.sub (x.g 40) (x.g 34) (x.g 28)) := rfl
  rw [hb, hr]
  simp (disch := decide) only [fg3_g40, fg3_g34, fg3_g28, BitVec.extractLsb'_append_eq_of_le, BitVec.extractLsb'_append_eq_of_add_le] <;> simp

theorem mul (d : BitVec 6) (a : BitVec 6) (b : BitVec 6) : Statement (.mul d a b) := by
  intro hw op he
  have he : some 4#10 = some op := he
  cases he
  have hb : Instr.body (.mul d a b) = fg3 d a b 0#6 0#6 := rfl
  have hr (x : Body) : readBody ((4#10).toNat / 128) ((4#10).toNat % 128) x = some (Instr.mul (x.g 40) (x.g 34) (x.g 28)) := rfl
  rw [hb, hr]
  simp (disch := decide) only [fg3_g40, fg3_g34, fg3_g28, BitVec.extractLsb'_append_eq_of_le, BitVec.extractLsb'_append_eq_of_add_le] <;> simp

theorem mulh (d : BitVec 6) (a : BitVec 6) (b : BitVec 6) : Statement (.mulh d a b) := by
  intro hw op he
  have he : some 5#10 = some op := he
  cases he
  have hb : Instr.body (.mulh d a b) = fg3 d a b 0#6 0#6 := rfl
  have hr (x : Body) : readBody ((5#10).toNat / 128) ((5#10).toNat % 128) x = some (Instr.mulh (x.g 40) (x.g 34) (x.g 28)) := rfl
  rw [hb, hr]
  simp (disch := decide) only [fg3_g40, fg3_g34, fg3_g28, BitVec.extractLsb'_append_eq_of_le, BitVec.extractLsb'_append_eq_of_add_le] <;> simp

theorem mulhu (d : BitVec 6) (a : BitVec 6) (b : BitVec 6) : Statement (.mulhu d a b) := by
  intro hw op he
  have he : some 6#10 = some op := he
  cases he
  have hb : Instr.body (.mulhu d a b) = fg3 d a b 0#6 0#6 := rfl
  have hr (x : Body) : readBody ((6#10).toNat / 128) ((6#10).toNat % 128) x = some (Instr.mulhu (x.g 40) (x.g 34) (x.g 28)) := rfl
  rw [hb, hr]
  simp (disch := decide) only [fg3_g40, fg3_g34, fg3_g28, BitVec.extractLsb'_append_eq_of_le, BitVec.extractLsb'_append_eq_of_add_le] <;> simp

theorem div (d : BitVec 6) (a : BitVec 6) (b : BitVec 6) : Statement (.div d a b) := by
  intro hw op he
  have he : some 7#10 = some op := he
  cases he
  have hb : Instr.body (.div d a b) = fg3 d a b 0#6 0#6 := rfl
  have hr (x : Body) : readBody ((7#10).toNat / 128) ((7#10).toNat % 128) x = some (Instr.div (x.g 40) (x.g 34) (x.g 28)) := rfl
  rw [hb, hr]
  simp (disch := decide) only [fg3_g40, fg3_g34, fg3_g28, BitVec.extractLsb'_append_eq_of_le, BitVec.extractLsb'_append_eq_of_add_le] <;> simp

theorem divu (d : BitVec 6) (a : BitVec 6) (b : BitVec 6) : Statement (.divu d a b) := by
  intro hw op he
  have he : some 8#10 = some op := he
  cases he
  have hb : Instr.body (.divu d a b) = fg3 d a b 0#6 0#6 := rfl
  have hr (x : Body) : readBody ((8#10).toNat / 128) ((8#10).toNat % 128) x = some (Instr.divu (x.g 40) (x.g 34) (x.g 28)) := rfl
  rw [hb, hr]
  simp (disch := decide) only [fg3_g40, fg3_g34, fg3_g28, BitVec.extractLsb'_append_eq_of_le, BitVec.extractLsb'_append_eq_of_add_le] <;> simp

theorem rem (d : BitVec 6) (a : BitVec 6) (b : BitVec 6) : Statement (.rem d a b) := by
  intro hw op he
  have he : some 9#10 = some op := he
  cases he
  have hb : Instr.body (.rem d a b) = fg3 d a b 0#6 0#6 := rfl
  have hr (x : Body) : readBody ((9#10).toNat / 128) ((9#10).toNat % 128) x = some (Instr.rem (x.g 40) (x.g 34) (x.g 28)) := rfl
  rw [hb, hr]
  simp (disch := decide) only [fg3_g40, fg3_g34, fg3_g28, BitVec.extractLsb'_append_eq_of_le, BitVec.extractLsb'_append_eq_of_add_le] <;> simp

theorem remu (d : BitVec 6) (a : BitVec 6) (b : BitVec 6) : Statement (.remu d a b) := by
  intro hw op he
  have he : some 10#10 = some op := he
  cases he
  have hb : Instr.body (.remu d a b) = fg3 d a b 0#6 0#6 := rfl
  have hr (x : Body) : readBody ((10#10).toNat / 128) ((10#10).toNat % 128) x = some (Instr.remu (x.g 40) (x.g 34) (x.g 28)) := rfl
  rw [hb, hr]
  simp (disch := decide) only [fg3_g40, fg3_g34, fg3_g28, BitVec.extractLsb'_append_eq_of_le, BitVec.extractLsb'_append_eq_of_add_le] <;> simp

theorem and (d : BitVec 6) (a : BitVec 6) (b : BitVec 6) : Statement (.and d a b) := by
  intro hw op he
  have he : some 11#10 = some op := he
  cases he
  have hb : Instr.body (.and d a b) = fg3 d a b 0#6 0#6 := rfl
  have hr (x : Body) : readBody ((11#10).toNat / 128) ((11#10).toNat % 128) x = some (Instr.and (x.g 40) (x.g 34) (x.g 28)) := rfl
  rw [hb, hr]
  simp (disch := decide) only [fg3_g40, fg3_g34, fg3_g28, BitVec.extractLsb'_append_eq_of_le, BitVec.extractLsb'_append_eq_of_add_le] <;> simp

theorem andi (d : BitVec 6) (a : BitVec 6) (imm : BitVec 34) : Statement (.andi d a imm) := by
  intro hw op he
  have he : some 12#10 = some op := he
  cases he
  have hb : Instr.body (.andi d a imm) = fgi d a imm := rfl
  have hr (x : Body) : readBody ((12#10).toNat / 128) ((12#10).toNat % 128) x = some (Instr.andi (x.g 40) (x.g 34) (x.imm34)) := rfl
  rw [hb, hr]
  simp (disch := decide) only [fgi_g40, fgi_g34, fgi_imm34, BitVec.extractLsb'_append_eq_of_le, BitVec.extractLsb'_append_eq_of_add_le] <;> simp

theorem or (d : BitVec 6) (a : BitVec 6) (b : BitVec 6) : Statement (.or d a b) := by
  intro hw op he
  have he : some 13#10 = some op := he
  cases he
  have hb : Instr.body (.or d a b) = fg3 d a b 0#6 0#6 := rfl
  have hr (x : Body) : readBody ((13#10).toNat / 128) ((13#10).toNat % 128) x = some (Instr.or (x.g 40) (x.g 34) (x.g 28)) := rfl
  rw [hb, hr]
  simp (disch := decide) only [fg3_g40, fg3_g34, fg3_g28, BitVec.extractLsb'_append_eq_of_le, BitVec.extractLsb'_append_eq_of_add_le] <;> simp

theorem ori (d : BitVec 6) (a : BitVec 6) (imm : BitVec 34) : Statement (.ori d a imm) := by
  intro hw op he
  have he : some 14#10 = some op := he
  cases he
  have hb : Instr.body (.ori d a imm) = fgi d a imm := rfl
  have hr (x : Body) : readBody ((14#10).toNat / 128) ((14#10).toNat % 128) x = some (Instr.ori (x.g 40) (x.g 34) (x.imm34)) := rfl
  rw [hb, hr]
  simp (disch := decide) only [fgi_g40, fgi_g34, fgi_imm34, BitVec.extractLsb'_append_eq_of_le, BitVec.extractLsb'_append_eq_of_add_le] <;> simp

theorem xor (d : BitVec 6) (a : BitVec 6) (b : BitVec 6) : Statement (.xor d a b) := by
  intro hw op he
  have he : some 15#10 = some op := he
  cases he
  have hb : Instr.body (.xor d a b) = fg3 d a b 0#6 0#6 := rfl
  have hr (x : Body) : readBody ((15#10).toNat / 128) ((15#10).toNat % 128) x = some (Instr.xor (x.g 40) (x.g 34) (x.g 28)) := rfl
  rw [hb, hr]
  simp (disch := decide) only [fg3_g40, fg3_g34, fg3_g28, BitVec.extractLsb'_append_eq_of_le, BitVec.extractLsb'_append_eq_of_add_le] <;> simp

theorem xori (d : BitVec 6) (a : BitVec 6) (imm : BitVec 34) : Statement (.xori d a imm) := by
  intro hw op he
  have he : some 16#10 = some op := he
  cases he
  have hb : Instr.body (.xori d a imm) = fgi d a imm := rfl
  have hr (x : Body) : readBody ((16#10).toNat / 128) ((16#10).toNat % 128) x = some (Instr.xori (x.g 40) (x.g 34) (x.imm34)) := rfl
  rw [hb, hr]
  simp (disch := decide) only [fgi_g40, fgi_g34, fgi_imm34, BitVec.extractLsb'_append_eq_of_le, BitVec.extractLsb'_append_eq_of_add_le] <;> simp

theorem andn (d : BitVec 6) (a : BitVec 6) (b : BitVec 6) : Statement (.andn d a b) := by
  intro hw op he
  have he : some 17#10 = some op := he
  cases he
  have hb : Instr.body (.andn d a b) = fg3 d a b 0#6 0#6 := rfl
  have hr (x : Body) : readBody ((17#10).toNat / 128) ((17#10).toNat % 128) x = some (Instr.andn (x.g 40) (x.g 34) (x.g 28)) := rfl
  rw [hb, hr]
  simp (disch := decide) only [fg3_g40, fg3_g34, fg3_g28, BitVec.extractLsb'_append_eq_of_le, BitVec.extractLsb'_append_eq_of_add_le] <;> simp

theorem shl (d : BitVec 6) (a : BitVec 6) (b : BitVec 6) : Statement (.shl d a b) := by
  intro hw op he
  have he : some 18#10 = some op := he
  cases he
  have hb : Instr.body (.shl d a b) = fg3 d a b 0#6 0#6 := rfl
  have hr (x : Body) : readBody ((18#10).toNat / 128) ((18#10).toNat % 128) x = some (Instr.shl (x.g 40) (x.g 34) (x.g 28)) := rfl
  rw [hb, hr]
  simp (disch := decide) only [fg3_g40, fg3_g34, fg3_g28, BitVec.extractLsb'_append_eq_of_le, BitVec.extractLsb'_append_eq_of_add_le] <;> simp

theorem shli (d : BitVec 6) (a : BitVec 6) (n : BitVec 6) : Statement (.shli d a n) := by
  intro hw op he
  have he : some 19#10 = some op := he
  cases he
  have hb : Instr.body (.shli d a n) = fgi d a (n.setWidth 34) := rfl
  have hr (x : Body) : readBody ((19#10).toNat / 128) ((19#10).toNat % 128) x = some (Instr.shli (x.g 40) (x.g 34) (x.g 0)) := rfl
  rw [hb, hr]
  simp (disch := decide) only [fgi_g40, fgi_g34, fgi_g0, BitVec.extractLsb'_append_eq_of_le, BitVec.extractLsb'_append_eq_of_add_le, part_widen] <;> simp

theorem shr (d : BitVec 6) (a : BitVec 6) (b : BitVec 6) : Statement (.shr d a b) := by
  intro hw op he
  have he : some 20#10 = some op := he
  cases he
  have hb : Instr.body (.shr d a b) = fg3 d a b 0#6 0#6 := rfl
  have hr (x : Body) : readBody ((20#10).toNat / 128) ((20#10).toNat % 128) x = some (Instr.shr (x.g 40) (x.g 34) (x.g 28)) := rfl
  rw [hb, hr]
  simp (disch := decide) only [fg3_g40, fg3_g34, fg3_g28, BitVec.extractLsb'_append_eq_of_le, BitVec.extractLsb'_append_eq_of_add_le] <;> simp

theorem shri (d : BitVec 6) (a : BitVec 6) (n : BitVec 6) : Statement (.shri d a n) := by
  intro hw op he
  have he : some 21#10 = some op := he
  cases he
  have hb : Instr.body (.shri d a n) = fgi d a (n.setWidth 34) := rfl
  have hr (x : Body) : readBody ((21#10).toNat / 128) ((21#10).toNat % 128) x = some (Instr.shri (x.g 40) (x.g 34) (x.g 0)) := rfl
  rw [hb, hr]
  simp (disch := decide) only [fgi_g40, fgi_g34, fgi_g0, BitVec.extractLsb'_append_eq_of_le, BitVec.extractLsb'_append_eq_of_add_le, part_widen] <;> simp

theorem sra (d : BitVec 6) (a : BitVec 6) (b : BitVec 6) : Statement (.sra d a b) := by
  intro hw op he
  have he : some 22#10 = some op := he
  cases he
  have hb : Instr.body (.sra d a b) = fg3 d a b 0#6 0#6 := rfl
  have hr (x : Body) : readBody ((22#10).toNat / 128) ((22#10).toNat % 128) x = some (Instr.sra (x.g 40) (x.g 34) (x.g 28)) := rfl
  rw [hb, hr]
  simp (disch := decide) only [fg3_g40, fg3_g34, fg3_g28, BitVec.extractLsb'_append_eq_of_le, BitVec.extractLsb'_append_eq_of_add_le] <;> simp

theorem srai (d : BitVec 6) (a : BitVec 6) (n : BitVec 6) : Statement (.srai d a n) := by
  intro hw op he
  have he : some 23#10 = some op := he
  cases he
  have hb : Instr.body (.srai d a n) = fgi d a (n.setWidth 34) := rfl
  have hr (x : Body) : readBody ((23#10).toNat / 128) ((23#10).toNat % 128) x = some (Instr.srai (x.g 40) (x.g 34) (x.g 0)) := rfl
  rw [hb, hr]
  simp (disch := decide) only [fgi_g40, fgi_g34, fgi_g0, BitVec.extractLsb'_append_eq_of_le, BitVec.extractLsb'_append_eq_of_add_le, part_widen] <;> simp

theorem rol (d : BitVec 6) (a : BitVec 6) (b : BitVec 6) : Statement (.rol d a b) := by
  intro hw op he
  have he : some 24#10 = some op := he
  cases he
  have hb : Instr.body (.rol d a b) = fg3 d a b 0#6 0#6 := rfl
  have hr (x : Body) : readBody ((24#10).toNat / 128) ((24#10).toNat % 128) x = some (Instr.rol (x.g 40) (x.g 34) (x.g 28)) := rfl
  rw [hb, hr]
  simp (disch := decide) only [fg3_g40, fg3_g34, fg3_g28, BitVec.extractLsb'_append_eq_of_le, BitVec.extractLsb'_append_eq_of_add_le] <;> simp

theorem min (d : BitVec 6) (a : BitVec 6) (b : BitVec 6) : Statement (.min d a b) := by
  intro hw op he
  have he : some 25#10 = some op := he
  cases he
  have hb : Instr.body (.min d a b) = fg3 d a b 0#6 0#6 := rfl
  have hr (x : Body) : readBody ((25#10).toNat / 128) ((25#10).toNat % 128) x = some (Instr.min (x.g 40) (x.g 34) (x.g 28)) := rfl
  rw [hb, hr]
  simp (disch := decide) only [fg3_g40, fg3_g34, fg3_g28, BitVec.extractLsb'_append_eq_of_le, BitVec.extractLsb'_append_eq_of_add_le] <;> simp

theorem max (d : BitVec 6) (a : BitVec 6) (b : BitVec 6) : Statement (.max d a b) := by
  intro hw op he
  have he : some 26#10 = some op := he
  cases he
  have hb : Instr.body (.max d a b) = fg3 d a b 0#6 0#6 := rfl
  have hr (x : Body) : readBody ((26#10).toNat / 128) ((26#10).toNat % 128) x = some (Instr.max (x.g 40) (x.g 34) (x.g 28)) := rfl
  rw [hb, hr]
  simp (disch := decide) only [fg3_g40, fg3_g34, fg3_g28, BitVec.extractLsb'_append_eq_of_le, BitVec.extractLsb'_append_eq_of_add_le] <;> simp

theorem minu (d : BitVec 6) (a : BitVec 6) (b : BitVec 6) : Statement (.minu d a b) := by
  intro hw op he
  have he : some 27#10 = some op := he
  cases he
  have hb : Instr.body (.minu d a b) = fg3 d a b 0#6 0#6 := rfl
  have hr (x : Body) : readBody ((27#10).toNat / 128) ((27#10).toNat % 128) x = some (Instr.minu (x.g 40) (x.g 34) (x.g 28)) := rfl
  rw [hb, hr]
  simp (disch := decide) only [fg3_g40, fg3_g34, fg3_g28, BitVec.extractLsb'_append_eq_of_le, BitVec.extractLsb'_append_eq_of_add_le] <;> simp

theorem maxu (d : BitVec 6) (a : BitVec 6) (b : BitVec 6) : Statement (.maxu d a b) := by
  intro hw op he
  have he : some 28#10 = some op := he
  cases he
  have hb : Instr.body (.maxu d a b) = fg3 d a b 0#6 0#6 := rfl
  have hr (x : Body) : readBody ((28#10).toNat / 128) ((28#10).toNat % 128) x = some (Instr.maxu (x.g 40) (x.g 34) (x.g 28)) := rfl
  rw [hb, hr]
  simp (disch := decide) only [fg3_g40, fg3_g34, fg3_g28, BitVec.extractLsb'_append_eq_of_le, BitVec.extractLsb'_append_eq_of_add_le] <;> simp

theorem clz (d : BitVec 6) (a : BitVec 6) : Statement (.clz d a) := by
  intro hw op he
  have he : some 29#10 = some op := he
  cases he
  have hb : Instr.body (.clz d a) = fg3 d a 0#6 0#6 0#6 := rfl
  have hr (x : Body) : readBody ((29#10).toNat / 128) ((29#10).toNat % 128) x = some (Instr.clz (x.g 40) (x.g 34)) := rfl
  rw [hb, hr]
  simp (disch := decide) only [fg3_g40, fg3_g34, BitVec.extractLsb'_append_eq_of_le, BitVec.extractLsb'_append_eq_of_add_le] <;> simp

theorem ctz (d : BitVec 6) (a : BitVec 6) : Statement (.ctz d a) := by
  intro hw op he
  have he : some 30#10 = some op := he
  cases he
  have hb : Instr.body (.ctz d a) = fg3 d a 0#6 0#6 0#6 := rfl
  have hr (x : Body) : readBody ((30#10).toNat / 128) ((30#10).toNat % 128) x = some (Instr.ctz (x.g 40) (x.g 34)) := rfl
  rw [hb, hr]
  simp (disch := decide) only [fg3_g40, fg3_g34, BitVec.extractLsb'_append_eq_of_le, BitVec.extractLsb'_append_eq_of_add_le] <;> simp

theorem popc (d : BitVec 6) (a : BitVec 6) : Statement (.popc d a) := by
  intro hw op he
  have he : some 31#10 = some op := he
  cases he
  have hb : Instr.body (.popc d a) = fg3 d a 0#6 0#6 0#6 := rfl
  have hr (x : Body) : readBody ((31#10).toNat / 128) ((31#10).toNat % 128) x = some (Instr.popc (x.g 40) (x.g 34)) := rfl
  rw [hb, hr]
  simp (disch := decide) only [fg3_g40, fg3_g34, BitVec.extractLsb'_append_eq_of_le, BitVec.extractLsb'_append_eq_of_add_le] <;> simp

theorem extr (d : BitVec 6) (a : BitVec 6) (b : BitVec 6) (w : BitVec 6) : Statement (.extr d a b w) := by
  intro hw op he
  have he : some 32#10 = some op := he
  cases he
  have hb : Instr.body (.extr d a b w) = fg3 d a b 0#6 w := rfl
  have hr (x : Body) : readBody ((32#10).toNat / 128) ((32#10).toNat % 128) x = some (Instr.extr (x.g 40) (x.g 34) (x.g 28) (x.g 16)) := rfl
  rw [hb, hr]
  simp (disch := decide) only [fg3_g40, fg3_g34, fg3_g28, fg3_g16, BitVec.extractLsb'_append_eq_of_le, BitVec.extractLsb'_append_eq_of_add_le] <;> simp

theorem ins (d : BitVec 6) (a : BitVec 6) (b : BitVec 6) (c : BitVec 6) (w : BitVec 6) : Statement (.ins d a b c w) := by
  intro hw op he
  have he : some 33#10 = some op := he
  cases he
  have hb : Instr.body (.ins d a b c w) = fg3 d a b c w := rfl
  have hr (x : Body) : readBody ((33#10).toNat / 128) ((33#10).toNat % 128) x = some (Instr.ins (x.g 40) (x.g 34) (x.g 28) (x.g 22) (x.g 16)) := rfl
  rw [hb, hr]
  simp (disch := decide) only [fg3_g40, fg3_g34, fg3_g28, fg3_g22, fg3_g16, BitVec.extractLsb'_append_eq_of_le, BitVec.extractLsb'_append_eq_of_add_le] <;> simp

theorem sel (d : BitVec 6) (a : BitVec 6) (b : BitVec 6) (c : BitVec 6) : Statement (.sel d a b c) := by
  intro hw op he
  have he : some 34#10 = some op := he
  cases he
  have hb : Instr.body (.sel d a b c) = fg3 d a b c 0#6 := rfl
  have hr (x : Body) : readBody ((34#10).toNat / 128) ((34#10).toNat % 128) x = some (Instr.sel (x.g 40) (x.g 34) (x.g 28) (x.g 22)) := rfl
  rw [hb, hr]
  simp (disch := decide) only [fg3_g40, fg3_g34, fg3_g28, fg3_g22, BitVec.extractLsb'_append_eq_of_le, BitVec.extractLsb'_append_eq_of_add_le] <;> simp

theorem cmp (cc : Cond) (d : BitVec 6) (a : BitVec 6) (b : BitVec 6) : Statement (.cmp cc d a b) := by
  intro hw op he
  have he : some 35#10 = some op := he
  cases he
  have hb : Instr.body (.cmp cc d a b) = fg3 d a b 0#6 (0#2 ++ cc.code) := rfl
  have hr (x : Body) : readBody ((35#10).toNat / 128) ((35#10).toNat % 128) x = (Cond.ofCode (x.f 16 4)).map fun cc => Instr.cmp cc (x.g 40) (x.g 34) (x.g 28) := rfl
  rw [hb, hr]
  simp (disch := decide) only [fg3_f16_4, fg3_g40, fg3_g34, fg3_g28, BitVec.extractLsb'_append_eq_of_le, BitVec.extractLsb'_append_eq_of_add_le, part_2_4_f0, part_2_2_f0, part_2_18_f0, part_2_18_f18, part_2_7_f7] <;> simp

theorem cmpi (cc : Cond) (d : BitVec 6) (a : BitVec 6) (imm : BitVec 30) : Statement (.cmpi cc d a imm) := by
  intro hw op he
  have he : some 36#10 = some op := he
  cases he
  have hb : Instr.body (.cmpi cc d a imm) = fgi d a (cc.code ++ imm) := rfl
  have hr (x : Body) : readBody ((36#10).toNat / 128) ((36#10).toNat % 128) x = (Cond.ofCode (x.f 30 4)).map fun cc => Instr.cmpi cc (x.g 40) (x.g 34) (x.f 0 30) := rfl
  rw [hb, hr]
  simp (disch := decide) only [fgi_f30_4, fgi_g40, fgi_g34, fgi_f0_30, BitVec.extractLsb'_append_eq_of_le, BitVec.extractLsb'_append_eq_of_add_le, part_2_4_f0, part_4_30_f30, part_4_30_f0, part_3_3_f0, part_1_5_f0, part_5_1_f0, part_6_3_f0, part_5_4_f0, part_4_2_f0, part_4_16_f0, part_4_16_f16, part_2_2_f0, part_28_6_f0, part_26_8_f0, part_18_16_f0, part_8_3_f0, part_7_4_f0, part_6_5_f0, part_9_2_f0, part_2_18_f0, part_2_18_f18, part_3_6_f0, part_2_7_f7, part_6_28_f0, part_6_28_f28] <;> simp

theorem li (d : BitVec 6) (imm : BitVec 34) : Statement (.li d imm) := by
  intro hw op he
  have he : some 37#10 = some op := he
  cases he
  have hb : Instr.body (.li d imm) = fgi d 0#6 imm := rfl
  have hr (x : Body) : readBody ((37#10).toNat / 128) ((37#10).toNat % 128) x = some (Instr.li (x.g 40) x.imm34) := rfl
  rw [hb, hr]
  simp (disch := decide) only [fgi_g40, fgi_imm34, BitVec.extractLsb'_append_eq_of_le, BitVec.extractLsb'_append_eq_of_add_le] <;> simp

theorem lih (d : BitVec 6) (a : BitVec 6) (imm : BitVec 30) : Statement (.lih d a imm) := by
  intro hw op he
  have he : some 38#10 = some op := he
  cases he
  have hb : Instr.body (.lih d a imm) = fgi d a (0#4 ++ imm) := rfl
  have hr (x : Body) : readBody ((38#10).toNat / 128) ((38#10).toNat % 128) x = some (Instr.lih (x.g 40) (x.g 34) (x.f 0 30)) := rfl
  rw [hb, hr]
  simp (disch := decide) only [fgi_g40, fgi_g34, fgi_f0_30, BitVec.extractLsb'_append_eq_of_le, BitVec.extractLsb'_append_eq_of_add_le, part_4_30_f30, part_4_30_f0, part_4_2_f0, part_4_16_f0, part_4_16_f16] <;> simp

theorem adda (d : BitVec 6) (a : BitVec 6) (b : BitVec 6) : Statement (.adda d a b) := by
  intro hw op he
  have he : some 39#10 = some op := he
  cases he
  have hb : Instr.body (.adda d a b) = fg3 d a b 0#6 0#6 := rfl
  have hr (x : Body) : readBody ((39#10).toNat / 128) ((39#10).toNat % 128) x = some (Instr.adda (x.g 40) (x.g 34) (x.g 28)) := rfl
  rw [hb, hr]
  simp (disch := decide) only [fg3_g40, fg3_g34, fg3_g28, BitVec.extractLsb'_append_eq_of_le, BitVec.extractLsb'_append_eq_of_add_le] <;> simp

theorem addai (d : BitVec 6) (a : BitVec 6) (imm : BitVec 34) : Statement (.addai d a imm) := by
  intro hw op he
  have he : some 40#10 = some op := he
  cases he
  have hb : Instr.body (.addai d a imm) = fgi d a imm := rfl
  have hr (x : Body) : readBody ((40#10).toNat / 128) ((40#10).toNat % 128) x = some (Instr.addai (x.g 40) (x.g 34) (x.imm34)) := rfl
  rw [hb, hr]
  simp (disch := decide) only [fgi_g40, fgi_g34, fgi_imm34, BitVec.extractLsb'_append_eq_of_le, BitVec.extractLsb'_append_eq_of_add_le] <;> simp

theorem tagset (d : BitVec 6) (a : BitVec 6) (b : BitVec 6) : Statement (.tagset d a b) := by
  intro hw op he
  have he : some 41#10 = some op := he
  cases he
  have hb : Instr.body (.tagset d a b) = fg3 d a b 0#6 0#6 := rfl
  have hr (x : Body) : readBody ((41#10).toNat / 128) ((41#10).toNat % 128) x = some (Instr.tagset (x.g 40) (x.g 34) (x.g 28)) := rfl
  rw [hb, hr]
  simp (disch := decide) only [fg3_g40, fg3_g34, fg3_g28, BitVec.extractLsb'_append_eq_of_le, BitVec.extractLsb'_append_eq_of_add_le] <;> simp

theorem tagget (d : BitVec 6) (a : BitVec 6) : Statement (.tagget d a) := by
  intro hw op he
  have he : some 42#10 = some op := he
  cases he
  have hb : Instr.body (.tagget d a) = fg3 d a 0#6 0#6 0#6 := rfl
  have hr (x : Body) : readBody ((42#10).toNat / 128) ((42#10).toNat % 128) x = some (Instr.tagget (x.g 40) (x.g 34)) := rfl
  rw [hb, hr]
  simp (disch := decide) only [fg3_g40, fg3_g34, BitVec.extractLsb'_append_eq_of_le, BitVec.extractLsb'_append_eq_of_add_le] <;> simp

theorem pdiff (d : BitVec 6) (a : BitVec 6) (b : BitVec 6) : Statement (.pdiff d a b) := by
  intro hw op he
  have he : some 43#10 = some op := he
  cases he
  have hb : Instr.body (.pdiff d a b) = fg3 d a b 0#6 0#6 := rfl
  have hr (x : Body) : readBody ((43#10).toNat / 128) ((43#10).toNat % 128) x = some (Instr.pdiff (x.g 40) (x.g 34) (x.g 28)) := rfl
  rw [hb, hr]
  simp (disch := decide) only [fg3_g40, fg3_g34, fg3_g28, BitVec.extractLsb'_append_eq_of_le, BitVec.extractLsb'_append_eq_of_add_le] <;> simp

theorem fadd (rm : Rm) (d : BitVec 6) (a : BitVec 6) (b : BitVec 6) : Statement (.fadd rm d a b) := by
  intro hw op he
  have he : some 128#10 = some op := he
  cases he
  have hb : Instr.body (.fadd rm d a b) = fg3 d a b 0#6 (0#3 ++ rm.code) := rfl
  have hr (x : Body) : readBody ((128#10).toNat / 128) ((128#10).toNat % 128) x = (Rm.ofCode (x.f 16 3)).map fun rm => Instr.fadd rm (x.g 40) (x.g 34) (x.g 28) := rfl
  rw [hb, hr]
  simp (disch := decide) only [fg3_f16_3, fg3_g40, fg3_g34, fg3_g28, BitVec.extractLsb'_append_eq_of_le, BitVec.extractLsb'_append_eq_of_add_le, part_3_3_f0, part_3_6_f0] <;> simp

theorem fsub (rm : Rm) (d : BitVec 6) (a : BitVec 6) (b : BitVec 6) : Statement (.fsub rm d a b) := by
  intro hw op he
  have he : some 129#10 = some op := he
  cases he
  have hb : Instr.body (.fsub rm d a b) = fg3 d a b 0#6 (0#3 ++ rm.code) := rfl
  have hr (x : Body) : readBody ((129#10).toNat / 128) ((129#10).toNat % 128) x = (Rm.ofCode (x.f 16 3)).map fun rm => Instr.fsub rm (x.g 40) (x.g 34) (x.g 28) := rfl
  rw [hb, hr]
  simp (disch := decide) only [fg3_f16_3, fg3_g40, fg3_g34, fg3_g28, BitVec.extractLsb'_append_eq_of_le, BitVec.extractLsb'_append_eq_of_add_le, part_3_3_f0, part_3_6_f0] <;> simp

theorem fmul (rm : Rm) (d : BitVec 6) (a : BitVec 6) (b : BitVec 6) : Statement (.fmul rm d a b) := by
  intro hw op he
  have he : some 130#10 = some op := he
  cases he
  have hb : Instr.body (.fmul rm d a b) = fg3 d a b 0#6 (0#3 ++ rm.code) := rfl
  have hr (x : Body) : readBody ((130#10).toNat / 128) ((130#10).toNat % 128) x = (Rm.ofCode (x.f 16 3)).map fun rm => Instr.fmul rm (x.g 40) (x.g 34) (x.g 28) := rfl
  rw [hb, hr]
  simp (disch := decide) only [fg3_f16_3, fg3_g40, fg3_g34, fg3_g28, BitVec.extractLsb'_append_eq_of_le, BitVec.extractLsb'_append_eq_of_add_le, part_3_3_f0, part_3_6_f0] <;> simp

theorem fma (rm : Rm) (d : BitVec 6) (a : BitVec 6) (b : BitVec 6) (c : BitVec 6) : Statement (.fma rm d a b c) := by
  intro hw op he
  have he : some 131#10 = some op := he
  cases he
  have hb : Instr.body (.fma rm d a b c) = fg3 d a b c (0#3 ++ rm.code) := rfl
  have hr (x : Body) : readBody ((131#10).toNat / 128) ((131#10).toNat % 128) x = (Rm.ofCode (x.f 16 3)).map fun rm => Instr.fma rm (x.g 40) (x.g 34) (x.g 28) (x.g 22) := rfl
  rw [hb, hr]
  simp (disch := decide) only [fg3_f16_3, fg3_g40, fg3_g34, fg3_g28, fg3_g22, BitVec.extractLsb'_append_eq_of_le, BitVec.extractLsb'_append_eq_of_add_le, part_3_3_f0, part_3_6_f0] <;> simp

theorem fmin (d : BitVec 6) (a : BitVec 6) (b : BitVec 6) : Statement (.fmin d a b) := by
  intro hw op he
  have he : some 132#10 = some op := he
  cases he
  have hb : Instr.body (.fmin d a b) = fg3 d a b 0#6 0#6 := rfl
  have hr (x : Body) : readBody ((132#10).toNat / 128) ((132#10).toNat % 128) x = some (Instr.fmin (x.g 40) (x.g 34) (x.g 28)) := rfl
  rw [hb, hr]
  simp (disch := decide) only [fg3_g40, fg3_g34, fg3_g28, BitVec.extractLsb'_append_eq_of_le, BitVec.extractLsb'_append_eq_of_add_le] <;> simp

theorem fmax (d : BitVec 6) (a : BitVec 6) (b : BitVec 6) : Statement (.fmax d a b) := by
  intro hw op he
  have he : some 133#10 = some op := he
  cases he
  have hb : Instr.body (.fmax d a b) = fg3 d a b 0#6 0#6 := rfl
  have hr (x : Body) : readBody ((133#10).toNat / 128) ((133#10).toNat % 128) x = some (Instr.fmax (x.g 40) (x.g 34) (x.g 28)) := rfl
  rw [hb, hr]
  simp (disch := decide) only [fg3_g40, fg3_g34, fg3_g28, BitVec.extractLsb'_append_eq_of_le, BitVec.extractLsb'_append_eq_of_add_le] <;> simp

theorem fcmp (fc : FRel) (d : BitVec 6) (a : BitVec 6) (b : BitVec 6) : Statement (.fcmp fc d a b) := by
  intro hw op he
  have he : some 134#10 = some op := he
  cases he
  have hb : Instr.body (.fcmp fc d a b) = fg3 d a b 0#6 (0#3 ++ fc.code) := rfl
  have hr (x : Body) : readBody ((134#10).toNat / 128) ((134#10).toNat % 128) x = some (Instr.fcmp (FRel.ofCode (x.f 16 3)) (x.g 40) (x.g 34) (x.g 28)) := rfl
  rw [hb, hr]
  simp (disch := decide) only [fg3_f16_3, fg3_g40, fg3_g34, fg3_g28, BitVec.extractLsb'_append_eq_of_le, BitVec.extractLsb'_append_eq_of_add_le, part_3_3_f0, part_3_6_f0] <;> simp

theorem fcvt (src : Fmt) (dst : Fmt) (rm : Rm) (d : BitVec 6) (a : BitVec 6) : Statement (.fcvt src dst rm d a) := by
  intro hw op he
  have he : some 135#10 = some op := he
  cases he
  have hb : Instr.body (.fcvt src dst rm d a) = fg3 d a (0#1 ++ src.code) (0#1 ++ dst.code) (0#3 ++ rm.code) := rfl
  have hr (x : Body) : readBody ((135#10).toNat / 128) ((135#10).toNat % 128) x = (Fmt.ofCode (x.f 28 5)).bind fun src => (Fmt.ofCode (x.f 22 5)).bind fun dst => (Rm.ofCode (x.f 16 3)).map fun rm => Instr.fcvt src dst rm (x.g 40) (x.g 34) := rfl
  rw [hb, hr]
  simp (disch := decide) only [fg3_f28_5, fg3_f22_5, fg3_f16_3, fg3_g40, fg3_g34, BitVec.extractLsb'_append_eq_of_le, BitVec.extractLsb'_append_eq_of_add_le, part_1_5_f0, part_1_5_f0, part_3_3_f0, part_3_6_f0] <;> simp

theorem fclass (f : Fmt) (d : BitVec 6) (a : BitVec 6) : Statement (.fclass f d a) := by
  intro hw op he
  have he : some 136#10 = some op := he
  cases he
  have hb : Instr.body (.fclass f d a) = fg3 d a 0#6 0#6 (0#1 ++ f.code) := rfl
  have hr (x : Body) : readBody ((136#10).toNat / 128) ((136#10).toNat % 128) x = (Fmt.ofCode (x.f 16 5)).map fun f => Instr.fclass f (x.g 40) (x.g 34) := rfl
  rw [hb, hr]
  simp (disch := decide) only [fg3_f16_5, fg3_g40, fg3_g34, BitVec.extractLsb'_append_eq_of_le, BitVec.extractLsb'_append_eq_of_add_le, part_1_5_f0] <;> simp

theorem dadd (m : LaneArith) (d : BitVec 5) (a : BitVec 5) (b : BitVec 5) (k : BitVec 6) : Statement (.dadd m d a b k) := by
  intro hw op he
  have he : some 137#10 = some op := he
  cases he
  have hb : Instr.body (.dadd m d a b k) = fdv d a b 0#5 k m.ty m.sub 0#9 := rfl
  have hr (x : Body) : readBody ((137#10).toNat / 128) ((137#10).toNat % 128) x = (LaneArith.ofCode (x.f 15 5) (x.g 9)).map fun m => Instr.dadd m (x.f 41 5) (x.f 36 5) (x.f 31 5) (x.g 20) := rfl
  rw [hb, hr]
  simp (disch := decide) only [fdv_f15_5, fdv_g9, fdv_f41_5, fdv_f36_5, fdv_f31_5, fdv_g20, BitVec.extractLsb'_append_eq_of_le, BitVec.extractLsb'_append_eq_of_add_le] <;> simp

theorem dsub (m : LaneArith) (d : BitVec 5) (a : BitVec 5) (b : BitVec 5) (k : BitVec 6) : Statement (.dsub m d a b k) := by
  intro hw op he
  have he : some 138#10 = some op := he
  cases he
  have hb : Instr.body (.dsub m d a b k) = fdv d a b 0#5 k m.ty m.sub 0#9 := rfl
  have hr (x : Body) : readBody ((138#10).toNat / 128) ((138#10).toNat % 128) x = (LaneArith.ofCode (x.f 15 5) (x.g 9)).map fun m => Instr.dsub m (x.f 41 5) (x.f 36 5) (x.f 31 5) (x.g 20) := rfl
  rw [hb, hr]
  simp (disch := decide) only [fdv_f15_5, fdv_g9, fdv_f41_5, fdv_f36_5, fdv_f31_5, fdv_g20, BitVec.extractLsb'_append_eq_of_le, BitVec.extractLsb'_append_eq_of_add_le] <;> simp

theorem dmul (m : LaneArith) (d : BitVec 5) (a : BitVec 5) (b : BitVec 5) (k : BitVec 6) : Statement (.dmul m d a b k) := by
  intro hw op he
  have he : some 139#10 = some op := he
  cases he
  have hb : Instr.body (.dmul m d a b k) = fdv d a b 0#5 k m.ty m.sub 0#9 := rfl
  have hr (x : Body) : readBody ((139#10).toNat / 128) ((139#10).toNat % 128) x = (LaneArith.ofCode (x.f 15 5) (x.g 9)).map fun m => Instr.dmul m (x.f 41 5) (x.f 36 5) (x.f 31 5) (x.g 20) := rfl
  rw [hb, hr]
  simp (disch := decide) only [fdv_f15_5, fdv_g9, fdv_f41_5, fdv_f36_5, fdv_f31_5, fdv_g20, BitVec.extractLsb'_append_eq_of_le, BitVec.extractLsb'_append_eq_of_add_le] <;> simp

theorem dfma (m : LaneArith) (d : BitVec 5) (a : BitVec 5) (b : BitVec 5) (c : BitVec 5) (k : BitVec 6) : Statement (.dfma m d a b c k) := by
  intro hw op he
  have he : some 140#10 = some op := he
  cases he
  have hb : Instr.body (.dfma m d a b c k) = fdv d a b c k m.ty m.sub 0#9 := rfl
  have hr (x : Body) : readBody ((140#10).toNat / 128) ((140#10).toNat % 128) x = (LaneArith.ofCode (x.f 15 5) (x.g 9)).map fun m => Instr.dfma m (x.f 41 5) (x.f 36 5) (x.f 31 5) (x.f 26 5) (x.g 20) := rfl
  rw [hb, hr]
  simp (disch := decide) only [fdv_f15_5, fdv_g9, fdv_f41_5, fdv_f36_5, fdv_f31_5, fdv_f26_5, fdv_g20, BitVec.extractLsb'_append_eq_of_le, BitVec.extractLsb'_append_eq_of_add_le] <;> simp

theorem dmin (m : LaneMin) (d : BitVec 5) (a : BitVec 5) (b : BitVec 5) (k : BitVec 6) : Statement (.dmin m d a b k) := by
  intro hw op he
  have he : some 141#10 = some op := he
  cases he
  have hb : Instr.body (.dmin m d a b k) = fdv d a b 0#5 k m.ty m.sub 0#9 := rfl
  have hr (x : Body) : readBody ((141#10).toNat / 128) ((141#10).toNat % 128) x = (LaneMin.ofCode (x.f 15 5) (x.g 9)).map fun m => Instr.dmin m (x.f 41 5) (x.f 36 5) (x.f 31 5) (x.g 20) := rfl
  rw [hb, hr]
  simp (disch := decide) only [fdv_f15_5, fdv_g9, fdv_f41_5, fdv_f36_5, fdv_f31_5, fdv_g20, BitVec.extractLsb'_append_eq_of_le, BitVec.extractLsb'_append_eq_of_add_le] <;> simp

theorem dmax (m : LaneMin) (d : BitVec 5) (a : BitVec 5) (b : BitVec 5) (k : BitVec 6) : Statement (.dmax m d a b k) := by
  intro hw op he
  have he : some 142#10 = some op := he
  cases he
  have hb : Instr.body (.dmax m d a b k) = fdv d a b 0#5 k m.ty m.sub 0#9 := rfl
  have hr (x : Body) : readBody ((142#10).toNat / 128) ((142#10).toNat % 128) x = (LaneMin.ofCode (x.f 15 5) (x.g 9)).map fun m => Instr.dmax m (x.f 41 5) (x.f 36 5) (x.f 31 5) (x.g 20) := rfl
  rw [hb, hr]
  simp (disch := decide) only [fdv_f15_5, fdv_g9, fdv_f41_5, fdv_f36_5, fdv_f31_5, fdv_g20, BitVec.extractLsb'_append_eq_of_le, BitVec.extractLsb'_append_eq_of_add_le] <;> simp

theorem dand (d : BitVec 5) (a : BitVec 5) (b : BitVec 5) (k : BitVec 6) : Statement (.dand d a b k) := by
  intro hw op he
  have he : some 143#10 = some op := he
  cases he
  have hb : Instr.body (.dand d a b k) = fdv d a b 0#5 k 4#5 0#6 0#9 := rfl
  have hr (x : Body) : readBody ((143#10).toNat / 128) ((143#10).toNat % 128) x = some (Instr.dand (x.f 41 5) (x.f 36 5) (x.f 31 5) (x.g 20)) := rfl
  rw [hb, hr]
  simp (disch := decide) only [fdv_f41_5, fdv_f36_5, fdv_f31_5, fdv_g20, BitVec.extractLsb'_append_eq_of_le, BitVec.extractLsb'_append_eq_of_add_le] <;> simp

theorem dor (d : BitVec 5) (a : BitVec 5) (b : BitVec 5) (k : BitVec 6) : Statement (.dor d a b k) := by
  intro hw op he
  have he : some 144#10 = some op := he
  cases he
  have hb : Instr.body (.dor d a b k) = fdv d a b 0#5 k 4#5 0#6 0#9 := rfl
  have hr (x : Body) : readBody ((144#10).toNat / 128) ((144#10).toNat % 128) x = some (Instr.dor (x.f 41 5) (x.f 36 5) (x.f 31 5) (x.g 20)) := rfl
  rw [hb, hr]
  simp (disch := decide) only [fdv_f41_5, fdv_f36_5, fdv_f31_5, fdv_g20, BitVec.extractLsb'_append_eq_of_le, BitVec.extractLsb'_append_eq_of_add_le] <;> simp

theorem dxor (d : BitVec 5) (a : BitVec 5) (b : BitVec 5) (k : BitVec 6) : Statement (.dxor d a b k) := by
  intro hw op he
  have he : some 145#10 = some op := he
  cases he
  have hb : Instr.body (.dxor d a b k) = fdv d a b 0#5 k 4#5 0#6 0#9 := rfl
  have hr (x : Body) : readBody ((145#10).toNat / 128) ((145#10).toNat % 128) x = some (Instr.dxor (x.f 41 5) (x.f 36 5) (x.f 31 5) (x.g 20)) := rfl
  rw [hb, hr]
  simp (disch := decide) only [fdv_f41_5, fdv_f36_5, fdv_f31_5, fdv_g20, BitVec.extractLsb'_append_eq_of_le, BitVec.extractLsb'_append_eq_of_add_le] <;> simp

theorem dshl (d : BitVec 5) (a : BitVec 5) (s : DShift) (k : BitVec 6) : Statement (.dshl d a s k) := by
  intro hw op he
  have he : some 146#10 = some op := he
  cases he
  have hb : Instr.body (.dshl d a s k) = fdv d a s.b 0#5 k 4#5 (0#5 ++ s.isImm) s.imm9 := rfl
  have hr (x : Body) : readBody ((146#10).toNat / 128) ((146#10).toNat % 128) x = some (Instr.dshl (x.f 41 5) (x.f 36 5) (DShift.ofCode (x.f 9 1) (x.f 31 5) (x.f 0 5)) (x.g 20)) := rfl
  rw [hb, hr]
  simp (disch := decide) only [fdv_f41_5, fdv_f36_5, fdv_f9_1, fdv_f31_5, fdv_f0_5, fdv_g20, BitVec.extractLsb'_append_eq_of_le, BitVec.extractLsb'_append_eq_of_add_le, part_5_1_f0, part_5_4_f0, DShift.ofCode_fields] <;> simp

theorem dshr (ar : Bool) (d : BitVec 5) (a : BitVec 5) (s : DShift) (k : BitVec 6) : Statement (.dshr ar d a s k) := by
  intro hw op he
  have he : some 147#10 = some op := he
  cases he
  have hb : Instr.body (.dshr ar d a s k) = fdv d a s.b 0#5 k 4#5 (0#4 ++ BitVec.ofBool ar ++ s.isImm) s.imm9 := rfl
  have hr (x : Body) : readBody ((147#10).toNat / 128) ((147#10).toNat % 128) x = some (Instr.dshr (x.bit 10) (x.f 41 5) (x.f 36 5) (DShift.ofCode (x.f 9 1) (x.f 31 5) (x.f 0 5)) (x.g 20)) := rfl
  rw [hb, hr]
  simp (disch := decide) only [fdv_bit10, fdv_f41_5, fdv_f36_5, fdv_f9_1, fdv_f31_5, fdv_f0_5, fdv_g20, BitVec.extractLsb'_append_eq_of_le, BitVec.extractLsb'_append_eq_of_add_le, part_4_b_1_f0, part_4_b_1_bit1, part_4_b_6_f0, part_4_b_6_bit6, DShift.ofCode_fields] <;> simp

theorem dcmp (m : LaneCmp) (d : BitVec 5) (a : BitVec 5) (b : BitVec 5) (k : BitVec 6) : Statement (.dcmp m d a b k) := by
  intro hw op he
  have he : some 148#10 = some op := he
  cases he
  have hb : Instr.body (.dcmp m d a b k) = fdv d a b 0#5 k m.ty m.sub 0#9 := rfl
  have hr (x : Body) : readBody ((148#10).toNat / 128) ((148#10).toNat % 128) x = (LaneCmp.ofCode (x.f 15 5) (x.f 9 3)).map fun m => Instr.dcmp m (x.f 41 5) (x.f 36 5) (x.f 31 5) (x.g 20) := rfl
  rw [hb, hr]
  simp (disch := decide) only [fdv_f15_5, fdv_f9_3, fdv_f41_5, fdv_f36_5, fdv_f31_5, fdv_g20, BitVec.extractLsb'_append_eq_of_le, BitVec.extractLsb'_append_eq_of_add_le] <;> simp

theorem dsel (d : BitVec 5) (a : BitVec 5) (b : BitVec 5) (c : BitVec 5) (k : BitVec 6) : Statement (.dsel d a b c k) := by
  intro hw op he
  have he : some 149#10 = some op := he
  cases he
  have hb : Instr.body (.dsel d a b c k) = fdv d a b c k 4#5 0#6 0#9 := rfl
  have hr (x : Body) : readBody ((149#10).toNat / 128) ((149#10).toNat % 128) x = some (Instr.dsel (x.f 41 5) (x.f 36 5) (x.f 31 5) (x.f 26 5) (x.g 20)) := rfl
  rw [hb, hr]
  simp (disch := decide) only [fdv_f41_5, fdv_f36_5, fdv_f31_5, fdv_f26_5, fdv_g20, BitVec.extractLsb'_append_eq_of_le, BitVec.extractLsb'_append_eq_of_add_le] <;> simp

theorem dcvt (src : Fmt) (dst : Fmt) (rm : Rm) (d : BitVec 5) (a : BitVec 5) (k : BitVec 6) : Statement (.dcvt src dst rm d a k) := by
  intro hw op he
  have he : some 150#10 = some op := he
  cases he
  have hb : Instr.body (.dcvt src dst rm d a k) = fdv d a 0#5 0#5 k dst.code (0#1 ++ src.code) (0#6 ++ rm.code) := rfl
  have hr (x : Body) : readBody ((150#10).toNat / 128) ((150#10).toNat % 128) x = (Fmt.ofCode (x.f 9 5)).bind fun src => (Fmt.ofCode (x.f 15 5)).bind fun dst => (Rm.ofCode (x.f 0 3)).map fun rm => Instr.dcvt src dst rm (x.f 41 5) (x.f 36 5) (x.g 20) := rfl
  rw [hb, hr]
  simp (disch := decide) only [fdv_f9_5, fdv_f15_5, fdv_f0_3, fdv_f41_5, fdv_f36_5, fdv_g20, BitVec.extractLsb'_append_eq_of_le, BitVec.extractLsb'_append_eq_of_add_le, part_1_5_f0, part_6_3_f0, part_6_5_f0, part_6_28_f0, part_6_28_f28] <;> simp

theorem dbcast (d : BitVec 5) (a : BitVec 5) (j : BitVec 4) (k : BitVec 6) : Statement (.dbcast d a j k) := by
  intro hw op he
  have he : some 151#10 = some op := he
  cases he
  have hb : Instr.body (.dbcast d a j k) = fdv d a 0#5 0#5 k 4#5 0#6 (0#5 ++ j) := rfl
  have hr (x : Body) : readBody ((151#10).toNat / 128) ((151#10).toNat % 128) x = some (Instr.dbcast (x.f 41 5) (x.f 36 5) (x.f 0 4) (x.g 20)) := rfl
  rw [hb, hr]
  simp (disch := decide) only [fdv_f41_5, fdv_f36_5, fdv_f0_4, fdv_g20, BitVec.extractLsb'_append_eq_of_le, BitVec.extractLsb'_append_eq_of_add_le, part_5_1_f0, part_5_4_f0] <;> simp

theorem dext (ty : Lane2) (d : BitVec 5) (a : BitVec 5) (j : BitVec 4) : Statement (.dext ty d a j) := by
  intro hw op he
  have he : some 152#10 = some op := he
  cases he
  have hb : Instr.body (.dext ty d a j) = fdv d a 0#5 0#5 0#6 ty.code 0#6 (0#5 ++ j) := rfl
  have hr (x : Body) : readBody ((152#10).toNat / 128) ((152#10).toNat % 128) x = (Lane2.ofCode (x.f 15 5)).map fun ty => Instr.dext ty (x.f 41 5) (x.f 36 5) (x.f 0 4) := rfl
  rw [hb, hr]
  simp (disch := decide) only [fdv_f15_5, fdv_f41_5, fdv_f36_5, fdv_f0_4, BitVec.extractLsb'_append_eq_of_le, BitVec.extractLsb'_append_eq_of_add_le, part_5_1_f0, part_5_4_f0] <;> simp

theorem dins (d : BitVec 5) (a : BitVec 5) (j : BitVec 4) : Statement (.dins d a j) := by
  intro hw op he
  have he : some 153#10 = some op := he
  cases he
  have hb : Instr.body (.dins d a j) = fdv d a 0#5 0#5 0#6 4#5 0#6 (0#5 ++ j) := rfl
  have hr (x : Body) : readBody ((153#10).toNat / 128) ((153#10).toNat % 128) x = some (Instr.dins (x.f 41 5) (x.f 36 5) (x.f 0 4)) := rfl
  rw [hb, hr]
  simp (disch := decide) only [fdv_f41_5, fdv_f36_5, fdv_f0_4, BitVec.extractLsb'_append_eq_of_le, BitVec.extractLsb'_append_eq_of_add_le, part_5_1_f0, part_5_4_f0] <;> simp

theorem dshuf (d : BitVec 5) (a : BitVec 5) (b : BitVec 5) (k : BitVec 6) : Statement (.dshuf d a b k) := by
  intro hw op he
  have he : some 154#10 = some op := he
  cases he
  have hb : Instr.body (.dshuf d a b k) = fdv d a b 0#5 k 4#5 0#6 0#9 := rfl
  have hr (x : Body) : readBody ((154#10).toNat / 128) ((154#10).toNat % 128) x = some (Instr.dshuf (x.f 41 5) (x.f 36 5) (x.f 31 5) (x.g 20)) := rfl
  rw [hb, hr]
  simp (disch := decide) only [fdv_f41_5, fdv_f36_5, fdv_f31_5, fdv_g20, BitVec.extractLsb'_append_eq_of_le, BitVec.extractLsb'_append_eq_of_add_le] <;> simp

theorem dscan (ty : Lane2) (op : RedOp) (ex : Bool) (d : BitVec 5) (a : BitVec 5) (k : BitVec 6) : Statement (.dscan ty op ex d a k) := by
  intro hw op he
  have he : some 155#10 = some op := he
  cases he
  have hb : Instr.body (.dscan ty op ex d a k) = fdv d a 0#5 0#5 k ty.code (0#3 ++ BitVec.ofBool ex ++ op.code) 0#9 := rfl
  have hr (x : Body) : readBody ((155#10).toNat / 128) ((155#10).toNat % 128) x = (Lane2.ofCode (x.f 15 5)).bind fun ty => (RedOp.ofCode (x.f 9 2)).map fun op => Instr.dscan ty op (x.bit 11) (x.f 41 5) (x.f 36 5) (x.g 20) := rfl
  rw [hb, hr]
  simp (disch := decide) only [fdv_f15_5, fdv_f9_2, fdv_bit11, fdv_f41_5, fdv_f36_5, fdv_g20, BitVec.extractLsb'_append_eq_of_le, BitVec.extractLsb'_append_eq_of_add_le, part_3_b_2_f0, part_3_b_2_bit2] <;> simp

theorem dred (ty : Lane2) (op : RedOp) (d : BitVec 5) (a : BitVec 5) (k : BitVec 6) : Statement (.dred ty op d a k) := by
  intro hw op he
  have he : some 156#10 = some op := he
  cases he
  have hb : Instr.body (.dred ty op d a k) = fdv d a 0#5 0#5 k ty.code (0#4 ++ op.code) 0#9 := rfl
  have hr (x : Body) : readBody ((156#10).toNat / 128) ((156#10).toNat % 128) x = (Lane2.ofCode (x.f 15 5)).bind fun ty => (RedOp.ofCode (x.f 9 2)).map fun op => Instr.dred ty op (x.f 41 5) (x.f 36 5) (x.g 20) := rfl
  rw [hb, hr]
  simp (disch := decide) only [fdv_f15_5, fdv_f9_2, fdv_f41_5, fdv_f36_5, fdv_g20, BitVec.extractLsb'_append_eq_of_le, BitVec.extractLsb'_append_eq_of_add_le, part_4_30_f30, part_4_30_f0, part_4_2_f0, part_4_16_f0, part_4_16_f16] <;> simp

theorem dhist (r : Bool) (d : BitVec 5) (a : BitVec 5) (b : BitVec 5) (k : BitVec 6) : Statement (.dhist r d a b k) := by
  intro hw op he
  have he : some 157#10 = some op := he
  cases he
  have hb : Instr.body (.dhist r d a b k) = fdv d a b 0#5 k 4#5 (0#5 ++ BitVec.ofBool r) 0#9 := rfl
  have hr (x : Body) : readBody ((157#10).toNat / 128) ((157#10).toNat % 128) x = some (Instr.dhist (x.bit 9) (x.f 41 5) (x.f 36 5) (x.f 31 5) (x.g 20)) := rfl
  rw [hb, hr]
  simp (disch := decide) only [fdv_bit9, fdv_f41_5, fdv_f36_5, fdv_f31_5, fdv_g20, BitVec.extractLsb'_append_eq_of_le, BitVec.extractLsb'_append_eq_of_add_le, part_5_b_bit0] <;> simp

theorem diota (d : BitVec 5) (s : BitVec 9) (t : BitVec 6) (k : BitVec 6) : Statement (.diota d s t k) := by
  intro hw op he
  have he : some 158#10 = some op := he
  cases he
  have hb : Instr.body (.diota d s t k) = fdv d 0#5 0#5 0#5 k 4#5 t s := rfl
  have hr (x : Body) : readBody ((158#10).toNat / 128) ((158#10).toNat % 128) x = some (Instr.diota (x.f 41 5) (x.f 0 9) (x.g 9) (x.g 20)) := rfl
  rw [hb, hr]
  simp (disch := decide) only [fdv_f41_5, fdv_f0_9, fdv_g9, fdv_g20, BitVec.extractLsb'_append_eq_of_le, BitVec.extractLsb'_append_eq_of_add_le] <;> simp

theorem ld (d : BitVec 6) (b : BitVec 6) (i : BitVec 6) (s : Scale) (o : MemOrd) (p : Scope) (f : BitVec 20) : Statement (.ld d b i s o p f) := by
  intro hw op he
  have he : some 256#10 = some op := he
  cases he
  have hb : Instr.body (.ld d b i s o p f) = fgm d b i s.code o.code p.code f := rfl
  have hr (x : Body) : readBody ((256#10).toNat / 128) ((256#10).toNat % 128) x = (MemOrd.ofCode (x.f 23 3)).bind fun o => (Scope.ofCode (x.f 20 3)).map fun p => Instr.ld (x.g 40) (x.g 34) (x.g 28) (Scale.ofCode (x.f 26 2)) o p (x.f 0 20) := rfl
  rw [hb, hr]
  simp (disch := decide) only [fgm_f23_3, fgm_f20_3, fgm_g40, fgm_g34, fgm_g28, fgm_f26_2, fgm_f0_20, BitVec.extractLsb'_append_eq_of_le, BitVec.extractLsb'_append_eq_of_add_le] <;> simp

theorem st (d : BitVec 6) (b : BitVec 6) (i : BitVec 6) (s : Scale) (o : MemOrd) (p : Scope) (f : BitVec 20) : Statement (.st d b i s o p f) := by
  intro hw op he
  have he : some 257#10 = some op := he
  cases he
  have hb : Instr.body (.st d b i s o p f) = fgm d b i s.code o.code p.code f := rfl
  have hr (x : Body) : readBody ((257#10).toNat / 128) ((257#10).toNat % 128) x = (MemOrd.ofCode (x.f 23 3)).bind fun o => (Scope.ofCode (x.f 20 3)).map fun p => Instr.st (x.g 40) (x.g 34) (x.g 28) (Scale.ofCode (x.f 26 2)) o p (x.f 0 20) := rfl
  rw [hb, hr]
  simp (disch := decide) only [fgm_f23_3, fgm_f20_3, fgm_g40, fgm_g34, fgm_g28, fgm_f26_2, fgm_f0_20, BitVec.extractLsb'_append_eq_of_le, BitVec.extractLsb'_append_eq_of_add_le] <;> simp

theorem ldf (d : BitVec 6) (b : BitVec 6) (i : BitVec 6) (s : Scale) (o : MemOrd) (p : Scope) (f : BitVec 20) : Statement (.ldf d b i s o p f) := by
  intro hw op he
  have he : some 258#10 = some op := he
  cases he
  have hb : Instr.body (.ldf d b i s o p f) = fgm d b i s.code o.code p.code f := rfl
  have hr (x : Body) : readBody ((258#10).toNat / 128) ((258#10).toNat % 128) x = (MemOrd.ofCode (x.f 23 3)).bind fun o => (Scope.ofCode (x.f 20 3)).map fun p => Instr.ldf (x.g 40) (x.g 34) (x.g 28) (Scale.ofCode (x.f 26 2)) o p (x.f 0 20) := rfl
  rw [hb, hr]
  simp (disch := decide) only [fgm_f23_3, fgm_f20_3, fgm_g40, fgm_g34, fgm_g28, fgm_f26_2, fgm_f0_20, BitVec.extractLsb'_append_eq_of_le, BitVec.extractLsb'_append_eq_of_add_le] <;> simp

theorem stf (d : BitVec 6) (b : BitVec 6) (i : BitVec 6) (s : Scale) (o : MemOrd) (p : Scope) (f : BitVec 20) : Statement (.stf d b i s o p f) := by
  intro hw op he
  have he : some 259#10 = some op := he
  cases he
  have hb : Instr.body (.stf d b i s o p f) = fgm d b i s.code o.code p.code f := rfl
  have hr (x : Body) : readBody ((259#10).toNat / 128) ((259#10).toNat % 128) x = (MemOrd.ofCode (x.f 23 3)).bind fun o => (Scope.ofCode (x.f 20 3)).map fun p => Instr.stf (x.g 40) (x.g 34) (x.g 28) (Scale.ofCode (x.f 26 2)) o p (x.f 0 20) := rfl
  rw [hb, hr]
  simp (disch := decide) only [fgm_f23_3, fgm_f20_3, fgm_g40, fgm_g34, fgm_g28, fgm_f26_2, fgm_f0_20, BitVec.extractLsb'_append_eq_of_le, BitVec.extractLsb'_append_eq_of_add_le] <;> simp

theorem ldd (d : BitVec 5) (b : BitVec 6) (i : BitVec 6) (s : Scale) (o : MemOrd) (p : Scope) (f : BitVec 20) : Statement (.ldd d b i s o p f) := by
  intro hw op he
  have he : some 260#10 = some op := he
  cases he
  have hb : Instr.body (.ldd d b i s o p f) = fgm (0#1 ++ d) b i s.code o.code p.code f := rfl
  have hr (x : Body) : readBody ((260#10).toNat / 128) ((260#10).toNat % 128) x = (MemOrd.ofCode (x.f 23 3)).bind fun o => (Scope.ofCode (x.f 20 3)).map fun p => Instr.ldd (x.f 40 5) (x.g 34) (x.g 28) (Scale.ofCode (x.f 26 2)) o p (x.f 0 20) := rfl
  rw [hb, hr]
  simp (disch := decide) only [fgm_f23_3, fgm_f20_3, fgm_f40_5, fgm_g34, fgm_g28, fgm_f26_2, fgm_f0_20, BitVec.extractLsb'_append_eq_of_le, BitVec.extractLsb'_append_eq_of_add_le, part_1_5_f0] <;> simp

theorem std (d : BitVec 5) (b : BitVec 6) (i : BitVec 6) (s : Scale) (o : MemOrd) (p : Scope) (f : BitVec 20) : Statement (.std d b i s o p f) := by
  intro hw op he
  have he : some 261#10 = some op := he
  cases he
  have hb : Instr.body (.std d b i s o p f) = fgm (0#1 ++ d) b i s.code o.code p.code f := rfl
  have hr (x : Body) : readBody ((261#10).toNat / 128) ((261#10).toNat % 128) x = (MemOrd.ofCode (x.f 23 3)).bind fun o => (Scope.ofCode (x.f 20 3)).map fun p => Instr.std (x.f 40 5) (x.g 34) (x.g 28) (Scale.ofCode (x.f 26 2)) o p (x.f 0 20) := rfl
  rw [hb, hr]
  simp (disch := decide) only [fgm_f23_3, fgm_f20_3, fgm_f40_5, fgm_g34, fgm_g28, fgm_f26_2, fgm_f0_20, BitVec.extractLsb'_append_eq_of_le, BitVec.extractLsb'_append_eq_of_add_le, part_1_5_f0] <;> simp

theorem lddf (d : BitVec 5) (b : BitVec 6) (i : BitVec 6) (s : Scale) (o : MemOrd) (p : Scope) (f : BitVec 20) : Statement (.lddf d b i s o p f) := by
  intro hw op he
  have he : some 262#10 = some op := he
  cases he
  have hb : Instr.body (.lddf d b i s o p f) = fgm (0#1 ++ d) b i s.code o.code p.code f := rfl
  have hr (x : Body) : readBody ((262#10).toNat / 128) ((262#10).toNat % 128) x = (MemOrd.ofCode (x.f 23 3)).bind fun o => (Scope.ofCode (x.f 20 3)).map fun p => Instr.lddf (x.f 40 5) (x.g 34) (x.g 28) (Scale.ofCode (x.f 26 2)) o p (x.f 0 20) := rfl
  rw [hb, hr]
  simp (disch := decide) only [fgm_f23_3, fgm_f20_3, fgm_f40_5, fgm_g34, fgm_g28, fgm_f26_2, fgm_f0_20, BitVec.extractLsb'_append_eq_of_le, BitVec.extractLsb'_append_eq_of_add_le, part_1_5_f0] <;> simp

theorem stdf (d : BitVec 5) (b : BitVec 6) (i : BitVec 6) (s : Scale) (o : MemOrd) (p : Scope) (f : BitVec 20) : Statement (.stdf d b i s o p f) := by
  intro hw op he
  have he : some 263#10 = some op := he
  cases he
  have hb : Instr.body (.stdf d b i s o p f) = fgm (0#1 ++ d) b i s.code o.code p.code f := rfl
  have hr (x : Body) : readBody ((263#10).toNat / 128) ((263#10).toNat % 128) x = (MemOrd.ofCode (x.f 23 3)).bind fun o => (Scope.ofCode (x.f 20 3)).map fun p => Instr.stdf (x.f 40 5) (x.g 34) (x.g 28) (Scale.ofCode (x.f 26 2)) o p (x.f 0 20) := rfl
  rw [hb, hr]
  simp (disch := decide) only [fgm_f23_3, fgm_f20_3, fgm_f40_5, fgm_g34, fgm_g28, fgm_f26_2, fgm_f0_20, BitVec.extractLsb'_append_eq_of_le, BitVec.extractLsb'_append_eq_of_add_le, part_1_5_f0] <;> simp

theorem amo (op : AmoOp) (d : BitVec 6) (b : BitVec 6) (i : BitVec 6) (o : MemOrd) (p : Scope) (f : BitVec 16) : Statement (.amo op d b i o p f) := by
  intro hw op he
  have he : some 264#10 = some op := he
  cases he
  have hb : Instr.body (.amo op d b i o p f) = fgm d b i 0#2 o.code p.code (op.code ++ f) := rfl
  have hr (x : Body) : readBody ((264#10).toNat / 128) ((264#10).toNat % 128) x = (AmoOp.ofCode (x.f 16 4)).bind fun op => (MemOrd.ofCode (x.f 23 3)).bind fun o => (Scope.ofCode (x.f 20 3)).map fun p => Instr.amo op (x.g 40) (x.g 34) (x.g 28) o p (x.f 0 16) := rfl
  rw [hb, hr]
  simp (disch := decide) only [fgm_f16_4, fgm_f23_3, fgm_f20_3, fgm_g40, fgm_g34, fgm_g28, fgm_f0_16, BitVec.extractLsb'_append_eq_of_le, BitVec.extractLsb'_append_eq_of_add_le, part_2_4_f0, part_4_30_f30, part_4_30_f0, part_3_3_f0, part_1_5_f0, part_5_1_f0, part_6_3_f0, part_5_4_f0, part_4_2_f0, part_4_16_f0, part_4_16_f16, part_2_2_f0, part_28_6_f0, part_26_8_f0, part_18_16_f0, part_8_3_f0, part_7_4_f0, part_6_5_f0, part_9_2_f0, part_2_18_f0, part_2_18_f18, part_3_6_f0, part_2_7_f7, part_6_28_f0, part_6_28_f28] <;> simp

theorem cas (d : BitVec 6) (b : BitVec 6) (i : BitVec 6) (o : MemOrd) (p : Scope) (f : BitVec 16) : Statement (.cas d b i o p f) := by
  intro hw op he
  have he : some 265#10 = some op := he
  cases he
  have hb : Instr.body (.cas d b i o p f) = fgm d b i 0#2 o.code p.code (0#4 ++ f) := rfl
  have hr (x : Body) : readBody ((265#10).toNat / 128) ((265#10).toNat % 128) x = (MemOrd.ofCode (x.f 23 3)).bind fun o => (Scope.ofCode (x.f 20 3)).map fun p => Instr.cas (x.g 40) (x.g 34) (x.g 28) o p (x.f 0 16) := rfl
  rw [hb, hr]
  simp (disch := decide) only [fgm_f23_3, fgm_f20_3, fgm_g40, fgm_g34, fgm_g28, fgm_f0_16, BitVec.extractLsb'_append_eq_of_le, BitVec.extractLsb'_append_eq_of_add_le, part_4_30_f30, part_4_30_f0, part_4_2_f0, part_4_16_f0, part_4_16_f16] <;> simp

theorem pref (b : BitVec 6) (i : BitVec 6) (s : Scale) (p : Scope) (f : BitVec 20) : Statement (.pref b i s p f) := by
  intro hw op he
  have he : some 266#10 = some op := he
  cases he
  have hb : Instr.body (.pref b i s p f) = fgm 0#6 b i s.code 0#3 p.code f := rfl
  have hr (x : Body) : readBody ((266#10).toNat / 128) ((266#10).toNat % 128) x = (Scope.ofCode (x.f 20 3)).map fun p => Instr.pref (x.g 34) (x.g 28) (Scale.ofCode (x.f 26 2)) p (x.f 0 20) := rfl
  rw [hb, hr]
  simp (disch := decide) only [fgm_f20_3, fgm_g34, fgm_g28, fgm_f26_2, fgm_f0_20, BitVec.extractLsb'_append_eq_of_le, BitVec.extractLsb'_append_eq_of_add_le] <;> simp

theorem discard (d : BitVec 6) (b : BitVec 6) (i : BitVec 6) (s : Scale) (p : Scope) (f : BitVec 20) : Statement (.discard d b i s p f) := by
  intro hw op he
  have he : some 267#10 = some op := he
  cases he
  have hb : Instr.body (.discard d b i s p f) = fgm d b i s.code 0#3 p.code f := rfl
  have hr (x : Body) : readBody ((267#10).toNat / 128) ((267#10).toNat % 128) x = (Scope.ofCode (x.f 20 3)).map fun p => Instr.discard (x.g 40) (x.g 34) (x.g 28) (Scale.ofCode (x.f 26 2)) p (x.f 0 20) := rfl
  rw [hb, hr]
  simp (disch := decide) only [fgm_f20_3, fgm_g40, fgm_g34, fgm_g28, fgm_f26_2, fgm_f0_20, BitVec.extractLsb'_append_eq_of_le, BitVec.extractLsb'_append_eq_of_add_le] <;> simp

theorem flush (d : BitVec 6) (b : BitVec 6) (i : BitVec 6) (s : Scale) (p : Scope) (f : BitVec 20) : Statement (.flush d b i s p f) := by
  intro hw op he
  have he : some 268#10 = some op := he
  cases he
  have hb : Instr.body (.flush d b i s p f) = fgm d b i s.code 0#3 p.code f := rfl
  have hr (x : Body) : readBody ((268#10).toNat / 128) ((268#10).toNat % 128) x = (Scope.ofCode (x.f 20 3)).map fun p => Instr.flush (x.g 40) (x.g 34) (x.g 28) (Scale.ofCode (x.f 26 2)) p (x.f 0 20) := rfl
  rw [hb, hr]
  simp (disch := decide) only [fgm_f20_3, fgm_g40, fgm_g34, fgm_g28, fgm_f26_2, fgm_f0_20, BitVec.extractLsb'_append_eq_of_le, BitVec.extractLsb'_append_eq_of_add_le] <;> simp

theorem fence (o : MemOrd) (p : Scope) : Statement (.fence o p) := by
  intro hw op he
  have he : some 269#10 = some op := he
  cases he
  have hb : Instr.body (.fence o p) = fgm 0#6 0#6 0#6 0#2 o.code p.code 0#20 := rfl
  have hr (x : Body) : readBody ((269#10).toNat / 128) ((269#10).toNat % 128) x = (MemOrd.ofCode (x.f 23 3)).bind fun o => (Scope.ofCode (x.f 20 3)).map fun p => Instr.fence o p := rfl
  rw [hb, hr]
  simp (disch := decide) only [fgm_f23_3, fgm_f20_3, BitVec.extractLsb'_append_eq_of_le, BitVec.extractLsb'_append_eq_of_add_le] <;> simp

theorem br (cc : Cond) (a : BitVec 6) (b : BitVec 6) (s : BitVec 3) (l : BitVec 26) : Statement (.br cc a b s l) := by
  intro hw op he
  have he : some 384#10 = some op := he
  cases he
  have hb : Instr.body (.br cc a b s l) = fgb a b cc.code s l := rfl
  have hr (x : Body) : readBody ((384#10).toNat / 128) ((384#10).toNat % 128) x = (Cond.ofCode (x.f 30 4)).map fun cc => Instr.br cc (x.g 40) (x.g 34) (x.f 26 3) (x.f 0 26) := rfl
  rw [hb, hr]
  simp (disch := decide) only [fgb_f30_4, fgb_g40, fgb_g34, fgb_f26_3, fgb_f0_26, BitVec.extractLsb'_append_eq_of_le, BitVec.extractLsb'_append_eq_of_add_le] <;> simp

theorem jmp (s : BitVec 3) (l : BitVec 26) : Statement (.jmp s l) := by
  intro hw op he
  have he : some 385#10 = some op := he
  cases he
  have hb : Instr.body (.jmp s l) = fgb 0#6 0#6 0#4 s l := rfl
  have hr (x : Body) : readBody ((385#10).toNat / 128) ((385#10).toNat % 128) x = some (Instr.jmp (x.f 26 3) (x.f 0 26)) := rfl
  rw [hb, hr]
  simp (disch := decide) only [fgb_f26_3, fgb_f0_26, BitVec.extractLsb'_append_eq_of_le, BitVec.extractLsb'_append_eq_of_add_le] <;> simp

theorem jmpr (a : BitVec 6) : Statement (.jmpr a) := by
  intro hw op he
  have he : some 386#10 = some op := he
  cases he
  have hb : Instr.body (.jmpr a) = fg3 0#6 a 0#6 0#6 0#6 := rfl
  have hr (x : Body) : readBody ((386#10).toNat / 128) ((386#10).toNat % 128) x = some (Instr.jmpr (x.g 34)) := rfl
  rw [hb, hr]
  simp (disch := decide) only [fg3_g34, BitVec.extractLsb'_append_eq_of_le, BitVec.extractLsb'_append_eq_of_add_le] <;> simp

theorem call (s : BitVec 3) (l : BitVec 26) : Statement (.call s l) := by
  intro hw op he
  have he : some 387#10 = some op := he
  cases he
  have hb : Instr.body (.call s l) = fgb 0#6 0#6 0#4 s l := rfl
  have hr (x : Body) : readBody ((387#10).toNat / 128) ((387#10).toNat % 128) x = some (Instr.call (x.f 26 3) (x.f 0 26)) := rfl
  rw [hb, hr]
  simp (disch := decide) only [fgb_f26_3, fgb_f0_26, BitVec.extractLsb'_append_eq_of_le, BitVec.extractLsb'_append_eq_of_add_le] <;> simp

theorem start (p : BitVec 2) (a : BitVec 6) (b : BitVec 6) (s : BitVec 3) (l : BitVec 26) : Statement (.start p a b s l) := by
  intro hw op he
  have he : some 388#10 = some op := he
  cases he
  have hb : Instr.body (.start p a b s l) = fgb a b (0#2 ++ p) s l := rfl
  have hr (x : Body) : readBody ((388#10).toNat / 128) ((388#10).toNat % 128) x = some (Instr.start (x.f 30 2) (x.g 40) (x.g 34) (x.f 26 3) (x.f 0 26)) := rfl
  rw [hb, hr]
  simp (disch := decide) only [fgb_f30_2, fgb_g40, fgb_g34, fgb_f26_3, fgb_f0_26, BitVec.extractLsb'_append_eq_of_le, BitVec.extractLsb'_append_eq_of_add_le, part_2_4_f0, part_2_2_f0, part_2_18_f0, part_2_18_f18, part_2_7_f7] <;> simp

theorem exit : Statement (.exit) := by
  intro hw op he
  have he : some 389#10 = some op := he
  cases he
  have hb : Instr.body (.exit) = fg3 0#6 0#6 0#6 0#6 0#6 := rfl
  have hr (x : Body) : readBody ((389#10).toNat / 128) ((389#10).toNat % 128) x = some Instr.exit := rfl
  rw [hb, hr]

theorem yield : Statement (.yield) := by
  intro hw op he
  have he : some 390#10 = some op := he
  cases he
  have hb : Instr.body (.yield) = fg3 0#6 0#6 0#6 0#6 0#6 := rfl
  have hr (x : Body) : readBody ((390#10).toNat / 128) ((390#10).toNat % 128) x = some Instr.yield := rfl
  rw [hb, hr]

theorem ctxq (q : CtxQ) (d : BitVec 6) (a : BitVec 6) : Statement (.ctxq q d a) := by
  intro hw op he
  have he : some 391#10 = some op := he
  cases he
  have hb : Instr.body (.ctxq q d a) = fg3 d a 0#6 0#6 (0#4 ++ q.code) := rfl
  have hr (x : Body) : readBody ((391#10).toNat / 128) ((391#10).toNat % 128) x = (CtxQ.ofCode (x.f 16 2)).map fun q => Instr.ctxq q (x.g 40) (x.g 34) := rfl
  rw [hb, hr]
  simp (disch := decide) only [fg3_f16_2, fg3_g40, fg3_g34, BitVec.extractLsb'_append_eq_of_le, BitVec.extractLsb'_append_eq_of_add_le, part_4_30_f30, part_4_30_f0, part_4_2_f0, part_4_16_f0, part_4_16_f16] <;> simp

theorem send (n : Bool) (d : BitVec 6) (a : BitVec 6) (b : BitVec 6) (c : BitVec 6) : Statement (.send n d a b c) := by
  intro hw op he
  have he : some 392#10 = some op := he
  cases he
  have hb : Instr.body (.send n d a b c) = fg3 d a b c (0#5 ++ BitVec.ofBool n) := rfl
  have hr (x : Body) : readBody ((392#10).toNat / 128) ((392#10).toNat % 128) x = some (Instr.send (x.bit 16) (x.g 40) (x.g 34) (x.g 28) (x.g 22)) := rfl
  rw [hb, hr]
  simp (disch := decide) only [fg3_bit16, fg3_g40, fg3_g34, fg3_g28, fg3_g22, BitVec.extractLsb'_append_eq_of_le, BitVec.extractLsb'_append_eq_of_add_le, part_5_b_bit0] <;> simp

theorem recv (d : BitVec 6) (a : BitVec 6) (b : BitVec 6) : Statement (.recv d a b) := by
  intro hw op he
  have he : some 393#10 = some op := he
  cases he
  have hb : Instr.body (.recv d a b) = fg3 d a b 0#6 0#6 := rfl
  have hr (x : Body) : readBody ((393#10).toNat / 128) ((393#10).toNat % 128) x = some (Instr.recv (x.g 40) (x.g 34) (x.g 28)) := rfl
  rw [hb, hr]
  simp (disch := decide) only [fg3_g40, fg3_g34, fg3_g28, BitVec.extractLsb'_append_eq_of_le, BitVec.extractLsb'_append_eq_of_add_le] <;> simp

theorem waitm (d : BitVec 6) : Statement (.waitm d) := by
  intro hw op he
  have he : some 394#10 = some op := he
  cases he
  have hb : Instr.body (.waitm d) = fg3 d 0#6 0#6 0#6 0#6 := rfl
  have hr (x : Body) : readBody ((394#10).toNat / 128) ((394#10).toNat % 128) x = some (Instr.waitm (x.g 40)) := rfl
  rw [hb, hr]
  simp (disch := decide) only [fg3_g40, BitVec.extractLsb'_append_eq_of_le, BitVec.extractLsb'_append_eq_of_add_le] <;> simp

theorem rrsv (d : BitVec 6) (a : BitVec 6) (h : BitVec 4) : Statement (.rrsv d a h) := by
  intro hw op he
  have he : some 395#10 = some op := he
  cases he
  have hb : Instr.body (.rrsv d a h) = fg3 d a 0#6 0#6 (0#2 ++ h) := rfl
  have hr (x : Body) : readBody ((395#10).toNat / 128) ((395#10).toNat % 128) x = some (Instr.rrsv (x.g 40) (x.g 34) (x.f 16 4)) := rfl
  rw [hb, hr]
  simp (disch := decide) only [fg3_g40, fg3_g34, fg3_f16_4, BitVec.extractLsb'_append_eq_of_le, BitVec.extractLsb'_append_eq_of_add_le, part_2_4_f0, part_2_2_f0, part_2_18_f0, part_2_18_f18, part_2_7_f7] <;> simp

theorem rpub (a : BitVec 6) (b : BitVec 6) (h : BitVec 4) : Statement (.rpub a b h) := by
  intro hw op he
  have he : some 396#10 = some op := he
  cases he
  have hb : Instr.body (.rpub a b h) = fg3 0#6 a b 0#6 (0#2 ++ h) := rfl
  have hr (x : Body) : readBody ((396#10).toNat / 128) ((396#10).toNat % 128) x = some (Instr.rpub (x.g 34) (x.g 28) (x.f 16 4)) := rfl
  rw [hb, hr]
  simp (disch := decide) only [fg3_g34, fg3_g28, fg3_f16_4, BitVec.extractLsb'_append_eq_of_le, BitVec.extractLsb'_append_eq_of_add_le, part_2_4_f0, part_2_2_f0, part_2_18_f0, part_2_18_f18, part_2_7_f7] <;> simp

theorem rwait (d : BitVec 6) (a : BitVec 6) (h : BitVec 4) : Statement (.rwait d a h) := by
  intro hw op he
  have he : some 397#10 = some op := he
  cases he
  have hb : Instr.body (.rwait d a h) = fg3 d a 0#6 0#6 (0#2 ++ h) := rfl
  have hr (x : Body) : readBody ((397#10).toNat / 128) ((397#10).toNat % 128) x = some (Instr.rwait (x.g 40) (x.g 34) (x.f 16 4)) := rfl
  rw [hb, hr]
  simp (disch := decide) only [fg3_g40, fg3_g34, fg3_f16_4, BitVec.extractLsb'_append_eq_of_le, BitVec.extractLsb'_append_eq_of_add_le, part_2_4_f0, part_2_2_f0, part_2_18_f0, part_2_18_f18, part_2_7_f7] <;> simp

theorem radv (a : BitVec 6) (h : BitVec 4) : Statement (.radv a h) := by
  intro hw op he
  have he : some 398#10 = some op := he
  cases he
  have hb : Instr.body (.radv a h) = fg3 0#6 a 0#6 0#6 (0#2 ++ h) := rfl
  have hr (x : Body) : readBody ((398#10).toNat / 128) ((398#10).toNat % 128) x = some (Instr.radv (x.g 34) (x.f 16 4)) := rfl
  rw [hb, hr]
  simp (disch := decide) only [fg3_g34, fg3_f16_4, BitVec.extractLsb'_append_eq_of_le, BitVec.extractLsb'_append_eq_of_add_le, part_2_4_f0, part_2_2_f0, part_2_18_f0, part_2_18_f18, part_2_7_f7] <;> simp

theorem reos (h : BitVec 4) : Statement (.reos h) := by
  intro hw op he
  have he : some 399#10 = some op := he
  cases he
  have hb : Instr.body (.reos h) = fg3 0#6 0#6 0#6 0#6 (0#2 ++ h) := rfl
  have hr (x : Body) : readBody ((399#10).toNat / 128) ((399#10).toNat % 128) x = some (Instr.reos (x.f 16 4)) := rfl
  rw [hb, hr]
  simp (disch := decide) only [fg3_f16_4, BitVec.extractLsb'_append_eq_of_le, BitVec.extractLsb'_append_eq_of_add_le, part_2_4_f0, part_2_2_f0, part_2_18_f0, part_2_18_f18, part_2_7_f7] <;> simp

theorem rqry (q : RingQ) (d : BitVec 6) (h : BitVec 4) : Statement (.rqry q d h) := by
  intro hw op he
  have he : some 400#10 = some op := he
  cases he
  have hb : Instr.body (.rqry q d h) = fg3 d 0#6 0#6 0#6 (q.code ++ h) := rfl
  have hr (x : Body) : readBody ((400#10).toNat / 128) ((400#10).toNat % 128) x = some (Instr.rqry (RingQ.ofCode (x.f 20 2)) (x.g 40) (x.f 16 4)) := rfl
  rw [hb, hr]
  simp (disch := decide) only [fg3_f20_2, fg3_g40, fg3_f16_4, BitVec.extractLsb'_append_eq_of_le, BitVec.extractLsb'_append_eq_of_add_le, part_2_4_f0, part_4_30_f30, part_4_30_f0, part_3_3_f0, part_1_5_f0, part_5_1_f0, part_6_3_f0, part_5_4_f0, part_4_2_f0, part_4_16_f0, part_4_16_f16, part_2_2_f0, part_28_6_f0, part_26_8_f0, part_18_16_f0, part_8_3_f0, part_7_4_f0, part_6_5_f0, part_9_2_f0, part_2_18_f0, part_2_18_f18, part_3_6_f0, part_2_7_f7, part_6_28_f0, part_6_28_f28] <;> simp

theorem smode (s : BitVec 4) (a : BitVec 6) (b : BitVec 6) : Statement (.smode s a b) := by
  intro hw op he
  have he : some 401#10 = some op := he
  cases he
  have hb : Instr.body (.smode s a b) = fg3 (streamField s) a b 0#6 (0#5 ++ s.extractLsb' 3 1) := rfl
  have hr (x : Body) : readBody ((401#10).toNat / 128) ((401#10).toNat % 128) x = some (Instr.smode (x.bit 16 |> streamIndex (x.g 40)) (x.g 34) (x.g 28)) := rfl
  rw [hb, hr]
  simp (disch := decide) only [fg3_bit16, fg3_g40, fg3_g34, fg3_g28, BitVec.extractLsb'_append_eq_of_le, BitVec.extractLsb'_append_eq_of_add_le, part_5_1_f0, part_5_4_f0, streamIndex_back] <;> simp

theorem soff (s : BitVec 4) : Statement (.soff s) := by
  intro hw op he
  have he : some 402#10 = some op := he
  cases he
  have hb : Instr.body (.soff s) = fg3 (streamField s) 0#6 0#6 0#6 (0#5 ++ s.extractLsb' 3 1) := rfl
  have hr (x : Body) : readBody ((402#10).toNat / 128) ((402#10).toNat % 128) x = some (Instr.soff (x.bit 16 |> streamIndex (x.g 40))) := rfl
  rw [hb, hr]
  simp (disch := decide) only [fg3_bit16, fg3_g40, BitVec.extractLsb'_append_eq_of_le, BitVec.extractLsb'_append_eq_of_add_le, part_5_1_f0, part_5_4_f0, streamIndex_back] <;> simp

theorem copy (a : BitVec 6) (b : BitVec 6) (c : BitVec 6) : Statement (.copy a b c) := by
  intro hw op he
  have he : some 403#10 = some op := he
  cases he
  have hb : Instr.body (.copy a b c) = fg3 0#6 a b c 0#6 := rfl
  have hr (x : Body) : readBody ((403#10).toNat / 128) ((403#10).toNat % 128) x = some (Instr.copy (x.g 34) (x.g 28) (x.g 22)) := rfl
  rw [hb, hr]
  simp (disch := decide) only [fg3_g34, fg3_g28, fg3_g22, BitVec.extractLsb'_append_eq_of_le, BitVec.extractLsb'_append_eq_of_add_le] <;> simp

theorem gather (a : BitVec 6) (b : BitVec 6) (c : BitVec 6) : Statement (.gather a b c) := by
  intro hw op he
  have he : some 404#10 = some op := he
  cases he
  have hb : Instr.body (.gather a b c) = fg3 0#6 a b c 0#6 := rfl
  have hr (x : Body) : readBody ((404#10).toNat / 128) ((404#10).toNat % 128) x = some (Instr.gather (x.g 34) (x.g 28) (x.g 22)) := rfl
  rw [hb, hr]
  simp (disch := decide) only [fg3_g34, fg3_g28, fg3_g22, BitVec.extractLsb'_append_eq_of_le, BitVec.extractLsb'_append_eq_of_add_le] <;> simp

theorem scatter (a : BitVec 6) (b : BitVec 6) (c : BitVec 6) : Statement (.scatter a b c) := by
  intro hw op he
  have he : some 405#10 = some op := he
  cases he
  have hb : Instr.body (.scatter a b c) = fg3 0#6 a b c 0#6 := rfl
  have hr (x : Body) : readBody ((405#10).toNat / 128) ((405#10).toNat % 128) x = some (Instr.scatter (x.g 34) (x.g 28) (x.g 22)) := rfl
  rw [hb, hr]
  simp (disch := decide) only [fg3_g34, fg3_g28, fg3_g22, BitVec.extractLsb'_append_eq_of_le, BitVec.extractLsb'_append_eq_of_add_le] <;> simp

theorem rcopy (op : RcOp) (i : Bool) (a : BitVec 6) (b : BitVec 6) (c : BitVec 6) : Statement (.rcopy op i a b c) := by
  intro hw op he
  have he : some 406#10 = some op := he
  cases he
  have hb : Instr.body (.rcopy op i a b c) = fg3 0#6 a b c (0#3 ++ BitVec.ofBool i ++ op.code) := rfl
  have hr (x : Body) : readBody ((406#10).toNat / 128) ((406#10).toNat % 128) x = (RcOp.ofCode (x.f 16 2)).map fun op => Instr.rcopy op (x.bit 18) (x.g 34) (x.g 28) (x.g 22) := rfl
  rw [hb, hr]
  simp (disch := decide) only [fg3_f16_2, fg3_bit18, fg3_g34, fg3_g28, fg3_g22, BitVec.extractLsb'_append_eq_of_le, BitVec.extractLsb'_append_eq_of_add_le, part_3_b_2_f0, part_3_b_2_bit2] <;> simp

theorem cretry (a : BitVec 6) : Statement (.cretry a) := by
  intro hw op he
  have he : some 407#10 = some op := he
  cases he
  have hb : Instr.body (.cretry a) = fg3 0#6 a 0#6 0#6 0#6 := rfl
  have hr (x : Body) : readBody ((407#10).toNat / 128) ((407#10).toNat % 128) x = some (Instr.cretry (x.g 34)) := rfl
  rw [hb, hr]
  simp (disch := decide) only [fg3_g34, BitVec.extractLsb'_append_eq_of_le, BitVec.extractLsb'_append_eq_of_add_le] <;> simp

theorem cskip (r : Bool) (a : BitVec 6) : Statement (.cskip r a) := by
  intro hw op he
  have he : some 408#10 = some op := he
  cases he
  have hb : Instr.body (.cskip r a) = fg3 0#6 a 0#6 0#6 (0#5 ++ BitVec.ofBool r) := rfl
  have hr (x : Body) : readBody ((408#10).toNat / 128) ((408#10).toNat % 128) x = some (Instr.cskip (x.bit 16) (x.g 34)) := rfl
  rw [hb, hr]
  simp (disch := decide) only [fg3_bit16, fg3_g34, BitVec.extractLsb'_append_eq_of_le, BitVec.extractLsb'_append_eq_of_add_le, part_5_b_bit0] <;> simp

theorem cabort (a : BitVec 6) : Statement (.cabort a) := by
  intro hw op he
  have he : some 409#10 = some op := he
  cases he
  have hb : Instr.body (.cabort a) = fg3 0#6 a 0#6 0#6 0#6 := rfl
  have hr (x : Body) : readBody ((409#10).toNat / 128) ((409#10).toNat % 128) x = some (Instr.cabort (x.g 34)) := rfl
  rw [hb, hr]
  simp (disch := decide) only [fg3_g34, BitVec.extractLsb'_append_eq_of_le, BitVec.extractLsb'_append_eq_of_add_le] <;> simp

theorem step (d : BitVec 6) (g : BitVec 6) : Statement (.step d g) := by
  intro hw op he
  have he : some 410#10 = some op := he
  cases he
  have hb : Instr.body (.step d g) = fgi d 0#6 (0#28 ++ g) := rfl
  have hr (x : Body) : readBody ((410#10).toNat / 128) ((410#10).toNat % 128) x = some (Instr.step (x.g 40) (x.g 0)) := rfl
  rw [hb, hr]
  simp (disch := decide) only [fgi_g40, fgi_g0, BitVec.extractLsb'_append_eq_of_le, BitVec.extractLsb'_append_eq_of_add_le, part_28_6_f0] <;> simp

theorem handoff (d : BitVec 6) (a : BitVec 6) (n : BitVec 8) : Statement (.handoff d a n) := by
  intro hw op he
  have he : some 411#10 = some op := he
  cases he
  have hb : Instr.body (.handoff d a n) = fgi d a (0#26 ++ n) := rfl
  have hr (x : Body) : readBody ((411#10).toNat / 128) ((411#10).toNat % 128) x = some (Instr.handoff (x.g 40) (x.g 34) (x.f 0 8)) := rfl
  rw [hb, hr]
  simp (disch := decide) only [fgi_g40, fgi_g34, fgi_f0_8, BitVec.extractLsb'_append_eq_of_le, BitVec.extractLsb'_append_eq_of_add_le, part_26_8_f0] <;> simp

theorem take (d : BitVec 6) (n : BitVec 8) : Statement (.take d n) := by
  intro hw op he
  have he : some 412#10 = some op := he
  cases he
  have hb : Instr.body (.take d n) = fgi d 0#6 (0#26 ++ n) := rfl
  have hr (x : Body) : readBody ((412#10).toNat / 128) ((412#10).toNat % 128) x = some (Instr.take (x.g 40) (x.f 0 8)) := rfl
  rw [hb, hr]
  simp (disch := decide) only [fgi_g40, fgi_f0_8, BitVec.extractLsb'_append_eq_of_le, BitVec.extractLsb'_append_eq_of_add_le, part_26_8_f0] <;> simp

theorem post (a : BitVec 6) (b : BitVec 6) (k : BitVec 6) : Statement (.post a b k) := by
  intro hw op he
  have he : some 413#10 = some op := he
  cases he
  have hb : Instr.body (.post a b k) = fg3 0#6 a b 0#6 k := rfl
  have hr (x : Body) : readBody ((413#10).toNat / 128) ((413#10).toNat % 128) x = some (Instr.post (x.g 34) (x.g 28) (x.g 16)) := rfl
  rw [hb, hr]
  simp (disch := decide) only [fg3_g34, fg3_g28, fg3_g16, BitVec.extractLsb'_append_eq_of_le, BitVec.extractLsb'_append_eq_of_add_le] <;> simp

theorem trap (imm : BitVec 34) : Statement (.trap imm) := by
  intro hw op he
  have he : some 414#10 = some op := he
  cases he
  have hb : Instr.body (.trap imm) = fgi 0#6 0#6 imm := rfl
  have hr (x : Body) : readBody ((414#10).toNat / 128) ((414#10).toNat % 128) x = some (Instr.trap x.imm34) := rfl
  rw [hb, hr]
  simp (disch := decide) only [fgi_imm34, BitVec.extractLsb'_append_eq_of_le, BitVec.extractLsb'_append_eq_of_add_le] <;> simp

theorem eret : Statement (.eret) := by
  intro hw op he
  have he : some 415#10 = some op := he
  cases he
  have hb : Instr.body (.eret) = fg3 0#6 0#6 0#6 0#6 0#6 := rfl
  have hr (x : Body) : readBody ((415#10).toNat / 128) ((415#10).toNat % 128) x = some Instr.eret := rfl
  rw [hb, hr]

theorem sysr (d : BitVec 6) (a : BitVec 6) (cw : BitVec 12) : Statement (.sysr d a cw) := by
  intro hw op he
  have he : some 416#10 = some op := he
  cases he
  have hb : Instr.body (.sysr d a cw) = fsys d a cw := rfl
  have hr (x : Body) : readBody ((416#10).toNat / 128) ((416#10).toNat % 128) x = some (Instr.sysr (x.g 40) (x.g 34) (x.f 22 12)) := rfl
  rw [hb, hr]
  simp (disch := decide) only [fsys_g40, fsys_g34, fsys_f22_12, BitVec.extractLsb'_append_eq_of_le, BitVec.extractLsb'_append_eq_of_add_le] <;> simp

theorem sysw (d : BitVec 6) (a : BitVec 6) (cw : BitVec 12) : Statement (.sysw d a cw) := by
  intro hw op he
  have he : some 417#10 = some op := he
  cases he
  have hb : Instr.body (.sysw d a cw) = fsys d a cw := rfl
  have hr (x : Body) : readBody ((417#10).toNat / 128) ((417#10).toNat % 128) x = some (Instr.sysw (x.g 40) (x.g 34) (x.f 22 12)) := rfl
  rw [hb, hr]
  simp (disch := decide) only [fsys_g40, fsys_g34, fsys_f22_12, BitVec.extractLsb'_append_eq_of_le, BitVec.extractLsb'_append_eq_of_add_le] <;> simp

theorem resume (a : BitVec 6) (b : BitVec 6) : Statement (.resume a b) := by
  intro hw op he
  have he : some 418#10 = some op := he
  cases he
  have hb : Instr.body (.resume a b) = fg3 0#6 a b 0#6 0#6 := rfl
  have hr (x : Body) : readBody ((418#10).toNat / 128) ((418#10).toNat % 128) x = some (Instr.resume (x.g 34) (x.g 28)) := rfl
  rw [hb, hr]
  simp (disch := decide) only [fg3_g34, fg3_g28, BitVec.extractLsb'_append_eq_of_le, BitVec.extractLsb'_append_eq_of_add_le] <;> simp

theorem halt : Statement (.halt) := by
  intro hw op he
  have he : some 419#10 = some op := he
  cases he
  have hb : Instr.body (.halt) = fg3 0#6 0#6 0#6 0#6 0#6 := rfl
  have hr (x : Body) : readBody ((419#10).toNat / 128) ((419#10).toNat % 128) x = some Instr.halt := rfl
  rw [hb, hr]

theorem tlbi (k : TlbK) (a : BitVec 6) (b : BitVec 6) : Statement (.tlbi k a b) := by
  intro hw op he
  have he : some 420#10 = some op := he
  cases he
  have hb : Instr.body (.tlbi k a b) = fg3 0#6 a b 0#6 (0#4 ++ k.code) := rfl
  have hr (x : Body) : readBody ((420#10).toNat / 128) ((420#10).toNat % 128) x = (TlbK.ofCode (x.f 16 2)).map fun k => Instr.tlbi k (x.g 34) (x.g 28) := rfl
  rw [hb, hr]
  simp (disch := decide) only [fg3_f16_2, fg3_g34, fg3_g28, BitVec.extractLsb'_append_eq_of_le, BitVec.extractLsb'_append_eq_of_add_le, part_4_30_f30, part_4_30_f0, part_4_2_f0, part_4_16_f0, part_4_16_f16] <;> simp

theorem dbgbrk (i : BitVec 16) : Statement (.dbgbrk i) := by
  intro hw op he
  have he : some 421#10 = some op := he
  cases he
  have hb : Instr.body (.dbgbrk i) = fgi 0#6 0#6 (0#18 ++ i) := rfl
  have hr (x : Body) : readBody ((421#10).toNat / 128) ((421#10).toNat % 128) x = some (Instr.dbgbrk (x.f 0 16)) := rfl
  rw [hb, hr]
  simp (disch := decide) only [fgi_f0_16, BitVec.extractLsb'_append_eq_of_le, BitVec.extractLsb'_append_eq_of_add_le, part_18_16_f0] <;> simp

theorem mill (acc : BitVec 3) (c : MillC) (fA : Fmt) (fB : Fmt) (ma : BitVec 4) (mb : BitVec 4) (s : BitVec 3) (m : AccM) (nf : BitVec 4) : Statement (.mill acc c fA fB ma mb s m nf) := by
  intro hw op he
  have he : some 512#10 = some op := he
  cases he
  have hb : Instr.body (.mill acc c fA fB ma mb s m nf) = fmill acc c.mode fA.code fB.code c.fcode ma c.mcField mb c.mnField s m.code nf := rfl
  have hr (x : Body) : readBody ((512#10).toNat / 128) ((512#10).toNat % 128) x = (Fmt.ofCode (x.f 35 5)).bind fun fA => (Fmt.ofCode (x.f 30 5)).bind fun fB => (AccM.ofCode (x.f 4 2)).bind fun m => (MillC.ofCode (x.f 40 3) (x.f 25 5) (x.f 17 4) (x.f 9 4)).map fun c => Instr.mill (x.f 43 3) c fA fB (x.f 21 4) (x.f 13 4) (x.f 6 3) m (x.f 0 4) := rfl
  rw [hb, hr]
  simp (disch := decide) only [fmill_f35_5, fmill_f30_5, fmill_f4_2, fmill_f40_3, fmill_f25_5, fmill_f17_4, fmill_f9_4, fmill_f43_3, fmill_f21_4, fmill_f13_4, fmill_f6_3, fmill_f0_4, BitVec.extractLsb'_append_eq_of_le, BitVec.extractLsb'_append_eq_of_add_le, MillC.ofCode_fields] <;> simp

theorem millg (acc : BitVec 3) (c : MillC) (fA : Fmt) (fB : Fmt) (ma : BitVec 4) (mb : BitVec 4) (w : BitVec 2) (s : BitVec 3) (m : AccM) (nf : BitVec 4) : Statement (.millg acc c fA fB ma mb w s m nf) := by
  intro hw op he
  have he : some 513#10 = some op := he
  cases he
  have hb : Instr.body (.millg acc c fA fB ma mb w s m nf) = fmill acc c.mode fA.code fB.code c.fcode ma c.mcField mb (0#2 ++ w) s m.code nf := rfl
  have hr (x : Body) : readBody ((513#10).toNat / 128) ((513#10).toNat % 128) x = (Fmt.ofCode (x.f 35 5)).bind fun fA => (Fmt.ofCode (x.f 30 5)).bind fun fB => (AccM.ofCode (x.f 4 2)).bind fun m => (MillC.ofCode (x.f 40 3) (x.f 25 5) (x.f 17 4) 0#4).map fun c => Instr.millg (x.f 43 3) c fA fB (x.f 21 4) (x.f 13 4) (x.f 9 2) (x.f 6 3) m (x.f 0 4) := rfl
  rw [hb, hr]
  simp (disch := decide) only [fmill_f35_5, fmill_f30_5, fmill_f4_2, fmill_f40_3, fmill_f25_5, fmill_f17_4, fmill_f43_3, fmill_f21_4, fmill_f13_4, fmill_f9_2, fmill_f6_3, fmill_f0_4, BitVec.extractLsb'_append_eq_of_le, BitVec.extractLsb'_append_eq_of_add_le, part_2_4_f0, part_2_2_f0, part_2_18_f0, part_2_18_f18, part_2_7_f7, MillC.ofCode_gang c (by simp [Instr.wf] at hw; exact hw.1.1.1)] <;> simp

theorem millx (acc : BitVec 3) (c : MillC) (fA : Fmt) (fB : Fmt) (ma : BitVec 4) (mb : BitVec 4) (o : BitVec 4) (s : BitVec 3) (m : AccM) (nf : BitVec 4) : Statement (.millx acc c fA fB ma mb o s m nf) := by
  intro hw op he
  have he : some 514#10 = some op := he
  cases he
  have hb : Instr.body (.millx acc c fA fB ma mb o s m nf) = fmill acc c.modeGrouped fA.code fB.code c.fcode ma c.mcField mb o s m.code nf := rfl
  have hr (x : Body) : readBody ((514#10).toNat / 128) ((514#10).toNat % 128) x = (Fmt.ofCode (x.f 35 5)).bind fun fA => (Fmt.ofCode (x.f 30 5)).bind fun fB => (AccM.ofCode (x.f 4 2)).bind fun m => (MillC.ofCodeGrouped (x.f 40 3) (x.f 25 5) (x.f 17 4)).map fun c => Instr.millx (x.f 43 3) c fA fB (x.f 21 4) (x.f 13 4) (x.f 9 4) (x.f 6 3) m (x.f 0 4) := rfl
  rw [hb, hr]
  simp (disch := decide) only [fmill_f35_5, fmill_f30_5, fmill_f4_2, fmill_f40_3, fmill_f25_5, fmill_f17_4, fmill_f43_3, fmill_f21_4, fmill_f13_4, fmill_f9_4, fmill_f6_3, fmill_f0_4, BitVec.extractLsb'_append_eq_of_le, BitVec.extractLsb'_append_eq_of_add_le, MillC.ofCodeGrouped_fields c (by simp [Instr.wf] at hw; exact hw.1.1)] <;> simp

theorem mzero (acc : BitVec 3) (nf : BitVec 4) : Statement (.mzero acc nf) := by
  intro hw op he
  have he : some 515#10 = some op := he
  cases he
  have hb : Instr.body (.mzero acc nf) = fmill acc 0#3 0#5 0#5 0#5 0#4 0#4 0#4 0#4 0#3 0#2 nf := rfl
  have hr (x : Body) : readBody ((515#10).toNat / 128) ((515#10).toNat % 128) x = some (Instr.mzero (x.f 43 3) (x.f 0 4)) := rfl
  rw [hb, hr]
  simp (disch := decide) only [fmill_f43_3, fmill_f0_4, BitVec.extractLsb'_append_eq_of_le, BitVec.extractLsb'_append_eq_of_add_le] <;> simp

theorem mdrain (d : BitVec 11) (k : BitVec 3) (nf : BitVec 4) : Statement (.mdrain d k nf) := by
  intro hw op he
  have he : some 516#10 = some op := he
  cases he
  have hb : Instr.body (.mdrain d k nf) = fv3 d (0#8 ++ k) 0#11 0#3 0#3 0#3 nf := rfl
  have hr (x : Body) : readBody ((516#10).toNat / 128) ((516#10).toNat % 128) x = some (Instr.mdrain (x.f 35 11) (x.f 24 3) (x.f 0 4)) := rfl
  rw [hb, hr]
  simp (disch := decide) only [fv3_f35_11, fv3_f24_3, fv3_f0_4, BitVec.extractLsb'_append_eq_of_le, BitVec.extractLsb'_append_eq_of_add_le, part_8_3_f0] <;> simp

theorem mseta (d : BitVec 4) (a : BitVec 11) (nf : BitVec 4) : Statement (.mseta d a nf) := by
  intro hw op he
  have he : some 517#10 = some op := he
  cases he
  have hb : Instr.body (.mseta d a nf) = fv3 (0#7 ++ d) a 0#11 0#3 0#3 0#3 nf := rfl
  have hr (x : Body) : readBody ((517#10).toNat / 128) ((517#10).toNat % 128) x = some (Instr.mseta (x.f 35 4) (x.f 24 11) (x.f 0 4)) := rfl
  rw [hb, hr]
  simp (disch := decide) only [fv3_f35_4, fv3_f24_11, fv3_f0_4, BitVec.extractLsb'_append_eq_of_le, BitVec.extractLsb'_append_eq_of_add_le, part_7_4_f0] <;> simp

theorem msetb (d : BitVec 4) (a : BitVec 11) (nf : BitVec 4) : Statement (.msetb d a nf) := by
  intro hw op he
  have he : some 518#10 = some op := he
  cases he
  have hb : Instr.body (.msetb d a nf) = fv3 (0#7 ++ d) a 0#11 0#3 0#3 0#3 nf := rfl
  have hr (x : Body) : readBody ((518#10).toNat / 128) ((518#10).toNat % 128) x = some (Instr.msetb (x.f 35 4) (x.f 24 11) (x.f 0 4)) := rfl
  rw [hb, hr]
  simp (disch := decide) only [fv3_f35_4, fv3_f24_11, fv3_f0_4, BitVec.extractLsb'_append_eq_of_le, BitVec.extractLsb'_append_eq_of_add_le, part_7_4_f0] <;> simp

theorem midx (a : BitVec 11) (nf : BitVec 4) : Statement (.midx a nf) := by
  intro hw op he
  have he : some 519#10 = some op := he
  cases he
  have hb : Instr.body (.midx a nf) = fv3 0#11 a 0#11 0#3 0#3 0#3 nf := rfl
  have hr (x : Body) : readBody ((519#10).toNat / 128) ((519#10).toNat % 128) x = some (Instr.midx (x.f 24 11) (x.f 0 4)) := rfl
  rw [hb, hr]
  simp (disch := decide) only [fv3_f24_11, fv3_f0_4, BitVec.extractLsb'_append_eq_of_le, BitVec.extractLsb'_append_eq_of_add_le] <;> simp

theorem vadd (ty : VTy) (v : VArgs) : Statement (.vadd ty v) := by
  intro hw op he
  have he : some 640#10 = some op := he
  cases he
  have hb : Instr.body (.vadd ty v) = v.body ty.code := rfl
  have hr (x : Body) : readBody ((640#10).toNat / 128) ((640#10).toNat % 128) x = (VTy.ofCode (x.f 4 3)).bind fun ty => (VArgs.ofBody x).map fun v => Instr.vadd ty v := rfl
  rw [hb, hr]
  simp (disch := decide) only [VArgs.ofBody_body, VArgs.body_ty, VTy.ofCode_code, Option.map_some, Option.bind_some, BitVec.extractLsb'_append_eq_of_le, BitVec.extractLsb'_append_eq_of_add_le] <;> simp

theorem vsub (ty : VTy) (v : VArgs) : Statement (.vsub ty v) := by
  intro hw op he
  have he : some 641#10 = some op := he
  cases he
  have hb : Instr.body (.vsub ty v) = v.body ty.code := rfl
  have hr (x : Body) : readBody ((641#10).toNat / 128) ((641#10).toNat % 128) x = (VTy.ofCode (x.f 4 3)).bind fun ty => (VArgs.ofBody x).map fun v => Instr.vsub ty v := rfl
  rw [hb, hr]
  simp (disch := decide) only [VArgs.ofBody_body, VArgs.body_ty, VTy.ofCode_code, Option.map_some, Option.bind_some, BitVec.extractLsb'_append_eq_of_le, BitVec.extractLsb'_append_eq_of_add_le] <;> simp

theorem vmul (ty : VTy) (v : VArgs) : Statement (.vmul ty v) := by
  intro hw op he
  have he : some 642#10 = some op := he
  cases he
  have hb : Instr.body (.vmul ty v) = v.body ty.code := rfl
  have hr (x : Body) : readBody ((642#10).toNat / 128) ((642#10).toNat % 128) x = (VTy.ofCode (x.f 4 3)).bind fun ty => (VArgs.ofBody x).map fun v => Instr.vmul ty v := rfl
  rw [hb, hr]
  simp (disch := decide) only [VArgs.ofBody_body, VArgs.body_ty, VTy.ofCode_code, Option.map_some, Option.bind_some, BitVec.extractLsb'_append_eq_of_le, BitVec.extractLsb'_append_eq_of_add_le] <;> simp

theorem vfma (ty : VTy) (v : VArgs) : Statement (.vfma ty v) := by
  intro hw op he
  have he : some 643#10 = some op := he
  cases he
  have hb : Instr.body (.vfma ty v) = v.body ty.code := rfl
  have hr (x : Body) : readBody ((643#10).toNat / 128) ((643#10).toNat % 128) x = (VTy.ofCode (x.f 4 3)).bind fun ty => (VArgs.ofBody x).map fun v => Instr.vfma ty v := rfl
  rw [hb, hr]
  simp (disch := decide) only [VArgs.ofBody_body, VArgs.body_ty, VTy.ofCode_code, Option.map_some, Option.bind_some, BitVec.extractLsb'_append_eq_of_le, BitVec.extractLsb'_append_eq_of_add_le] <;> simp

theorem vmin (ty : VTy) (v : VArgs) : Statement (.vmin ty v) := by
  intro hw op he
  have he : some 644#10 = some op := he
  cases he
  have hb : Instr.body (.vmin ty v) = v.body ty.code := rfl
  have hr (x : Body) : readBody ((644#10).toNat / 128) ((644#10).toNat % 128) x = (VTy.ofCode (x.f 4 3)).bind fun ty => (VArgs.ofBody x).map fun v => Instr.vmin ty v := rfl
  rw [hb, hr]
  simp (disch := decide) only [VArgs.ofBody_body, VArgs.body_ty, VTy.ofCode_code, Option.map_some, Option.bind_some, BitVec.extractLsb'_append_eq_of_le, BitVec.extractLsb'_append_eq_of_add_le] <;> simp

theorem vmax (ty : VTy) (v : VArgs) : Statement (.vmax ty v) := by
  intro hw op he
  have he : some 645#10 = some op := he
  cases he
  have hb : Instr.body (.vmax ty v) = v.body ty.code := rfl
  have hr (x : Body) : readBody ((645#10).toNat / 128) ((645#10).toNat % 128) x = (VTy.ofCode (x.f 4 3)).bind fun ty => (VArgs.ofBody x).map fun v => Instr.vmax ty v := rfl
  rw [hb, hr]
  simp (disch := decide) only [VArgs.ofBody_body, VArgs.body_ty, VTy.ofCode_code, Option.map_some, Option.bind_some, BitVec.extractLsb'_append_eq_of_le, BitVec.extractLsb'_append_eq_of_add_le] <;> simp

theorem vand (ty : VTy) (v : VArgs) : Statement (.vand ty v) := by
  intro hw op he
  have he : some 646#10 = some op := he
  cases he
  have hb : Instr.body (.vand ty v) = v.body ty.code := rfl
  have hr (x : Body) : readBody ((646#10).toNat / 128) ((646#10).toNat % 128) x = (VTy.ofCode (x.f 4 3)).bind fun ty => (VArgs.ofBody x).map fun v => Instr.vand ty v := rfl
  rw [hb, hr]
  simp (disch := decide) only [VArgs.ofBody_body, VArgs.body_ty, VTy.ofCode_code, Option.map_some, Option.bind_some, BitVec.extractLsb'_append_eq_of_le, BitVec.extractLsb'_append_eq_of_add_le] <;> simp

theorem vor (ty : VTy) (v : VArgs) : Statement (.vor ty v) := by
  intro hw op he
  have he : some 647#10 = some op := he
  cases he
  have hb : Instr.body (.vor ty v) = v.body ty.code := rfl
  have hr (x : Body) : readBody ((647#10).toNat / 128) ((647#10).toNat % 128) x = (VTy.ofCode (x.f 4 3)).bind fun ty => (VArgs.ofBody x).map fun v => Instr.vor ty v := rfl
  rw [hb, hr]
  simp (disch := decide) only [VArgs.ofBody_body, VArgs.body_ty, VTy.ofCode_code, Option.map_some, Option.bind_some, BitVec.extractLsb'_append_eq_of_le, BitVec.extractLsb'_append_eq_of_add_le] <;> simp

theorem vxor (ty : VTy) (v : VArgs) : Statement (.vxor ty v) := by
  intro hw op he
  have he : some 648#10 = some op := he
  cases he
  have hb : Instr.body (.vxor ty v) = v.body ty.code := rfl
  have hr (x : Body) : readBody ((648#10).toNat / 128) ((648#10).toNat % 128) x = (VTy.ofCode (x.f 4 3)).bind fun ty => (VArgs.ofBody x).map fun v => Instr.vxor ty v := rfl
  rw [hb, hr]
  simp (disch := decide) only [VArgs.ofBody_body, VArgs.body_ty, VTy.ofCode_code, Option.map_some, Option.bind_some, BitVec.extractLsb'_append_eq_of_le, BitVec.extractLsb'_append_eq_of_add_le] <;> simp

theorem vshl (ty : VTy) (v : VArgs) : Statement (.vshl ty v) := by
  intro hw op he
  have he : some 649#10 = some op := he
  cases he
  have hb : Instr.body (.vshl ty v) = v.body ty.code := rfl
  have hr (x : Body) : readBody ((649#10).toNat / 128) ((649#10).toNat % 128) x = (VTy.ofCode (x.f 4 3)).bind fun ty => (VArgs.ofBody x).map fun v => Instr.vshl ty v := rfl
  rw [hb, hr]
  simp (disch := decide) only [VArgs.ofBody_body, VArgs.body_ty, VTy.ofCode_code, Option.map_some, Option.bind_some, BitVec.extractLsb'_append_eq_of_le, BitVec.extractLsb'_append_eq_of_add_le] <;> simp

theorem vshr (ty : VTy) (v : VArgs) : Statement (.vshr ty v) := by
  intro hw op he
  have he : some 650#10 = some op := he
  cases he
  have hb : Instr.body (.vshr ty v) = v.body ty.code := rfl
  have hr (x : Body) : readBody ((650#10).toNat / 128) ((650#10).toNat % 128) x = (VTy.ofCode (x.f 4 3)).bind fun ty => (VArgs.ofBody x).map fun v => Instr.vshr ty v := rfl
  rw [hb, hr]
  simp (disch := decide) only [VArgs.ofBody_body, VArgs.body_ty, VTy.ofCode_code, Option.map_some, Option.bind_some, BitVec.extractLsb'_append_eq_of_le, BitVec.extractLsb'_append_eq_of_add_le] <;> simp

theorem vsra (ty : VTy) (v : VArgs) : Statement (.vsra ty v) := by
  intro hw op he
  have he : some 651#10 = some op := he
  cases he
  have hb : Instr.body (.vsra ty v) = v.body ty.code := rfl
  have hr (x : Body) : readBody ((651#10).toNat / 128) ((651#10).toNat % 128) x = (VTy.ofCode (x.f 4 3)).bind fun ty => (VArgs.ofBody x).map fun v => Instr.vsra ty v := rfl
  rw [hb, hr]
  simp (disch := decide) only [VArgs.ofBody_body, VArgs.body_ty, VTy.ofCode_code, Option.map_some, Option.bind_some, BitVec.extractLsb'_append_eq_of_le, BitVec.extractLsb'_append_eq_of_add_le] <;> simp

theorem vcmp (ty : VTy) (v : VArgs) : Statement (.vcmp ty v) := by
  intro hw op he
  have he : some 652#10 = some op := he
  cases he
  have hb : Instr.body (.vcmp ty v) = v.body ty.code := rfl
  have hr (x : Body) : readBody ((652#10).toNat / 128) ((652#10).toNat % 128) x = (VTy.ofCode (x.f 4 3)).bind fun ty => (VArgs.ofBody x).map fun v => Instr.vcmp ty v := rfl
  rw [hb, hr]
  simp (disch := decide) only [VArgs.ofBody_body, VArgs.body_ty, VTy.ofCode_code, Option.map_some, Option.bind_some, BitVec.extractLsb'_append_eq_of_le, BitVec.extractLsb'_append_eq_of_add_le] <;> simp

theorem vsel (ty : VTy) (v : VArgs) : Statement (.vsel ty v) := by
  intro hw op he
  have he : some 653#10 = some op := he
  cases he
  have hb : Instr.body (.vsel ty v) = v.body ty.code := rfl
  have hr (x : Body) : readBody ((653#10).toNat / 128) ((653#10).toNat % 128) x = (VTy.ofCode (x.f 4 3)).bind fun ty => (VArgs.ofBody x).map fun v => Instr.vsel ty v := rfl
  rw [hb, hr]
  simp (disch := decide) only [VArgs.ofBody_body, VArgs.body_ty, VTy.ofCode_code, Option.map_some, Option.bind_some, BitVec.extractLsb'_append_eq_of_le, BitVec.extractLsb'_append_eq_of_add_le] <;> simp

theorem vcvt (ty : VTy) (w : Bool) (rm : Rm) (f : Fmt) (v : VArgs1) : Statement (.vcvt ty w rm f v) := by
  intro hw op he
  have he : some 654#10 = some op := he
  cases he
  have hb : Instr.body (.vcvt ty w rm f v) = v.body ty.code (0#2 ++ BitVec.ofBool w ++ rm.code ++ f.code) := rfl
  have hr (x : Body) : readBody ((654#10).toNat / 128) ((654#10).toNat % 128) x = (VTy.ofCode (x.f 4 3)).bind fun ty => (Rm.ofCode (x.f 18 3)).bind fun rm => (Fmt.ofCode (x.f 13 5)).bind fun f => (VArgs1.ofBody x).map fun v => Instr.vcvt ty (x.bit 21) rm f v := rfl
  rw [hb, hr]
  simp (disch := decide) only [VArgs1.ofBody_body, VArgs1.body_ty, VTy.ofCode_code, Option.map_some, Option.bind_some, VArgs1.body_f18_3, VArgs1.body_f13_5, VArgs1.body_bit21, BitVec.extractLsb'_append_eq_of_le, BitVec.extractLsb'_append_eq_of_add_le, part_2_b_3_5_f0, part_2_b_3_5_f5, part_2_b_3_5_bit8] <;> simp

theorem vpack (f : Fmt) (d : BitVec 11) (a : BitVec 11) (nf : BitVec 4) : Statement (.vpack f d a nf) := by
  intro hw op he
  have he : some 655#10 = some op := he
  cases he
  have hb : Instr.body (.vpack f d a nf) = fv3 d a (0#6 ++ f.code) 0#3 0#3 0#3 nf := rfl
  have hr (x : Body) : readBody ((655#10).toNat / 128) ((655#10).toNat % 128) x = (Fmt.ofCode (x.f 13 5)).map fun f => Instr.vpack f (x.f 35 11) (x.f 24 11) (x.f 0 4) := rfl
  rw [hb, hr]
  simp (disch := decide) only [fv3_f13_5, fv3_f35_11, fv3_f24_11, fv3_f0_4, BitVec.extractLsb'_append_eq_of_le, BitVec.extractLsb'_append_eq_of_add_le, part_6_3_f0, part_6_5_f0, part_6_28_f0, part_6_28_f28] <;> simp

theorem vunpk (f : Fmt) (d : BitVec 11) (a : BitVec 11) (nf : BitVec 4) : Statement (.vunpk f d a nf) := by
  intro hw op he
  have he : some 656#10 = some op := he
  cases he
  have hb : Instr.body (.vunpk f d a nf) = fv3 d a (0#6 ++ f.code) 0#3 0#3 0#3 nf := rfl
  have hr (x : Body) : readBody ((656#10).toNat / 128) ((656#10).toNat % 128) x = (Fmt.ofCode (x.f 13 5)).map fun f => Instr.vunpk f (x.f 35 11) (x.f 24 11) (x.f 0 4) := rfl
  rw [hb, hr]
  simp (disch := decide) only [fv3_f13_5, fv3_f35_11, fv3_f24_11, fv3_f0_4, BitVec.extractLsb'_append_eq_of_le, BitVec.extractLsb'_append_eq_of_add_le, part_6_3_f0, part_6_5_f0, part_6_28_f0, part_6_28_f28] <;> simp

theorem vexp2 (ty : VTy) (v : VArgs1) : Statement (.vexp2 ty v) := by
  intro hw op he
  have he : some 657#10 = some op := he
  cases he
  have hb : Instr.body (.vexp2 ty v) = v.body ty.code 0#11 := rfl
  have hr (x : Body) : readBody ((657#10).toNat / 128) ((657#10).toNat % 128) x = (VTy.ofCode (x.f 4 3)).bind fun ty => (VArgs1.ofBody x).map fun v => Instr.vexp2 ty v := rfl
  rw [hb, hr]
  simp (disch := decide) only [VArgs1.ofBody_body, VArgs1.body_ty, VTy.ofCode_code, Option.map_some, Option.bind_some, BitVec.extractLsb'_append_eq_of_le, BitVec.extractLsb'_append_eq_of_add_le] <;> simp

theorem vlog2 (ty : VTy) (v : VArgs1) : Statement (.vlog2 ty v) := by
  intro hw op he
  have he : some 658#10 = some op := he
  cases he
  have hb : Instr.body (.vlog2 ty v) = v.body ty.code 0#11 := rfl
  have hr (x : Body) : readBody ((658#10).toNat / 128) ((658#10).toNat % 128) x = (VTy.ofCode (x.f 4 3)).bind fun ty => (VArgs1.ofBody x).map fun v => Instr.vlog2 ty v := rfl
  rw [hb, hr]
  simp (disch := decide) only [VArgs1.ofBody_body, VArgs1.body_ty, VTy.ofCode_code, Option.map_some, Option.bind_some, BitVec.extractLsb'_append_eq_of_le, BitVec.extractLsb'_append_eq_of_add_le] <;> simp

theorem vrcp (ty : VTy) (v : VArgs1) : Statement (.vrcp ty v) := by
  intro hw op he
  have he : some 659#10 = some op := he
  cases he
  have hb : Instr.body (.vrcp ty v) = v.body ty.code 0#11 := rfl
  have hr (x : Body) : readBody ((659#10).toNat / 128) ((659#10).toNat % 128) x = (VTy.ofCode (x.f 4 3)).bind fun ty => (VArgs1.ofBody x).map fun v => Instr.vrcp ty v := rfl
  rw [hb, hr]
  simp (disch := decide) only [VArgs1.ofBody_body, VArgs1.body_ty, VTy.ofCode_code, Option.map_some, Option.bind_some, BitVec.extractLsb'_append_eq_of_le, BitVec.extractLsb'_append_eq_of_add_le] <;> simp

theorem vrsq (ty : VTy) (v : VArgs1) : Statement (.vrsq ty v) := by
  intro hw op he
  have he : some 660#10 = some op := he
  cases he
  have hb : Instr.body (.vrsq ty v) = v.body ty.code 0#11 := rfl
  have hr (x : Body) : readBody ((660#10).toNat / 128) ((660#10).toNat % 128) x = (VTy.ofCode (x.f 4 3)).bind fun ty => (VArgs1.ofBody x).map fun v => Instr.vrsq ty v := rfl
  rw [hb, hr]
  simp (disch := decide) only [VArgs1.ofBody_body, VArgs1.body_ty, VTy.ofCode_code, Option.map_some, Option.bind_some, BitVec.extractLsb'_append_eq_of_le, BitVec.extractLsb'_append_eq_of_add_le] <;> simp

theorem vred (ty : VTy) (op : RedOp) (v : VArgs1) : Statement (.vred ty op v) := by
  intro hw op he
  have he : some 661#10 = some op := he
  cases he
  have hb : Instr.body (.vred ty op v) = v.body ty.code (0#9 ++ op.code) := rfl
  have hr (x : Body) : readBody ((661#10).toNat / 128) ((661#10).toNat % 128) x = (VTy.ofCode (x.f 4 3)).bind fun ty => (RedOp.ofCode (x.f 13 2)).bind fun op => (VArgs1.ofBody x).map fun v => Instr.vred ty op v := rfl
  rw [hb, hr]
  simp (disch := decide) only [VArgs1.ofBody_body, VArgs1.body_ty, VTy.ofCode_code, Option.map_some, Option.bind_some, VArgs1.body_f13_2, BitVec.extractLsb'_append_eq_of_le, BitVec.extractLsb'_append_eq_of_add_le, part_9_2_f0] <;> simp

theorem vscan (ty : VTy) (op : RedOp) (ex : Bool) (v : VArgs1) : Statement (.vscan ty op ex v) := by
  intro hw op he
  have he : some 662#10 = some op := he
  cases he
  have hb : Instr.body (.vscan ty op ex v) = v.body ty.code (0#8 ++ BitVec.ofBool ex ++ op.code) := rfl
  have hr (x : Body) : readBody ((662#10).toNat / 128) ((662#10).toNat % 128) x = (VTy.ofCode (x.f 4 3)).bind fun ty => (RedOp.ofCode (x.f 13 2)).bind fun op => (VArgs1.ofBody x).map fun v => Instr.vscan ty op (x.bit 15) v := rfl
  rw [hb, hr]
  simp (disch := decide) only [VArgs1.ofBody_body, VArgs1.body_ty, VTy.ofCode_code, Option.map_some, Option.bind_some, VArgs1.body_f13_2, VArgs1.body_bit15, BitVec.extractLsb'_append_eq_of_le, BitVec.extractLsb'_append_eq_of_add_le, part_8_b_2_f0, part_8_b_2_bit2] <;> simp

theorem vthr (v : VArgs) : Statement (.vthr v) := by
  intro hw op he
  have he : some 663#10 = some op := he
  cases he
  have hb : Instr.body (.vthr v) = v.body 0#3 := rfl
  have hr (x : Body) : readBody ((663#10).toNat / 128) ((663#10).toNat % 128) x = (VArgs.ofBody x).map fun v => Instr.vthr v := rfl
  rw [hb, hr]
  simp (disch := decide) only [VArgs.ofBody_body, VArgs.body_ty, VTy.ofCode_code, Option.map_some, Option.bind_some, BitVec.extractLsb'_append_eq_of_le, BitVec.extractLsb'_append_eq_of_add_le] <;> simp

theorem vbis (v : VArgs) : Statement (.vbis v) := by
  intro hw op he
  have he : some 664#10 = some op := he
  cases he
  have hb : Instr.body (.vbis v) = v.body 0#3 := rfl
  have hr (x : Body) : readBody ((664#10).toNat / 128) ((664#10).toNat % 128) x = (VArgs.ofBody x).map fun v => Instr.vbis v := rfl
  rw [hb, hr]
  simp (disch := decide) only [VArgs.ofBody_body, VArgs.body_ty, VTy.ofCode_code, Option.map_some, Option.bind_some, BitVec.extractLsb'_append_eq_of_le, BitVec.extractLsb'_append_eq_of_add_le] <;> simp

theorem vcnt (v : VArgs) : Statement (.vcnt v) := by
  intro hw op he
  have he : some 665#10 = some op := he
  cases he
  have hb : Instr.body (.vcnt v) = v.body 2#3 := rfl
  have hr (x : Body) : readBody ((665#10).toNat / 128) ((665#10).toNat % 128) x = (VArgs.ofBody x).map fun v => Instr.vcnt v := rfl
  rw [hb, hr]
  simp (disch := decide) only [VArgs.ofBody_body, VArgs.body_ty, VTy.ofCode_code, Option.map_some, Option.bind_some, BitVec.extractLsb'_append_eq_of_le, BitVec.extractLsb'_append_eq_of_add_le] <;> simp

theorem vperm (v : VArgs) : Statement (.vperm v) := by
  intro hw op he
  have he : some 666#10 = some op := he
  cases he
  have hb : Instr.body (.vperm v) = v.body 0#3 := rfl
  have hr (x : Body) : readBody ((666#10).toNat / 128) ((666#10).toNat % 128) x = (VArgs.ofBody x).map fun v => Instr.vperm v := rfl
  rw [hb, hr]
  simp (disch := decide) only [VArgs.ofBody_body, VArgs.body_ty, VTy.ofCode_code, Option.map_some, Option.bind_some, BitVec.extractLsb'_append_eq_of_le, BitVec.extractLsb'_append_eq_of_add_le] <;> simp

theorem vrot (n : BitVec 5) (v : VArgs1) : Statement (.vrot n v) := by
  intro hw op he
  have he : some 667#10 = some op := he
  cases he
  have hb : Instr.body (.vrot n v) = v.body 0#3 (0#6 ++ n) := rfl
  have hr (x : Body) : readBody ((667#10).toNat / 128) ((667#10).toNat % 128) x = (VArgs1.ofBody x).map fun v => Instr.vrot (x.f 13 5) v := rfl
  rw [hb, hr]
  simp (disch := decide) only [VArgs1.ofBody_body, VArgs1.body_ty, VTy.ofCode_code, Option.map_some, Option.bind_some, VArgs1.body_f13_5, BitVec.extractLsb'_append_eq_of_le, BitVec.extractLsb'_append_eq_of_add_le, part_6_3_f0, part_6_5_f0, part_6_28_f0, part_6_28_f28] <;> simp

theorem vbc (n : BitVec 5) (v : VArgs1) : Statement (.vbc n v) := by
  intro hw op he
  have he : some 668#10 = some op := he
  cases he
  have hb : Instr.body (.vbc n v) = v.body 0#3 (0#6 ++ n) := rfl
  have hr (x : Body) : readBody ((668#10).toNat / 128) ((668#10).toNat % 128) x = (VArgs1.ofBody x).map fun v => Instr.vbc (x.f 13 5) v := rfl
  rw [hb, hr]
  simp (disch := decide) only [VArgs1.ofBody_body, VArgs1.body_ty, VTy.ofCode_code, Option.map_some, Option.bind_some, VArgs1.body_f13_5, BitVec.extractLsb'_append_eq_of_le, BitVec.extractLsb'_append_eq_of_add_le, part_6_3_f0, part_6_5_f0, part_6_28_f0, part_6_28_f28] <;> simp

theorem vmov (v : VArgs1) : Statement (.vmov v) := by
  intro hw op he
  have he : some 669#10 = some op := he
  cases he
  have hb : Instr.body (.vmov v) = v.body 0#3 0#11 := rfl
  have hr (x : Body) : readBody ((669#10).toNat / 128) ((669#10).toNat % 128) x = (VArgs1.ofBody x).map fun v => Instr.vmov v := rfl
  rw [hb, hr]
  simp (disch := decide) only [VArgs1.ofBody_body, VArgs1.body_ty, VTy.ofCode_code, Option.map_some, Option.bind_some, BitVec.extractLsb'_append_eq_of_le, BitVec.extractLsb'_append_eq_of_add_le] <;> simp

theorem vli (hi : Bool) (lane : Option (BitVec 5)) (d : BitVec 11) (imm : BitVec 20) (nf : BitVec 4) : Statement (.vli hi lane d imm nf) := by
  intro hw op he
  have he : some 670#10 = some op := he
  cases he
  have hb : Instr.body (.vli hi lane d imm nf) = fvi d (0#4 ++ BitVec.ofBool hi ++ laneField lane) imm nf := rfl
  have hr (x : Body) : readBody ((670#10).toNat / 128) ((670#10).toNat % 128) x = some (Instr.vli (x.bit 30) (laneOf (x.f 24 6)) (x.f 35 11) (x.f 4 20) (x.f 0 4)) := rfl
  rw [hb, hr]
  simp (disch := decide) only [fvi_bit30, fvi_f24_6, fvi_f35_11, fvi_f4_20, fvi_f0_4, BitVec.extractLsb'_append_eq_of_le, BitVec.extractLsb'_append_eq_of_add_le, part_4_b_1_f0, part_4_b_1_bit1, part_4_b_6_f0, part_4_b_6_bit6] <;> simp

theorem vld (d : BitVec 11) (a : BitVec 11) (o : BitVec 18) (nf : BitVec 4) : Statement (.vld d a o nf) := by
  intro hw op he
  have he : some 671#10 = some op := he
  cases he
  have hb : Instr.body (.vld d a o nf) = fvi d a (0#2 ++ o) nf := rfl
  have hr (x : Body) : readBody ((671#10).toNat / 128) ((671#10).toNat % 128) x = some (Instr.vld (x.f 35 11) (x.f 24 11) (x.f 4 18) (x.f 0 4)) := rfl
  rw [hb, hr]
  simp (disch := decide) only [fvi_f35_11, fvi_f24_11, fvi_f4_18, fvi_f0_4, BitVec.extractLsb'_append_eq_of_le, BitVec.extractLsb'_append_eq_of_add_le, part_2_4_f0, part_2_2_f0, part_2_18_f0, part_2_18_f18, part_2_7_f7] <;> simp

theorem vst (p : BitVec 2) (d : BitVec 11) (a : BitVec 11) (o : BitVec 18) (nf : BitVec 4) : Statement (.vst p d a o nf) := by
  intro hw op he
  have he : some 672#10 = some op := he
  cases he
  have hb : Instr.body (.vst p d a o nf) = fvi d a (p ++ o) nf := rfl
  have hr (x : Body) : readBody ((672#10).toNat / 128) ((672#10).toNat % 128) x = some (Instr.vst (x.f 22 2) (x.f 35 11) (x.f 24 11) (x.f 4 18) (x.f 0 4)) := rfl
  rw [hb, hr]
  simp (disch := decide) only [fvi_f22_2, fvi_f35_11, fvi_f24_11, fvi_f4_18, fvi_f0_4, BitVec.extractLsb'_append_eq_of_le, BitVec.extractLsb'_append_eq_of_add_le, part_2_4_f0, part_4_30_f30, part_4_30_f0, part_3_3_f0, part_1_5_f0, part_5_1_f0, part_6_3_f0, part_5_4_f0, part_4_2_f0, part_4_16_f0, part_4_16_f16, part_2_2_f0, part_28_6_f0, part_26_8_f0, part_18_16_f0, part_8_3_f0, part_7_4_f0, part_6_5_f0, part_9_2_f0, part_2_18_f0, part_2_18_f18, part_3_6_f0, part_2_7_f7, part_6_28_f0, part_6_28_f28] <;> simp

theorem sld (p : BitVec 2) (sx : BitVec 6) (g : BitVec 6) (n : BitVec 12) (nf : BitVec 4) : Statement (.sld p sx g n nf) := by
  intro hw op he
  have he : some 768#10 = some op := he
  cases he
  have hb : Instr.body (.sld p sx g n nf) = fstrm sx 0#6 n 0#4 0#5 (p ++ 0#1 ++ g) nf := rfl
  have hr (x : Body) : readBody ((768#10).toNat / 128) ((768#10).toNat % 128) x = some (Instr.sld (x.f 11 2) (x.g 40) (x.g 4) (x.f 22 12) (x.f 0 4)) := rfl
  rw [hb, hr]
  simp (disch := decide) only [fstrm_f11_2, fstrm_g40, fstrm_g4, fstrm_f22_12, fstrm_f0_4, BitVec.extractLsb'_append_eq_of_le, BitVec.extractLsb'_append_eq_of_add_le, part_2_1_6_f0, part_2_1_6_f7] <;> simp

theorem sldl (sp : Bool) (sx : BitVec 6) (g : BitVec 6) (n : BitVec 12) (nf : BitVec 4) : Statement (.sldl sp sx g n nf) := by
  intro hw op he
  have he : some 769#10 = some op := he
  cases he
  have hb : Instr.body (.sldl sp sx g n nf) = fstrm sx 0#6 n 0#4 0#5 (0#2 ++ BitVec.ofBool sp ++ g) nf := rfl
  have hr (x : Body) : readBody ((769#10).toNat / 128) ((769#10).toNat % 128) x = some (Instr.sldl (x.bit 10) (x.g 40) (x.g 4) (x.f 22 12) (x.f 0 4)) := rfl
  rw [hb, hr]
  simp (disch := decide) only [fstrm_bit10, fstrm_g40, fstrm_g4, fstrm_f22_12, fstrm_f0_4, BitVec.extractLsb'_append_eq_of_le, BitVec.extractLsb'_append_eq_of_add_le, part_2_b_6_f0, part_2_b_6_bit6, part_2_b_6_f7] <;> simp

theorem sst (sx : BitVec 6) (g : BitVec 6) (n : BitVec 12) (nf : BitVec 4) : Statement (.sst sx g n nf) := by
  intro hw op he
  have he : some 770#10 = some op := he
  cases he
  have hb : Instr.body (.sst sx g n nf) = fstrm sx 0#6 n 0#4 0#5 (0#3 ++ g) nf := rfl
  have hr (x : Body) : readBody ((770#10).toNat / 128) ((770#10).toNat % 128) x = some (Instr.sst (x.g 40) (x.g 4) (x.f 22 12) (x.f 0 4)) := rfl
  rw [hb, hr]
  simp (disch := decide) only [fstrm_g40, fstrm_g4, fstrm_f22_12, fstrm_f0_4, BitVec.extractLsb'_append_eq_of_le, BitVec.extractLsb'_append_eq_of_add_le, part_3_3_f0, part_3_6_f0] <;> simp

theorem sgth (p : BitVec 2) (f : IdxFmt) (sx : BitVec 6) (g : BitVec 6) (n : BitVec 12) (nf : BitVec 4) : Statement (.sgth p f sx g n nf) := by
  intro hw op he
  have he : some 771#10 = some op := he
  cases he
  have hb : Instr.body (.sgth p f sx g n nf) = fstrm sx 0#6 n 0#4 f.code (p ++ 0#1 ++ g) nf := rfl
  have hr (x : Body) : readBody ((771#10).toNat / 128) ((771#10).toNat % 128) x = (IdxFmt.ofCode (x.f 13 5)).map fun f => Instr.sgth (x.f 11 2) f (x.g 40) (x.g 4) (x.f 22 12) (x.f 0 4) := rfl
  rw [hb, hr]
  simp (disch := decide) only [fstrm_f13_5, fstrm_f11_2, fstrm_g40, fstrm_g4, fstrm_f22_12, fstrm_f0_4, BitVec.extractLsb'_append_eq_of_le, BitVec.extractLsb'_append_eq_of_add_le, part_2_1_6_f0, part_2_1_6_f7] <;> simp

theorem ssct (f : IdxFmt) (sx : BitVec 6) (g : BitVec 6) (n : BitVec 12) (nf : BitVec 4) : Statement (.ssct f sx g n nf) := by
  intro hw op he
  have he : some 772#10 = some op := he
  cases he
  have hb : Instr.body (.ssct f sx g n nf) = fstrm sx 0#6 n 0#4 f.code (0#3 ++ g) nf := rfl
  have hr (x : Body) : readBody ((772#10).toNat / 128) ((772#10).toNat % 128) x = (IdxFmt.ofCode (x.f 13 5)).map fun f => Instr.ssct f (x.g 40) (x.g 4) (x.f 22 12) (x.f 0 4) := rfl
  rw [hb, hr]
  simp (disch := decide) only [fstrm_f13_5, fstrm_g40, fstrm_g4, fstrm_f22_12, fstrm_f0_4, BitVec.extractLsb'_append_eq_of_le, BitVec.extractLsb'_append_eq_of_add_le, part_3_3_f0, part_3_6_f0] <;> simp

theorem sxl (p : BitVec 2) (dir : Dir) (sx : BitVec 6) (n : BitVec 12) (nf : BitVec 4) : Statement (.sxl p dir sx n nf) := by
  intro hw op he
  have he : some 773#10 = some op := he
  cases he
  have hb : Instr.body (.sxl p dir sx n nf) = fstrm sx 0#6 n (0#2 ++ dir.num) 0#5 (p ++ 0#7) nf := rfl
  have hr (x : Body) : readBody ((773#10).toNat / 128) ((773#10).toNat % 128) x = some (Instr.sxl (x.f 11 2) (Dir.ofNum (x.f 18 2)) (x.g 40) (x.f 22 12) (x.f 0 4)) := rfl
  rw [hb, hr]
  simp (disch := decide) only [fstrm_f11_2, fstrm_f18_2, fstrm_g40, fstrm_f22_12, fstrm_f0_4, BitVec.extractLsb'_append_eq_of_le, BitVec.extractLsb'_append_eq_of_add_le, part_2_4_f0, part_2_2_f0, part_2_18_f0, part_2_18_f18, part_2_7_f7, part_2_7_f7] <;> simp

theorem scnt (p : BitVec 2) (dir : Dir) (sx : BitVec 6) (n : BitVec 12) (nf : BitVec 4) : Statement (.scnt p dir sx n nf) := by
  intro hw op he
  have he : some 774#10 = some op := he
  cases he
  have hb : Instr.body (.scnt p dir sx n nf) = fstrm sx 0#6 n (0#2 ++ dir.num) 0#5 (p ++ 0#7) nf := rfl
  have hr (x : Body) : readBody ((774#10).toNat / 128) ((774#10).toNat % 128) x = some (Instr.scnt (x.f 11 2) (Dir.ofNum (x.f 18 2)) (x.g 40) (x.f 22 12) (x.f 0 4)) := rfl
  rw [hb, hr]
  simp (disch := decide) only [fstrm_f11_2, fstrm_f18_2, fstrm_g40, fstrm_f22_12, fstrm_f0_4, BitVec.extractLsb'_append_eq_of_le, BitVec.extractLsb'_append_eq_of_add_le, part_2_4_f0, part_2_2_f0, part_2_18_f0, part_2_18_f18, part_2_7_f7, part_2_7_f7] <;> simp

theorem smeta (dir : Dir) (sx : BitVec 6) (n : BitVec 12) (nf : BitVec 4) : Statement (.smeta dir sx n nf) := by
  intro hw op he
  have he : some 775#10 = some op := he
  cases he
  have hb : Instr.body (.smeta dir sx n nf) = fstrm sx 0#6 n (0#2 ++ dir.num) 0#5 0#9 nf := rfl
  have hr (x : Body) : readBody ((775#10).toNat / 128) ((775#10).toNat % 128) x = some (Instr.smeta (Dir.ofNum (x.f 18 2)) (x.g 40) (x.f 22 12) (x.f 0 4)) := rfl
  rw [hb, hr]
  simp (disch := decide) only [fstrm_f18_2, fstrm_g40, fstrm_f22_12, fstrm_f0_4, BitVec.extractLsb'_append_eq_of_le, BitVec.extractLsb'_append_eq_of_add_le, part_2_4_f0, part_2_2_f0, part_2_18_f0, part_2_18_f18, part_2_7_f7] <;> simp

theorem sset (t : SsetDst) (sx : BitVec 6) (sy : BitVec 6) (n : BitVec 12) (nf : BitVec 4) : Statement (.sset t sx sy n nf) := by
  intro hw op he
  have he : some 776#10 = some op := he
  cases he
  have hb : Instr.body (.sset t sx sy n nf) = fstrm sx sy n t.dirField 0#5 t.subField nf := rfl
  have hr (x : Body) : readBody ((776#10).toNat / 128) ((776#10).toNat % 128) x = some (Instr.sset (SsetDst.ofCode (x.bit 18) (x.f 11 2) (x.bit 10)) (x.g 40) (x.g 34) (x.f 22 12) (x.f 0 4)) := rfl
  rw [hb, hr]
  simp (disch := decide) only [fstrm_bit18, fstrm_f11_2, fstrm_bit10, fstrm_g40, fstrm_g34, fstrm_f22_12, fstrm_f0_4, BitVec.extractLsb'_append_eq_of_le, BitVec.extractLsb'_append_eq_of_add_le, SsetDst.ofCode_fields] <;> simp

theorem window (pol : WinPol) (w : BitVec 4) (n : BitVec 34) : Statement (.window pol w n) := by
  intro hw op he
  have he : some 896#10 = some op := he
  cases he
  have hb : Instr.body (.window pol w n) = freeve (0#2 ++ w) (0#4 ++ pol.code) n := rfl
  have hr (x : Body) : readBody ((896#10).toNat / 128) ((896#10).toNat % 128) x = (WinPol.ofCode (x.f 34 2)).map fun p => Instr.window p (x.f 40 4) x.imm34 := rfl
  rw [hb, hr]
  simp (disch := decide) only [freeve_f34_2, freeve_f40_4, freeve_imm34, BitVec.extractLsb'_append_eq_of_le, BitVec.extractLsb'_append_eq_of_add_le, part_2_4_f0, part_2_2_f0, part_2_18_f0, part_2_18_f18, part_2_7_f7, part_4_30_f30, part_4_30_f0, part_4_2_f0, part_4_16_f0, part_4_16_f16] <;> simp

theorem pread (v : BitVec 6) (k : BitVec 6) (n : BitVec 5) : Statement (.pread v k n) := by
  intro hw op he
  have he : some 897#10 = some op := he
  cases he
  have hb : Instr.body (.pread v k n) = freeve v 0#6 (0#23 ++ n ++ k) := rfl
  have hr (x : Body) : readBody ((897#10).toNat / 128) ((897#10).toNat % 128) x = some (Instr.pread (x.g 40) (x.g 0) (x.f 6 5)) := rfl
  rw [hb, hr]
  simp (disch := decide) only [freeve_g40, freeve_g0, freeve_f6_5, BitVec.extractLsb'_append_eq_of_le, BitVec.extractLsb'_append_eq_of_add_le, part_23_5_6_f0, part_23_5_6_f6] <;> simp

theorem nfset (r : NfRel) (c : NfCtr) (k : BitVec 4) (j : BitVec 6) (v : BitVec 28) : Statement (.nfset r c k j v) := by
  intro hw op he
  have he : some 898#10 = some op := he
  cases he
  have hb : Instr.body (.nfset r c k j v) = freeve (0#2 ++ k) (0#1 ++ c.code ++ r.code) (j ++ v) := rfl
  have hr (x : Body) : readBody ((898#10).toNat / 128) ((898#10).toNat % 128) x = (NfRel.ofCode (x.f 34 3)).bind fun r => (NfCtr.ofCode (x.f 37 2)).map fun c => Instr.nfset r c (x.f 40 4) (x.g 28) (x.f 0 28) := rfl
  rw [hb, hr]
  simp (disch := decide) only [freeve_f34_3, freeve_f37_2, freeve_f40_4, freeve_g28, freeve_f0_28, BitVec.extractLsb'_append_eq_of_le, BitVec.extractLsb'_append_eq_of_add_le, part_2_4_f0, part_2_2_f0, part_2_18_f0, part_2_18_f18, part_2_7_f7, part_1_2_3_f0, part_1_2_3_f3, part_2_4_f0, part_4_30_f30, part_4_30_f0, part_3_3_f0, part_1_5_f0, part_5_1_f0, part_6_3_f0, part_5_4_f0, part_4_2_f0, part_4_16_f0, part_4_16_f16, part_2_2_f0, part_28_6_f0, part_26_8_f0, part_18_16_f0, part_8_3_f0, part_7_4_f0, part_6_5_f0, part_9_2_f0, part_2_18_f0, part_2_18_f18, part_3_6_f0, part_2_7_f7, part_6_28_f0, part_6_28_f28] <;> simp

theorem nfclr (m : BitVec 15) : Statement (.nfclr m) := by
  intro hw op he
  have he : some 899#10 = some op := he
  cases he
  have hb : Instr.body (.nfclr m) = freeve 0#6 0#6 (0#18 ++ m ++ 0#1) := rfl
  have hr (x : Body) : readBody ((899#10).toNat / 128) ((899#10).toNat % 128) x = some (Instr.nfclr (x.f 1 15)) := rfl
  rw [hb, hr]
  simp (disch := decide) only [freeve_f1_15, BitVec.extractLsb'_append_eq_of_le, BitVec.extractLsb'_append_eq_of_add_le, part_18_15_1_f1] <;> simp

theorem loopset (c : BitVec 1) (r : BitVec 16) (n : BitVec 16) : Statement (.loopset c r n) := by
  intro hw op he
  have he : some 900#10 = some op := he
  cases he
  have hb : Instr.body (.loopset c r n) = freeve (0#5 ++ c) 0#6 (0#2 ++ r ++ n) := rfl
  have hr (x : Body) : readBody ((900#10).toNat / 128) ((900#10).toNat % 128) x = some (Instr.loopset (x.f 40 1) (x.f 16 16) (x.f 0 16)) := rfl
  rw [hb, hr]
  simp (disch := decide) only [freeve_f40_1, freeve_f16_16, freeve_f0_16, BitVec.extractLsb'_append_eq_of_le, BitVec.extractLsb'_append_eq_of_add_le, part_5_1_f0, part_5_4_f0, part_2_1_6_f0, part_2_1_6_f7, part_2_16_16_f0, part_2_16_16_f16] <;> simp

theorem tstep (g : BitVec 6) (n : BitVec 34) : Statement (.tstep g n) := by
  intro hw op he
  have he : some 901#10 = some op := he
  cases he
  have hb : Instr.body (.tstep g n) = freeve g 0#6 n := rfl
  have hr (x : Body) : readBody ((901#10).toNat / 128) ((901#10).toNat % 128) x = some (Instr.tstep (x.g 40) x.imm34) := rfl
  rw [hb, hr]
  simp (disch := decide) only [freeve_g40, freeve_imm34, BitVec.extractLsb'_append_eq_of_le, BitVec.extractLsb'_append_eq_of_add_le] <;> simp

theorem tmark (v : BitVec 34) : Statement (.tmark v) := by
  intro hw op he
  have he : some 902#10 = some op := he
  cases he
  have hb : Instr.body (.tmark v) = freeve 0#6 0#6 v := rfl
  have hr (x : Body) : readBody ((902#10).toNat / 128) ((902#10).toNat % 128) x = some (Instr.tmark x.imm34) := rfl
  rw [hb, hr]
  simp (disch := decide) only [freeve_imm34, BitVec.extractLsb'_append_eq_of_le, BitVec.extractLsb'_append_eq_of_add_le] <;> simp

theorem tsync (e : BitVec 16) : Statement (.tsync e) := by
  intro hw op he
  have he : some 903#10 = some op := he
  cases he
  have hb : Instr.body (.tsync e) = freeve 0#6 0#6 (0#18 ++ e) := rfl
  have hr (x : Body) : readBody ((903#10).toNat / 128) ((903#10).toNat % 128) x = some (Instr.tsync (x.f 0 16)) := rfl
  rw [hb, hr]
  simp (disch := decide) only [freeve_f0_16, BitVec.extractLsb'_append_eq_of_le, BitVec.extractLsb'_append_eq_of_add_le, part_18_16_f0] <;> simp

theorem tend : Statement (.tend) := by
  intro hw op he
  have he : some 904#10 = some op := he
  cases he
  have hb : Instr.body (.tend) = freeve 0#6 0#6 0#34 := rfl
  have hr (x : Body) : readBody ((904#10).toNat / 128) ((904#10).toNat % 128) x = some Instr.tend := rfl
  rw [hb, hr]

theorem twait (v : BitVec 34) : Statement (.twait v) := by
  intro hw op he
  have he : some 905#10 = some op := he
  cases he
  have hb : Instr.body (.twait v) = freeve 0#6 0#6 v := rfl
  have hr (x : Body) : readBody ((905#10).toNat / 128) ((905#10).toNat % 128) x = some (Instr.twait x.imm34) := rfl
  rw [hb, hr]
  simp (disch := decide) only [freeve_imm34, BitVec.extractLsb'_append_eq_of_le, BitVec.extractLsb'_append_eq_of_add_le] <;> simp

theorem linkBeatPresent (ext : Option BeatIn) : Statement (.linkBeatPresent ext) := fun _ o (e : none = some o) => nomatch e

theorem metadataPairArrival (ext : Option PairIn) : Statement (.metadataPairArrival ext) := fun _ o (e : none = some o) => nomatch e

theorem windowClose (w : BitVec 4) : Statement (.windowClose w) := fun _ o (e : none = some o) => nomatch e

theorem postArrival (n : Nat) : Statement (.postArrival n) := fun _ o (e : none = some o) => nomatch e

theorem holdArrival (ext : Option HoldIn) : Statement (.holdArrival ext) := fun _ o (e : none = some o) => nomatch e

theorem stepGroupComplete (g : BitVec 6) : Statement (.stepGroupComplete g) := fun _ o (e : none = some o) => nomatch e

theorem stepTakesEffect (g : BitVec 6) : Statement (.stepTakesEffect g) := fun _ o (e : none = some o) => nomatch e

theorem stepCompletionWake (g : BitVec 6) : Statement (.stepCompletionWake g) := fun _ o (e : none = some o) => nomatch e

theorem tsyncMarkerArrival (ext : Option MarkerIn) : Statement (.tsyncMarkerArrival ext) := fun _ o (e : none = some o) => nomatch e

theorem accessPerformed (n : Nat) : Statement (.accessPerformed n) := fun _ o (e : none = some o) => nomatch e

theorem pageWalk (va : BitVec 56) (store : Bool) : Statement (.pageWalk va store) := fun _ o (e : none = some o) => nomatch e

theorem messageArrival (n : Nat) : Statement (.messageArrival n) := fun _ o (e : none = some o) => nomatch e

theorem copyElement (op : BitVec 4) : Statement (.copyElement op) := fun _ o (e : none = some o) => nomatch e

theorem copyCompletion (op : BitVec 4) : Statement (.copyCompletion op) := fun _ o (e : none = some o) => nomatch e

theorem streamRefill (x : BitVec 4) : Statement (.streamRefill x) := fun _ o (e : none = some o) => nomatch e

theorem trapDelivery (cause : BitVec 8) (detail : BitVec 8) (f1 : BitVec 64) : Statement (.trapDelivery cause detail f1) := fun _ o (e : none = some o) => nomatch e

theorem upcall (cause : BitVec 8) (f1 : BitVec 64) : Statement (.upcall cause f1) := fun _ o (e : none = some o) => nomatch e

theorem servicePath (o : SvcOutcome) : Statement (.servicePath o) := fun _ o (e : none = some o) => nomatch e

theorem faultCompletionNotice (tag : BitVec 16) : Statement (.faultCompletionNotice tag) := fun _ o (e : none = some o) => nomatch e

theorem preempt (leave : Bool) : Statement (.preempt leave) := fun _ o (e : none = some o) => nomatch e

theorem epochAnnounce (tb : Option Nat) : Statement (.epochAnnounce tb) := fun _ o (e : none = some o) => nomatch e

theorem switchSwapComplete (saveErr : Option (BitVec 8)) (restoreErr : Option (BitVec 8)) : Statement (.switchSwapComplete saveErr restoreErr) := fun _ o (e : none = some o) => nomatch e

theorem advisorEpochEnd (depth : Nat) : Statement (.advisorEpochEnd depth) := fun _ o (e : none = some o) => nomatch e

theorem patrolScrub (sector : Nat) (corrected : Option (BitVec 512)) : Statement (.patrolScrub sector corrected) := fun _ o (e : none = some o) => nomatch e

theorem bridgeFlitRetry (delay : Nat) : Statement (.bridgeFlitRetry delay) := fun _ o (e : none = some o) => nomatch e

theorem causewayRetry (west : Bool) (link : BitVec 3) (delay : Nat) : Statement (.causewayRetry west link delay) := fun _ o (e : none = some o) => nomatch e

theorem causewayRetryTimeout (west : Bool) (link : BitVec 3) : Statement (.causewayRetryTimeout west link) := fun _ o (e : none = some o) => nomatch e

theorem ueWorkItem (port : BitVec 3) : Statement (.ueWorkItem port) := fun _ o (e : none = some o) => nomatch e

theorem ueIncoming (port : BitVec 3) (op : UeIn) : Statement (.ueIncoming port op) := fun _ o (e : none = some o) => nomatch e

theorem qtailWrite (q : Nat) (v : BitVec 64) : Statement (.qtailWrite q v) := fun _ o (e : none = some o) => nomatch e

theorem packetAccept (q : Nat) : Statement (.packetAccept q) := fun _ o (e : none = some o) => nomatch e

theorem hseenWrite (v : BitVec 64) : Statement (.hseenWrite v) := fun _ o (e : none = some o) => nomatch e

theorem replay (v : BitVec 64) : Statement (.replay v) := fun _ o (e : none = some o) => nomatch e

theorem bar0RegisterWrite (off : Nat) (v : BitVec 64) : Statement (.bar0RegisterWrite off v) := fun _ o (e : none = some o) => nomatch e

theorem bar2Read (off : Nat) (len : Nat) : Statement (.bar2Read off len) := fun _ o (e : none = some o) => nomatch e

theorem bar2Write (off : Nat) (data : List (BitVec 8)) : Statement (.bar2Write off data) := fun _ o (e : none = some o) => nomatch e

theorem tdispRequest (mode : Tdi) : Statement (.tdispRequest mode) := fun _ o (e : none = some o) => nomatch e

theorem spdmRequest (r : SpdmReq) : Statement (.spdmRequest r) := fun _ o (e : none = some o) => nomatch e

theorem claim (session bothSides : Bool) (keyHash : BitVec 256) : Statement (.claim session bothSides keyHash) := fun _ o (e : none = some o) => nomatch e

theorem grant (index : BitVec 3) (base : Nat) (len : Nat) (read : Bool) (write : Bool) : Statement (.grant index base len read write) := fun _ o (e : none = some o) => nomatch e

theorem grantRevoke (index : BitVec 3) : Statement (.grantRevoke index) := fun _ o (e : none = some o) => nomatch e

theorem debugok (mask : BitVec 4) : Statement (.debugok mask) := fun _ o (e : none = some o) => nomatch e

theorem debugoff (mask : BitVec 4) : Statement (.debugoff mask) := fun _ o (e : none = some o) => nomatch e

theorem ldataRead (d : BitVec 6) : Statement (.ldataRead d) := fun _ o (e : none = some o) => nomatch e

theorem ldataWrite (d : BitVec 6) : Statement (.ldataWrite d) := fun _ o (e : none = some o) => nomatch e

theorem srecRead (tile : Nat) (d : BitVec 6) : Statement (.srecRead tile d) := fun _ o (e : none = some o) => nomatch e

theorem bootStage (f : BootFinding) : Statement (.bootStage f) := fun _ o (e : none = some o) => nomatch e

theorem ueWorkCompletion (port : BitVec 3) (status : BitVec 8) (detail : BitVec 8) (moved : Nat) (data : List (BitVec 8)) : Statement (.ueWorkCompletion port status detail moved data) := fun _ o (e : none = some o) => nomatch e

theorem checkpointStreamComplete (ok : Bool) (bytes : BitVec 64) : Statement (.checkpointStreamComplete ok bytes) := fun _ o (e : none = some o) => nomatch e

theorem launch : Statement (.launch) := fun _ o (e : none = some o) => nomatch e

theorem signal : Statement (.signal) := fun _ o (e : none = some o) => nomatch e

theorem attach : Statement (.attach) := fun _ o (e : none = some o) => nomatch e

theorem detach : Statement (.detach) := fun _ o (e : none = some o) => nomatch e

theorem arm : Statement (.arm) := fun _ o (e : none = some o) => nomatch e

theorem disarm : Statement (.disarm) := fun _ o (e : none = some o) => nomatch e

theorem stop : Statement (.stop) := fun _ o (e : none = some o) => nomatch e

theorem release : Statement (.release) := fun _ o (e : none = some o) => nomatch e

theorem dump : Statement (.dump) := fun _ o (e : none = some o) => nomatch e

theorem poke : Statement (.poke) := fun _ o (e : none = some o) => nomatch e

theorem trace : Statement (.trace) := fun _ o (e : none = some o) => nomatch e

theorem logcopy : Statement (.logcopy) := fun _ o (e : none = some o) => nomatch e

theorem event : Statement (.event) := fun _ o (e : none = some o) => nomatch e

theorem checkpointSave : Statement (.checkpointSave) := fun _ o (e : none = some o) => nomatch e

theorem checkpointRestore : Statement (.checkpointRestore) := fun _ o (e : none = some o) => nomatch e

theorem quiesceEnter : Statement (.quiesceEnter) := fun _ o (e : none = some o) => nomatch e

theorem quiesceLeave : Statement (.quiesceLeave) := fun _ o (e : none = some o) => nomatch e

theorem reshape : Statement (.reshape) := fun _ o (e : none = some o) => nomatch e

theorem portring : Statement (.portring) := fun _ o (e : none = some o) => nomatch e

theorem peer : Statement (.peer) := fun _ o (e : none = some o) => nomatch e

theorem mregion : Statement (.mregion) := fun _ o (e : none = some o) => nomatch e

theorem cwrite : Statement (.cwrite) := fun _ o (e : none = some o) => nomatch e

theorem vecResultWrite : Statement (.vecResultWrite) := fun _ o (e : none = some o) => nomatch e

theorem ssetFillUnit : Statement (.ssetFillUnit) := fun _ o (e : none = some o) => nomatch e

theorem millReadyCycle : Statement (.millReadyCycle) := fun _ o (e : none = some o) => nomatch e

theorem staticBurstPerform : Statement (.staticBurstPerform) := fun _ o (e : none = some o) => nomatch e

theorem staticReadLanding : Statement (.staticReadLanding) := fun _ o (e : none = some o) => nomatch e

theorem holdFrameTest : Statement (.holdFrameTest) := fun _ o (e : none = some o) => nomatch e

theorem tsyncMarkerTimeout : Statement (.tsyncMarkerTimeout) := fun _ o (e : none = some o) => nomatch e

theorem haltTreeArrival : Statement (.haltTreeArrival) := fun _ o (e : none = some o) => nomatch e

theorem partialWorkReport : Statement (.partialWorkReport) := fun _ o (e : none = some o) => nomatch e

theorem hangWatchdog : Statement (.hangWatchdog) := fun _ o (e : none = some o) => nomatch e

theorem icacheFillComplete : Statement (.icacheFillComplete) := fun _ o (e : none = some o) => nomatch e

theorem contextSwitch : Statement (.contextSwitch) := fun _ o (e : none = some o) => nomatch e

theorem forcedSwitch : Statement (.forcedSwitch) := fun _ o (e : none = some o) => nomatch e

theorem tlbAcknowledge : Statement (.tlbAcknowledge) := fun _ o (e : none = some o) => nomatch e

theorem pendingQueueReturn : Statement (.pendingQueueReturn) := fun _ o (e : none = some o) => nomatch e

theorem copyFault : Statement (.copyFault) := fun _ o (e : none = some o) => nomatch e

theorem bellSweep : Statement (.bellSweep) := fun _ o (e : none = some o) => nomatch e

theorem launchEpoch : Statement (.launchEpoch) := fun _ o (e : none = some o) => nomatch e

theorem loadingComplete : Statement (.loadingComplete) := fun _ o (e : none = some o) => nomatch e

theorem quantumExpiry : Statement (.quantumExpiry) := fun _ o (e : none = some o) => nomatch e

theorem switchDrainComplete : Statement (.switchDrainComplete) := fun _ o (e : none = some o) => nomatch e

theorem traceSample : Statement (.traceSample) := fun _ o (e : none = some o) => nomatch e

theorem bridgeFlitTimeout : Statement (.bridgeFlitTimeout) := fun _ o (e : none = some o) => nomatch e

theorem causewayLockLoss : Statement (.causewayLockLoss) := fun _ o (e : none = some o) => nomatch e

theorem ideIntegrityFailure : Statement (.ideIntegrityFailure) := fun _ o (e : none = some o) => nomatch e

theorem quiesceLimit : Statement (.quiesceLimit) := fun _ o (e : none = some o) => nomatch e

theorem coldReset : Statement (.coldReset) := fun _ o (e : none = some o) => nomatch e

theorem hostPortReset : Statement (.hostPortReset) := fun _ o (e : none = some o) => nomatch e

theorem powerLoss : Statement (.powerLoss) := fun _ o (e : none = some o) => nomatch e

theorem thermalTrip : Statement (.thermalTrip) := fun _ o (e : none = some o) => nomatch e

theorem millSweepRead : Statement (.millSweepRead) := fun _ o (e : none = some o) => nomatch e

theorem mdrainRowWrite : Statement (.mdrainRowWrite) := fun _ o (e : none = some o) => nomatch e

theorem staticBurstSlot : Statement (.staticBurstSlot) := fun _ o (e : none = some o) => nomatch e

theorem linkBeatDeparture : Statement (.linkBeatDeparture) := fun _ o (e : none = some o) => nomatch e

theorem chainMemberLeft : Statement (.chainMemberLeft) := fun _ o (e : none = some o) => nomatch e

theorem restoreAuthorisation : Statement (.restoreAuthorisation) := fun _ o (e : none = some o) => nomatch e

end Sys2Proof.Laws.Encoding

namespace Sys2Proof.Laws.Formats

set_option Elab.async false
set_option linter.unusedSimpArgs false

/-- No format-code field that a well-formed instruction's encoding uses holds 24-31, a code of an absent extension (02 R64,
R69); and its opcode is one that its group assigns (02 R66). -/
def Statement (i : Instr) : Prop :=
  i.wf = true → ∀ o : BitVec 10, i.opcode = some o →
    (fmtFields (o.toNat / 128) (o.toNat % 128) i.body).any (fun c => decide (24 ≤ c.toNat)) = false
      ∧ o.toNat % 128 < groupSize (o.toNat / 128)

theorem nop : Statement (.nop) := by
  intro hw op he
  have he : some 0#10 = some op := he
  cases he
  exact ⟨rfl, by decide⟩

theorem add (d : BitVec 6) (a : BitVec 6) (b : BitVec 6) : Statement (.add d a b) := by
  intro hw op he
  have he : some 1#10 = some op := he
  cases he
  exact ⟨rfl, by decide⟩

theorem addi (d : BitVec 6) (a : BitVec 6) (imm : BitVec 34) : Statement (.addi d a imm) := by
  intro hw op he
  have he : some 2#10 = some op := he
  cases he
  exact ⟨rfl, by decide⟩

theorem sub (d : BitVec 6) (a : BitVec 6) (b : BitVec 6) : Statement (.sub d a b) := by
  intro hw op he
  have he : some 3#10 = some op := he
  cases he
  exact ⟨rfl, by decide⟩

theorem mul (d : BitVec 6) (a : BitVec 6) (b : BitVec 6) : Statement (.mul d a b) := by
  intro hw op he
  have he : some 4#10 = some op := he
  cases he
  exact ⟨rfl, by decide⟩

theorem mulh (d : BitVec 6) (a : BitVec 6) (b : BitVec 6) : Statement (.mulh d a b) := by
  intro hw op he
  have he : some 5#10 = some op := he
  cases he
  exact ⟨rfl, by decide⟩

theorem mulhu (d : BitVec 6) (a : BitVec 6) (b : BitVec 6) : Statement (.mulhu d a b) := by
  intro hw op he
  have he : some 6#10 = some op := he
  cases he
  exact ⟨rfl, by decide⟩

theorem div (d : BitVec 6) (a : BitVec 6) (b : BitVec 6) : Statement (.div d a b) := by
  intro hw op he
  have he : some 7#10 = some op := he
  cases he
  exact ⟨rfl, by decide⟩

theorem divu (d : BitVec 6) (a : BitVec 6) (b : BitVec 6) : Statement (.divu d a b) := by
  intro hw op he
  have he : some 8#10 = some op := he
  cases he
  exact ⟨rfl, by decide⟩

theorem rem (d : BitVec 6) (a : BitVec 6) (b : BitVec 6) : Statement (.rem d a b) := by
  intro hw op he
  have he : some 9#10 = some op := he
  cases he
  exact ⟨rfl, by decide⟩

theorem remu (d : BitVec 6) (a : BitVec 6) (b : BitVec 6) : Statement (.remu d a b) := by
  intro hw op he
  have he : some 10#10 = some op := he
  cases he
  exact ⟨rfl, by decide⟩

theorem and (d : BitVec 6) (a : BitVec 6) (b : BitVec 6) : Statement (.and d a b) := by
  intro hw op he
  have he : some 11#10 = some op := he
  cases he
  exact ⟨rfl, by decide⟩

theorem andi (d : BitVec 6) (a : BitVec 6) (imm : BitVec 34) : Statement (.andi d a imm) := by
  intro hw op he
  have he : some 12#10 = some op := he
  cases he
  exact ⟨rfl, by decide⟩

theorem or (d : BitVec 6) (a : BitVec 6) (b : BitVec 6) : Statement (.or d a b) := by
  intro hw op he
  have he : some 13#10 = some op := he
  cases he
  exact ⟨rfl, by decide⟩

theorem ori (d : BitVec 6) (a : BitVec 6) (imm : BitVec 34) : Statement (.ori d a imm) := by
  intro hw op he
  have he : some 14#10 = some op := he
  cases he
  exact ⟨rfl, by decide⟩

theorem xor (d : BitVec 6) (a : BitVec 6) (b : BitVec 6) : Statement (.xor d a b) := by
  intro hw op he
  have he : some 15#10 = some op := he
  cases he
  exact ⟨rfl, by decide⟩

theorem xori (d : BitVec 6) (a : BitVec 6) (imm : BitVec 34) : Statement (.xori d a imm) := by
  intro hw op he
  have he : some 16#10 = some op := he
  cases he
  exact ⟨rfl, by decide⟩

theorem andn (d : BitVec 6) (a : BitVec 6) (b : BitVec 6) : Statement (.andn d a b) := by
  intro hw op he
  have he : some 17#10 = some op := he
  cases he
  exact ⟨rfl, by decide⟩

theorem shl (d : BitVec 6) (a : BitVec 6) (b : BitVec 6) : Statement (.shl d a b) := by
  intro hw op he
  have he : some 18#10 = some op := he
  cases he
  exact ⟨rfl, by decide⟩

theorem shli (d : BitVec 6) (a : BitVec 6) (n : BitVec 6) : Statement (.shli d a n) := by
  intro hw op he
  have he : some 19#10 = some op := he
  cases he
  exact ⟨rfl, by decide⟩

theorem shr (d : BitVec 6) (a : BitVec 6) (b : BitVec 6) : Statement (.shr d a b) := by
  intro hw op he
  have he : some 20#10 = some op := he
  cases he
  exact ⟨rfl, by decide⟩

theorem shri (d : BitVec 6) (a : BitVec 6) (n : BitVec 6) : Statement (.shri d a n) := by
  intro hw op he
  have he : some 21#10 = some op := he
  cases he
  exact ⟨rfl, by decide⟩

theorem sra (d : BitVec 6) (a : BitVec 6) (b : BitVec 6) : Statement (.sra d a b) := by
  intro hw op he
  have he : some 22#10 = some op := he
  cases he
  exact ⟨rfl, by decide⟩

theorem srai (d : BitVec 6) (a : BitVec 6) (n : BitVec 6) : Statement (.srai d a n) := by
  intro hw op he
  have he : some 23#10 = some op := he
  cases he
  exact ⟨rfl, by decide⟩

theorem rol (d : BitVec 6) (a : BitVec 6) (b : BitVec 6) : Statement (.rol d a b) := by
  intro hw op he
  have he : some 24#10 = some op := he
  cases he
  exact ⟨rfl, by decide⟩

theorem min (d : BitVec 6) (a : BitVec 6) (b : BitVec 6) : Statement (.min d a b) := by
  intro hw op he
  have he : some 25#10 = some op := he
  cases he
  exact ⟨rfl, by decide⟩

theorem max (d : BitVec 6) (a : BitVec 6) (b : BitVec 6) : Statement (.max d a b) := by
  intro hw op he
  have he : some 26#10 = some op := he
  cases he
  exact ⟨rfl, by decide⟩

theorem minu (d : BitVec 6) (a : BitVec 6) (b : BitVec 6) : Statement (.minu d a b) := by
  intro hw op he
  have he : some 27#10 = some op := he
  cases he
  exact ⟨rfl, by decide⟩

theorem maxu (d : BitVec 6) (a : BitVec 6) (b : BitVec 6) : Statement (.maxu d a b) := by
  intro hw op he
  have he : some 28#10 = some op := he
  cases he
  exact ⟨rfl, by decide⟩

theorem clz (d : BitVec 6) (a : BitVec 6) : Statement (.clz d a) := by
  intro hw op he
  have he : some 29#10 = some op := he
  cases he
  exact ⟨rfl, by decide⟩

theorem ctz (d : BitVec 6) (a : BitVec 6) : Statement (.ctz d a) := by
  intro hw op he
  have he : some 30#10 = some op := he
  cases he
  exact ⟨rfl, by decide⟩

theorem popc (d : BitVec 6) (a : BitVec 6) : Statement (.popc d a) := by
  intro hw op he
  have he : some 31#10 = some op := he
  cases he
  exact ⟨rfl, by decide⟩

theorem extr (d : BitVec 6) (a : BitVec 6) (b : BitVec 6) (w : BitVec 6) : Statement (.extr d a b w) := by
  intro hw op he
  have he : some 32#10 = some op := he
  cases he
  exact ⟨rfl, by decide⟩

theorem ins (d : BitVec 6) (a : BitVec 6) (b : BitVec 6) (c : BitVec 6) (w : BitVec 6) : Statement (.ins d a b c w) := by
  intro hw op he
  have he : some 33#10 = some op := he
  cases he
  exact ⟨rfl, by decide⟩

theorem sel (d : BitVec 6) (a : BitVec 6) (b : BitVec 6) (c : BitVec 6) : Statement (.sel d a b c) := by
  intro hw op he
  have he : some 34#10 = some op := he
  cases he
  exact ⟨rfl, by decide⟩

theorem cmp (cc : Cond) (d : BitVec 6) (a : BitVec 6) (b : BitVec 6) : Statement (.cmp cc d a b) := by
  intro hw op he
  have he : some 35#10 = some op := he
  cases he
  exact ⟨rfl, by decide⟩

theorem cmpi (cc : Cond) (d : BitVec 6) (a : BitVec 6) (imm : BitVec 30) : Statement (.cmpi cc d a imm) := by
  intro hw op he
  have he : some 36#10 = some op := he
  cases he
  exact ⟨rfl, by decide⟩

theorem li (d : BitVec 6) (imm : BitVec 34) : Statement (.li d imm) := by
  intro hw op he
  have he : some 37#10 = some op := he
  cases he
  exact ⟨rfl, by decide⟩

theorem lih (d : BitVec 6) (a : BitVec 6) (imm : BitVec 30) : Statement (.lih d a imm) := by
  intro hw op he
  have he : some 38#10 = some op := he
  cases he
  exact ⟨rfl, by decide⟩

theorem adda (d : BitVec 6) (a : BitVec 6) (b : BitVec 6) : Statement (.adda d a b) := by
  intro hw op he
  have he : some 39#10 = some op := he
  cases he
  exact ⟨rfl, by decide⟩

theorem addai (d : BitVec 6) (a : BitVec 6) (imm : BitVec 34) : Statement (.addai d a imm) := by
  intro hw op he
  have he : some 40#10 = some op := he
  cases he
  exact ⟨rfl, by decide⟩

theorem tagset (d : BitVec 6) (a : BitVec 6) (b : BitVec 6) : Statement (.tagset d a b) := by
  intro hw op he
  have he : some 41#10 = some op := he
  cases he
  exact ⟨rfl, by decide⟩

theorem tagget (d : BitVec 6) (a : BitVec 6) : Statement (.tagget d a) := by
  intro hw op he
  have he : some 42#10 = some op := he
  cases he
  exact ⟨rfl, by decide⟩

theorem pdiff (d : BitVec 6) (a : BitVec 6) (b : BitVec 6) : Statement (.pdiff d a b) := by
  intro hw op he
  have he : some 43#10 = some op := he
  cases he
  exact ⟨rfl, by decide⟩

theorem fadd (rm : Rm) (d : BitVec 6) (a : BitVec 6) (b : BitVec 6) : Statement (.fadd rm d a b) := by
  intro hw op he
  have he : some 128#10 = some op := he
  cases he
  exact ⟨rfl, by decide⟩

theorem fsub (rm : Rm) (d : BitVec 6) (a : BitVec 6) (b : BitVec 6) : Statement (.fsub rm d a b) := by
  intro hw op he
  have he : some 129#10 = some op := he
  cases he
  exact ⟨rfl, by decide⟩

theorem fmul (rm : Rm) (d : BitVec 6) (a : BitVec 6) (b : BitVec 6) : Statement (.fmul rm d a b) := by
  intro hw op he
  have he : some 130#10 = some op := he
  cases he
  exact ⟨rfl, by decide⟩

theorem fma (rm : Rm) (d : BitVec 6) (a : BitVec 6) (b : BitVec 6) (c : BitVec 6) : Statement (.fma rm d a b c) := by
  intro hw op he
  have he : some 131#10 = some op := he
  cases he
  exact ⟨rfl, by decide⟩

theorem fmin (d : BitVec 6) (a : BitVec 6) (b : BitVec 6) : Statement (.fmin d a b) := by
  intro hw op he
  have he : some 132#10 = some op := he
  cases he
  exact ⟨rfl, by decide⟩

theorem fmax (d : BitVec 6) (a : BitVec 6) (b : BitVec 6) : Statement (.fmax d a b) := by
  intro hw op he
  have he : some 133#10 = some op := he
  cases he
  exact ⟨rfl, by decide⟩

theorem fcmp (fc : FRel) (d : BitVec 6) (a : BitVec 6) (b : BitVec 6) : Statement (.fcmp fc d a b) := by
  intro hw op he
  have he : some 134#10 = some op := he
  cases he
  exact ⟨rfl, by decide⟩

theorem fcvt (src : Fmt) (dst : Fmt) (rm : Rm) (d : BitVec 6) (a : BitVec 6) : Statement (.fcvt src dst rm d a) := by
  intro hw op he
  have he : some 135#10 = some op := he
  cases he
  have hb : Instr.body (.fcvt src dst rm d a) = fg3 d a (0#1 ++ src.code) (0#1 ++ dst.code) (0#3 ++ rm.code) := rfl
  have hr (x : Body) : fmtFields ((135#10).toNat / 128) ((135#10).toNat % 128) x = (if x.bit 33 then [] else [x.f 28 5]) ++ (if x.bit 27 then [] else [x.f 22 5]) := rfl
  rw [hb, hr]
  refine ⟨?_, by decide⟩
  simp (disch := decide) only [fg3_bit33, fg3_bit27, fg3_f28_5, fg3_f22_5, part_1_5_f0, part_1_5_f0, part_3_3_f0, part_3_6_f0, BitVec.extractLsb'_append_eq_of_le, BitVec.extractLsb'_append_eq_of_add_le] <;> simp

theorem fclass (f : Fmt) (d : BitVec 6) (a : BitVec 6) : Statement (.fclass f d a) := by
  intro hw op he
  have he : some 136#10 = some op := he
  cases he
  have hb : Instr.body (.fclass f d a) = fg3 d a 0#6 0#6 (0#1 ++ f.code) := rfl
  have hr (x : Body) : fmtFields ((136#10).toNat / 128) ((136#10).toNat % 128) x = (if x.bit 21 then [] else [x.f 16 5]) := rfl
  rw [hb, hr]
  refine ⟨?_, by decide⟩
  simp (disch := decide) only [fg3_bit21, fg3_f16_5, part_1_5_f0, BitVec.extractLsb'_append_eq_of_le, BitVec.extractLsb'_append_eq_of_add_le] <;> simp

theorem dadd (m : LaneArith) (d : BitVec 5) (a : BitVec 5) (b : BitVec 5) (k : BitVec 6) : Statement (.dadd m d a b k) := by
  intro hw op he
  have he : some 137#10 = some op := he
  cases he
  have hb : Instr.body (.dadd m d a b k) = fdv d a b 0#5 k m.ty m.sub 0#9 := rfl
  have hr (x : Body) : fmtFields ((137#10).toNat / 128) ((137#10).toNat % 128) x = [x.f 15 5] := rfl
  rw [hb, hr]
  refine ⟨?_, by decide⟩
  simp (disch := decide) only [fdv_f15_5, BitVec.extractLsb'_append_eq_of_le, BitVec.extractLsb'_append_eq_of_add_le] <;> simp

theorem dsub (m : LaneArith) (d : BitVec 5) (a : BitVec 5) (b : BitVec 5) (k : BitVec 6) : Statement (.dsub m d a b k) := by
  intro hw op he
  have he : some 138#10 = some op := he
  cases he
  have hb : Instr.body (.dsub m d a b k) = fdv d a b 0#5 k m.ty m.sub 0#9 := rfl
  have hr (x : Body) : fmtFields ((138#10).toNat / 128) ((138#10).toNat % 128) x = [x.f 15 5] := rfl
  rw [hb, hr]
  refine ⟨?_, by decide⟩
  simp (disch := decide) only [fdv_f15_5, BitVec.extractLsb'_append_eq_of_le, BitVec.extractLsb'_append_eq_of_add_le] <;> simp

theorem dmul (m : LaneArith) (d : BitVec 5) (a : BitVec 5) (b : BitVec 5) (k : BitVec 6) : Statement (.dmul m d a b k) := by
  intro hw op he
  have he : some 139#10 = some op := he
  cases he
  have hb : Instr.body (.dmul m d a b k) = fdv d a b 0#5 k m.ty m.sub 0#9 := rfl
  have hr (x : Body) : fmtFields ((139#10).toNat / 128) ((139#10).toNat % 128) x = [x.f 15 5] := rfl
  rw [hb, hr]
  refine ⟨?_, by decide⟩
  simp (disch := decide) only [fdv_f15_5, BitVec.extractLsb'_append_eq_of_le, BitVec.extractLsb'_append_eq_of_add_le] <;> simp

theorem dfma (m : LaneArith) (d : BitVec 5) (a : BitVec 5) (b : BitVec 5) (c : BitVec 5) (k : BitVec 6) : Statement (.dfma m d a b c k) := by
  intro hw op he
  have he : some 140#10 = some op := he
  cases he
  have hb : Instr.body (.dfma m d a b c k) = fdv d a b c k m.ty m.sub 0#9 := rfl
  have hr (x : Body) : fmtFields ((140#10).toNat / 128) ((140#10).toNat % 128) x = [x.f 15 5] := rfl
  rw [hb, hr]
  refine ⟨?_, by decide⟩
  simp (disch := decide) only [fdv_f15_5, BitVec.extractLsb'_append_eq_of_le, BitVec.extractLsb'_append_eq_of_add_le] <;> simp

theorem dmin (m : LaneMin) (d : BitVec 5) (a : BitVec 5) (b : BitVec 5) (k : BitVec 6) : Statement (.dmin m d a b k) := by
  intro hw op he
  have he : some 141#10 = some op := he
  cases he
  have hb : Instr.body (.dmin m d a b k) = fdv d a b 0#5 k m.ty m.sub 0#9 := rfl
  have hr (x : Body) : fmtFields ((141#10).toNat / 128) ((141#10).toNat % 128) x = [x.f 15 5] := rfl
  rw [hb, hr]
  refine ⟨?_, by decide⟩
  simp (disch := decide) only [fdv_f15_5, BitVec.extractLsb'_append_eq_of_le, BitVec.extractLsb'_append_eq_of_add_le] <;> simp

theorem dmax (m : LaneMin) (d : BitVec 5) (a : BitVec 5) (b : BitVec 5) (k : BitVec 6) : Statement (.dmax m d a b k) := by
  intro hw op he
  have he : some 142#10 = some op := he
  cases he
  have hb : Instr.body (.dmax m d a b k) = fdv d a b 0#5 k m.ty m.sub 0#9 := rfl
  have hr (x : Body) : fmtFields ((142#10).toNat / 128) ((142#10).toNat % 128) x = [x.f 15 5] := rfl
  rw [hb, hr]
  refine ⟨?_, by decide⟩
  simp (disch := decide) only [fdv_f15_5, BitVec.extractLsb'_append_eq_of_le, BitVec.extractLsb'_append_eq_of_add_le] <;> simp

theorem dand (d : BitVec 5) (a : BitVec 5) (b : BitVec 5) (k : BitVec 6) : Statement (.dand d a b k) := by
  intro hw op he
  have he : some 143#10 = some op := he
  cases he
  have hb : Instr.body (.dand d a b k) = fdv d a b 0#5 k 4#5 0#6 0#9 := rfl
  have hr (x : Body) : fmtFields ((143#10).toNat / 128) ((143#10).toNat % 128) x = [x.f 15 5] := rfl
  rw [hb, hr]
  refine ⟨?_, by decide⟩
  simp (disch := decide) only [fdv_f15_5, BitVec.extractLsb'_append_eq_of_le, BitVec.extractLsb'_append_eq_of_add_le] <;> simp

theorem dor (d : BitVec 5) (a : BitVec 5) (b : BitVec 5) (k : BitVec 6) : Statement (.dor d a b k) := by
  intro hw op he
  have he : some 144#10 = some op := he
  cases he
  have hb : Instr.body (.dor d a b k) = fdv d a b 0#5 k 4#5 0#6 0#9 := rfl
  have hr (x : Body) : fmtFields ((144#10).toNat / 128) ((144#10).toNat % 128) x = [x.f 15 5] := rfl
  rw [hb, hr]
  refine ⟨?_, by decide⟩
  simp (disch := decide) only [fdv_f15_5, BitVec.extractLsb'_append_eq_of_le, BitVec.extractLsb'_append_eq_of_add_le] <;> simp

theorem dxor (d : BitVec 5) (a : BitVec 5) (b : BitVec 5) (k : BitVec 6) : Statement (.dxor d a b k) := by
  intro hw op he
  have he : some 145#10 = some op := he
  cases he
  have hb : Instr.body (.dxor d a b k) = fdv d a b 0#5 k 4#5 0#6 0#9 := rfl
  have hr (x : Body) : fmtFields ((145#10).toNat / 128) ((145#10).toNat % 128) x = [x.f 15 5] := rfl
  rw [hb, hr]
  refine ⟨?_, by decide⟩
  simp (disch := decide) only [fdv_f15_5, BitVec.extractLsb'_append_eq_of_le, BitVec.extractLsb'_append_eq_of_add_le] <;> simp

theorem dshl (d : BitVec 5) (a : BitVec 5) (s : DShift) (k : BitVec 6) : Statement (.dshl d a s k) := by
  intro hw op he
  have he : some 146#10 = some op := he
  cases he
  have hb : Instr.body (.dshl d a s k) = fdv d a s.b 0#5 k 4#5 (0#5 ++ s.isImm) s.imm9 := rfl
  have hr (x : Body) : fmtFields ((146#10).toNat / 128) ((146#10).toNat % 128) x = [x.f 15 5] := rfl
  rw [hb, hr]
  refine ⟨?_, by decide⟩
  simp (disch := decide) only [fdv_f15_5, part_5_1_f0, part_5_4_f0, BitVec.extractLsb'_append_eq_of_le, BitVec.extractLsb'_append_eq_of_add_le] <;> simp

theorem dshr (ar : Bool) (d : BitVec 5) (a : BitVec 5) (s : DShift) (k : BitVec 6) : Statement (.dshr ar d a s k) := by
  intro hw op he
  have he : some 147#10 = some op := he
  cases he
  have hb : Instr.body (.dshr ar d a s k) = fdv d a s.b 0#5 k 4#5 (0#4 ++ BitVec.ofBool ar ++ s.isImm) s.imm9 := rfl
  have hr (x : Body) : fmtFields ((147#10).toNat / 128) ((147#10).toNat % 128) x = [x.f 15 5] := rfl
  rw [hb, hr]
  refine ⟨?_, by decide⟩
  simp (disch := decide) only [fdv_f15_5, part_4_b_1_f0, part_4_b_1_bit1, part_4_b_6_f0, part_4_b_6_bit6, BitVec.extractLsb'_append_eq_of_le, BitVec.extractLsb'_append_eq_of_add_le] <;> simp

theorem dcmp (m : LaneCmp) (d : BitVec 5) (a : BitVec 5) (b : BitVec 5) (k : BitVec 6) : Statement (.dcmp m d a b k) := by
  intro hw op he
  have he : some 148#10 = some op := he
  cases he
  have hb : Instr.body (.dcmp m d a b k) = fdv d a b 0#5 k m.ty m.sub 0#9 := rfl
  have hr (x : Body) : fmtFields ((148#10).toNat / 128) ((148#10).toNat % 128) x = [x.f 15 5] := rfl
  rw [hb, hr]
  refine ⟨?_, by decide⟩
  simp (disch := decide) only [fdv_f15_5, BitVec.extractLsb'_append_eq_of_le, BitVec.extractLsb'_append_eq_of_add_le] <;> simp

theorem dsel (d : BitVec 5) (a : BitVec 5) (b : BitVec 5) (c : BitVec 5) (k : BitVec 6) : Statement (.dsel d a b c k) := by
  intro hw op he
  have he : some 149#10 = some op := he
  cases he
  have hb : Instr.body (.dsel d a b c k) = fdv d a b c k 4#5 0#6 0#9 := rfl
  have hr (x : Body) : fmtFields ((149#10).toNat / 128) ((149#10).toNat % 128) x = [x.f 15 5] := rfl
  rw [hb, hr]
  refine ⟨?_, by decide⟩
  simp (disch := decide) only [fdv_f15_5, BitVec.extractLsb'_append_eq_of_le, BitVec.extractLsb'_append_eq_of_add_le] <;> simp

theorem dcvt (src : Fmt) (dst : Fmt) (rm : Rm) (d : BitVec 5) (a : BitVec 5) (k : BitVec 6) : Statement (.dcvt src dst rm d a k) := by
  intro hw op he
  have he : some 150#10 = some op := he
  cases he
  have hb : Instr.body (.dcvt src dst rm d a k) = fdv d a 0#5 0#5 k dst.code (0#1 ++ src.code) (0#6 ++ rm.code) := rfl
  have hr (x : Body) : fmtFields ((150#10).toNat / 128) ((150#10).toNat % 128) x = x.f 15 5 :: (if x.bit 14 then [] else [x.f 9 5]) := rfl
  rw [hb, hr]
  refine ⟨?_, by decide⟩
  simp (disch := decide) only [fdv_f15_5, fdv_bit14, fdv_f9_5, part_1_5_f0, part_6_3_f0, part_6_5_f0, part_6_28_f0, part_6_28_f28, BitVec.extractLsb'_append_eq_of_le, BitVec.extractLsb'_append_eq_of_add_le] <;> simp

theorem dbcast (d : BitVec 5) (a : BitVec 5) (j : BitVec 4) (k : BitVec 6) : Statement (.dbcast d a j k) := by
  intro hw op he
  have he : some 151#10 = some op := he
  cases he
  have hb : Instr.body (.dbcast d a j k) = fdv d a 0#5 0#5 k 4#5 0#6 (0#5 ++ j) := rfl
  have hr (x : Body) : fmtFields ((151#10).toNat / 128) ((151#10).toNat % 128) x = [x.f 15 5] := rfl
  rw [hb, hr]
  refine ⟨?_, by decide⟩
  simp (disch := decide) only [fdv_f15_5, part_5_1_f0, part_5_4_f0, BitVec.extractLsb'_append_eq_of_le, BitVec.extractLsb'_append_eq_of_add_le] <;> simp

theorem dext (ty : Lane2) (d : BitVec 5) (a : BitVec 5) (j : BitVec 4) : Statement (.dext ty d a j) := by
  intro hw op he
  have he : some 152#10 = some op := he
  cases he
  have hb : Instr.body (.dext ty d a j) = fdv d a 0#5 0#5 0#6 ty.code 0#6 (0#5 ++ j) := rfl
  have hr (x : Body) : fmtFields ((152#10).toNat / 128) ((152#10).toNat % 128) x = [x.f 15 5] := rfl
  rw [hb, hr]
  refine ⟨?_, by decide⟩
  simp (disch := decide) only [fdv_f15_5, part_5_1_f0, part_5_4_f0, BitVec.extractLsb'_append_eq_of_le, BitVec.extractLsb'_append_eq_of_add_le] <;> simp

theorem dins (d : BitVec 5) (a : BitVec 5) (j : BitVec 4) : Statement (.dins d a j) := by
  intro hw op he
  have he : some 153#10 = some op := he
  cases he
  have hb : Instr.body (.dins d a j) = fdv d a 0#5 0#5 0#6 4#5 0#6 (0#5 ++ j) := rfl
  have hr (x : Body) : fmtFields ((153#10).toNat / 128) ((153#10).toNat % 128) x = [x.f 15 5] := rfl
  rw [hb, hr]
  refine ⟨?_, by decide⟩
  simp (disch := decide) only [fdv_f15_5, part_5_1_f0, part_5_4_f0, BitVec.extractLsb'_append_eq_of_le, BitVec.extractLsb'_append_eq_of_add_le] <;> simp

theorem dshuf (d : BitVec 5) (a : BitVec 5) (b : BitVec 5) (k : BitVec 6) : Statement (.dshuf d a b k) := by
  intro hw op he
  have he : some 154#10 = some op := he
  cases he
  have hb : Instr.body (.dshuf d a b k) = fdv d a b 0#5 k 4#5 0#6 0#9 := rfl
  have hr (x : Body) : fmtFields ((154#10).toNat / 128) ((154#10).toNat % 128) x = [x.f 15 5] := rfl
  rw [hb, hr]
  refine ⟨?_, by decide⟩
  simp (disch := decide) only [fdv_f15_5, BitVec.extractLsb'_append_eq_of_le, BitVec.extractLsb'_append_eq_of_add_le] <;> simp

theorem dscan (ty : Lane2) (op : RedOp) (ex : Bool) (d : BitVec 5) (a : BitVec 5) (k : BitVec 6) : Statement (.dscan ty op ex d a k) := by
  intro hw op he
  have he : some 155#10 = some op := he
  cases he
  have hb : Instr.body (.dscan ty op ex d a k) = fdv d a 0#5 0#5 k ty.code (0#3 ++ BitVec.ofBool ex ++ op.code) 0#9 := rfl
  have hr (x : Body) : fmtFields ((155#10).toNat / 128) ((155#10).toNat % 128) x = [x.f 15 5] := rfl
  rw [hb, hr]
  refine ⟨?_, by decide⟩
  simp (disch := decide) only [fdv_f15_5, part_3_b_2_f0, part_3_b_2_bit2, BitVec.extractLsb'_append_eq_of_le, BitVec.extractLsb'_append_eq_of_add_le] <;> simp

theorem dred (ty : Lane2) (op : RedOp) (d : BitVec 5) (a : BitVec 5) (k : BitVec 6) : Statement (.dred ty op d a k) := by
  intro hw op he
  have he : some 156#10 = some op := he
  cases he
  have hb : Instr.body (.dred ty op d a k) = fdv d a 0#5 0#5 k ty.code (0#4 ++ op.code) 0#9 := rfl
  have hr (x : Body) : fmtFields ((156#10).toNat / 128) ((156#10).toNat % 128) x = [x.f 15 5] := rfl
  rw [hb, hr]
  refine ⟨?_, by decide⟩
  simp (disch := decide) only [fdv_f15_5, part_4_30_f30, part_4_30_f0, part_4_2_f0, part_4_16_f0, part_4_16_f16, BitVec.extractLsb'_append_eq_of_le, BitVec.extractLsb'_append_eq_of_add_le] <;> simp

theorem dhist (r : Bool) (d : BitVec 5) (a : BitVec 5) (b : BitVec 5) (k : BitVec 6) : Statement (.dhist r d a b k) := by
  intro hw op he
  have he : some 157#10 = some op := he
  cases he
  have hb : Instr.body (.dhist r d a b k) = fdv d a b 0#5 k 4#5 (0#5 ++ BitVec.ofBool r) 0#9 := rfl
  have hr (x : Body) : fmtFields ((157#10).toNat / 128) ((157#10).toNat % 128) x = [x.f 15 5] := rfl
  rw [hb, hr]
  refine ⟨?_, by decide⟩
  simp (disch := decide) only [fdv_f15_5, part_5_b_bit0, BitVec.extractLsb'_append_eq_of_le, BitVec.extractLsb'_append_eq_of_add_le] <;> simp

theorem diota (d : BitVec 5) (s : BitVec 9) (t : BitVec 6) (k : BitVec 6) : Statement (.diota d s t k) := by
  intro hw op he
  have he : some 158#10 = some op := he
  cases he
  have hb : Instr.body (.diota d s t k) = fdv d 0#5 0#5 0#5 k 4#5 t s := rfl
  have hr (x : Body) : fmtFields ((158#10).toNat / 128) ((158#10).toNat % 128) x = [x.f 15 5] := rfl
  rw [hb, hr]
  refine ⟨?_, by decide⟩
  simp (disch := decide) only [fdv_f15_5, BitVec.extractLsb'_append_eq_of_le, BitVec.extractLsb'_append_eq_of_add_le] <;> simp

theorem ld (d : BitVec 6) (b : BitVec 6) (i : BitVec 6) (s : Scale) (o : MemOrd) (p : Scope) (f : BitVec 20) : Statement (.ld d b i s o p f) := by
  intro hw op he
  have he : some 256#10 = some op := he
  cases he
  exact ⟨rfl, by decide⟩

theorem st (d : BitVec 6) (b : BitVec 6) (i : BitVec 6) (s : Scale) (o : MemOrd) (p : Scope) (f : BitVec 20) : Statement (.st d b i s o p f) := by
  intro hw op he
  have he : some 257#10 = some op := he
  cases he
  exact ⟨rfl, by decide⟩

theorem ldf (d : BitVec 6) (b : BitVec 6) (i : BitVec 6) (s : Scale) (o : MemOrd) (p : Scope) (f : BitVec 20) : Statement (.ldf d b i s o p f) := by
  intro hw op he
  have he : some 258#10 = some op := he
  cases he
  exact ⟨rfl, by decide⟩

theorem stf (d : BitVec 6) (b : BitVec 6) (i : BitVec 6) (s : Scale) (o : MemOrd) (p : Scope) (f : BitVec 20) : Statement (.stf d b i s o p f) := by
  intro hw op he
  have he : some 259#10 = some op := he
  cases he
  exact ⟨rfl, by decide⟩

theorem ldd (d : BitVec 5) (b : BitVec 6) (i : BitVec 6) (s : Scale) (o : MemOrd) (p : Scope) (f : BitVec 20) : Statement (.ldd d b i s o p f) := by
  intro hw op he
  have he : some 260#10 = some op := he
  cases he
  exact ⟨rfl, by decide⟩

theorem std (d : BitVec 5) (b : BitVec 6) (i : BitVec 6) (s : Scale) (o : MemOrd) (p : Scope) (f : BitVec 20) : Statement (.std d b i s o p f) := by
  intro hw op he
  have he : some 261#10 = some op := he
  cases he
  exact ⟨rfl, by decide⟩

theorem lddf (d : BitVec 5) (b : BitVec 6) (i : BitVec 6) (s : Scale) (o : MemOrd) (p : Scope) (f : BitVec 20) : Statement (.lddf d b i s o p f) := by
  intro hw op he
  have he : some 262#10 = some op := he
  cases he
  exact ⟨rfl, by decide⟩

theorem stdf (d : BitVec 5) (b : BitVec 6) (i : BitVec 6) (s : Scale) (o : MemOrd) (p : Scope) (f : BitVec 20) : Statement (.stdf d b i s o p f) := by
  intro hw op he
  have he : some 263#10 = some op := he
  cases he
  exact ⟨rfl, by decide⟩

theorem amo (op : AmoOp) (d : BitVec 6) (b : BitVec 6) (i : BitVec 6) (o : MemOrd) (p : Scope) (f : BitVec 16) : Statement (.amo op d b i o p f) := by
  intro hw op he
  have he : some 264#10 = some op := he
  cases he
  exact ⟨rfl, by decide⟩

theorem cas (d : BitVec 6) (b : BitVec 6) (i : BitVec 6) (o : MemOrd) (p : Scope) (f : BitVec 16) : Statement (.cas d b i o p f) := by
  intro hw op he
  have he : some 265#10 = some op := he
  cases he
  exact ⟨rfl, by decide⟩

theorem pref (b : BitVec 6) (i : BitVec 6) (s : Scale) (p : Scope) (f : BitVec 20) : Statement (.pref b i s p f) := by
  intro hw op he
  have he : some 266#10 = some op := he
  cases he
  exact ⟨rfl, by decide⟩

theorem discard (d : BitVec 6) (b : BitVec 6) (i : BitVec 6) (s : Scale) (p : Scope) (f : BitVec 20) : Statement (.discard d b i s p f) := by
  intro hw op he
  have he : some 267#10 = some op := he
  cases he
  exact ⟨rfl, by decide⟩

theorem flush (d : BitVec 6) (b : BitVec 6) (i : BitVec 6) (s : Scale) (p : Scope) (f : BitVec 20) : Statement (.flush d b i s p f) := by
  intro hw op he
  have he : some 268#10 = some op := he
  cases he
  exact ⟨rfl, by decide⟩

theorem fence (o : MemOrd) (p : Scope) : Statement (.fence o p) := by
  intro hw op he
  have he : some 269#10 = some op := he
  cases he
  exact ⟨rfl, by decide⟩

theorem br (cc : Cond) (a : BitVec 6) (b : BitVec 6) (s : BitVec 3) (l : BitVec 26) : Statement (.br cc a b s l) := by
  intro hw op he
  have he : some 384#10 = some op := he
  cases he
  exact ⟨rfl, by decide⟩

theorem jmp (s : BitVec 3) (l : BitVec 26) : Statement (.jmp s l) := by
  intro hw op he
  have he : some 385#10 = some op := he
  cases he
  exact ⟨rfl, by decide⟩

theorem jmpr (a : BitVec 6) : Statement (.jmpr a) := by
  intro hw op he
  have he : some 386#10 = some op := he
  cases he
  exact ⟨rfl, by decide⟩

theorem call (s : BitVec 3) (l : BitVec 26) : Statement (.call s l) := by
  intro hw op he
  have he : some 387#10 = some op := he
  cases he
  exact ⟨rfl, by decide⟩

theorem start (p : BitVec 2) (a : BitVec 6) (b : BitVec 6) (s : BitVec 3) (l : BitVec 26) : Statement (.start p a b s l) := by
  intro hw op he
  have he : some 388#10 = some op := he
  cases he
  exact ⟨rfl, by decide⟩

theorem exit : Statement (.exit) := by
  intro hw op he
  have he : some 389#10 = some op := he
  cases he
  exact ⟨rfl, by decide⟩

theorem yield : Statement (.yield) := by
  intro hw op he
  have he : some 390#10 = some op := he
  cases he
  exact ⟨rfl, by decide⟩

theorem ctxq (q : CtxQ) (d : BitVec 6) (a : BitVec 6) : Statement (.ctxq q d a) := by
  intro hw op he
  have he : some 391#10 = some op := he
  cases he
  exact ⟨rfl, by decide⟩

theorem send (n : Bool) (d : BitVec 6) (a : BitVec 6) (b : BitVec 6) (c : BitVec 6) : Statement (.send n d a b c) := by
  intro hw op he
  have he : some 392#10 = some op := he
  cases he
  exact ⟨rfl, by decide⟩

theorem recv (d : BitVec 6) (a : BitVec 6) (b : BitVec 6) : Statement (.recv d a b) := by
  intro hw op he
  have he : some 393#10 = some op := he
  cases he
  exact ⟨rfl, by decide⟩

theorem waitm (d : BitVec 6) : Statement (.waitm d) := by
  intro hw op he
  have he : some 394#10 = some op := he
  cases he
  exact ⟨rfl, by decide⟩

theorem rrsv (d : BitVec 6) (a : BitVec 6) (h : BitVec 4) : Statement (.rrsv d a h) := by
  intro hw op he
  have he : some 395#10 = some op := he
  cases he
  exact ⟨rfl, by decide⟩

theorem rpub (a : BitVec 6) (b : BitVec 6) (h : BitVec 4) : Statement (.rpub a b h) := by
  intro hw op he
  have he : some 396#10 = some op := he
  cases he
  exact ⟨rfl, by decide⟩

theorem rwait (d : BitVec 6) (a : BitVec 6) (h : BitVec 4) : Statement (.rwait d a h) := by
  intro hw op he
  have he : some 397#10 = some op := he
  cases he
  exact ⟨rfl, by decide⟩

theorem radv (a : BitVec 6) (h : BitVec 4) : Statement (.radv a h) := by
  intro hw op he
  have he : some 398#10 = some op := he
  cases he
  exact ⟨rfl, by decide⟩

theorem reos (h : BitVec 4) : Statement (.reos h) := by
  intro hw op he
  have he : some 399#10 = some op := he
  cases he
  exact ⟨rfl, by decide⟩

theorem rqry (q : RingQ) (d : BitVec 6) (h : BitVec 4) : Statement (.rqry q d h) := by
  intro hw op he
  have he : some 400#10 = some op := he
  cases he
  exact ⟨rfl, by decide⟩

theorem smode (s : BitVec 4) (a : BitVec 6) (b : BitVec 6) : Statement (.smode s a b) := by
  intro hw op he
  have he : some 401#10 = some op := he
  cases he
  exact ⟨rfl, by decide⟩

theorem soff (s : BitVec 4) : Statement (.soff s) := by
  intro hw op he
  have he : some 402#10 = some op := he
  cases he
  exact ⟨rfl, by decide⟩

theorem copy (a : BitVec 6) (b : BitVec 6) (c : BitVec 6) : Statement (.copy a b c) := by
  intro hw op he
  have he : some 403#10 = some op := he
  cases he
  exact ⟨rfl, by decide⟩

theorem gather (a : BitVec 6) (b : BitVec 6) (c : BitVec 6) : Statement (.gather a b c) := by
  intro hw op he
  have he : some 404#10 = some op := he
  cases he
  exact ⟨rfl, by decide⟩

theorem scatter (a : BitVec 6) (b : BitVec 6) (c : BitVec 6) : Statement (.scatter a b c) := by
  intro hw op he
  have he : some 405#10 = some op := he
  cases he
  exact ⟨rfl, by decide⟩

theorem rcopy (op : RcOp) (i : Bool) (a : BitVec 6) (b : BitVec 6) (c : BitVec 6) : Statement (.rcopy op i a b c) := by
  intro hw op he
  have he : some 406#10 = some op := he
  cases he
  exact ⟨rfl, by decide⟩

theorem cretry (a : BitVec 6) : Statement (.cretry a) := by
  intro hw op he
  have he : some 407#10 = some op := he
  cases he
  exact ⟨rfl, by decide⟩

theorem cskip (r : Bool) (a : BitVec 6) : Statement (.cskip r a) := by
  intro hw op he
  have he : some 408#10 = some op := he
  cases he
  exact ⟨rfl, by decide⟩

theorem cabort (a : BitVec 6) : Statement (.cabort a) := by
  intro hw op he
  have he : some 409#10 = some op := he
  cases he
  exact ⟨rfl, by decide⟩

theorem step (d : BitVec 6) (g : BitVec 6) : Statement (.step d g) := by
  intro hw op he
  have he : some 410#10 = some op := he
  cases he
  exact ⟨rfl, by decide⟩

theorem handoff (d : BitVec 6) (a : BitVec 6) (n : BitVec 8) : Statement (.handoff d a n) := by
  intro hw op he
  have he : some 411#10 = some op := he
  cases he
  exact ⟨rfl, by decide⟩

theorem take (d : BitVec 6) (n : BitVec 8) : Statement (.take d n) := by
  intro hw op he
  have he : some 412#10 = some op := he
  cases he
  exact ⟨rfl, by decide⟩

theorem post (a : BitVec 6) (b : BitVec 6) (k : BitVec 6) : Statement (.post a b k) := by
  intro hw op he
  have he : some 413#10 = some op := he
  cases he
  exact ⟨rfl, by decide⟩

theorem trap (imm : BitVec 34) : Statement (.trap imm) := by
  intro hw op he
  have he : some 414#10 = some op := he
  cases he
  exact ⟨rfl, by decide⟩

theorem eret : Statement (.eret) := by
  intro hw op he
  have he : some 415#10 = some op := he
  cases he
  exact ⟨rfl, by decide⟩

theorem sysr (d : BitVec 6) (a : BitVec 6) (cw : BitVec 12) : Statement (.sysr d a cw) := by
  intro hw op he
  have he : some 416#10 = some op := he
  cases he
  exact ⟨rfl, by decide⟩

theorem sysw (d : BitVec 6) (a : BitVec 6) (cw : BitVec 12) : Statement (.sysw d a cw) := by
  intro hw op he
  have he : some 417#10 = some op := he
  cases he
  exact ⟨rfl, by decide⟩

theorem resume (a : BitVec 6) (b : BitVec 6) : Statement (.resume a b) := by
  intro hw op he
  have he : some 418#10 = some op := he
  cases he
  exact ⟨rfl, by decide⟩

theorem halt : Statement (.halt) := by
  intro hw op he
  have he : some 419#10 = some op := he
  cases he
  exact ⟨rfl, by decide⟩

theorem tlbi (k : TlbK) (a : BitVec 6) (b : BitVec 6) : Statement (.tlbi k a b) := by
  intro hw op he
  have he : some 420#10 = some op := he
  cases he
  exact ⟨rfl, by decide⟩

theorem dbgbrk (i : BitVec 16) : Statement (.dbgbrk i) := by
  intro hw op he
  have he : some 421#10 = some op := he
  cases he
  exact ⟨rfl, by decide⟩

theorem mill (acc : BitVec 3) (c : MillC) (fA : Fmt) (fB : Fmt) (ma : BitVec 4) (mb : BitVec 4) (s : BitVec 3) (m : AccM) (nf : BitVec 4) : Statement (.mill acc c fA fB ma mb s m nf) := by
  intro hw op he
  have he : some 512#10 = some op := he
  cases he
  have hb : Instr.body (.mill acc c fA fB ma mb s m nf) = fmill acc c.mode fA.code fB.code c.fcode ma c.mcField mb c.mnField s m.code nf := rfl
  have hr (x : Body) : fmtFields ((512#10).toNat / 128) ((512#10).toNat % 128) x = [x.f 35 5, x.f 30 5] ++ (if x.f 40 3 = 0#3 ∨ x.f 40 3 = 4#3 then [] else [x.f 25 5]) := rfl
  rw [hb, hr]
  refine ⟨?_, by decide⟩
  simp (disch := decide) only [fmill_f35_5, fmill_f30_5, fmill_f40_3, fmill_f25_5, BitVec.extractLsb'_append_eq_of_le, BitVec.extractLsb'_append_eq_of_add_le] <;> simp +contextual

theorem millg (acc : BitVec 3) (c : MillC) (fA : Fmt) (fB : Fmt) (ma : BitVec 4) (mb : BitVec 4) (w : BitVec 2) (s : BitVec 3) (m : AccM) (nf : BitVec 4) : Statement (.millg acc c fA fB ma mb w s m nf) := by
  intro hw op he
  have he : some 513#10 = some op := he
  cases he
  have hb : Instr.body (.millg acc c fA fB ma mb w s m nf) = fmill acc c.mode fA.code fB.code c.fcode ma c.mcField mb (0#2 ++ w) s m.code nf := rfl
  have hr (x : Body) : fmtFields ((513#10).toNat / 128) ((513#10).toNat % 128) x = [x.f 35 5, x.f 30 5] ++ (if x.f 40 3 = 0#3 ∨ x.f 40 3 = 4#3 then [] else [x.f 25 5]) := rfl
  rw [hb, hr]
  refine ⟨?_, by decide⟩
  simp (disch := decide) only [fmill_f35_5, fmill_f30_5, fmill_f40_3, fmill_f25_5, part_2_4_f0, part_2_2_f0, part_2_18_f0, part_2_18_f18, part_2_7_f7, BitVec.extractLsb'_append_eq_of_le, BitVec.extractLsb'_append_eq_of_add_le] <;> simp +contextual

theorem millx (acc : BitVec 3) (c : MillC) (fA : Fmt) (fB : Fmt) (ma : BitVec 4) (mb : BitVec 4) (o : BitVec 4) (s : BitVec 3) (m : AccM) (nf : BitVec 4) : Statement (.millx acc c fA fB ma mb o s m nf) := by
  intro hw op he
  have he : some 514#10 = some op := he
  cases he
  have hb : Instr.body (.millx acc c fA fB ma mb o s m nf) = fmill acc c.modeGrouped fA.code fB.code c.fcode ma c.mcField mb o s m.code nf := rfl
  have hr (x : Body) : fmtFields ((514#10).toNat / 128) ((514#10).toNat % 128) x = [x.f 35 5, x.f 30 5] ++ (if x.f 40 3 = 0#3 ∨ x.f 40 3 = 4#3 then [] else [x.f 25 5]) := rfl
  rw [hb, hr]
  refine ⟨?_, by decide⟩
  simp (disch := decide) only [fmill_f35_5, fmill_f30_5, fmill_f40_3, fmill_f25_5, BitVec.extractLsb'_append_eq_of_le, BitVec.extractLsb'_append_eq_of_add_le] <;> simp +contextual

theorem mzero (acc : BitVec 3) (nf : BitVec 4) : Statement (.mzero acc nf) := by
  intro hw op he
  have he : some 515#10 = some op := he
  cases he
  exact ⟨rfl, by decide⟩

theorem mdrain (d : BitVec 11) (k : BitVec 3) (nf : BitVec 4) : Statement (.mdrain d k nf) := by
  intro hw op he
  have he : some 516#10 = some op := he
  cases he
  exact ⟨rfl, by decide⟩

theorem mseta (d : BitVec 4) (a : BitVec 11) (nf : BitVec 4) : Statement (.mseta d a nf) := by
  intro hw op he
  have he : some 517#10 = some op := he
  cases he
  exact ⟨rfl, by decide⟩

theorem msetb (d : BitVec 4) (a : BitVec 11) (nf : BitVec 4) : Statement (.msetb d a nf) := by
  intro hw op he
  have he : some 518#10 = some op := he
  cases he
  exact ⟨rfl, by decide⟩

theorem midx (a : BitVec 11) (nf : BitVec 4) : Statement (.midx a nf) := by
  intro hw op he
  have he : some 519#10 = some op := he
  cases he
  exact ⟨rfl, by decide⟩

theorem vadd (ty : VTy) (v : VArgs) : Statement (.vadd ty v) := by
  intro hw op he
  have he : some 640#10 = some op := he
  cases he
  exact ⟨rfl, by decide⟩

theorem vsub (ty : VTy) (v : VArgs) : Statement (.vsub ty v) := by
  intro hw op he
  have he : some 641#10 = some op := he
  cases he
  exact ⟨rfl, by decide⟩

theorem vmul (ty : VTy) (v : VArgs) : Statement (.vmul ty v) := by
  intro hw op he
  have he : some 642#10 = some op := he
  cases he
  exact ⟨rfl, by decide⟩

theorem vfma (ty : VTy) (v : VArgs) : Statement (.vfma ty v) := by
  intro hw op he
  have he : some 643#10 = some op := he
  cases he
  exact ⟨rfl, by decide⟩

theorem vmin (ty : VTy) (v : VArgs) : Statement (.vmin ty v) := by
  intro hw op he
  have he : some 644#10 = some op := he
  cases he
  exact ⟨rfl, by decide⟩

theorem vmax (ty : VTy) (v : VArgs) : Statement (.vmax ty v) := by
  intro hw op he
  have he : some 645#10 = some op := he
  cases he
  exact ⟨rfl, by decide⟩

theorem vand (ty : VTy) (v : VArgs) : Statement (.vand ty v) := by
  intro hw op he
  have he : some 646#10 = some op := he
  cases he
  exact ⟨rfl, by decide⟩

theorem vor (ty : VTy) (v : VArgs) : Statement (.vor ty v) := by
  intro hw op he
  have he : some 647#10 = some op := he
  cases he
  exact ⟨rfl, by decide⟩

theorem vxor (ty : VTy) (v : VArgs) : Statement (.vxor ty v) := by
  intro hw op he
  have he : some 648#10 = some op := he
  cases he
  exact ⟨rfl, by decide⟩

theorem vshl (ty : VTy) (v : VArgs) : Statement (.vshl ty v) := by
  intro hw op he
  have he : some 649#10 = some op := he
  cases he
  exact ⟨rfl, by decide⟩

theorem vshr (ty : VTy) (v : VArgs) : Statement (.vshr ty v) := by
  intro hw op he
  have he : some 650#10 = some op := he
  cases he
  exact ⟨rfl, by decide⟩

theorem vsra (ty : VTy) (v : VArgs) : Statement (.vsra ty v) := by
  intro hw op he
  have he : some 651#10 = some op := he
  cases he
  exact ⟨rfl, by decide⟩

theorem vcmp (ty : VTy) (v : VArgs) : Statement (.vcmp ty v) := by
  intro hw op he
  have he : some 652#10 = some op := he
  cases he
  exact ⟨rfl, by decide⟩

theorem vsel (ty : VTy) (v : VArgs) : Statement (.vsel ty v) := by
  intro hw op he
  have he : some 653#10 = some op := he
  cases he
  exact ⟨rfl, by decide⟩

theorem vcvt (ty : VTy) (w : Bool) (rm : Rm) (f : Fmt) (v : VArgs1) : Statement (.vcvt ty w rm f v) := by
  intro hw op he
  have he : some 654#10 = some op := he
  cases he
  have hb : Instr.body (.vcvt ty w rm f v) = v.body ty.code (0#2 ++ BitVec.ofBool w ++ rm.code ++ f.code) := rfl
  have hr (x : Body) : fmtFields ((654#10).toNat / 128) ((654#10).toNat % 128) x = [x.f 13 5] := rfl
  rw [hb, hr]
  refine ⟨?_, by decide⟩
  simp (disch := decide) only [VArgs1.body_f13_5, part_2_b_3_5_f0, part_2_b_3_5_f5, part_2_b_3_5_bit8, BitVec.extractLsb'_append_eq_of_le, BitVec.extractLsb'_append_eq_of_add_le] <;> simp

theorem vpack (f : Fmt) (d : BitVec 11) (a : BitVec 11) (nf : BitVec 4) : Statement (.vpack f d a nf) := by
  intro hw op he
  have he : some 655#10 = some op := he
  cases he
  have hb : Instr.body (.vpack f d a nf) = fv3 d a (0#6 ++ f.code) 0#3 0#3 0#3 nf := rfl
  have hr (x : Body) : fmtFields ((655#10).toNat / 128) ((655#10).toNat % 128) x = [x.f 13 5] := rfl
  rw [hb, hr]
  refine ⟨?_, by decide⟩
  simp (disch := decide) only [fv3_f13_5, part_6_3_f0, part_6_5_f0, part_6_28_f0, part_6_28_f28, BitVec.extractLsb'_append_eq_of_le, BitVec.extractLsb'_append_eq_of_add_le] <;> simp

theorem vunpk (f : Fmt) (d : BitVec 11) (a : BitVec 11) (nf : BitVec 4) : Statement (.vunpk f d a nf) := by
  intro hw op he
  have he : some 656#10 = some op := he
  cases he
  have hb : Instr.body (.vunpk f d a nf) = fv3 d a (0#6 ++ f.code) 0#3 0#3 0#3 nf := rfl
  have hr (x : Body) : fmtFields ((656#10).toNat / 128) ((656#10).toNat % 128) x = [x.f 13 5] := rfl
  rw [hb, hr]
  refine ⟨?_, by decide⟩
  simp (disch := decide) only [fv3_f13_5, part_6_3_f0, part_6_5_f0, part_6_28_f0, part_6_28_f28, BitVec.extractLsb'_append_eq_of_le, BitVec.extractLsb'_append_eq_of_add_le] <;> simp

theorem vexp2 (ty : VTy) (v : VArgs1) : Statement (.vexp2 ty v) := by
  intro hw op he
  have he : some 657#10 = some op := he
  cases he
  exact ⟨rfl, by decide⟩

theorem vlog2 (ty : VTy) (v : VArgs1) : Statement (.vlog2 ty v) := by
  intro hw op he
  have he : some 658#10 = some op := he
  cases he
  exact ⟨rfl, by decide⟩

theorem vrcp (ty : VTy) (v : VArgs1) : Statement (.vrcp ty v) := by
  intro hw op he
  have he : some 659#10 = some op := he
  cases he
  exact ⟨rfl, by decide⟩

theorem vrsq (ty : VTy) (v : VArgs1) : Statement (.vrsq ty v) := by
  intro hw op he
  have he : some 660#10 = some op := he
  cases he
  exact ⟨rfl, by decide⟩

theorem vred (ty : VTy) (op : RedOp) (v : VArgs1) : Statement (.vred ty op v) := by
  intro hw op he
  have he : some 661#10 = some op := he
  cases he
  exact ⟨rfl, by decide⟩

theorem vscan (ty : VTy) (op : RedOp) (ex : Bool) (v : VArgs1) : Statement (.vscan ty op ex v) := by
  intro hw op he
  have he : some 662#10 = some op := he
  cases he
  exact ⟨rfl, by decide⟩

theorem vthr (v : VArgs) : Statement (.vthr v) := by
  intro hw op he
  have he : some 663#10 = some op := he
  cases he
  exact ⟨rfl, by decide⟩

theorem vbis (v : VArgs) : Statement (.vbis v) := by
  intro hw op he
  have he : some 664#10 = some op := he
  cases he
  exact ⟨rfl, by decide⟩

theorem vcnt (v : VArgs) : Statement (.vcnt v) := by
  intro hw op he
  have he : some 665#10 = some op := he
  cases he
  exact ⟨rfl, by decide⟩

theorem vperm (v : VArgs) : Statement (.vperm v) := by
  intro hw op he
  have he : some 666#10 = some op := he
  cases he
  exact ⟨rfl, by decide⟩

theorem vrot (n : BitVec 5) (v : VArgs1) : Statement (.vrot n v) := by
  intro hw op he
  have he : some 667#10 = some op := he
  cases he
  exact ⟨rfl, by decide⟩

theorem vbc (n : BitVec 5) (v : VArgs1) : Statement (.vbc n v) := by
  intro hw op he
  have he : some 668#10 = some op := he
  cases he
  exact ⟨rfl, by decide⟩

theorem vmov (v : VArgs1) : Statement (.vmov v) := by
  intro hw op he
  have he : some 669#10 = some op := he
  cases he
  exact ⟨rfl, by decide⟩

theorem vli (hi : Bool) (lane : Option (BitVec 5)) (d : BitVec 11) (imm : BitVec 20) (nf : BitVec 4) : Statement (.vli hi lane d imm nf) := by
  intro hw op he
  have he : some 670#10 = some op := he
  cases he
  exact ⟨rfl, by decide⟩

theorem vld (d : BitVec 11) (a : BitVec 11) (o : BitVec 18) (nf : BitVec 4) : Statement (.vld d a o nf) := by
  intro hw op he
  have he : some 671#10 = some op := he
  cases he
  exact ⟨rfl, by decide⟩

theorem vst (p : BitVec 2) (d : BitVec 11) (a : BitVec 11) (o : BitVec 18) (nf : BitVec 4) : Statement (.vst p d a o nf) := by
  intro hw op he
  have he : some 672#10 = some op := he
  cases he
  exact ⟨rfl, by decide⟩

theorem sld (p : BitVec 2) (sx : BitVec 6) (g : BitVec 6) (n : BitVec 12) (nf : BitVec 4) : Statement (.sld p sx g n nf) := by
  intro hw op he
  have he : some 768#10 = some op := he
  cases he
  exact ⟨rfl, by decide⟩

theorem sldl (sp : Bool) (sx : BitVec 6) (g : BitVec 6) (n : BitVec 12) (nf : BitVec 4) : Statement (.sldl sp sx g n nf) := by
  intro hw op he
  have he : some 769#10 = some op := he
  cases he
  exact ⟨rfl, by decide⟩

theorem sst (sx : BitVec 6) (g : BitVec 6) (n : BitVec 12) (nf : BitVec 4) : Statement (.sst sx g n nf) := by
  intro hw op he
  have he : some 770#10 = some op := he
  cases he
  exact ⟨rfl, by decide⟩

theorem sgth (p : BitVec 2) (f : IdxFmt) (sx : BitVec 6) (g : BitVec 6) (n : BitVec 12) (nf : BitVec 4) : Statement (.sgth p f sx g n nf) := by
  intro hw op he
  have he : some 771#10 = some op := he
  cases he
  have hb : Instr.body (.sgth p f sx g n nf) = fstrm sx 0#6 n 0#4 f.code (p ++ 0#1 ++ g) nf := rfl
  have hr (x : Body) : fmtFields ((771#10).toNat / 128) ((771#10).toNat % 128) x = [x.f 13 5] := rfl
  rw [hb, hr]
  refine ⟨?_, by decide⟩
  simp (disch := decide) only [fstrm_f13_5, part_2_1_6_f0, part_2_1_6_f7, BitVec.extractLsb'_append_eq_of_le, BitVec.extractLsb'_append_eq_of_add_le] <;> simp

theorem ssct (f : IdxFmt) (sx : BitVec 6) (g : BitVec 6) (n : BitVec 12) (nf : BitVec 4) : Statement (.ssct f sx g n nf) := by
  intro hw op he
  have he : some 772#10 = some op := he
  cases he
  have hb : Instr.body (.ssct f sx g n nf) = fstrm sx 0#6 n 0#4 f.code (0#3 ++ g) nf := rfl
  have hr (x : Body) : fmtFields ((772#10).toNat / 128) ((772#10).toNat % 128) x = [x.f 13 5] := rfl
  rw [hb, hr]
  refine ⟨?_, by decide⟩
  simp (disch := decide) only [fstrm_f13_5, part_3_3_f0, part_3_6_f0, BitVec.extractLsb'_append_eq_of_le, BitVec.extractLsb'_append_eq_of_add_le] <;> simp

theorem sxl (p : BitVec 2) (dir : Dir) (sx : BitVec 6) (n : BitVec 12) (nf : BitVec 4) : Statement (.sxl p dir sx n nf) := by
  intro hw op he
  have he : some 773#10 = some op := he
  cases he
  exact ⟨rfl, by decide⟩

theorem scnt (p : BitVec 2) (dir : Dir) (sx : BitVec 6) (n : BitVec 12) (nf : BitVec 4) : Statement (.scnt p dir sx n nf) := by
  intro hw op he
  have he : some 774#10 = some op := he
  cases he
  exact ⟨rfl, by decide⟩

theorem smeta (dir : Dir) (sx : BitVec 6) (n : BitVec 12) (nf : BitVec 4) : Statement (.smeta dir sx n nf) := by
  intro hw op he
  have he : some 775#10 = some op := he
  cases he
  exact ⟨rfl, by decide⟩

theorem sset (t : SsetDst) (sx : BitVec 6) (sy : BitVec 6) (n : BitVec 12) (nf : BitVec 4) : Statement (.sset t sx sy n nf) := by
  intro hw op he
  have he : some 776#10 = some op := he
  cases he
  exact ⟨rfl, by decide⟩

theorem window (pol : WinPol) (w : BitVec 4) (n : BitVec 34) : Statement (.window pol w n) := by
  intro hw op he
  have he : some 896#10 = some op := he
  cases he
  exact ⟨rfl, by decide⟩

theorem pread (v : BitVec 6) (k : BitVec 6) (n : BitVec 5) : Statement (.pread v k n) := by
  intro hw op he
  have he : some 897#10 = some op := he
  cases he
  exact ⟨rfl, by decide⟩

theorem nfset (r : NfRel) (c : NfCtr) (k : BitVec 4) (j : BitVec 6) (v : BitVec 28) : Statement (.nfset r c k j v) := by
  intro hw op he
  have he : some 898#10 = some op := he
  cases he
  exact ⟨rfl, by decide⟩

theorem nfclr (m : BitVec 15) : Statement (.nfclr m) := by
  intro hw op he
  have he : some 899#10 = some op := he
  cases he
  exact ⟨rfl, by decide⟩

theorem loopset (c : BitVec 1) (r : BitVec 16) (n : BitVec 16) : Statement (.loopset c r n) := by
  intro hw op he
  have he : some 900#10 = some op := he
  cases he
  exact ⟨rfl, by decide⟩

theorem tstep (g : BitVec 6) (n : BitVec 34) : Statement (.tstep g n) := by
  intro hw op he
  have he : some 901#10 = some op := he
  cases he
  exact ⟨rfl, by decide⟩

theorem tmark (v : BitVec 34) : Statement (.tmark v) := by
  intro hw op he
  have he : some 902#10 = some op := he
  cases he
  exact ⟨rfl, by decide⟩

theorem tsync (e : BitVec 16) : Statement (.tsync e) := by
  intro hw op he
  have he : some 903#10 = some op := he
  cases he
  exact ⟨rfl, by decide⟩

theorem tend : Statement (.tend) := by
  intro hw op he
  have he : some 904#10 = some op := he
  cases he
  exact ⟨rfl, by decide⟩

theorem twait (v : BitVec 34) : Statement (.twait v) := by
  intro hw op he
  have he : some 905#10 = some op := he
  cases he
  exact ⟨rfl, by decide⟩

theorem linkBeatPresent (ext : Option BeatIn) : Statement (.linkBeatPresent ext) := fun _ o (e : none = some o) => nomatch e

theorem metadataPairArrival (ext : Option PairIn) : Statement (.metadataPairArrival ext) := fun _ o (e : none = some o) => nomatch e

theorem windowClose (w : BitVec 4) : Statement (.windowClose w) := fun _ o (e : none = some o) => nomatch e

theorem postArrival (n : Nat) : Statement (.postArrival n) := fun _ o (e : none = some o) => nomatch e

theorem holdArrival (ext : Option HoldIn) : Statement (.holdArrival ext) := fun _ o (e : none = some o) => nomatch e

theorem stepGroupComplete (g : BitVec 6) : Statement (.stepGroupComplete g) := fun _ o (e : none = some o) => nomatch e

theorem stepTakesEffect (g : BitVec 6) : Statement (.stepTakesEffect g) := fun _ o (e : none = some o) => nomatch e

theorem stepCompletionWake (g : BitVec 6) : Statement (.stepCompletionWake g) := fun _ o (e : none = some o) => nomatch e

theorem tsyncMarkerArrival (ext : Option MarkerIn) : Statement (.tsyncMarkerArrival ext) := fun _ o (e : none = some o) => nomatch e

theorem accessPerformed (n : Nat) : Statement (.accessPerformed n) := fun _ o (e : none = some o) => nomatch e

theorem pageWalk (va : BitVec 56) (store : Bool) : Statement (.pageWalk va store) := fun _ o (e : none = some o) => nomatch e

theorem messageArrival (n : Nat) : Statement (.messageArrival n) := fun _ o (e : none = some o) => nomatch e

theorem copyElement (op : BitVec 4) : Statement (.copyElement op) := fun _ o (e : none = some o) => nomatch e

theorem copyCompletion (op : BitVec 4) : Statement (.copyCompletion op) := fun _ o (e : none = some o) => nomatch e

theorem streamRefill (x : BitVec 4) : Statement (.streamRefill x) := fun _ o (e : none = some o) => nomatch e

theorem trapDelivery (cause : BitVec 8) (detail : BitVec 8) (f1 : BitVec 64) : Statement (.trapDelivery cause detail f1) := fun _ o (e : none = some o) => nomatch e

theorem upcall (cause : BitVec 8) (f1 : BitVec 64) : Statement (.upcall cause f1) := fun _ o (e : none = some o) => nomatch e

theorem servicePath (o : SvcOutcome) : Statement (.servicePath o) := fun _ o (e : none = some o) => nomatch e

theorem faultCompletionNotice (tag : BitVec 16) : Statement (.faultCompletionNotice tag) := fun _ o (e : none = some o) => nomatch e

theorem preempt (leave : Bool) : Statement (.preempt leave) := fun _ o (e : none = some o) => nomatch e

theorem epochAnnounce (tb : Option Nat) : Statement (.epochAnnounce tb) := fun _ o (e : none = some o) => nomatch e

theorem switchSwapComplete (saveErr : Option (BitVec 8)) (restoreErr : Option (BitVec 8)) : Statement (.switchSwapComplete saveErr restoreErr) := fun _ o (e : none = some o) => nomatch e

theorem advisorEpochEnd (depth : Nat) : Statement (.advisorEpochEnd depth) := fun _ o (e : none = some o) => nomatch e

theorem patrolScrub (sector : Nat) (corrected : Option (BitVec 512)) : Statement (.patrolScrub sector corrected) := fun _ o (e : none = some o) => nomatch e

theorem bridgeFlitRetry (delay : Nat) : Statement (.bridgeFlitRetry delay) := fun _ o (e : none = some o) => nomatch e

theorem causewayRetry (west : Bool) (link : BitVec 3) (delay : Nat) : Statement (.causewayRetry west link delay) := fun _ o (e : none = some o) => nomatch e

theorem causewayRetryTimeout (west : Bool) (link : BitVec 3) : Statement (.causewayRetryTimeout west link) := fun _ o (e : none = some o) => nomatch e

theorem ueWorkItem (port : BitVec 3) : Statement (.ueWorkItem port) := fun _ o (e : none = some o) => nomatch e

theorem ueIncoming (port : BitVec 3) (op : UeIn) : Statement (.ueIncoming port op) := fun _ o (e : none = some o) => nomatch e

theorem qtailWrite (q : Nat) (v : BitVec 64) : Statement (.qtailWrite q v) := fun _ o (e : none = some o) => nomatch e

theorem packetAccept (q : Nat) : Statement (.packetAccept q) := fun _ o (e : none = some o) => nomatch e

theorem hseenWrite (v : BitVec 64) : Statement (.hseenWrite v) := fun _ o (e : none = some o) => nomatch e

theorem replay (v : BitVec 64) : Statement (.replay v) := fun _ o (e : none = some o) => nomatch e

theorem bar0RegisterWrite (off : Nat) (v : BitVec 64) : Statement (.bar0RegisterWrite off v) := fun _ o (e : none = some o) => nomatch e

theorem bar2Read (off : Nat) (len : Nat) : Statement (.bar2Read off len) := fun _ o (e : none = some o) => nomatch e

theorem bar2Write (off : Nat) (data : List (BitVec 8)) : Statement (.bar2Write off data) := fun _ o (e : none = some o) => nomatch e

theorem tdispRequest (mode : Tdi) : Statement (.tdispRequest mode) := fun _ o (e : none = some o) => nomatch e

theorem spdmRequest (r : SpdmReq) : Statement (.spdmRequest r) := fun _ o (e : none = some o) => nomatch e

theorem claim (session bothSides : Bool) (keyHash : BitVec 256) : Statement (.claim session bothSides keyHash) := fun _ o (e : none = some o) => nomatch e

theorem grant (index : BitVec 3) (base : Nat) (len : Nat) (read : Bool) (write : Bool) : Statement (.grant index base len read write) := fun _ o (e : none = some o) => nomatch e

theorem grantRevoke (index : BitVec 3) : Statement (.grantRevoke index) := fun _ o (e : none = some o) => nomatch e

theorem debugok (mask : BitVec 4) : Statement (.debugok mask) := fun _ o (e : none = some o) => nomatch e

theorem debugoff (mask : BitVec 4) : Statement (.debugoff mask) := fun _ o (e : none = some o) => nomatch e

theorem ldataRead (d : BitVec 6) : Statement (.ldataRead d) := fun _ o (e : none = some o) => nomatch e

theorem ldataWrite (d : BitVec 6) : Statement (.ldataWrite d) := fun _ o (e : none = some o) => nomatch e

theorem srecRead (tile : Nat) (d : BitVec 6) : Statement (.srecRead tile d) := fun _ o (e : none = some o) => nomatch e

theorem bootStage (f : BootFinding) : Statement (.bootStage f) := fun _ o (e : none = some o) => nomatch e

theorem ueWorkCompletion (port : BitVec 3) (status : BitVec 8) (detail : BitVec 8) (moved : Nat) (data : List (BitVec 8)) : Statement (.ueWorkCompletion port status detail moved data) := fun _ o (e : none = some o) => nomatch e

theorem checkpointStreamComplete (ok : Bool) (bytes : BitVec 64) : Statement (.checkpointStreamComplete ok bytes) := fun _ o (e : none = some o) => nomatch e

theorem launch : Statement (.launch) := fun _ o (e : none = some o) => nomatch e

theorem signal : Statement (.signal) := fun _ o (e : none = some o) => nomatch e

theorem attach : Statement (.attach) := fun _ o (e : none = some o) => nomatch e

theorem detach : Statement (.detach) := fun _ o (e : none = some o) => nomatch e

theorem arm : Statement (.arm) := fun _ o (e : none = some o) => nomatch e

theorem disarm : Statement (.disarm) := fun _ o (e : none = some o) => nomatch e

theorem stop : Statement (.stop) := fun _ o (e : none = some o) => nomatch e

theorem release : Statement (.release) := fun _ o (e : none = some o) => nomatch e

theorem dump : Statement (.dump) := fun _ o (e : none = some o) => nomatch e

theorem poke : Statement (.poke) := fun _ o (e : none = some o) => nomatch e

theorem trace : Statement (.trace) := fun _ o (e : none = some o) => nomatch e

theorem logcopy : Statement (.logcopy) := fun _ o (e : none = some o) => nomatch e

theorem event : Statement (.event) := fun _ o (e : none = some o) => nomatch e

theorem checkpointSave : Statement (.checkpointSave) := fun _ o (e : none = some o) => nomatch e

theorem checkpointRestore : Statement (.checkpointRestore) := fun _ o (e : none = some o) => nomatch e

theorem quiesceEnter : Statement (.quiesceEnter) := fun _ o (e : none = some o) => nomatch e

theorem quiesceLeave : Statement (.quiesceLeave) := fun _ o (e : none = some o) => nomatch e

theorem reshape : Statement (.reshape) := fun _ o (e : none = some o) => nomatch e

theorem portring : Statement (.portring) := fun _ o (e : none = some o) => nomatch e

theorem peer : Statement (.peer) := fun _ o (e : none = some o) => nomatch e

theorem mregion : Statement (.mregion) := fun _ o (e : none = some o) => nomatch e

theorem cwrite : Statement (.cwrite) := fun _ o (e : none = some o) => nomatch e

theorem vecResultWrite : Statement (.vecResultWrite) := fun _ o (e : none = some o) => nomatch e

theorem ssetFillUnit : Statement (.ssetFillUnit) := fun _ o (e : none = some o) => nomatch e

theorem millReadyCycle : Statement (.millReadyCycle) := fun _ o (e : none = some o) => nomatch e

theorem staticBurstPerform : Statement (.staticBurstPerform) := fun _ o (e : none = some o) => nomatch e

theorem staticReadLanding : Statement (.staticReadLanding) := fun _ o (e : none = some o) => nomatch e

theorem holdFrameTest : Statement (.holdFrameTest) := fun _ o (e : none = some o) => nomatch e

theorem tsyncMarkerTimeout : Statement (.tsyncMarkerTimeout) := fun _ o (e : none = some o) => nomatch e

theorem haltTreeArrival : Statement (.haltTreeArrival) := fun _ o (e : none = some o) => nomatch e

theorem partialWorkReport : Statement (.partialWorkReport) := fun _ o (e : none = some o) => nomatch e

theorem hangWatchdog : Statement (.hangWatchdog) := fun _ o (e : none = some o) => nomatch e

theorem icacheFillComplete : Statement (.icacheFillComplete) := fun _ o (e : none = some o) => nomatch e

theorem contextSwitch : Statement (.contextSwitch) := fun _ o (e : none = some o) => nomatch e

theorem forcedSwitch : Statement (.forcedSwitch) := fun _ o (e : none = some o) => nomatch e

theorem tlbAcknowledge : Statement (.tlbAcknowledge) := fun _ o (e : none = some o) => nomatch e

theorem pendingQueueReturn : Statement (.pendingQueueReturn) := fun _ o (e : none = some o) => nomatch e

theorem copyFault : Statement (.copyFault) := fun _ o (e : none = some o) => nomatch e

theorem bellSweep : Statement (.bellSweep) := fun _ o (e : none = some o) => nomatch e

theorem launchEpoch : Statement (.launchEpoch) := fun _ o (e : none = some o) => nomatch e

theorem loadingComplete : Statement (.loadingComplete) := fun _ o (e : none = some o) => nomatch e

theorem quantumExpiry : Statement (.quantumExpiry) := fun _ o (e : none = some o) => nomatch e

theorem switchDrainComplete : Statement (.switchDrainComplete) := fun _ o (e : none = some o) => nomatch e

theorem traceSample : Statement (.traceSample) := fun _ o (e : none = some o) => nomatch e

theorem bridgeFlitTimeout : Statement (.bridgeFlitTimeout) := fun _ o (e : none = some o) => nomatch e

theorem causewayLockLoss : Statement (.causewayLockLoss) := fun _ o (e : none = some o) => nomatch e

theorem ideIntegrityFailure : Statement (.ideIntegrityFailure) := fun _ o (e : none = some o) => nomatch e

theorem quiesceLimit : Statement (.quiesceLimit) := fun _ o (e : none = some o) => nomatch e

theorem coldReset : Statement (.coldReset) := fun _ o (e : none = some o) => nomatch e

theorem hostPortReset : Statement (.hostPortReset) := fun _ o (e : none = some o) => nomatch e

theorem powerLoss : Statement (.powerLoss) := fun _ o (e : none = some o) => nomatch e

theorem thermalTrip : Statement (.thermalTrip) := fun _ o (e : none = some o) => nomatch e

theorem millSweepRead : Statement (.millSweepRead) := fun _ o (e : none = some o) => nomatch e

theorem mdrainRowWrite : Statement (.mdrainRowWrite) := fun _ o (e : none = some o) => nomatch e

theorem staticBurstSlot : Statement (.staticBurstSlot) := fun _ o (e : none = some o) => nomatch e

theorem linkBeatDeparture : Statement (.linkBeatDeparture) := fun _ o (e : none = some o) => nomatch e

theorem chainMemberLeft : Statement (.chainMemberLeft) := fun _ o (e : none = some o) => nomatch e

theorem restoreAuthorisation : Statement (.restoreAuthorisation) := fun _ o (e : none = some o) => nomatch e

end Sys2Proof.Laws.Formats
end

