-- ==== Sys2Proof/Tests/Slice0.lean ====
section
/-!
SUPPORT. Tests: terms that well-formedness refuses, words written out from the encodings of the spec, single steps with
results computed by hand from it, and for each obligation with hypotheses a state and operands that meet them.
-/

namespace Sys2Proof.Tests

set_option Elab.async false

open Sys2Proof.Machine

/-! ## Ill-formed terms, one for each check -/

theorem test_wf_cmp : (Instr.cmp .zero 1#6 2#6 3#6).wf = false ∧ (Instr.cmp .lt 1#6 2#6 3#6).wf = true := by decide
theorem test_wf_cmpi : (Instr.cmpi .nonzero 1#6 2#6 3#30).wf = false := by decide
theorem test_wf_br :
    (Instr.br .zero 1#6 2#6 0#3 0#26).wf = false ∧ (Instr.br .lt 1#6 2#6 7#3 0#26).wf = false
      ∧ (Instr.br .lt 1#6 2#6 6#3 0#26).wf = true := by decide
theorem test_wf_slot_seven :
    (Instr.jmp 7#3 1#26).wf = false ∧ (Instr.call 7#3 1#26).wf = false ∧ (Instr.start 0#2 1#6 2#6 7#3 1#26).wf = false := by decide
theorem test_wf_rounding :
    (Instr.fadd .sr 1#6 2#6 3#6).wf = false ∧ (Instr.fsub .sr 1#6 2#6 3#6).wf = false ∧ (Instr.fmul .sr 1#6 2#6 3#6).wf = false
      ∧ (Instr.fma .sr 1#6 2#6 3#6 4#6).wf = false ∧ (Instr.dadd (.fp32 .sr) 1#5 2#5 3#5 0#6).wf = false
      ∧ (Instr.dmin (.bf16 .sr) 1#5 2#5 3#5 0#6).wf = false := by decide
theorem test_wf_formats :
    (Instr.fcvt .raw .fp32 .rne 1#6 2#6).wf = false ∧ (Instr.fcvt .fp32 .raw .rne 1#6 2#6).wf = false
      ∧ (Instr.fclass .int32 1#6 2#6).wf = false ∧ (Instr.dcvt .int64 .fp32 .rne 1#5 2#5 0#6).wf = false
      ∧ (Instr.fcvt .int64 .fp32 .sr 1#6 2#6).wf = false ∧ (Instr.fcvt .int64 .fp32 .rz 1#6 2#6).wf = true := by decide
theorem test_wf_lane_compare : (Instr.dcmp (.int .zero) 1#5 2#5 3#5 0#6).wf = false := by decide
theorem test_wf_orders :
    (Instr.ld 1#6 2#6 0#6 .x1 .rel .ctx 0#20).wf = false ∧ (Instr.st 1#6 2#6 0#6 .x1 .acq .ctx 0#20).wf = false
      ∧ (Instr.ldd 1#5 2#6 0#6 .x1 .acqrel .ctx 0#20).wf = false ∧ (Instr.stdf 1#5 2#6 0#6 .x1 .acqrel .ctx 0#20).wf = false
      ∧ (Instr.fence .plain .system).wf = false := by decide
theorem test_wf_ctxq : (Instr.ctxq .self 1#6 2#6).wf = false ∧ (Instr.ctxq .state 1#6 2#6).wf = true := by decide
theorem test_wf_recv :
    (Instr.recv 1#6 1#6 2#6).wf = false ∧ (Instr.recv 1#6 2#6 2#6).wf = false ∧ (Instr.recv 0#6 0#6 0#6).wf = true := by decide
theorem test_wf_index_pair :
    (Instr.gather 1#6 2#6 3#6).wf = false ∧ (Instr.scatter 1#6 2#6 0#6).wf = false
      ∧ (Instr.rcopy .add true 1#6 2#6 0#6).wf = false ∧ (Instr.rcopy .add false 1#6 2#6 0#6).wf = true := by decide
theorem test_wf_control_words :
    (Instr.sysr 1#6 2#6 0x100#12).wf = false ∧ (Instr.sysw 1#6 2#6 0x100#12).wf = false
      ∧ (Instr.sysr 1#6 2#6 0x800#12).wf = true := by decide
theorem test_wf_tlbi : (Instr.tlbi .page 1#6 2#6).wf = false ∧ (Instr.tlbi .all 1#6 0#6).wf = false := by decide
theorem test_wf_mill :
    (Instr.mill 0#3 (.kn .int8 0#4) .bf16 .bf16 0#4 0#4 0#3 .acc 0#4).wf = false
      ∧ (Instr.mill 0#3 .none .int8 .bf16 0#4 0#4 0#3 .acc 0#4).wf = false
      ∧ (Instr.millg 0#3 .none .bf16 .bf16 0#4 0#4 0#2 0#3 .acc 0#4).wf = false
      ∧ (Instr.millx 0#3 (.kv .bf16 0#4) .bf16 .bf16 0#4 0#4 0#4 0#3 .acc 0#4).wf = false := by decide
theorem test_wf_mdrain : (Instr.mdrain 2017#11 0#3 0#4).wf = false ∧ (Instr.mdrain 2016#11 0#3 0#4).wf = true := by decide

/-- A VEC argument of plain registers. -/
def vargs : VArgs := { d := 1#11, a := .reg 2#11, b := 3#11, sink := none, nf := 0#4 }
/-- A VEC argument of one plain register. -/
def vargs1 : VArgs1 := { d := 1#11, a := .reg 2#11, sink := none, nf := 0#4 }

theorem test_wf_vec :
    (Instr.vand .fp32 vargs).wf = false ∧ (Instr.vshl .bf16x2 vargs).wf = false ∧ (Instr.vsra .uint32 vargs).wf = false
      ∧ (Instr.vsel .uint32 vargs).wf = false ∧ (Instr.vexp2 .int32 vargs1).wf = false
      ∧ (Instr.vred .bf16x2 .add vargs1).wf = false ∧ (Instr.vcvt .int16x2 true .rne .fp32 vargs1).wf = false
      ∧ (Instr.vcvt .fp32 true .rne .int64 vargs1).wf = false := by decide
theorem test_wf_vpack :
    (Instr.vpack .fp32 0#11 0#11 0#4).wf = false ∧ (Instr.vpack .bf16 0#11 2047#11 0#4).wf = false
      ∧ (Instr.vunpk .fp4 2041#11 0#11 0#4).wf = false ∧ (Instr.vunpk .fp4 2040#11 0#11 0#4).wf = true := by decide
theorem test_wf_timed :
    (Instr.scnt 0#2 .n 0#6 3#12 0#4).wf = false ∧ (Instr.window .dflt 0#4 0#34).wf = false ∧ (Instr.pread 0#6 33#6 31#5).wf = false
      ∧ (Instr.nfset .eq .none 0#4 0#6 0#28).wf = false ∧ (Instr.tstep 0#6 0#34).wf = false := by decide
theorem test_wf_queue : (Instr.qtailWrite 5 0#64).wf = false ∧ (Instr.packetAccept 5).wf = false := by decide

/-! ## Words written out bit by bit from 02 R61-R67 -/

/-- What a word decodes to, nothing where it is refused. -/
def read (w : Word) : Option Slot := (decode w).toOption

theorem test_decode_integer :
    read 0x0000450420000000#64 = some ⟨0#8, .add 5#6 1#6 2#6⟩ ∧ decodeTableWord 64 0x0000450420000000 = some (.add 5#6 1#6 2#6) := by
  decide
theorem test_decode_float_lanes : read 0x0027481280020200#64 = some ⟨0#8, .dhist true 4#5 1#5 5#5 0#6⟩ := by decide
theorem test_decode_memory :
    read 0x0040070C44C00010#64 = some ⟨0#8, .ld 7#6 3#6 4#6 .x8 .acq .partition 16#20⟩
      ∧ read 0x00404B280C000008#64 = some ⟨0#8, .st 11#6 10#6 0#6 .x512 .plain .ctx 8#20⟩ := by decide
theorem test_decode_flow : read 0x0060041488000123#64 = some ⟨0#8, .br .lt 4#6 5#6 2#3 0x123#26⟩ := by decide
theorem test_decode_messages : read 0x0067405CD0010000#64 = some ⟨0#8, .post 23#6 13#6 1#6⟩ := by decide
theorem test_decode_copies : read 0x0065004915800000#64 = some ⟨0#8, .gather 18#6 17#6 22#6⟩ := by decide
theorem test_decode_mill :
    read 0x108003318C402810#64 = some ⟨16#8, .mill 0#3 (.kn .bf16 4#4) .bf16 .bf16 2#4 1#4 0#3 .ovw 0#4⟩
      ∧ read 0xA580403180000420#64 = some ⟨165#8, .millg 0#3 .none .bf16 .bf16 0#4 0#4 2#2 0#3 .arr 0#4⟩ := by decide
theorem test_decode_vector :
    read 0x03A0005000019282#64 = some ⟨3#8, .vadd .fp32 { d := 10#11, a := .link .n, b := 12#11, sink := some .e, nf := 2#4 }⟩
      ∧ read 0x02A301001E03E010#64
        = some ⟨2#8, .vcmp .int32 { d := 32#11, a := .reg 30#11, b := 31#11, sink := none, nf := 0#4 }⟩ := by decide
theorem test_decode_streams :
    read 0x02C0060008000030#64 = some ⟨2#8, .sld 0#2 6#6 3#6 32#12 0#4⟩
      ∧ read 0x10C080000C000030#64 = some ⟨16#8, .sst 0#6 3#6 48#12 0#4⟩
      ∧ read 0x00C0C10008008030#64 = some ⟨0#8, .sgth 0#2 .i32 1#6 3#6 32#12 0#4⟩ := by decide
theorem test_decode_reeve :
    read 0x04E0020400000006#64 = some ⟨4#8, .window .dflt 2#4 6#34⟩ ∧ read 0x06E0400000000005#64 = some ⟨6#8, .pread 0#6 5#6 0#5⟩
      ∧ read 0x00E1C00000000007#64 = some ⟨0#8, .tsync 7#16⟩ := by decide
theorem test_decode_reserved :
    read 0x0000450420000001#64 = none ∧ read 0x0100450420000000#64 = none ∧ read 0x001FC00000000000#64 = none := by decide

/-! ## A small package: one launch current in partition 0, context 0 of core 0 running -/

/-- The current launch: fifteen code lines from line 1, page tables at 0x10000, its shares of the Mere, the Loft and local
memory. -/
def wJob : Resident :=
  { (default : Resident) with
    state := .current
    image := 0x400000
    nlines := 16
    codeFirst := 1
    codeCount := 15
    code := [(1, 0x7F00000002#512)]
    place := { (default : Place) with root := 0x10000, mlen := 32, flen := 2, llen := 4 } }

/-- A leaf with V, D, A, X, W and R that maps to a page (08 R250). -/
def wLeaf (pa : Nat) : Word := 0xBE00000000000000#64 ||| BitVec.ofNat 64 pa

/-- Page 1 in local memory, page 2 in HBM, page 3 in the Mere of tile 0, page 4 without R, page 5 at the launch's image. -/
def wTlb : List TlbEnt :=
  [{ page := 1, large := false, slot := 0, leaf := wLeaf 0x10040000000 },
   { page := 2, large := false, slot := 0, leaf := wLeaf 0x20000 },
   { page := 3, large := false, slot := 0, leaf := wLeaf 0x10000000000 },
   { page := 4, large := false, slot := 0, leaf := 0xBC00000000020000#64 }]

def wBase : State :=
  { (State.reset.onPart 0 fun p => { p with cur := some 0, res := [(0, some wJob)], tlbs := [(1, wTlb)] }) with stage := 7, clock := 100 }
    |>.onJob fun j => { j with begun := true, cores := [(0, { (default : Core) with running := some 0 })] }

/-- The base with registers of the context in focus: G1 to G3 and D1 to D3. -/
def wRegs : State :=
  wBase.onCx fun c =>
    { c with
      state := .running, pc := 8#29, upv := 80#29, ran := true
      g := [(1, 7#64), (2, 0xFFFFFFFFFFFFFFFF#64), (3, 5#64), (4, 0x8000000000000000#64)]
      d := [(1, 0x0000000500000003#512), (2, 0x0000000700000002#512), (3, 1#512)] }

/-- The base with G1 and G2 given. -/
def wG (x y : Word) : State := wRegs.onCx fun c => { c with g := [(1, x), (2, y), (3, 5#64)] }

/-- The register that an instruction leaves in G5, when it answers a next state. -/
def g5 (i : Instr) (s : State) : Option Word :=
  match exec i s with
  | .next t => some (t.cx.rg 5#6)
  | _ => none

/-- The context that an instruction leaves in focus. -/
def after (i : Instr) (s : State) : Option Ctx :=
  match exec i s with
  | .next t => some t.cx
  | _ => none

/-! ## Single steps, by hand from the rules named -/

theorem test_add_wraps : g5 (.add 5#6 1#6 2#6) wRegs = some 6#64 ∧ g5 (.sub 5#6 1#6 2#6) wRegs = some 8#64 := by decide
theorem test_mulh_sign :
    g5 (.mulh 5#6 1#6 2#6) wRegs = some 0xFFFFFFFFFFFFFFFF#64 ∧ g5 (.mulhu 5#6 1#6 2#6) wRegs = some 6#64 := by decide
theorem test_div_corners :
    g5 (.div 5#6 4#6 2#6) wRegs = some 0x8000000000000000#64 ∧ g5 (.rem 5#6 4#6 2#6) wRegs = some 0#64
      ∧ g5 (.div 5#6 1#6 0#6) wRegs = some 0xFFFFFFFFFFFFFFFF#64 ∧ g5 (.remu 5#6 1#6 0#6) wRegs = some 7#64 := by decide
theorem test_div_toward_zero :
    g5 (.div 5#6 1#6 2#6) (wG 0xFFFFFFFFFFFFFFF9#64 2#64) = some 0xFFFFFFFFFFFFFFFD#64
      ∧ g5 (.rem 5#6 1#6 2#6) (wG 0xFFFFFFFFFFFFFFF9#64 2#64) = some 0xFFFFFFFFFFFFFFFF#64 := by decide
theorem test_shift_by_64 :
    g5 (.shl 5#6 1#6 2#6) (wG 7#64 64#64) = some 7#64
      ∧ g5 (.sra 5#6 1#6 2#6) (wG 0x8000000000000000#64 63#64) = some 0xFFFFFFFFFFFFFFFF#64 := by decide
theorem test_extr_past_top : g5 (.extr 5#6 1#6 2#6 7#6) (wG 0xAB00000000000000#64 60#64) = some 0xA#64 := by decide
theorem test_g0_reads_zero :
    g5 (.add 5#6 0#6 1#6) wRegs = some 7#64 ∧ (after (.add 0#6 1#6 1#6) wRegs).map (fun c => c.rg 0#6) = some 0#64 := by decide
theorem test_source_is_destination : (after (.sub 1#6 1#6 3#6) wRegs).map (fun c => c.rg 1#6) = some 2#64 := by decide
theorem test_li_lih :
    g5 (.li 5#6 0x3FFFFFFFF#34) wRegs = some 0xFFFFFFFFFFFFFFFF#64
      ∧ g5 (.lih 5#6 1#6 1#30) wRegs = some 0x400000007#64 := by decide
theorem test_adda_keeps_tag :
    g5 (.adda 5#6 1#6 2#6) (wG 0x3800000000001000#64 0xFFFFFFFFFFFFFFF8#64) = some 0x3800000000000FF8#64
      ∧ (after (.adda 5#6 1#6 2#6) (wG 0x3800000000000000#64 0xFFFFFFFFFFFFFFFF#64)).map (fun c => c.frec0.extractLsb' 0 8)
        = some 0x0D#8 := by decide
theorem test_fadd : g5 (.fadd .rne 5#6 1#6 2#6) (wG 0x3F800000#64 0x40000000#64) = some 0x40400000#64 := by decide
theorem test_fcmp_nan :
    g5 (.fcmp .ne 5#6 1#6 2#6) (wG 0x7FC00000#64 0x7FC00000#64) = some 1#64
      ∧ g5 (.fcmp .eq 5#6 1#6 2#6) (wG 0x80000000#64 0#64) = some 1#64 := by decide
theorem test_fcvt_saturates : g5 (.fcvt .int64 .int8 .rne 5#6 1#6) (wG 300#64 0#64) = some 127#64 := by decide
theorem test_dadd_lanes : (after (.dadd (.int false) 5#5 1#5 2#5 0#6) wRegs).map (fun c => c.rd 5#5) = some 0x0000000C00000005#512 := by
  decide +kernel
theorem test_trap_saves_successor :
    (after (.trap 0x3FFFFFFFF#34) wRegs).map (fun c => (c.frec0, c.frec1)) = some (0x0000004800000020#64, 0xFFFFFFFFFFFFFFFF#64) := by
  decide +kernel
theorem test_eret_outside_handler : (after .eret wRegs).map (fun c => c.frec0.extractLsb' 0 8) = some 0x01#8 := by decide +kernel
theorem test_jmpr_high_bits : (after (.jmpr 2#6) wRegs).map (fun c => (c.pc, c.pcBad)) = some (0x1FFFFFFF#29, true) := by decide +kernel
theorem test_store_then_load :
    g5 (.ld 5#6 1#6 0#6 .x1 .plain .ctx 0#20) ((wG 0x10010#64 0#64).paPuts false 0x10040000010 [0x85#8]) = some 0x85#64
      ∧ g5 (.ld 5#6 1#6 0#6 .x1 .plain .ctx 0#20) ((wG 0x0800000000010010#64 0#64).paPuts false 0x10040000010 [0x85#8])
        = some 0xFFFFFFFFFFFFFF85#64 := by decide +kernel
theorem test_misaligned_load :
    (after (.ld 5#6 1#6 0#6 .x8 .plain .ctx 1#20) (wG 0x10010#64 0#64)).map (fun c => (c.frec0.extractLsb' 0 16, c.frec1))
      = some (0x000C#16, 0x10011#64) := by decide +kernel
theorem test_amo_returns_old :
    g5 (.amo .add 5#6 1#6 2#6 .plain .ctx 0#16) ((wG 0x2000000000010010#64 1#64).paPuts false 0x10040000010 [0xFF#8, 0xFF#8, 0xFF#8, 0xFF#8])
      = some 0xFFFFFFFFFFFFFFFF#64 := by decide +kernel
theorem test_twait : (match exec (.twait 5#34) wBase with | .next t => some t.chain.due | _ => none) = some 5 := by decide +kernel
theorem test_reset_canonical : State.reset.memOk = true := by decide +kernel

/-! ## States and operands that meet the hypotheses of each obligation -/

/-- The base with G51 in stream mode: POS 2 of a pattern of `n` elements, and what is read ahead. -/
def wStream (n : Nat) (ahead : List Refill) : State :=
  wRegs.onCx fun c =>
    { c with
      strmAct := 8#16
      strms := [(3, { (default : Strm) with pat := { elem := 8, cnt := [n], str := [8] }, pos := 2, ahead := ahead })] }

/-- Plain registers, and a stream register with an element read ahead, one past its end, and one whose element has not come. -/
theorem witness_SourceOperands :
    wRegs.cx.active (gStream 1#6) = false ∧ wRegs.cx.active (dStream 31#5) = false ∧ (63#6 : BitVec 6) ≠ 0#6
      ∧ (let d := SMap.get (wStream 3 [.data 9#512]).cx.strms 3
         2 < d.pat.count ∧ d.pos = 2 ∧ d.ahead = .data 9#512 :: [])
      ∧ (SMap.get (wStream 2 []).cx.strms 3).pat.count ≤ (SMap.get (wStream 2 []).cx.strms 3).pos
      ∧ (SMap.get (wStream 3 []).cx.strms 3).pos < (SMap.get (wStream 3 []).cx.strms 3).pat.count
      ∧ (SMap.get (wStream 3 []).cx.strms 3).ahead = [] := by decide +kernel
theorem witness_MissingOperandWaits : Ctx.srcG2 1#6 51#6 { (wStream 3 []).cx with undo := none } = .wait 3 := rfl
set_option exponentiation.threshold 600 in
/-- One operand popped from a stream register. -/
theorem witness_reads_with_pop :
    (wStream 3 [.data 9#512]).reads (Ctx.srcG2 1#6 51#6) (7#64, 9#64)
      ((wStream 3 [.data 9#512]).onCx fun c =>
        { c with strms := upd c.strms 3 (fun y => { y with pos := 3, ahead := [] }), undo := some (c.strms, c.strmEnd) }) :=
  ⟨_, rfl, rfl⟩
theorem witness_RegisterInstructionsKeepMemory :
    exec .nop wRegs = .next wRegs.advance ∧ exec (.add 5#6 1#6 2#6) wRegs = .next (wRegs.retire 5#6 6#64)
      ∧ exec (.jmp 0#3 1#26) wRegs = .next (wRegs.jump 8#29) := ⟨rfl, rfl, rfl⟩
theorem witness_IntegerArithmetic :
    wRegs.reads (Ctx.srcG2 1#6 2#6) (7#64, 0xFFFFFFFFFFFFFFFF#64) wRegs
      ∧ wRegs.reads (Ctx.srcG2 1#6 0#6) (7#64, 0#64) wRegs
      ∧ wRegs.reads (Ctx.srcG2 4#6 2#6) (BitVec.intMin 64, BitVec.allOnes 64) wRegs := ⟨⟨_, rfl, rfl⟩, ⟨_, rfl, rfl⟩, ⟨_, rfl, rfl⟩⟩
theorem witness_BitOperations :
    wRegs.reads (Ctx.srcG2 4#6 2#6) (0x8000000000000000#64, 0xFFFFFFFFFFFFFFFF#64) wRegs
      ∧ wRegs.reads (fun c => c.srcG 1#6) 7#64 wRegs
      ∧ wRegs.reads (Ctx.srcG3 1#6 2#6 3#6) (7#64, 0xFFFFFFFFFFFFFFFF#64, 5#64) wRegs := ⟨⟨_, rfl, rfl⟩, ⟨_, rfl, rfl⟩, ⟨_, rfl, rfl⟩⟩

/-- Pointers with tags INT32, FP32, a reserved code and raw. -/
theorem witness_SelectComparePointer :
    wRegs.reads (Ctx.srcG2 1#6 3#6) (7#64, 5#64) wRegs ∧ wRegs.reads (fun c => c.srcG 0#6) 0#64 wRegs
      ∧ wRegs.reads (Ctx.srcG3 1#6 2#6 0#6) (7#64, 0xFFFFFFFFFFFFFFFF#64, 0#64) wRegs
      ∧ (tagFmt 0x2000000000000010#64 = tagFmt 0x2000000000000000#64 ∧ Fmt.ofCode (tagFmt 0x2000000000000010#64) = some .int32)
      ∧ tagFmt 0x2000000000000010#64 ≠ tagFmt 0x3800000000000000#64
      ∧ Fmt.ofCode (tagFmt 0x7800000000000000#64) = none ∧ Fmt.ofCode (tagFmt 0x10#64) = some .raw :=
  ⟨⟨_, rfl, rfl⟩, ⟨_, rfl, rfl⟩, ⟨_, rfl, rfl⟩, by decide +kernel⟩
theorem witness_FloatOperations :
    (wG 0x3F800000#64 0x40000000#64).reads (Ctx.srcG2 1#6 2#6) (0x3F800000#64, 0x40000000#64) (wG 0x3F800000#64 0x40000000#64)
      ∧ wRegs.reads (Ctx.srcG3 1#6 2#6 3#6) (7#64, 0xFFFFFFFFFFFFFFFF#64, 5#64) wRegs
      ∧ wRegs.reads (fun c => c.srcG 3#6) 5#64 wRegs
      ∧ decodeNum .fp32 0x7FC00000 = .nan ∧ decodeNum .fp32 0xFF800000 = .inf true ∧ decodeNum .bf16 0x7F80 = .inf false
      ∧ decodeNum .fp32 0x80000000 = .zero true ∧ decodeNum .e4m3 0 = .zero false
      ∧ (match decodeNum .fp32 0xBF800000 with | .fin v => decide (v.m < 0) | _ => false) = true
      ∧ (match decodeNum .fp32 1 with | .fin v => decide (0 ≤ v.m) | _ => false) = true :=
  ⟨⟨_, rfl, rfl⟩, ⟨_, rfl, rfl⟩, ⟨_, rfl, rfl⟩, by decide +kernel⟩
theorem witness_FloatCompare :
    (wG 0x3F800000#64 0x7FC00000#64).reads (Ctx.srcG2 1#6 2#6) (0x3F800000#64, 0x7FC00000#64) (wG 0x3F800000#64 0x7FC00000#64)
      ∧ num32 0x7FC00000#32 = .nan ∧ num32 0x3F800000#32 ≠ .nan ∧ num32 0xFF800000#32 ≠ .nan
      ∧ FRel.holds .eq (num32 0#32) (num32 0x80000000#32) = true ∧ FRel.holds .lt (num32 0xFF800000#32) (num32 0#32) = true
      ∧ (FRel.holds .eq (num32 0x40000000#32) (num32 0x3F800000#32) = false
          ∧ FRel.holds .lt (num32 0x40000000#32) (num32 0x3F800000#32) = false)
      ∧ (Dy.int 1).e ≤ (Dy.int 2).e := ⟨⟨_, rfl, rfl⟩, by decide +kernel⟩

/-- Lane 0 of D1 is 3 and of D2 is 2; mask register G3 enables lanes 0 and 2. -/
theorem witness_LaneOperations :
    wRegs.reads (Ctx.srcDDm 1#5 2#5 0#6) (0x0000000500000003#512, 0x0000000700000002#512, 0xFFFF#16) wRegs
      ∧ wRegs.reads (Ctx.srcDDDm 1#5 2#5 3#5 3#6) (0x0000000500000003#512, 0x0000000700000002#512, 1#512, 5#16) wRegs :=
  ⟨⟨_, rfl, rfl⟩, ⟨_, rfl, rfl⟩⟩
theorem witness_LaneMoves :
    wRegs.reads (Ctx.srcDm 1#5 3#6) (0x0000000500000003#512, 5#16) wRegs
      ∧ wRegs.reads (fun c => c.srcD 2#5) 0x0000000700000002#512 wRegs
      ∧ wRegs.reads (fun c => c.srcG ((1#5 : BitVec 5).setWidth 6)) 7#64 wRegs
      ∧ wRegs.reads (fun c => c.srcMask 3#6) 5#16 wRegs
      ∧ wRegs.reads (Ctx.srcDDm 1#5 2#5 3#6) (0x0000000500000003#512, 0x0000000700000002#512, 5#16) wRegs
      ∧ (5#16 : BitVec 16).getLsbD 1 = false :=
  ⟨⟨_, rfl, rfl⟩, ⟨_, rfl, rfl⟩, ⟨_, rfl, rfl⟩, ⟨_, rfl, rfl⟩, ⟨_, rfl, rfl⟩, rfl⟩

/-! ### Memory -/

/-- A bounded form of `plainBytes`, to be decided. -/
theorem plain_of (s : State) (a n : Nat)
    (h : ∀ i : Nat, i < n → s.pt.home (a + i) ≠ .unpopulated ∧ s.regionOf (s.pt.home (a + i)) = none)
    (u : ∀ i : Nat, i < n → ∀ j : Nat, j < n → s.pt.home (a + i) = s.pt.home (a + j) → i = j) : s.plainBytes a n :=
  ⟨h, fun i j hi hj => u i hi j hj⟩

/-- Eight bytes in HBM and eight in local memory of core 0. -/
theorem witness_MemoryReadsBack :
    wRegs.plainBytes 0x20010 8 ∧ wRegs.plainBytes 0x10040000010 8 ∧ wRegs.ownSector 0 = true
      ∧ wRegs.ownSector (farSector 0 (2 ^ 52 / 64 - 1)) = true :=
  ⟨plain_of _ _ _ (by decide +kernel) (by decide +kernel), plain_of _ _ _ (by decide +kernel) (by decide +kernel), by decide +kernel⟩

theorem witness_LoadForms :
    (tagFmt 0x10010#64 = 0#5 ∧ effAddr 0x10010#64 0#64 .x1 0#20 = some 0x10010 ∧ effAddr 0x10010#64 5#64 .x8 1#20 = some 0x10039)
      ∧ effAddr 0xFFFFFFFFFFFFFF#64 0#64 .x1 1#20 = none
      ∧ (Fmt.ofCode (tagFmt 0x3800000000010010#64) = some .fp32 ∧ effAddr 0x3800000000010010#64 0#64 .x1 0#20 = some 0x10010)
      ∧ Fmt.ofCode (tagFmt 0x7800000000010010#64) = none := by decide +kernel
theorem witness_LoadValues : ([0x85#8] : List Byte).length = 1 ∧ ([1#8, 2#8, 3#8, 4#8] : List Byte).length = 4 := by decide
/-- A walk of a hamlet that holds no table pointers. -/
theorem walk_of (s : State) (va : Nat) (h : s.pt.ptrsOf (hamletOf s.focus.core) = []) : s.walkHeld va = s.walkFrom [] va 3 s.pt.place.root := by
  simp [State.walkHeld, h]

/-- An address that no TLB entry covers and that the walk does not translate. -/
theorem trans_of (s : State) (u : Use) (va len : Nat) (d : BitVec 8) (h : s.pt.ptrsOf (hamletOf s.focus.core) = [])
    (f : ((s.pt.tlb (coreTlb s.focus.core (u == .fetch)) ++ s.pt.tlb (s.pt.hamletTlb (hamletOf s.focus.core))).find? fun e =>
      e.covers s.slot va) = none)
    (w : (s.walkFrom [] va 3 s.pt.place.root).1 = .trans d) : s.range u va len = .trans d := by
  have p : s.page va (u == .fetch) u.stores = .trans d := by
    unfold State.page
    rw [walk_of s va h]
    simp only [f]
    generalize s.walkFrom [] va 3 s.pt.place.root = x at w
    obtain ⟨y, z⟩ := x
    subst w
    rfl
  unfold State.range
  rw [p]

/-- Loads through a reserved tag, at an odd address, from a page without R and from one that no walk finds. -/
theorem witness_LoadFaults :
    (wG 0x7800000000010010#64 0#64).reads (Ctx.srcG2 1#6 0#6) (0x7800000000010010#64, 0#64) (wG 0x7800000000010010#64 0#64)
      ∧ formLd 0x7800000000010010#64 0#64 true .x1 0#20 = .tag 0x10010
      ∧ formLd 0x10011#64 0#64 true .x512 0#20 = .align 0x10011
      ∧ (formLd 0x40000#64 0#64 true .x512 0#20 = .ok 0x40000 8 .zext ∧ (wG 0x40000#64 0#64).range .load 0x40000 8 = .perm 3#8)
      ∧ (formLd 0x90000#64 0#64 true .x512 0#20 = .ok 0x90000 8 .zext ∧ (wG 0x90000#64 0#64).range .load 0x90000 8 = .trans 0#8) :=
  ⟨⟨_, rfl, rfl⟩, rfl, rfl, ⟨rfl, rfl⟩, rfl, trans_of _ _ _ _ _ rfl rfl (by decide +kernel)⟩

/-- A load of eight bytes of the core's own local memory. -/
def wLocal : Acc := wRegs.accOf 0x10010 0x10040000010 0 8 0#5 false [] []

theorem witness_LocalLoadsComplete :
    (wG 0x10010#64 0#64).reads (Ctx.srcG2 1#6 0#6) (0x10010#64, 0#64) (wG 0x10010#64 0#64)
      ∧ (wG 0x10010#64 0#64).range .load 0x10010 8 = .ok 0x10040000010 0 false (wG 0x10010#64 0#64)
      ∧ (wG 0x10010#64 0#64).ownLocal wLocal = true ∧ (wG 0x10010#64 0#64).loadMet wLocal = .none
      ∧ formLd 0x10010#64 0#64 true .x512 0#20 = .ok 0x10010 8 .zext
      ∧ formLdf 0x3800000000010010#64 0#64 true .x1 0#20 = .ok 0x10010 4 (.fp32, none)
      ∧ formLdd 0x10040#64 0#64 true .x1 0#20 = .ok 0x10040 64 ()
      ∧ formLddf 0x3800000000010040#64 0#64 true .x1 0#20 = .ok 0x10040 64 (.fp32, List.replicate 16 none)
      ∧ (splitParts 0x10010 16 0 8).length ≤ 1 ∧ 1 < (splitParts 0x10040 16 0 64).length :=
  ⟨⟨_, rfl, rfl⟩, rfl, rfl, rfl, rfl, rfl, rfl, rfl, by decide, by decide⟩
theorem witness_LoadFrame : wRegs.job.debug = none := rfl
theorem witness_RemoteLoadsYield :
    let s := wG 0x20010#64 0#64
    s.reads (Ctx.srcG2 1#6 0#6) (0x20010#64, 0#64) s ∧ formLd 0x20010#64 0#64 true .x512 0#20 = .ok 0x20010 8 .zext
      ∧ s.range .load 0x20010 8 = .ok 0x20010 0 false s ∧ s.ownLocal (s.accOf 0x20010 0x20010 0 8 0#5 false [] []) = false
      ∧ ((List.range 8).all fun i => (s.cr.l1Byte (0x20010 + i)).isSome) = false :=
  ⟨⟨_, rfl, rfl⟩, rfl, rfl, rfl, rfl⟩

/-- The base with context 0 parked on a pending instruction. -/
def wPend (p : Pend) : State := wRegs.park (.pend p)

/-- A load of HBM pending with its one part. -/
def wRemote : Acc := { (wRegs.accOf 0x20010 0x20010 0 8 0#5 false [] []) with parts := [(0, 8)] }

/-- One that waits in its D register's context, and one of own local memory whose context still runs. -/
theorem witness_PendingLoadsPerformed :
    (let s := wPend (.load wRemote .zext false 5#6 none)
     s.focus.ctx < 16 ∧ s.job.debug = none ∧ s.cx.state = .parked ∧ s.cx.wait = .pend (.load wRemote .zext false 5#6 none)
       ∧ s.loadMet wRemote = .none ∧ s.deferred wRemote true = false ∧ (atHome none && s.cr.homeWaits s.focus.ctx wRemote) = false
       ∧ wRemote.parts = [(0, 8)])
    ∧ (let a := { (wRegs.accOf 0x10040 0x10040000040 0 64 0#5 false [] []) with parts := [(48, 16)] }
       let s := wRegs.onCx fun c => { c with wait := .pend (.load a .lanesRaw true ((5#5 : BitVec 5).setWidth 6) none) }
       s.cx.state = .running ∧ s.cx.wait = .pend (.load a .lanesRaw true ((5#5 : BitVec 5).setWidth 6) none) ∧ s.loadMet a = .none
         ∧ s.deferred a true = false ∧ a.parts = [(48, 16)]) := by decide +kernel

/-- A releasing store, and one that does not, of a page open to it. -/
theorem witness_StoresIssue :
    let s := wG 0x20010#64 0x55#64
    s.released s.focus.ctx .system = true ∧ s.cr.sq.length < 16 ∧ s.range .store 0x20010 8 = .ok 0x20010 0 false s
      ∧ (s.flushFor .system).range .store 0x20010 8 = .ok 0x20010 0 false (s.flushFor .system)
      ∧ s.reads (Ctx.srcG3 1#6 0#6 2#6) (0x20010#64, 0#64, 0x55#64) s
      ∧ s.reads (Ctx.srcGGD 1#6 0#6 1#5) (0x20010#64, 0#64, 0x0000000500000003#512) s
      ∧ formLd 0x20010#64 0#64 true .x512 0#20 = .ok 0x20010 8 .zext
      ∧ formLdf 0x3800000000020010#64 0#64 true .x1 0#20 = .ok 0x20010 4 (.fp32, none)
      ∧ formLdd 0x20040#64 0#64 true .x1 0#20 = .ok 0x20040 64 ()
      ∧ formLddf 0x3800000000020040#64 0#64 true .x1 0#20 = .ok 0x20040 64 (.fp32, List.replicate 16 none) :=
  ⟨rfl, by decide +kernel, rfl, rfl, ⟨_, rfl, rfl⟩, ⟨_, rfl, rfl⟩, rfl, rfl, rfl, rfl⟩

/-- The base with one stepped region of FP32 words at 0x400 to 0x43F of core 0's local memory, of rule `rule`. -/
def wStepped (rule : Nat) : State :=
  wRegs.onCr fun c =>
    { c with stepped := { (default : Stepped) with tab := [(0, 0x8700000002000010#64 ||| BitVec.ofNat 64 (rule * 2 ^ 61))] } }

/-- A store of four bytes into that region. -/
def wInRegion (fmt : BitVec 5) : Acc := wRegs.accOf 0x10400 0x10040000400 0 4 fmt false [1#8, 2#8, 3#8, 4#8] []

theorem witness_StoreQueueEntry :
    (wStepped 0).storeFmtOk (wInRegion 4#5) = false ∧ (wStepped 0).storeFmtOk (wInRegion 7#5) = true
      ∧ (wStepped 0).checkedStore (wInRegion 7#5) = true ∧ wRegs.checkedStore wRemote = false := by decide +kernel

/-- A queue entry of context 0. -/
def wEnt (chk : Bool) (a : Acc) : SqEnt :=
  { ticket := 0, ctx := 0, checked := chk, acc := a, admitted := false, seen := [], released := false }
/-- The base with one store queued. -/
def wQueued (chk : Bool) (a : Acc) : State := wRegs.onCr fun c => { c with sq := [wEnt chk a], nextTicket := 1 }

/-- A store of HBM, a checked one of local memory, and a checked one that lands in the Mere within an open window. -/
theorem witness_QueuedStoresPerformed :
    (let a := { wRemote with data := [1#8, 2#8, 3#8, 4#8, 5#8, 6#8, 7#8, 8#8] }
     let s := wQueued false a
     s.cr.sq[0]? = some (wEnt false a) ∧ s.job.debug = none ∧ s.cr.blocked (wEnt false a) = false ∧ s.deferred a false = false
       ∧ a.va % 65536 + a.len ≤ 65536 ∧ 0 + 8 ≤ a.len ∧ s.plainBytes (a.pa + 0) 8 ∧ a.parts = [(0, 8)])
    ∧ (let a := { wLocal with data := [1#8, 2#8, 3#8, 4#8, 5#8, 6#8, 7#8, 8#8], parts := [(0, 8)] }
       let s := wQueued true a
       s.cr.sq[0]? = some (wEnt true a) ∧ s.cr.blocked (wEnt true a) = false ∧ s.deferred a false = false ∧ s.plainBytes (a.pa + 0) 8
         ∧ a.parts = [(0, 8)] ∧ s.storeMet a = .none ∧ s.whole a = false)
    ∧ (let a := { (wRegs.accOf 0x30000 0x10000000000 0 4 0#5 false [1#8, 2#8, 3#8, 4#8] []) with parts := [(0, 4)] }
       let s := (wQueued true a).onJob fun j =>
         { j with tiles := [(0, { (default : Tile) with named := true, wctl := [(0, 0x90000#64)], wrg := [(0, 0x10000#64)] })] }
       s.cr.sq[0]? = some (wEnt true a) ∧ s.cr.blocked (wEnt true a) = false ∧ s.deferred a false = false ∧ s.plainBytes (a.pa + 0) 4
         ∧ a.parts = [(0, 4)] ∧ s.storeMet a = .none ∧ s.whole a = false) :=
  ⟨⟨rfl, rfl, rfl, rfl, by decide, by decide, plain_of _ _ _ (by decide +kernel) (by decide +kernel), rfl⟩,
    ⟨rfl, rfl, rfl, plain_of _ _ _ (by decide +kernel) (by decide +kernel), rfl, rfl, rfl⟩,
    rfl, rfl, rfl, plain_of _ _ _ (by decide +kernel) (by decide +kernel), rfl, rfl, rfl⟩

/-- A store to the Mere of a tile whose windows are closed, and one to an owned region of another context. -/
theorem witness_RefusedStoresTrap :
    (let a := wRegs.accOf 0x30000 0x10000000000 0 4 0#5 false [1#8, 2#8, 3#8, 4#8] []
     (wQueued true a).cr.sq[0]? = some (wEnt true a) ∧ (wQueued true a).cr.blocked (wEnt true a) = false
       ∧ (wQueued true a).deferred a false = false ∧ (wEnt true a).ctx = (wQueued true a).focus.ctx
       ∧ (wQueued true a).storeMet a = .window)
    ∧ (wQueued true wLocal |>.onJob fun j => { j with owned := [(1, { valid := true, base := 0x10000, size := 0x1000, holder := 0x405#12, hseq := 0#16 })] }).storeMet
        wLocal = .capability := by decide +kernel
theorem witness_SteppedStoresStayHidden :
    let st := (wStepped 2).cr.stepped
    let e := 0xC700000002000010#64
    st.find 0x400 = some (0, e) ∧ rgRule e ≠ 1
      ∧ (∀ x ∈ [({ at_ := 0, val := 1#8, keep := 0#8 } : StByte), { at_ := 3, val := 2#8, keep := 0xF0#8 }],
          0x400 + x.at_ < rgBase e + rgSize e ∧ rgBase e ≤ 0x400)
      ∧ (∀ c ∈ st.contribs, c.reg = 0 → c.mask.toNat < 2 ^ rgWord e)
      ∧ (match stepStore [] 0 st 0x400 1024 0#2 false [{ at_ := 0, val := 1#8, keep := 0#8 }, { at_ := 3, val := 2#8, keep := 0xF0#8 }] with | .ok _ _ => true | .collision => false) = true := by
  decide +kernel

/-- An atomic on local memory, and one of each width. -/
theorem witness_Atomics :
    let s := wG 0x2800000000010010#64 1#64
    let a := s.accOf 0x10010 0x10040000010 0 8 5#5 false [] []
    s.released s.focus.ctx .hamlet = true ∧ s.range .amo 0x10010 8 = .ok 0x10040000010 0 false s ∧ s.ownLocal a = true
      ∧ s.cr.blocked (s.cr.lastEntry s.focus.ctx a) = false
      ∧ s.reads (Ctx.srcG2 1#6 2#6) (0x2800000000010010#64, 1#64) s
      ∧ s.reads (Ctx.srcG3 1#6 2#6 3#6) (0x2800000000010010#64, 1#64, 5#64) s
      ∧ formAmo (AmoOp.float .add) false 0x2800000000010010#64 0#16 = .ok 0x10010 8 .int64
      ∧ formAmo false true 0x2800000000010010#64 0#16 = .ok 0x10010 8 .int64
      ∧ formAmo true false 0x3800000000010010#64 0#16 = .ok 0x10010 4 .fp32
      ∧ s.job.debug = none ∧ s.storeMet a = .none ∧ (s.homes a 0 a.len).find? s.pt.poisoned = none ∧ s.plainBytes a.pa a.len :=
  ⟨rfl, rfl, rfl, rfl, ⟨_, rfl, rfl⟩, ⟨_, rfl, rfl⟩, rfl, rfl, rfl, rfl, rfl, rfl,
    plain_of _ _ _ (by decide +kernel) (by decide +kernel)⟩
theorem witness_PrefetchFenceSweep :
    wRegs.reads (Ctx.srcG2 1#6 2#6) (7#64, 0xFFFFFFFFFFFFFFFF#64) wRegs
      ∧ (let s := wPend (.fence .acqrel .system)
         s.focus.ctx < 16 ∧ s.cx.state = .parked ∧ s.cx.wait = .pend (.fence .acqrel .system) ∧ s.released s.focus.ctx .system = true)
      ∧ (let s := wG 0x20010#64 0#64
         s.reads (Ctx.srcG3 1#6 0#6 2#6) (0x20010#64, 0#64, 0#64) s ∧ formSweep 0x20010#64 0#64 true .x1 0#20 = some 0x20010)
      ∧ (let s := wG 0x20010#64 0x80#64
         s.reads (Ctx.srcG3 1#6 0#6 2#6) (0x20010#64, 0#64, 0x80#64) s ∧ 0x20010 % 65536 + 0x80 ≤ 65536
           ∧ s.range .flush 0x20010 0x80 = .ok 0x20010 0 false s ∧ s.range .discard 0x20010 0x80 = .ok 0x20010 0 false s
           ∧ s.discardOk 0x20010 0x2008F = true)
      ∧ (wPend (.sweep true [0x20000])).cx.wait = .pend (.sweep true [0x20000]) ∧ ([0x20000] : List Nat).eraseIdx (0 % 1) = []
      ∧ ([0x20000, 0x20040] : List Nat).eraseIdx (5 % 2) ≠ [] ∧ ([0x20000, 0x20040] : List Nat)[5 % 2]? = some 0x20040
      ∧ wRegs.sectorOf (wRegs.pt.home 0x20000) ≠ wRegs.sectorOf (wRegs.pt.home 0x20040)
      ∧ (wRegs.sectorOf (wRegs.pt.home 0x20040)).isSome = true
      ∧ (∀ key : Nat, wRegs.pt.home 0x20040 = .hbm key → wRegs.pt.inSegment key = false) :=
  ⟨⟨_, rfl, rfl⟩, by decide +kernel, ⟨⟨_, rfl, rfl⟩, rfl⟩, ⟨⟨_, rfl, rfl⟩, by decide, rfl, rfl, rfl⟩, rfl, by decide, by decide, by decide,
    by decide +kernel, by decide +kernel, by
      have h : wRegs.pt.home 0x20040 = .hbm (match wRegs.pt.home 0x20040 with | .hbm k => k | _ => 0) := by decide +kernel
      intro key e
      rw [h] at e
      injection e with e
      rw [← e]
      decide +kernel⟩

/-! ### Flow, handlers and messages -/

/-- The base with every helper of core 0 ready. -/
def wFull : State :=
  wRegs.onCr fun c => { c with ctxs := c.ctxs ++ (List.range 11).map fun k => (k, { (default : Ctx) with state := .ready }) }

/-- The base in deterministic mode. -/
def wDet (s : State) : State := s.onPt fun p => { p with det := true }

theorem witness_BranchesAndContexts :
    wRegs.reads (Ctx.srcG2 1#6 2#6) (7#64, 0xFFFFFFFFFFFFFFFF#64) wRegs ∧ wRegs.reads (fun c => c.srcG 2#6) 0xFFFFFFFFFFFFFFFF#64 wRegs
      ∧ (wRegs.pt.det = false ∧ wRegs.cr.freeHelper = some 1 ∧ 1 ≠ wRegs.focus.ctx ∧ wRegs.hm.pendq = [])
      ∧ (wFull.pt.det = false ∧ wFull.cr.freeHelper = none ∧ wFull.reads (fun c => c.srcG 1#6) 7#64 wFull)
      ∧ ((wDet (wG 0#64 1#64)).pt.det = true ∧ (wDet (wG 0#64 1#64)).reads (Ctx.srcG2 1#6 2#6) (0#64, 1#64) (wDet (wG 0#64 1#64)))
      ∧ ((wDet (wG 11#64 1#64)).reads (Ctx.srcG2 1#6 2#6) (11#64, 1#64) (wDet (wG 11#64 1#64)) ∧ 10 < (11#64 : Word).toNat)
      ∧ ((wPend .exit).focus.ctx < 11 ∧ (wPend .exit).cx.state = .parked ∧ (wPend .exit).cx.wait = .pend .exit
          ∧ (wPend .exit).exitReady = true)
      ∧ ((wQueued false wRemote).park (.pend .exit)).exitReady = false :=
  ⟨⟨_, rfl, rfl⟩, ⟨_, rfl, rfl⟩, by decide +kernel, ⟨rfl, rfl, ⟨_, rfl, rfl⟩⟩, ⟨rfl, ⟨_, rfl, rfl⟩⟩, ⟨⟨_, rfl, rfl⟩, by decide⟩,
    by decide +kernel, rfl⟩
theorem witness_TrapsAndUpcalls : wRegs.cx.sys = none ∧ wRegs.job.stop = none ∧ (0x20#8 : BitVec 8) ≠ 0x12#8 := by decide +kernel

/-- The base in an upcall handler with the notice of tag 5 in its mailbox. -/
def wNotice : State :=
  ((wG 5#64 0x100#64).onCx fun c => { c with inupc := true, state := .upcall }).onCr fun c =>
    { c with mbox := [{ kind := 4#4, dst := 0, peer := 0xFFE#12, seq := 0#32, lo := 5#64, hi := 0#64 }] }

/-- An attached agent of the steward's queue. -/
def wAgent : Debug :=
  { queue := 4, triggers := [], want := [], wantGroups := [], due := [], inForce := false, gang := false, events := [], past := [] }
/-- The base with that agent attached. -/
def wDebug : State := wRegs.onJob fun j => { j with debug := some wAgent }
/-- The base with the service context of hamlet 0 in focus. -/
def wService : State :=
  ({ wRegs with focus := { wRegs.focus with ctx := 12 } } : State).onCx fun c => { c with g := [(1, 0x10000#64), (2, 0x100001#64)] }

theorem witness_HandlersReturn :
    (wNotice.cx.inupc = true ∧ wNotice.cx.sys = none ∧ wRegs.cx.inupc = false ∧ wRegs.cx.sys = none)
      ∧ (wNotice.reads (Ctx.srcG2 1#6 2#6) (5#64, 0x100#64) wNotice
          ∧ (wNotice.cr.notice wNotice.focus.ctx ((5#64 : Word).setWidth 16)).isSome = true)
      ∧ (wNotice.reads (Ctx.srcG2 3#6 2#6) (5#64, 0x100#64) wNotice ∧ wNotice.cr.notice wNotice.focus.ctx ((6#64 : Word).setWidth 16) = none)
      ∧ (wRegs.job.debug = none ∧ (wDebug.job.debug).isSome = true ∧ wDebug.job.trace.on = false ∧ wRegs.focus.ctx < 11)
      ∧ (wService.focus.ctx = svcCtx ∧ wService.reads (Ctx.srcG2 1#6 2#6) (0x10000#64, 0x100001#64) wService
          ∧ 2 ^ 20 < (0x100001#64 : Word).toNat) :=
  ⟨by decide +kernel, ⟨⟨_, rfl, rfl⟩, rfl⟩, ⟨⟨_, rfl, rfl⟩, rfl⟩, by decide +kernel, rfl, ⟨_, rfl, rfl⟩, by decide⟩

/-- The base with one entry in the mailbox of core 0. -/
def wMail : State :=
  wRegs.onCr fun c => { c with mbox := [{ kind := 0#4, dst := 0, peer := 11#12, seq := 1#32, lo := 8#64, hi := 9#64 }] }

/-- A core with no context that waits serves its takes. -/
theorem takes_of (s : State) (h : ∀ k : Nat, k < 11 → (match (s.cr.ctx k).wait with | .take _ _ => false | _ => true) = true) :
    s.cr.takesServed := by
  intro k d n hk hw
  have h' := h k hk
  rw [hw] at h'
  cases h'

/-- A message on its way from context 0 of core 0 to context 0 of core 1. -/
def wMsg : Msg := { src := 0, dst := 11, kind := 0#4, seq := 1#32, lo := 8#64, hi := 9#64, returned := false }
/-- The base with that message under way and core 1's context 0 in a given state. -/
def wSent (st : CtxState) : State :=
  wRegs.onJob fun j =>
    { j with msgs := [wMsg], cores := j.cores ++ [(1, { (default : Core) with ctxs := [(0, { (default : Ctx) with state := st, ran := true })] })] }

theorem witness_Messages :
    (let s := wG 11#64 8#64
     s.reads (fun e => e.srcG3 1#6 2#6 3#6) (11#64, 8#64, 5#64) s ∧ s.pt.destOf 11#64 = some 11 ∧ s.cr.sq.length < 16
       ∧ s.pt.destOf 528#64 = none ∧ s.pt.destOf 527#64 = some 527 ∧ s.focus.ctx < 11)
    ∧ (let s := wService.onCx fun c => { c with g := [(1, 11#64), (2, 8#64)] }
       s.reads (fun e => e.srcG3 1#6 2#6 3#6) (11#64, 8#64, 0#64) s ∧ s.focus.ctx = svcCtx ∧ s.pt.destOf 11#64 = some 11)
    ∧ (wRegs.cr.mbox.find? fun e => e.visible wRegs.focus.ctx) = none
    ∧ ((wMail.cr.mbox.find? fun e => e.visible wMail.focus.ctx).isSome = true ∧ wMail.cr.spill = [] ∧ wMail.cr.netif = []
        ∧ wMail.cx.wait = .none ∧ wMail.cr.takesServed ∧ wMail.pt.det = false)
    ∧ (let s := wSent .running
       s.job.msgs[0]? = some wMsg ∧ wMsg.returned = false ∧ wMsg.kind = 0#4 ∧ wMsg.dst ≠ 0xFFE ∧ s.job.msgs.take 0 = []
         ∧ (s.ctxAt (wMsg.dst / 11) (wMsg.dst % 11)).state = .running ∧ (s.coreAt 1).mbox.length < 128 ∧ (s.coreAt 1).spill = []
         ∧ (s.coreAt 1).netif = [] ∧ (s.coreAt 1).preempted = false ∧ wMsg.src < 4095)
    ∧ ((wSent .free).ctxAt 1 0).state = .free ∧ ((wSent .free).ctxAt 1 0).ran = true :=
  ⟨⟨⟨_, rfl, rfl⟩, by decide +kernel⟩, ⟨⟨_, rfl, rfl⟩, by decide +kernel⟩, rfl, ⟨rfl, rfl, rfl, rfl, takes_of wMail (by decide +kernel), rfl⟩, by decide +kernel,
    by decide +kernel⟩
theorem witness_MessageArrives_takes : ((wSent .running).coreAt 1).takesServed := by
  have h := takes_of { wSent .running with focus := { (wSent .running).focus with core := 1 } } (by decide +kernel)
  exact h

/-- The base with owned region 3 held by writer `w`, and tile 2 named by the launch. -/
def wOwned (w : BitVec 12) : State :=
  (wG 11#64 0x1234#64).onJob fun j =>
    { j with
      owned := [(3, { valid := true, base := 0x20000, size := 0x1000, holder := w, hseq := 4#16 })]
      tiles := [(2, { (default : Tile) with named := true, wctl := [(0, 0x10000#64)], wmask := [(0, 0x22#64)] })] }

/-- A post on its way to word 5 of tile 2. -/
def wPost (seq : BitVec 16) : Post := { src := 1024, tile := 2, word := 5, value := 9#32, seq := seq }
/-- The base with that post under way and the status of the word given. -/
def wPosted (st : BitVec 32) (seq : BitVec 16) : State :=
  (wOwned 0x400#12).onJob fun j => { (j.onTile 2 fun t => { t with pws := [(5, st)] }) with posts := [wPost seq] }

theorem witness_OwnedRegions :
    ((wOwned 0x400#12).reads (fun c => c.srcG 1#6) 11#64 (wOwned 0x400#12) ∧ (wOwned 0x400#12).pt.destOf 11#64 = some 11)
      ∧ (let s := (wOwned 0x400#12).park (.pend (.handoff 5#6 11 3#8))
         s.focus.ctx < 11 ∧ s.cx.state = .parked ∧ s.cx.wait = .pend (.handoff 5#6 11 3#8) ∧ s.cr.storesDone s.focus.ctx = true)
      ∧ (let o := SMap.get (wOwned 0x400#12).job.owned (3#8 : BitVec 8).toNat
         o.valid = true ∧ o.holder.toNat = (wOwned 0x400#12).writer)
      ∧ (SMap.get (wOwned 0x400#12).job.owned (4#8 : BitVec 8).toNat).valid = false
      ∧ (let s := wOwned 0x405#12
         (SMap.get s.job.owned 3).holder.toNat ≠ s.writer ∧ s.cr.handover s.focus.ctx 3#8 = none)
      ∧ (let s := (wOwned 0xFFF#12).onCr fun c => { c with mbox := [{ kind := 5#4, dst := 0, peer := 11#12, seq := 1#32, lo := 3#64, hi := 0#64 }] }
         (SMap.get s.job.owned 3).holder.toNat ≠ s.writer ∧ (s.cr.handover s.focus.ctx 3#8).isSome = true ∧ s.cr.spill = []
           ∧ s.cr.netif = [] ∧ s.cx.wait = .none) := ⟨⟨⟨_, rfl, rfl⟩, rfl⟩, by decide +kernel⟩
theorem witness_OwnedRegionsAndPosts :
    (let s := (wOwned 0x400#12).onCx fun c => { c with g := [(1, 2#64), (2, 9#64)] }
     s.reads (Ctx.srcG2 1#6 2#6) (2#64, 9#64) s ∧ (2#64 : Word).toNat < 2 ^ 16 ∧ (s.tileAt 2).named = true ∧ s.cr.sq.length < 16
       ∧ (s.tileAt 3).named = false ∧ 2 ^ 16 ≤ (0x10000#64 : Word).toNat)
    ∧ (let s := wPosted 0#32 0x8000#16
       s.job.posts = [wPost 0x8000#16] ∧ (s.job.node 2).paused = false ∧ SMap.get (s.tileAt 2).pwLast 5 = none
         ∧ (s.tileAt 2).hears 5 = true ∧ (SMap.get (s.tileAt 2).pws 5).getLsbD 16 = false)
    ∧ (let s := wPosted 0x10001#32 2#16
       let n := ((2#16 : BitVec 16) - (SMap.get (s.tileAt 2).pws 5).extractLsb' 0 16).toNat
       (SMap.get (s.tileAt 2).pws 5).getLsbD 16 = true ∧ 1 ≤ n ∧ n ≤ 32767)
    ∧ (let s := wPosted 0x10002#32 2#16
       ¬(1 ≤ ((2#16 : BitVec 16) - (SMap.get (s.tileAt 2).pws 5).extractLsb' 0 16).toNat))
    ∧ ((wPosted 0#32 1#16).tileAt 2).hears 4 = false := ⟨⟨⟨_, rfl, rfl⟩, by decide +kernel⟩, by decide +kernel⟩

/-! ### Rings, streams, copies -/

/-- A ring of four slots of 64 bytes in page 2: producer 0, two slots filled, none freed. -/
def wRing : List Byte := zeros 8 ++ toBytes 4 4 ++ toBytes 2 64 ++ zeros 2 ++ toBytes 4 1 ++ zeros 4 ++ toBytes 8 2 ++ toBytes 8 2 ++ zeros 24
/-- The base with ring handle 0 bound to that page's first bytes as producer 0 and consumer. -/
def wBound : State := (wG 1#64 1#64).onCx fun c => { c with h := [(0, 0xE000000000020000#64)] }
/-- The same with the record there. -/
def wRinged : State := wBound.paPuts false 0x20000 wRing
/-- The access of a ring step there. -/
def wRingAcc : Acc := wRinged.accOf 0x20000 0x20000 0 64 0#5 false [] []

/-- A handle that is not bound, and one that is. -/
theorem witness_RingInstructionsIssue :
    (SMap.get wRegs.cx.h 0).getLsbD 63 = false ∧ (SMap.get wBound.cx.h 0).getLsbD 63 = true
      ∧ wBound.range .load 0x20000 64 = .ok 0x20000 0 false wBound ∧ wBound.range .store 0x20000 64 = .ok 0x20000 0 false wBound
      ∧ wBound.released wBound.focus.ctx .partition = true
      ∧ (wBound.flushFor .partition).range .store 0x20000 64 = .ok 0x20000 0 false (wBound.flushFor .partition)
      ∧ wBound.reads (fun c => c.srcG 1#6) 1#64 wBound ∧ wBound.reads (Ctx.srcG2 1#6 2#6) (1#64, 1#64) wBound :=
  ⟨rfl, rfl, rfl, rfl, rfl, rfl, ⟨_, rfl, rfl⟩, ⟨_, rfl, rfl⟩⟩
theorem witness_RingSteps :
    let r := RingRec.read (ofBytes wRing)
    r.freed ≤ r.fill ∧ r.resv - r.freed ≤ r.nslot ∧ r.fill ≤ (2#64 : Word).toNat ∧ (2#64 : Word).toNat + (0#64 : Word).toNat ≤ r.resv
      ∧ r.resv ≤ r.fill + 128 ∧ r.pubmap < 2 ^ 128 := by decide +kernel

/-- A ring step pending on the record. -/
def wRingPend (st : RingStep) : State := wRinged.park (.pend (.ring st 0#4 5#6 wRingAcc))

/-- A step that faults, one with a result, one that writes and one that waits. -/
theorem witness_Rings :
    let s := wRingPend (.rqry .avail)
    let h := SMap.get s.cx.h 0
    let r := RingRec.read (ofBytes (s.paBytes wRingAcc.pa 64))
    s.focus.ctx < 11 ∧ s.job.debug = none ∧ s.cx.state = .parked ∧ s.cx.wait = .pend (.ring (.rqry .avail) 0#4 5#6 wRingAcc)
      ∧ s.pt.poisoned (s.pt.home wRingAcc.pa) = false ∧ s.cr.stopped = false ∧ s.cr.blocked (s.cr.lastEntry s.focus.ctx wRingAcc) = false
      ∧ ringFault h true r (.rwait 5#64) = some 4#8
      ∧ (ringFault h true r (.rqry .avail) = none ∧ ringEffect false 0 h r (.rqry .avail) = .result 2#64)
      ∧ (ringFault h true r (.radv 2#64) = none ∧ ringEffect false 0 h r (.radv 2#64) = .write { r with freed := 2 } none)
      ∧ (ringFault h true r (.rwait 3#64) = none ∧ ringEffect false 0 h r (.rwait 3#64) = .wait) := by decide +kernel

/-- An affine layout record of two elements of eight bytes. -/
def wLayout : BitVec 512 := BitVec.ofNat 512 (0x0100 + 8 * 2 ^ 32 + 2 * 2 ^ 64 + 8 * 2 ^ 192)

theorem witness_Streams :
    wRegs.reads (Ctx.srcG2 1#6 3#6) (7#64, 5#64) wRegs
      ∧ (let s := wPend (.smode 3#4 7#8 0x10000#64)
         s.focus.ctx < 11 ∧ s.cx.state = .parked ∧ s.cx.wait = .pend (.smode 3#4 7#8 0x10000#64)
           ∧ streamPattern (SMap.get s.hm.lrec 7) 0x10000#64 false = none)
      ∧ streamPattern wLayout 0x10000#64 false = some { elem := 8, cnt := [2], str := [8] }
      ∧ ((wStream 3 []).cx.strmAct.getLsbD 3 = true ∧ (wStream 3 []).cx.strmAct.getLsbD 4 = false)
      ∧ ((wStream 3 []).cx.refillDue 3 = true ∧ (wStream 2 []).cx.refillDue 3 = false
          ∧ 8 ≤ ((SMap.get (wStream 99 (List.replicate 8 (.data 0#512))).cx.strms 3).ahead).length) :=
  ⟨⟨_, rfl, rfl⟩, by decide +kernel⟩
/-- A refill that reads its element from local memory, and one of an element that has been made unreadable. -/
theorem witness_StreamsRefill :
    let at_ := fun (b : Bool) => (wStream 3 []).onCx fun c =>
      { c with strms := upd c.strms 3 fun d => { d with base := 0x10010#64, broken := b } }
    (at_ false).cx.refillDue 3 = true ∧ (at_ false).cr.stopped = false ∧ (at_ false).cr.storesBefore 0 0 = true
      ∧ popWidth 3 = 1 ∧ 1 < popWidth 8
      ∧ (match (at_ false).refillElem (SMap.get (at_ false).cx.strms 3) false 2 with | .ok v _ => decide (v = 0#512) | _ => false) = true
      ∧ (match (at_ true).refillElem (SMap.get (at_ true).cx.strms 3) false 2 with | .bad c d _ => c == 0x12#8 && d == 3#8 | _ => false) = true := by
  decide +kernel

/-- A copy operation of context 0 under way. -/
def wCopy : CopyOp :=
  { (copyOpOf .copy 0 0 0x20000#64 0x20100#64 0#64 0#64 0) with
    begun := true, dlay := .affine { elem := 8, cnt := [2], str := [8] }, slay := .affine { elem := 8, cnt := [2], str := [8] } }
/-- A held fault of it. -/
def wHeld : HeldFault := wCopy.heldFault 0 0x08#8 0x90000
/-- The base with operation 0 of its hamlet given. -/
def wCopying (o : CopyOp) : State := (wG 0#64 0#64).onHm fun h => { h with ops := [(0, some o)] }

theorem witness_Copies :
    (wRegs.reads (Ctx.srcG3 1#6 2#6 3#6) (7#64, 0xFFFFFFFFFFFFFFFF#64, 5#64) wRegs ∧ wRegs.hm.freeOp = some 0)
      ∧ (wRegs.onHm fun h => { h with ops := (List.range 16).map fun i => (i, some wCopy) }).hm.freeOp = none
      ∧ (let s := wCopying { wCopy with susp := some wHeld }
         s.reads (fun c => c.srcG 1#6) 0#64 s ∧ SMap.get s.hm.ops ((0#64 : Word).toNat % 16) = some { wCopy with susp := some wHeld }
           ∧ wCopy.core = s.focus.core ∧ wCopy.ctx = s.focus.ctx ∧ SMap.get s.hm.ops 1 = none)
      ∧ (let s := wCopying wCopy
         SMap.get s.hm.ops (0#4 : BitVec 4).toNat = some wCopy ∧ wCopy.susp = none ∧ wCopy.beyond = false ∧ (s.coreAt wCopy.core).stopped = false
           ∧ wCopy.begun = true ∧ wCopy.core = s.focus.core
           ∧ (match (s.asIssuer wCopy).copyMove wCopy with | .ok (.going p) _ => p.midway | _ => false) = true
           ∧ (let p := { wCopy with buf := some (zeros 8) }
              p.midway = true ∧ (match (s.asIssuer p).copyMove p with | .ok (.done b) _ => b | _ => false) = true))
      ∧ (let o := { wCopy with src := 0x40000#64 }
         (match ((wCopying o).asIssuer o).copyMove o with | .bad _ d va => d == 0x09#8 && va == 0x40000 | _ => false) = true)
      ∧ ({ wCopy with next := 2 } : CopyOp).beyond = true ∧ (wCopying wCopy).hm.reqs = [] :=
  ⟨⟨⟨_, rfl, rfl⟩, rfl⟩, rfl, ⟨⟨_, rfl, rfl⟩, by decide +kernel⟩, by decide +kernel, by decide +kernel, by decide +kernel⟩

/-! ### Step groups and control words -/

/-- The base with step group 2 of context 0 and tile 2. -/
def wGroup (g : Group) : State := (wOwned 0x400#12).onJob fun j => { j with groups := [(2, g)] }
/-- That group, with no arrival. -/
def wGrp : Group := { (default : Group) with tiles := [2], ctxs := [0], count := 6 }
/-- The base with a TSTEP of tile 2 due. -/
def wTstep (due : Nat) : State :=
  { ((wGroup wGrp).onTileAt 2 fun t => { t with tsteps := [{ g := 2, due := due, need := 6 }] }) with
    focus := { wRegs.focus with tile := 2 } }

theorem witness_StepGroups :
    (let s := wGroup wGrp
     s.me ∈ (s.job.group 2).ctxs ∧ s.me ∉ (s.job.group 3).ctxs ∧ s.cx.arrivals = [] ∧ s.cr.storesDone s.focus.ctx = true
       ∧ s.job.posts = [] ∧ s.job.msgs = [])
    ∧ (let s := (wGroup { wGrp with tiles := [] }).onCx fun c => { c with arrivals := [(2, 6)] }
       (s.cx.arrivals.find? fun a => a.1 == 2) = some (2, 6) ∧ 6 ≤ (s.job.group 2).count ∧ s.job.stepReached 2 = true)
    ∧ (let g := { wGrp with arrTiles := [2], arrCtxs := [0] }
       let s := wGroup g
       g.nmem ≠ 0 ∧ g.nmem ≤ g.arr ∧ s.job.stop = none ∧ s.stepCollisions 2 = [] ∧ g.carry = [])
    ∧ (wGrp.arr < wGrp.nmem)
    ∧ (let s := (wGroup { wGrp with tiles := [] }).onCx fun c => { c with state := .parked, wait := .step 2#6 5#6, arrivals := [(2, 6)] }
       s.job.debug = none ∧ (s.job.group 2).ctxs = [0] ∧ (s.ctxAt 0 0).wait = .step 2#6 5#6 ∧ (s.ctxAt 0 0).state = .parked
         ∧ (s.ctxAt 0 0).arrivals = [(2, (s.job.group 2).count)] ∧ (s.coreAt 0).stopped = false ∧ s.job.stepReached 2 = true
         ∧ (s.ctxAt 0 0).active (gStream 5#6) = false)
    ∧ (wTstep 0).tl.tsteps = [{ g := 2, due := 0, need := 6 }] ∧ (0 ≤ (wTstep 0).now ∧ 6 ≤ ((wTstep 0).job.group 2).count)
    ∧ (wTstep 99).now + 1 < 99 := by decide +kernel

/-- An unassigned word, the steward's, an own one, one at its home and one of a tile. -/
theorem witness_ControlWords :
    (wOwned 0x400#12).reads (fun c => c.srcG 1#6) 11#64 (wOwned 0x400#12) ∧ wRegs.reads (Ctx.srcG2 1#6 3#6) (7#64, 5#64) wRegs
      ∧ cwAccess false 0x104 = none ∧ (cwAccess false 0x840).isSome = true
      ∧ (cwAccess false 0 = some .rw ∧ isOwnWord 0 = true)
      ∧ ((cwAccess false 0x21).isSome = true ∧ cwAccess false 0x21 ≠ some .none ∧ isOwnWord 0x21 = false)
      ∧ ((cwAccess false 0x823).isSome = true ∧ cwAccess false 0x823 ≠ some .none ∧ 0x800 ≤ 0x823)
      ∧ (let s := wPend (.sysr 5#6 0x823#12 2)
         s.focus.ctx < 11 ∧ s.cx.state = .parked ∧ s.cx.wait = .pend (.sysr 5#6 0x823#12 2))
      ∧ (let s := wPend (.sysw 5#64 0x021#12 0)
         s.cx.state = .parked ∧ s.cx.wait = .pend (.sysw 5#64 0x021#12 0) ∧ 5#64 = s.cx.rg 3#6)
      ∧ wRegs.cx.wait = .none := ⟨⟨_, rfl, rfl⟩, ⟨_, rfl, rfl⟩, by decide +kernel⟩
theorem witness_UserWritesStayOwn :
    wRegs.focus.ctx < 11 ∧ (match exec (.sysw 3#6 0#6 0x003#12) wRegs with | .next t => t.cx.upv == 40#29 | _ => false) = true := by
  decide +kernel

/-! ### The timed plane -/

/-- The base with tile 0 of the launch in cycle 200: flag 2 set, a few V registers, tile 1 its neighbour to the east. -/
def wTile : State :=
  wRegs.onJob fun j =>
    { j with
      tb := 200
      tiles :=
        [(0, { (default : Tile) with
            named := true, nf := 4#16
            v := [(2, 7#1024), (3, 5#1024), (4, 0x100000000#1024), (1990, 0x1000#1024)] })] }
/-- That tile changed. -/
def wTl (f : Tile → Tile) : State := wTile.onTl f

theorem witness_VectorLanes :
    wTile.nullified 2#4 = true ∧ ({ vargs with nf := 2#4 } : VArgs).nf = 2#4 ∧ ({ vargs1 with nf := 2#4 } : VArgs1).nf = 2#4
      ∧ wTile.vecRuns vargs.nf (vargs.b.toNat :: VSrc.regs vargs.a)
      ∧ wTile.vecRuns vargs.nf (vargs.b.toNat :: vargs.d.toNat :: VSrc.regs vargs.a) ∧ wTile.vecRuns vargs1.nf (VSrc.regs vargs1.a)
      ∧ wTile.vecRuns vargs1.nf (VSrc.regs (.link .n))
      ∧ num32 0xBF800000#32 ≠ .nan ∧ num32 0#32 ≠ .nan ∧ (num32 0xBF800000#32).lt false (num32 0#32) = true :=
  ⟨rfl, rfl, rfl, ⟨rfl, rfl⟩, ⟨rfl, rfl⟩, ⟨rfl, rfl⟩, ⟨rfl, rfl⟩, by decide +kernel⟩

/-- A register write and a store in flight. -/
def wVw (lane : Option (BitVec 5)) : VWrite := { due := 200, reg := 5, lane := lane, val := 9#1024, sink := none, pread := false }
def wVst : VstWrite := { due := 200, ea := 0x1FFFC0, data := 9#1024, prio := 0#2 }

theorem witness_VectorPacksAndMemory :
    wTile.vecRuns 0#4 ((List.range (Fmt.packCount .t6)).map fun j => (2040#11 : BitVec 11).toNat + j) ∧ wTile.vecRuns 0#4 [2047]
      ∧ wTile.vecRuns 0#4 []
      ∧ ((wTile.mereRead 0 0x1FFFC0 128 false).bound = false ∧ (wTile.mereRead 0 0x1FFFC0 128 false).broken = false)
      ∧ (let s := wTl fun t => { t with vwrites := [wVw none] }
         s.tl.vwrites = [wVw none] ∧ s.tl.vsts = [] ∧ (wVw none).due ≤ s.now ∧ (wVw none).sink = none)
      ∧ (wTl fun t => { t with vwrites := [wVw (some 31#5)] }).tl.vwrites = [wVw (some 31#5)] ∧ wTile.now < 201
      ∧ (let s := wTl fun t => { t with vsts := [wVst] }
         s.tl.vwrites = [] ∧ s.tl.vsts = [wVst] ∧ wVst.due ≤ s.now ∧ wVst.ea % 64 = 0 ∧ wVst.ea < 2 ^ 21
           ∧ ∀ i : Nat, i < 128 → s.pt.mereIn ((wVst.ea + i) % 2 ^ 21) = true ∧ s.tl.stepped.find ((wVst.ea + i) % 2 ^ 21) = none) :=
  ⟨⟨rfl, rfl⟩, ⟨rfl, rfl⟩, ⟨rfl, rfl⟩, by decide +kernel⟩

/-- A Mill operation in flight on tile 0. -/
def wMill : MillRun :=
  { line := 1, slot := 0, issue := 172, ready := 200, bank := 7, c := .none, fA := .bf16, fB := .bf16, sweeps := 1, ovw := true
    arrive := false, null := false, leader := 0, width := 0, issued := true, bnd := false, early := none, maReg := 0, ma := 0#64, mb := 0#64, mc := 0#64, midx := 0#64, rows := allRows
    a := [], b := [], cc := [], kb := [], kc := [], accIn := [], err := none }
/-- A drain that has read its first row. -/
def wDrain (row : Option (Nat × BitVec 1024)) : Drain := { issue := 199, d := 16, bank := 7, null := false, row := row, kept := [] }

theorem witness_MillOperations :
    wTile.regsBroken [2032 + (15#4 : BitVec 4).toNat] = false ∧ wTile.nullified 0#4 = false ∧ wTile.nullified 2#4 = true
      ∧ wTile.vecRuns 0#4 [2047] ∧ (0#2 : BitVec 2).toNat ≤ (3#2 : BitVec 2).toNat
      ∧ (∀ x ∈ (wTl fun t => { t with mills := [wMill] }).tl.mills, x.issued = true) :=
  ⟨rfl, rfl, rfl, ⟨rfl, rfl⟩, by decide, by decide +kernel⟩
theorem witness_MillWorks :
    (let s := wTl fun t => { t with mills := [wMill] }
     s.tl.mills = [wMill] ∧ s.tl.zeros = [] ∧ wMill.arrive = false ∧ wMill.issued = true ∧ s.job.millGoes s.focus.tile wMill = true
       ∧ wMill.ready ≤ s.job.runOn s.focus.tile ∧ wMill.null = false ∧ wMill.err = none ∧ s.pt.poison = [] ∧ wMill.bank < 8)
    ∧ ({ wMill with null := true } : MillRun).null = true ∧ wTile.job.runOn 0 < ({ wMill with ready := 201 } : MillRun).ready
    ∧ (let s := wTl fun t => { t with drains := [wDrain (some (0, 3#1024))] }
       s.tl.drains = [wDrain (some (0, 3#1024))] ∧ s.tl.vwrites = [] ∧ (wDrain none).null = false ∧ (wDrain none).issue ≤ s.now
         ∧ s.now < (wDrain none).issue + 32)
    ∧ wTile.tl.mills = [] ∧ (∀ k : Nat, ¬(1 ≤ k ∧ k ≤ wTile.focus.tile))
    ∧ (let r := { wMill with issue := 185, ready := 213 }
       r.leader = wTile.focus.tile ∧ r.rows = allRows ∧ r.issue ≤ wTile.job.runOn 0 ∧ wTile.job.runOn 0 < r.issue + 16 * r.sweeps)
    ∧ (let r := { wMill with issue := 184, ready := 212, ovw := false }
       let s := wTl fun t => { t with mills := [r] }
       s.tl.mills = [r] ∧ s.job.millGoes s.focus.tile r = true ∧ r.null = false ∧ r.ovw = false ∧ r.sweeps = 1
         ∧ s.job.runOn s.focus.tile = r.issue + 16)
    ∧ wTile.job.runOn 0 < ({ wMill with issue := 201 } : MillRun).issue :=
  ⟨by decide +kernel, by decide +kernel, by decide +kernel, by decide +kernel, by decide +kernel,
    fun k h => Nat.not_succ_le_zero 0 (Nat.le_trans h.1 h.2), by decide +kernel, by decide +kernel, by decide +kernel⟩

/-- The tile with segment 3 of 4 KiB on pseudo-channel 5, whose slots of every frame are tile 0's. -/
def wSeg : State :=
  (wTile.onPt fun p => { p with segs := [(6, 0x8005000000000000#64), (7, 0x1000#64)] }).onJob fun j =>
    { j with slots := [(5, List.replicate 16 0)] }
/-- A burst of kind `k` in cycle `c`. -/
def wBurst (k : BurstKind) (c : Nat) (latched performed : Bool) : Burst :=
  { (default : Burst) with slot := c, kind := k, seg := 3, pch := 5, off := some 0xFC0, loc := 0x1FFFC0, latched := latched, performed := performed }
/-- The tile with that burst placed. -/
def wBursts (b : Burst) : State := wSeg.onTl fun t => { t with bursts := [b] }

theorem witness_StaticTransfers :
    wSeg.vecRuns 0#4 [1984 + (6#6 : BitVec 6).toNat]
      ∧ descHoff (wSeg.tl.vr 1990) + 64 * 64 ≤ wSeg.pt.segLen 3 ∧ ¬(descHoff (wSeg.tl.vr 1990) + 64 * 65 ≤ wSeg.pt.segLen 3)
      ∧ wSeg.pt.ownedAt 5 0 ≠ [] ∧ (wSeg.slotsFor 5 2).length = 2
      ∧ (let b := wBurst .ld 100 true false
         let s := wBursts b
         s.tl.bursts = [b] ∧ b.null = false ∧ b.latched = true ∧ b.performed = false ∧ b.off = some 0xFC0 ∧ s.pt.poison = []
           ∧ b.slot + 64 ≤ s.job.scyc (sluiceNode b.pch))
      ∧ (let b := wBurst .st 136 true false
         b.kind = .st ∧ b.slot + 64 ≤ (wBursts b).job.runOn (sluiceNode b.pch))
      ∧ (let b := wBurst .st 200 false false
         let s := wBursts b
         let r := s.mereRead s.focus.tile b.loc 64 true
         b.latched = false ∧ b.off.isSome = true ∧ b.unit = 0 ∧ b.rowLen = 0 ∧ b.slot ≤ s.now ∧ r.bound = false ∧ r.broken = false)
      ∧ (let b := wBurst .ld 8 true true
         let s := wBursts b
         b.performed = true ∧ b.slot + 192 ≤ s.now ∧ b.loc % 64 = 0
           ∧ ∀ i : Nat, i < 64 → s.pt.mereIn ((b.loc + i) % 2 ^ 21) = true ∧ s.tl.stepped.find ((b.loc + i) % 2 ^ 21) = none)
      ∧ wSeg.tl.bursts = [] := ⟨⟨rfl, rfl⟩, by decide +kernel⟩

/-- A transfer to the east whose last beat leaves in this cycle. -/
def wXfer : Xfer :=
  { scnt := false, smeta := false, dir := .e, issue := 197, next := 1, n := 2, len := 3, loc := 0, dst := 0, prio := 0#2, null := false, count := 0 }
/-- A beat for the register of a link, and one that lands. -/
def wBeat (l : Option Landing) : Beat := { dir := .w, due := 200, data := 9#1024, land := l }
def wLand : Landing := { addr := 0x1FFFC0, len := 128, writer := 1, prio := 0#2 }
/-- A metadata pair of slot 3. -/
def wPair : Pair := { due := 200, hop := 1, slot := 0x10003#32, word := 9#32, dst := 0x100, writer := 1 }
/-- A fill that starts. -/
def wFill : Fill := { issue := 199, loc := 0x1FFFC0, next := 0, len := 2, loft := false, spread := false, prio := 0#2, null := false, pat := 9#1024 }

theorem witness_LinkTransfers :
    wTile.vecRuns 0#4 [1984 + (6#6 : BitVec 6).toNat]
      ∧ wTile.regsBroken [1984 + (6#6 : BitVec 6).toNat, 1984 + (63#6 : BitVec 6).toNat] = false
      ∧ (let s := wTl fun t => { t with xfers := [wXfer] }
         let r := s.mereRead s.focus.tile (wXfer.loc + 128 * wXfer.next) (wXfer.beatLen wXfer.next) true
         s.tl.xfers = [wXfer] ∧ s.pt.toward s.focus.tile wXfer.dir = .tile 1 1 ∧ 1 ≠ s.focus.tile ∧ wXfer.next < wXfer.n
           ∧ wXfer.issue + 1 + wXfer.next ≤ s.now ∧ r.bound = false ∧ r.broken = false)
      ∧ (let s := wTl fun t => { t with beats := [wBeat none] }
         s.tl.beats = [wBeat none] ∧ (wBeat none).due ≤ s.now ∧ (wBeat none).land = none)
      ∧ (let s := wTl fun t => { t with beats := [wBeat (some wLand)] }
         s.tl.beats = [wBeat (some wLand)] ∧ wLand.addr % 64 = 0 ∧ wLand.len = 128
           ∧ ∀ i : Nat, i < wLand.len →
              s.pt.mereIn ((wLand.addr + i) % 2 ^ 21) = true ∧ s.tl.stepped.find ((wLand.addr + i) % 2 ^ 21) = none)
      ∧ (let s := wTl fun t => { t with pairs := [wPair] }
         let a := (wPair.dst + 4 * (wPair.slot.toNat % 2 ^ 16)) % 2 ^ 21
         s.tl.pairs = [wPair] ∧ wPair.due ≤ s.now ∧ wPair.slot ≠ 0xFFFFFFFF#32 ∧ wPair.dst % 4 = 0
           ∧ ∀ i : Nat, i < 4 → s.pt.mereIn (a + i) = true ∧ s.tl.stepped.find (a + i) = none)
      ∧ (let s := wTl fun t => { t with fills := [wFill] }
         s.tl.fills = [wFill] ∧ wFill.null = false ∧ wFill.loft = false ∧ wFill.issue + 1 = s.now ∧ wFill.next = 0 ∧ 2 ≤ wFill.len
           ∧ wFill.loc % 64 = 0
           ∧ ∀ i : Nat, i < 128 → s.pt.mereIn ((wFill.loc + i) % 2 ^ 21) = true ∧ s.tl.stepped.find ((wFill.loc + i) % 2 ^ 21) = none)
      ∧ wTile.tl.xfers = [] ∧ wTile.tl.fills = [] := ⟨⟨rfl, rfl⟩, by decide +kernel⟩

/-- The tile with window 15 open until cycle 201, expecting words 0 and 63, under DEFAULT or STALL. -/
def wWindow (stall : Bool) (pws : SMap (BitVec 32)) : State :=
  wTl fun t =>
    { t with wctl := [(15, if stall then 0x30000#64 else 0x900010000#64)], wmask := [(15, 0x8000000000000001#64)], wclose := [(15, 201)], pws := pws }

theorem witness_WindowsFlagsChains :
    (let s := wWindow false []
     wdOpen (SMap.get s.tl.wctl 15) = true ∧ s.now + 1 = SMap.get s.tl.wclose 15 ∧ (s.job.node s.focus.tile).paused = false
       ∧ wdStall (SMap.get s.tl.wctl 15) = false)
    ∧ (let s := wWindow true [(0, 0x20000#32), (63, 0x20000#32)]
       wdStall (SMap.get s.tl.wctl 15) = true ∧ s.tl.awaited 15 = [])
    ∧ (let s := wWindow true [(0, 0x20000#32)]
       s.tl.awaited 15 ≠ [] ∧ s.job.frames = [])
    ∧ (wTl fun t => { t with wclose := [(15, 202)] }).now + 1 < 202
    ∧ wTile.job.debug = none ∧ wTile.job.trace.on = false ∧ engNum .reeve ≠ engNum wTile.focus.eng := by decide +kernel

/-- The tile in position 1 of a chain of three: a Causeway at its west edge. -/
def wChained : State := wTile.onPt fun p => { p with chain := 0x11#7 }
/-- A TSYNC awaited and its marker. -/
def wSync : SyncRun := { west := true, epoch := 3#16, issue := 150 }
def wMarker (e : BitVec 16) : Marker := { west := true, epoch := e, scyc := 150#16, at_ := 190 }
/-- The base with one hold, and with one frame hold, under way. -/
def wHolding (len : Option Nat) : State := wTile.onJob fun j => { j with holds := [{ node := 0, due := 200, len := len }] }
def wFramed (c : FrameCond) : State := wTile.onJob fun j => { j with frames := [{ node := 0, test := 200, cond := c }] }

theorem witness_TimedStepsAndHolds :
    (wTile.pt.faces 0 true = none ∧ wTile.pt.faces 0 false = none) ∧ (wChained.pt.faces 0 true = some 0 ∧ wChained.pt.faces 0 false = none)
      ∧ (let s := wTl fun t => { t with syncs := [wSync], markers := [wMarker 3#16] }
         s.tl.syncs = [wSync] ∧ s.tl.markers = [wMarker 3#16] ∧ (wMarker 3#16).west = wSync.west ∧ (wMarker 3#16).epoch = wSync.epoch
           ∧ (wMarker 3#16).scyc = BitVec.ofNat 16 wSync.issue ∧ wSync.issue ≤ (wMarker 3#16).at_ + 4096)
      ∧ (wMarker 4#16).epoch ≠ wSync.epoch
      ∧ (let s := wHolding (some 32)
         s.job.holds = [{ node := 0, due := 200, len := some 32 }] ∧ 200 ≤ s.job.tb)
      ∧ (wHolding none).job.holds = [{ node := 0, due := 200, len := none }] ∧ ((wHolding none).job.node 0).stop = none
      ∧ (let s := wFramed (.retry 200)
         s.job.frames = [{ node := 0, test := 200, cond := .retry 200 }] ∧ 200 ≤ s.job.tb ∧ (s.job.node 0).stop = none
           ∧ s.job.frameMet (.retry 200) = true)
      ∧ (wFramed (.retry 201)).job.frameMet (.retry 201) = false ∧ wTile.tl.syncs = [] := by decide +kernel
/-- A marker that came later than 4,096 tc, a TSYNC whose marker has not come in its 64 tc, and one whose time has not passed. -/
theorem witness_LateMarkers :
    (wTl fun t => { t with syncs := [{ wSync with issue := 0 }], markers := [] }).syncLate = false
      ∧ (let s := (wTl fun t => { t with syncs := [{ wSync with issue := 100 }] }).onJob fun j =>
           { j with tb := 4300, frames := [{ node := 0, test := 4301, cond := .marker 0 true 100 4196 }] }
         s.syncLate = true)
      ∧ (let s := wTl fun t => { t with syncs := [{ wSync with issue := 137 }] }
         s.syncLate = false ∧ s.tl.markerOf { wSync with issue := 137 } = none ∧ 137 + 64 ≤ s.now + 1)
      ∧ (let s := wTl fun t => { t with syncs := [wSync] }
         s.syncLate = false ∧ ∀ x ∈ s.tl.syncs, ¬(s.tl.markerOf x = none ∧ x.issue + 64 ≤ s.now + 1)) := by decide +kernel
theorem witness_NumbersAreExact :
    num32 0x7F7FFFFF#32 ≠ .nan ∧ num16 0xFF80#16 ≠ .nan ∧ ∀ x ∈ ([-2 ^ 62 + 1, 2 ^ 62 - 1] : List Int), -2 ^ 62 < x ∧ x < 2 ^ 62 := by
  decide +kernel

/-! ### The host port and its packets -/

/-- The base in a package whose boot has reached READY, three records completed and one seen, with a window of 128 KiB. -/
def wHost : State :=
  ({ wRegs with qok := 15#4, link := true } : State).onPt fun p =>
    { p with tdi := .run, cseq := 3#64, hseen := 1#64, grants := [(0, some { base := 0x20000, len := 0x20000, read := true, write := true, after := 3 })] }

theorem witness_HostPort :
    (wHost.ready = true ∧ wHost.pt.tdi = .run ∧ wHost.pt.cseq.toNat < (4#64 : Word).toNat
        ∧ wHost.pt.hseen.toNat ≤ (1#64 : Word).toNat ∧ (3#64 : Word).toNat ≤ wHost.pt.cseq.toNat ∧ wHost.pt.busy 4 = false)
      ∧ (wHost.bar2Ok false 0x3FFF0 16 = true ∧ ∀ i : Nat, i < 16 → wHost.pt.poisoned (wHost.pt.home (0x3FFF0 + i)) = false)
      ∧ wHost.bar2Ok false 0x3FFF1 16 = false ∧ wHost.bar2Ok true 0x20000 [1#8, 2#8].length = true
      ∧ wHost.plainBytes 0x20000 2 ∧ wHost.bar2Ok true 0x1FFFF [1#8, 2#8].length = false :=
  ⟨by decide +kernel, by decide +kernel, by decide +kernel, by decide +kernel, plain_of _ _ _ (by decide +kernel) (by decide +kernel), by decide +kernel⟩

/-- A packet of queue `q` with sequence number 1, acceptance number 7 and what follows its header. -/
def wPkt (q kind sub : Nat) (body : List Byte) : Packet :=
  { queue := q, num := 7
    bytes := toBytes 8 1 ++ toBytes 1 kind ++ toBytes 1 sub ++ zeros 6 ++ body ++ zeros (48 - body.length) }

/-- A state with that packet alone in its queue. -/
def wHead (s : State) (k : Packet) : State :=
  ({ s with focus := { s.focus with queue := k.queue } } : State).onPt fun p => p.onQueue k.queue fun x => { x with pending := [k] }

/-- Such a state has the packet at the head of its queue. -/
theorem head_of (s : State) (k : Packet) (kind sub : Nat)
    (h : (decide (((wHead s k).pt.queue k.queue).pending = [k]) && (wHead s k).pt.takes k.queue && k.kind == kind && k.sub == sub) = true) :
    (wHead s k).packetIs k.queue k [] kind sub := by
  simp only [Bool.and_eq_true, decide_eq_true_eq, beq_iff_eq] at h
  exact ⟨⟨h.1.1.1, h.1.1.2⟩, h.1.2, h.2⟩

/-- The base with user queue 0 of 64 slots at host address 0x1000 whose next slot holds a SIGNAL of sequence number `n`. -/
def wSlot (n : Nat) : State :=
  ({ wHost with host := writeMem [] 0x1000 (toBytes 8 n ++ toBytes 1 2) } : State).onPt fun p =>
    p.onQueue 0 fun x => { x with base := 0x1000#64, size := 64#64, tail := 2#64, head := 0, nextSeq := 2#64 }

/-- The packet in that slot. -/
def wSlotPkt (n : Nat) : Packet :=
  let s := wSlot n
  let x := s.pt.queue 0
  { queue := 0, num := s.pt.aseq.toNat + 1, bytes := readMem s.host (x.base.toNat + 64 * (x.head % x.size.toNat)) 64 }

theorem witness_PacketsAccepted :
    (let s := wSlot 2
     let x := s.pt.queue 0
     let k := wSlotPkt 2
     s.ready = true ∧ x.size.toNat ∈ ringSizes ∧ x.gap = false ∧ x.head ≤ x.tail.toNat ∧ s.pt.quiesced = false ∧ s.pt.quiesce = none
       ∧ k.seq = x.nextSeq.toNat ∧ 2 ≤ k.kind ∧ k.kind ≤ 6 ∧ subOk k.kind k.sub = true ∧ s.pt.aseq.toNat + 1 < 2 ^ 64)
      ∧ (let x := (wSlot 1).pt.queue 0
         (wSlotPkt 1).seq < x.nextSeq.toNat)
      ∧ (let x := (wSlot 3).pt.queue 0
         x.nextSeq.toNat < (wSlotPkt 3).seq) := by decide +kernel
theorem witness_PacketRecords :
    (let n := wHost.pt.cseq.toNat + 1
     wHost.pt.held = [] ∧ n < 2 ^ 64 ∧ n ≤ wHost.pt.hseen.toNat + 32)
      ∧ (let s := wHost.onPt fun p => { p with cseq := 33#64 }
         ¬(s.pt.cseq.toNat + 1 ≤ s.pt.hseen.toNat + 32)) := by decide +kernel

/-! ### The steward's packets -/

/-- The quiesced partition with no resident job. -/
def wIdle : State := wHost.onPt fun p => { p with quiesced := true, cur := none, res := [] }
/-- Every single partition quiesced with no resident job. -/
def wIdles : State := ([1, 2, 3].foldl (fun (s : State) n => s.onPart n fun p => { p with quiesced := true }) wIdle)
/-- QUIESCE with a limit of 1 and what byte 20 says. -/
def wQuiesce (f : Byte) : Packet := wPkt 4 5 0 [1, 0, 0, 0, f]
/-- RESHAPE to a layout. -/
def wReshape (n : Byte) : Packet := wPkt 4 6 1 [n]
/-- CWRITE of a word from a queue. -/
def wCwrite (q n v : Nat) : Packet := wPkt q 6 6 (toBytes 2 n ++ zeros 6 ++ toBytes 8 v)

theorem witness_StewardPackets_quiesce :
    ((wHead wHost (wQuiesce 1)).packetIs 4 (wQuiesce 1) [] 5 0 ∧ quiesceLayout (wQuiesce 1) = true ∧ (wQuiesce 1).le 20 1 % 2 = 1)
      ∧ ((wHead wIdle (wQuiesce 2)).packetIs 4 (wQuiesce 2) [] 5 0 ∧ quiesceLayout (wQuiesce 2) = true
          ∧ (wQuiesce 2).le 20 1 % 2 = 0 ∧ ((wHead wIdle (wQuiesce 2)).taken 4 []).pt.userBusy = false)
      ∧ ((wHead wHost (wQuiesce 0)).packetIs 4 (wQuiesce 0) [] 5 0 ∧ quiesceLayout (wQuiesce 0) = true
          ∧ ((wHead wHost (wQuiesce 0)).taken 4 []).pt.userBusy = true) :=
  ⟨⟨head_of _ _ _ _ (by decide +kernel), by decide +kernel⟩, ⟨head_of _ _ _ _ (by decide +kernel), by decide +kernel⟩,
    head_of _ _ _ _ (by decide +kernel), by decide +kernel⟩
theorem witness_StewardPackets_reshape :
    (wHead wIdles (wReshape 1)).packetIs 4 (wReshape 1) [] 6 1 ∧
      (let s := wHead wIdles (wReshape 1)
       let k := wReshape 1
       k.le 16 1 ≤ 4 ∧ k.zero 17 64 = true
         ∧ (∀ m ∈ layoutMasks 1, 1 < maskSize m → ∀ i : Nat, i < 4 → m.getLsbD i = true → s.qok.getLsbD i = true)
         ∧ s.pt.qmask ∈ layoutMasks s.layout ∧ s.pt.qmask ∉ layoutMasks 1
         ∧ ∀ m ∈ layoutMasks s.layout, m ∉ layoutMasks 1 →
             (s.taken 4 []).still m = true ∧ (s.taken 4 []).recordsOut m = true) :=
  ⟨head_of _ _ _ _ (by decide +kernel), by decide +kernel⟩
theorem witness_StewardPackets_ports :
    (let k := wPkt 4 6 2 ([1, 2, 1] ++ zeros 5 ++ toBytes 8 0x1FFFF)
     (wHead wHost k).packetIs 4 k [] 6 2 ∧ (wHead wHost k).pt.portOk (k.le 16 1) = true ∧ k.le 17 1 ≤ 2 ∧ k.le 18 1 ≤ 1
       ∧ k.zero 19 24 = true ∧ k.le 24 8 < 2 ^ 56 ∧ k.zero 32 64 = true)
      ∧ (let k := wPkt 4 6 3 ([0, 0] ++ toBytes 2 1023 ++ zeros 4 ++ List.replicate 20 9)
         (wHead wHost k).packetIs 4 k [] 6 3 ∧ (wHead wHost k).pt.portOk (k.le 16 1) = true ∧ k.zero 17 18 = true ∧ k.le 18 2 ≤ 1023
           ∧ k.zero 20 24 = true ∧ k.zero 44 64 = true)
      ∧ (let k := wPkt 4 6 4 ([1, 0] ++ toBytes 2 1023 ++ [3, 1, 0, 0] ++ toBytes 8 0x20000 ++ toBytes 8 64)
         (wHead wHost k).packetIs 4 k [] 6 4 ∧ (wHead wHost k).pt.portOk (k.le 16 1) = true ∧ k.zero 17 18 = true ∧ k.le 18 2 ≤ 1023
           ∧ k.le 20 1 < 4 ∧ k.le 21 1 ≤ 1 ∧ k.zero 22 24 = true ∧ k.le 24 8 < 2 ^ 56 ∧ k.zero 40 64 = true) :=
  ⟨⟨head_of _ _ _ _ (by decide +kernel), by decide +kernel⟩, ⟨head_of _ _ _ _ (by decide +kernel), by decide +kernel⟩,
    head_of _ _ _ _ (by decide +kernel), by decide +kernel⟩
theorem witness_StewardPackets :
    ((wHead wIdle (wCwrite 4 0x201 3)).packetIs 4 (wCwrite 4 0x201 3) [] 6 6 ∧
        (let k := wCwrite 4 0x201 3
         (wHead wIdle k).focus.queue = 4 ∧ k.zero 18 24 = true ∧ k.zero 32 64 = true ∧ cwriteMask (k.le 16 2) = some 0xFFFF#64
           ∧ BitVec.ofNat 64 (k.le 24 8) &&& ~~~0xFFFF#64 = 0#64
           ∧ ((wHead wIdle k).taken 4 []).pt.cwriteRefused (k.le 16 2) (BitVec.ofNat 64 (k.le 24 8)) = none))
      ∧ ((wHead wHost (wCwrite 4 0x201 3)).packetIs 4 (wCwrite 4 0x201 3) [] 6 6
          ∧ ((wHead wHost (wCwrite 4 0x201 3)).taken 4 []).pt.cwriteRefused 0x201 3#64 = some 7) :=
  ⟨⟨head_of _ _ _ _ (by decide +kernel), by decide +kernel⟩, head_of _ _ _ _ (by decide +kernel), by decide +kernel⟩

/-- A QUIESCE under way with its limit at dc 100. -/
def wLimit (force : Bool) : Quiesce := { pkt := wQuiesce 0, limit := 100, force := force, aborting := false }

theorem witness_QuiesceLimits :
    (let s := (wHost.onPt fun p => { p with quiesce := some (wLimit false) })
     s.pt.quiesce = some (wLimit false) ∧ (wLimit false).limit ≤ s.clock ∧ (wLimit false).aborting = false ∧ (wLimit false).force = false
       ∧ ({ s with clock := 99 } : State).clock < (wLimit false).limit)
      ∧ (let s := (wIdle.onPt fun p => { p with quiesce := some (wLimit true) })
         s.pt.quiesce = some (wLimit true) ∧ (wLimit true).limit ≤ s.clock ∧ (wLimit true).force = true ∧ s.pt.cur = none)
      ∧ (wHead wIdle (wCwrite 0 0x201 3)).packetIs 0 (wCwrite 0 0x201 3) [] 6 6
      ∧ (wHead wIdle (wCwrite 0 0x201 3)).focus.queue < 4 :=
  ⟨by decide +kernel, by decide +kernel, head_of _ _ _ _ (by decide +kernel), by decide⟩

/-! ### Signals, checkpoints, the owner -/

/-- SIGNAL to a context, and CHECKPOINT of an OP over port 0 and peer 0. -/
def wSignal (n : Nat) : Packet := wPkt 0 2 0 (toBytes 2 n)
def wCkpt (op : Byte) : Packet := wPkt 4 4 0 [op, 1]
/-- Such a checkpoint under way. -/
def wCkpting (op : Byte) (save : Bool) : Ckpt := { pkt := wCkpt op, save := save, bytes := 0 }
/-- The idle partition with peer 0 of port 0 set. -/
def wPeer : State := wIdle.onUport 0 fun x => { x with peers := [(0, some (List.replicate 20 9))] }

theorem witness_SignalsAndCheckpoints :
    ((wHead wHost (wSignal 0)).packetIs 0 (wSignal 0) [] 2 0
        ∧ (let s := wHead wHost (wSignal 0)
           let k := wSignal 0
           k.zero 18 24 = true ∧ k.zero 40 64 = true ∧ s.pt.targetOf 0 = some 0 ∧ s.pt.cur = some 0 ∧ s.pt.hasCtx (k.le 16 2) = true
             ∧ (s.ctxAt 0 0).state ≠ .free ∧ (wHead wIdle k).pt.targetOf 0 = none))
      ∧ ((wHead wIdle (wCkpt 0)).packetIs 4 (wCkpt 0) [] 4 0 ∧ ckptLayout (wHead wIdle (wCkpt 0)).pt (wCkpt 0) = true
          ∧ (wCkpt 0).le 16 1 = 0 ∧ (wHead wIdle (wCkpt 0)).pt.cur = none)
      ∧ ((wHead wIdle (wCkpt 1)).packetIs 4 (wCkpt 1) [] 4 0 ∧ ckptLayout (wHead wIdle (wCkpt 1)).pt (wCkpt 1) = true
          ∧ (wCkpt 1).le 16 1 = 1 ∧ (wHead wHost (wCkpt 1)).pt.quiesced = false ∧ (wHead wIdle (wCkpt 1)).pt.quiesced = true
          ∧ SMap.get (wHead wIdle (wCkpt 1)).pt.res 0 = none ∧ SMap.get (wHead wIdle (wCkpt 1)).pt.res 1 = none
          ∧ (wHead wIdle (wCkpt 1)).pt.restoreOk = false
          ∧ (wHead (wIdle.onPt fun p => { p with restoreOk := true }) (wCkpt 1)).pt.restoreOk = true)
      ∧ (let s := wPeer.onPt fun p => { p with ckpt := some (wCkpting 0 true) }
         s.pt.ckpt = some (wCkpting 0 true) ∧ (wCkpting 0 true).save = true ∧ s.pt.cur = none ∧ s.reaches (wCkpting 0 true).pkt = true)
      ∧ (wPeer.onPt fun p => { p with ckpt := some (wCkpting 1 false) }).pt.ckpt = some (wCkpting 1 false)
      ∧ (wCkpting 1 false).save = false :=
  ⟨⟨head_of _ _ _ _ (by decide +kernel), by decide +kernel⟩, ⟨head_of _ _ _ _ (by decide +kernel), by decide +kernel⟩,
    ⟨head_of _ _ _ _ (by decide +kernel), by decide +kernel⟩, by decide +kernel, rfl, rfl⟩

/-- SECMSG with a reply buffer of 16 bytes. -/
def wSecmsg : Packet := wPkt 4 6 5 ([16, 0, 0, 0] ++ zeros 4 ++ toBytes 8 0x8000)
/-- The base in a session, of the owner or of no owner yet. -/
def wSession (o : Option (BitVec 256)) : State :=
  wHost.onPt fun p => { p with spdm := { (default : Spdm) with session := some (some 5) }, owner := o }

theorem witness_OwnerMessages :
    ((wHead (wSession none) wSecmsg).packetIs 4 wSecmsg [] 6 5 ∧ (wHead (wSession none) wSecmsg).pt.secmsgQueue = some 4
        ∧ secmsgLayout wSecmsg = true ∧ (wHead (wSession none) wSecmsg).pt.spdm.session = some (some 5)
        ∧ (wHead (wSession none) wSecmsg).pt.owner = none)
      ∧ ((wHead (wSession (some 5)) wSecmsg).packetIs 4 wSecmsg [] 6 5 ∧ (wHead (wSession (some 5)) wSecmsg).pt.secmsgQueue = some 4
          ∧ (wHead (wSession (some 5)) wSecmsg).pt.spdm.session = some (some 5)
          ∧ (wHead (wSession (some 5)) wSecmsg).pt.owner = some 5)
      ∧ ((wHead (wSession (some 6)) wSecmsg).packetIs 4 wSecmsg [] 6 5 ∧ (wHead (wSession (some 6)) wSecmsg).pt.secmsgQueue = some 4)
      ∧ (∀ h : BitVec 256, (wHead (wSession (some 6)) wSecmsg).pt.spdm.session = some (some h) →
          (wHead (wSession (some 6)) wSecmsg).pt.owner ≠ some h)
      ∧ 0x20000 % 65536 = 0 := by
  refine ⟨⟨head_of _ _ _ _ (by decide +kernel), by decide +kernel⟩, ⟨head_of _ _ _ _ (by decide +kernel), by decide +kernel⟩,
    ⟨head_of _ _ _ _ (by decide +kernel), by decide +kernel⟩, ?_, by decide⟩
  have s : (wHead (wSession (some 6)) wSecmsg).pt.spdm.session = some (some 5) := by decide +kernel
  have o : (wHead (wSession (some 6)) wSecmsg).pt.owner = some 6 := by decide +kernel
  intro h e
  rw [s] at e
  injection e with e
  injection e with e
  rw [o, ← e]
  decide
theorem witness_OwnerAndInterface :
    wHost.ready = true ∧ 1 ≤ 7 ∧ 7 ≤ 7 ∧ wHost.pt.ide = none ∧ wHost.pt.spdm.session = none ∧ (wSession none).ready = true
      ∧ (wSession none).pt.spdm.session.isSome = true ∧ (wHost.onPt fun p => { p with ide := some 3 }).pt.ide.isSome = true := by decide +kernel

/-! ### The ports, and a page table for them -/

/-- Tables of four levels at 0x10000 that map page 2 to partition HBM at 0x20000 and page 0x40 to 0x40000 (08 R249). -/
def wMap (s : State) : State :=
  [(0x10000, 0x8000000000012000#64), (0x12000, 0x8000000000014000#64), (0x14000, 0x8000000000016000#64),
    (0x16010, wLeaf 0x20000), (0x16200, wLeaf 0x40000)].foldl
    (fun (s : State) (x : Nat × Word) => s.paPuts false x.1 (toBytes 8 x.2.toNat)) s

/-- A ring record (05 R161) of four slots of 64 bytes at 0x20100, one of them published, with producers 0, 29 and 30. -/
def wPortRing : List Byte :=
  toBytes 8 0x20100 ++ toBytes 4 4 ++ toBytes 2 64 ++ zeros 2 ++ toBytes 4 (2 ^ 29 + 2 ^ 30 + 1) ++ zeros 4 ++ toBytes 8 1 ++ toBytes 8 1
    ++ zeros 24
/-- A work item: an operation on 4 bytes at 0x20800. -/
def wItem (op : Byte) : List Byte := [op, 0, 0, 0] ++ toBytes 4 4 ++ toBytes 8 0x20800 ++ zeros 48
/-- Port 0 with that ring for work and for receiving, that peer and a memory region. -/
def wUport (work : Option (List Byte)) : Port :=
  { rings := [(0, some (0, 0x20000)), (2, some (0, 0x20000))], peers := [(0, some (List.replicate 20 9))]
    regions := [(1023, some (3, 0, 0x20000, 0x1000))], work := work, stopped := [] }
/-- The base with the record, the item in its published slot and the port. -/
def wPorted (item : List Byte) (work : Option (List Byte)) : State :=
  (((wMap wHost).paPuts false 0x20000 wPortRing).paPuts false 0x20100 item).onPt fun p => { p with uports := [(0, wUport work)] }

/-- What a ring step of a port answered. -/
def wMade : PortStep → Bool
  | .ok _ _ => true
  | _ => false
/-- What the port's item is answered with before it leaves: none when it leaves. -/
def wChecked (item : List Byte) : Option (BitVec 8 × BitVec 8) :=
  let s := wPorted item none
  match s.portRead 0 wJob (s.portSlot wJob 0x20000 0).1 64 with
  | .ok (i, t) =>
    match t.itemCheck 0 0 wJob i with
    | .ok _ => none
    | .error e => some e
  | .error e => some (0xFF#8, e)

theorem witness_PortsWork_in :
    let s := wPorted (wItem 1) none
    s.pt.ownsPort (0#3 : BitVec 3).toNat = true ∧ s.regionAt 0 1022 true 0 4 = none ∧ s.regionAt 0 1023 true 0xFFC 4 = some (0, wJob, 0x20FFC)
      ∧ (s.portWrite 0 wJob 0x20FFC [1, 2, 3, 4]).toOption.isSome = true ∧ s.regionAt 0 1023 false 0 4 = some (0, wJob, 0x20000)
      ∧ (s.portRead 0 wJob 0x20000 4).toOption.isSome = true ∧ s.portRing 0 2 = some (0, wJob, 0x20000) ∧ wJob.anum ∉ (s.uport 0).stopped
      ∧ wMade (s.fillReceive 0 wJob 0x20000 (s.portSlot wJob 0x20000 0).2 1 [7]) = true := by decide +kernel
theorem witness_PortsWork_out :
    let s := wPorted (wItem 1) none
    (s.uport 0).work = none ∧ s.portRing 0 0 = some (0, wJob, 0x20000) ∧ wMade (s.portStep 0 wJob 0x20000 consumer (.radv 1#64)) = true
      ∧ (match s.walkRoot 0x20000 wJob.place.root with
          | .leaf _ l => (RingRec.read (ofBytes (s.paBytes (leafAddr l 0x20000) 64))).freed
          | _ => 9) = 0
      ∧ wChecked (wItem 1) = none ∧ wChecked (wItem 3) = some (5#8, 0#8) := by decide +kernel
theorem witness_PortsWork :
    ((wPorted (wItem 1) (some (wItem 1))).uport 0).work = some (wItem 1) ∧ itemOp (wItem 1) ≠ 2
      ∧ ((wPorted (wItem 2) (some (wItem 2))).uport 0).work = some (wItem 2) ∧ itemOp (wItem 2) = 2
      ∧ ((wPorted (wItem 2) (some (wItem 2))).portWrite 0 wJob (itemAddr (wItem 2)) (([1, 2, 3, 4, 5] : List Byte).take (itemLen (wItem 2)))).toOption.isSome
        = true := by decide +kernel

/-! ### The debug agent -/

/-- The base with group 2 of two members, and an agent attached to the steward's queue or not. -/
def wOpen (d : Option Debug) : State :=
  (wHost.onPt fun p => { p with debugOk := 15#4 }).onJob fun j => { j with debug := d, groups := [(2, wGrp)] }
/-- The head of the steward's queue, a DEBUG packet. -/
def wDbg (sub : Nat) (body : List Byte) : Packet := wPkt 4 3 sub body
/-- The launch that such a packet is addressed to. -/
theorem targets_of (d : Option Debug) (k : Packet) (hc : (wHead (wOpen d) k).pt.cur = some 0)
    (hr : SMap.get (wHead (wOpen d) k).pt.res 0 = some wJob) : (wHead (wOpen d) k).targets 4 0 wJob := ⟨hc, hr, Or.inl rfl⟩

theorem witness_DebugControl_attach :
    (wHead (wOpen none) (wDbg 1 [])).packetIs 4 (wDbg 1 []) [] 3 1 ∧ (wHead (wOpen none) (wDbg 1 [])).targets 4 0 wJob
      ∧ (wDbg 1 []).zero 16 64 = true ∧ (wHead (wOpen none) (wDbg 1 [])).job.debug = none
      ∧ (wHead (wOpen none) (wDbg 1 [])).pt.debugOpen 4 = true :=
  ⟨head_of _ _ _ _ (by decide +kernel), targets_of _ _ (by decide +kernel) (by decide +kernel), by decide +kernel⟩
/-- The packets of an attached agent: ARM of a location, STOP of group 2 and of context 0 among them. -/
theorem witness_DebugControl :
    (let k := wDbg 3 ([1, 1, 15, 0] ++ zeros 4 ++ toBytes 8 0x3FFFFFFFF)
     (wHead (wOpen (some wAgent)) k).packetIs 4 k [] 3 3 ∧ (wHead (wOpen (some wAgent)) k).targets 4 0 wJob
       ∧ (wHead (wOpen (some wAgent)) k).attachedAs 4 wAgent ∧ armLayout k = true ∧ k.le 16 1 ≠ 0)
      ∧ ((wHead (wOpen (some wAgent)) (wDbg 2 [])).packetIs 4 (wDbg 2 []) [] 3 2)
      ∧ (let k := wDbg 4 [2, 0, 3, 0]
         (wHead (wOpen (some wAgent)) k).packetIs 4 k [] 3 4 ∧ triggerIndex (k.le 16 1) (k.le 18 2) = true ∧ k.zero 17 18 = true
           ∧ k.zero 20 64 = true)
      ∧ (let k := wDbg 5 [2]
         (wHead (wOpen (some wAgent)) k).packetIs 4 k [] 3 5 ∧ k.zero 17 18 = true ∧ k.zero 20 64 = true ∧ k.le 16 1 ≠ 0xFF
           ∧ ((wHead (wOpen (some wAgent)) k).job.group 2).nmem ≠ 0 ∧ ((wHead (wOpen (some wAgent)) k).job.group 3).nmem = 0)
      ∧ (let k := wDbg 5 [0xFF]
         (wHead (wOpen (some wAgent)) k).packetIs 4 k [] 3 5 ∧ k.le 16 1 = 0xFF ∧ (wHead (wOpen (some wAgent)) k).pt.hasCtx (k.le 18 2) = true
           ∧ ((wHead (wOpen (some wAgent)) k).ctxAt 0 0).state ≠ .free ∧ (wHead (wOpen (some wAgent)) k).job.trace.on = false)
      ∧ ((wHead (wOpen (some wAgent)) (wDbg 6 [])).packetIs 4 (wDbg 6 []) [] 3 6 ∧ (wDbg 6 []).zero 16 64 = true)
      ∧ (wHead (wOpen (some wAgent)) (wDbg 11 [])).packetIs 4 (wDbg 11 []) [] 3 11 ∧ wAgent.past = [] :=
  ⟨⟨head_of _ _ _ _ (by decide +kernel), targets_of _ _ (by decide +kernel) (by decide +kernel), ⟨by decide +kernel, rfl⟩,
      by decide +kernel⟩,
    head_of _ _ _ _ (by decide +kernel), ⟨head_of _ _ _ _ (by decide +kernel), by decide +kernel⟩,
    ⟨head_of _ _ _ _ (by decide +kernel), by decide +kernel⟩, ⟨head_of _ _ _ _ (by decide +kernel), by decide +kernel⟩,
    ⟨head_of _ _ _ _ (by decide +kernel), by decide +kernel⟩, head_of _ _ _ _ (by decide +kernel), rfl⟩
theorem witness_ReleasedContexts :
    let x := fun (w : Wait) => { (default : Ctx) with state := .halted, wait := w }
    (x .halt).state = .halted ∧ (x .halt).wait = .halt ∧ ((x .debug).wait ≠ .halt ∧ (x .debug).wait.inFlight = false)
      ∧ (x (.pend .exit)).wait.inFlight = true := by decide

/-- The base with the agent attached, a stop in the gang form and context 0 halted. -/
def wStopped : State :=
  ((wOpen (some { wAgent with gang := true, inForce := true })).onCx fun c => { c with state := .halted, wait := .debug }).onJob fun j =>
    { j with tiles := [(0, { (default : Tile) with named := true })], nodes := [(0, { (default : Node) with stop := some (9, 0) })] }
/-- DUMP of an item of context or tile 0 to page 2. -/
def wDump (item : Byte) : Packet := wDbg 7 ([item, 0, 0, 0, 0, 0, 1, 0] ++ toBytes 8 0x20000)

theorem witness_DebugData :
    ((wHead wStopped (wDump 0)).packetIs 4 (wDump 0) [] 3 7 ∧ dumpLayout (wDump 0) = true ∧ (wDump 0).le 16 1 = 0
        ∧ (wHead wStopped (wDump 0)).pt.hasCtx 0 = true ∧ (wHead wStopped (wDump 0)).job.ctxStopped 0 = true
        ∧ (wHead (wOpen (some wAgent)) (wDump 0)).job.ctxStopped 0 = false)
      ∧ ((wHead wStopped (wDump 1)).packetIs 4 (wDump 1) [] 3 7 ∧ dumpLayout (wDump 1) = true ∧ (wDump 1).le 16 1 = 1
          ∧ ((wHead wStopped (wDump 1)).tileAt 0).named = true ∧ (wHead wStopped (wDump 1)).job.tileStopped 0 = true)
      ∧ (let k := wDbg 8 ([0, 0, 0, 0, 63, 0, 0, 0] ++ toBytes 8 5)
         (wHead wStopped k).packetIs 4 k [] 3 8 ∧ pokeLayout k = true ∧ k.le 16 1 = 0)
      ∧ (let k := wDbg 9 ([31, 1, 0, 0, 1, 0, 0, 0] ++ toBytes 8 0x20000 ++ toBytes 8 8192)
         (wHead wStopped k).packetIs 4 k [] 3 9 ∧ traceLayout k = true ∧ k.le 32 8 ≠ 0
           ∧ (((wHead (wMap wStopped) k).taken 4 []).agentPut (k.le 24 8) (zeros 64)).toOption.isSome = true)
      ∧ (let k := wDbg 9 []
         (wHead wStopped k).packetIs 4 k [] 3 9 ∧ traceLayout k = true ∧ k.le 32 8 = 0
           ∧ (((wHead wStopped k).taken 4 []).agentPut 0 (zeros 64)).toOption.isSome = false)
      ∧ (let k := wDbg 10 (zeros 8 ++ toBytes 8 0x20000 ++ toBytes 4 32768)
         (wHead wStopped k).packetIs 4 k [] 3 10 ∧ k.zero 16 24 = true ∧ k.zero 36 64 = true ∧ 1 ≤ k.le 32 4 ∧ k.le 32 4 ≤ 32768) :=
  ⟨⟨head_of _ _ _ _ (by decide +kernel), by decide +kernel⟩, ⟨head_of _ _ _ _ (by decide +kernel), by decide +kernel⟩,
    ⟨head_of _ _ _ _ (by decide +kernel), by decide +kernel⟩, ⟨head_of _ _ _ _ (by decide +kernel), by decide +kernel⟩,
    ⟨head_of _ _ _ _ (by decide +kernel), by decide +kernel⟩, head_of _ _ _ _ (by decide +kernel), by decide +kernel⟩

/-! ### Launches -/

/-- A placement record of the whole shares (10 R305), at 0x30000. -/
def wPlaced (s : State) : State :=
  s.paPuts false 0x30000 (toBytes 8 0x10000 ++ toBytes 4 1 ++ [0, 32, 0, 2, 0, 4] ++ zeros 110)
/-- LAUNCH with its placement record at an address. -/
def wLaunch (pa : Nat) : Packet := wPkt 0 1 0 (toBytes 8 0x400000 ++ toBytes 8 pa)
/-- An image of five lines: context 0 of core 0 at one code line, and a descriptor; its bytes that are not zero, with their
offsets. -/
def wImage : List (Nat × List Byte) :=
  [(0, toBytes 4 0x4B34494D ++ toBytes 4 1 ++ [5, 1, 1, 2, 1, 3, 2].flatMap (toBytes 4)), (64, [2]), (128, toBytes 5 0x7F00000002),
    (192, [7]), (208, [32])]
/-- Slot 0 in a state of residency. -/
def wRes (st : ResState) : Resident := { wJob with state := st }
/-- The idle partition with a job loading from an image. -/
def wLoad (img : List (Nat × List Byte)) : State :=
  (img.foldl (fun (s : State) (x : Nat × List Byte) => s.paPuts false (0x40000 + x.1) x.2) (wMap wIdle)).onPt fun p =>
    { p with res := [(0, some (wRes .loading))] }
/-- What the verifier says of it. -/
def wVerdict (img : List (Nat × List Byte)) : Option Nat :=
  let s := wLoad img
  match verify { part := s.pt, place := wJob.place, maps := s.rootMaps wJob.place.root } (s.imageLine wJob.place.root wJob.image) with
  | .ok _ => none
  | .error o => some o.status

theorem witness_LaunchLoads :
    (let s := wHead (wPlaced wIdle) (wLaunch 0x30000)
     (s.packetIs 0 (wLaunch 0x30000) [] 1 0 ∧ launchLayout (wLaunch 0x30000) = true ∧ s.pt.freeSlot = some 0
       ∧ (s.taken 0 []).placeOkAt 0x30000 = true ∧ (s.taken 0 []).placeOkAt 0x30040 = false))
      ∧ (wLoad wImage).pt.loadingSlot = some 0 ∧ SMap.get (wLoad wImage).pt.res 0 = some (wRes .loading)
      ∧ wVerdict wImage = none ∧ wVerdict [] = some 0x10 :=
  ⟨⟨head_of _ _ _ _ (by decide +kernel), by decide +kernel⟩, by decide +kernel⟩

/-- The partition with a job READY in slot 0, alone or in position `n` of a chain of two. -/
def wReady (chain : BitVec 7) (four : Bool) : State :=
  wHost.onPt fun p => { p with cur := none, chain := chain, res := [(0, some { wRes .ready with stepFour := four })] }

/-- What the package in position 1 of that chain reports of the same launch, with a RATIO. -/
def wMember (ratio : BitVec 2) : Member :=
  { ((wReady 9#7 true).pt.member { wRes .ready with stepFour := true }) with east := true, ratio := ratio }

theorem witness_LaunchBegins :
    (let s := wReady 0#7 false
     s.pt.cur = none ∧ s.pt.nextReady = some 0 ∧ s.pt.switch = none ∧ s.pt.ckpt = none ∧ s.pt.aborting = false ∧ s.pt.chained = false)
      ∧ (let s := wReady 8#7 false
         s.pt.nextReady = some 0 ∧ s.pt.aborting = false ∧ s.pt.chained = true ∧ (wRes .ready).stepFour = false)
      ∧ (let s := (wReady 8#7 true).onPt fun p => { p with members := [wMember 0#2] }
         let r := { wRes .ready with stepFour := true }
         s.pt.nextReady = some 0 ∧ s.pt.chained = true ∧ r.announced = none ∧ s.pt.members.any (s.pt.disagrees r) = false
           ∧ s.pt.position = 0 ∧ s.pt.allReady = true ∧ s.clock / 2 + 512 ≤ 562 ∧ 561 < s.clock / 2 + 512)
      ∧ (let s := wReady 9#7 true
         s.pt.nextReady = some 0 ∧ s.pt.chained = true ∧ s.pt.position ≠ 0
           ∧ s.pt.members.any (s.pt.disagrees { wRes .ready with stepFour := true }) = false ∧ (wReady 8#7 true).pt.allReady = false)
      ∧ (let s := (wReady 8#7 true).onPt fun p => { p with members := [wMember 1#2] }
         s.pt.members.any (s.pt.disagrees { wRes .ready with stepFour := true }) = true) := by decide +kernel

/-- The base at TIMEBASE 2,048 with no context or tile left, one equal sweep made 2,048 dc ago in a quiet that holds. -/
def wQuietJob (q : Option Nat) : State :=
  wHost.onJob fun j => { j with tb := 2048, quietFrom := q, sweep := some (0, 0, 2048) }

theorem witness_BellEndsLaunch :
    (let s := wQuietJob (some 2000)
     s.pt.cur = some 0 ∧ SMap.get s.pt.res 0 = some wJob ∧ s.pt.switch = none ∧ s.job.stop = none ∧ s.job.dc % 2048 = 0
       ∧ s.job.quietFrom = some 2000 ∧ 2000 ≤ 2048 ∧ 2048 < s.job.dc ∧ s.job.sweep = some (s.job.sums.1, s.job.sums.1, 2048)
       ∧ s.job.sums.2 = s.job.sums.1)
      ∧ (wQuietJob none).job.quietFrom = none ∧ ((wQuietJob none).onJob fun j => { j with phase := true }).job.dc % 2048 ≠ 0 := by
  decide +kernel

/-- The base with another job in slot 1. -/
def wTwo (r : Resident) : State := wHost.onPt fun p => { p with res := [(0, some wJob), (1, some r)] }
/-- The base in a stage of a switch to slot 1. -/
def wSwitch (st : SwitchStage) (stopped : Bool) : State :=
  ((wTwo (wRes .shadow)).onPt fun p => { p with switch := some { stage := st, toId := some 1, since := 5 } }).onJob fun j =>
    { j with
      stop := some { origin := .steward, cause := 0#8, detail := 0#8, cause2 := 0#8, aux := 0#64, tb := 1 }
      cores := j.cores.map fun c => (c.1, { c.2 with stopped := stopped })
      nodes := if stopped then wHost.pt.nodes.map fun n => (n, { (default : Node) with stop := some (9, 0) }) else [] }

/-- A fatal stop in force that has come to a boundary everywhere, or not. -/
def wEnding (stopped : Bool) : State :=
  (wSwitch .stop stopped).onJob fun j =>
    { j with stop := some { origin := .steward, cause := 0x18#8, detail := 0#8, cause2 := 0#8, aux := 0#64, tb := 1 } }

theorem witness_JobsChange :
    (let s := wTwo { wRes .ready with prio := 1 }
     s.pt.cur = some 0 ∧ SMap.get s.pt.res 0 = some wJob ∧ SMap.get s.pt.res (1 - 0) = some { wRes .ready with prio := 1 }
       ∧ s.pt.switch = none ∧ s.pt.ckpt = none ∧ s.job.stop = none ∧ wJob.prio < 1)
      ∧ (let s := wTwo (wRes .loading)
         SMap.get s.pt.res (1 - 0) = some (wRes .loading) ∧ (wRes .ready).prio < ({ wJob with prio := 1 } : Resident).prio)
      ∧ ((wSwitch .stop true).pt.switch = some { stage := .stop, toId := some 1, since := 5 } ∧ (wSwitch .stop true).pt.allStopped = true
          ∧ (wSwitch .stop false).pt.allStopped = false)
      ∧ ((wSwitch .drain true).job.drained false = true ∧ ((wSwitch .drain true).onJob fun j =>
          { j with posts := [{ src := 0, tile := 0, word := 0, value := 0#32, seq := 0#16 }] }).job.drained false = false
          ∧ (wSwitch .drain true).job.ending = false ∧ (wSwitch .drain true).pt.cur = some 0
          ∧ SMap.get (wSwitch .drain true).pt.res 0 = some wJob ∧ (wEnding true).job.ending = true
          ∧ ((wSwitch .drain true).onPt fun p => { p with cur := none, job := default }).pt.cur = none)
      ∧ (let s := wSwitch .swap true
         s.pt.cur = some 0 ∧ 1 ≠ 0 ∧ SMap.get s.pt.res 1 = some (wRes .shadow)
           ∧ s.pt.switch = some { stage := .swap, toId := some 1, since := 5 } ∧ (wRes .shadow).saved.debug = none ∧ (wRes .shadow).msgs = []
           ∧ s.pt.saveError = none ∧ s.job.ending = false) := by
  decide +kernel
theorem witness_LaunchEndsOrSwitches : (wQuietJob none).pt.cur.isSome = true ∧ (wSwitch .stop true).pt.switch.isSome = true := by decide +kernel

/-! ### Links, stops, and the cores between issues -/

/-- The base in a partition of two quarters over an open bridge, at the east end of a chain of two, with tile `n` in focus. -/
def wWide (n : Nat) (tiles : SMap Tile) : State :=
  ({ wRegs with focus := { wRegs.focus with tile := n } } : State).onPt fun p =>
    { p with qmask := 3#4, il := 0xFF#16, bound := 1#4, chain := 9#7, job := { p.job with tb := 200, tiles := tiles } }

theorem witness_LinkFailures :
    (let s := wWide 11 [(11, { (default : Tile) with beats := [{ dir := .e, due := 201, data := 1#1024, land := none }] })]
     s.pt.cur.isSome = true ∧ s.job.stop = none ∧ s.focus.tile < s.pt.tileCount ∧ s.pt.onBridge s.focus.tile = true
       ∧ ((if true then 0 else 1), (7#3 : BitVec 3).toNat) ∉ s.pt.causeways ∧ ((if true then 0 else 1), (3#3 : BitVec 3).toNat) ∈ s.pt.causeways
       ∧ s.pt.chained = true ∧ s.pt.position ≠ 0 ∧ s.job.begins s.focus.tile = true ∧ s.bridgeBeat s.focus.tile = true
       ∧ (wWide 11 []).bridgeBeat 11 = false ∧ 4096 ≤ 4096 ∧ s.job.begins (causewayNode 0 3) = true)
      ∧ wRegs.pt.chained = false := by decide +kernel

/-- A switch that has been in a stage for some tc. -/
def wLong (st : SwitchStage) (n : Nat) : State := (wTwo (wRes .shadow)).onPt fun p => { p with switch := some { stage := st, toId := some 1, since := n } }

theorem witness_StopsEnd :
    ((wEnding true).job.stop.isSome = true ∧ wRegs.job.stop = none)
      ∧ ((wEnding true).job.stop.map GangStop.fatal = some true ∧ (wEnding true).pt.cur = some 0
          ∧ SMap.get (wEnding true).pt.res 0 = some wJob ∧ (wEnding true).pt.allStopped = true ∧ (wEnding true).job.drained true = true
          ∧ (wEnding false).pt.allStopped = false)
      ∧ ((wRegs.onJob fun j => { j with nodes := [(4, { (default : Node) with cont := 2 ^ 24 })] }).job.hung = some 4 ∧ wRegs.job.hung = none
          ∧ wRegs.pt.switch = none)
      ∧ ((wLong .drain (2 ^ 20 + 1)).pt.switch = some { stage := .drain, toId := some 1, since := 2 ^ 20 + 1 }
          ∧ (wLong .drain (2 ^ 20 + 1)).job.ending = false ∧ (wLong .drain (2 ^ 20 + 1)).pt.cur.isSome = true ∧ (wLong .drain (2 ^ 20 + 1)).pt.current.isSome = true)
      ∧ (wEnding true).job.ending = true ∧ (wEnding true).pt.switch = some { stage := .stop, toId := some 1, since := 5 }
      ∧ (wLong .swap 16385).job.ending = false ∧ (wLong .swap 16385).pt.switch = some { stage := .swap, toId := some 1, since := 16385 }
      ∧ (wLong .swap 16384).pt.switch = some { stage := .swap, toId := some 1, since := 16384 } := by decide +kernel

/-- The base with no context running. -/
def wFree : State := wFull.onCr fun c => { c with running := none }

theorem witness_ContextSwitching :
    (wFree.cr.running = none ∧ wFree.cr.preempted = false ∧ wFree.cr.stopped = false ∧ wFree.cr.pick = some 1)
      ∧ ((wRegs.onCr fun c => { c with running := none, ctxs := [] }).cr.pick = none)
      ∧ (wRegs.cr.running = some 0 ∧ wRegs.cr.count < 256 ∧ 256 ≤ (wRegs.onCr fun c => { c with count := 256 }).cr.count
          ∧ (wRegs.cr.ctx 0).state = .running)
      ∧ (let s := wRegs.onCr fun c => { c with preempted := true, save := some (0, wRegs.cx) }
         s.cr.preempted = true ∧ s.cr.save = some (0, wRegs.cx) ∧ (s.cr.ctx 0).wait = .none ∧ s.hm.serving = false)
      ∧ (let s := wRegs.onHm fun h => { h with serving := true }
         s.hm.serving = true ∧ s.focus.core % 8 = 0) := by decide +kernel

/-- The base with its context waiting for line 1, with or without an entry of the instruction TLB that may be executed. -/
def wFetch (l : List TlbEnt) : State :=
  (wRegs.onPt fun p => { p with tlbs := [(0, l), (1, wTlb)] }).onCx fun c => { c with state := .parked, wait := .line 1 }
/-- An entry of the image's page. -/
def wIEnt (leaf : Word) : TlbEnt := { page := 0x40, large := false, slot := 0, leaf := leaf }
/-- The leaf without X. -/
def wNoX : Word := wLeaf 0x40000 &&& ~~~0x0800000000000000#64

set_option maxRecDepth 4000 in
theorem witness_FillsAndWalks :
    ((wFetch []).cx.wait = .line 1 ∧ (wFetch []).pt.current = some wJob ∧ (wFetch []).cr.stopped = false ∧ (wFetch []).cx.state ≠ .halted
        ∧ ((wFetch []).onCr fun c => { c with stopped := true }).cr.stopped = true)
      ∧ ((wFetch [wIEnt (wLeaf 0x40000)]).range .fetch (wJob.image + 64 * 1) 64 = .ok 0x40040 0 false (wFetch [wIEnt (wLeaf 0x40000)])
          ∧ (wFetch [wIEnt (wLeaf 0x40000)]).pt.poisoned ((wFetch []).pt.home 0x40040) = false)
      ∧ (wFetch []).range .fetch (wJob.image + 64 * 1) 64 = .trans 0#8
      ∧ (wFetch [wIEnt wNoX]).range .fetch (wJob.image + 64 * 1) 64 = .perm 5#8
      ∧ ((wMap wRegs).walkHeld (0x20008#56 : BitVec 56).toNat).1 = .leaf 0x16010 (wLeaf 0x20000)
      ∧ (wRegs.walkHeld (0#56 : BitVec 56).toNat).1 = .trans 0#8 ∧ (wMap wRegs).plainBytes 0x16010 8
      ∧ leafMarked true 0x8000000000020000#64 ≠ 0x8000000000020000#64 :=
  ⟨by decide +kernel, ⟨rfl, by decide +kernel⟩, trans_of _ _ _ _ _ rfl rfl (by decide +kernel), rfl,
    by rw [walk_of _ _ rfl]; decide +kernel, by rw [walk_of _ _ rfl]; decide +kernel,
    plain_of _ _ _ (by decide +kernel) (by decide +kernel), by decide +kernel⟩

/-- The base with context 0 waiting in TLBI for the TLBs that are not named, TLB 1 in focus. -/
def wTlbi (acked : List Nat) (sq : List SqEnt) : State :=
  ({ wRegs with focus := { wRegs.focus with tile := 1 } } : State).onCr fun c =>
    { c with sq := sq, ctxs := [(0, { (default : Ctx) with state := .parked, wait := .pend (.tlbi .page 0x10000 0x20000 acked) })] }
/-- All other TLBs. -/
def wOthers : List Nat := 0 :: (List.range 100).map fun n => n + 2

theorem witness_AcknowledgesAndReturns :
    ((wTlbi wOthers []).cx.wait = .pend (.tlbi .page 0x10000 0x20000 wOthers) ∧ (wTlbi wOthers []).focus.tile < (wTlbi wOthers []).pt.tlbCount
        ∧ (wTlbi wOthers []).focus.tile ∉ wOthers ∧ (wTlbi wOthers []).pt.tlbBusy 1 0x10000 0x20000 = false
        ∧ wOthers.length + 1 = (wTlbi wOthers []).pt.tlbCount ∧ ([] : List Nat).length + 1 ≠ (wTlbi [] []).pt.tlbCount)
      ∧ (wTlbi [] [{ (default : SqEnt) with acc := { (default : Acc) with va := 0x10008, len := 8 } }]).pt.tlbBusy 1 0x10000 0x20000 = true
      ∧ (wBase.onJob fun j => { j with cores := [] }).pt.quiet = true ∧ wRegs.pt.quiet = false := by decide +kernel

/-- The base with a hint ring. -/
def wAdvised : State :=
  wHost.onPt fun p => { p with res := [(0, some { wJob with place := { wJob.place with advring := 0x20000 } })] }
/-- The base with a trace that samples every 1,024 dc, next at a dc. -/
def wTraced (next : Nat) : State := wRegs.onJob fun j => { j with tb := 5, trace := { (default : Trace) with on := true, period := 1, next := next } }

theorem witness_BackgroundWork :
    (wHost.pt.cur.isSome = true ∧ wHost.pt.place.advring = 0 ∧ (wDet wAdvised).pt.det = true)
      ∧ (wAdvised.pt.det = false ∧ wAdvised.pt.place.advring ≠ 0 ∧ wAdvised.job.pages = [])
      ∧ (2 ^ 24 * 256 - 1 < 2 ^ 34 ∧ wRegs.pt.il.getLsbD ((2 ^ 24 * 256 - 1) / 2 ^ 24 / 64) = true)
      ∧ (let s := wTraced 11
         s.job.trace.on = true ∧ s.pt.cur.isSome = true ∧ s.job.trace.period ≠ 0 ∧ s.job.dc < s.job.trace.next)
      ∧ (wTraced 10).job.trace.next ≤ (wTraced 10).job.dc ∧ (wTraced 10).job.trace.csel = 0#16 := by decide +kernel
theorem witness_CoresBetweenIssues : wRegs.pt.quiet = false ∧ (wFetch []).cx.wait = .line 1 := by decide +kernel

/-- The base with upcalls enabled and a copy fault held. -/
def wUpcall : State := wRegs.onCx fun c => { c with upen := true, held := [{ (default : HeldFault) with f1 := 5#64 }] }

theorem witness_Deliveries :
    (wRegs.isRunning = true ∧ preciseCause 0x0C#8 = true ∧ wFree.isRunning = false)
      ∧ (wUpcall.isRunning = true ∧ wUpcall.cx.upcalls = true ∧ wUpcall.walkVa (ptrAddr 0#64) = .trans 0#8
          ∧ wUpcall.cx.held = [{ (default : HeldFault) with f1 := 5#64 }])
      ∧ (wUpcall.cx.atBoundary = true ∧ wUpcall.cx.inHandler = false ∧ wUpcall.cr.stopped = false ∧ wUpcall.cr.preempted = false ∧ wRegs.cx.held = []) := by decide +kernel

/-- The base with a fault record of context 0 at the service context, answered or not. -/
def wSvc (upcall sent : Bool) : State :=
  (wRegs.onHm fun h =>
    { h with svc := [{ tag := 5#16, core := 0, ctx := 0, va := 0x90000#64, detail := 3#8, upcall := upcall, done := sent, sent := sent }] }).onCx fun c =>
      { c with state := .parked, wait := .service 5#16 }

/-- The notice that answers it, on its way. -/
def wTell : Msg := { src := svcPeer, dst := 0, kind := 4#4, seq := 0#32, lo := 5#64, hi := 0#64, returned := false }

theorem witness_DeliveriesAndService :
    (((wSvc false false).hm.svc.find? fun x => !x.done).isSome = true ∧ (wSvc false false).hm.serving = false
        ∧ ((wSvc false false).coreAt (wSvc false false).svcCore).preempted = false ∧ (default : SvcOutcome).corrected = false
        ∧ ((wSvc false false).onHm fun h => { h with serving := true }).hm.serving = true
        ∧ ({ (default : SvcOutcome) with corrected := true } : SvcOutcome).tlbi = []
        ∧ (((wSvc false false).noticeSent 0 5#64 0#64).hm.svc.all fun x => x.done) = true
        ∧ (((wSvc false false).noticeSent 0 6#64 0#64).hm.svc.all fun x => x.done) = false)
      ∧ (let s := (wSvc false true).onJob fun j => { j with msgs := [wTell] }
         s.job.msgs = [wTell] ∧ wTell.kind = 4#4 ∧ wTell.lo.extractLsb' 0 16 = 5#16 ∧ wTell.returned = false ∧ wTell.dst ≠ 0xFFE
           ∧ (s.ctxAt 0 0).wait = .service 5#16 ∧ (s.coreAt 0).stopped = false ∧ (s.ctxAt 0 0).state ≠ .halted
           ∧ ((s.onCr fun c => { c with stopped := true }).coreAt 0).stopped = true)
      ∧ ((wSvc true true).onCx fun c => { c with state := .upcall, wait := .none }).cx.wait ≠ .service 5#16
      ∧ (let s := wRegs.onCx fun c => { c with state := .free }
         (s.ctxAt 0 0).wait ≠ .service 5#16 ∧ (s.ctxAt 0 0).state = .free ∧ (s.ctxAt 0 0).ran = true) := by decide +kernel

/-! ### Boot, power, and steps -/

/-- A package in a stage of boot, with findings. -/
theorem witness_BootStages :
    (∀ n ∈ [0, 1, 2, 3, 4, 5, 6, 7], ({ State.reset with stage := n } : State).stage = n)
      ∧ (let f : BootFinding := { flit := true, signatureOk := true, version := 2, quarters := 3#4, stackOk := 0xFF#16 }
         f.signatureOk = true ∧ State.reset.fused ≤ f.version ∧ f.version < ({ State.reset with fused := 3 } : State).fused ∧ f.stackOk.extractLsb' 0 4 = 15#4 ∧ f.quarters.getLsbD 1 = true
           ∧ ∀ i : Nat, i < 4 → f.stackOk.getLsbD (4 * 1 + i) = true)
      ∧ ({ flit := false, signatureOk := false, version := 0, quarters := 0#4, stackOk := 7#16 } : BootFinding).stackOk.extractLsb' 0 4 ≠ 15#4 := by decide +kernel
theorem witness_ResetsAndPower : ({ State.reset with powered := false } : State).powered = false ∧ State.reset.agenda = [] := by decide

/-- An instruction of a context, and one of a timed chain with a delay. -/
theorem witness_RoundTrip :
    ((Instr.add 5#6 1#6 2#6).wf = true ∧ encode 0#8 (.add 5#6 1#6 2#6) = some 0x0000450420000000#64 ∧ engineOf 0x0000450420000000#64 = 0)
      ∧ ((Instr.vadd .fp32 vargs).wf = true ∧ (encode 255#8 (.vadd .fp32 vargs)).isSome = true
          ∧ (encode 255#8 (.vadd .fp32 vargs)).map engineOf = some 2) := by decide +kernel
theorem witness_EncodeOfDecode : decode 0x0000450420000000#64 = .ok ⟨0#8, .add 5#6 1#6 2#6⟩ := rfl

/-- The base whose line 1 holds ADD G5, G1, G2 and a word of an unassigned code, fetched, the issue of context 0 next. -/
def wIssue (slot : Nat) : State :=
  let l : Line := 0x7F00000002#512 ||| (0x0000450420000000#512 <<< 64) ||| (0x0017C00000000000#512 <<< 128)
  { ((wRegs.onCr fun c => { c with icache := [1] }).onCx fun c => { c with pc := pcOf 1 slot }).onPt fun p =>
      { p with res := [(0, some { wJob with code := [(1, l)] })] } with
    agenda := [.ctx 0 0 0] }
/-- That line. -/
def wCode : Line := ((wIssue 0).pt.line 1).getD 0#512

theorem witness_StepRunsInstruction :
    (∀ n ∈ [0, 1],
      let s := wIssue n
      s.powered = true ∧ s.agenda = [.ctx 0 0 0] ∧ s.coreRuns 0 = true ∧ s.cx.runnable = true ∧ s.cr.running = some 0 ∧ s.cx.sys = none
        ∧ s.cx.held = [] ∧ pcOk s.pt s.cx = true ∧ pcLine s.cx.pc ∈ s.cr.icache ∧ s.pt.line (pcLine s.cx.pc) = some wCode)
      ∧ (match decodeOn 0 (wCode.word 0) with | .ok x => some x | .error _ => none) = some ⟨0#8, .add 5#6 1#6 2#6⟩
      ∧ (match decodeOn 0 (wCode.word 1) with | .ok x => some x | .error _ => none) = none
      ∧ ({ wRegs with agenda := [.op wRegs.focus .coldReset] } : State).powered = true ∧ wRegs.agenda = [] := by decide +kernel

/-- Tile 0 with a REEVE chain due in the present cycle at a word of its own group. -/
def wChainDue : State :=
  { (wTl fun t => { t with chains := [(4, { line := 1, slot := 0, lc0 := 0#32, lc1 := 0#32, live := true, due := 200 })] }).onPt fun p =>
      { p with res := [(0, some { wJob with code := [(1, 0x7F00000002#512 ||| (0x04E0020400000006#512 <<< 64))] })] } with
    agenda := [.chain 0 0 .reeve] }

theorem witness_StepRunsTimedInstruction :
    let s := { wChainDue with focus := { wChainDue.focus with part := 0, tile := 0, eng := .reeve } }
    s.powered = true ∧ s.agenda = [.chain 0 0 .reeve] ∧ s.pt.cur.isSome = true ∧ (s.job.node 0).paused = false ∧ (s.job.node 0).stop = none
      ∧ s.chain.live = true ∧ s.chain.due = s.now
      ∧ (match decodeOn (engNum .reeve) (((s.pt.line s.chain.line).getD 0#512).word s.chain.slot) with | .ok x => some x | .error _ => none)
        = some ⟨4#8, .window .dflt 2#4 6#34⟩ := by decide +kernel
theorem witness_MachineNeverStops :
    State.reset.powered = true ∧ step { State.reset with powered := false } = .fault .poweredOff := ⟨rfl, rfl⟩
theorem witness_MemoryStaysCanonical : wRegs.memOk = true ∧ ∃ t : State, step wRegs = .next t := ⟨by decide +kernel, _, rfl⟩

/-! ### Further clauses: forms, boundary values, and the other side of a choice -/

theorem witness_NumbersOrdered :
    FRel.holds .lt (num32 0xBF800000#32) (num32 0#32) = true ∧ FRel.holds .gt (num32 0x7F800000#32) (num32 0xFF800000#32) = true
      ∧ num32 0x80000000#32 = .zero true ∧ num32 0#32 = .zero false ∧ num32 0x7FC00001#32 = .nan := by decide +kernel

/-- A typed pointer without an index register, and addresses out of range. -/
theorem witness_LoadForms_typed :
    (Fmt.ofCode (tagFmt 0x3800000000010010#64) = some .fp32 ∧ Fmt.fp32 ≠ .raw ∧ effAddr 0x3800000000010010#64 9#64 .x1 4#20 = some 0x1001D)
      ∧ Scale.x8 ≠ .x1 ∧ (tagFmt 0x38FFFFFFFFFFFFFF#64 ≠ 0#5 ∧ effAddr 0x38FFFFFFFFFFFFFF#64 0#64 .x1 1#20 = none)
      ∧ (tagFmt 0#64 = 0#5 ∧ effAddr 0#64 0#64 .x1 (-1#20) = none ∧ effAddr 0#64 (-1#64) .x8 0#20 = none) := by decide +kernel
theorem witness_TranslationFaults : wRegs.cx.sys = none ∧ wRegs.cx.upcalls = false ∧ wUpcall.cx.sys = none ∧ wUpcall.cx.upcalls = true := by
  decide +kernel

/-- An acquire at PARTITION scope of own local memory behind an own queued store to it. -/
theorem witness_LocalLoads_atHome :
    let s := (wG 0x10010#64 0#64).onCr fun c => { c with sq := [wEnt false wLocal], nextTicket := 1 }
    s.reads (Ctx.srcG2 1#6 0#6) (0x10010#64, 0#64) s ∧ s.range .load 0x10010 8 = .ok 0x10040000010 0 false s
      ∧ s.ownLocal wLocal = true ∧ s.loadMet wLocal = .none ∧ formLd 0x10010#64 0#64 true .x512 0#20 = .ok 0x10010 8 .zext
      ∧ atHome (acqScope .acq .partition) = true ∧ s.cr.homeWaits s.focus.ctx (s.accOf 0x10010 0x10040000010 0 8 0#5 false [] []) = true :=
  ⟨⟨_, rfl, rfl⟩, rfl, rfl, rfl, rfl, rfl, rfl⟩
theorem witness_RemoteLoads_typed :
    (let s := wG 0x3800000000020010#64 0#64
     s.reads (Ctx.srcG2 1#6 0#6) (0x3800000000020010#64, 0#64) s ∧ formLdf 0x3800000000020010#64 0#64 true .x1 0#20 = .ok 0x20010 4 (.fp32, none)
       ∧ s.range .load 0x20010 4 = .ok 0x20010 0 false s ∧ s.ownLocal (s.accOf 0x20010 0x20010 0 4 7#5 false [] []) = false
       ∧ ((List.range 4).all fun i => (s.cr.l1Byte (0x20010 + i)).isSome) = false)
    ∧ (let s := wG 0x20040#64 0#64
       s.reads (Ctx.srcG2 1#6 0#6) (0x20040#64, 0#64) s ∧ formLdd 0x20040#64 0#64 true .x1 0#20 = .ok 0x20040 64 ()
         ∧ s.range .load 0x20040 64 = .ok 0x20040 0 false s ∧ s.ownLocal (s.accOf 0x20040 0x20040 0 64 0#5 false [] []) = false
         ∧ ((List.range 64).all fun i => (s.cr.l1Byte (0x20040 + i)).isSome) = false)
    ∧ (let s := wG 0x3800000000020040#64 0#64
       s.reads (Ctx.srcG2 1#6 0#6) (0x3800000000020040#64, 0#64) s
         ∧ formLddf 0x3800000000020040#64 0#64 true .x1 0#20 = .ok 0x20040 64 (.fp32, List.replicate 16 none)
         ∧ s.range .load 0x20040 64 = .ok 0x20040 0 false s) :=
  ⟨⟨⟨_, rfl, rfl⟩, rfl, rfl, rfl, rfl⟩, ⟨⟨_, rfl, rfl⟩, rfl, rfl, rfl, rfl⟩, ⟨_, rfl, rfl⟩, rfl, rfl⟩

/-- Word 1 of the region of FP32 words under SUM with SCALE 0. -/
def wSumRegion : Word := 0xA700000002000010#64

/-- A store of 1.0, which the region takes, and one of a NaN, which it does not; and refusals on a core that a stop has reached. -/
theorem witness_RefusedStores_region :
    let a := { wInRegion 7#5 with data := [0#8, 0#8, 0x80#8, 0x3F#8] }
    let b := { wInRegion 7#5 with data := [0#8, 0#8, 0xC0#8, 0x7F#8] }
    let at_ := fun (x : Acc) => (wStepped 1).onCr fun c => { c with sq := [wEnt true x] }
    ((at_ a).cr.sq[0]? = some (wEnt true a) ∧ (at_ a).cr.blocked (wEnt true a) = false ∧ (at_ a).deferred a false = false
        ∧ (wEnt true a).ctx = (at_ a).focus.ctx ∧ (at_ a).storeMet a = .none ∧ (at_ a).whole a = true ∧ ((at_ a).elemPut a).isSome = true)
      ∧ ((at_ b).cr.stopped = false ∧ (at_ b).cr.blocked (wEnt true b) = false ∧ (at_ b).deferred b false = false
          ∧ (at_ b).storeMet b = .none ∧ (at_ b).whole b = true ∧ (at_ b).elemPut b = none)
      ∧ (let s := (at_ b).onCr fun c => { c with stopped := true }
         s.cr.stopped = true ∧ s.cr.blocked (wEnt true b) = false ∧ s.deferred b false = false ∧ s.storeMet b = .none ∧ s.whole b = true
           ∧ s.elemPut b = none) := by decide +kernel
theorem witness_SumStoresAdd :
    (let st := (wStepped 1).cr.stepped
     st.find 0x404 = some (0, wSumRegion) ∧ rgRule wSumRegion = 1 ∧ 0x404 = rgBase wSumRegion + 1 * rgWord wSumRegion
       ∧ 0x404 < rgBase wSumRegion + rgSize wSumRegion ∧ [0#8, 0#8, 0x80#8, 0x3F#8].length = rgWord wSumRegion
       ∧ sumValue wSumRegion (ofBytes [0#8, 0#8, 0x80#8, 0x3F#8]) = some 1 ∧ sumValue wSumRegion (ofBytes [0#8, 0#8, 0#8, 0x3F#8]) = none
       ∧ (BitVec.ofNat 64 (ofBytes (readMem [] (0 + sumAddr wSumRegion 1) 8))).toInt = 0)
      ∧ rgFmt 0x0400000000000000#64 = 4#5 ∧ rgFmt 0x0500000000000000#64 = 5#5 ∧ rgFmt wSumRegion = 7#5
      ∧ (match num32 ((0x3F800000#64 : Word).setWidth 32) with | .fin d => Num.eq (.fin d) (.fin { m := 1, e := rgScale wSumRegion }) | _ => false)
        = true
      ∧ num32 ((0#64 : Word).setWidth 32) = .zero false ∧ num32 ((0x7FC00000#64 : Word).setWidth 32) = .nan
      ∧ num32 ((0xFF800000#64 : Word).setWidth 32) = .inf true := by decide +kernel

/-- Atomics on a word of HBM, issued and pending. -/
theorem witness_RemoteAtomics :
    (let s := wG 0x2800000000020010#64 1#64
     let a := s.accOf 0x20010 0x20010 0 8 5#5 false [] []
     s.released s.focus.ctx .hamlet = true ∧ s.range .amo 0x20010 8 = .ok 0x20010 0 false s
       ∧ (s.flushFor .hamlet).range .amo 0x20010 8 = .ok 0x20010 0 false (s.flushFor .hamlet) ∧ s.ownLocal a = false
       ∧ s.reads (Ctx.srcG2 1#6 2#6) (0x2800000000020010#64, 1#64) s ∧ s.reads (Ctx.srcG3 1#6 2#6 3#6) (0x2800000000020010#64, 1#64, 5#64) s
       ∧ formAmo (AmoOp.float .swap) (AmoOp.swap == .swap) 0x2800000000020010#64 0#16 = .ok 0x20010 8 .int64
       ∧ formAmo false true 0x2800000000020010#64 0#16 = .ok 0x20010 8 .int64)
    ∧ (let s := (wQueued false wLocal)
       s.cr.blocked (s.cr.lastEntry s.focus.ctx wLocal) = true)
    ∧ (let s := wPend (.amo wRemote .add 1#64 5#6 .acqrel .partition)
       s.focus.ctx < 16 ∧ s.cx.state ≠ .free ∧ s.cx.state ≠ .swapped ∧ s.cx.wait = .pend (.amo wRemote .add 1#64 5#6 .acqrel .partition)
         ∧ s.cx.state = .parked ∧ s.storeMet wRemote = .none ∧ s.deferred wRemote false = false)
    ∧ (wPend (.cas wRemote 1#64 2#64 5#6 .acqrel .partition)).cx.wait = .pend (.cas wRemote 1#64 2#64 5#6 .acqrel .partition) :=
  ⟨⟨rfl, rfl, rfl, rfl, ⟨_, rfl, rfl⟩, ⟨_, rfl, rfl⟩, rfl, rfl⟩, by decide +kernel, by decide +kernel, rfl⟩

set_option maxRecDepth 4000 in
/-- A prefetch whose walk finds a leaf, and one whose walk finds none. -/
theorem witness_Prefetch :
    formSweep 0x20010#64 0#64 true .x1 0#20 = some 0x20010 ∧ ((wMap wRegs).walkHeld 0x20010).1 = .leaf 0x16010 (wLeaf 0x20000)
      ∧ (wMap wRegs).plainBytes 0x16010 8 ∧ (∀ i : Nat, i < 8 → (wMap wRegs).pt.home 0x20010 ≠ (wMap wRegs).pt.home (0x16010 + i))
      ∧ (wMap wRegs).regionFits (.loc 0 0) ∧ formSweep 0#64 0#64 true .x1 0#20 = some 0 ∧ (wRegs.walkHeld 0).1 = .trans 0#8 :=
  ⟨rfl, by rw [walk_of _ _ rfl]; decide +kernel, plain_of _ _ _ (by decide +kernel) (by decide +kernel), by decide +kernel, trivial, rfl,
    by rw [walk_of _ _ rfl]; decide +kernel⟩

/-- A ring step whose record faults on a core that no stop has reached, one that writes a record in HBM, and one that looks again. -/
theorem witness_RingSteps_written :
    (let s := wRingPend (.radv 2#64)
     s.deferred wRingAcc false = false ∧ wRingAcc.got = [] ∧ s.pt.poisoned (s.pt.home wRingAcc.pa) = false ∧ s.cr.stopped = false)
    ∧ (let a := { wRingAcc with got := [(0, 1#8)] }
       let s := wRinged.park (.pend (.ring (.rwait 3#64) 0#4 5#6 a))
       s.focus.ctx < 11 ∧ s.job.debug = none ∧ s.cx.state = .parked ∧ s.cx.wait = .pend (.ring (.rwait 3#64) 0#4 5#6 a)
         ∧ s.cr.blocked (s.cr.lastEntry s.focus.ctx a) = false ∧ s.deferred a false = false ∧ a.got ≠ [] ∧ s.cr.stopped = false
         ∧ (s.onCr fun c => { c with stopped := true }).cr.stopped = true) := by decide +kernel
set_option maxRecDepth 4000 in
theorem witness_RingSteps_again :
    let s := wRinged.park (.pend (.ring (.rwait 3#64) 0#4 5#6 { wRingAcc with got := [(0, 1#8)] }))
    s.range (if (RingStep.rwait 3#64).reads then .load else .store) wRingAcc.va 64 = .ok 0x20000 0 false s
      ∧ wRinged.plainBytes wRingAcc.pa 64 := ⟨rfl, plain_of _ _ _ (by decide +kernel) (by decide +kernel)⟩

/-- The completion of a copy whose issuer's mailbox has room. -/
theorem witness_CopyCompletes :
    let o : CopyOp := { wCopy with next := 2 }
    let s := wCopying o
    SMap.get s.hm.ops (0#4 : BitVec 4).toNat = some o ∧ o.beyond = true ∧ o.core = 0 ∧ (s.coreAt o.core).mbox.length < 128
      ∧ (s.coreAt o.core).spill = [] ∧ (s.coreAt o.core).netif = [] ∧ (s.coreAt o.core).stopped = false := by decide +kernel
theorem witness_CopyCompletes_takes : (wCopying { wCopy with next := 2 }).cr.takesServed := takes_of _ (by decide +kernel)

/-- A group whose STEP is issued again, before and after its completion, and where a debug stop falls at it. -/
theorem witness_StepArrives_again :
    (let s := (wGroup { wGrp with tiles := [] }).onCx fun c => { c with arrivals := [(2, 6)] }
     s.me ∈ (s.job.group 2).ctxs ∧ s.job.stopDue 2 = none)
    ∧ (let s := (wGroup { wGrp with tiles := [] }).onCx fun c => { c with arrivals := [(2, 7)] }
       (s.cx.arrivals.find? fun a => a.1 == 2) = some (2, 7) ∧ (s.job.group 2).count < 7)
    ∧ (let s := (wGroup wGrp).onCx fun c => { c with arrivals := [(2, 6)] }
       (s.cx.arrivals.find? fun a => a.1 == 2) = some (2, 6) ∧ s.job.stepReached 2 = false)
    ∧ (let s := (wGroup { wGrp with tiles := [] }).onJob fun j => { j with debug := some { wAgent with due := [(2, 0, 6)] } }
       (s.job.stopDue 2).isSome = true)
    ∧ (let g := { wGrp with arrTiles := [2], arrCtxs := [0] }
       ∀ x ∈ (wGroup g).job.tiles, x.1 ∈ g.tiles) := by decide +kernel

/-- A region with one word stored in the step, of each rule, and one bound to the group. -/
theorem witness_StepPublishes :
    let e := 0xC700000002000010#64
    let c : Contrib := { reg := 0, word := 1, writer := 5, prio := 0#2, val := 3#64, mask := 15#8, old := 0#64 }
    let st := { (wStepped 2).cr.stepped with contribs := [c] }
    (st.find 0x404 = some (0, e) ∧ 0x404 < rgBase e + rgSize e ∧ rgRule e ≠ 1 ∧ c ∈ st.contribs ∧ c.reg = 0 ∧ c.word = (0x404 - rgBase e) / rgWord e
        ∧ st.find 0x400 = some (0, e) ∧ ∀ x ∈ st.contribs, ¬(x.reg = 0 ∧ x.word = (0x400 - rgBase e) / rgWord e))
      ∧ (rgRule wSumRegion = 1 ∧ (∀ x ∈ [c], x.reg = 0 → x.word * rgWord wSumRegion < rgSize wSumRegion) ∧ 0 < rgSize wSumRegion
          ∧ ∀ x ∈ [c], ¬(x.reg = 0 ∧ x.word = 0 / rgWord wSumRegion))
      ∧ ((wStepped 2).coreAt 0).stepped.bound 0 = [(0, e)]
      ∧ ((wRegs.onTl fun t => { t with stepped := (wStepped 2).cr.stepped }).tileAt 0).stepped.bound 0 = [(0, e)] := by decide +kernel

/-- SYSW of a word of another place, performed after its yield; a step record of a tile that the launch names; the steward. -/
theorem witness_ControlWords_performed :
    (let s := wPend (.sysw 5#64 0x021#12 0)
     s.focus.ctx < 11 ∧ s.cx.wait = .pend (.sysw 5#64 0x021#12 0)
       ∧ (match exec (.accessPerformed s.focus.ctx) s with | .next t => t.pt.segs == s.pt.segs | _ => false) = true)
    ∧ ((wOwned 0x400#12).tileAt 2).named = true
    ∧ (let s := { wRegs with focus := { wRegs.focus with ctx := stewardCtx } }
       s.isSteward = true ∧ (3#64 : Word).toNat < s.pt.tileCount) := by decide +kernel

/-- A write burst performed in its cycle in a job that goes on, and after a stop that ends the launch. -/
theorem witness_StaticBursts_clock :
    (let b := wBurst .st 136 true false
     let s := (wBursts b).onPt fun p => { p with switch := some { stage := .drain, toId := some 1, since := 5 } }
     b.slot + 64 ≤ s.burstClock b ∧ s.pt.goesOn = true)
    ∧ (let b := wBurst .st 136 true false
       let s := (wBursts b).onJob fun j =>
         { j with stop := some { origin := .steward, cause := 0x18#8, detail := 0#8, cause2 := 0#8, aux := 0#64, tb := 1 } }
       b.slot + 64 ≤ s.burstClock b) := by decide +kernel
theorem witness_HostPort_lower :
    (0#64 : Word).toNat ≤ wHost.pt.cseq.toNat ∧ (0#64 : Word).toNat < wHost.pt.hseen.toNat := by decide +kernel

/-- A user queue with a packet pending past the limit of a QUIESCE, and queues that have become idle by then. -/
theorem witness_QuiesceLimits_busy :
    (let s := (wHead wHost (wSignal 0)).onPt fun p => { p with quiesce := some (wLimit false) }
     s.pt.quiesce = some (wLimit false) ∧ (wLimit false).limit ≤ s.clock ∧ (wLimit false).aborting = false ∧ (wLimit false).force = false
       ∧ s.pt.userBusy = true)
    ∧ (let s := (wHead wIdle (wSignal 0)).onPt fun p => { p with quiesce := some (wLimit true), quiesced := false }
       s.pt.quiesce = some (wLimit true) ∧ (wLimit true).limit ≤ s.clock ∧ (wLimit true).aborting = false ∧ (wLimit true).force = true
         ∧ s.pt.userBusy = true ∧ s.pt.cur = none)
    ∧ (let s := wIdle.onPt fun p => { p with quiesce := some (wLimit true), quiesced := false }
       s.pt.quiesce = some (wLimit true) ∧ (wLimit true).limit ≤ s.clock ∧ (wLimit true).aborting = false ∧ s.pt.userBusy = false) := by
  decide +kernel

/-- RELEASE of a stop in the gang form and of one that is not. -/
theorem witness_DebugControl_release :
    (let k := wDbg 6 []
     (wHead wStopped k).packetIs 4 k [] 3 6 ∧ (wHead wStopped k).targets 4 0 wJob
       ∧ (wHead wStopped k).attachedAs 4 { wAgent with gang := true, inForce := true } ∧ k.zero 16 64 = true
       ∧ (wHead wStopped k).job.ending = false)
    ∧ wAgent.gang = false :=
  ⟨⟨head_of _ _ _ _ (by decide +kernel), ⟨by decide +kernel, by decide +kernel, Or.inl rfl⟩, ⟨by decide +kernel, rfl⟩, by decide +kernel⟩, rfl⟩

/-- A buffer of the agent that lies in the Mere of a tile that is paused, and one in HBM. -/
theorem witness_DebugData_waits :
    (wMap wStopped).agentWaits 0x20000 64 = false
      ∧ (let s := ((wMap wStopped).paPuts false 0x16018 (toBytes 8 (wLeaf 0x10000000000).toNat)).onJob fun j =>
           { j with nodes := [(0, { (default : Node) with paused := true })] }
         s.agentWaits 0x30000 1 = true) := by decide +kernel

/-- Data blocks of the Mere, the Loft and local memory, and bytes at the ends of the shares. -/
theorem witness_LaunchLoads_blocks :
    (let b := fun (kind addr : Nat) => ({ line := 4, kind := kind, frm := 1, toId := 3, addr := addr, len := 64, bytes := zeros 64 } : Block)
     (b 0 0).frm ≤ 3 ∧ 3 ≤ (b 0 0).toId ∧ (b 0 (2 ^ 21 - 64)).addr + (b 0 0).bytes.length ≤ 2 ^ 21 ∧ (b 0 0).kind = 0
       ∧ (b 1 (2 ^ 22 - 64)).addr + (b 1 0).bytes.length ≤ 2 ^ 22 ∧ (b 1 0).kind = 1
       ∧ (b 2 (2 ^ 18 - 64)).addr + (b 2 0).bytes.length ≤ 2 ^ 18 ∧ (b 2 0).kind = 2)
    ∧ (let x := wJob.place
       (32 * 65536 - 1 < 2 ^ 21 ∧ x.mbase * 65536 ≤ 32 * 65536 - 1 ∧ 32 * 65536 - 1 < (x.mbase + x.mlen) * 65536)
         ∧ (0 < 2 ^ 17 ∧ x.fbase * 65536 ≤ 0 ∧ 0 < (x.fbase + x.flen) * 65536)
         ∧ (4 * 65536 - 1 < 2 ^ 18 ∧ x.lbase * 65536 ≤ 4 * 65536 - 1 ∧ 4 * 65536 - 1 < (x.lbase + x.llen) * 65536)) := by decide

/-- A core that a chain of the launch names, and one that none does. -/
theorem witness_LaunchEpochs_cores :
    let e : ChainEntry := { eng := 0, first := 1, lc0 := 0#32, lc1 := 0#32, frm := 0, toId := 3 }
    let r := { wRes .ready with chains := [e] }
    let s := wHost.onPt fun p => { p with cur := none, chain := 0#7, res := [(0, some r)] }
    s.pt.cur = none ∧ s.pt.nextReady = some 0 ∧ SMap.get s.pt.res 0 = some r ∧ s.pt.switch = none ∧ s.pt.ckpt = none ∧ s.pt.aborting = false
      ∧ s.pt.chained = false ∧ 3 < s.pt.coreCount ∧ r.useArg = false
      ∧ (r.chains.find? fun e => e.eng == 0 && decide (e.frm ≤ 3) && decide (3 ≤ e.toId)) = some e
      ∧ (r.chains.find? fun e => e.eng == 0 && decide (e.frm ≤ 4) && decide (4 ≤ e.toId)) = none := by decide +kernel

/-- A job that is quiet, and one whose context has been woken since. -/
theorem witness_BellEndsLaunch_quiet :
    (let s := (wQuietJob (some 2000)).onJob fun j => { j with cores := [] }
     s.pt.cur = some 0 ∧ SMap.get s.pt.res 0 = some wJob ∧ s.pt.switch = none ∧ s.job.stop = none ∧ s.job.dc % 2048 = 0
       ∧ s.job.quietFrom = some 2000 ∧ s.job.sweep = some (s.job.sums.1, s.job.sums.1, 2048) ∧ s.job.sums.2 = s.job.sums.1 ∧ s.pt.quiet = true)
    ∧ (wQuietJob (some 2000)).pt.quiet = false := by decide +kernel

/-- Quanta used and not used, with a debug stop in force and without. -/
theorem witness_JobsChange_quanta :
    (wTwo { wRes .ready with prio := 1 }).job.debugStopped = false
    ∧ (let c := { wJob with quota := 65536, used := 65536 }
       let s := (wTwo (wRes .shadow)).onPt fun p => { p with res := [(0, some c), (1, some (wRes .shadow))] }
       s.pt.cur = some 0 ∧ SMap.get s.pt.res 0 = some c ∧ SMap.get s.pt.res (1 - 0) = some (wRes .shadow) ∧ s.pt.switch = none ∧ s.pt.ckpt = none
         ∧ s.job.stop = none ∧ c.prio ≤ (wRes .shadow).prio ∧ c.quota ≠ 0 ∧ c.quota ≤ c.used)
    ∧ (let s := (wTwo { wRes .ready with prio := 1 }).onJob fun j => { j with debug := some { wAgent with inForce := true } }
       s.job.debugStopped = true ∧ (wJob.quota = 0 ∨ wJob.used < wJob.quota)) := by decide +kernel

/-- A core at a boundary, and one amid an access that keeps it. -/
theorem witness_PreemptionBoundary :
    wRegs.cr.preempted = false ∧ wRegs.cr.atBoundary = true
      ∧ (let s := wRegs.onCx fun c => { c with wait := .pend (.load wRemote .zext false 5#6 none) }
         s.cr.preempted = false ∧ s.cr.running = some 0 ∧ s.cr.atBoundary = false) := by decide +kernel

/-- A walk of a core of the partition with no TLBI under way, one that a TLBI in progress concerns, and an entry that one hits. -/
theorem witness_WalksAndTlbis :
    (wRegs.focus.core < wRegs.pt.coreCount ∧ wRegs.job.tlbiOver 0x20008 = false)
      ∧ (wTlbi [] []).job.tlbiOver 0x20008 = true
      ∧ (∃ e ∈ wRegs.pt.tlb 1, e.hit 0x10000 0x20000 = true) ∧ (∃ e ∈ wRegs.pt.tlb 1, e.hit 0x10000 0x10000 = false)
      ∧ ({ (default : HeldFault) with f1 := 5#64 } : HeldFault).detail.extractLsb' 0 6 ≠ 0x11#6 := by decide +kernel

/-- The service context finds core 0 at a boundary, or not. -/
theorem witness_ServicePath_boundary :
    (let s := (wSvc false false).onCr fun c => { c with running := none }
     (s.hm.svc.find? fun x => !x.done).isSome = true ∧ s.hm.serving = false ∧ (s.coreAt s.svcCore).preempted = false
       ∧ (s.coreAt s.svcCore).atBoundary = true)
      ∧ (let s := (wSvc false false).onCr fun c =>
           { c with running := some 1, ctxs := c.ctxs ++ [(1, { (default : Ctx) with state := .running, wait := .pend (.load wRemote .zext false 5#6 none) })] }
         (s.hm.svc.find? fun x => !x.done).isSome = true ∧ s.hm.serving = false ∧ (s.coreAt s.svcCore).atBoundary = false) := by decide +kernel
theorem witness_Training :
    let s := { wHost with agenda := [.train true] }
    s.powered = true ∧ s.agenda = .train true :: [] ∧ 1 < s.stage := by decide +kernel

/-- A refused store of a context that a debug stop holds, and a context in its turn and out of it. -/
theorem witness_RefusedStores_halted :
    (let a := wRegs.accOf 0x30000 0x10000000000 0 4 0#5 false [1#8, 2#8, 3#8, 4#8] []
     let s := (wQueued true a).onCx fun c => { c with state := .halted }
     s.cr.sq[0]? = some (wEnt true a) ∧ s.cr.blocked (wEnt true a) = false ∧ s.deferred a false = false ∧ (wEnt true a).ctx = s.focus.ctx
       ∧ s.storeMet a = .window ∧ s.cx.state = .halted ∧ wRegs.cx.state ≠ .halted)
    ∧ wRegs.cr.running = some wRegs.focus.ctx ∧ wFree.cr.running ≠ some wFree.focus.ctx := by decide +kernel

/-- START in deterministic mode of a helper that is free, and of one that is not; WAITM there. -/
theorem witness_BranchesAndContexts_det :
    (let s := wDet (wG 1#64 9#64)
     s.pt.det = true ∧ s.reads (Ctx.srcG2 1#6 2#6) (1#64, 9#64) s ∧ 1 ≤ (1#64 : Word).toNat ∧ (1#64 : Word).toNat ≤ 10
       ∧ (s.cr.ctx (1#64 : Word).toNat).state = .free ∧ (1#64 : Word).toNat ≠ s.focus.ctx ∧ s.hm.pendq = [])
    ∧ (let s := wDet (wFull.onCx fun c => { c with g := [(1, 10#64), (2, 9#64)] })
       s.pt.det = true ∧ s.reads (Ctx.srcG2 1#6 2#6) (10#64, 9#64) s ∧ (10#64 : Word).toNat ≤ 10
         ∧ (s.cr.ctx (10#64 : Word).toNat).state ≠ .free)
    ∧ (wDet wMail).pt.det = true :=
  ⟨⟨rfl, ⟨_, rfl, rfl⟩, by decide +kernel⟩, ⟨rfl, ⟨_, rfl, rfl⟩, by decide +kernel⟩, rfl⟩

/-- Answers to a suspended operation on an indexed side, to another context's, and to one that is not suspended. -/
theorem witness_Copies_answers :
    (let o := { wCopy with susp := some wHeld }
     wHeld.detail.getLsbD 6 = false ∧ o.slay = .affine { elem := 8, cnt := [2], str := [8] }
       ∧ ({ elem := 8, cnt := [2], str := [8] } : Affine).cnt.head? = some 2)
    ∧ (let o := { wCopy with susp := some wHeld, slay := .indexed 8 2 8 }
       SMap.get (wCopying o).hm.ops 0 = some o ∧ ∀ p : Affine, o.slay ≠ .affine p)
    ∧ (let o := { wCopy with susp := some wHeld, ctx := 1 }
       SMap.get (wCopying o).hm.ops 0 = some o ∧ o.ctx ≠ (wCopying o).focus.ctx)
    ∧ (SMap.get (wCopying wCopy).hm.ops 0 = some wCopy ∧ wCopy.susp = none) := by
  refine ⟨by decide +kernel, ⟨by decide +kernel, fun p h => by cases h⟩, by decide +kernel, by decide +kernel⟩

/-- A step with nothing colliding, one that a collision of its own has stopped, and a tile whose next planes collide. -/
theorem witness_StepGroups_collisions :
    ((wTstep 0).tileCollisions 2 2 = [] ∧ (wTstep 0).stepBlocked 2 = false ∧ (wTstep 0).job.debug = none)
    ∧ (let c := fun (w : Nat) => ({ reg := 0, word := 0, writer := w, prio := 0#2, val := 3#64, mask := 15#8, old := 0#64 } : Contrib)
       let st : Stepped := { (default : Stepped) with tab := [(0, 0xC700080002000010#64)], contribs := [c 5, c 6] }
       let s := (wTstep 0).onTileAt 2 fun t => { t with stepped := st }
       rgGroup 0xC700080002000010#64 = 2 ∧ s.tileCollisions 2 2 ≠ [] ∧ s.tl.tsteps = [{ g := 2, due := 0, need := 6 }] ∧ 0 ≤ s.now
         ∧ 6 ≤ (s.job.group 2).count
         ∧ (let u := s.onJob fun j =>
              { j with
                collisions := s.tileCollisions 2 2
                stop := some { origin := .tile 2, cause := 0x13#8, detail := 0#8, cause2 := 0#8, aux := 0#64, tb := 1 } }
            u.stepBlocked 2 = true)) := by decide +kernel

/-- Operand bytes of zeros, of which every element is the whole number 0, and a NaN among others; every format. -/
theorem witness_MillWorks_cell :
    (∀ f ∈ [Fmt.bf16, .e4m3, .e5m2, .t8, .fp4],
      let elem := fun (x : SMap (BitVec 256)) (row k : Nat) =>
        decodeNum f ((SMap.get x (fmtBits f * k / 256 * 32 + row)).toNat / 2 ^ (fmtBits f * k % 256) % 2 ^ fmtBits f)
      ∀ k ∈ [0, 4096 / fmtBits f - 1], elem [] 31 k ≠ .nan ∧ (elem [] 31 k).dy.same (.int 0) = true)
    ∧ (∀ neg : Bool, decodeNum .bf16 0 ≠ .inf neg) ∧ num32 0x3F800000#32 ≠ .nan ∧ (num32 0x3F800000#32).dy.same (.int 1) = true
    ∧ decodeNum .bf16 (((SMap.get [(480, 0x7FC0#256 <<< 240)] (16 * 255 / 256 * 32 + 0) : BitVec 256).toNat) / 2 ^ (16 * 255 % 256) % 2 ^ 16) = .nan
    ∧ wMill.c = .none ∧ wMill.fA = .bf16 ∧ wMill.fB = wMill.fA ∧ wMill.sweeps = 1 ∧ wMill.ovw = true
    ∧ (let s := wTile.onJob fun j => { j with nodes := [(0, { (default : Node) with stop := some (171, 0) })] }
       s.job.millBegins 0 wMill = false)
    ∧ (let d := { wDrain none with kept := [(3#1024, false)] }
       d.kept[0]? = some (3#1024, false) ∧ (wDrain none).kept = []) := by decide +kernel

/-- A cell of ones: 256 products of BF16 ones (03 R109) give 256.0. -/
theorem test_mill_cell :
    let ones : SMap (BitVec 256) := (List.range 16).map fun i => (32 * i, BitVec.ofNat 256 ((List.range 16).foldl (fun v k => v + 0x3F80 * 2 ^ (16 * k)) 0))
    ({ wMill with a := ones, b := ones } : MillRun).cell 0 0 0 0#32 = 0x43800000#32 := by decide +kernel

/-- Numbers with the significand and exponent that VRCP and VRSQ take, a negative one, and an argument of VEXP2 with its parts. -/
theorem witness_VectorLanes_functions :
    (num32 0x40400000#32 = .fin { m := 12582912, e := -22 }
      ∧ 0x3F800000 ≤ (0x3FC00000#32 : BitVec 32).toNat ∧ (0x3FC00000#32 : BitVec 32).toNat < 0x40000000
      ∧ ({ (num32 0x3FC00000#32).dy with e := (num32 0x3FC00000#32).dy.e + 1 } : Dy).same ({ m := 12582912, e := -22 } : Dy).abs = true)
    ∧ (num32 0x7FC00000#32 = .nan ∧ num32 0xFF800000#32 = .inf true ∧ num32 0xBF800000#32 = .fin { m := -8388608, e := -23 })
    ∧ (let v : Dy := { m := 12582912, e := -22 }
       (Dy.int 128).le v = false ∧ v.lt (.int (-150)) = false ∧ ({ m := 64 * 3 + 0, e := -6 } : Dy).le v = true
         ∧ v.lt { m := 64 * 3 + 0 + 1, e := -6 } = true)
    ∧ (Dy.int 128).le (num32 0x43000000#32).dy = true ∧ (num32 0xC3170000#32).dy.lt (.int (-150)) = true := by decide +kernel

/-- A job coming back with a node that a stop has met, and a context that waits for nothing. -/
theorem witness_JobsChange_saved :
    (let r := { wRes .shadow with saved := { (wRes .shadow).saved with nodes := [(0, { (default : Node) with h := 40, stop := some (9, 8) })] } }
     let s := (wSwitch .swap true).onPt fun p => { p with res := [(0, some wJob), (1, some r)] }
     SMap.get s.pt.res 1 = some r ∧ r.state = .shadow ∧ r.saved.debug = none ∧ 0 ∈ s.pt.nodes ∧ (r.saved.node 0).stop = some (9, 8)
       ∧ ((r.saved.core 0).ctx 0).wait = .none) ∧ ∀ m : Nat, ((wRes .shadow).saved.hamlet m).reqs = [] :=
  ⟨by decide +kernel, fun _ => rfl⟩

/-- A copy fault that a race gave, first of those held; a core that a stop has reached, with a record for the service context. -/
theorem witness_Deliveries_race :
    (let f := { (default : HeldFault) with detail := 0x51#8 }
     let s := wRegs.onCx fun c => { c with upen := true, held := [f] }
     s.isRunning = true ∧ s.cx.upcalls = true ∧ s.cx.held = [f] ∧ f.detail.extractLsb' 0 6 = 0x11#6 ∧ s.job.stop = none)
    ∧ (let s := (wSvc false false).onCr fun c => { c with stopped := true }
       (s.hm.svc.find? fun x => !x.done).isSome = true ∧ (s.coreAt s.svcCore).stopped = true) := by decide +kernel

/-- A LAUNCH in the next slot with a residency slot free, and with none. -/
theorem witness_PacketsAccepted_launch :
    (let s := ({ wSlot 2 with host := writeMem [] 0x1000 (toBytes 8 2 ++ toBytes 1 1) } : State)
     let x := s.pt.queue 0
     let k : Packet := { queue := 0, num := s.pt.aseq.toNat + 1, bytes := readMem s.host (x.base.toNat + 64 * (x.head % x.size.toNat)) 64 }
     s.ready = true ∧ x.size.toNat ∈ ringSizes ∧ x.gap = false ∧ x.head ≤ x.tail.toNat ∧ s.pt.quiesced = false ∧ s.pt.quiesce = none
       ∧ k.seq = x.nextSeq.toNat ∧ k.kind = 1 ∧ k.sub = 0 ∧ s.pt.ckpt = none ∧ s.pt.freeSlot.isSome = true ∧ x.pending = []
       ∧ (∀ r : Nat, r < 5 → ∀ y ∈ (s.pt.queue r).pending, y.kind ≠ 1)
       ∧ (∀ r : Nat, r < 5 → 0 < r → s.pt.headReady r = false ∧ s.unread r = false)
       ∧ (s.onPt fun p => { p with res := [(0, some wJob), (1, some wJob)] }).pt.freeSlot.isSome = false) := by decide +kernel

/-- FORCE past its limit with a current job, and with one READY and nothing accepted. -/
theorem witness_QuiesceLimits_force :
    (let s := wHost.onPt fun p => { p with quiesce := some (wLimit true) }
     s.pt.quiesce = some (wLimit true) ∧ (wLimit true).limit ≤ s.clock ∧ (wLimit true).aborting = false ∧ (wLimit true).force = true
       ∧ s.pt.userBusy = true ∧ s.pt.cur = some 0 ∧ s.job.stop = none)
    ∧ (let s := (wIdle.onPt fun p => { p with quiesce := some (wLimit true), quiesced := false, res := [(1, some (wRes .ready))] })
       s.pt.quiesce = some (wLimit true) ∧ s.pt.userBusy = true ∧ s.pt.cur = none ∧ SMap.get s.pt.res 1 = some (wRes .ready)
         ∧ SMap.get s.pt.res (1 - 1) = none ∧ (wRes .ready).saved.debug = none ∧ s.pt.ckpt = none ∧ s.pt.held = []
         ∧ ∀ i : Nat, i < 4 → (s.pt.queue i).pending = []) := by decide +kernel

/-- ARM of a DBGBRK id with room, and with 64 others armed. -/
theorem witness_DebugControl_brk :
    (let k := wDbg 3 [0, 1, 7, 0]
     (wHead (wOpen (some wAgent)) k).packetIs 4 k [] 3 3 ∧ (wHead (wOpen (some wAgent)) k).targets 4 0 wJob
       ∧ (wHead (wOpen (some wAgent)) k).attachedAs 4 wAgent ∧ armLayout k = true ∧ k.le 16 1 = 0)
    ∧ (let d := { wAgent with triggers := (List.range 64).map fun n => { (default : Trigger) with kind := 0, id := n + 8 } }
       let k := wDbg 3 [0, 1, 7, 0]
       (wHead (wOpen (some d)) k).packetIs 4 k [] 3 3 ∧ (wHead (wOpen (some d)) k).targets 4 0 wJob
         ∧ (wHead (wOpen (some d)) k).attachedAs 4 d
         ∧ 64 ≤ ((d.triggers.filter fun y => !(y.kind == k.le 16 1 && y.id == k.le 18 2)).filter fun y => y.kind == 0).length) :=
  ⟨⟨head_of _ _ _ _ (by decide +kernel), targets_of _ _ (by decide +kernel) (by decide +kernel), ⟨by decide +kernel, rfl⟩,
      by decide +kernel⟩,
    head_of _ _ _ _ (by decide +kernel), targets_of _ _ (by decide +kernel) (by decide +kernel), ⟨by decide +kernel, rfl⟩,
      by decide +kernel⟩

/-- Words of no instruction, one of each row of R69 and one with a delay; and a context whose program counter fails R58. -/
theorem witness_DecodeFaults :
    (∀ x ∈ [(0x0080000000000000#64, 4, 0), (0x0018000000000000#64, 0, 96), (0x000B000000000000#64, 0, 44)],
      ((x.1.extractLsb' 46 10).toNat / 128, (x.1.extractLsb' 46 10).toNat % 128) = (x.2.1, x.2.2))
    ∧ ((0x00224000000C0000#64 : Word).extractLsb' 46 10 = 0x089#10 ∧ 24 ≤ ((0x00224000000C0000#64 : Word).extractLsb' 15 5).toNat)
    ∧ (0x0100450420000000#64 : Word).extractLsb' 56 8 ≠ 0#8
    ∧ (let s := (wIssue 0).onCx fun c => { c with pcBad := true }
       pcOk s.pt s.cx = false ∧ s.agenda = [.ctx 0 0 0] ∧ s.coreRuns 0 = true) := by decide +kernel

/-- The base with a hint ring of four slots at 0x20000 for producer 31, FREE at 0x20800, and one page of 64 KiB that quarter `q` has
counted. -/
def wAdvise (q : Nat) (x : PageStat) (f : Place → Place) : State :=
  let ring := toBytes 8 0x20100 ++ toBytes 4 4 ++ toBytes 2 64 ++ zeros 2 ++ toBytes 4 (2 ^ 31) ++ zeros 44
  (((wMap wHost).paPuts false 0x20000 ring).onPt fun p =>
    { p with res := [(0, some { wJob with place := f { wJob.place with advring := 0x20000, freeaddr := 0x20800, thr := 4 } })] }).onJob fun j =>
      { j with pages := [(2 ^ 40 * q + 2, x)] }
/-- What a page of `n` fills for two quarters has, stored to or not. -/
def wPage (n : Nat) (store : Bool) : PageStat := { fills := n, askers := 5#4, store := store }

/-- Below THR; at THR on the quarter's own stacks and elsewhere; each row of advice, none of them, and a ring that takes no item. -/
theorem witness_AdviceForPage :
    (let s := wAdvise 1 (wPage 3 true) id
     s.pt.cur.isSome = true ∧ s.pt.det = false ∧ s.pt.place.advring ≠ 0 ∧ s.job.pages = [(2 ^ 40 * 1 + 2, wPage 3 true)]
       ∧ s.vaWord s.pt.place.freeaddr = some 0 ∧ (wPage 3 true).fills < s.pt.place.thr)
    ∧ (let s := wAdvise 0 (wPage 4 true) id
       s.pt.place.thr ≤ (wPage 4 true).fills ∧ s.pageNear ((2 ^ 40 * 0 + 2) / 2 ^ 40) ((2 ^ 40 * 0 + 2) % 2 ^ 40) = some true)
    ∧ (let s := wAdvise 1 (wPage 4 true) id
       s.pageNear ((2 ^ 40 * 1 + 2) / 2 ^ 40) ((2 ^ 40 * 1 + 2) % 2 ^ 40) = some false ∧ s.pageStatic 2 = false
         ∧ (wPage 4 true).store = true ∧ s.pt.place.fmin ≤ 0 ∧ s.pt.place.qlow ≤ 0
         ∧ (s.draw.ringItem s.pt.place.advring 31 (zeros 32)).isSome = true)
    ∧ ((wPage 4 false).store = false ∧ 2 ≤ ((List.range 4).filter fun n => (wPage 4 false).askers.getLsbD n).length)
    ∧ (let s := wAdvise 1 (wPage 4 true) fun p => { p with fmin := 1, qlow := 1 }
       0 < s.pt.place.fmin ∧ ¬(s.pt.place.fmin ≤ 0) ∧ s.vaWord s.pt.place.freeaddr = some 0)
    ∧ (let s := wAdvise 1 { wPage 4 false with askers := 4#4 } id
       ¬(0 < s.pt.place.fmin ∨ 0 < s.pt.place.qlow) ∧ ((List.range 4).filter fun n => (4#4 : BitVec 4).getLsbD n).length < 2)
    ∧ (let s := (wAdvise 1 (wPage 4 true) id).paPuts false 0x20010 (zeros 4)
       s.draw.ringItem s.pt.place.advring 31 (zeros 32) = none) := by decide +kernel

/-- The base with a trace that samples counter 2 of its one core, or of its one tile, into a buffer of two records at 0x20000. -/
def wSampled (sel : Nat) (n : Nat) : State :=
  (wMap wHost).onJob fun j =>
    { j with
      tb := 5, tiles := [(0, default)]
      trace := { (default : Trace) with on := true, samples := true, period := 1, next := 10, csel := BitVec.ofNat 16 (2 ^ sel), buf := 0x20000, len := 128, head := n } }

/-- A sample of a core and of a tile, with room and with none. -/
theorem witness_SamplesWritten :
    (∀ sel ∈ [2, 10],
      let s := wSampled sel 1
      let r := s.job.trace
      r.on = true ∧ r.samples = true ∧ s.pt.cur.isSome = true ∧ r.period ≠ 0 ∧ r.next ≤ s.job.dc ∧ r.lost = r.told
        ∧ r.head < (r.len - 64) / 32 ∧ s.job.cores.length = 1 ∧ s.job.tiles.length = 1 ∧ r.csel = BitVec.ofNat 16 (2 ^ sel))
    ∧ (let s := wSampled 2 1
       let r := s.job.trace
       s.vaWritable (r.buf + 64 + 32 * 1) 32 = true
        ∧ (match s.vaPuts (r.buf + 64 + 32 * 1) (zeros 32) with
           | some u => u.vaWritable r.buf 16 && (u.vaPuts r.buf (zeros 16)).isSome
           | none => false) = true)
    ∧ (let r := (wSampled 2 2).job.trace
       r.wrap = false ∧ (r.len - 64) / 32 ≤ r.head) := by decide +kernel

/-- A fatal stop that has come to a boundary everywhere, in a job with a report buffer in HBM, with one that is not mapped, and with
none; the same in a QUIESCE with FORCE, and a stop stage that takes too long or does not. -/
theorem witness_StopsEnd_report :
    (let s := (wMap (wEnding true)).onPt fun p =>
       { p with res := [(0, some { wJob with place := { wJob.place with replen := 1, repva := 0x20000 } }), (1, some (wRes .shadow))] }
     s.pt.allStopped = true ∧ s.job.drained true = true ∧ 0 < s.pt.place.replen ∧ s.nearWritable s.pt.place.repva = some 0x20000
       ∧ (∀ i : Nat, i < 1 → s.pt.place.repva + 4096 * i < 2 ^ 56 ∧ (s.nearWritable (s.pt.place.repva + 4096 * i)).isSome = true)
       ∧ (match s.job.stop with
          | some g => (s.vaStore s.pt.place.repva (s.job.report g 4096)).isSome
          | none => false) = true)
    ∧ ((wEnding true).pt.place.replen = 0 ∧ (wEnding true).nearWritable 0x90000 = none)
    ∧ ((wEnding true).onPt fun p => { p with quiesce := some { wLimit true with aborting := true } }).pt.aborting = true
    ∧ (let s := wLong .stop (2 ^ 20 + 1)
       s.pt.switch = some { stage := .stop, toId := some 1, since := 2 ^ 20 + 1 } ∧ s.job.ending = false ∧ s.pt.place.replen = 0)
    ∧ (wLong .stop (2 ^ 20)).pt.switch = some { stage := .stop, toId := some 1, since := 2 ^ 20 } := by decide +kernel

/-- A report that fits its buffer and one that does not; a tile that a stop has met, with an operation that failed and without; a
suspended copy of four dimensions. -/
theorem witness_StopsEnd_entries :
    (let g : GangStop := { origin := .tile 0, cause := 0x18#8, detail := 0#8, cause2 := 0#8, aux := 0#64, tb := 1 }
     let j := (wEnding true).job
     64 ≤ 64 ∧ 64 < (j.report g 4096).length ∧ (j.report g 4096).length ≤ 4096 ∧ (j.node 0).stop = some (9, 0)
       ∧ (j.report g 64)[44]? = some 1#8 ∧ (j.report g 4096)[44]? = some 0#8)
    ∧ (default : Tile).failed = none ∧ ({ (default : Tile) with failed := some (2, 3, 4) } : Tile).failed = some (2, 3, 4)
    ∧ (let p : Affine := { elem := 8, cnt := [2, 3, 4, 5], str := [8, 16, 48, 192] }
       let o := { wCopy with susp := some wHeld, slay := .affine p, next := 119 }
       o.susp = some wHeld ∧ (if wHeld.detail.getLsbD 6 = true then o.dlay else o.slay) = .affine p ∧ o.next < 2 * 3 * 4 * 5) := by decide +kernel

end Sys2Proof.Tests
end

section
/-!
SUPPORT. The sectors of HBM and of the far tier (08 R246, R258): their bytes, and that a sector put into the memory behind the
granary stands there and changes no other sector that the partition in focus can reach.
-/

namespace Sys2Proof.Machine

/-! ### The bytes of a sector -/

/-- Byte `j` of the number that bytes hold. -/
theorem ofBytes_div_mod (l : List Byte) (j : Nat) : ofBytes l / 256 ^ j % 256 = ((l[j]?).getD 0#8).toNat := by
  induction l generalizing j with
  | nil => simp [ofBytes]
  | cons b r ih =>
    have hb := b.isLt
    cases j with
    | zero => simp only [ofBytes, Nat.pow_zero, Nat.div_one, List.getElem?_cons_zero, Option.getD_some]; omega
    | succ j =>
      have e : ofBytes (b :: r) / 256 = ofBytes r := by rw [ofBytes]; omega
      rw [Nat.pow_succ', ← Nat.div_div_eq_div_mul, e, ih, List.getElem?_cons_succ]

theorem sectorByte_ofNat (n : Nat) {i : Nat} (hi : i < 64) : sectorByte (BitVec.ofNat 512 n) i = BitVec.ofNat 8 (n / 256 ^ i) := by
  have e : 256 ^ i = 2 ^ (8 * i) := (Nat.pow_mul 2 8 i).symm
  apply BitVec.eq_of_getLsbD_eq
  intro j hj
  have : j + 8 * i < 512 := by omega
  simp only [sectorByte, e, hj, this, BitVec.getLsbD_extractLsb', BitVec.getLsbD_ofNat, Nat.testBit_div_two_pow,
    Nat.add_comm (8 * i), decide_true, Bool.true_and]

/-- A sector made of 64 bytes of a memory has those bytes. -/
theorem sectorByte_readMem (m : Mem) (a : Nat) {i : Nat} (hi : i < 64) :
    sectorByte (BitVec.ofNat 512 (ofBytes (readMem m a 64))) i = SMap.get m (a + i) := by
  rw [sectorByte_ofNat _ hi]
  apply BitVec.eq_of_toNat_eq
  rw [BitVec.toNat_ofNat, ofBytes_div_mod]
  simp [readMem, hi]

theorem sectorByte_sectorSet (v : BitVec 512) (b : Byte) {i j : Nat} (hj : j < 64) :
    sectorByte (sectorSet v i b) j = if i = j then b else sectorByte v j := by
  apply BitVec.eq_of_getLsbD_eq
  intro n hn
  have mask : ∀ x : Nat, (255#512).getLsbD x = decide (x < 8) := fun x => by
    rw [BitVec.getLsbD_ofNat, show (255 : Nat) = 2 ^ 8 - 1 from rfl, Nat.testBit_two_pow_sub_one]
    refine Bool.eq_iff_iff.mpr ?_
    simp only [Bool.and_eq_true, decide_eq_true_eq]
    omega
  have high : ∀ x : Nat, 8 ≤ x → b.getLsbD x = false := fun x hx => BitVec.getLsbD_of_ge b x hx
  have h512 : 8 * j + n < 512 := by omega
  simp only [sectorByte, sectorSet, BitVec.getLsbD_extractLsb', BitVec.getLsbD_or, BitVec.getLsbD_and, BitVec.getLsbD_not,
    BitVec.getLsbD_shiftLeft, BitVec.getLsbD_setWidth, mask, hn, h512, decide_true, Bool.true_and]
  split
  · rename_i e
    subst e
    have : ¬8 * i + n < 8 * i := by omega
    have : 8 * i + n - 8 * i = n := by omega
    simp only [*, decide_true, decide_false, Bool.not_true, Bool.not_false, Bool.true_and, Bool.and_false, Bool.false_or,
      show n < 512 by omega]
  · rcases Nat.lt_or_ge (8 * j + n) (8 * i) with h | h
    · simp [h, hn]
    · have far : 8 ≤ 8 * j + n - 8 * i := by omega
      simp [high _ far, Nat.not_lt.mpr far, hn]

/-! ### The memory behind the granary -/

theorem readMem_writeMem_of_disjoint (m : Mem) (a : Nat) (l : List Byte) (b n : Nat) (h : a + l.length ≤ b ∨ b + n ≤ a) :
    readMem (writeMem m a l) b n = readMem m b n := by
  refine List.map_congr_left fun i hi => ?_
  have := List.mem_range.mp hi
  rw [get_writeMem, if_neg (by omega)]

/-- Sectors erased that are none of number `k` leave what is listed at `k`. -/
theorem get_foldl_erase (m : SMap (Option (BitVec 512))) (x k : Nat) (l : List Nat) (h : ∀ p ∈ l, farSector p x ≠ k) :
    SMap.get (l.foldl (fun m p => SMap.erase m (farSector p x)) m) k = SMap.get m k := by
  induction l generalizing m with
  | nil => rfl
  | cons p r ih =>
    rw [List.foldl_cons, ih _ fun q hq => h q (List.mem_cons_of_mem _ hq), SMap.get_erase,
      if_neg (h p (List.mem_cons_self ..))]

theorem ownSector_iff (s : State) (k : Nat) :
    s.ownSector k = true ↔
      k < 2 ^ 60 ∨ farSector s.focus.part (2 ^ 51 / 64) ≤ k ∧ k < farSector s.focus.part (2 ^ 52 / 64) := by
  simp [State.ownSector]

theorem memSector_hbm (s : State) {k : Nat} (h : k < 2 ^ 60) :
    s.memSector k = BitVec.ofNat 512 (ofBytes (readMem s.hbm (64 * k) 64)) := if_pos h

theorem memSector_sealed (s : State) {k : Nat} (h : ¬k < 2 ^ 60) {v : BitVec 512} (hv : SMap.get s.far k = some v) :
    s.memSector k = v := by
  simp only [State.memSector, if_neg h, hv]

/-- A far-tier sector rests on what the device sealed there, the host's bytes at that sector and the partitions' keys. -/
theorem memSector_far_congr {s t : State} {k : Nat} (h : ¬k < 2 ^ 60) (hkey : ∀ q, (t.part q).key = (s.part q).key)
    (hfar : SMap.get t.far k = SMap.get s.far k)
    (hhost : readMem t.host (64 * (k % 2 ^ 50) - farBase) 64 = readMem s.host (64 * (k % 2 ^ 50) - farBase) 64) :
    t.memSector k = s.memSector k := by
  simp only [State.memSector, if_neg h, hkey, hfar, hhost]

/-- What the memory behind the granary holds rests on HBM, the far tier, host memory and the partitions' keys. -/
theorem memSector_congr {s t : State} (hkey : ∀ q, (t.part q).key = (s.part q).key) (hhbm : t.hbm = s.hbm)
    (hfar : t.far = s.far) (hhost : t.host = s.host) (k : Nat) : t.memSector k = s.memSector k := by
  simp only [State.memSector, hkey, hhbm, hfar, hhost]

theorem sector_congr {s t : State} (hkey : ∀ q, (t.part q).key = (s.part q).key) (hdirty : t.dirty = s.dirty)
    (hhbm : t.hbm = s.hbm) (hfar : t.far = s.far) (hhost : t.host = s.host) (k : Nat) : t.sector k = s.sector k := by
  simp only [State.sector, hdirty, memSector_congr hkey hhbm hfar hhost]

theorem ofNat_ofBytes_toBytes (v : BitVec 512) : BitVec.ofNat 512 (ofBytes (toBytes 64 v.toNat)) = v := by
  have small (n : Nat) (w : BitVec (8 * n)) : w.toNat < 256 ^ n := by
    rw [show 256 = 2 ^ 8 from rfl, ← Nat.pow_mul]
    exact w.isLt
  rw [ofBytes_toBytes, Nat.mod_eq_of_lt (small 64 v), BitVec.ofNat_toNat, BitVec.setWidth_eq]

/-- A sector of HBM put into memory stands there, and every other sector stands as it did. -/
theorem memSector_memPut_hbm (s : State) {k : Nat} (v : BitVec 512) (hk : k < 2 ^ 60) (j : Nat) :
    (s.memPut k v).memSector j = if k = j then v else s.memSector j := by
  rw [State.memPut, if_pos hk]
  by_cases hj : j < 2 ^ 60
  · rw [memSector_hbm _ hj, memSector_hbm _ hj]
    split
    · rename_i e
      subst e
      have back := readMem_writeMem s.hbm (64 * k) (toBytes 64 v.toNat)
      rw [toBytes_length] at back
      rw [back, ofNat_ofBytes_toBytes]
    · rw [readMem_writeMem_of_disjoint _ _ _ _ _ (by rw [toBytes_length]; omega)]
  · rw [if_neg (by omega)]
    simp only [State.memSector, if_neg hj, State.part]

/-- A sector of the far tier put into memory stands there, and every other sector that the partition in focus can reach stands
as it did: host memory takes the sealed bytes at that sector alone (08 R258). -/
theorem memSector_memPut_far (s : State) {k j : Nat} (v : BitVec 512) (hk : ¬k < 2 ^ 60) (ok : s.ownSector k = true)
    (oj : s.ownSector j = true) : (s.memPut k v).memSector j = if k = j then v else s.memSector j := by
  rw [ownSector_iff] at ok oj
  rw [State.memPut, if_neg hk]
  dsimp only
  by_cases hj : j < 2 ^ 60
  · rw [if_neg (by omega), memSector_hbm _ hj, memSector_hbm _ hj]
  · split
    · rename_i e
      subst e
      exact memSector_sealed _ hj (by rw [SMap.get_set_self])
    · rename_i ne
      unfold farSector at ok oj
      refine memSector_far_congr hj (fun _ => rfl) ?_ ?_
      · rw [SMap.get_set_ne _ _ ne, get_foldl_erase _ _ _ _ fun p _ => by unfold farSector; omega]
      · exact readMem_writeMem_of_disjoint _ _ _ _ _ (by rw [toBytes_length]; unfold farBase; omega)

/-- A sector put into memory stands there, and no other sector that the partition in focus can reach changes. -/
theorem memSector_memPut {s : State} {k j : Nat} (v : BitVec 512) (ok : s.ownSector k = true) (oj : s.ownSector j = true) :
    (s.memPut k v).memSector j = if k = j then v else s.memSector j := by
  by_cases hk : k < 2 ^ 60
  · exact memSector_memPut_hbm s v hk j
  · exact memSector_memPut_far s v hk ok oj

end Sys2Proof.Machine
end

section
/-!
SUPPORT. What a reader of the partition in focus sees of memory, as a relation between two states; gang stops, cleared poison and
the granary's write-backs show in no read (08 R246).
-/

namespace Sys2Proof.Machine

/-! ### What places a byte, and what a reader sees -/

/-- What decides where the bytes of the partition in focus stand, and how its far tier opens, is in `t` as in `s`: the
partitions' keys, the physical map, and the stepped regions. -/
structure State.SameMap (s t : State) : Prop where
  focus : t.focus = s.focus
  key : ∀ q, (t.part q).key = (s.part q).key
  il : t.pt.il = s.pt.il
  qmask : t.pt.qmask = s.pt.qmask
  tiles : ∀ n, (t.job.tile n).stepped = (s.job.tile n).stepped
  cores : ∀ n, (t.job.core n).stepped = (s.job.core n).stepped

/-- A reader of the partition in focus sees in `t` what it sees in `s`: no sector that it can reach, no byte of the Mere or of local
memory, and no place of a byte differs. -/
structure State.SameRead (s t : State) : Prop extends s.SameMap t where
  mere : t.pt.mere = s.pt.mere
  loc : t.pt.loc = s.pt.loc
  sector : ∀ k, s.ownSector k = true → t.sector k = s.sector k

theorem State.SameMap.refl (s : State) : s.SameMap s := ⟨rfl, fun _ => rfl, rfl, rfl, fun _ => rfl, fun _ => rfl⟩

theorem State.SameMap.trans {s t u : State} (h : s.SameMap t) (k : t.SameMap u) : s.SameMap u where
  focus := k.focus.trans h.focus
  key q := (k.key q).trans (h.key q)
  il := k.il.trans h.il
  qmask := k.qmask.trans h.qmask
  tiles n := (k.tiles n).trans (h.tiles n)
  cores n := (k.cores n).trans (h.cores n)

theorem State.SameMap.ownSector {s t : State} (h : s.SameMap t) (k : Nat) : t.ownSector k = s.ownSector k := by
  rw [State.ownSector, State.ownSector, h.focus]

theorem State.SameMap.home {s t : State} (h : s.SameMap t) (a : Nat) : t.pt.home a = s.pt.home a := by
  have list : t.pt.stackList = s.pt.stackList := by rw [Part.stackList, Part.stackList, h.il]
  have quarters : t.pt.quarters = s.pt.quarters := by rw [Part.quarters, Part.quarters, h.qmask]
  have size : t.pt.hbmSize = s.pt.hbmSize := by rw [Part.hbmSize, Part.hbmSize, list]
  have place : t.pt.hbmPlace a = s.pt.hbmPlace a := by rw [Part.hbmPlace, Part.hbmPlace, list]
  have tiles : t.pt.tileCount = s.pt.tileCount := by rw [Part.tileCount, Part.tileCount, quarters]
  have cores : t.pt.coreCount = s.pt.coreCount := by rw [Part.coreCount, Part.coreCount, quarters]
  rw [Part.home, Part.home, size, place, tiles, cores]

theorem State.SameMap.regionOf {s t : State} (h : s.SameMap t) (x : Home) : t.regionOf x = s.regionOf x := by
  cases x <;> simp only [State.regionOf, State.coreAt, h.tiles, h.cores]

theorem State.SameMap.regionFits {s t : State} (h : s.SameMap t) {x : Home} (hx : s.regionFits x) : t.regionFits x := by
  unfold State.regionFits
  rw [h.regionOf]
  exact hx

theorem State.SameRead.refl (s : State) : s.SameRead s := ⟨.refl s, rfl, rfl, fun _ _ => rfl⟩

theorem State.SameRead.trans {s t u : State} (h : s.SameRead t) (k : t.SameRead u) : s.SameRead u where
  toSameMap := h.toSameMap.trans k.toSameMap
  mere := k.mere.trans h.mere
  loc := k.loc.trans h.loc
  sector n own := (k.sector n ((h.ownSector n).trans own)).trans (h.sector n own)

/-- An update of the partition in focus that keeps its key, its shape and its stepped regions moves no byte. -/
theorem sameMap_onPt (s : State) (f : Part → Part) (key : (f s.pt).key = s.pt.key) (il : (f s.pt).il = s.pt.il)
    (qmask : (f s.pt).qmask = s.pt.qmask) (tiles : ∀ n, ((f s.pt).job.tile n).stepped = (s.job.tile n).stepped)
    (cores : ∀ n, ((f s.pt).job.core n).stepped = (s.job.core n).stepped) : s.SameMap (s.onPt f) := by
  refine ⟨rfl, fun q => ?_, ?_, ?_, fun n => ?_, fun n => ?_⟩
  · rw [State.onPt, State.part_onPart]
    split
    · rename_i e; subst e; exact key
    · rfl
  · rw [State.pt_onPt, il]
  · rw [State.pt_onPt, qmask]
  · rw [State.job, State.pt_onPt, tiles]
  · rw [State.job, State.pt_onPt, cores]

/-- Such an update that keeps the Mere and local memory as well shows in no read. -/
theorem sameRead_onPt (s : State) (f : Part → Part) (map : s.SameMap (s.onPt f)) (mere : (f s.pt).mere = s.pt.mere)
    (loc : (f s.pt).loc = s.pt.loc) : s.SameRead (s.onPt f) :=
  ⟨map, by rw [State.pt_onPt, mere], by rw [State.pt_onPt, loc], fun k _ => sector_congr map.key rfl rfl rfl rfl k⟩

theorem sameRead_onJob (s : State) (f : Job → Job) (tiles : ∀ n, ((f s.job).tile n).stepped = (s.job.tile n).stepped)
    (cores : ∀ n, ((f s.job).core n).stepped = (s.job.core n).stepped) : s.SameRead (s.onJob f) :=
  sameRead_onPt s _ (sameMap_onPt s _ rfl rfl rfl tiles cores) rfl rfl

theorem sameRead_raiseHold (s : State) (n : Nat) (len : Option Nat) : s.SameRead (s.raiseHold n len) := by
  have h := sameRead_onJob s (fun j => { j with holds := j.holds ++ s.pt.spread n len }) (fun _ => rfl) fun _ => rfl
  exact ⟨⟨h.focus, h.key, h.il, h.qmask, h.tiles, h.cores⟩, h.mere, h.loc, h.sector⟩

/-- A gang stop shows in no read of memory. -/
theorem sameRead_gangStop (s : State) (o : Origin) (c d c2 : BitVec 8) (aux : Word) : s.SameRead (s.gangStop o c d c2 aux) := by
  rcases s.gangStop_cases o c d c2 aux with ⟨_, _, _, e⟩ | ⟨_, _, _, e⟩ | ⟨_, e⟩ <;> rw [e]
  · exact .refl s
  · exact sameRead_onJob s _ (fun _ => rfl) fun _ => rfl
  · exact (sameRead_raiseHold s _ _).trans (sameRead_onJob _ _ (fun _ => rfl) fun _ => rfl)

/-- The poison of memory shows in no byte. -/
theorem sameRead_unpoison (s : State) (a n : Nat) : s.SameRead (s.unpoison a n) :=
  sameRead_onPt s _ (sameMap_onPt s _ rfl rfl rfl (fun _ => rfl) fun _ => rfl) rfl rfl

/-! ### The granary's write-backs (08 R246) -/

theorem gangStop_dirty (s : State) (o : Origin) (c d c2 : BitVec 8) (aux : Word) : (s.gangStop o c d c2 aux).dirty = s.dirty := by
  rcases s.gangStop_cases o c d c2 aux with ⟨_, _, _, e⟩ | ⟨_, _, _, e⟩ | ⟨_, e⟩ <;> rw [e] <;> rfl

theorem memPut_parts (s : State) (k : Nat) (v : BitVec 512) : (s.memPut k v).parts = s.parts := by
  unfold State.memPut; split <;> rfl
theorem memPut_focus (s : State) (k : Nat) (v : BitVec 512) : (s.memPut k v).focus = s.focus := by
  unfold State.memPut; split <;> rfl
theorem memPut_dirty (s : State) (k : Nat) (v : BitVec 512) : (s.memPut k v).dirty = s.dirty := by
  unfold State.memPut; split <;> rfl

/-- States with the same partitions and the same focus place every byte alike. -/
theorem sameMap_of_parts {s t : State} (hp : t.parts = s.parts) (hf : t.focus = s.focus) : s.SameMap t := by
  have e : t.pt = s.pt := by rw [State.pt, State.pt, State.part, State.part, hp, hf]
  exact ⟨hf, fun q => by rw [State.part, State.part, hp], by rw [e], by rw [e], fun n => by rw [State.job, State.job, e],
    fun n => by rw [State.job, State.job, e]⟩

/-- The granary's copy of a sector put into memory and dropped shows in no read. -/
theorem sameRead_memPut_erase {s : State} {k : Nat} {v : BitVec 512} (own : s.ownSector k = true)
    (hv : SMap.get s.dirty k = some v) : s.SameRead { s.memPut k v with dirty := SMap.erase s.dirty k } := by
  have hp := memPut_parts s k v
  have hf := memPut_focus s k v
  have e : ({ s.memPut k v with dirty := SMap.erase s.dirty k } : State).pt = s.pt := by
    rw [State.pt, State.pt, State.part, State.part]; dsimp only; rw [hp, hf]
  refine ⟨sameMap_of_parts hp hf, by rw [e], by rw [e], fun j oj => ?_⟩
  have mem : ({ s.memPut k v with dirty := SMap.erase s.dirty k } : State).memSector j = if k = j then v else s.memSector j :=
    (memSector_congr (s := s.memPut k v) (fun _ => rfl) rfl rfl rfl j).trans (memSector_memPut v own oj)
  rw [State.sector, State.sector, mem]
  dsimp only
  rw [SMap.get_erase]
  split
  · rename_i h; subst h; rw [hv]; rfl
  · rfl

/-- A write-back of a sector within reach shows in no read. -/
theorem sameRead_writeBack {s : State} {k : Nat} (own : s.ownSector k = true) : s.SameRead (s.writeBack k) := by
  unfold State.writeBack
  split
  · rename_i v hv
    have put := sameRead_memPut_erase own hv
    dsimp only
    split
    · exact put.trans (sameRead_gangStop _ _ _ _ _ _)
    · exact put
  · exact .refl s

/-- A write-back makes no sector dirty. -/
theorem writeBack_clean {s : State} (k : Nat) {j : Nat} (h : SMap.get s.dirty j = none) :
    SMap.get (s.writeBack k).dirty j = none := by
  have gone : SMap.get (SMap.erase s.dirty k) j = none := by
    rw [SMap.get_erase, h]; split <;> rfl
  unfold State.writeBack
  split
  · dsimp only
    split
    · rw [State.backStop, gangStop_dirty]; exact gone
    · exact gone
  · exact h

/-- What the making of room does with a sector of the granary: one of the line that goes out is written back. -/
def State.evict (line : Nat) (s : State) (x : Nat × Option (BitVec 512)) : State :=
  if x.1 / 8 = line then s.writeBack x.1 else s

/-- Lines written back, of sectors within reach, show in no read and make no sector dirty. -/
theorem sameRead_foldl_evict (line : Nat) (l : List (Nat × Option (BitVec 512))) (s : State)
    (own : ∀ x ∈ l, s.ownSector x.1 = true) :
    s.SameRead (l.foldl (State.evict line) s)
      ∧ ∀ j, SMap.get s.dirty j = none → SMap.get (l.foldl (State.evict line) s).dirty j = none := by
  induction l generalizing s with
  | nil => exact ⟨.refl s, fun _ h => h⟩
  | cons x r ih =>
    have ox := own x (List.mem_cons_self ..)
    have later : ∀ y ∈ r, s.ownSector y.1 = true := fun y hy => own y (List.mem_cons_of_mem _ hy)
    rw [List.foldl_cons, State.evict]
    split
    · have one := sameRead_writeBack ox
      obtain ⟨read, clean⟩ := ih (s.writeBack x.1) fun y hy => (one.ownSector _).trans (later y hy)
      exact ⟨one.trans read, fun j h => clean j (writeBack_clean _ h)⟩
    · exact ih s later

/-- The making of room in the granary shows in no read and makes no sector dirty. -/
theorem sameRead_makeRoom (s : State) (k : Nat) :
    s.SameRead (s.makeRoom k) ∧ ∀ j, SMap.get s.dirty j = none → SMap.get (s.makeRoom k).dirty j = none := by
  unfold State.makeRoom
  extract_lets mine lines out
  split
  · exact ⟨.refl s, fun _ h => h⟩
  · have own : ∀ x ∈ mine, s.draw.ownSector x.1 = true := fun x hx => by
      have := (List.mem_filter.mp hx).2
      simp only [Bool.and_eq_true] at this
      exact this.2
    obtain ⟨read, clean⟩ := sameRead_foldl_evict out mine s.draw own
    have drawn : s.SameRead s.draw := ⟨⟨rfl, fun _ => rfl, rfl, rfl, fun _ => rfl, fun _ => rfl⟩, rfl, rfl, fun _ _ => rfl⟩
    exact ⟨drawn.trans read, clean⟩

end Sys2Proof.Machine
end

section
/-!
SUPPORT. What a reader of the partition in focus sees after a store: a byte written at a physical address is read back at its home,
in HBM, the far tier, the Mere or local memory, and no other byte changes.
-/

namespace Sys2Proof.Machine

/-! ### Where a physical address has its home -/

theorem Part.stackList_getD_lt (p : Part) (i : Nat) : (p.stackList[i]?).getD 0 < 16 := by
  rcases h : p.stackList[i]? with _ | x
  · simp
  · simpa using (List.mem_filter.mp (List.mem_of_getElem? h)).1

theorem Part.hbmPlace_lt {p : Part} {a : Nat} (h : a < p.hbmSize) : p.hbmPlace a < 2 ^ 42 := by
  have size : p.stackList.length ≤ (List.range 16).length := List.length_filter_le _ _
  rw [List.length_range] at size
  have stack := p.stackList_getD_lt (a / 4096 % p.stackList.length)
  have row : a / 4096 / p.stackList.length ≤ a / 4096 := Nat.div_le_self ..
  unfold Part.hbmSize at h
  unfold Part.hbmPlace hbmKey
  dsimp only
  omega

/-- Every home that a physical address can have, with its bounds. -/
theorem Part.home_cases (p : Part) (a : Nat) :
    (∃ k, k < 2 ^ 42 ∧ p.home a = .hbm k) ∨ (∃ x, farBase ≤ x ∧ x < 2 ^ 52 ∧ p.home a = .far x)
      ∨ (∃ t o, o < 2 ^ 21 ∧ p.home a = .mere t o) ∨ (∃ c o, o < 2 ^ 18 ∧ p.home a = .loc c o)
      ∨ p.home a = .unpopulated := by
  unfold Part.home
  split
  · rename_i h; exact .inl ⟨_, p.hbmPlace_lt h, rfl⟩
  · split
    · exact .inr (.inr (.inl ⟨_, _, Nat.mod_lt _ (by decide), rfl⟩))
    · split
      · exact .inr (.inr (.inr (.inl ⟨_, _, Nat.mod_lt _ (by decide), rfl⟩)))
      · split
        · rename_i h; exact .inr (.inl ⟨a, h.1, h.2, rfl⟩)
        · exact .inr (.inr (.inr (.inr rfl)))

/-! ### The sector that holds a byte of HBM or of the far tier -/

/-- The sector that holds a home byte of HBM or of the far tier, and the byte's number within it. -/
def State.slicePlace (s : State) : Home → Option (Nat × Nat)
  | .hbm k => some (k / 64, k % 64)
  | .far a => some (farSector s.focus.part (a / 64), a % 64)
  | _ => none

theorem State.SameMap.slicePlace {s t : State} (h : s.SameMap t) (x : Home) : t.slicePlace x = s.slicePlace x := by
  cases x <;> simp only [State.slicePlace, h.focus]

/-- An address whose byte a sector holds has its home in HBM or in the far tier, within their bounds. -/
theorem State.slicePlace_cases {s : State} {a k i : Nat} (h : s.slicePlace (s.pt.home a) = some (k, i)) :
    (∃ x, s.pt.home a = .hbm x ∧ x < 2 ^ 42 ∧ k = x / 64 ∧ i = x % 64)
      ∨ ∃ x, s.pt.home a = .far x ∧ farBase ≤ x ∧ x < 2 ^ 52 ∧ k = farSector s.focus.part (x / 64) ∧ i = x % 64 := by
  rcases s.pt.home_cases a with ⟨x, lt, e⟩ | ⟨x, lo, hi, e⟩ | ⟨_, _, _, e⟩ | ⟨_, _, _, e⟩ | e <;> rw [e] at h <;>
    cases h
  · exact .inl ⟨x, e, lt, rfl, rfl⟩
  · exact .inr ⟨x, e, lo, hi, rfl, rfl⟩

/-- An address whose byte no sector holds has its home in the Mere, in local memory, or nowhere. -/
theorem State.slicePlace_none {s : State} {a : Nat} (h : s.slicePlace (s.pt.home a) = none) :
    (∃ t o, o < 2 ^ 21 ∧ s.pt.home a = .mere t o) ∨ (∃ c o, o < 2 ^ 18 ∧ s.pt.home a = .loc c o)
      ∨ s.pt.home a = .unpopulated := by
  rcases s.pt.home_cases a with ⟨x, _, e⟩ | ⟨x, _, _, e⟩ | other
  · rw [e] at h; cases h
  · rw [e] at h; cases h
  · exact other

theorem State.slicePlace_bounds {s : State} {a k i : Nat} (h : s.slicePlace (s.pt.home a) = some (k, i)) :
    s.ownSector k = true ∧ i < 64 := by
  rw [ownSector_iff]
  rcases State.slicePlace_cases h with ⟨x, -, lt, rfl, rfl⟩ | ⟨x, -, lo, hi, rfl, rfl⟩
  · exact ⟨.inl (by omega), by omega⟩
  · unfold farBase at lo
    unfold farSector
    exact ⟨.inr (by omega), by omega⟩

/-- Addresses whose bytes stand at one place of one sector have one home. -/
theorem State.slicePlace_inj {s : State} {a b k i : Nat} (ha : s.slicePlace (s.pt.home a) = some (k, i))
    (hb : s.slicePlace (s.pt.home b) = some (k, i)) : s.pt.home a = s.pt.home b := by
  have tier (n : Nat) : farSector s.focus.part n = 2 ^ 60 + s.focus.part * 2 ^ 50 + n := rfl
  rcases State.slicePlace_cases ha with ⟨x, ea, lx, kx, ix⟩ | ⟨x, ea, -, -, kx, ix⟩ <;>
    rcases State.slicePlace_cases hb with ⟨y, eb, ly, ky, iy⟩ | ⟨y, eb, -, -, ky, iy⟩ <;> rw [ea, eb]
  · rw [show x = y by omega]
  · rw [tier] at ky; omega
  · rw [tier] at kx; omega
  · rw [tier] at kx ky; rw [show x = y by omega]

/-- A byte of HBM or of the far tier is the byte of its sector. -/
theorem State.paByte_slice {s : State} {a k i : Nat} (h : s.slicePlace (s.pt.home a) = some (k, i)) :
    s.paByte a = sectorByte (s.sector k) i := by
  rcases State.slicePlace_cases h with ⟨x, e, lt, rfl, rfl⟩ | ⟨x, e, _, _, rfl, rfl⟩
  · rw [State.paByte, e]
    simp only [State.homeByte, State.sliceByte, State.sector]
    cases SMap.get s.dirty (x / 64) with
    | some v => rfl
    | none => rw [Option.getD_none, memSector_hbm _ (by omega), sectorByte_readMem _ _ (by omega), Nat.div_add_mod]
  · rw [State.paByte, e]; rfl

theorem State.paByte_mere {s : State} {a t o : Nat} (h : s.pt.home a = .mere t o) :
    s.paByte a = SMap.get s.pt.mere (t * 2 ^ 21 + (s.job.tile t).stepped.present o) := by
  rw [State.paByte, h]; rfl

theorem State.paByte_loc {s : State} {a c o : Nat} (h : s.pt.home a = .loc c o) :
    s.paByte a = SMap.get s.pt.loc (c * 2 ^ 18 + (s.coreAt c).stepped.present o) := by
  rw [State.paByte, h]; rfl

theorem State.paByte_unpopulated {s : State} {a : Nat} (h : s.pt.home a = .unpopulated) : s.paByte a = 0#8 := by
  rw [State.paByte, h]; rfl

/-- The byte at an address rests on the byte of its sector, of the Mere or of local memory. -/
theorem State.SameMap.paByte {s t : State} (h : s.SameMap t) (x : Nat)
    (sector : ∀ k i, s.slicePlace (s.pt.home x) = some (k, i) → sectorByte (t.sector k) i = sectorByte (s.sector k) i)
    (mere : ∀ n o, o < 2 ^ 21 → s.pt.home x = .mere n o →
      SMap.get t.pt.mere (n * 2 ^ 21 + (s.job.tile n).stepped.present o) = s.paByte x)
    (loc : ∀ n o, o < 2 ^ 18 → s.pt.home x = .loc n o →
      SMap.get t.pt.loc (n * 2 ^ 18 + (s.coreAt n).stepped.present o) = s.paByte x) : t.paByte x = s.paByte x := by
  have home := h.home x
  rcases e : s.slicePlace (s.pt.home x) with _ | ⟨k, i⟩
  · rcases State.slicePlace_none e with ⟨n, o, ho, ex⟩ | ⟨n, o, ho, ex⟩ | ex
    · rw [State.paByte_mere (home.trans ex), h.tiles, mere n o ho ex]
    · rw [State.paByte_loc (home.trans ex), State.coreAt, h.cores]
      exact loc n o ho ex
    · rw [State.paByte_unpopulated ex, State.paByte_unpopulated (home.trans ex)]
  · have e' : t.slicePlace (t.pt.home x) = some (k, i) := by rw [home, h.slicePlace, e]
    rw [State.paByte_slice e, State.paByte_slice e', sector k i e]

/-- A reader that sees the same sectors, Mere and local memory reads the same byte at every address. -/
theorem State.SameRead.paByte {s t : State} (h : s.SameRead t) (x : Nat) : t.paByte x = s.paByte x :=
  h.toSameMap.paByte x (fun k _ e => by rw [h.sector k (State.slicePlace_bounds e).1])
    (fun _ _ _ e => by rw [h.mere, State.paByte_mere e]) fun _ _ _ e => by rw [h.loc, State.paByte_loc e]

/-! ### Storage of stepped regions (08 R264) -/

/-- The present half of an address stands within the storage of the region that holds the address. -/
theorem Stepped.present_cases (st : Stepped) (a : Nat) :
    (st.find a = none ∧ st.present a = a)
      ∨ ∃ i e, st.find a = some (i, e) ∧ st.present a < rgBase e + rgStorage e ∧ (st.find (st.present a)).isSome = true := by
  rcases h : st.find a with _ | ⟨i, e⟩
  · exact .inl ⟨rfl, by rw [Stepped.present, h]⟩
  · have hp := List.find?_some h
    have hm := List.mem_of_find?_eq_some h
    simp only [Bool.and_eq_true, decide_eq_true_eq] at hp
    obtain ⟨⟨valid, lo⟩, hi⟩ := hp
    have within : rgBase e ≤ st.present a ∧ st.present a < rgBase e + rgStorage e := by
      rw [Stepped.present, h]
      dsimp only
      split
      · rename_i hc
        rw [rgStorage, if_neg fun sum => hc.1 sum.1]
        omega
      · exact ⟨lo, hi⟩
    refine .inr ⟨i, e, rfl, within.2, ?_⟩
    rw [Stepped.find, List.find?_isSome]
    exact ⟨_, hm, by simp [valid, within]⟩

/-- An address outside every region holds the present value of no other address. -/
theorem Stepped.present_eq_iff {st : Stepped} {o : Nat} (h : st.find o = none) (x : Nat) : o = st.present x ↔ x = o := by
  rcases st.present_cases x with ⟨_, e⟩ | ⟨_, _, hx, _, hs⟩
  · rw [e]; exact eq_comm
  · constructor
    · intro e; rw [← e, h] at hs; cases hs
    · intro e; rw [e, h] at hx; cases hx

theorem Stepped.present_lt {st : Stepped} {x n : Nat} (hx : x < n)
    (h : ∀ i e, st.find x = some (i, e) → rgBase e + rgStorage e ≤ n) : st.present x < n := by
  rcases st.present_cases x with ⟨_, e⟩ | ⟨i, e, hf, lt, _⟩
  · rwa [e]
  · exact Nat.lt_of_lt_of_le lt (h i e hf)

/-! ### A byte written at its home slice -/

/-- From `s` to `t` byte `i` of sector `k` becomes `b`; no other byte of a sector that the partition in focus can reach, no byte of
the Mere or of local memory and no place of a byte differs. -/
structure State.BytePut (s t : State) (k i : Nat) (b : Byte) : Prop extends s.SameMap t where
  mere : t.pt.mere = s.pt.mere
  loc : t.pt.loc = s.pt.loc
  byte : ∀ j n, s.ownSector j = true → n < 64 →
    sectorByte (t.sector j) n = if k = j ∧ i = n then b else sectorByte (s.sector j) n

/-- What no reader sees may come before a byte is written. -/
theorem State.SameRead.bytePut {s t u : State} {k i : Nat} {b : Byte} (h : s.SameRead t) (p : t.BytePut u k i b) :
    s.BytePut u k i b where
  toSameMap := h.toSameMap.trans p.toSameMap
  mere := p.mere.trans h.mere
  loc := p.loc.trans h.loc
  byte j n own hn := by rw [p.byte j n ((h.ownSector j).trans own) hn, h.sector j own]

/-- A sector that takes a byte, all others standing as they did, is a byte written. -/
theorem bytePut_of_sector {s t : State} (hp : t.parts = s.parts) (hf : t.focus = s.focus) {k i : Nat} {b : Byte}
    (hs : ∀ j, s.ownSector j = true → t.sector j = if k = j then sectorSet (s.sector k) i b else s.sector j) :
    s.BytePut t k i b := by
  have e : t.pt = s.pt := by rw [State.pt, State.pt, State.part, State.part, hp, hf]
  refine ⟨sameMap_of_parts hp hf, by rw [e], by rw [e], fun j n own hn => ?_⟩
  rw [hs j own]
  by_cases hk : k = j
  · subst hk
    rw [if_pos rfl, sectorByte_sectorSet _ _ hn]
    simp only [true_and]
  · rw [if_neg hk, if_neg fun h => hk h.1]

/-- The granary takes a sector with one byte replaced. -/
theorem bytePut_dirty (s : State) (k i : Nat) (b : Byte) :
    s.BytePut { s with dirty := SMap.set s.dirty k (some (sectorSet (s.sector k) i b)) } k i b := by
  refine bytePut_of_sector ?_ ?_ fun j _ => ?_
  · rfl
  · rfl
  · rw [State.sector]
    dsimp only
    rw [SMap.get_set]
    split <;> rfl

theorem sector_of_clean {s : State} {k : Nat} (h : SMap.get s.dirty k = none) : s.sector k = s.memSector k := by
  rw [State.sector, h, Option.getD_none]

/-- The memory behind the granary takes a sector with one byte replaced. -/
theorem bytePut_memPut {s : State} {k : Nat} (clean : SMap.get s.dirty k = none) (own : s.ownSector k = true) (i : Nat)
    (b : Byte) : s.BytePut (s.memPut k (sectorSet (s.memSector k) i b)) k i b := by
  refine bytePut_of_sector (memPut_parts ..) (memPut_focus ..) fun j oj => ?_
  rw [State.sector, memPut_dirty, memSector_memPut _ own oj, sector_of_clean clean]
  split
  · rename_i e; subst e; rw [clean, Option.getD_none]
  · rfl

/-- HBM takes one byte of a sector that the granary does not hold. -/
theorem bytePut_hbm {s : State} {k i : Nat} (clean : SMap.get s.dirty k = none) (hk : k < 2 ^ 60) (hi : i < 64) (b : Byte) :
    s.BytePut { s with hbm := SMap.set s.hbm (64 * k + i) b } k i b := by
  refine ⟨sameMap_of_parts rfl rfl, rfl, rfl, fun j n _ hn => ?_⟩
  rw [State.sector, State.sector]
  dsimp only
  by_cases hj : j < 2 ^ 60
  · cases hd : SMap.get s.dirty j with
    | some v =>
      rw [Option.getD_some, Option.getD_some, if_neg]
      rintro ⟨rfl, -⟩
      rw [clean] at hd
      cases hd
    | none =>
      rw [Option.getD_none, Option.getD_none, memSector_hbm _ hj, memSector_hbm _ hj, sectorByte_readMem _ _ hn,
        sectorByte_readMem _ _ hn]
      dsimp only
      rw [SMap.get_set]
      exact ite_congr (propext (by omega)) (fun _ => rfl) fun _ => rfl
  · have same : ({ s with hbm := SMap.set s.hbm (64 * k + i) b } : State).memSector j = s.memSector j :=
      memSector_far_congr hj (fun _ => rfl) rfl rfl
    rw [if_neg (by omega), same]

/-- A byte written at its home slice is read back there, and every other byte is read as before. -/
theorem bytePut_slicePut {s : State} (alloc : Bool) {k i : Nat} (own : s.ownSector k = true) (hi : i < 64) (b : Byte) :
    s.BytePut (s.slicePut alloc k i b) k i b := by
  unfold State.slicePut
  split
  · exact bytePut_dirty s k i b
  · rename_i held
    have clean : SMap.get s.dirty k = none := by simpa using held
    split
    · obtain ⟨read, none⟩ := sameRead_makeRoom s k
      have put := read.bytePut (bytePut_dirty (s.makeRoom k) k i b)
      rwa [sector_of_clean (none k clean)] at put
    · split
      · rename_i hk; exact bytePut_hbm clean hk hi b
      · exact bytePut_memPut clean own i b

/-! ### A byte written at a physical address -/

theorem State.BytePut.paByte {s t : State} {a k i : Nat} {b : Byte} (p : s.BytePut t k i b)
    (ha : s.slicePlace (s.pt.home a) = some (k, i)) (x : Nat) :
    t.paByte x = if s.pt.home x = s.pt.home a then b else s.paByte x := by
  split
  · rename_i hx
    obtain ⟨own, hi⟩ := State.slicePlace_bounds ha
    have e : t.slicePlace (t.pt.home x) = some (k, i) := by rw [p.home, p.slicePlace, hx, ha]
    rw [State.paByte_slice e, p.byte k i own hi, if_pos ⟨rfl, rfl⟩]
  · rename_i hx
    refine p.toSameMap.paByte x (fun j n e => ?_) (fun _ _ _ e => by rw [p.mere, State.paByte_mere e])
      fun _ _ _ e => by rw [p.loc, State.paByte_loc e]
    obtain ⟨own, hn⟩ := State.slicePlace_bounds e
    rw [p.byte j n own hn, if_neg]
    rintro ⟨rfl, rfl⟩
    exact hx (State.slicePlace_inj e ha)

/-- A byte written to HBM or to the far tier goes to its sector. -/
theorem State.paPut_slice {s : State} {a k i : Nat} (h : s.slicePlace (s.pt.home a) = some (k, i)) (nc : Bool) (b : Byte) :
    ∃ alloc, s.paPut nc a b = s.slicePut alloc k i b := by
  rcases State.slicePlace_cases h with ⟨x, e, -, rfl, rfl⟩ | ⟨x, e, -, -, rfl, rfl⟩ <;> rw [State.paPut, e]
  · exact ⟨_, rfl⟩
  · exact ⟨_, rfl⟩

theorem State.present_mere_lt {s : State} {n o : Nat} (ho : o < 2 ^ 21) (fits : s.regionFits (.mere n o)) :
    (s.job.tile n).stepped.present o < 2 ^ 21 :=
  Stepped.present_lt ho fun i e hf => by simpa only [State.regionFits, State.regionOf, hf] using fits

theorem State.present_loc_lt {s : State} {n o : Nat} (ho : o < 2 ^ 18) (fits : s.regionFits (.loc n o)) :
    (s.coreAt n).stepped.present o < 2 ^ 18 :=
  Stepped.present_lt ho fun i e hf => by simpa only [State.regionFits, State.regionOf, hf] using fits

/-- A byte written outside every stepped region, in a memory whose cells are `w` bytes each, meets the byte that a reader sees at
another place only where the two places are one. -/
theorem Stepped.cell_eq_iff {w n o m x : Nat} (ho : o < w) (st : Nat → Stepped) (plain : (st n).find o = none)
    (hx : (st m).present x < w) : n * w + o = m * w + (st m).present x ↔ m = n ∧ x = o := by
  constructor
  · intro e
    have hn : n = m := by
      have := congrArg (· / w) e
      simpa [Nat.mul_comm _ w, Nat.mul_add_div (Nat.zero_lt_of_lt ho), Nat.div_eq_of_lt ho, Nat.div_eq_of_lt hx] using this
    subst hn
    exact ⟨rfl, (Stepped.present_eq_iff plain x).mp (Nat.add_left_cancel e)⟩
  · rintro ⟨rfl, rfl⟩
    rw [← (Stepped.present_eq_iff plain x).mpr rfl]

theorem State.paByte_paPut_mere {s : State} {a n o : Nat} (ha : s.pt.home a = .mere n o) (ho : o < 2 ^ 21)
    (plain : (s.job.tile n).stepped.find o = none) (nc : Bool) (b : Byte) {x : Nat} (fits : s.regionFits (s.pt.home x)) :
    (s.paPut nc a b).paByte x = if s.pt.home x = s.pt.home a then b else s.paByte x := by
  have cell : ∀ m y, y < 2 ^ 21 → s.pt.home x = .mere m y →
      (n * 2 ^ 21 + o = m * 2 ^ 21 + (s.job.tile m).stepped.present y ↔ m = n ∧ y = o) := fun m y hy ex =>
    Stepped.cell_eq_iff ho (fun i => (s.job.tile i).stepped) plain (State.present_mere_lt hy (ex ▸ fits))
  have map := sameMap_onPt s (fun p => { p with mere := SMap.set p.mere (n * 2 ^ 21 + o) b }) rfl rfl rfl (fun _ => rfl)
    fun _ => rfl
  rw [State.paPut, ha]
  dsimp only
  split
  · rename_i hx
    rw [State.paByte_mere ((map.home x).trans hx), State.pt_onPt, map.tiles, SMap.get_set,
      if_pos ((cell n o ho hx).mpr ⟨rfl, rfl⟩)]
  · rename_i hx
    refine map.paByte x (fun k i _ => by rw [sector_congr map.key rfl rfl rfl rfl]) (fun m y hy ex => ?_) fun m y _ ex => ?_
    · rw [State.pt_onPt, State.paByte_mere ex]
      refine SMap.get_set_ne _ _ fun e => hx ?_
      obtain ⟨rfl, rfl⟩ := (cell m y hy ex).mp e
      exact ex
    · rw [State.pt_onPt, State.paByte_loc ex]

theorem State.paByte_paPut_loc {s : State} {a n o : Nat} (ha : s.pt.home a = .loc n o) (ho : o < 2 ^ 18)
    (plain : (s.coreAt n).stepped.find o = none) (nc : Bool) (b : Byte) {x : Nat} (fits : s.regionFits (s.pt.home x)) :
    (s.paPut nc a b).paByte x = if s.pt.home x = s.pt.home a then b else s.paByte x := by
  have cell : ∀ m y, y < 2 ^ 18 → s.pt.home x = .loc m y →
      (n * 2 ^ 18 + o = m * 2 ^ 18 + (s.coreAt m).stepped.present y ↔ m = n ∧ y = o) := fun m y hy ex =>
    Stepped.cell_eq_iff ho (fun i => (s.coreAt i).stepped) plain (State.present_loc_lt hy (ex ▸ fits))
  have map := sameMap_onPt s (fun p => { p with loc := SMap.set p.loc (n * 2 ^ 18 + o) b }) rfl rfl rfl (fun _ => rfl)
    fun _ => rfl
  rw [State.paPut, ha]
  dsimp only
  split
  · rename_i hx
    rw [State.paByte_loc ((map.home x).trans hx), State.pt_onPt, State.coreAt, map.cores, SMap.get_set]
    exact if_pos ((cell n o ho hx).mpr ⟨rfl, rfl⟩)
  · rename_i hx
    refine map.paByte x (fun k i _ => by rw [sector_congr map.key rfl rfl rfl rfl]) (fun m y _ ex => ?_) fun m y hy ex => ?_
    · rw [State.pt_onPt, State.paByte_mere ex]
    · rw [State.pt_onPt, State.paByte_loc ex]
      refine SMap.get_set_ne _ _ fun e => hx ?_
      obtain ⟨rfl, rfl⟩ := (cell m y hy ex).mp e
      exact ex

/-- A byte written at an address with a home outside every stepped region is read back at that home, and no other byte changes. -/
theorem State.paByte_paPut {s : State} {a : Nat} (populated : s.pt.home a ≠ .unpopulated)
    (plain : s.regionOf (s.pt.home a) = none) (nc : Bool) (b : Byte) {x : Nat} (fits : s.regionFits (s.pt.home x)) :
    (s.paPut nc a b).paByte x = if s.pt.home x = s.pt.home a then b else s.paByte x := by
  rcases e : s.slicePlace (s.pt.home a) with _ | ⟨k, i⟩
  · rcases State.slicePlace_none e with ⟨n, o, ho, ha⟩ | ⟨n, o, ho, ha⟩ | ha
    · exact State.paByte_paPut_mere ha ho (by rwa [ha] at plain) nc b fits
    · exact State.paByte_paPut_loc ha ho (by rwa [ha] at plain) nc b fits
    · exact absurd ha populated
  · obtain ⟨own, hi⟩ := State.slicePlace_bounds e
    obtain ⟨alloc, put⟩ := State.paPut_slice e nc b
    rw [put]
    exact (bytePut_slicePut alloc own hi b).paByte e x

/-- A byte written moves no byte. -/
theorem sameMap_paPut (s : State) (nc : Bool) (a : Nat) (b : Byte) : s.SameMap (s.paPut nc a b) := by
  rcases e : s.slicePlace (s.pt.home a) with _ | ⟨k, i⟩
  · rcases State.slicePlace_none e with ⟨_, _, _, ha⟩ | ⟨_, _, _, ha⟩ | ha <;> rw [State.paPut, ha]
    · exact sameMap_onPt s _ rfl rfl rfl (fun _ => rfl) fun _ => rfl
    · exact sameMap_onPt s _ rfl rfl rfl (fun _ => rfl) fun _ => rfl
    · exact .refl s
  · obtain ⟨own, hi⟩ := State.slicePlace_bounds e
    obtain ⟨alloc, put⟩ := State.paPut_slice e nc b
    rw [put]
    exact (bytePut_slicePut alloc own hi b).toSameMap

/-! ### Consecutive bytes written -/

theorem State.plainBytes.tail {s t : State} {a n : Nat} (h : s.plainBytes a (n + 1)) (map : s.SameMap t) :
    t.plainBytes (a + 1) n := by
  have next (i : Nat) : a + 1 + i = a + (i + 1) := by omega
  refine ⟨fun i hi => ?_, fun i j hi hj e => ?_⟩
  · rw [map.home, map.regionOf, next]
    exact h.1 (i + 1) (by omega)
  · rw [map.home, map.home, next, next] at e
    have := h.2 (i + 1) (j + 1) (by omega) (by omega) e
    omega

theorem State.plainBytes.home_ne {s : State} {a n : Nat} (h : s.plainBytes a (n + 1)) {i : Nat} (hi : i < n) :
    s.pt.home a ≠ s.pt.home (a + 1 + i) := fun e => by
  have := h.2 0 (i + 1) (by omega) (by omega) (by rw [Nat.add_zero, e]; congr 1; omega)
  omega

theorem State.regionFits_of_plain {s : State} {x : Home} (h : s.regionOf x = none) : s.regionFits x := by
  unfold State.regionFits
  rw [h]
  cases x <;> trivial

/-- Bytes written at consecutive plain addresses are read back, and every other byte is read as before. -/
theorem State.stored_paPuts (s : State) (nc : Bool) (a : Nat) (l : List Byte) (h : s.plainBytes a l.length) :
    s.stored (s.paPuts nc a l) a l.length fun i => (l[i]?).getD 0#8 := by
  induction l generalizing s a with
  | nil => exact ⟨fun i hi => absurd hi (Nat.not_lt_zero i), fun _ _ _ => rfl⟩
  | cons b r ih =>
    have map := sameMap_paPut s nc a b
    have next (i : Nat) : a + 1 + i = a + (i + 1) := by omega
    obtain ⟨populated, plain⟩ : s.pt.home a ≠ .unpopulated ∧ s.regionOf (s.pt.home a) = none := h.1 0 (Nat.zero_lt_succ _)
    obtain ⟨read, kept⟩ := ih (s.paPut nc a b) (a + 1) (h.tail map)
    have here {x : Nat} (fits : s.regionFits (s.pt.home x)) := State.paByte_paPut populated plain nc b fits
    have rest {x : Nat} (hx : ∀ i, i < r.length → s.pt.home x ≠ s.pt.home (a + 1 + i)) (fits : s.regionFits (s.pt.home x)) :
        (s.paPuts nc a (b :: r)).paByte x = (s.paPut nc a b).paByte x :=
      kept x (fun i hi => by rw [map.home, map.home]; exact hx i hi) (by rw [map.home]; exact map.regionFits fits)
    refine ⟨fun i hi => ?_, fun x hx fits => ?_⟩
    · cases i with
      | zero =>
        have fits := State.regionFits_of_plain plain
        exact (rest (fun i hi => h.home_ne hi) fits).trans ((here fits).trans (if_pos rfl))
      | succ i =>
        rw [← next]
        exact read i (Nat.lt_of_succ_lt_succ hi)
    · rw [rest (fun i hi => by rw [next]; exact hx (i + 1) (Nat.succ_lt_succ hi)) fits]
      exact (here fits).trans (if_neg (hx 0 (Nat.zero_lt_succ _)))

/-- What a store leaves, it leaves for every reader that sees the same. -/
theorem State.stored.sameRead {s t u : State} {a n : Nat} {l : Nat → Byte} (h : s.stored t a n l) (k : t.SameRead u) :
    s.stored u a n l :=
  ⟨fun i hi => (k.paByte _).trans (h.1 i hi), fun x hx fits => (k.paByte x).trans (h.2 x hx fits)⟩

end Sys2Proof.Machine
end

section
/-!
SUPPORT. The host port: what each write of a register of BAR0 and each access of a host window does (13 R366-R371, R380).
-/

namespace Sys2Proof.Machine

/-! ### Queues and the status page -/

theorem Part.queue_onQueue (p : Part) (q : Nat) (f : Queue → Queue) (r : Nat) :
    (p.onQueue q f).queue r = if q = r then f (p.queue q) else p.queue r := SMap.get_upd _ _ _ _

@[simp] theorem Part.queue_onQueue_self (p : Part) (q : Nat) (f : Queue → Queue) : (p.onQueue q f).queue q = f (p.queue q) :=
  SMap.get_upd_self _ _ _

@[simp] theorem State.hostPuts_pt (a : Nat) (l : List Byte) (s : State) : (s.hostPuts a l).pt = s.pt := rfl
@[simp] theorem State.pageTop_pt (s : State) : s.pageTop.pt = s.pt := rfl

/-- Records written to the status page leave what is held, and what the host has seen. -/
theorem State.flushDone_pt (n : Nat) (s : State) :
    (State.flushDone n s).pt.held = s.pt.held ∧ (State.flushDone n s).pt.hseen = s.pt.hseen := by
  induction n generalizing s with
  | zero => exact ⟨rfl, rfl⟩
  | succ n ih =>
    unfold State.flushDone
    dsimp only
    split
    · split
      · refine (ih _).imp (fun h => h.trans ?_) fun h => h.trans ?_ <;>
          rw [State.pageTop_pt, State.pt_onPt, State.hostPuts_pt]
      · exact ⟨rfl, rfl⟩
    · exact ⟨rfl, rfl⟩

@[simp] theorem State.flush_held (s : State) : s.flush.pt.held = s.pt.held := (State.flushDone_pt _ s).1
@[simp] theorem State.flush_hseen (s : State) : s.flush.pt.hseen = s.pt.hseen := (State.flushDone_pt _ s).2

/-- What the host has seen is no longer held (13 R371). -/
theorem State.seen_held (v : Nat) (s : State) : (s.seen v).pt.held = s.pt.held.filter fun c => decide (v < c.cseq) := by
  rw [State.seen, State.flush_held, State.pt_onPt]
theorem State.seen_hseen (v : Nat) (s : State) : (s.seen v).pt.hseen = BitVec.ofNat 64 v := by
  rw [State.seen, State.flush_hseen, State.pt_onPt]

/-- Records written again to host memory leave the partition in focus as it was. -/
theorem State.foldl_hostPuts_pt {α : Type} (at_ : State → α → Nat) (bytes : α → List Byte) (l : List α) (s : State) :
    (l.foldl (fun s c => s.hostPuts (at_ s c) (bytes c)) s).pt = s.pt := by
  induction l generalizing s with
  | nil => rfl
  | cons c r ih => rw [List.foldl_cons, ih, State.hostPuts_pt]

/-! ### The registers of BAR0 (13 R368-R371) -/

/-- The doorbell of a queue in RUN: the tail is taken, and reading resumes. -/
theorem State.doorbell_run {s : State} {q : Nat} (v : Word) (ready : s.ready = true) (hq : q ≤ 4) (run : s.pt.tdi = .run) :
    s.doorbell q v = s.onPt fun p => p.onQueue q fun x =>
      { x with tail := v, gap := false, head := Nat.min x.nextSeq.toNat v.toNat } := by
  simp [State.doorbell, ready, hq, run]

/-- A value of HSEEN above CSEQ sets the error bit alone. -/
theorem State.hseenReg_above {s : State} {v : Word} (ready : s.ready = true) (above : s.pt.cseq.toNat < v.toNat) :
    s.hseenReg v = s.onPt fun p => { p with herr := true } := by
  simp [State.hseenReg, ready, above]

theorem State.hseenReg_seen {s : State} {v : Word} (ready : s.ready = true) (within : v.toNat ≤ s.pt.cseq.toNat) :
    s.hseenReg v = s.seen v.toNat := by
  simp [State.hseenReg, ready, Nat.not_lt.mpr within]

/-- A write of REPLAY writes records to host memory, and takes its value. -/
theorem State.replayReg_pt {s : State} (v : Word) (ready : s.ready = true) :
    (s.replayReg v).pt = { s.pt with replay := v } := by
  have : (!s.ready) = false := by rw [ready]; rfl
  rw [State.replayReg, this, if_neg Bool.false_ne_true]
  dsimp only
  rw [State.foldl_hostPuts_pt, State.pt_onPt]

theorem execBar0RegisterWrite_tail {s : State} {q : Nat} (v : Word) (ready : s.ready = true) (hq : q ≤ 4) :
    execBar0RegisterWrite (0x20 * q + 0x10) v s = .next (s.doorbell q v) := by
  have off : 0x20 * q + 0x10 < 0xA0 := by omega
  have which : (0x20 * q + 0x10) / 0x20 = q := by omega
  have reg : (0x20 * q + 0x10) % 0x20 = 0x10 := by omega
  simp [execBar0RegisterWrite, ready, off, which, reg]

theorem execBar0RegisterWrite_base {s : State} {q : Nat} (v : Word) (ready : s.ready = true) (hq : q ≤ 4)
    (idle : s.pt.busy q = false) :
    execBar0RegisterWrite (0x20 * q) v s = .next (s.onPt fun p => p.onQueue q fun x => { x with base := v }) := by
  have off : 0x20 * q < 0xA0 := by omega
  have which : 0x20 * q / 0x20 = q := by omega
  have reg : 0x20 * q % 0x20 = 0 := by omega
  simp [execBar0RegisterWrite, ready, off, which, reg, idle]

theorem Part.bar0_base {p : Part} {q : Nat} (hq : q ≤ 4) : p.bar0 (0x20 * q) = (p.queue q).base := by
  have off : 0x20 * q < 0xA0 := by omega
  have which : 0x20 * q / 0x20 = q := by omega
  have reg : 0x20 * q % 0x20 = 0 := by omega
  simp [Part.bar0, off, which, reg]

theorem Part.bar0_statbase (p : Part) : p.bar0 0x100 = p.statbase := rfl

theorem execBar0RegisterWrite_statbase {s : State} (v : Word) (ready : s.ready = true) :
    execBar0RegisterWrite 0x100 v s = .next (s.onPt fun p => { p with statbase := v }) := by
  simp [execBar0RegisterWrite, ready]

/-! ### Bytes -/

/-- An update of the partition in focus that moves no byte and keeps its memories leaves every byte as it was. -/
theorem bytesKept_onPt (s : State) (f : Part → Part) (map : s.SameMap (s.onPt f)) (mere : (f s.pt).mere = s.pt.mere)
    (loc : (f s.pt).loc = s.pt.loc) (loft : (f s.pt).loft = s.pt.loft) : s.bytesKept (s.onPt f) := by
  refine ⟨fun h => ?_, fun a => by rw [State.pt_onPt, loft], fun _ => rfl⟩
  cases h with
  | hbm k => rfl
  | far a =>
    have := sector_congr map.key rfl rfl rfl rfl (farSector s.focus.part (a / 64))
    exact congrArg (fun v => sectorByte v (a % 64)) this
  | mere n o => simp only [State.homeByte, map.tiles, State.pt_onPt, mere]
  | loc n o => simp only [State.homeByte, State.coreAt, map.cores, State.pt_onPt, loc]
  | unpopulated => rfl

/-! ### Host windows (13 R367) -/

theorem Part.granted_iff (p : Part) (w : Bool) (a n : Nat) :
    p.granted w a n = true ↔ ∃ (i : Nat) (g : Grant), i < 8 ∧ SMap.get p.grants i = some g ∧ g.after ≤ p.cseq.toNat
      ∧ g.base ≤ a ∧ a + n ≤ g.base + g.len ∧ (if w = true then g.write = true else g.read = true) := by
  rw [Part.granted, List.any_eq_true]
  constructor
  · rintro ⟨i, hi, h⟩
    cases e : SMap.get p.grants i with
    | none => rw [e] at h; cases h
    | some g =>
      rw [e] at h
      refine ⟨i, g, List.mem_range.mp hi, e, ?_⟩
      cases w <;> simpa [and_assoc] using h
  · rintro ⟨i, g, hi, e, h⟩
    refine ⟨i, List.mem_range.mpr hi, ?_⟩
    rw [e]
    cases w <;> simpa [and_assoc] using h

theorem State.bar2Ok_iff (s : State) (w : Bool) (off n : Nat) :
    s.bar2Ok w off n = true ↔ s.link = true ∧ s.pt.tdi = .run ∧ off + n ≤ 2 ^ 36 ∧ off + n ≤ s.pt.hbmSize
      ∧ s.pt.granted w off n = true := by
  simp only [State.bar2Ok, Bool.and_eq_true, beq_iff_eq, decide_eq_true_eq, and_assoc]

theorem execBar2Read_served {s : State} {off len : Nat} (ok : s.bar2Ok false off len = true)
    (clean : ∀ i, i < len → s.pt.poisoned (s.pt.home (off + i)) = false) :
    execBar2Read off len s = .next { s with out := s.out ++ [.bar2 (some (s.paBytes off len))] } := by
  have bad : ((List.range len).any fun i => s.pt.poisoned (s.pt.home (off + i))) = false := by
    rw [List.any_eq_false]
    exact fun i hi => by rw [clean i (List.mem_range.mp hi)]; exact Bool.false_ne_true
  simp only [execBar2Read, ok, bad, Bool.not_false, Bool.and_self, if_true]

theorem execBar2Read_refused {s : State} {off len : Nat} (no : s.bar2Ok false off len = false) :
    execBar2Read off len s = .next { s with out := s.out ++ [.bar2 none] } := by
  simp only [execBar2Read, no, Bool.false_and, Bool.false_eq_true, if_false]

theorem execBar2Write_served {s : State} {off : Nat} {data : List Byte} (ok : s.bar2Ok true off data.length = true) :
    execBar2Write off data s = .next ((s.paPuts false off data).unpoison off data.length) := by
  rw [execBar2Write, if_pos ok]

theorem execBar2Write_dropped {s : State} {off : Nat} {data : List Byte} (no : s.bar2Ok true off data.length = false) :
    execBar2Write off data s = .next s := by
  rw [execBar2Write, no, if_neg Bool.false_ne_true]

end Sys2Proof.Machine
end

section
/-!
PROOF. Host registers and host windows: each clause is what the lemmas above say of its register or window.
-/

namespace Sys2Proof.Machine

/-- A queue's doorbell in RUN, by either way of writing it. -/
theorem qtail_taken {s : State} {q : Nat} (v : Word) (ready : s.ready = true) (hq : q ≤ 4) (run : s.pt.tdi = .run) :
    ∃ t : State, exec (.qtailWrite q v) s = .next t ∧ exec (.bar0RegisterWrite (0x20 * q + 0x10) v) s = .next t
      ∧ (t.pt.queue q).tail = v ∧ (t.pt.queue q).gap = false ∧ (t.pt.queue q).nextSeq = (s.pt.queue q).nextSeq
      ∧ (∀ r : Nat, r ≠ q → t.pt.queue r = s.pt.queue r) ∧ s.bytesKept t := by
  refine ⟨s.doorbell q v, rfl, execBar0RegisterWrite_tail v ready hq, ?_⟩
  rw [State.doorbell_run v ready hq run, State.pt_onPt, Part.queue_onQueue_self]
  refine ⟨rfl, rfl, rfl, fun r hr => ?_, ?_⟩
  · rw [Part.queue_onQueue, if_neg (Ne.symm hr)]
  · exact bytesKept_onPt s _ (sameMap_onPt s _ rfl rfl rfl (fun _ => rfl) fun _ => rfl) rfl rfl rfl

theorem hostRegisters : Claims.HostRegisters := by
  intro s v ready
  refine ⟨fun q hq run => qtail_taken v ready hq run, fun above => ?_, fun within => ?_, ?_, ?_, fun q hq idle => ?_⟩
  · refine ⟨s.hseenReg v, rfl, ?_⟩
    rw [State.hseenReg_above ready above, State.pt_onPt]
    exact ⟨rfl, rfl, rfl⟩
  · refine ⟨s.hseenReg v, rfl, ?_⟩
    rw [State.hseenReg_seen ready within]
    refine ⟨?_, fun c hc => ?_⟩
    · rw [State.seen_hseen, BitVec.ofNat_toNat, BitVec.setWidth_eq]
    · rw [State.seen_held] at hc
      simpa using (List.mem_filter.mp hc).2
  · refine ⟨s.replayReg v, rfl, ?_⟩
    rw [State.replayReg_pt v ready]
    exact ⟨rfl, rfl, rfl⟩
  · refine ⟨execBar0RegisterWrite_statbase v ready, ?_⟩
    rw [State.pt_onPt, Part.bar0_statbase]
  · refine ⟨execBar0RegisterWrite_base v ready hq idle, ?_⟩
    rw [State.pt_onPt, Part.bar0_base hq, Part.queue_onQueue_self]

theorem hostWindows : Claims.HostWindows := by
  refine ⟨fun s off len ok clean => execBar2Read_served ok clean, fun s off len no => execBar2Read_refused no,
    fun s off data ok plain => ?_, fun s off data no => execBar2Write_dropped no, fun s w off n => ?_⟩
  · exact ⟨_, execBar2Write_served ok, (State.stored_paPuts s false off data plain).sameRead (sameRead_unpoison _ _ _)⟩
  · rw [State.bar2Ok_iff, Part.granted_iff]

/-- Settles O37: the registers take what is written as `hostRegisters` says, and the windows open as `hostWindows` says. -/
theorem hostPort : Obligations.HostPort := ⟨hostRegisters, hostWindows⟩

end Sys2Proof.Machine
end

section
/-!
SUPPORT. Every row of the table read from its own body, and its formats present (02 R65-R69): the lemmas of each instruction, taken
together in the order of the table.
-/

namespace Sys2Proof.Laws.Encoding

theorem statement (i : Instr) : Statement i :=
  Instr.casesOn i
    nop add addi sub mul mulh mulhu div divu rem remu and andi or ori xor xori andn shl shli shr shri sra srai rol min max
    minu maxu clz ctz popc extr ins sel cmp cmpi li lih adda addai tagset tagget pdiff fadd fsub fmul fma fmin fmax fcmp fcvt
    fclass dadd dsub dmul dfma dmin dmax dand dor dxor dshl dshr dcmp dsel dcvt dbcast dext dins dshuf dscan dred dhist diota
    ld st ldf stf ldd std lddf stdf amo cas pref discard flush fence br jmp jmpr call start exit yield ctxq send recv waitm
    rrsv rpub rwait radv reos rqry smode soff copy gather scatter rcopy cretry cskip cabort step handoff take post trap eret
    sysr sysw resume halt tlbi dbgbrk mill millg millx mzero mdrain mseta msetb midx vadd vsub vmul vfma vmin vmax vand vor
    vxor vshl vshr vsra vcmp vsel vcvt vpack vunpk vexp2 vlog2 vrcp vrsq vred vscan vthr vbis vcnt vperm vrot vbc vmov vli vld
    vst sld sldl sst sgth ssct sxl scnt smeta sset window pread nfset nfclr loopset tstep tmark tsync tend twait
    linkBeatPresent metadataPairArrival windowClose postArrival holdArrival stepGroupComplete stepTakesEffect
    stepCompletionWake tsyncMarkerArrival accessPerformed pageWalk messageArrival copyElement copyCompletion streamRefill
    trapDelivery upcall servicePath faultCompletionNotice preempt epochAnnounce switchSwapComplete advisorEpochEnd patrolScrub
    bridgeFlitRetry causewayRetry causewayRetryTimeout ueWorkItem ueIncoming qtailWrite packetAccept hseenWrite replay
    bar0RegisterWrite bar2Read bar2Write tdispRequest spdmRequest claim grant grantRevoke debugok debugoff ldataRead
    ldataWrite srecRead bootStage ueWorkCompletion checkpointStreamComplete launch signal attach detach arm disarm stop
    release dump poke trace logcopy event checkpointSave checkpointRestore quiesceEnter quiesceLeave reshape portring peer
    mregion cwrite vecResultWrite ssetFillUnit millReadyCycle staticBurstPerform staticReadLanding holdFrameTest
    tsyncMarkerTimeout haltTreeArrival partialWorkReport hangWatchdog icacheFillComplete contextSwitch forcedSwitch
    tlbAcknowledge pendingQueueReturn copyFault bellSweep launchEpoch loadingComplete quantumExpiry switchDrainComplete
    traceSample bridgeFlitTimeout causewayLockLoss ideIntegrityFailure quiesceLimit coldReset hostPortReset powerLoss
    thermalTrip millSweepRead mdrainRowWrite staticBurstSlot linkBeatDeparture chainMemberLeft restoreAuthorisation

end Sys2Proof.Laws.Encoding

namespace Sys2Proof.Laws.Formats

theorem statement (i : Instr) : Statement i :=
  Instr.casesOn i
    nop add addi sub mul mulh mulhu div divu rem remu and andi or ori xor xori andn shl shli shr shri sra srai rol min max
    minu maxu clz ctz popc extr ins sel cmp cmpi li lih adda addai tagset tagget pdiff fadd fsub fmul fma fmin fmax fcmp fcvt
    fclass dadd dsub dmul dfma dmin dmax dand dor dxor dshl dshr dcmp dsel dcvt dbcast dext dins dshuf dscan dred dhist diota
    ld st ldf stf ldd std lddf stdf amo cas pref discard flush fence br jmp jmpr call start exit yield ctxq send recv waitm
    rrsv rpub rwait radv reos rqry smode soff copy gather scatter rcopy cretry cskip cabort step handoff take post trap eret
    sysr sysw resume halt tlbi dbgbrk mill millg millx mzero mdrain mseta msetb midx vadd vsub vmul vfma vmin vmax vand vor
    vxor vshl vshr vsra vcmp vsel vcvt vpack vunpk vexp2 vlog2 vrcp vrsq vred vscan vthr vbis vcnt vperm vrot vbc vmov vli vld
    vst sld sldl sst sgth ssct sxl scnt smeta sset window pread nfset nfclr loopset tstep tmark tsync tend twait
    linkBeatPresent metadataPairArrival windowClose postArrival holdArrival stepGroupComplete stepTakesEffect
    stepCompletionWake tsyncMarkerArrival accessPerformed pageWalk messageArrival copyElement copyCompletion streamRefill
    trapDelivery upcall servicePath faultCompletionNotice preempt epochAnnounce switchSwapComplete advisorEpochEnd patrolScrub
    bridgeFlitRetry causewayRetry causewayRetryTimeout ueWorkItem ueIncoming qtailWrite packetAccept hseenWrite replay
    bar0RegisterWrite bar2Read bar2Write tdispRequest spdmRequest claim grant grantRevoke debugok debugoff ldataRead
    ldataWrite srecRead bootStage ueWorkCompletion checkpointStreamComplete launch signal attach detach arm disarm stop
    release dump poke trace logcopy event checkpointSave checkpointRestore quiesceEnter quiesceLeave reshape portring peer
    mregion cwrite vecResultWrite ssetFillUnit millReadyCycle staticBurstPerform staticReadLanding holdFrameTest
    tsyncMarkerTimeout haltTreeArrival partialWorkReport hangWatchdog icacheFillComplete contextSwitch forcedSwitch
    tlbAcknowledge pendingQueueReturn copyFault bellSweep launchEpoch loadingComplete quantumExpiry switchDrainComplete
    traceSample bridgeFlitTimeout causewayLockLoss ideIntegrityFailure quiesceLimit coldReset hostPortReset powerLoss
    thermalTrip millSweepRead mdrainRowWrite staticBurstSlot linkBeatDeparture chainMemberLeft restoreAuthorisation

end Sys2Proof.Laws.Formats
end

section
/-!
PROOF. Encoding and decoding answer each other (02 R61-R69): a word is its three fields, and what its opcode and body read as is
what encodes to them.
-/

namespace Sys2Proof

/-- A word is its three fields (02 R61). -/
theorem word_of_fields (w : Word) : (wordDly w ++ wordOpc w ++ wordBody w : BitVec 64) = w := by
  have top : wordDly w ++ wordOpc w = w.extractLsb' 46 18 := BitVec.extractLsb'_append_extractLsb'_eq_extractLsb' rfl
  rw [top]
  exact (BitVec.extractLsb'_append_extractLsb'_eq_extractLsb' rfl).trans BitVec.extractLsb'_eq_self

/-- Every group runs on its own engine (02 R67). -/
theorem legalOn_engineOf (w : Word) : legalOn ((wordOpc w).toNat / 128) ((wordOpc w).toNat % 128) (engineOf w) = true := by
  unfold engineOf legalOn
  split <;> simp_all

/-- A group assigns fewer opcodes than its reserved ones leave (02 R66). -/
theorem groupSize_lt (g : Nat) : groupSize g < 0x60 := by
  unfold groupSize
  split <;> decide

/-- What `readWord` answers is the well-formed instruction that the opcode and the body encode (02 R65). -/
theorem readWord_eq_some {o : BitVec 10} {x : Body} {i : Instr} (h : readWord o x = some i) :
    i.wf = true ∧ i.opcode = some o ∧ i.body = x := by
  obtain ⟨-, ok⟩ := Option.filter_eq_some_iff.mp h
  simpa [and_assoc] using ok

/-- The opcode and the body of a well-formed instruction read as that instruction. -/
theorem readWord_body {i : Instr} {o : BitVec 10} (wf : i.wf = true) (ho : i.opcode = some o) : readWord o i.body = some i := by
  rw [readWord, Laws.Encoding.statement i wf o ho, Option.filter_some, wf, ho]
  simp

/-- A word whose opcode is legal and assigned, whose formats are present and whose DLY the engine admits is read by
`readWord` (02 R69). -/
theorem decodeOn_read {eng : Nat} {w : Word}
    (legal : legalOn ((wordOpc w).toNat / 128) ((wordOpc w).toNat % 128) eng = true)
    (assigned : (wordOpc w).toNat % 128 < groupSize ((wordOpc w).toNat / 128))
    (formats : ((fmtFields ((wordOpc w).toNat / 128) ((wordOpc w).toNat % 128) (wordBody w)).any
      fun c => decide (24 ≤ c.toNat)) = false)
    (dly : eng = 0 → wordDly w = 0#8) :
    decodeOn eng w = (readWord (wordOpc w) (wordBody w)).elim (.error .illegal)
      fun i => .ok { dly := wordDly w, instr := i } := by
  have present : ¬0x60 ≤ (wordOpc w).toNat % 128 := by have := groupSize_lt ((wordOpc w).toNat / 128); omega
  have noDly : ¬(eng = 0 ∧ wordDly w ≠ 0#8) := fun h => h.2 (dly h.1)
  simp only [decodeOn, legal, present, Nat.not_le.mpr assigned, formats, noDly, Bool.not_true, Bool.false_eq_true, if_false]
  cases readWord (wordOpc w) (wordBody w)
  · rfl
  · rfl

/-- A word that decodes on an engine is read by `readWord`. -/
theorem readWord_of_decodeOn {eng : Nat} {w : Word} {x : Slot} (h : decodeOn eng w = .ok x) :
    x.dly = wordDly w ∧ readWord (wordOpc w) (wordBody w) = some x.instr := by
  simp only [decodeOn] at h
  repeat (split at h; · cases h)
  split at h
  · rename_i i hi
    cases h
    exact ⟨rfl, hi⟩
  · cases h

theorem encode_eq {i : Instr} {o : BitVec 10} (dly : BitVec 8) (ho : i.opcode = some o) :
    encode dly i = some (dly ++ o ++ i.body) := by
  rw [encode, ho]
  rfl

/-- Settles O56: the word's fields read back, its opcode is assigned and its formats are present, and each instruction's body
reads as that instruction. -/
theorem roundTrip : Obligations.RoundTrip := by
  intro dly i w wf he hd
  obtain ⟨o, ho, rfl⟩ := Option.map_eq_some_iff.mp he
  obtain ⟨formats, assigned⟩ := Laws.Formats.statement i wf o ho
  have legal := legalOn_engineOf (dly ++ o ++ i.body)
  have read := decodeOn_read (w := dly ++ o ++ i.body) legal
  rw [wordDly_append, wordOpc_append, wordBody_append] at read
  rw [decode, read assigned formats hd, readWord_body wf ho]
  rfl

/-- Settles O57: what decodes was read from its word, whose three fields are then those that the encoder lays out. -/
theorem encodeOfDecode : Obligations.EncodeOfDecode := by
  intro w x h
  obtain ⟨hd, hr⟩ := readWord_of_decodeOn h
  obtain ⟨wf, ho, hb⟩ := readWord_eq_some hr
  exact ⟨by rw [encode_eq _ ho, hd, hb, word_of_fields], wf⟩

/-- Settles O55: each word is evaluated. -/
theorem decodeWords : Obligations.DecodeWords := ⟨rfl, rfl, rfl, rfl, rfl, rfl, rfl, rfl⟩

end Sys2Proof
end

section
/-!
PROOF. A step runs what the word at its program counter, or at its chain, decodes to (02 R54-R58), and a word that is no
instruction is refused by the first row of 02 R69's order.
-/

namespace Sys2Proof

/-- What `readWord` answers for a word is what encodes to it with the word's own delay. -/
theorem encode_of_readWord {w : Word} {i : Instr} (h : readWord (wordOpc w) (wordBody w) = some i) :
    i.wf = true ∧ encode (wordDly w) i = some w := by
  obtain ⟨wf, ho, hb⟩ := readWord_eq_some h
  exact ⟨wf, by rw [encode_eq _ ho, hb, word_of_fields]⟩

/-! ### The rows of 02 R69, in order -/

section
variable {eng : Nat} {w : Word}

theorem decodeOn_wrongEngine (h : legalOn ((wordOpc w).toNat / 128) ((wordOpc w).toNat % 128) eng = false) :
    decodeOn eng w = .error .wrongEngine := by
  simp only [decodeOn, h, Bool.not_false, if_true]

variable (legal : legalOn ((wordOpc w).toNat / 128) ((wordOpc w).toNat % 128) eng = true)
include legal

theorem decodeOn_extension (h : 0x60 ≤ (wordOpc w).toNat % 128) : decodeOn eng w = .error .absent := by
  simp only [decodeOn, legal, h, Bool.not_true, Bool.false_eq_true, if_false, if_true]

theorem decodeOn_unassigned (h : groupSize ((wordOpc w).toNat / 128) ≤ (wordOpc w).toNat % 128)
    (small : (wordOpc w).toNat % 128 < 0x60) : decodeOn eng w = .error .unassigned := by
  simp only [decodeOn, legal, Nat.not_le.mpr small, h, Bool.not_true, Bool.false_eq_true, if_false, if_true]

variable (assigned : (wordOpc w).toNat % 128 < groupSize ((wordOpc w).toNat / 128))
include assigned

theorem decodeOn_format (h : ((fmtFields ((wordOpc w).toNat / 128) ((wordOpc w).toNat % 128) (wordBody w)).any
    fun c => decide (24 ≤ c.toNat)) = true) : decodeOn eng w = .error .absent := by
  have small : ¬0x60 ≤ (wordOpc w).toNat % 128 := by have := groupSize_lt ((wordOpc w).toNat / 128); omega
  simp only [decodeOn, legal, small, Nat.not_le.mpr assigned, h, Bool.not_true, Bool.false_eq_true, if_false, if_true]

variable (formats : ((fmtFields ((wordOpc w).toNat / 128) ((wordOpc w).toNat % 128) (wordBody w)).any
  fun c => decide (24 ≤ c.toNat)) = false)
include formats

theorem decodeOn_delayed (h : eng = 0 ∧ wordDly w ≠ 0#8) : decodeOn eng w = .error .illegal := by
  have small : ¬0x60 ≤ (wordOpc w).toNat % 128 := by have := groupSize_lt ((wordOpc w).toNat / 128); omega
  simp only [decodeOn, legal, small, Nat.not_le.mpr assigned, formats, Bool.not_true, Bool.false_eq_true, if_false]
  rw [if_pos h]

/-- A word that no well-formed instruction without delay encodes to is an illegal encoding on the dynamic plane. -/
theorem decodeOn_unencoded (dynamic : eng = 0) (h : ∀ i : Instr, i.wf = true → encode 0#8 i ≠ some w) :
    decodeOn eng w = .error .illegal := by
  by_cases dly : wordDly w = 0#8
  · rw [decodeOn_read legal assigned formats fun _ => dly]
    cases hr : readWord (wordOpc w) (wordBody w) with
    | none => rfl
    | some i =>
      obtain ⟨wf, he⟩ := encode_of_readWord hr
      exact absurd (dly ▸ he) (h i wf)
  · exact decodeOn_delayed legal assigned formats ⟨dynamic, dly⟩

end

/-! ### The dynamic plane's groups -/

theorem legalOn_dynamic (g k : Nat) : legalOn g k 0 = decide (g < 4) :=
  match g with
  | 0 | 1 | 2 | 3 | 4 | 5 | 6 | _ + 7 => rfl

theorem groupSize_dynamic {g : Nat} (h : g < 4) :
    groupSize g = if g = 0 then 44 else if g = 1 then 31 else if g = 2 then 14 else 38 :=
  match g, h with
  | 0, _ | 1, _ | 2, _ | 3, _ => rfl

/-- Of the dynamic groups only group 1 has format-code fields (02 R64). -/
theorem fmtFields_dynamic {g : Nat} (h : g < 4) (ne : g ≠ 1) (k : Nat) (x : Body) : fmtFields g k x = [] :=
  match g, h, ne with
  | 0, _, _ | 2, _, _ | 3, _, _ => rfl

/-- Every lane operation of group 1 has its lane format in bits 19:15 (02 R62). -/
theorem lane_mem_fmtFields {k : Nat} (h : 9 ≤ k) (x : Body) : x.f 15 5 ∈ fmtFields 1 k x := by
  have h7 : k ≠ 7 := by omega
  have h8 : k ≠ 8 := by omega
  by_cases h22 : k = 22
  · simp [fmtFields, h22]
  · simp [fmtFields, h7, h8, h22, h]

theorem wordBody_lane (w : Word) : (wordBody w).f 15 5 = w.extractLsb' 15 5 := by
  simp [wordBody, Body.f, BitVec.extractLsb'_extractLsb'_of_le]

/-! ### What a refused word raises -/

namespace Machine

theorem pcOf_slot7 (pc : BitVec 29) : pcOf (pcLine pc) 7 = pc.extractLsb' 3 26 ++ 7#3 := by
  apply BitVec.eq_of_toNat_eq
  have := (pc.extractLsb' 3 26).isLt
  rw [pcOf, pcLine, BitVec.toNat_ofNat, BitVec.toNat_append, ← Nat.shiftLeft_add_eq_or_of_lt (by decide), Nat.shiftLeft_eq]
  simp only [BitVec.toNat_ofNat]
  omega

theorem decodeFaults : Claims.DecodeFaults := by
  refine ⟨fun s w => ⟨rfl, rfl, rfl, rfl, by rw [State.badLine, pcOf_slot7]⟩, fun w => ?_⟩
  dsimp only
  rw [show (w.extractLsb' 46 10) = wordOpc w from rfl, show w.extractLsb' 56 8 = wordDly w from rfl, ← wordBody_lane]
  have legal := legalOn_dynamic ((wordOpc w).toNat / 128) ((wordOpc w).toNat % 128)
  by_cases group : (wordOpc w).toNat / 128 < 4
  · rw [← groupSize_dynamic group]
    rw [decide_eq_true group] at legal
    have noFormat (ne : (wordOpc w).toNat / 128 ≠ 1) := congrArg
      (fun l : List (BitVec 5) => l.any fun c => decide (24 ≤ c.toNat))
      (fmtFields_dynamic group ne ((wordOpc w).toNat % 128) (wordBody w))
    refine ⟨fun h => absurd group (Nat.not_lt.mpr h), fun _ => decodeOn_extension legal, fun _ => decodeOn_unassigned legal,
      fun one lane assigned code => ?_, fun _ ne assigned dly => decodeOn_delayed legal assigned (noFormat ne) ⟨rfl, dly⟩,
      fun _ ne assigned => decodeOn_unencoded legal assigned (noFormat ne) rfl, fun one assigned none => ?_⟩
    · refine decodeOn_format legal assigned (List.any_eq_true.mpr ⟨_, ?_, decide_eq_true code⟩)
      rw [one]
      exact lane_mem_fmtFields lane _
    · cases formats : (fmtFields ((wordOpc w).toNat / 128) ((wordOpc w).toNat % 128) (wordBody w)).any fun c =>
        decide (24 ≤ c.toNat) with
      | true => exact .inl (decodeOn_format legal assigned formats)
      | false => exact .inr (decodeOn_unencoded legal assigned formats rfl none)
  · rw [decide_eq_false group] at legal
    refine ⟨fun _ => decodeOn_wrongEngine legal, ?_, ?_, ?_, ?_, ?_, ?_⟩ <;> intro h <;> omega

/-! ### The issue of a context -/

/-- Every instruction goes on, whatever its operands and the state. -/
theorem exec_next (i : Instr) (s : State) : ∃ t : State, exec i s = .next t := by
  cases i
  case faultCompletionNotice tag =>
    rw [exec_faultCompletionNotice, execFaultCompletionNotice]
    split
    · exact ⟨_, rfl⟩
    · exact ⟨_, rfl⟩
  all_goals exact ⟨_, rfl⟩

/-- The issue of a core's running context is the context's own. -/
theorem issueCtx_running {s : State} {c k : Nat} (runs : s.coreRuns c = true) (hk : k < 11)
    (ready : (s.ctxAt c k).runnable = true) (running : (s.coreAt c).running = some k) : s.issueCtx c k = s.issueFor c k := by
  change ((s.coreAt c).ctx k).runnable = true at ready
  simp [State.issueCtx, runs, hk, ready, running]

/-- A context outside the system handler, with no access to perform and no copy fault held, issues its instruction. -/
theorem issueFor_instr {s : State} {c k : Nat} (sys : (s.ctxAt c k).sys = none)
    (wait : ∀ q : Pend, (s.ctxAt c k).wait ≠ .pend q) (held : (s.ctxAt c k).held = []) :
    s.issueFor c k = ({ s with focus := { s.focus with core := c, ctx := k } } : State).issueAt := by
  unfold State.issueFor
  dsimp only
  split
  · rename_i handler
    cases sys.symm.trans handler
  · rename_i pend
    exact absurd pend (wait _)
  · split
    · rename_i fault
      cases held.symm.trans fault
    · rfl

theorem issueAt_badLine {s : State} (h : pcOk s.pt s.cx = false) : s.issueAt = .next s.badLine := by
  simp [State.issueAt, h]

section
variable {s : State} {l : Line} (ok : pcOk s.pt s.cx = true) (fetched : pcLine s.cx.pc ∈ s.cr.icache)
  (line : s.pt.line (pcLine s.cx.pc) = some l)
include ok fetched line

theorem issueAt_decoded {x : Slot} (h : decodeOn 0 (l.word (pcSlot s.cx.pc)) = .ok x) :
    s.issueAt = countIssued s.focus.core s.focus.ctx (exec x.instr (s.onCr fun c => { c with count := c.count + 1 })) := by
  simp only [State.issueAt, ok, List.contains_iff_mem.mpr fetched, line, h, Bool.not_true, Bool.false_eq_true, if_false]

theorem issueAt_refused {e : DecodeError} (h : decodeOn 0 (l.word (pcSlot s.cx.pc)) = .error e) :
    s.issueAt = countIssued s.focus.core s.focus.ctx
      (.next ((s.onCr fun c => { c with count := c.count + 1 }).decodeFault e (l.word (pcSlot s.cx.pc)))) := by
  simp only [State.issueAt, ok, List.contains_iff_mem.mpr fetched, line, h, Bool.not_true, Bool.false_eq_true, if_false]

end

theorem stepRunsContextInstruction : Claims.StepRunsInstruction := by
  refine ⟨fun s p c k rest l => ?_, fun s f i rest power entry => step_op entry power, fun s power idle => step_idle idle power⟩
  intro t u power entry runs hk ready running sys wait held
  have issue : step s = t.issueAt := by
    rw [step_entry entry power]
    exact (issueCtx_running (s := { s with agenda := rest, focus := { s.focus with part := p } }) runs hk ready running).trans
      (issueFor_instr sys wait held)
  rw [issue]
  refine ⟨issueAt_badLine, fun ok fetched line => ⟨fun x hx => ?_, fun e he => issueAt_refused ok fetched line he⟩⟩
  obtain ⟨v, hv⟩ := exec_next x.instr u
  exact ⟨v, hv, by rw [issueAt_decoded ok fetched line hx, hv]; rfl⟩

/-! ### The issue of a chain -/

/-- A chain that is due issues the instruction in its slot, and moves on from it. -/
theorem issueChain_decoded {s t v : State} {n : Nat} {e : Eng} {l : Line} {x : Slot}
    (ht : t = { s with focus := { s.focus with tile := n, eng := e } }) (current : t.pt.cur.isSome = true)
    (going : (t.job.node n).paused = false) (running : (t.job.node n).stop = none) (live : t.chain.live = true)
    (due : t.chain.due = t.now) (line : t.pt.line t.chain.line = some l)
    (word : decodeOn (engNum e) (l.word t.chain.slot) = .ok x)
    (hv : exec x.instr (t.onTl (Tile.countIssue
      (e != .reeve && Sys2Proof.Machine.Instr.hasNf x.instr && t.nullified ((l.word t.chain.slot).extractLsb' 0 4)))) = .next v) :
    s.issueChain n e = .next v.chainMoves := by
  have present : t.pt.cur.isNone = false := by rw [← Option.not_isSome, current]; rfl
  have wanted : (t.pt.cur.isNone || (t.job.node n).paused || (t.job.node n).stop.isSome || !t.chain.live
      || t.chain.due != t.now) = false := by
    simp [present, going, running, live, due]
  subst ht
  simp only [State.issueChain, wanted, Bool.false_eq_true, if_false, line, Option.map_some, word, hv]

theorem stepRunsTimedInstruction : Claims.StepRunsTimedInstruction := by
  intro s p n e rest l x t node w u power entry current going running live due line word
  obtain ⟨v, hv⟩ := exec_next x.instr u
  refine ⟨v, hv, ?_⟩
  rw [step_entry entry power]
  exact issueChain_decoded (s := { s with agenda := rest, focus := { s.focus with part := p } }) rfl current going running
    live due line word hv

/-- Settles O58: a context's issue, a chain's, and what a word that is no instruction raises. -/
theorem stepRunsInstruction : Obligations.StepRunsInstruction :=
  ⟨stepRunsContextInstruction, stepRunsTimedInstruction, decodeFaults⟩

end Machine

end Sys2Proof
end

section
/-!
SUPPORT. What leaves every byte of memory as it was: the updates of a core, the waits, the faults of an instruction, and an
instruction that reads its operands and then keeps every byte (02 R68, 04 R119).
-/

namespace Sys2Proof.Machine

theorem bytesKept_trans {s t u : State} (h : s.bytesKept t) (k : t.bytesKept u) : s.bytesKept u := by
  obtain ⟨homes, loft, host⟩ := h
  obtain ⟨homes', loft', host'⟩ := k
  exact ⟨fun x => (homes' x).trans (homes x), fun a => (loft' a).trans (loft a), fun a => (host' a).trans (host a)⟩

/-- A change of one core outside its stepped regions changes no byte of memory. -/
theorem bytesKept_onCoreAt (s : State) (c : Nat) (f : Core → Core) (h : (f (s.coreAt c)).stepped = (s.coreAt c).stepped) :
    s.bytesKept (s.onCoreAt c f) := by
  refine bytesKept_onJob s _ (fun _ => rfl) fun d => ?_
  rw [Job.core_onCore]
  split
  · rename_i e
    subst e
    exact h
  · rfl

theorem bytesKept_onCr (s : State) (f : Core → Core) (h : (f s.cr).stepped = s.cr.stepped) : s.bytesKept (s.onCr f) :=
  bytesKept_onCoreAt s _ f h

theorem bytesKept_onHm (s : State) (f : Hamlet → Hamlet) : s.bytesKept (s.onHm f) :=
  bytesKept_onJob s _ (fun _ => rfl) fun _ => rfl

/-- What the package sends and the free sequence stand outside memory. -/
theorem bytesKept_outside (s : State) (out : List LinkOut) (free : Nat) : s.bytesKept { s with out := out, free := free } :=
  ⟨fun h => by cases h <;> rfl, fun _ => rfl, fun _ => rfl⟩

theorem bytesKept_draw (s : State) : s.bytesKept s.draw := bytesKept_outside s s.out _

/-! ### Waits -/

theorem bytesKept_park (s : State) (w : Wait) : s.bytesKept (s.park w) :=
  bytesKept_onCr s _ (by rw [Core.onCtx_stepped, Core.release_stepped])

theorem bytesKept_again (s : State) (w : Wait) : s.bytesKept (s.again w) :=
  bytesKept_trans (bytesKept_onCx s _) (bytesKept_park _ w)

/-! ### Faults -/

theorem bytesKept_raiseHold (s : State) (n : Nat) (len : Option Nat) : s.bytesKept (s.raiseHold n len) :=
  bytesKept_trans (bytesKept_onJob s _ (fun _ => rfl) fun _ => rfl) (bytesKept_outside _ _ _)

theorem bytesKept_gangStop (s : State) (o : Origin) (c d c2 : BitVec 8) (aux : Word) : s.bytesKept (s.gangStop o c d c2 aux) := by
  obtain ⟨_, _, _, e⟩ | ⟨_, _, _, e⟩ | ⟨_, e⟩ := s.gangStop_cases o c d c2 aux
  · rw [e]
    exact bytesKept_refl s
  · rw [e]
    exact bytesKept_onJob s _ (fun _ => rfl) fun _ => rfl
  · rw [e]
    exact bytesKept_trans (bytesKept_raiseHold s _ _) (bytesKept_onJob _ _ (fun _ => rfl) fun _ => rfl)

theorem bytesKept_trap (s : State) (c d : BitVec 8) (f1 f2 f3 : Word) (r : BitVec 29) : s.bytesKept (s.trap c d f1 f2 f3 r) := by
  obtain ⟨_, _, _, e⟩ | ⟨_, t, only, -, -, -, -, -, -, e⟩ := s.trap_cases c d f1 f2 f3 r
  · rw [e]
    exact bytesKept_gangStop s _ _ _ _ _
  · have entered := bytesKept_trans (bytesKept_endTurn s) (bytesKept_onlyContext only)
    rw [e]
    split
    · exact bytesKept_trans entered (bytesKept_gangStop t _ _ _ _ _)
    · exact entered

theorem bytesKept_fault (s : State) (c d : BitVec 8) (f1 : Word) : s.bytesKept (s.fault c d f1) := bytesKept_trap s _ _ _ _ _ _

theorem bytesKept_upcall (s : State) (c d : BitVec 8) (ft : BitVec 16) (f1 f2 f3 : Word) (r : BitVec 29) :
    s.bytesKept (s.upcall c d ft f1 f2 f3 r) :=
  bytesKept_trans (bytesKept_endTurn s) (bytesKept_onlyContext (s.upcall_only c d ft f1 f2 f3 r))

theorem bytesKept_transFault (s : State) (d : BitVec 8) (va : Word) (fetch : Bool) : s.bytesKept (s.transFault d va fetch) := by
  unfold State.transFault
  split
  · exact bytesKept_gangStop s _ _ _ _ _
  · have recorded := bytesKept_trans (bytesKept_draw s) (bytesKept_onHm s.draw fun h =>
      { h with svc := h.svc ++ [{ tag := s.freshTag, core := s.focus.core, ctx := s.focus.ctx, va := va, detail := d,
                                  upcall := !fetch && s.cx.upcalls, done := false, sent := false }] })
    dsimp only
    split
    · exact bytesKept_trans recorded (bytesKept_upcall _ _ _ _ _ _ _ _)
    · exact bytesKept_trans recorded (bytesKept_again _ _)

theorem bytesKept_windowFault (s : State) (va : Word) : s.bytesKept (s.windowFault va) := by
  obtain ⟨_, e⟩ | ⟨_, e⟩ := s.windowFault_cases va
  · rw [e]
    exact bytesKept_upcall s _ _ _ _ _ _ _
  · rw [e]
    exact bytesKept_fault s _ _ _

theorem bytesKept_elemFault (s : State) (c d : BitVec 8) (va : Word) : s.bytesKept (s.elemFault c d va) := by
  unfold State.elemFault
  split
  · exact bytesKept_transFault s _ _ _
  · split
    · exact bytesKept_windowFault s _
    · exact bytesKept_fault s _ _ _

/-! ### Instructions that read operands -/

/-- Reading operands changes the context alone, a missing one parks it and a held fault is raised: an instruction keeps every
byte when what it does with the values read does. -/
theorem bytesKept_withSrc {α : Type} (s : State) (read : Ctx → Pop α) {k : α → State → State}
    (kept : ∀ (v : α) (t : State), t.bytesKept (k v t)) : s.bytesKept (s.withSrc read k) := by
  unfold State.withSrc
  split
  · split
    · exact bytesKept_trans (bytesKept_onCx s _) (kept _ _)
    · exact kept _ _
  · exact bytesKept_again s _
  · exact bytesKept_trans (bytesKept_onCx s _) (bytesKept_elemFault _ _ _ _)

theorem bytesKept_retire (s : State) (d : BitVec 6) (v : Word) : s.bytesKept (s.retire d v) := bytesKept_onCx s _
theorem bytesKept_retireD (s : State) (d : BitVec 5) (v : BitVec 512) : s.bytesKept (s.retireD d v) := bytesKept_onCx s _
theorem bytesKept_jump (s : State) (pc : BitVec 29) : s.bytesKept (s.jump pc) := bytesKept_onCx s _
theorem bytesKept_advance (s : State) : s.bytesKept s.advance := bytesKept_onCx s _

theorem bytesKept_laneShift (s : State) (d a : BitVec 5) (k : DShift) (m : BitVec 6) (f : BitVec 32 → Nat → BitVec 32) :
    s.bytesKept (s.laneShift d a k m f) := by
  unfold State.laneShift
  split
  · exact bytesKept_withSrc s _ fun _ v => bytesKept_retireD v _ _
  · exact bytesKept_withSrc s _ fun _ v => bytesKept_retireD v _ _

theorem bytesKept_ptrSum (s : State) (d : BitVec 6) (x y : Word) : s.bytesKept (s.ptrSum d x y) := by
  unfold State.ptrSum
  split
  · exact bytesKept_retire s _ _
  · exact bytesKept_fault s _ _ _

end Sys2Proof.Machine
end

section
/-!
PROOF. The instructions of groups 0 and 1, the branches, jumps and CALL, TRAP and ERET keep every byte of memory (02 R68, 04 R119).
-/

namespace Sys2Proof.Machine

section
variable {i : Instr} {s t u : State} {α : Type} {read : Ctx → Pop α}

/-- An instruction that answers a state with every byte as it was answers no other. -/
theorem kept (h : exec i s = .next u) (k : s.bytesKept u) (ht : exec i s = .next t) : s.bytesKept t := by
  cases h.symm.trans ht
  exact k

/-- An instruction that reads operands and writes G[d]. -/
theorem kept_writesG {d : BitVec 6} {f : α → Word} (h : exec i s = .next (s.withSrc read fun x v => v.retire d (f x))) :
    exec i s = .next t → s.bytesKept t :=
  kept h (bytesKept_withSrc s _ fun _ v => bytesKept_retire v _ _)

/-- An instruction that reads operands and writes D[d], whose old lanes it may keep. -/
theorem kept_writesD {d : BitVec 5} {f : α → State → BitVec 512}
    (h : exec i s = .next (s.withSrc read fun x v => v.retireD d (f x v))) : exec i s = .next t → s.bytesKept t :=
  kept h (bytesKept_withSrc s _ fun _ v => bytesKept_retireD v _ _)

/-- An instruction that reads operands and forms a pointer sum (04 R123). -/
theorem kept_sums {d : BitVec 6} {f g : α → Word} (h : exec i s = .next (s.withSrc read fun x v => v.ptrSum d (f x) (g x))) :
    exec i s = .next t → s.bytesKept t :=
  kept h (bytesKept_withSrc s _ fun _ v => bytesKept_ptrSum v _ _ _)

end

/-! ### Instructions whose meaning branches -/

theorem execPdiff_kept {d a b : BitVec 6} {s t : State} (h : exec (.pdiff d a b) s = .next t) : s.bytesKept t := by
  cases h
  refine bytesKept_withSrc s _ fun x t => ?_
  split
  · exact bytesKept_retire t _ _
  · exact bytesKept_fault t _ _ _

theorem execDhist_kept {rank : Bool} {d a b : BitVec 5} {m : BitVec 6} {s t : State}
    (h : exec (.dhist rank d a b m) s = .next t) : s.bytesKept t := by
  cases h
  refine bytesKept_withSrc s _ fun x t => ?_
  cases rank
  · exact bytesKept_retireD t _ _
  · exact bytesKept_retireD t _ _

theorem execBr_kept {cc : Cond} {a b : BitVec 6} {slot : BitVec 3} {line : BitVec 26} {s t : State}
    (h : exec (.br cc a b slot line) s = .next t) : s.bytesKept t := by
  cases h
  refine bytesKept_withSrc s _ fun x t => ?_
  split
  · exact bytesKept_jump t _
  · exact bytesKept_advance t

theorem execJmpr_kept {a : BitVec 6} {s t : State} : exec (.jmpr a) s = .next t → s.bytesKept t :=
  kept rfl (bytesKept_withSrc s _ fun _ v => bytesKept_onlyContext (v.jumpReg_only _))

theorem execCall_kept {slot : BitVec 3} {line : BitVec 26} {s t : State} (h : exec (.call slot line) s = .next t) :
    s.bytesKept t := by
  cases h
  exact bytesKept_trans (bytesKept_onCx s _) (bytesKept_jump _ _)

theorem execEret_kept {s t : State} (h : exec .eret s = .next t) : s.bytesKept t := by
  cases h
  split
  · exact bytesKept_onlyContext s.eret_only
  · exact bytesKept_fault s _ _ _

/-- Settles O3: each instruction, in the order of the statement, is one of a few operations that keep every byte. -/
theorem registerInstructionsKeepMemory : Obligations.RegisterInstructionsKeepMemory := by
  intro s t d a b c w imm imm30 cc rm x y z u m lm lc fc f g ks ty op flag j start slot line i hi
  revert i
  simp only [List.forall_mem_cons]
  exact ⟨kept rfl (bytesKept_advance s), kept_writesG rfl, kept_writesG rfl, kept_writesG rfl, kept_writesG rfl,
    kept_writesG rfl, kept_writesG rfl, kept_writesG rfl, kept_writesG rfl, kept_writesG rfl, kept_writesG rfl,
    kept_writesG rfl, kept_writesG rfl, kept_writesG rfl, kept_writesG rfl, kept_writesG rfl, kept_writesG rfl,
    kept_writesG rfl, kept_writesG rfl, kept_writesG rfl, kept_writesG rfl, kept_writesG rfl, kept_writesG rfl,
    kept_writesG rfl, kept_writesG rfl, kept_writesG rfl, kept_writesG rfl, kept_writesG rfl, kept_writesG rfl,
    kept_writesG rfl, kept_writesG rfl, kept_writesG rfl, kept_writesG rfl, kept_writesG rfl, kept_writesG rfl,
    kept_writesG rfl, kept_writesG rfl, kept rfl (bytesKept_retire s ..), kept_writesG rfl, kept_sums rfl, kept_sums rfl,
    kept_writesG rfl, kept_writesG rfl, execPdiff_kept, kept_writesG rfl, kept_writesG rfl, kept_writesG rfl,
    kept_writesG rfl, kept_writesG rfl, kept_writesG rfl, kept_writesG rfl, kept_writesG rfl, kept_writesG rfl,
    kept_writesD rfl, kept_writesD rfl, kept_writesD rfl, kept_writesD rfl, kept_writesD rfl, kept_writesD rfl,
    kept_writesD rfl, kept_writesD rfl, kept_writesD rfl, kept rfl (bytesKept_laneShift s ..), kept rfl (bytesKept_laneShift s ..), kept_writesD rfl,
    kept_writesD rfl, kept_writesD rfl, kept_writesD rfl, kept_writesG rfl, kept_writesD rfl, kept_writesD rfl, kept_writesD rfl,
    kept_writesD rfl, execDhist_kept, kept_writesD rfl, execBr_kept, kept rfl (bytesKept_jump s _), execJmpr_kept,
    execCall_kept, kept rfl (bytesKept_trap s ..), execEret_kept, fun _ none => absurd none List.not_mem_nil⟩

end Sys2Proof.Machine
end

section
/-!
SUPPORT. Operands read, contexts started, and mail settled: what each leaves of the context in focus, of the other contexts, and of
memory (05 R153-R167).
-/

namespace Sys2Proof

theorem SMap.insert_insert {α : Type} (m : SMap α) (k : Nat) (a b : α) :
    SMap.insert (SMap.insert m k a) k b = SMap.insert m k b := by
  induction m with
  | nil => simp [SMap.insert]
  | cons x r ih =>
    obtain ⟨j, w⟩ := x
    rcases Nat.lt_trichotomy k j with h | rfl | h
    · have ne : j ≠ k := by omega
      simp [SMap.insert, h, ne]
    · simp [SMap.insert]
    · have ne : j ≠ k := by omega
      simp [SMap.insert, ne, Nat.not_lt.mpr (Nat.le_of_lt h), ih]

namespace Machine

theorem upd_upd {α : Type} [Inhabited α] (m : SMap α) (k : Nat) (f g : α → α) :
    upd (upd m k f) k g = upd m k fun x => g (f x) := by
  simp only [upd, SMap.get_insert, if_true, SMap.insert_insert]

theorem Core.onCtx_onCtx (c : Core) (k : Nat) (f g : Ctx → Ctx) : (c.onCtx k f).onCtx k g = c.onCtx k fun x => g (f x) := by
  simp only [Core.onCtx, upd_upd]

theorem State.onCoreAt_onCoreAt (s : State) (c : Nat) (f g : Core → Core) :
    (s.onCoreAt c f).onCoreAt c g = s.onCoreAt c fun x => g (f x) := by
  refine (State.onJob_onJob s _ _).trans (congrArg s.onJob (funext fun j => ?_))
  simp only [Job.onCore, upd_upd]

theorem State.onCx_onCx (s : State) (f g : Ctx → Ctx) : (s.onCx f).onCx g = s.onCx fun c => g (f c) :=
  (State.onCoreAt_onCoreAt s _ _ _).trans (congrArg (s.onCoreAt _) (funext fun c => Core.onCtx_onCtx c _ f g))

/-! ### Operands -/

/-- An instruction whose operands are read goes on with their values. -/
theorem State.withSrc_reads {α : Type} {s t : State} {read : Ctx → Pop α} {v : α} (h : s.reads read v t)
    (k : α → State → State) : s.withSrc read k = k v t := by
  obtain ⟨c, hc, rfl⟩ := h
  simp only [State.withSrc, hc]
  split
  · rfl
  · rfl

/-- Reading operands changes nothing but the context in focus. -/
theorem State.reads_cases {α : Type} {s t : State} {read : Ctx → Pop α} {v : α} (h : s.reads read v t) :
    t = s ∨ ∃ c : Ctx, read { s.cx with undo := none } = .ok v c ∧ t = s.onCx fun _ => c := by
  obtain ⟨c, hc, rfl⟩ := h
  split
  · exact .inr ⟨c, hc, rfl⟩
  · exact .inl rfl

theorem State.reads_focus {α : Type} {s t : State} {read : Ctx → Pop α} {v : α} (h : s.reads read v t) :
    t.focus = s.focus := by
  obtain rfl | ⟨_, _, rfl⟩ := State.reads_cases h
  · rfl
  · rfl

theorem State.reads_kept {α : Type} {s t : State} {read : Ctx → Pop α} {v : α} (h : s.reads read v t) : s.bytesKept t := by
  obtain rfl | ⟨_, _, rfl⟩ := State.reads_cases h
  · exact bytesKept_refl _
  · exact bytesKept_onCx s _

/-- From context `c` to context `e` registers were popped at most: no G register and no program counter differs. -/
def Ctx.popped (c e : Ctx) : Prop := e.g = c.g ∧ e.pc = c.pc

/-- A reading of operands that pops registers at most. -/
def popsOnly {α : Type} (read : Ctx → Pop α) : Prop := ∀ (c e : Ctx) (v : α), read c = .ok v e → c.popped e

theorem popsOnly_pop (x : Nat) : popsOnly fun c => c.pop x := by
  intro c e v h
  simp only [Ctx.pop] at h
  split at h
  · cases h
    exact ⟨rfl, rfl⟩
  · split at h
    · cases h
    · cases h
      exact ⟨rfl, rfl⟩
    · cases h

theorem popsOnly_ok {α : Type} (v : Ctx → α) : popsOnly fun c => .ok (v c) c := by
  intro c e w h
  cases h
  exact ⟨rfl, rfl⟩

theorem popsOnly_andThen {α β : Type} {read : Ctx → Pop α} {next : α → Ctx → Pop β} (hr : popsOnly read)
    (hn : ∀ v, popsOnly (next v)) : popsOnly fun c => (read c).andThen next := by
  intro c e w h
  cases hc : read c with
  | ok v d =>
    dsimp only at h
    rw [hc] at h
    obtain ⟨g, pc⟩ := hr c d v hc
    obtain ⟨g', pc'⟩ := hn v d e w h
    exact ⟨g'.trans g, pc'.trans pc⟩
  | wait x => dsimp only at h; rw [hc] at h; cases h
  | bad a b x d => dsimp only at h; rw [hc] at h; cases h

theorem popsOnly_srcG (r : BitVec 6) : popsOnly fun c => c.srcG r := by
  intro c e v h
  simp only [Ctx.srcG] at h
  split at h
  · split at h
    · exact popsOnly_andThen (popsOnly_pop _) (fun v => popsOnly_ok fun _ => v.setWidth 64) c e v h
    · cases h
      exact ⟨rfl, rfl⟩
  · cases h
    exact ⟨rfl, rfl⟩

theorem popsOnly_srcG2 (a b : BitVec 6) : popsOnly (Ctx.srcG2 a b) :=
  popsOnly_andThen (popsOnly_srcG a) fun x => popsOnly_andThen (popsOnly_srcG b) fun y => popsOnly_ok fun _ => (x, y)

theorem State.reads_popped {α : Type} {s t : State} {read : Ctx → Pop α} {v : α} (h : s.reads read v t)
    (pops : popsOnly read) : s.cx.popped t.cx := by
  obtain rfl | ⟨c, hc, rfl⟩ := State.reads_cases h
  · exact ⟨rfl, rfl⟩
  · rw [State.cx_onCx]
    exact pops { s.cx with undo := none } c v hc

/-! ### Waits -/

theorem State.park_cx (s : State) (w : Wait) : (s.park w).cx = { s.cx with state := .parked, wait := w } := by
  rw [State.park, State.cx_onCr, Core.ctx_onCtx_self, Core.release_ctx]
  rfl

theorem Ctx.rollback_popped (c : Ctx) : c.popped c.rollback := by
  unfold Ctx.rollback
  split
  · exact ⟨rfl, rfl⟩
  · exact ⟨rfl, rfl⟩

/-- An instruction that will issue again leaves its context parked where it stood. -/
theorem State.again_cx (s : State) (w : Wait) :
    (s.again w).cx.state = .parked ∧ (s.again w).cx.wait = w ∧ s.cx.popped (s.again w).cx := by
  rw [State.again, State.park_cx, State.cx_onCx]
  exact ⟨rfl, rfl, s.cx.rollback_popped⟩

/-! ### A helper that starts -/

theorem Part.line_onJob (p : Part) (f : Job → Job) (l : Nat) : (p.onJob f).line l = p.line l := rfl

theorem enterLine_onJob (p : Part) (f : Job → Job) (n l : Nat) : enterLine (p.onJob f) n l = enterLine p n l := by
  induction n generalizing l with
  | zero => rfl
  | succ n ih => simp only [enterLine, Part.line_onJob, ih]

/-- The successor of an instruction rests on the image alone. -/
theorem succ_onJob (p : Part) (f : Job → Job) (pc : BitVec 29) : succ (p.onJob f) pc = succ p pc := by
  simp only [succ, Part.line_onJob, enterLine_onJob]

theorem State.coreAt_onHm (s : State) (f : Hamlet → Hamlet) (c : Nat) : (s.onHm f).coreAt c = s.coreAt c := by
  rw [State.coreAt, State.onHm, State.job_onJob]
  rfl

theorem State.hm_onCtxAt (s : State) (c k : Nat) (f : Ctx → Ctx) : (s.onCtxAt c k f).hm = s.hm := by
  rw [State.hm, State.onCtxAt, State.onCoreAt, State.job_onJob]
  rfl

theorem State.ctxAt_onCtxAt_ne (s : State) (c : Nat) (f : Ctx → Ctx) {k l : Nat} (h : k ≠ l) :
    (s.onCtxAt c k f).ctxAt c l = s.ctxAt c l := by
  rw [State.ctxAt, State.onCtxAt, State.coreAt_onCoreAt_self, Core.ctx_onCtx, if_neg h]
  rfl

/-- With nothing in the hamlet's pending queue there is no message to take in. -/
theorem State.takePending_none {s : State} (k : Nat) (h : s.hm.pendq = []) :
    s.takePending k = s.onHm fun h => { h with pendq := h.pendq.filter fun x => !(x.1 == s.focus.core && x.2.dst == k) } := by
  simp only [State.takePending, h, List.filter_nil, List.foldl_nil]

/-- A register that nothing is listed for reads zero. -/
theorem bitVec_default (n : Nat) : (default : BitVec n) = 0#n := rfl

theorem Ctx.started_rg (c : Ctx) (x y : Word) (p : BitVec 2) (pc : BitVec 29) (r : BitVec 6) :
    (c.started x y p pc).rg r = if r = 1#6 then x else if r = 2#6 then y else 0#64 := by
  by_cases h1 : r = 1#6
  · subst h1
    simp [Ctx.rg, Ctx.started, SMap.get_set]
  by_cases h2 : r = 2#6
  · subst h2
    simp [Ctx.rg, Ctx.started]
  have n1 : 1 ≠ r.toNat := fun e => h1 (BitVec.eq_of_toNat_eq e.symm)
  have n2 : 2 ≠ r.toNat := fun e => h2 (BitVec.eq_of_toNat_eq e.symm)
  simp [Ctx.rg, Ctx.started, SMap.get_set, h1, h2, n1, n2, bitVec_default]

theorem Ctx.started_rd (c : Ctx) (x y : Word) (p : BitVec 2) (pc : BitVec 29) (r : BitVec 5) :
    (c.started x y p pc).rd r = 0#512 := by
  rw [Ctx.rd, Ctx.started, SMap.get_nil, bitVec_default]

/-- The state in which a helper has been set up: its hamlet's pending queue was empty. -/
theorem State.startHelper_eq {t : State} {k : Nat} (a : BitVec 6) (x : Word) (p : BitVec 2) (pc : BitVec 29)
    (empty : t.hm.pendq = []) : ∃ f : Hamlet → Hamlet, t.startHelper k a x p pc =
      ((t.onCtxAt t.focus.core k fun c => c.started x (BitVec.ofNat 64 t.me) p pc).onHm f).retire a (BitVec.ofNat 64 k) :=
  ⟨_, congrArg (fun u : State => u.retire a (BitVec.ofNat 64 k))
    (State.takePending_none k (by rw [State.hm_onCtxAt]; exact empty))⟩

/-- START of another context than the starter's, with no message waiting for it, leaves the helper started and the starter at its
successor with the helper's number in G[a]. -/
theorem helperStarted_startHelper {t : State} {k : Nat} (a : BitVec 6) (x : Word) (p : BitVec 2) (pc : BitVec 29)
    (other : k ≠ t.focus.ctx) (empty : t.hm.pendq = []) : Claims.helperStarted t (t.startHelper k a x p pc) p a pc x k := by
  obtain ⟨f, started⟩ := State.startHelper_eq a x p pc empty
  rw [started]
  generalize hw : (t.onCtxAt t.focus.core k fun c => c.started x (BitVec.ofNat 64 t.me) p pc).onHm f = w
  have focus : w.focus = t.focus := by rw [← hw]; rfl
  have helper : w.ctxAt t.focus.core k = (t.ctxAt t.focus.core k).started x (BitVec.ofNat 64 t.me) p pc := by
    rw [← hw, State.ctxAt, State.coreAt_onHm]
    exact State.ctxAt_onCtxAt_self t _ _ _
  have starter : w.cx = t.cx := by
    rw [State.cx, focus, ← hw, State.ctxAt, State.coreAt_onHm]
    exact State.ctxAt_onCtxAt_ne t _ _ other
  have image : succ w.pt t.cx.pc = succ t.pt t.cx.pc := by
    rw [← hw, State.pt_onHm, State.pt_onCtxAt, succ_onJob, succ_onJob]
  have apart : (w.retire a (BitVec.ofNat 64 k)).ctxAt t.focus.core k = w.ctxAt t.focus.core k := by
    rw [State.retire, State.onCx, focus]
    exact State.ctxAt_onCtxAt_ne w _ _ other.symm
  refine ⟨?_, ?_, fun r => ?_⟩
  · rw [apart, helper]
    refine ⟨rfl, rfl, rfl, ?_, ?_, fun r h1 h2 => ?_, Ctx.started_rd _ _ _ _ _, rfl, rfl, rfl, rfl, rfl, rfl⟩
    · rw [Ctx.started_rg, if_pos rfl]
    · rw [Ctx.started_rg, if_neg (by decide), if_pos rfl]
    · rw [Ctx.started_rg, if_neg h1, if_neg h2]
  · rw [State.retire_cx, starter, Ctx.advance_pc, Ctx.wg_pc, image]
  · rw [State.retire_cx, starter]
    exact (Ctx.rg_wg t.cx a _ r).trans (ite_congr (by simp) (fun _ => rfl) fun _ => rfl)

/-! ### Mail -/

theorem Core.enter_stepped (c : Core) (e : MEntry) : (c.enter e).stepped = c.stepped := rfl

theorem Core.settle_stepped (n : Nat) (c : Core) : (c.settle n).stepped = c.stepped := by
  induction n generalizing c with
  | zero => rfl
  | succ n ih =>
    unfold Core.settle
    split
    · split
      · rw [ih, Core.enter_stepped]
      · rw [ih, Core.enter_stepped]
      · rfl
    · rfl

theorem Part.wakeMail_stepped (p : Part) (c : Core) (k : Nat) : (p.wakeMail c k).stepped = c.stepped := by
  unfold Part.wakeMail
  dsimp only
  split
  · split
    · exact Core.onCtx_stepped c k _
    · rfl
  · rfl

theorem Part.wakeAllMail_stepped (p : Part) (c : Core) : (p.wakeAllMail c).stepped = c.stepped :=
  List.foldlRecOn (motive := fun x : Core => x.stepped = c.stepped) (List.range 11) _ rfl fun x h k _ =>
    (Part.wakeMail_stepped p x k).trans h

/-- Steps that each keep every byte keep it together. -/
theorem bytesKept_foldl {α : Type} (f : State → α → State) (kept : ∀ (s : State) (x : α), s.bytesKept (f s x)) (l : List α) (s : State) :
    s.bytesKept (l.foldl f s) :=
  List.foldlRecOn (motive := s.bytesKept) l f (bytesKept_refl s) fun t h x _ => bytesKept_trans h (kept t x)

theorem bytesKept_tookRegion (s : State) (c k : Nat) (d : BitVec 6) (n : BitVec 8) (e : MEntry) :
    s.bytesKept (s.tookRegion c k d n e) :=
  bytesKept_trans (bytesKept_onJob s _ (fun _ => rfl) fun _ => rfl) (bytesKept_onCoreAt _ c _ (Core.onCtx_stepped _ k _))

theorem bytesKept_wakeTakes (s : State) (c : Nat) : s.bytesKept (s.wakeTakes c) := by
  refine bytesKept_foldl _ (fun s k => ?_) _ s
  split
  · split
    · split
      · exact bytesKept_refl s
      · exact bytesKept_tookRegion s _ _ _ _ _
    · exact bytesKept_refl s
  · exact bytesKept_refl s

theorem bytesKept_settle (s : State) (c : Nat) : s.bytesKept (s.settle c) :=
  bytesKept_trans (bytesKept_onCoreAt s c (fun x => s.pt.wakeAllMail (x.settle (x.spill.length + x.netif.length)))
    ((Part.wakeAllMail_stepped _ _).trans (Core.settle_stepped _ _))) (bytesKept_wakeTakes _ c)

theorem bytesKept_sendMsg (s : State) (m : Msg) : s.bytesKept (s.sendMsg m) :=
  bytesKept_onJob s _ (fun _ => rfl) fun _ => rfl

theorem bytesKept_exitMail (s : State) (k : Nat) : s.bytesKept (s.exitMail k) :=
  bytesKept_trans (bytesKept_onCr s _ rfl)
    (bytesKept_trans (bytesKept_foldl _ (fun t _ => bytesKept_sendMsg t _) _ _) (bytesKept_settle _ _))

end Machine
end Sys2Proof
end

section
/-!
PROOF. Branches, and starting, ending, yielding and asking about contexts (05 R152-R155; 09 R298; 10 R315).
-/

namespace Sys2Proof.Machine

/-! ### Branches -/

theorem target_eq_setWidth (x : Word) : x.extractLsb' 0 29 = x.setWidth 29 := BitVec.setWidth_eq_extractLsb' (by decide) |>.symm

theorem beyond_target_iff (x : Word) : (x.extractLsb' 29 35 != 0#35) = true ↔ x.toNat / 2 ^ 29 ≠ 0 := by
  have := x.isLt
  rw [bne_iff_ne, ne_eq, ← BitVec.toNat_inj, BitVec.extractLsb'_toNat, Nat.shiftRight_eq_div_pow]
  simp only [BitVec.toNat_ofNat]
  omega

/-- The G registers after CALL has written G63, which is never in stream mode. -/
theorem call_rg (s : State) (v : Word) (pc : BitVec 29) (r : BitVec 6) :
    ((s.onCx fun c => c.wg 63#6 v).jump pc).cx.rg r = if r = 63#6 then v else s.cx.rg r := by
  rw [State.jump, State.onCx_onCx, State.cx_onCx]
  have plain : s.cx.active (gStream 63#6) = false := rfl
  exact (Ctx.rg_wg s.cx 63#6 v r).trans (ite_congr (by simp [plain]) (fun _ => rfl) fun _ => rfl)

theorem branches : Claims.Branches := by
  refine ⟨fun s t cc a b slot line x y h => ?_, fun s slot line => rfl, fun s t a x h => ?_, fun s slot line => ?_,
    fun s p => ?_⟩
  · rw [exec_br, execBr, State.withSrc_reads h]
  · refine ⟨t.jumpReg x, ?_, ?_, ?_, ?_, t.jumpReg_only x, bytesKept_onCx t _⟩
    · rw [exec_jmpr, execJmpr, State.withSrc_reads h]
    · rw [State.jumpReg_pc, target_eq_setWidth]
    · rw [State.jumpReg, State.cx_onCx]
      exact beyond_target_iff x
    · rw [State.jumpReg, State.cx_onCx]
  · refine ⟨_, rfl, State.jump_pc _ _, (call_rg s _ _ _).trans (if_pos rfl), fun r hr => (call_rg s _ _ r).trans (if_neg hr), ?_,
      execCall_kept (slot := slot) (line := line) rfl⟩
    rw [State.jump, State.onCx_onCx]
    exact onlyContext_onCx s _
  · rw [State.jump, State.cx_onCx]
    exact ⟨rfl, rfl, rfl, rfl, onlyContext_onCx s _, bytesKept_onCx s _⟩

/-! ### START -/

theorem Core.freeHelper_some {c : Core} {k : Nat} (h : c.freeHelper = some k) :
    1 ≤ k ∧ k ≤ 10 ∧ (c.ctx k).state = .free ∧ ∀ j : Nat, 1 ≤ j → j < k → (c.ctx j).state ≠ .free := by
  obtain ⟨found, range, first⟩ := List.find?_range_eq_some.mp h
  simp at found range first
  exact ⟨by omega, by omega, found.2, fun j low high free => (first j high).elim (by omega) (absurd free)⟩

theorem execStart_asked {s t : State} (p : BitVec 2) {a b : BitVec 6} {slot : BitVec 3} {line : BitVec 26} {x y : Word}
    (det : s.pt.det = true) (h : s.reads (Ctx.srcG2 a b) (x, y) t) :
    exec (.start p a b slot line) s = .next (
      if x.toNat < 1 ∨ 10 < x.toNat then t.fault 0x09#8 0#8 0#64
      else if (t.cr.ctx x.toNat).state = .free then t.startHelper x.toNat a y p (line ++ slot)
      else t.again (.helper x.toNat)) := by
  rw [exec_start, execStart, det, if_pos rfl, State.withSrc_reads h]

theorem startHelper : Claims.StartHelper := by
  refine ⟨fun s t p a b slot line x k det h free other empty => ?_, fun s t p a b slot line x y det h low high => ⟨?_, ?_⟩,
    fun s t p a b slot line x det h none => ?_, fun s t p a b slot line x y det h range => ?_,
    fun c k => Core.freeHelper_some⟩
  · refine ⟨t.startHelper k a x p (line ++ slot), ?_, helperStarted_startHelper a x p _ (by rwa [State.reads_focus h]) empty⟩
    rw [exec_start, execStart, det, State.withSrc_reads h]
    simp only [free]
    rfl
  · intro free other empty
    refine ⟨_, execStart_asked p det h, ?_⟩
    rw [if_neg (by omega), if_pos free]
    exact helperStarted_startHelper a y p _ (by rwa [State.reads_focus h]) empty
  · intro busy
    refine ⟨_, execStart_asked p det h, ?_⟩
    rw [if_neg (by omega), if_neg busy]
    obtain ⟨parked, wait, g, pc⟩ := State.again_cx t (.helper x.toNat)
    obtain ⟨g', pc'⟩ := State.reads_popped h (popsOnly_srcG2 a b)
    exact ⟨parked, wait, pc.trans pc', g.trans g', bytesKept_trans (State.reads_kept h) (bytesKept_again t _)⟩
  · rw [exec_start, execStart, det, State.withSrc_reads h]
    simp only [none]
    rfl
  · rw [execStart_asked p det h, if_pos]
    rcases range with rfl | high
    · exact .inl (by decide)
    · exact .inr high

/-! ### EXIT, YIELD and CTXQ -/

/-- What a context has pending is performed as that says. -/
theorem execAccessPerformed_pending {s : State} {p : Pend} (small : s.focus.ctx < 16) (wait : s.cx.wait = .pend p)
    (performs : s.cx.performs = true) : exec (.accessPerformed s.focus.ctx) s = .next (s.performPend p 0) := by
  have which : s.focus.ctx % 32 = s.focus.ctx := by omega
  have part : s.focus.ctx / 32 = 0 := by omega
  simp only [exec_accessPerformed, execAccessPerformed, which, part, small, if_true, wait, performs]

theorem exitFrees : Claims.ExitFrees := by
  refine ⟨fun s => ⟨_, rfl, ?_⟩, fun s small parked wait => ?_⟩
  · rw [State.park_cx, State.cx_onCx]
    exact ⟨rfl, rfl, rfl, bytesKept_trans (bytesKept_onHm s _) (bytesKept_trans (bytesKept_onCx _ _) (bytesKept_park _ _))⟩
  · have performed := execAccessPerformed_pending (by omega) wait (by rw [Ctx.performs, parked]; rfl)
    rw [performed]
    refine ⟨fun ready => ⟨_, rfl, ?_⟩, fun busy => ?_⟩
    · have done : s.performPend .exit 0 = (s.exitMail s.focus.ctx).onCx fun c =>
          { c with strmAct := 0#16, strms := [], held := [], state := .free, wait := .none, inupc := false, undo := none } := by
        simp [State.performPend, State.exitDone, ready]
      rw [done, State.cx_onCx]
      exact ⟨rfl, rfl, bytesKept_trans (bytesKept_exitMail s _) (bytesKept_onCx _ _)⟩
    · simp [State.performPend, State.exitDone, busy]

theorem Core.running_release (k : Nat) (c : Core) : (c.release k).running = if c.running = some k then none else c.running := by
  unfold Core.release
  split
  · rfl
  · rfl

/-- The helpers counted one by one are those of the list without context 0. -/
theorem freeHelpers_count (c : Core) :
    ((List.range 11).countP fun k => k != 0 && (c.ctx k).state == .free)
      = ([1, 2, 3, 4, 5, 6, 7, 8, 9, 10].filter fun k => (c.ctx k).state == .free).length := by
  rw [show List.range 11 = 0 :: [1, 2, 3, 4, 5, 6, 7, 8, 9, 10] from rfl, List.countP_cons_of_neg (by simp),
    List.countP_eq_length_filter]
  refine congrArg List.length (List.filter_congr fun k hk => ?_)
  have : k ≠ 0 := by rintro rfl; simp at hk
  simp [this]

theorem yieldAndQuery : Claims.YieldAndQuery := by
  refine ⟨fun s => ⟨s.endTurn.onCx fun c => { (c.advance s.pt) with state := .ready }, rfl, ?_⟩, fun s t d a x h => ?_,
    fun s d a => ⟨rfl, ?_⟩⟩
  · rw [State.cx_onCx, State.endTurn_cx, State.cr_onCx, Core.onCtx_running, State.endTurn, State.cr_onCr, Core.running_release]
    exact ⟨rfl, rfl, rfl, rfl, bytesKept_trans (bytesKept_endTurn s) (bytesKept_onCx _ _)⟩
  · rw [exec_ctxq, execCtxq, State.withSrc_reads h]
    refine congrArg (fun v => Host.Outcome.next (t.retire d v)) (ite_congr rfl (fun _ => ?_) fun _ => rfl)
    cases (t.cr.ctx x.toNat).state <;> rfl
  · rw [exec_ctxq, execCtxq, freeHelpers_count]

/-- Settles O17: branches and START, EXIT, YIELD and CTXQ, each as its lemma says. -/
theorem branchesAndContexts : Obligations.BranchesAndContexts := ⟨branches, startHelper, exitFrees, yieldAndQuery⟩

end Sys2Proof.Machine
end
